-- ==== Sys2Proof/Word.lean ====
section
/-!
DEFINITION. The words of the machine (R5, R7) and the sparse maps that hold memories and register files.
-/

namespace Sys2Proof

/-- A byte of memory (R5). -/
abbrev Byte := BitVec 8
/-- A 32-bit register (R107). -/
abbrev Word := BitVec 32
/-- A 64-bit value: a register pair, a PC, an address (R93, R105). -/
abbrev DWord := BitVec 64

/-- A sparse map from numbers to values, keys strictly rising: a memory, a register file, a set of lanes. -/
abbrev NMap (α : Type) := List (Nat × α)

end Sys2Proof
end

