-- ==== Sys2Proof/Machine/Map.lean ====
section
/-!
DEFINITION. Reading and writing sparse maps (memories, register files, tables), bits and bytes.
-/

namespace Sys2Proof.Machine

/-- The value listed at `k`, or none. -/
def NMap.find? {α : Type} (m : NMap α) (k : Nat) : Option α :=
  match m with
  | [] => none
  | (j, v) :: r => if j = k then some v else NMap.find? r k

/-- The value at `k`; an unlisted key reads as `d`. -/
def NMap.get {α : Type} (d : α) (m : NMap α) (k : Nat) : α := (NMap.find? m k).getD d

/-- List `v` at `k`, keeping the keys rising. -/
def NMap.put {α : Type} (m : NMap α) (k : Nat) (v : α) : NMap α :=
  match m with
  | [] => [(k, v)]
  | (j, u) :: r =>
    if k < j then (k, v) :: (j, u) :: r
    else if k = j then (k, v) :: r
    else (j, u) :: NMap.put r k v

/-- Unlist `k`. -/
def NMap.erase {α : Type} (m : NMap α) (k : Nat) : NMap α :=
  match m with
  | [] => []
  | (j, u) :: r => if j = k then NMap.erase r k else (j, u) :: NMap.erase r k

/-- Write `v` at `k` in canonical form: the value an unlisted key reads as is not listed. -/
def NMap.set {α : Type} [DecidableEq α] (d : α) (m : NMap α) (k : Nat) (v : α) : NMap α :=
  if v = d then NMap.erase m k else NMap.put m k v

/-- Keys strictly rising from `lo`, nothing listed at `d`. -/
def NMap.wfFrom {α : Type} [DecidableEq α] (d : α) (lo : Nat) : NMap α → Bool
  | [] => true
  | (k, v) :: r => decide (lo ≤ k) && decide (v ≠ d) && NMap.wfFrom d (k + 1) r

/-- Canonical form: keys strictly rising, nothing listed at `d`. -/
def NMap.wf {α : Type} [DecidableEq α] (d : α) (m : NMap α) : Bool := NMap.wfFrom d 0 m

def NMap.keys {α : Type} (m : NMap α) : List Nat := m.map Prod.fst
def NMap.vals {α : Type} (m : NMap α) : List α := m.map Prod.snd

/-- Change the value at `k`. -/
def NMap.mod {α : Type} (d : α) (m : NMap α) (k : Nat) (f : α → α) : NMap α :=
  NMap.put m k (f (NMap.get d m k))

/-- The canonical form of a memory. -/
abbrev Memory.wf (m : NMap Byte) : Bool := NMap.wf (0 : Byte) m

/-! ### Bytes and numbers, little-endian (R5) -/

/-- `n` bytes at `a`, ascending. -/
def Memory.bytes (m : NMap Byte) (a n : Nat) : List Byte := (List.range n).map fun i => NMap.get 0 m (a + i)

/-- Bytes written at `a`, ascending. -/
def Memory.putBytes (m : NMap Byte) (a : Nat) : List Byte → NMap Byte
  | [] => m
  | b :: bs => Memory.putBytes (NMap.set 0 m a b) (a + 1) bs

/-- The number that bytes make, the first in bits [7:0]. -/
def leNat : List Byte → Nat
  | [] => 0
  | b :: bs => b.toNat + 256 * leNat bs

/-- The low `n` bytes of `x`. -/
def leBytes (n x : Nat) : List Byte :=
  match n with
  | 0 => []
  | k + 1 => BitVec.ofNat 8 x :: leBytes k (x / 256)

/-- Bits [lo + n − 1 : lo] of a number. -/
def bitsOf (x lo n : Nat) : Nat := x / 2 ^ lo % 2 ^ n

def byteAt (bs : List Byte) (i : Nat) : Nat := (bs.getD i 0).toNat

/-- `n` bytes from offset `i` of a list, as a number. -/
def leAt (bs : List Byte) (i n : Nat) : Nat := leNat ((bs.drop i).take n)

def padTo (n : Nat) (bs : List Byte) : List Byte := (bs ++ List.replicate n 0).take n

/-- Every byte of a list from offset `i`, `n` of them, is zero. -/
def zeroAt (bs : List Byte) (i n : Nat) : Bool := leAt bs i n == 0

/-- Insert in ascending order of `f`, after equals. -/
def insertBy {α : Type} (f : α → Nat) (x : α) : List α → List α
  | [] => [x]
  | y :: r => if f x < f y then x :: y :: r else y :: insertBy f x r

/-- Sort by ascending `f`; equals keep their order. -/
def sortBy {α : Type} (f : α → Nat) : List α → List α
  | [] => []
  | x :: r => insertByFirst f x (sortBy f r)
where
  /-- Insert in ascending order of `f`, before equals. -/
  insertByFirst (f : α → Nat) (x : α) : List α → List α
    | [] => [x]
    | y :: r => if f x ≤ f y then x :: y :: r else y :: insertByFirst f x r

/-- The first of the elements that are least in the order `lt`. -/
def minBy {α : Type} (lt : α → α → Bool) : List α → Option α
  | [] => none
  | x :: r =>
    match minBy lt r with
    | none => some x
    | some y => if lt y x then some y else some x

/-- Signed value of a number's low `n` bits. -/
def sgn (n x : Nat) : Int :=
  let y := x % 2 ^ n
  if 2 ^ n ≤ 2 * y then (y : Int) - (2 ^ n : Nat) else (y : Int)

/-- The low `n` bits of an integer, as a number. -/
def wrapN (n : Nat) (i : Int) : Nat := (i % ((2 ^ n : Nat) : Int)).toNat

def clampI (lo hi x : Int) : Int := if x < lo then lo else if hi < x then hi else x

/-- Lowest free number at or above `k` not in the list, looking at most `n` numbers on. -/
def lowestFree (used : List Nat) (k n : Nat) : Option Nat :=
  match n with
  | 0 => none
  | m + 1 => if used.contains k then lowestFree used (k + 1) m else some k

end Sys2Proof.Machine
end

