-- ==== Sys2Proof/Syntax.lean ====
section
/-!
DEFINITION. The steps of the Esgan E72, one constructor per row of spec/opcode_table.json: the 147 instructions of
threads (R121 to R127), the four Narolmid instructions of Saggar's cores (R74), and the 87 steps of the device's
other agents (95_what_each_step_holds.md), each with what it names as arguments.
-/

namespace Sys2Proof

/-- A condition bit c0 to c3 (R107). -/
abbrev CBit := Fin 4
/-- A record register d0 to d15 (R105). -/
abbrev DReg := Fin 16
/-- A barrier or ring slot of a workgroup (R229). -/
abbrev Slot := Fin 32

/-- A v or s register: a destination, or the first register of a pair or quad (R105). -/
inductive Reg
  | v (n : Fin 128)
  | s (n : Fin 64)
deriving DecidableEq, Repr

/-- A source operand: a register or an inline constant, code 208 + n (R105, R106). -/
inductive Src
  | v (n : Fin 128)
  | s (n : Fin 64)
  | k (n : Fin 32)
deriving DecidableEq, Repr

/-- Operand b of an instruction that has an I form (R102). -/
inductive Opb
  | src (x : Src)
  | imm (x : Word)
deriving DecidableEq, Repr

/-- The predicate of an R-form word (R101, R104): `sense` is PSENSE. -/
inductive Pred
  | always
  | on (sense : Bool) (bit : CBit)
deriving DecidableEq, Repr

/-- Rounding modes, MOD [15:14] (R103). -/
inductive Rm
  | rn | rz | ru | rd
deriving DecidableEq, Repr

/-- The modifiers of one floating-point operand (R165). -/
structure FMod where
  neg : Bool
  abs : Bool
deriving DecidableEq, Repr

/-- Integer types of families IV and IR (R121). -/
inductive ITy
  | i32 | n32 | i64 | n64
deriving DecidableEq, Repr

/-- Floating-point types of families FV and FR (R121). -/
inductive FTy
  | f32 | f16 | bf16
deriving DecidableEq, Repr

/-- Integer relations (R136). -/
inductive IRel
  | eq | ne | lt | le | gt | ge
deriving DecidableEq, Repr

/-- Floating-point relations (R171). -/
inductive FRel
  | eq | ne | lt | le | gt | ge | ord | uno
deriving DecidableEq, Repr

/-- Widths of MOV (R138). -/
inductive MovW
  | b32 | b64 | b128
deriving DecidableEq, Repr

/-- Modes of WSHFL (R147). -/
inductive Shfl
  | idx | up | down | xor
deriving DecidableEq, Repr

/-- Types of WRED and WSCAN (R149). -/
inductive LTy
  | i32 | n32 | f32 | h2 | bh2 | b32 | n64
deriving DecidableEq, Repr

/-- Operations of WRED and WSCAN (R149). -/
inductive LOp
  | add | min | max | and | or | xor | maxix | minix
deriving DecidableEq, Repr

/-- The mode of WVOTE with its destination (R151). -/
inductive Vote
  | all (c : CBit) | any (c : CBit) | uni (c : CBit) | ballot (d : Reg)
deriving DecidableEq, Repr

/-- Formats of CVT, in code order (R123). -/
inductive CTy
  | f32 | f16 | bf16 | e4m3 | i32 | n32 | i64 | n64 | i16 | n16 | i8 | n8
deriving DecidableEq, Repr

/-- Access sizes of LD, in variant order (R213). -/
inductive LdW
  | n8 | n16 | b32 | b64 | b128 | i8 | i16
deriving DecidableEq, Repr

/-- Access sizes of ST, in variant order (R214). -/
inductive StW
  | b8 | b16 | b32 | b64 | b128
deriving DecidableEq, Repr

/-- The level PREF names (R215). -/
inductive PfLvl
  | l1 | l2 | msc
deriving DecidableEq, Repr

/-- Types of the atomics (R222). -/
inductive ATy
  | i32 | n32 | i64 | n64 | f32 | h2 | bh2
deriving DecidableEq, Repr

/-- Operations of the atomics (R222). -/
inductive AOp
  | add | sub | min | max | and | or | xor | exch | cas | maxix | minix
deriving DecidableEq, Repr

/-- What EVTEST writes (R255). -/
inductive EvDst
  | bit (c : CBit) | word (d : Reg)
deriving DecidableEq, Repr

/-- Slice lanes of the Kiln (R307). -/
inductive KSlice
  | low | mid | high
deriving DecidableEq, Repr

/-- Where GEMIT sends a tile (R279). -/
inductive EmitTo
  | mem (fp16 : Bool) (r : DReg) (i j : Src)
  | enc (a : Src)
deriving DecidableEq, Repr

/-- The special registers 0x00 to 0x0F (R109). -/
inductive SReg
  | width | workid | lane | waveslot | groupmask | ticks | breg | hold
  | tpc | tformer | tfault | tcause | taddr | kstatus | fidelity | fpflags
deriving DecidableEq, Repr

/-- A register of a Saggar core (R74). -/
abbrev XReg := Fin 32

/-- The steps of the machine, one constructor per row of the opcode table. -/
inductive Instr
  -- Class 0: integer arithmetic (R128 to R130)
  | iadd (t : ITy) (sat : Bool) (p : Pred) (d : Reg) (a : Src) (b : Opb)
  | isub (t : ITy) (sat : Bool) (p : Pred) (d : Reg) (a : Src) (b : Opb)
  | imul (t : ITy) (sat : Bool) (p : Pred) (d : Reg) (a : Src) (b : Opb)
  | imulh (signed : Bool) (p : Pred) (d : Reg) (a b : Src)
  | imad (t : ITy) (sat : Bool) (p : Pred) (d : Reg) (a b c : Src)
  | imin (t : ITy) (p : Pred) (d : Reg) (a : Src) (b : Opb)
  | imax (t : ITy) (p : Pred) (d : Reg) (a : Src) (b : Opb)
  | iabs (w64 sat : Bool) (p : Pred) (d : Reg) (a : Src)
  | ineg (w64 sat : Bool) (p : Pred) (d : Reg) (a : Src)
  -- Class 0: logic, shifts, bit fields (R131 to R135)
  | and (w64 : Bool) (p : Pred) (d : Reg) (a : Src) (b : Opb)
  | or (w64 : Bool) (p : Pred) (d : Reg) (a : Src) (b : Opb)
  | xor (w64 : Bool) (p : Pred) (d : Reg) (a : Src) (b : Opb)
  | andn (w64 : Bool) (p : Pred) (d : Reg) (a : Src) (b : Opb)
  | not (w64 : Bool) (p : Pred) (d : Reg) (a : Src)
  | shl (w64 : Bool) (p : Pred) (d : Reg) (a : Src) (b : Opb)
  | shr (w64 : Bool) (p : Pred) (d : Reg) (a : Src) (b : Opb)
  | sar (w64 : Bool) (p : Pred) (d : Reg) (a : Src) (b : Opb)
  | rotl (w64 : Bool) (p : Pred) (d : Reg) (a : Src) (b : Opb)
  | bfx (t : ITy) (p : Pred) (d : Reg) (a b : Src)
  | bfi (w64 : Bool) (p : Pred) (d : Reg) (a b c : Src)
  | popc (w64 : Bool) (p : Pred) (d : Reg) (a : Src)
  | clz (w64 : Bool) (p : Pred) (d : Reg) (a : Src)
  | ctz (w64 : Bool) (p : Pred) (d : Reg) (a : Src)
  | brev (w64 : Bool) (p : Pred) (d : Reg) (a : Src)
  | permb (p : Pred) (d : Reg) (a b c : Src)
  -- Class 0: compare, select, move, condition bits, ternary packing (R136 to R141)
  | icmp (t : ITy) (rel : IRel) (p : Pred) (c : CBit) (a : Src) (b : Opb)
  | sel (w64 : Bool) (q : CBit) (p : Pred) (d : Reg) (a b : Src)
  | mov (w : MovW) (p : Pred) (d : Reg) (a : Src)
  | movi (w64 : Bool) (d : Reg) (x : Word)
  | movw (d : Reg) (a : Src) (x : Word)
  | clog (l : Fin 16) (p : Pred) (c a b : CBit)
  | ctov (hi : Bool) (q : CBit) (p : Pred) (d : Reg)
  | vtoc (hi : Bool) (p : Pred) (c : CBit) (a : Src)
  | t3pk (p : Pred) (d : Reg) (a : Src)
  | t3un (q : CBit) (p : Pred) (d : Reg) (a : Src)
  -- Class 0: lane instructions (R142 to R152)
  | wshfl (m : Shfl) (p : Pred) (d : Reg) (a b mask : Src)
  | wbcast (w64 : Bool) (p : Pred) (d : Reg) (a b mask : Src)
  | wred (op : LOp) (t : LTy) (rm : Rm) (p : Pred) (d : Reg) (a mask : Src)
  | wscan (op : LOp) (t : LTy) (rm : Rm) (excl : Bool) (p : Pred) (d : Reg) (a mask : Src)
  | wvote (v : Vote) (q : CBit) (p : Pred) (mask : Src)
  | wmatch (w64 : Bool) (p : Pred) (d : Reg) (a mask : Src)
  -- Class 0: floating point (R164 to R182)
  | fadd (t : FTy) (rm : Rm) (sat : Bool) (ma mb : FMod) (p : Pred) (d : Reg) (a : Src) (b : Opb)
  | fsub (t : FTy) (rm : Rm) (sat : Bool) (ma mb : FMod) (p : Pred) (d : Reg) (a : Src) (b : Opb)
  | fmul (t : FTy) (rm : Rm) (sat : Bool) (ma mb : FMod) (p : Pred) (d : Reg) (a : Src) (b : Opb)
  | ffma (t : FTy) (rm : Rm) (sat : Bool) (ma mb mc : FMod) (p : Pred) (d : Reg) (a b c : Src)
  | fmin (t : FTy) (ma mb : FMod) (p : Pred) (d : Reg) (a : Src) (b : Opb)
  | fmax (t : FTy) (ma mb : FMod) (p : Pred) (d : Reg) (a : Src) (b : Opb)
  | fminn (t : FTy) (ma mb : FMod) (p : Pred) (d : Reg) (a : Src) (b : Opb)
  | fmaxn (t : FTy) (ma mb : FMod) (p : Pred) (d : Reg) (a : Src) (b : Opb)
  | fcmp (t : FTy) (rel : FRel) (ma mb : FMod) (p : Pred) (c : CBit) (a b : Src)
  | fclass (t : FTy) (ma : FMod) (p : Pred) (d : Reg) (a : Src)
  | frnd (t : FTy) (rm : Rm) (ma : FMod) (p : Pred) (d : Reg) (a : Src)
  | frcp (rm : Rm) (ma : FMod) (p : Pred) (d : Reg) (a : Src)
  | frsq (rm : Rm) (ma : FMod) (p : Pred) (d : Reg) (a : Src)
  | fsqrt (rm : Rm) (ma : FMod) (p : Pred) (d : Reg) (a : Src)
  | fexp2 (ma : FMod) (p : Pred) (d : Reg) (a : Src)
  | flog2 (ma : FMod) (p : Pred) (d : Reg) (a : Src)
  | fsin (ma : FMod) (p : Pred) (d : Reg) (a : Src)
  | fcos (ma : FMod) (p : Pred) (d : Reg) (a : Src)
  | hadd2 (rm : Rm) (sat : Bool) (ma mb : FMod) (p : Pred) (d : Reg) (a b : Src)
  | hmul2 (rm : Rm) (sat : Bool) (ma mb : FMod) (p : Pred) (d : Reg) (a b : Src)
  | hfma2 (rm : Rm) (sat : Bool) (ma mb mc : FMod) (p : Pred) (d : Reg) (a b c : Src)
  | hmin2 (ma mb : FMod) (p : Pred) (d : Reg) (a b : Src)
  | hmax2 (ma mb : FMod) (p : Pred) (d : Reg) (a b : Src)
  | badd2 (rm : Rm) (sat : Bool) (ma mb : FMod) (p : Pred) (d : Reg) (a b : Src)
  | bfma2 (rm : Rm) (sat : Bool) (ma mb mc : FMod) (p : Pred) (d : Reg) (a b c : Src)
  | vdot8 (rm : Rm) (ma mb mc : FMod) (p : Pred) (d : Reg) (a b c : Src)
  | cvt (dst src : CTy) (rm : Rm) (sat : Bool) (p : Pred) (d : Reg) (a : Src)
  | pack2 (bf : Bool) (rm : Rm) (sat : Bool) (ma mb : FMod) (p : Pred) (d : Reg) (a b : Src)
  | okey (f16 nanhi : Bool) (p : Pred) (d : Reg) (a b : Src)
  -- Class 1: memory (R207 to R228)
  | ld (w : LdW) (p : Pred) (d : Reg) (r : DReg) (i j : Src)
  | st (w : StW) (p : Pred) (c : Src) (r : DReg) (i j : Src)
  | pref (l : PfLvl) (p : Pred) (r : DReg) (i j : Src)
  | lock (k : CBit) (p : Pred) (d : Reg) (r : DReg) (i j : Src)
  | unlock (p : Pred) (r : DReg) (i j : Src)
  | dld (p : Pred) (d : DReg) (a : Src)
  | dmk (p : Pred) (d : DReg) (a b : Src)
  | dget (w : Fin 8) (p : Pred) (d : Reg) (r : DReg)
  | dset (w : Fin 8) (p : Pred) (d : DReg) (a : Src)
  | atom (op : AOp) (t : ATy) (p : Pred) (d : Reg) (r : DReg) (i c : Src)
  | atomn (op : AOp) (t : ATy) (p : Pred) (r : DReg) (i c : Src)
  | satom (op : AOp) (t : ATy) (p : Pred) (d : Reg) (r : DReg) (i c : Src)
  -- Class 2: control (R153 to R162)
  | bra (off : Word)
  | brc (c : CBit) (sense : Bool) (off : Word)
  | jmpi (p : Pred) (a : Src)
  | call (d : Reg) (off : Word)
  | calli (p : Pred) (d : Reg) (a : Src)
  | ret (p : Pred) (a : Src)
  | conv (p : Pred) (mask : Src)
  | exit (p : Pred)
  | nop (p : Pred)
  | yield (p : Pred)
  | sleep (p : Pred) (a : Src)
  | waitv (p : Pred) (d : Reg) (r : DReg) (i c : Src)
  -- Class 3: synchronisation (R238 to R256)
  | binit (k : CBit) (sl : Slot) (p : Pred) (d : Reg) (r : DReg) (i j : Src)
  | barrive (k : CBit) (sl : Slot) (p : Pred) (d : Reg)
  | bwait (k : CBit) (sl : Slot) (p : Pred) (d : Reg)
  | bsync (k : CBit) (sl : Slot) (p : Pred) (d : Reg)
  | bdrop (k : CBit) (sl : Slot) (p : Pred) (d : Reg)
  | bquery (st : Bool) (k : CBit) (sl : Slot) (p : Pred) (d : Reg)
  | bexpect (k : CBit) (sl : Slot) (p : Pred) (d : Reg) (a : Src)
  | rinit (get : Bool) (k : CBit) (sl : Slot) (p : Pred) (d : Reg) (r : DReg) (i j : Src)
  | rputAcq (k : CBit) (sl : Slot) (p : Pred) (d : Reg)
  | rputPub (k : CBit) (sl : Slot) (p : Pred) (d : Reg) (a : Src)
  | rgetAcq (k : CBit) (sl : Slot) (p : Pred) (d : Reg)
  | rgetRel (k : CBit) (sl : Slot) (p : Pred) (d : Reg) (a : Src)
  | rclose (k : CBit) (sl : Slot) (p : Pred) (d : Reg)
  | tkwait (p : Pred) (k : CBit)
  | tkpass (p : Pred)
  | spawn (p : Pred) (k : CBit) (a b c : Src)
  | bflush (p : Pred) (a : Option Src)
  | evsig (p : Pred) (a : Src)
  | evtest (p : Pred) (d : EvDst) (a : Src)
  -- Class 4: Kiln (R328 to R337)
  | krsv (k : CBit) (p : Pred) (d : Reg) (a b : Src)
  | krel (k : CBit) (p : Pred) (d : Reg)
  | kload (k : CBit) (p : Pred) (d : Reg) (a b : Src)
  | kswap (k : CBit) (p : Pred) (d : Reg) (a : Src)
  | kloop (split : Bool) (k : CBit) (p : Pred) (d : Reg) (a b : Src)
  | kdrainReg (split clr : Bool) (k : CBit) (p : Pred) (d : Reg) (a : Src)
  | kdrainMem (split clr : Bool) (k : CBit) (p : Pred) (d : Reg) (a : Src)
  | kzero (split : Bool) (k : CBit) (p : Pred) (d : Reg) (a b : Src)
  | kfid (k : CBit) (p : Pred) (d : Reg) (a : Src)
  | kstat (slice : KSlice) (kind : Fin 4) (k : CBit) (p : Pred) (d : Reg)
  -- Class 5: Slip (R303 to R306)
  | skick (k : CBit) (p : Pred) (d : Reg) (r : DReg) (i j : Src)
  | squery (k : CBit) (p : Pred) (d : Reg) (a : Src)
  | scancel (k : CBit) (p : Pred) (d : Reg) (a : Src)
  -- Class 6: Glaze (R261 to R283)
  | gseq (k : CBit) (p : Pred) (d : Reg) (a b c : Src)
  | gflat (cubic fine : Bool) (k : CBit) (p : Pred) (d : Reg) (a b c : Src)
  | gdep (k : CBit) (p : Pred) (d : Reg) (a b : Src)
  | gclrPath (k : CBit) (p : Pred) (d : Reg) (a b : Src)
  | gclrDest (t : Fin 16) (k : CBit) (p : Pred) (d : Reg) (a b c : Src)
  | gclrPathFree (k : CBit) (p : Pred) (d : Reg) (b : Src)
  | gclrDestFree (t : Fin 16) (k : CBit) (p : Pred) (d : Reg)
  | gscan (t : Fin 16) (k : CBit) (p : Pred) (d : Reg) (b : Src)
  | gclipPop (t : Fin 16) (k : CBit) (p : Pred) (d : Reg)
  | gclipReset (t : Fin 16) (k : CBit) (p : Pred) (d : Reg)
  | gcov (path : Option Src) (k : CBit) (p : Pred) (d : Reg) (a : Src)
  | gblend (k : CBit) (p : Pred) (d : Reg) (a b : Src)
  | gemit (e : EmitTo) (t : Fin 16) (k : CBit) (p : Pred) (d : Reg)
  -- Class 7: system and fabric (R360 to R365, R413 to R415)
  | movs (n : SReg) (p : Pred) (d : Reg)
  | sets (n : SReg) (p : Pred) (a : Src)
  | trap (p : Pred) (code : BitVec 8) (a : Src)
  | rte (p : Pred)
  | dbrk (p : Pred) (code : BitVec 8)
  | pmc (n : Fin 9) (clr : Bool) (p : Pred) (d : Reg)
  | cred (k : CBit) (p : Pred) (d : Reg) (a b : Src)
  | cbcast (k : CBit) (p : Pred) (d : Reg) (a b : Src)
  -- Saggar's custom-0 instructions (R74)
  | rfetch (rd rs1 rs2 : XReg)
  | bfext (rd rs1 rs2 : XReg)
  | swait (rd rs1 rs2 : XReg)
  | wdisp (rd rs1 rs2 : XReg)
  -- Completions of what threads began (R143, R160, R161, R223, R225, R239, R251)
  | gatheringComplete (wave gathering : Nat)
  | serviceWaveAtomic (req : Nat)
  | atomicReplyWrite (req : Nat)
  | sleepExpiry (wave lane : Nat)
  | waitvRecheck (wave lane : Nat)
  | barrierWaitWake (wave lane : Nat)
  | ringWaitWake (wave lane : Nat)
  | tokenArrival (wave : Nat)
  -- Spawn bins (R85, R439)
  | binTimerExpiry (cluster ctx : Nat) (entry : DWord)
  | binDrain (cluster ctx : Nat) (entry : DWord)
  -- The Kiln (R322 to R327, R332, R334, R335)
  | kilnKloadRun (wg : Nat)
  | kilnKswapRun (wg : Nat)
  | kilnStep (wg : Nat)
  | kilnDrainRun (wg : Nat)
  | kilnKzeroRun (wg : Nat)
  -- Slip (R297 to R299)
  | slipJobIssue (job : Nat)
  | slipUnit (job : Nat)
  | slipJobEnd (job : Nat)
  -- The ordered blender (R274)
  | sequenceRetire (wg : Nat) (t : Fin 16)
  -- Handlers, reduction chunks (R362, R411 to R414)
  | handlerReturn (wave : Nat)
  | chunkDelivery (chunk : Nat) (data : List Byte) (agree : Bool)
  | rowFailure (ctx group row : Nat)
  -- Issue (R94, R100, R198)
  | issueGroupForm (wave : Nat) (pc : DWord)
  | ptsAdvance (wave lane : Nat)
  | handlerEntry (wave : Nat)
  | runOnLimit (wave : Nat)
  | kill (wg : Nat)
  | pageRetry (wave lane : Nat)
  -- The Wheel (R79, R80, R88 to R91, R366 to R372, R386)
  | unitPlacement
  | neighbourhoodPlacement
  | waveEviction (wave : Nat)
  | unitResumption
  | holdExpiry (wave : Nat)
  | yieldDeadlineExpiry
  | safePointDeadline
  -- Queues and packets (R62 to R73)
  | doorbell (node ctx q : Nat) (tail : Word)
  | qenWrite (node ctx q : Nat) (val : Word)
  | queueRegisterWrite (node ctx off len : Nat) (val : DWord)
  | packetFetch (ctx q : Nat)
  | noOperation (ctx q : Nat)
  | launch (ctx q : Nat)
  | launchRelease (l : Nat)
  | launchComplete (l : Nat)
  | eventSet (ctx q : Nat)
  | eventClear (ctx q : Nat)
  | recordTableUpdate (ctx q : Nat)
  | barrierPacket (ctx q : Nat)
  | nvalWrite (ctx q : Nat) (pkt : Nat)
  -- Encoders (R417 to R422)
  | sessionOpen (ctx q : Nat)
  | sessionClose (ctx q : Nat)
  | sessionKey (ctx q : Nat)
  | sessionRate (ctx q : Nat)
  | frameCode (ctx session : Nat)
  | outputRingResume (ctx session : Nat)
  -- Contexts and the host (R404 to R409)
  | contextCreate (node ctx : Nat)
  | contextDestroy (node ctx : Nat)
  | translationInvalidate (node ctx : Nat)
  | apertureAccess (node ctx : Nat) (off : DWord) (write : Bool) (data : List Byte)
  | faultRecordWrite (ctx : Nat)
  | frrdWrite (node ctx : Nat) (val : Word)
  | answerMapped (node ctx : Nat)
  | answerDeclined (node ctx : Nat)
  -- Record and replay (R392 to R394)
  | rdidxWrite (node ctx : Nat) (val : Word)
  | logRecord (ctx : Nat)
  | logTruncated (ctx : Nat)
  | replayMismatch (ctx : Nat)
  -- Saggar, power, boot (R74, R424 to R438)
  | swaitWake (core : Nat)
  | powerMeasurement (watts : Nat)
  | plimitWrite (node : Nat) (val : BitVec 16)
  | voltageDroop (cluster : Nat)
  | bisqueRunStart (cluster : Nat)
  | bisqueRunEnd (cluster : Nat) (ok : Bool)
  | retentionEntry (cluster : Nat)
  | retentionExit (cluster : Nat)
  | powerOnReset
  | bootStage
  | fbbaseWrite (node : Nat) (val : DWord)
  | handoverStart (node : Nat)
  | handoverVerified
  | handoverCommit (node : Nat)
  | handoverAbort (node : Nat)
  | handoverRetire
  | attestationRequest (node : Nat)
  | attestationReport
  | managementRegisterWrite (node off len : Nat) (val : DWord)
  | invalidationComplete (ctx : Nat)
  | voltageDroopEnd (cluster : Nat)
deriving DecidableEq, Repr

end Sys2Proof
end

