-- ==== Sys2Proof/Config.lean ====
section
/-!
DEFINITION. What an implementation fixes and what the spec leaves open: the constants of the E72 (R1 to R3) and the
free values. A free value is an opaque constant: nothing in Lean evaluates it, so what is proved holds for every value
it might have. Notes on each are in notes/assumptions/1.md.
-/

namespace Sys2Proof

/-- What happens next: the spec leaves the choice among the device's agents open (R4, R113, R194). -/
inductive Action
  /-- A step of another agent, or what the host writes. -/
  | event (i : Instr)
  /-- The same, where the step ends once `n` sectors of its accesses are done and the rest follows later (R200). -/
  | eventCut (i : Instr) (n : Nat)
  /-- One front-end clock of quarter `q` of core `core` (R111, R112). -/
  | issue (core q : Nat)
  /-- The same, where what issues ends once `n` sectors of its accesses are done (R200). -/
  | issueCut (core q n : Nat)
  /-- One instruction of a Saggar core (R74). -/
  | saggar (core : Nat)
  /-- TICKS advances by `n` (R109, R424). -/
  | time (n : Nat)
  /-- `n` front-end clocks pass on a cluster without an issue (R114). -/
  | clocks (cluster n : Nat)
  /-- The host writes its own memory (R62, R66). -/
  | host (a : Nat) (bytes : List Byte)
  /-- Bits of a Saggar core's signal register are set (R74). -/
  | signal (core : Nat) (bits : BitVec 64)
  /-- A node of the fabric reads `data.length` bytes, or writes `data`, at a fabric address (R403). -/
  | fabric (node a : Nat) (write : Bool) (data : List Byte)
deriving DecidableEq, Repr, Inhabited

/-- How a picture is predicted (R416): from itself, from frames coded before it, or from those as a B picture is. -/
inductive PictureKind
  | intra
  | inter
  | bi
deriving DecidableEq, Repr, Inhabited

/-- How a picture is coded (R416, R422): its kind, the frames it references, by number, whether it is hidden, the size of its
superblocks or CTUs, whether deblocking and the second filter, CDEF or SAO, act on it, and a choice of its unit's type. -/
structure PictureCoding where
  kind : PictureKind := .intra
  refs : List Nat := []
  hidden : Bool := false
  block : Nat := 64
  deblock : Bool := false
  second : Bool := false
  type : Nat := 0
deriving DecidableEq, Repr, Inhabited

/-- A frame as its coding takes it (R418, R419): its number, whether it is a key frame, bytes 0x10–0x27 of the block as
they apply to it, its samples by position, and how it is coded. -/
structure CodedFrame where
  num : Nat
  key : Bool
  rate : List Byte
  tiles : List (Nat × List Nat)
  how : PictureCoding := {}
deriving DecidableEq, Repr, Inhabited

namespace Config

/-- The wave width W of the E72 (R3). -/
def W : Nat := 64
/-- Cores of the package (R1). -/
def cores : Nat := 256
/-- Clusters of the package (R1). -/
def clusters : Nat := 32
/-- Front-end clocks after which a candidate issues before any other (R112). -/
def starve : Nat := 256
/-- The run-on limit (R355). -/
def runOnLimit : Nat := 4096

/-- The next action when nothing is scheduled, by the number of such choices made before (R4). -/
opaque freeAction : Nat → Action
/-- A free truth value. -/
opaque freeBit : Nat → Bool
/-- A free number. -/
opaque freeNat : Nat → Nat
/-- A free integer: a plane-sum of an undervolted lane (R311). -/
opaque freeInt : Nat → Int
/-- Free bytes: what an ended workgroup's slice of a window holds (R81). -/
opaque freeBytes : Nat → List Byte
/-- The coding of a frame: how its picture is coded, where its references are choices among the frames that it may
reference; the units that carry no picture, each a choice of its type and its payload; a choice among the lengths that rate
control leaves its picture; and the bytes of its one slice and tile at a length (R416). Each is a function of bytes 0x00–0x0F of
the session's block and of its frames in decode order, the present one last (R419). -/
opaque codedHow : List Byte → List CodedFrame → PictureCoding
opaque codedParams : List Byte → List CodedFrame → List (Nat × List Byte)
opaque codedLength : List Byte → List CodedFrame → Nat
opaque codedByte : List Byte → List CodedFrame → Nat → Nat → Byte
/-- Which of the frames held for reordering is coded next, or none while more are needed (R422): a function of the same,
and of the frames held. -/
opaque codedNext : List Byte → List CodedFrame → List CodedFrame → Option Nat
/-- What the signature of a firmware image covers, the signature, and the version it carries: the image's layout (R433). -/
opaque imageSigned : List Byte → List Byte
opaque imageSignature : List Byte → List Byte
opaque imageVersion : List Byte → Nat
/-- The primes and the public exponent of Narolmid's key, whose public half is in the ROM, where they make a 3072-bit key
(R433). -/
opaque romP : Nat
opaque romQ : Nat
opaque romE : Nat
/-- The primes of the device identity key, fused at manufacture, where they make a 3072-bit key (R435). -/
opaque identityP : Nat
opaque identityQ : Nat

end Config
end Sys2Proof
end

