-- ==== Sys2Proof/WellFormed.lean ====
section
/-!
DEFINITION. Which instructions can be encoded for a wave with REGS registers (R103, R105, R106, R121 to R127).
-/

namespace Sys2Proof

/-- Registers that a 32-bit or 64-bit integer operand occupies. -/
def ITy.n : ITy → Nat
  | .i32 | .n32 => 1
  | .i64 | .n64 => 2

/-- 1 register for 32 bits, 2 for 64. -/
def wn (w64 : Bool) : Nat := if w64 then 2 else 1

def MovW.n : MovW → Nat
  | .b32 => 1
  | .b64 => 2
  | .b128 => 4

def LTy.n : LTy → Nat
  | .n64 => 2
  | _ => 1

def CTy.n : CTy → Nat
  | .i64 | .n64 => 2
  | _ => 1

def LdW.n : LdW → Nat
  | .b64 => 2
  | .b128 => 4
  | _ => 1

def StW.n : StW → Nat
  | .b64 => 2
  | .b128 => 4
  | _ => 1

def ATy.n : ATy → Nat
  | .i64 | .n64 => 2
  | _ => 1

/-- Registers that a special register occupies (R109). -/
def SReg.n : SReg → Nat
  | .workid | .groupmask | .ticks | .tpc | .tformer | .tfault | .taddr => 2
  | _ => 1

/-- Registers of operand c of an atomic: cas takes a pair or a quad (R222). -/
def AOp.cn (op : AOp) (t : ATy) : Nat := if op = .cas then 2 * t.n else t.n

/-- A destination of `n` registers: the number is a multiple of `n`, and a v number is below REGS (R105). -/
def Reg.ok (R n : Nat) : Reg → Bool
  | .v i => decide (i.val < R ∧ i.val % n = 0)
  | .s i => decide (i.val % n = 0)

/-- A source of `n` registers (R105); an inline constant always serves. -/
def Src.ok (R n : Nat) : Src → Bool
  | .v i => decide (i.val < R ∧ i.val % n = 0)
  | .s i => decide (i.val % n = 0)
  | .k _ => true

/-- Operand b, with the I form's lack of a predicate (R102). -/
def Opb.ok (R n : Nat) (p : Pred) : Opb → Bool
  | .src x => x.ok R n
  | .imm _ => decide (p = .always)

def Opb.isImm : Opb → Bool
  | .src _ => false
  | .imm _ => true

def FMod.off (m : FMod) : Bool := !m.neg && !m.abs

/-- An I form takes no modifier, rounding mode or .sat, and stands for .f32 only (R121, R165, R166). -/
def Opb.plain (b : Opb) (t : FTy) (rm : Rm) (sat : Bool) (ma mb : FMod) : Bool :=
  !b.isImm || (decide (t = .f32) && decide (rm = .rn) && !sat && ma.off && mb.off)

/-- The legal pairs of WRED and WSCAN (R149). -/
def LOp.legal : LOp → LTy → Bool
  | .add, t => decide (t ≠ .b32)
  | .min, t | .max, t => decide (t ≠ .b32)
  | .and, t | .or, t | .xor, t => decide (t = .b32 ∨ t = .n64)
  | .maxix, t | .minix, t => decide (t = .n64)

/-- A float add, the only operation of WRED and WSCAN that rounds (R149). -/
def LOp.rounds (op : LOp) (t : LTy) : Bool :=
  decide (op = .add) && decide (t = .f32 ∨ t = .h2 ∨ t = .bh2)

/-- The legal pairs of the atomics (R222). -/
def AOp.legal : AOp → ATy → Bool
  | .and, t | .or, t | .xor, t => decide (t = .i32 ∨ t = .n32 ∨ t = .i64 ∨ t = .n64)
  | .maxix, t | .minix, t => decide (t = .n64)
  | _, _ => true

/-- Width in bits of an integer format of CVT, none for a float format. -/
def CTy.bits : CTy → Option Nat
  | .i32 | .n32 => some 32
  | .i64 | .n64 => some 64
  | .i16 | .n16 => some 16
  | .i8 | .n8 => some 8
  | _ => none

def CTy.signed : CTy → Bool
  | .i32 | .i64 | .i16 | .i8 => true
  | _ => false

/-- The range of destination integer format `d` contains the range of source `s`. -/
def CTy.contains (d s : CTy) : Bool :=
  match d.bits, s.bits with
  | some m, some n =>
    if d.signed = s.signed then decide (n ≤ m)
    else d.signed && decide (n < m)
  | _, _ => false

/-- Where .sat is legal on a CVT (R179). -/
def CTy.satOk (d s : CTy) : Bool :=
  match d with
  | .f16 | .bf16 | .e4m3 => decide (d ≠ s)
  | .f32 => false
  | _ => s.bits.isSome && !(d.contains s)

/-- The fields of a step meet what its encoding admits for a wave of `R` registers per thread. -/
def Instr.wf (R : Nat) : Instr → Bool
  | .iadd t sat p d a b | .isub t sat p d a b | .imul t sat p d a b =>
    d.ok R t.n && a.ok R t.n && b.ok R t.n p && !(b.isImm && sat)
  | .imulh _ _ d a b => d.ok R 1 && a.ok R 1 && b.ok R 1
  | .imad t _ _ d a b c => d.ok R t.n && a.ok R t.n && b.ok R t.n && c.ok R t.n
  | .imin t p d a b | .imax t p d a b => d.ok R t.n && a.ok R t.n && b.ok R t.n p
  | .iabs w _ _ d a | .ineg w _ _ d a => d.ok R (wn w) && a.ok R (wn w)
  | .and w p d a b | .or w p d a b | .xor w p d a b | .andn w p d a b =>
    d.ok R (wn w) && a.ok R (wn w) && b.ok R (wn w) p
  | .not w _ d a | .brev w _ d a => d.ok R (wn w) && a.ok R (wn w)
  | .shl w p d a b | .shr w p d a b | .sar w p d a b | .rotl w p d a b =>
    d.ok R (wn w) && a.ok R (wn w) && b.ok R 1 p
  | .bfx t _ d a b => d.ok R t.n && a.ok R t.n && b.ok R 1
  | .bfi w _ d a b c => d.ok R (wn w) && a.ok R (wn w) && b.ok R (wn w) && c.ok R 1
  | .popc w _ d a | .clz w _ d a | .ctz w _ d a => d.ok R 1 && a.ok R (wn w)
  | .permb _ d a b c => d.ok R 1 && a.ok R 1 && b.ok R 1 && c.ok R 1
  | .icmp t _ p _ a b => a.ok R t.n && b.ok R t.n p
  | .sel w _ _ d a b => d.ok R (wn w) && a.ok R (wn w) && b.ok R (wn w)
  | .mov w _ d a => d.ok R w.n && a.ok R w.n
  | .movi w d _ => d.ok R (wn w)
  | .movw d a _ => d.ok R 2 && a.ok R 1
  | .clog .. => true
  | .ctov _ _ _ d => d.ok R 2
  | .vtoc _ _ _ a => a.ok R 2
  | .t3pk _ d a => d.ok R 1 && a.ok R 2
  | .t3un _ _ d a => d.ok R 2 && a.ok R 1
  | .wshfl _ _ d a b m => d.ok R 1 && a.ok R 1 && b.ok R 1 && m.ok R 2
  | .wbcast w _ d a b m => d.ok R (wn w) && a.ok R (wn w) && b.ok R 1 && m.ok R 2
  | .wred op t rm _ d a m =>
    op.legal t && (decide (rm = .rn) || op.rounds t) && d.ok R t.n && a.ok R t.n && m.ok R 2
  | .wscan op t rm _ _ d a m =>
    op.legal t && (decide (rm = .rn) || op.rounds t) && d.ok R t.n && a.ok R t.n && m.ok R 2
  | .wvote v _ _ m => m.ok R 2 && (match v with | .ballot d => d.ok R 2 | _ => true)
  | .wmatch w _ d a m => d.ok R 2 && a.ok R (wn w) && m.ok R 2
  | .fadd t rm sat ma mb p d a b | .fsub t rm sat ma mb p d a b | .fmul t rm sat ma mb p d a b =>
    d.ok R 1 && a.ok R 1 && b.ok R 1 p && b.plain t rm sat ma mb
  | .ffma _ _ _ _ _ _ _ d a b c => d.ok R 1 && a.ok R 1 && b.ok R 1 && c.ok R 1
  | .fmin t ma mb p d a b | .fmax t ma mb p d a b | .fminn t ma mb p d a b | .fmaxn t ma mb p d a b =>
    d.ok R 1 && a.ok R 1 && b.ok R 1 p && b.plain t .rn false ma mb
  | .fcmp _ _ _ _ _ _ a b => a.ok R 1 && b.ok R 1
  | .fclass _ _ _ d a | .frnd _ _ _ _ d a => d.ok R 1 && a.ok R 1
  | .frcp _ _ _ d a | .frsq _ _ _ d a | .fsqrt _ _ _ d a => d.ok R 1 && a.ok R 1
  | .fexp2 _ _ d a | .flog2 _ _ d a | .fsin _ _ d a | .fcos _ _ d a => d.ok R 1 && a.ok R 1
  | .hadd2 _ _ _ _ _ d a b | .hmul2 _ _ _ _ _ d a b | .badd2 _ _ _ _ _ d a b => d.ok R 1 && a.ok R 1 && b.ok R 1
  | .hmin2 _ _ _ d a b | .hmax2 _ _ _ d a b => d.ok R 1 && a.ok R 1 && b.ok R 1
  | .hfma2 _ _ _ _ _ _ d a b c | .bfma2 _ _ _ _ _ _ d a b c =>
    d.ok R 1 && a.ok R 1 && b.ok R 1 && c.ok R 1
  | .vdot8 _ _ _ _ _ d a b c => d.ok R 1 && a.ok R 1 && b.ok R 1 && c.ok R 1
  | .cvt td ts _ sat _ d a => (!sat || td.satOk ts) && d.ok R td.n && a.ok R ts.n
  | .pack2 _ _ _ _ _ _ d a b => d.ok R 1 && a.ok R 1 && b.ok R 1
  | .okey _ _ _ d a b => d.ok R 2 && a.ok R 1 && b.ok R 1
  | .ld w _ d _ i j => d.ok R w.n && i.ok R 1 && j.ok R 1
  | .st w _ c _ i j => c.ok R w.n && i.ok R 1 && j.ok R 1
  | .pref _ _ _ i j | .unlock _ _ i j => i.ok R 1 && j.ok R 1
  | .lock _ _ d _ i j => d.ok R 1 && i.ok R 1 && j.ok R 1
  | .dld _ _ a | .dset _ _ _ a => a.ok R 1
  | .dmk _ _ a b => a.ok R 4 && b.ok R 4
  | .dget _ _ d _ => d.ok R 1
  | .atom op t _ d _ i c | .satom op t _ d _ i c => op.legal t && d.ok R t.n && i.ok R 1 && c.ok R (op.cn t)
  | .atomn op t _ _ i c => op.legal t && i.ok R 1 && c.ok R (op.cn t)
  | .bra _ | .brc .. => true
  | .jmpi _ a | .ret _ a => a.ok R 2
  | .call d _ => d.ok R 2
  | .calli _ d a => d.ok R 2 && a.ok R 2
  | .conv _ m => m.ok R 2
  | .exit _ | .nop _ | .yield _ => true
  | .sleep _ a => a.ok R 1
  | .waitv _ d _ i c => d.ok R 1 && i.ok R 1 && c.ok R 1
  | .binit _ _ _ d _ i j | .rinit _ _ _ _ d _ i j => d.ok R 1 && i.ok R 1 && j.ok R 1
  | .barrive _ _ _ d | .bwait _ _ _ d | .bsync _ _ _ d | .bdrop _ _ _ d => d.ok R 1
  | .bquery _ _ _ _ d => d.ok R 4
  | .bexpect _ _ _ d a | .rputPub _ _ _ d a | .rgetRel _ _ _ d a => d.ok R 1 && a.ok R 1
  | .rputAcq _ _ _ d | .rgetAcq _ _ _ d | .rclose _ _ _ d => d.ok R 1
  | .tkwait _ _ | .tkpass _ => true
  | .spawn _ _ a b c => a.ok R 2 && b.ok R 4 && c.ok R 2
  | .bflush _ a => (match a with | some x => x.ok R 2 | none => true)
  | .evsig _ a => a.ok R 1
  | .evtest _ d a => a.ok R 1 && (match d with | .word r => r.ok R 1 | .bit _ => true)
  | .krsv _ _ d a b => d.ok R 1 && a.ok R 1 && b.ok R 1
  | .krel _ _ d => d.ok R 1
  | .kload _ _ d a b => d.ok R 1 && a.ok R 1 && b.ok R 1
  | .kswap _ _ d a | .kfid _ _ d a => d.ok R 1 && a.ok R 1
  | .kloop _ _ _ d a b => d.ok R 1 && a.ok R 4 && b.ok R 4
  | .kdrainReg sp _ _ _ d a => d.ok R (if sp then 4 else 1) && a.ok R 1
  | .kdrainMem _ _ _ _ d a => d.ok R 1 && a.ok R 4
  | .kzero _ _ _ d a b => d.ok R 1 && a.ok R 1 && b.ok R 1
  | .kstat _ _ _ _ d => d.ok R 2
  | .skick _ _ d _ i j => d.ok R 1 && i.ok R 1 && j.ok R 1
  | .squery _ _ d a => d.ok R 4 && a.ok R 1
  | .scancel _ _ d a => d.ok R 1 && a.ok R 1
  | .gseq _ _ d a b c => d.ok R 1 && a.ok R 4 && b.ok R 1 && c.ok R 4
  | .gflat _ _ _ _ d a b c => d.ok R 1 && a.ok R 4 && b.ok R 4 && c.ok R 1
  | .gdep _ _ d a b => d.ok R 1 && a.ok R 4 && b.ok R 1
  | .gclrPath _ _ d a b => d.ok R 1 && a.ok R 1 && b.ok R 1
  | .gclrDest _ _ _ d a b c => d.ok R 1 && a.ok R 1 && b.ok R 1 && c.ok R 2
  | .gclrPathFree _ _ d b | .gscan _ _ _ d b => d.ok R 1 && b.ok R 1
  | .gclrDestFree _ _ _ d | .gclipPop _ _ _ d | .gclipReset _ _ _ d => d.ok R 1
  | .gcov path _ _ d a =>
    d.ok R 1 && (match path with | none => a.ok R 2 | some b => a.ok R 1 && b.ok R 1)
  | .gblend _ _ d a b => d.ok R 1 && a.ok R 2 && b.ok R 2
  | .gemit e _ _ _ d =>
    d.ok R 1 && (match e with | .mem _ _ i j => i.ok R 1 && j.ok R 1 | .enc a => a.ok R 1)
  | .movs n _ d => d.ok R n.n
  | .sets n _ a => a.ok R n.n
  | .trap _ _ a => a.ok R 2
  | .rte _ | .dbrk _ _ => true
  | .pmc _ _ _ d => d.ok R 2
  | .cred _ _ d a b | .cbcast _ _ d a b => d.ok R 1 && a.ok R 4 && b.ok R 1
  | _ => true

/-- The engine class a thread instruction belongs to (R97, R122 to R127); none for every other step. -/
def Instr.cls : Instr → Option Nat
  | .iadd .. | .isub .. | .imul .. | .imulh .. | .imad .. | .imin .. | .imax .. | .iabs .. | .ineg ..
  | .and .. | .or .. | .xor .. | .andn .. | .not .. | .shl .. | .shr .. | .sar .. | .rotl .. | .bfx .. | .bfi ..
  | .popc .. | .clz .. | .ctz .. | .brev .. | .permb .. | .icmp .. | .sel .. | .mov .. | .movi .. | .movw ..
  | .clog .. | .ctov .. | .vtoc .. | .t3pk .. | .t3un ..
  | .wshfl .. | .wbcast .. | .wred .. | .wscan .. | .wvote .. | .wmatch ..
  | .fadd .. | .fsub .. | .fmul .. | .ffma .. | .fmin .. | .fmax .. | .fminn .. | .fmaxn .. | .fcmp .. | .fclass ..
  | .frnd .. | .frcp .. | .frsq .. | .fsqrt .. | .fexp2 .. | .flog2 .. | .fsin .. | .fcos ..
  | .hadd2 .. | .hmul2 .. | .hfma2 .. | .hmin2 .. | .hmax2 .. | .badd2 .. | .bfma2 .. | .vdot8 .. | .cvt ..
  | .pack2 .. | .okey .. => some 0
  | .ld .. | .st .. | .pref .. | .lock .. | .unlock .. | .dld .. | .dmk .. | .dget .. | .dset ..
  | .atom .. | .atomn .. | .satom .. => some 1
  | .bra .. | .brc .. | .jmpi .. | .call .. | .calli .. | .ret .. | .conv .. | .exit .. | .nop .. | .yield ..
  | .sleep .. | .waitv .. => some 2
  | .binit .. | .barrive .. | .bwait .. | .bsync .. | .bdrop .. | .bquery .. | .bexpect .. | .rinit ..
  | .rputAcq .. | .rputPub .. | .rgetAcq .. | .rgetRel .. | .rclose .. | .tkwait .. | .tkpass .. | .spawn ..
  | .bflush .. | .evsig .. | .evtest .. => some 3
  | .krsv .. | .krel .. | .kload .. | .kswap .. | .kloop .. | .kdrainReg .. | .kdrainMem .. | .kzero ..
  | .kfid .. | .kstat .. => some 4
  | .skick .. | .squery .. | .scancel .. => some 5
  | .gseq .. | .gflat .. | .gdep .. | .gclrPath .. | .gclrDest .. | .gclrPathFree .. | .gclrDestFree ..
  | .gscan .. | .gclipPop .. | .gclipReset .. | .gcov .. | .gblend .. | .gemit .. => some 6
  | .movs .. | .sets .. | .trap .. | .rte .. | .dbrk .. | .pmc .. | .cred .. | .cbcast .. => some 7
  | _ => none

end Sys2Proof
end

