-- ==== Sys2Proof/Decode.lean ====
section
/-!
DEFINITION. Decoding instruction words (R101 to R106, R116, R121 to R127) and Saggar's custom-0 words (R74), total and
rejecting by name; and the encoder of the same tables.
-/

namespace Sys2Proof

/-- The decode faults of R116, checks 1 to 3. -/
inductive DErr
  | illegalClause | illegalOpcode | reservedField
deriving DecidableEq, Repr

abbrev Dec (α : Type) := Except DErr α

/-! ### The fields of a word (R101, R102) -/

def fOpc (w : DWord) : BitVec 8 := w.extractLsb' 56 8
def fVar (w : DWord) : BitVec 4 := w.extractLsb' 52 4
def fDst (w : DWord) : BitVec 8 := w.extractLsb' 44 8
def fOpa (w : DWord) : BitVec 8 := w.extractLsb' 36 8
def fOpb (w : DWord) : BitVec 8 := w.extractLsb' 28 8
def fOpc2 (w : DWord) : BitVec 8 := w.extractLsb' 20 8
/-- PEN, PSENSE and PBIT together. -/
def fPred (w : DWord) : BitVec 4 := w.extractLsb' 16 4
def fMod (w : DWord) : BitVec 4 := w.extractLsb' 12 4
def fFunc (w : DWord) : BitVec 12 := w.extractLsb' 0 12
def fIx (w : DWord) : BitVec 4 := w.extractLsb' 32 4
def fImm (w : DWord) : Word := w.extractLsb' 0 32

/-- The bits of FUNC from `lo`, `n` of them, as a number. -/
def funcBits (w : DWord) (lo n : Nat) : Nat := (fFunc w).toNat / 2 ^ lo % 2 ^ n

/-- An R-form word (R101). -/
def mkR (opc : BitVec 8) (var : BitVec 4) (dst opa opb c : BitVec 8) (p md : BitVec 4) (fn : BitVec 12) : DWord :=
  opc ++ var ++ dst ++ opa ++ opb ++ c ++ p ++ md ++ fn

/-- An I-form word (R102). -/
def mkI (opc : BitVec 8) (var : BitVec 4) (dst opa : BitVec 8) (ix : BitVec 4) (imm : Word) : DWord :=
  opc ++ var ++ dst ++ opa ++ ix ++ imm

/-! ### Checks -/

/-- Check 3 of R116. -/
def rsv (b : Bool) : Dec Unit := if b then .ok () else .error .reservedField

/-- Check 2 of R116. -/
def opChk (b : Bool) : Dec Unit := if b then .ok () else .error .illegalOpcode

/-- A source operand code of `n` registers (R105). -/
def dSrc (R n : Nat) (c : BitVec 8) : Dec Src :=
  if h : c.toNat < 128 then
    if c.toNat < R ∧ c.toNat % n = 0 then .ok (.v ⟨c.toNat, h⟩) else .error .reservedField
  else if h : c.toNat < 192 then
    if (c.toNat - 128) % n = 0 then .ok (.s ⟨c.toNat - 128, by omega⟩) else .error .reservedField
  else if c.toNat < 208 then .error .reservedField
  else if h : c.toNat < 240 then .ok (.k ⟨c.toNat - 208, by omega⟩)
  else .error .reservedField

/-- A v or s destination code of `n` registers (R105). -/
def dReg (R n : Nat) (c : BitVec 8) : Dec Reg :=
  if h : c.toNat < 128 then
    if c.toNat < R ∧ c.toNat % n = 0 then .ok (.v ⟨c.toNat, h⟩) else .error .reservedField
  else if h : c.toNat < 192 then
    if (c.toNat - 128) % n = 0 then .ok (.s ⟨c.toNat - 128, by omega⟩) else .error .reservedField
  else .error .reservedField

/-- A record code (R105). -/
def dRec (c : BitVec 8) : Dec DReg :=
  if h : 192 ≤ c.toNat ∧ c.toNat < 208 then .ok ⟨c.toNat - 192, by omega⟩ else .error .reservedField

/-- A condition bit named in DST. -/
def dBit (c : BitVec 8) : Dec CBit :=
  if h : c.toNat < 4 then .ok ⟨c.toNat, h⟩ else .error .reservedField

/-- The predicate of an R-form word (R104). -/
def dPred (w : DWord) : Dec Pred :=
  let p := (fPred w).toNat
  if 8 ≤ p then .ok (.on (p / 4 % 2 == 1) (Fin.ofNat 4 (p % 4)))
  else rsv (p == 0) >>= fun _ => .ok .always

def z {n : Nat} (b : BitVec n) : Dec Unit := rsv (b == 0)

/-- MOD bits outside `mask` are zero (R103). -/
def modz (w : DWord) (mask : BitVec 4) : Dec Unit := rsv (fMod w &&& ~~~mask == 0)

/-- FUNC bits outside `mask` are zero (R103). -/
def funz (w : DWord) (mask : BitVec 12) : Dec Unit := rsv (fFunc w &&& ~~~mask == 0)

def rmOf (w : DWord) : Rm :=
  match (fMod w).toNat / 4 with
  | 0 => .rn
  | 1 => .rz
  | 2 => .ru
  | _ => .rd

def satOf (w : DWord) : Bool := (fMod w).getLsbD 1
def mod12 (w : DWord) : Bool := (fMod w).getLsbD 0

/-- The modifiers of operand number `i` (R165). -/
def fmOf (w : DWord) (i : Nat) : FMod := ⟨(fFunc w).getLsbD (2 * i), (fFunc w).getLsbD (2 * i + 1)⟩

def cbitAt (w : DWord) (lo : Nat) : CBit := Fin.ofNat 4 (funcBits w lo 2)

/-! ### Variants (R121) -/

def vIV (w : DWord) : Dec (ITy × Bool) :=
  match (fVar w).toNat with
  | 0 => .ok (.i32, false)
  | 1 => .ok (.n32, false)
  | 2 => .ok (.i64, false)
  | 3 => .ok (.n64, false)
  | 8 => .ok (.i32, true)
  | 9 => .ok (.n32, true)
  | 10 => .ok (.i64, true)
  | 11 => .ok (.n64, true)
  | _ => .error .illegalOpcode

def vIR (w : DWord) : Dec ITy :=
  match (fVar w).toNat with
  | 0 => .ok .i32
  | 1 => .ok .n32
  | 2 => .ok .i64
  | 3 => .ok .n64
  | _ => .error .illegalOpcode

def vBV (w : DWord) : Dec (Bool × Bool) :=
  match (fVar w).toNat with
  | 0 => .ok (false, false)
  | 2 => .ok (true, false)
  | 8 => .ok (false, true)
  | 10 => .ok (true, true)
  | _ => .error .illegalOpcode

def vBR (w : DWord) : Dec Bool :=
  match (fVar w).toNat with
  | 0 => .ok false
  | 2 => .ok true
  | _ => .error .illegalOpcode

def vFV (w : DWord) : Dec (FTy × Bool) :=
  match (fVar w).toNat with
  | 0 => .ok (.f32, false)
  | 1 => .ok (.f16, false)
  | 2 => .ok (.bf16, false)
  | 8 => .ok (.f32, true)
  | _ => .error .illegalOpcode

def vFR (w : DWord) : Dec FTy :=
  match (fVar w).toNat with
  | 0 => .ok .f32
  | 1 => .ok .f16
  | 2 => .ok .bf16
  | _ => .error .illegalOpcode

/-- Variant `n` only. -/
def vIs (w : DWord) (n : Nat) : Dec Unit := opChk ((fVar w).toNat == n)

/-- One of two variants: 0 or 1. -/
def v01 (w : DWord) : Dec Bool :=
  match (fVar w).toNat with
  | 0 => .ok false
  | 1 => .ok true
  | _ => .error .illegalOpcode

def vLTy (w : DWord) : Dec LTy :=
  match (fVar w).toNat with
  | 0 => .ok .i32
  | 1 => .ok .n32
  | 2 => .ok .f32
  | 3 => .ok .h2
  | 4 => .ok .bh2
  | 5 => .ok .b32
  | 6 => .ok .n64
  | _ => .error .illegalOpcode

def vATy (w : DWord) : Dec ATy :=
  match (fVar w).toNat with
  | 0 => .ok .i32
  | 1 => .ok .n32
  | 2 => .ok .i64
  | 3 => .ok .n64
  | 4 => .ok .f32
  | 5 => .ok .h2
  | 6 => .ok .bh2
  | _ => .error .illegalOpcode

def irelOf : Nat → Dec IRel
  | 0 => .ok .eq
  | 1 => .ok .ne
  | 2 => .ok .lt
  | 3 => .ok .le
  | 4 => .ok .gt
  | 5 => .ok .ge
  | _ => .error .illegalOpcode

def frelOf : Nat → Dec FRel
  | 0 => .ok .eq
  | 1 => .ok .ne
  | 2 => .ok .lt
  | 3 => .ok .le
  | 4 => .ok .gt
  | 5 => .ok .ge
  | 6 => .ok .ord
  | 7 => .ok .uno
  | _ => .error .illegalOpcode

def lopOf : Nat → Dec LOp
  | 0 => .ok .add
  | 1 => .ok .min
  | 2 => .ok .max
  | 3 => .ok .and
  | 4 => .ok .or
  | 5 => .ok .xor
  | 6 => .ok .maxix
  | 7 => .ok .minix
  | _ => .error .illegalOpcode

def aopOf : Nat → Dec AOp
  | 0 => .ok .add
  | 1 => .ok .sub
  | 2 => .ok .min
  | 3 => .ok .max
  | 4 => .ok .and
  | 5 => .ok .or
  | 6 => .ok .xor
  | 7 => .ok .exch
  | 8 => .ok .cas
  | 9 => .ok .maxix
  | 10 => .ok .minix
  | _ => .error .illegalOpcode

def ctyOf : Nat → Dec CTy
  | 0 => .ok .f32
  | 1 => .ok .f16
  | 2 => .ok .bf16
  | 3 => .ok .e4m3
  | 4 => .ok .i32
  | 5 => .ok .n32
  | 6 => .ok .i64
  | 7 => .ok .n64
  | 8 => .ok .i16
  | 9 => .ok .n16
  | 10 => .ok .i8
  | 11 => .ok .n8
  | _ => .error .illegalOpcode

def sregOf : Nat → Dec SReg
  | 0 => .ok .width
  | 1 => .ok .workid
  | 2 => .ok .lane
  | 3 => .ok .waveslot
  | 4 => .ok .groupmask
  | 5 => .ok .ticks
  | 6 => .ok .breg
  | 7 => .ok .hold
  | 8 => .ok .tpc
  | 9 => .ok .tformer
  | 10 => .ok .tfault
  | 11 => .ok .tcause
  | 12 => .ok .taddr
  | 13 => .ok .kstatus
  | 14 => .ok .fidelity
  | 15 => .ok .fpflags
  | _ => .error .reservedField

/-! ### Shapes: the operands of a word with every unused operand zero (R103) -/

/-- Destination and operands a, b with an I form: MOD, FUNC and IX are the caller's. -/
def sRI (R nd na nb : Nat) (im : Bool) (w : DWord) : Dec (Pred × Reg × Src × Opb) := do
  let d ← dReg R nd (fDst w)
  let a ← dSrc R na (fOpa w)
  if im then
    pure (.always, d, a, .imm (fImm w))
  else do
    let p ← dPred w
    let b ← dSrc R nb (fOpb w)
    z (fOpc2 w)
    pure (p, d, a, .src b)

def s0 (R nd : Nat) (w : DWord) : Dec (Pred × Reg) := do
  let p ← dPred w
  let d ← dReg R nd (fDst w)
  z (fOpa w)
  z (fOpb w)
  z (fOpc2 w)
  pure (p, d)

def s1 (R nd na : Nat) (w : DWord) : Dec (Pred × Reg × Src) := do
  let p ← dPred w
  let d ← dReg R nd (fDst w)
  let a ← dSrc R na (fOpa w)
  z (fOpb w)
  z (fOpc2 w)
  pure (p, d, a)

def s2 (R nd na nb : Nat) (w : DWord) : Dec (Pred × Reg × Src × Src) := do
  let p ← dPred w
  let d ← dReg R nd (fDst w)
  let a ← dSrc R na (fOpa w)
  let b ← dSrc R nb (fOpb w)
  z (fOpc2 w)
  pure (p, d, a, b)

def s3 (R nd na nb nc : Nat) (w : DWord) : Dec (Pred × Reg × Src × Src × Src) := do
  let p ← dPred w
  let d ← dReg R nd (fDst w)
  let a ← dSrc R na (fOpa w)
  let b ← dSrc R nb (fOpb w)
  let c ← dSrc R nc (fOpc2 w)
  pure (p, d, a, b, c)

/-- A record with two indices (R207), and the predicate. -/
def sMem (R : Nat) (w : DWord) : Dec (Pred × DReg × Src × Src) := do
  let p ← dPred w
  let r ← dRec (fOpa w)
  let i ← dSrc R 1 (fOpb w)
  let j ← dSrc R 1 (fOpc2 w)
  pure (p, r, i, j)

/-- No operand but a: DST, OPB and OPC2 zero. -/
def sA (R na : Nat) (w : DWord) : Dec (Pred × Src) := do
  let p ← dPred w
  z (fDst w)
  let a ← dSrc R na (fOpa w)
  z (fOpb w)
  z (fOpc2 w)
  pure (p, a)

/-- No operand at all. -/
def sP (w : DWord) : Dec Pred := do
  let p ← dPred w
  z (fDst w)
  z (fOpa w)
  z (fOpb w)
  z (fOpc2 w)
  pure p

def noMF (w : DWord) : Dec Unit := do
  modz w 0
  funz w 0

/-- In the I form nothing but IX remains, and it is zero; in the R form MOD and FUNC keep to their masks. -/
def iz (im : Bool) (w : DWord) (m : BitVec 4) (f : BitVec 12) : Dec Unit :=
  if im then z (fIx w) else do
    modz w m
    funz w f

/-! ### Class 0 (R122) -/

def dArith (R : Nat) (w : DWord) (mk : ITy → Bool → Pred → Reg → Src → Opb → Instr) : Dec Instr := do
  let (t, im) ← vIV w
  let (p, d, a, b) ← sRI R t.n t.n t.n im w
  iz im w 2 0
  pure (mk t (!im && satOf w) p d a b)

def dMinMax (R : Nat) (w : DWord) (mk : ITy → Pred → Reg → Src → Opb → Instr) : Dec Instr := do
  let (t, im) ← vIV w
  let (p, d, a, b) ← sRI R t.n t.n t.n im w
  iz im w 0 0
  pure (mk t p d a b)

def dAbs (R : Nat) (w : DWord) (mk : Bool → Bool → Pred → Reg → Src → Instr) : Dec Instr := do
  let t ← vBR w
  let (p, d, a) ← s1 R (wn t) (wn t) w
  modz w 2
  funz w 0
  pure (mk t (satOf w) p d a)

def dLogic (R : Nat) (w : DWord) (shift : Bool) (mk : Bool → Pred → Reg → Src → Opb → Instr) : Dec Instr := do
  let (t, im) ← vBV w
  let (p, d, a, b) ← sRI R (wn t) (wn t) (if shift then 1 else wn t) im w
  iz im w 0 0
  pure (mk t p d a b)

def dUn (R : Nat) (w : DWord) (wide : Bool) (mk : Bool → Pred → Reg → Src → Instr) : Dec Instr := do
  let t ← vBR w
  let (p, d, a) ← s1 R (if wide then wn t else 1) (wn t) w
  noMF w
  pure (mk t p d a)

def dF2 (R : Nat) (w : DWord) (arith : Bool)
    (mk : FTy → Rm → Bool → FMod → FMod → Pred → Reg → Src → Opb → Instr) : Dec Instr := do
  let (t, im) ← vFV w
  let (p, d, a, b) ← sRI R 1 1 1 im w
  iz im w (if arith then 14 else 0) 15
  if im then pure (mk t .rn false ⟨false, false⟩ ⟨false, false⟩ p d a b)
  else pure (mk t (rmOf w) (satOf w) (fmOf w 0) (fmOf w 1) p d a b)

def dF1 (R : Nat) (w : DWord) (rounds : Bool) (mk : Rm → FMod → Pred → Reg → Src → Instr) : Dec Instr := do
  vIs w 0
  let (p, d, a) ← s1 R 1 1 w
  modz w (if rounds then 12 else 0)
  funz w 3
  pure (mk (rmOf w) (fmOf w 0) p d a)

def dH2 (R : Nat) (w : DWord) (arith : Bool) (mk : Rm → Bool → FMod → FMod → Pred → Reg → Src → Src → Instr) :
    Dec Instr := do
  vIs w 0
  let (p, d, a, b) ← s2 R 1 1 1 w
  modz w (if arith then 14 else 0)
  funz w 15
  pure (mk (rmOf w) (satOf w) (fmOf w 0) (fmOf w 1) p d a b)

def dH3 (R : Nat) (w : DWord) (mk : Rm → Bool → FMod → FMod → FMod → Pred → Reg → Src → Src → Src → Instr) :
    Dec Instr := do
  vIs w 0
  let (p, d, a, b, c) ← s3 R 1 1 1 1 w
  modz w 14
  funz w 63
  pure (mk (rmOf w) (satOf w) (fmOf w 0) (fmOf w 1) (fmOf w 2) p d a b c)

def decode0 (R : Nat) (w : DWord) : Dec Instr :=
  match (fOpc w).toNat with
  | 0x00 => dArith R w .iadd
  | 0x01 => dArith R w .isub
  | 0x02 => dArith R w .imul
  | 0x03 => do
    let u ← v01 w
    let (p, d, a, b) ← s2 R 1 1 1 w
    noMF w
    pure (.imulh (!u) p d a b)
  | 0x04 => do
    let t ← vIR w
    let (p, d, a, b, c) ← s3 R t.n t.n t.n t.n w
    modz w 2
    funz w 0
    pure (.imad t (satOf w) p d a b c)
  | 0x05 => dMinMax R w .imin
  | 0x06 => dMinMax R w .imax
  | 0x07 => dAbs R w .iabs
  | 0x08 => dAbs R w .ineg
  | 0x10 => dLogic R w false .and
  | 0x11 => dLogic R w false .or
  | 0x12 => dLogic R w false .xor
  | 0x13 => dLogic R w false .andn
  | 0x14 => dUn R w true .not
  | 0x15 => dLogic R w true .shl
  | 0x16 => dLogic R w true .shr
  | 0x17 => dLogic R w true .sar
  | 0x18 => dLogic R w true .rotl
  | 0x19 => do
    let t ← (match (fVar w).toNat with
      | 0 => .ok .n32
      | 1 => .ok .i32
      | 2 => .ok .n64
      | 3 => .ok .i64
      | _ => .error .illegalOpcode : Dec ITy)
    let (p, d, a, b) ← s2 R t.n t.n 1 w
    noMF w
    pure (.bfx t p d a b)
  | 0x1A => do
    let t ← vBR w
    let (p, d, a, b, c) ← s3 R (wn t) (wn t) (wn t) 1 w
    noMF w
    pure (.bfi t p d a b c)
  | 0x1B => dUn R w false .popc
  | 0x1C => dUn R w false .clz
  | 0x1D => dUn R w false .ctz
  | 0x1E => dUn R w true .brev
  | 0x1F => do
    vIs w 0
    let (p, d, a, b, c) ← s3 R 1 1 1 1 w
    noMF w
    pure (.permb p d a b c)
  | 0x20 => do
    let (t, im) ← vIV w
    let rel ← irelOf (if im then (fIx w).toNat else funcBits w 0 4)
    let c ← dBit (fDst w)
    let a ← dSrc R t.n (fOpa w)
    if im then pure (.icmp t rel .always c a (.imm (fImm w)))
    else do
      let p ← dPred w
      let b ← dSrc R t.n (fOpb w)
      z (fOpc2 w)
      modz w 0
      funz w 15
      pure (.icmp t rel p c a (.src b))
  | 0x21 => do
    let t ← vBR w
    let (p, d, a, b) ← s2 R (wn t) (wn t) (wn t) w
    modz w 0
    funz w 3
    pure (.sel t (cbitAt w 0) p d a b)
  | 0x22 => do
    let t ← (match (fVar w).toNat with
      | 0 => .ok .b32
      | 2 => .ok .b64
      | 4 => .ok .b128
      | _ => .error .illegalOpcode : Dec MovW)
    let (p, d, a) ← s1 R t.n t.n w
    noMF w
    pure (.mov t p d a)
  | 0x23 => do
    let t ← (match (fVar w).toNat with
      | 8 => .ok false
      | 10 => .ok true
      | _ => .error .illegalOpcode : Dec Bool)
    let d ← dReg R (wn t) (fDst w)
    z (fOpa w)
    z (fIx w)
    pure (.movi t d (fImm w))
  | 0x24 => do
    vIs w 8
    let d ← dReg R 2 (fDst w)
    let a ← dSrc R 1 (fOpa w)
    z (fIx w)
    pure (.movw d a (fImm w))
  | 0x28 => do
    vIs w 0
    let p ← dPred w
    let c ← dBit (fDst w)
    z (fOpa w)
    z (fOpb w)
    z (fOpc2 w)
    modz w 0
    funz w 0xFF
    pure (.clog (Fin.ofNat 16 (funcBits w 4 4)) p c (cbitAt w 0) (cbitAt w 2))
  | 0x29 => do
    vIs w 0
    let (p, d) ← s0 R 2 w
    modz w 0
    funz w 7
    pure (.ctov ((fFunc w).getLsbD 2) (cbitAt w 0) p d)
  | 0x2A => do
    vIs w 0
    let p ← dPred w
    let c ← dBit (fDst w)
    let a ← dSrc R 2 (fOpa w)
    z (fOpb w)
    z (fOpc2 w)
    modz w 0
    funz w 4
    pure (.vtoc ((fFunc w).getLsbD 2) p c a)
  | 0x30 => do
    let m ← (match (fVar w).toNat with
      | 0 => .ok .idx
      | 1 => .ok .up
      | 2 => .ok .down
      | 3 => .ok .xor
      | _ => .error .illegalOpcode : Dec Shfl)
    let (p, d, a, b, c) ← s3 R 1 1 1 2 w
    noMF w
    pure (.wshfl m p d a b c)
  | 0x31 => do
    let t ← vBR w
    let (p, d, a, b, c) ← s3 R (wn t) (wn t) 1 2 w
    noMF w
    pure (.wbcast t p d a b c)
  | 0x32 => do
    let t ← vLTy w
    let op ← lopOf (funcBits w 0 4)
    opChk (op.legal t)
    let p ← dPred w
    let d ← dReg R t.n (fDst w)
    let a ← dSrc R t.n (fOpa w)
    z (fOpb w)
    let m ← dSrc R 2 (fOpc2 w)
    modz w (if op.rounds t then 12 else 0)
    funz w 15
    pure (.wred op t (rmOf w) p d a m)
  | 0x33 => do
    let t ← vLTy w
    let op ← lopOf (funcBits w 0 4)
    opChk (op.legal t)
    let p ← dPred w
    let d ← dReg R t.n (fDst w)
    let a ← dSrc R t.n (fOpa w)
    z (fOpb w)
    let m ← dSrc R 2 (fOpc2 w)
    modz w (if op.rounds t then 13 else 1)
    funz w 15
    pure (.wscan op t (rmOf w) (mod12 w) p d a m)
  | 0x34 => do
    vIs w 0
    let p ← dPred w
    z (fOpa w)
    z (fOpb w)
    let m ← dSrc R 2 (fOpc2 w)
    modz w 0
    funz w 15
    let q := cbitAt w 0
    match funcBits w 2 2 with
    | 0 => do
      let c ← dBit (fDst w)
      pure (.wvote (.all c) q p m)
    | 1 => do
      let c ← dBit (fDst w)
      pure (.wvote (.any c) q p m)
    | 2 => do
      let c ← dBit (fDst w)
      pure (.wvote (.uni c) q p m)
    | _ => do
      let d ← dReg R 2 (fDst w)
      pure (.wvote (.ballot d) q p m)
  | 0x35 => do
    let t ← vBR w
    let p ← dPred w
    let d ← dReg R 2 (fDst w)
    let a ← dSrc R (wn t) (fOpa w)
    z (fOpb w)
    let m ← dSrc R 2 (fOpc2 w)
    noMF w
    pure (.wmatch t p d a m)
  | 0x40 => dF2 R w true .fadd
  | 0x41 => dF2 R w true .fsub
  | 0x42 => dF2 R w true .fmul
  | 0x43 => do
    let t ← vFR w
    let (p, d, a, b, c) ← s3 R 1 1 1 1 w
    modz w 14
    funz w 63
    pure (.ffma t (rmOf w) (satOf w) (fmOf w 0) (fmOf w 1) (fmOf w 2) p d a b c)
  | 0x44 => dF2 R w false (fun t _ _ ma mb => .fmin t ma mb)
  | 0x45 => dF2 R w false (fun t _ _ ma mb => .fmax t ma mb)
  | 0x46 => dF2 R w false (fun t _ _ ma mb => .fminn t ma mb)
  | 0x47 => dF2 R w false (fun t _ _ ma mb => .fmaxn t ma mb)
  | 0x48 => do
    let t ← vFR w
    let rel ← frelOf (funcBits w 6 4)
    let p ← dPred w
    let c ← dBit (fDst w)
    let a ← dSrc R 1 (fOpa w)
    let b ← dSrc R 1 (fOpb w)
    z (fOpc2 w)
    modz w 0
    funz w 0x3CF
    pure (.fcmp t rel (fmOf w 0) (fmOf w 1) p c a b)
  | 0x49 => do
    let t ← vFR w
    let (p, d, a) ← s1 R 1 1 w
    modz w 0
    funz w 3
    pure (.fclass t (fmOf w 0) p d a)
  | 0x4A => do
    let t ← vFR w
    let (p, d, a) ← s1 R 1 1 w
    modz w 12
    funz w 3
    pure (.frnd t (rmOf w) (fmOf w 0) p d a)
  | 0x50 => dF1 R w true .frcp
  | 0x51 => dF1 R w true .frsq
  | 0x52 => dF1 R w true .fsqrt
  | 0x53 => dF1 R w false (fun _ => .fexp2)
  | 0x54 => dF1 R w false (fun _ => .flog2)
  | 0x55 => dF1 R w false (fun _ => .fsin)
  | 0x56 => dF1 R w false (fun _ => .fcos)
  | 0x60 => dH2 R w true .hadd2
  | 0x61 => dH2 R w true .hmul2
  | 0x62 => dH3 R w .hfma2
  | 0x63 => dH2 R w false (fun _ _ => .hmin2)
  | 0x64 => dH2 R w false (fun _ _ => .hmax2)
  | 0x65 => dH2 R w true .badd2
  | 0x66 => dH3 R w .bfma2
  | 0x68 => do
    vIs w 0
    let (p, d, a, b, c) ← s3 R 1 1 1 1 w
    modz w 12
    funz w 63
    pure (.vdot8 (rmOf w) (fmOf w 0) (fmOf w 1) (fmOf w 2) p d a b c)
  | 0x70 => do
    let td ← ctyOf (fVar w).toNat
    let ts ← ctyOf (funcBits w 0 4)
    let (p, d, a) ← s1 R td.n ts.n w
    modz w (if td.satOk ts then 14 else 12)
    funz w 15
    pure (.cvt td ts (rmOf w) (satOf w) p d a)
  | 0x71 => do
    let t ← v01 w
    let (p, d, a, b) ← s2 R 1 1 1 w
    modz w 14
    funz w 15
    pure (.pack2 t (rmOf w) (satOf w) (fmOf w 0) (fmOf w 1) p d a b)
  | 0x72 => do
    let t ← v01 w
    let (p, d, a, b) ← s2 R 2 1 1 w
    modz w 1
    funz w 0
    pure (.okey t (mod12 w) p d a b)
  | 0x78 => do
    vIs w 0
    let (p, d, a) ← s1 R 1 2 w
    noMF w
    pure (.t3pk p d a)
  | 0x79 => do
    vIs w 0
    let (p, d, a) ← s1 R 2 1 w
    modz w 0
    funz w 3
    pure (.t3un (cbitAt w 0) p d a)
  | _ => .error .illegalOpcode

/-! ### Class 1 (R124) -/

def dAtom (R : Nat) (w : DWord) (mk : AOp → ATy → Pred → Reg → DReg → Src → Src → Instr) : Dec Instr := do
  let t ← vATy w
  let op ← aopOf (funcBits w 0 4)
  opChk (op.legal t)
  let p ← dPred w
  let d ← dReg R t.n (fDst w)
  let r ← dRec (fOpa w)
  let i ← dSrc R 1 (fOpb w)
  let c ← dSrc R (op.cn t) (fOpc2 w)
  modz w 0
  funz w 15
  pure (mk op t p d r i c)

def decode1 (R : Nat) (w : DWord) : Dec Instr :=
  match (fOpc w).toNat with
  | 0x00 => do
    let t ← (match (fVar w).toNat with
      | 0 => .ok .n8
      | 1 => .ok .n16
      | 2 => .ok .b32
      | 3 => .ok .b64
      | 4 => .ok .b128
      | 5 => .ok .i8
      | 6 => .ok .i16
      | _ => .error .illegalOpcode : Dec LdW)
    let d ← dReg R t.n (fDst w)
    let (p, r, i, j) ← sMem R w
    noMF w
    pure (.ld t p d r i j)
  | 0x01 => do
    let t ← (match (fVar w).toNat with
      | 0 => .ok .b8
      | 1 => .ok .b16
      | 2 => .ok .b32
      | 3 => .ok .b64
      | 4 => .ok .b128
      | _ => .error .illegalOpcode : Dec StW)
    let c ← dSrc R t.n (fDst w)
    let (p, r, i, j) ← sMem R w
    noMF w
    pure (.st t p c r i j)
  | 0x02 => do
    vIs w 0
    let l ← (match funcBits w 0 2 with
      | 0 => .ok .l1
      | 1 => .ok .l2
      | 2 => .ok .msc
      | _ => .error .illegalOpcode : Dec PfLvl)
    z (fDst w)
    let (p, r, i, j) ← sMem R w
    modz w 0
    funz w 3
    pure (.pref l p r i j)
  | 0x03 => do
    vIs w 0
    let d ← dReg R 1 (fDst w)
    let (p, r, i, j) ← sMem R w
    modz w 0
    funz w 3
    pure (.lock (cbitAt w 0) p d r i j)
  | 0x04 => do
    vIs w 0
    z (fDst w)
    let (p, r, i, j) ← sMem R w
    noMF w
    pure (.unlock p r i j)
  | 0x08 => do
    vIs w 0
    let p ← dPred w
    let d ← dRec (fDst w)
    let a ← dSrc R 1 (fOpa w)
    z (fOpb w)
    z (fOpc2 w)
    noMF w
    pure (.dld p d a)
  | 0x09 => do
    vIs w 0
    let p ← dPred w
    let d ← dRec (fDst w)
    let a ← dSrc R 4 (fOpa w)
    let b ← dSrc R 4 (fOpb w)
    z (fOpc2 w)
    noMF w
    pure (.dmk p d a b)
  | 0x0A => do
    vIs w 0
    let p ← dPred w
    let d ← dReg R 1 (fDst w)
    let r ← dRec (fOpa w)
    z (fOpb w)
    z (fOpc2 w)
    modz w 0
    funz w 7
    pure (.dget (Fin.ofNat 8 (funcBits w 0 3)) p d r)
  | 0x0B => do
    vIs w 0
    let p ← dPred w
    let d ← dRec (fDst w)
    let a ← dSrc R 1 (fOpa w)
    z (fOpb w)
    z (fOpc2 w)
    modz w 0
    funz w 7
    pure (.dset (Fin.ofNat 8 (funcBits w 0 3)) p d a)
  | 0x10 => dAtom R w .atom
  | 0x11 => do
    let t ← vATy w
    let op ← aopOf (funcBits w 0 4)
    opChk (op.legal t)
    let p ← dPred w
    z (fDst w)
    let r ← dRec (fOpa w)
    let i ← dSrc R 1 (fOpb w)
    let c ← dSrc R (op.cn t) (fOpc2 w)
    modz w 0
    funz w 15
    pure (.atomn op t p r i c)
  | 0x12 => dAtom R w .satom
  | _ => .error .illegalOpcode

/-! ### Class 2 (R125, R153 to R162) -/

def decode2 (R : Nat) (w : DWord) : Dec Instr :=
  match (fOpc w).toNat with
  | 0x00 => do
    vIs w 8
    z (fDst w)
    z (fOpa w)
    z (fIx w)
    pure (.bra (fImm w))
  | 0x01 => do
    vIs w 8
    z (fDst w)
    z (fOpa w)
    rsv ((fIx w).toNat < 8)
    pure (.brc (Fin.ofNat 4 ((fIx w).toNat % 4)) ((fIx w).toNat / 4 % 2 == 1) (fImm w))
  | 0x02 => do
    vIs w 0
    let (p, a) ← sA R 2 w
    noMF w
    pure (.jmpi p a)
  | 0x03 => do
    vIs w 8
    let d ← dReg R 2 (fDst w)
    z (fOpa w)
    z (fIx w)
    pure (.call d (fImm w))
  | 0x04 => do
    vIs w 0
    let (p, d, a) ← s1 R 2 2 w
    noMF w
    pure (.calli p d a)
  | 0x05 => do
    vIs w 0
    let (p, a) ← sA R 2 w
    noMF w
    pure (.ret p a)
  | 0x06 => do
    vIs w 0
    let p ← dPred w
    z (fDst w)
    z (fOpa w)
    z (fOpb w)
    let m ← dSrc R 2 (fOpc2 w)
    noMF w
    pure (.conv p m)
  | 0x07 => do
    vIs w 0
    let p ← sP w
    noMF w
    pure (.exit p)
  | 0x08 => do
    vIs w 0
    let p ← sP w
    noMF w
    pure (.nop p)
  | 0x09 => do
    vIs w 0
    let p ← sP w
    noMF w
    pure (.yield p)
  | 0x0A => do
    vIs w 0
    let (p, a) ← sA R 1 w
    noMF w
    pure (.sleep p a)
  | 0x0B => do
    vIs w 0
    let d ← dReg R 1 (fDst w)
    let (p, r, i, c) ← sMem R w
    noMF w
    pure (.waitv p d r i c)
  | _ => .error .illegalOpcode

/-! ### Class 3 (R126, R238) -/

def kbit3 (w : DWord) : CBit := cbitAt w 5
def slotOf (w : DWord) : Slot := Fin.ofNat 32 (funcBits w 0 5)

/-- The object mould without operands: FUNC [7] is the caller's. -/
def dObj (R nd : Nat) (w : DWord) (fm : BitVec 12) : Dec (Pred × Reg) := do
  vIs w 0
  let r ← s0 R nd w
  modz w 0
  funz w fm
  pure r

def dObjA (R : Nat) (w : DWord) (fm : BitVec 12) : Dec (Pred × Reg × Src) := do
  vIs w 0
  let r ← s1 R 1 1 w
  modz w 0
  funz w fm
  pure r

def decode3 (R : Nat) (w : DWord) : Dec Instr :=
  let k := kbit3 w
  let sl := slotOf w
  match (fOpc w).toNat with
  | 0x00 => do
    vIs w 0
    let d ← dReg R 1 (fDst w)
    let (p, r, i, j) ← sMem R w
    modz w 0
    funz w 0x7F
    pure (.binit k sl p d r i j)
  | 0x01 => do
    let (p, d) ← dObj R 1 w 0x7F
    pure (.barrive k sl p d)
  | 0x02 => do
    let (p, d) ← dObj R 1 w 0x7F
    pure (.bwait k sl p d)
  | 0x03 => do
    let (p, d) ← dObj R 1 w 0x7F
    pure (.bsync k sl p d)
  | 0x04 => do
    let (p, d) ← dObj R 1 w 0x7F
    pure (.bdrop k sl p d)
  | 0x05 => do
    let (p, d) ← dObj R 4 w 0xFF
    pure (.bquery ((fFunc w).getLsbD 7) k sl p d)
  | 0x06 => do
    let (p, d, a) ← dObjA R w 0x7F
    pure (.bexpect k sl p d a)
  | 0x10 => do
    vIs w 0
    let d ← dReg R 1 (fDst w)
    let (p, r, i, j) ← sMem R w
    modz w 0
    funz w 0xFF
    pure (.rinit ((fFunc w).getLsbD 7) k sl p d r i j)
  | 0x11 =>
    if (fFunc w).getLsbD 7 then do
      let (p, d, a) ← dObjA R w 0xFF
      pure (.rputPub k sl p d a)
    else do
      let (p, d) ← dObj R 1 w 0xFF
      pure (.rputAcq k sl p d)
  | 0x12 =>
    if (fFunc w).getLsbD 7 then do
      let (p, d, a) ← dObjA R w 0xFF
      pure (.rgetRel k sl p d a)
    else do
      let (p, d) ← dObj R 1 w 0xFF
      pure (.rgetAcq k sl p d)
  | 0x13 => do
    let (p, d) ← dObj R 1 w 0x7F
    pure (.rclose k sl p d)
  | 0x20 => do
    vIs w 0
    let p ← dPred w
    let c ← dBit (fDst w)
    z (fOpa w)
    z (fOpb w)
    z (fOpc2 w)
    noMF w
    pure (.tkwait p c)
  | 0x21 => do
    vIs w 0
    let p ← sP w
    noMF w
    pure (.tkpass p)
  | 0x30 => do
    vIs w 0
    let p ← dPred w
    let c ← dBit (fDst w)
    let a ← dSrc R 2 (fOpa w)
    let b ← dSrc R 4 (fOpb w)
    let x ← dSrc R 2 (fOpc2 w)
    noMF w
    pure (.spawn p c a b x)
  | 0x31 => do
    vIs w 0
    modz w 0
    funz w 1
    if (fFunc w).getLsbD 0 then do
      let p ← sP w
      pure (.bflush p none)
    else do
      let (p, a) ← sA R 2 w
      pure (.bflush p (some a))
  | 0x38 => do
    vIs w 0
    let (p, a) ← sA R 1 w
    noMF w
    pure (.evsig p a)
  | 0x39 => do
    vIs w 0
    modz w 0
    funz w 1
    let p ← dPred w
    let a ← dSrc R 1 (fOpa w)
    z (fOpb w)
    z (fOpc2 w)
    if (fFunc w).getLsbD 0 then do
      let d ← dReg R 1 (fDst w)
      pure (.evtest p (.word d) a)
    else do
      let c ← dBit (fDst w)
      pure (.evtest p (.bit c) a)
  | _ => .error .illegalOpcode

/-! ### Classes 4 to 7 (R127) -/

def khi (w : DWord) : CBit := cbitAt w 10

def decode4 (R : Nat) (w : DWord) : Dec Instr :=
  let k := khi w
  match (fOpc w).toNat with
  | 0x00 => do
    vIs w 0
    let (p, d, a, b) ← s2 R 1 1 1 w
    modz w 0
    funz w 0xC00
    pure (.krsv k p d a b)
  | 0x01 => do
    vIs w 0
    let (p, d) ← s0 R 1 w
    modz w 0
    funz w 0xC00
    pure (.krel k p d)
  | 0x02 => do
    vIs w 0
    let (p, d, a, b) ← s2 R 1 1 1 w
    modz w 0
    funz w 0xC00
    pure (.kload k p d a b)
  | 0x03 => do
    vIs w 0
    let (p, d, a) ← s1 R 1 1 w
    modz w 0
    funz w 0xC00
    pure (.kswap k p d a)
  | 0x04 => do
    vIs w 0
    let (p, d, a, b) ← s2 R 1 4 4 w
    modz w 1
    funz w 0xC00
    pure (.kloop (mod12 w) k p d a b)
  | 0x05 =>
    match (fVar w).toNat with
    | 0 => do
      let (p, d, a) ← s1 R 1 1 w
      modz w 1
      funz w 0xC00
      pure (.kdrainReg false (mod12 w) k p d a)
    | 1 => do
      let (p, d, a) ← s1 R 1 4 w
      modz w 1
      funz w 0xC00
      pure (.kdrainMem false (mod12 w) k p d a)
    | 2 => do
      let (p, d, a) ← s1 R 4 1 w
      modz w 1
      funz w 0xC00
      pure (.kdrainReg true (mod12 w) k p d a)
    | 3 => do
      let (p, d, a) ← s1 R 1 4 w
      modz w 1
      funz w 0xC00
      pure (.kdrainMem true (mod12 w) k p d a)
    | _ => .error .illegalOpcode
  | 0x06 => do
    vIs w 0
    let (p, d, a, b) ← s2 R 1 1 1 w
    modz w 1
    funz w 0xC00
    pure (.kzero (mod12 w) k p d a b)
  | 0x07 => do
    vIs w 0
    let (p, d, a) ← s1 R 1 1 w
    modz w 0
    funz w 0xC00
    pure (.kfid k p d a)
  | 0x08 => do
    vIs w 0
    let sl ← (match funcBits w 0 2 with
      | 0 => .ok .low
      | 1 => .ok .mid
      | 2 => .ok .high
      | _ => .error .illegalOpcode : Dec KSlice)
    let (p, d) ← s0 R 2 w
    modz w 0
    funz w 0xC0F
    pure (.kstat sl (Fin.ofNat 4 (funcBits w 2 2)) k p d)
  | _ => .error .illegalOpcode

def decode5 (R : Nat) (w : DWord) : Dec Instr :=
  let k := khi w
  match (fOpc w).toNat with
  | 0x00 => do
    vIs w 0
    let d ← dReg R 1 (fDst w)
    let (p, r, i, j) ← sMem R w
    modz w 0
    funz w 0xC00
    pure (.skick k p d r i j)
  | 0x01 => do
    vIs w 0
    let (p, d, a) ← s1 R 4 1 w
    modz w 0
    funz w 0xC00
    pure (.squery k p d a)
  | 0x02 => do
    vIs w 0
    let (p, d, a) ← s1 R 1 1 w
    modz w 0
    funz w 0xC00
    pure (.scancel k p d a)
  | _ => .error .illegalOpcode

def decode6 (R : Nat) (w : DWord) : Dec Instr :=
  let k := khi w
  let t : Fin 16 := Fin.ofNat 16 (funcBits w 0 4)
  match (fOpc w).toNat with
  | 0x00 => do
    vIs w 0
    let (p, d, a, b, c) ← s3 R 1 4 1 4 w
    modz w 0
    funz w 0xC00
    pure (.gseq k p d a b c)
  | 0x01 => do
    let cu ← v01 w
    let (p, d, a, b, c) ← s3 R 1 4 4 1 w
    modz w 1
    funz w 0xC00
    pure (.gflat cu (mod12 w) k p d a b c)
  | 0x02 => do
    vIs w 0
    let (p, d, a, b) ← s2 R 1 4 1 w
    modz w 0
    funz w 0xC00
    pure (.gdep k p d a b)
  | 0x03 => do
    vIs w 0
    modz w 0
    match funcBits w 6 2 with
    | 0 => do
      funz w 0xC00
      let (p, d, a, b) ← s2 R 1 1 1 w
      pure (.gclrPath k p d a b)
    | 1 => do
      funz w 0xC40
      let p ← dPred w
      let d ← dReg R 1 (fDst w)
      z (fOpa w)
      let b ← dSrc R 1 (fOpb w)
      z (fOpc2 w)
      pure (.gclrPathFree k p d b)
    | 2 => do
      funz w 0xC8F
      let (p, d, a, b, c) ← s3 R 1 1 1 2 w
      pure (.gclrDest t k p d a b c)
    | _ => do
      funz w 0xCCF
      let (p, d) ← s0 R 1 w
      pure (.gclrDestFree t k p d)
  | 0x04 => do
    vIs w 0
    let p ← dPred w
    let d ← dReg R 1 (fDst w)
    z (fOpa w)
    let b ← dSrc R 1 (fOpb w)
    z (fOpc2 w)
    modz w 0
    funz w 0xC0F
    pure (.gscan t k p d b)
  | 0x05 => do
    vIs w 0
    let (p, d) ← s0 R 1 w
    modz w 0
    funz w 0xC1F
    if (fFunc w).getLsbD 4 then pure (.gclipReset t k p d) else pure (.gclipPop t k p d)
  | 0x06 => do
    vIs w 0
    modz w 0
    funz w 0xC10
    if (fFunc w).getLsbD 4 then do
      let (p, d, a, b) ← s2 R 1 1 1 w
      pure (.gcov (some b) k p d a)
    else do
      let (p, d, a) ← s1 R 1 2 w
      pure (.gcov none k p d a)
  | 0x07 => do
    vIs w 0
    let (p, d, a, b) ← s2 R 1 2 2 w
    modz w 0
    funz w 0xC00
    pure (.gblend k p d a b)
  | 0x08 => do
    let en ← v01 w
    let d ← dReg R 1 (fDst w)
    modz w 0
    if en then do
      funz w 0xC0F
      let p ← dPred w
      let a ← dSrc R 1 (fOpa w)
      z (fOpb w)
      z (fOpc2 w)
      pure (.gemit (.enc a) t k p d)
    else do
      funz w 0xC1F
      let (p, r, i, j) ← sMem R w
      pure (.gemit (.mem ((fFunc w).getLsbD 4) r i j) t k p d)
  | _ => .error .illegalOpcode

def decode7 (R : Nat) (w : DWord) : Dec Instr :=
  let k := khi w
  match (fOpc w).toNat with
  | 0x00 => do
    vIs w 0
    modz w 0
    funz w 0xFF
    let n ← sregOf (funcBits w 0 8)
    let (p, d) ← s0 R n.n w
    pure (.movs n p d)
  | 0x01 => do
    vIs w 0
    modz w 0
    funz w 0xFF
    let n ← sregOf (funcBits w 0 8)
    let (p, a) ← sA R n.n w
    pure (.sets n p a)
  | 0x02 => do
    vIs w 0
    modz w 0
    funz w 0xFF
    let (p, a) ← sA R 2 w
    pure (.trap p ((fFunc w).setWidth 8) a)
  | 0x03 => do
    vIs w 0
    let p ← sP w
    noMF w
    pure (.rte p)
  | 0x04 => do
    vIs w 0
    modz w 0
    funz w 0xFF
    let p ← sP w
    pure (.dbrk p ((fFunc w).setWidth 8))
  | 0x05 => do
    vIs w 0
    if h : funcBits w 0 4 < 9 then do
      modz w 0
      funz w 0x1F
      let (p, d) ← s0 R 2 w
      pure (.pmc ⟨funcBits w 0 4, h⟩ ((fFunc w).getLsbD 4) p d)
    else .error .illegalOpcode
  | 0x08 => do
    vIs w 0
    let (p, d, a, b) ← s2 R 1 4 1 w
    modz w 0
    funz w 0xC00
    pure (.cred k p d a b)
  | 0x09 => do
    vIs w 0
    let (p, d, a, b) ← s2 R 1 4 1 w
    modz w 0
    funz w 0xC00
    pure (.cbcast k p d a b)
  | _ => .error .illegalOpcode

/-- The instruction a word of engine class `cls` stands for, for a wave of `R` registers (R121). -/
def decodeClass (cls R : Nat) (w : DWord) : Dec Instr :=
  match cls with
  | 0 => decode0 R w
  | 1 => decode1 R w
  | 2 => decode2 R w
  | 3 => decode3 R w
  | 4 => decode4 R w
  | 5 => decode5 R w
  | 6 => decode6 R w
  | 7 => decode7 R w
  | _ => .error .illegalClause

/-- The one variant of each opcode of class 2 (R125). -/
def variant2 (opc : Nat) : Nat := if opc = 0 ∨ opc = 1 ∨ opc = 3 then 8 else 0

/-- Check 1 of R116: position (R98, R362). A class-2 instruction other than NOP, and RTE, stand last in their clause. A
word with a variant that its opcode does not list is no instruction (R121). -/
def positionOk (cls : Nat) (last : Bool) (w : DWord) : Bool :=
  let o := (fOpc w).toNat
  let v := (fVar w).toNat
  last || !((cls == 2 && o < 12 && o != 8 && v == variant2 o) || (cls == 7 && o == 3 && v == 0))

/-- A word of a clause of class `cls`, as R116 checks it: `last` for the last word, `tail` for TAIL = 1. -/
def decodeWord (cls R : Nat) (last tail : Bool) (w : DWord) : Dec Instr :=
  let c := if last && tail then 2 else cls
  if positionOk c last w then decodeClass c R w else .error .illegalClause

/-! ### Clause headers (R97) -/

/-- The fields of a clause header. -/
structure Header where
  cls : Nat
  count : Nat
  wak : Nat
  wai : Nat
  wbk : Nat
  wbi : Nat
  tail : Bool
  low : Nat
deriving DecidableEq, Repr

def Header.of (w : DWord) : Header :=
  { cls := (w.extractLsb' 60 4).toNat, count := (w.extractLsb' 56 4).toNat
    wak := (w.extractLsb' 52 4).toNat, wai := (w.extractLsb' 44 8).toNat
    wbk := (w.extractLsb' 40 4).toNat, wbi := (w.extractLsb' 32 8).toNat
    tail := w.getLsbD 31, low := (w.extractLsb' 0 31).toNat }

/-- The indices a wait kind admits (R99). -/
def waitIndexOk (kind index : Nat) : Bool :=
  match kind with
  | 0 | 5 | 6 => index == 0
  | 1 | 2 | 3 => index < 32
  | 4 => true
  | 7 => index < 16
  | _ => false

/-- The checks of R100, in order. -/
def Header.check (h : Header) : Dec Unit :=
  if 8 ≤ h.cls || (h.cls == 2 && h.tail) then .error .illegalClause
  else rsv (waitIndexOk h.wak h.wai && waitIndexOk h.wbk h.wbi && h.low == 0)

/-! ### Saggar's custom-0 words (R74) -/

/-- A custom-0 word of a Saggar core in machine mode; none where it raises the illegal-instruction exception. -/
def decodeSaggar (w : Word) : Option Instr :=
  let rd : XReg := Fin.ofNat 32 (w.extractLsb' 7 5).toNat
  let r1 : XReg := Fin.ofNat 32 (w.extractLsb' 15 5).toNat
  let r2 : XReg := Fin.ofNat 32 (w.extractLsb' 20 5).toNat
  if w.extractLsb' 0 7 == 0x0B#7 && w.extractLsb' 25 7 == 0#7 then
    match (w.extractLsb' 12 3).toNat with
    | 0 => some (.rfetch rd r1 r2)
    | 1 => some (.bfext rd r1 r2)
    | 2 => some (.swait rd r1 r2)
    | 3 => some (.wdisp rd r1 r2)
    | _ => none
  else none

/-- The instruction an opcode-table word stands for: 32 bits a Saggar word; longer, a one-word clause whose header is
the first 64 bits and whose instruction is the next 64, for a wave of 128 registers. -/
def decodeTableWord (nbits w : Nat) : Option Instr :=
  if nbits ≤ 32 then decodeSaggar (BitVec.ofNat 32 w)
  else
    let h := Header.of (BitVec.ofNat 64 w)
    match h.check with
    | .error _ => none
    | .ok _ =>
      match decodeWord h.cls 128 (h.count == 0) h.tail (BitVec.ofNat 64 (w / 2 ^ 64)) with
      | .ok i => some i
      | .error _ => none

/-! ### The encoder -/

def eSrc : Src → BitVec 8
  | .v n => BitVec.ofNat 8 n.val
  | .s n => BitVec.ofNat 8 (128 + n.val)
  | .k n => BitVec.ofNat 8 (208 + n.val)

def eReg : Reg → BitVec 8
  | .v n => BitVec.ofNat 8 n.val
  | .s n => BitVec.ofNat 8 (128 + n.val)

def eRec (r : DReg) : BitVec 8 := BitVec.ofNat 8 (192 + r.val)
def eBit (c : CBit) : BitVec 8 := BitVec.ofNat 8 c.val

def ePred : Pred → BitVec 4
  | .always => 0
  | .on s b => BitVec.ofNat 4 (8 + (if s then 4 else 0) + b.val)

def Rm.code : Rm → Nat
  | .rn => 0
  | .rz => 1
  | .ru => 2
  | .rd => 3

/-- MOD from the rounding mode, .sat and bit 12 (R103). -/
def eMod (rm : Rm) (sat b12 : Bool) : BitVec 4 :=
  BitVec.ofNat 4 (4 * rm.code + (if sat then 2 else 0) + (if b12 then 1 else 0))

def FMod.code (m : FMod) : Nat := (if m.neg then 1 else 0) + (if m.abs then 2 else 0)

/-- FUNC [5:0] from the operand modifiers (R165). -/
def eFm (a b c : FMod) : BitVec 12 := BitVec.ofNat 12 (a.code + 4 * b.code + 16 * c.code)

def FMod.none : FMod := ⟨false, false⟩

def ITy.code : ITy → Nat
  | .i32 => 0
  | .n32 => 1
  | .i64 => 2
  | .n64 => 3

def FTy.code : FTy → Nat
  | .f32 => 0
  | .f16 => 1
  | .bf16 => 2

def bcode (w64 : Bool) : Nat := if w64 then 2 else 0

def IRel.code : IRel → Nat
  | .eq => 0
  | .ne => 1
  | .lt => 2
  | .le => 3
  | .gt => 4
  | .ge => 5

def FRel.code : FRel → Nat
  | .eq => 0
  | .ne => 1
  | .lt => 2
  | .le => 3
  | .gt => 4
  | .ge => 5
  | .ord => 6
  | .uno => 7

def MovW.code : MovW → Nat
  | .b32 => 0
  | .b64 => 2
  | .b128 => 4

def Shfl.code : Shfl → Nat
  | .idx => 0
  | .up => 1
  | .down => 2
  | .xor => 3

def LTy.code : LTy → Nat
  | .i32 => 0
  | .n32 => 1
  | .f32 => 2
  | .h2 => 3
  | .bh2 => 4
  | .b32 => 5
  | .n64 => 6

def LOp.code : LOp → Nat
  | .add => 0
  | .min => 1
  | .max => 2
  | .and => 3
  | .or => 4
  | .xor => 5
  | .maxix => 6
  | .minix => 7

def CTy.code : CTy → Nat
  | .f32 => 0
  | .f16 => 1
  | .bf16 => 2
  | .e4m3 => 3
  | .i32 => 4
  | .n32 => 5
  | .i64 => 6
  | .n64 => 7
  | .i16 => 8
  | .n16 => 9
  | .i8 => 10
  | .n8 => 11

def LdW.code : LdW → Nat
  | .n8 => 0
  | .n16 => 1
  | .b32 => 2
  | .b64 => 3
  | .b128 => 4
  | .i8 => 5
  | .i16 => 6

def StW.code : StW → Nat
  | .b8 => 0
  | .b16 => 1
  | .b32 => 2
  | .b64 => 3
  | .b128 => 4

def PfLvl.code : PfLvl → Nat
  | .l1 => 0
  | .l2 => 1
  | .msc => 2

def ATy.code : ATy → Nat
  | .i32 => 0
  | .n32 => 1
  | .i64 => 2
  | .n64 => 3
  | .f32 => 4
  | .h2 => 5
  | .bh2 => 6

def AOp.code : AOp → Nat
  | .add => 0
  | .sub => 1
  | .min => 2
  | .max => 3
  | .and => 4
  | .or => 5
  | .xor => 6
  | .exch => 7
  | .cas => 8
  | .maxix => 9
  | .minix => 10

def KSlice.code : KSlice → Nat
  | .low => 0
  | .mid => 1
  | .high => 2

def SReg.code : SReg → Nat
  | .width => 0
  | .workid => 1
  | .lane => 2
  | .waveslot => 3
  | .groupmask => 4
  | .ticks => 5
  | .breg => 6
  | .hold => 7
  | .tpc => 8
  | .tformer => 9
  | .tfault => 10
  | .tcause => 11
  | .taddr => 12
  | .kstatus => 13
  | .fidelity => 14
  | .fpflags => 15

def b4 (n : Nat) : BitVec 4 := BitVec.ofNat 4 n
def b12 (n : Nat) : BitVec 12 := BitVec.ofNat 12 n
def nb (b : Bool) (n : Nat) : Nat := if b then n else 0

/-- Destination, a and b in R or I form. -/
def eRI (opc : BitVec 8) (var : Nat) (p : Pred) (d : Reg) (a : Src) (b : Opb) (md : BitVec 4) (fn : BitVec 12) :
    DWord :=
  match b with
  | .src x => mkR opc (b4 var) (eReg d) (eSrc a) (eSrc x) 0 (ePred p) md fn
  | .imm x => mkI opc (b4 (8 + var)) (eReg d) (eSrc a) 0 x

/-- FUNC of the object mould (R238). -/
def eObj (k : CBit) (sl : Slot) (b7 : Bool) : BitVec 12 := b12 (sl.val + 32 * k.val + nb b7 128)

/-- FUNC [11:10] with the low bits `n`. -/
def eK (k : CBit) (n : Nat) : BitVec 12 := b12 (1024 * k.val + n)

/-- The word of a well-formed thread instruction (R101 to R127); zero for every other step. -/
def encode : Instr → DWord
  | .iadd t sat p d a b => eRI 0x00 t.code p d a b (eMod .rn sat false) 0
  | .isub t sat p d a b => eRI 0x01 t.code p d a b (eMod .rn sat false) 0
  | .imul t sat p d a b => eRI 0x02 t.code p d a b (eMod .rn sat false) 0
  | .imulh sg p d a b => mkR 0x03 (b4 (nb (!sg) 1)) (eReg d) (eSrc a) (eSrc b) 0 (ePred p) 0 0
  | .imad t sat p d a b c =>
    mkR 0x04 (b4 t.code) (eReg d) (eSrc a) (eSrc b) (eSrc c) (ePred p) (eMod .rn sat false) 0
  | .imin t p d a b => eRI 0x05 t.code p d a b 0 0
  | .imax t p d a b => eRI 0x06 t.code p d a b 0 0
  | .iabs w sat p d a => mkR 0x07 (b4 (bcode w)) (eReg d) (eSrc a) 0 0 (ePred p) (eMod .rn sat false) 0
  | .ineg w sat p d a => mkR 0x08 (b4 (bcode w)) (eReg d) (eSrc a) 0 0 (ePred p) (eMod .rn sat false) 0
  | .and w p d a b => eRI 0x10 (bcode w) p d a b 0 0
  | .or w p d a b => eRI 0x11 (bcode w) p d a b 0 0
  | .xor w p d a b => eRI 0x12 (bcode w) p d a b 0 0
  | .andn w p d a b => eRI 0x13 (bcode w) p d a b 0 0
  | .not w p d a => mkR 0x14 (b4 (bcode w)) (eReg d) (eSrc a) 0 0 (ePred p) 0 0
  | .shl w p d a b => eRI 0x15 (bcode w) p d a b 0 0
  | .shr w p d a b => eRI 0x16 (bcode w) p d a b 0 0
  | .sar w p d a b => eRI 0x17 (bcode w) p d a b 0 0
  | .rotl w p d a b => eRI 0x18 (bcode w) p d a b 0 0
  | .bfx t p d a b =>
    let var := match t with
      | .n32 => 0
      | .i32 => 1
      | .n64 => 2
      | .i64 => 3
    mkR 0x19 (b4 var) (eReg d) (eSrc a) (eSrc b) 0 (ePred p) 0 0
  | .bfi w p d a b c => mkR 0x1A (b4 (bcode w)) (eReg d) (eSrc a) (eSrc b) (eSrc c) (ePred p) 0 0
  | .popc w p d a => mkR 0x1B (b4 (bcode w)) (eReg d) (eSrc a) 0 0 (ePred p) 0 0
  | .clz w p d a => mkR 0x1C (b4 (bcode w)) (eReg d) (eSrc a) 0 0 (ePred p) 0 0
  | .ctz w p d a => mkR 0x1D (b4 (bcode w)) (eReg d) (eSrc a) 0 0 (ePred p) 0 0
  | .brev w p d a => mkR 0x1E (b4 (bcode w)) (eReg d) (eSrc a) 0 0 (ePred p) 0 0
  | .permb p d a b c => mkR 0x1F 0 (eReg d) (eSrc a) (eSrc b) (eSrc c) (ePred p) 0 0
  | .icmp t rel p c a b =>
    match b with
    | .src x => mkR 0x20 (b4 t.code) (eBit c) (eSrc a) (eSrc x) 0 (ePred p) 0 (b12 rel.code)
    | .imm x => mkI 0x20 (b4 (8 + t.code)) (eBit c) (eSrc a) (b4 rel.code) x
  | .sel w q p d a b => mkR 0x21 (b4 (bcode w)) (eReg d) (eSrc a) (eSrc b) 0 (ePred p) 0 (b12 q.val)
  | .mov w p d a => mkR 0x22 (b4 w.code) (eReg d) (eSrc a) 0 0 (ePred p) 0 0
  | .movi w d x => mkI 0x23 (b4 (8 + bcode w)) (eReg d) 0 0 x
  | .movw d a x => mkI 0x24 8 (eReg d) (eSrc a) 0 x
  | .clog l p c a b => mkR 0x28 0 (eBit c) 0 0 0 (ePred p) 0 (b12 (a.val + 4 * b.val + 16 * l.val))
  | .ctov hi q p d => mkR 0x29 0 (eReg d) 0 0 0 (ePred p) 0 (b12 (q.val + nb hi 4))
  | .vtoc hi p c a => mkR 0x2A 0 (eBit c) (eSrc a) 0 0 (ePred p) 0 (b12 (nb hi 4))
  | .t3pk p d a => mkR 0x78 0 (eReg d) (eSrc a) 0 0 (ePred p) 0 0
  | .t3un q p d a => mkR 0x79 0 (eReg d) (eSrc a) 0 0 (ePred p) 0 (b12 q.val)
  | .wshfl m p d a b c => mkR 0x30 (b4 m.code) (eReg d) (eSrc a) (eSrc b) (eSrc c) (ePred p) 0 0
  | .wbcast w p d a b c => mkR 0x31 (b4 (bcode w)) (eReg d) (eSrc a) (eSrc b) (eSrc c) (ePred p) 0 0
  | .wred op t rm p d a m =>
    mkR 0x32 (b4 t.code) (eReg d) (eSrc a) 0 (eSrc m) (ePred p) (eMod rm false false) (b12 op.code)
  | .wscan op t rm ex p d a m =>
    mkR 0x33 (b4 t.code) (eReg d) (eSrc a) 0 (eSrc m) (ePred p) (eMod rm false ex) (b12 op.code)
  | .wvote v q p m =>
    match v with
    | .all c => mkR 0x34 0 (eBit c) 0 0 (eSrc m) (ePred p) 0 (b12 q.val)
    | .any c => mkR 0x34 0 (eBit c) 0 0 (eSrc m) (ePred p) 0 (b12 (q.val + 4))
    | .uni c => mkR 0x34 0 (eBit c) 0 0 (eSrc m) (ePred p) 0 (b12 (q.val + 8))
    | .ballot d => mkR 0x34 0 (eReg d) 0 0 (eSrc m) (ePred p) 0 (b12 (q.val + 12))
  | .wmatch w p d a m => mkR 0x35 (b4 (bcode w)) (eReg d) (eSrc a) 0 (eSrc m) (ePred p) 0 0
  | .fadd t rm sat ma mb p d a b => eRI 0x40 t.code p d a b (eMod rm sat false) (eFm ma mb .none)
  | .fsub t rm sat ma mb p d a b => eRI 0x41 t.code p d a b (eMod rm sat false) (eFm ma mb .none)
  | .fmul t rm sat ma mb p d a b => eRI 0x42 t.code p d a b (eMod rm sat false) (eFm ma mb .none)
  | .ffma t rm sat ma mb mc p d a b c =>
    mkR 0x43 (b4 t.code) (eReg d) (eSrc a) (eSrc b) (eSrc c) (ePred p) (eMod rm sat false) (eFm ma mb mc)
  | .fmin t ma mb p d a b => eRI 0x44 t.code p d a b 0 (eFm ma mb .none)
  | .fmax t ma mb p d a b => eRI 0x45 t.code p d a b 0 (eFm ma mb .none)
  | .fminn t ma mb p d a b => eRI 0x46 t.code p d a b 0 (eFm ma mb .none)
  | .fmaxn t ma mb p d a b => eRI 0x47 t.code p d a b 0 (eFm ma mb .none)
  | .fcmp t rel ma mb p c a b =>
    mkR 0x48 (b4 t.code) (eBit c) (eSrc a) (eSrc b) 0 (ePred p) 0 (b12 (ma.code + 4 * mb.code + 64 * rel.code))
  | .fclass t ma p d a => mkR 0x49 (b4 t.code) (eReg d) (eSrc a) 0 0 (ePred p) 0 (eFm ma .none .none)
  | .frnd t rm ma p d a =>
    mkR 0x4A (b4 t.code) (eReg d) (eSrc a) 0 0 (ePred p) (eMod rm false false) (eFm ma .none .none)
  | .frcp rm ma p d a => mkR 0x50 0 (eReg d) (eSrc a) 0 0 (ePred p) (eMod rm false false) (eFm ma .none .none)
  | .frsq rm ma p d a => mkR 0x51 0 (eReg d) (eSrc a) 0 0 (ePred p) (eMod rm false false) (eFm ma .none .none)
  | .fsqrt rm ma p d a => mkR 0x52 0 (eReg d) (eSrc a) 0 0 (ePred p) (eMod rm false false) (eFm ma .none .none)
  | .fexp2 ma p d a => mkR 0x53 0 (eReg d) (eSrc a) 0 0 (ePred p) 0 (eFm ma .none .none)
  | .flog2 ma p d a => mkR 0x54 0 (eReg d) (eSrc a) 0 0 (ePred p) 0 (eFm ma .none .none)
  | .fsin ma p d a => mkR 0x55 0 (eReg d) (eSrc a) 0 0 (ePred p) 0 (eFm ma .none .none)
  | .fcos ma p d a => mkR 0x56 0 (eReg d) (eSrc a) 0 0 (ePred p) 0 (eFm ma .none .none)
  | .hadd2 rm sat ma mb p d a b =>
    mkR 0x60 0 (eReg d) (eSrc a) (eSrc b) 0 (ePred p) (eMod rm sat false) (eFm ma mb .none)
  | .hmul2 rm sat ma mb p d a b =>
    mkR 0x61 0 (eReg d) (eSrc a) (eSrc b) 0 (ePred p) (eMod rm sat false) (eFm ma mb .none)
  | .hfma2 rm sat ma mb mc p d a b c =>
    mkR 0x62 0 (eReg d) (eSrc a) (eSrc b) (eSrc c) (ePred p) (eMod rm sat false) (eFm ma mb mc)
  | .hmin2 ma mb p d a b => mkR 0x63 0 (eReg d) (eSrc a) (eSrc b) 0 (ePred p) 0 (eFm ma mb .none)
  | .hmax2 ma mb p d a b => mkR 0x64 0 (eReg d) (eSrc a) (eSrc b) 0 (ePred p) 0 (eFm ma mb .none)
  | .badd2 rm sat ma mb p d a b =>
    mkR 0x65 0 (eReg d) (eSrc a) (eSrc b) 0 (ePred p) (eMod rm sat false) (eFm ma mb .none)
  | .bfma2 rm sat ma mb mc p d a b c =>
    mkR 0x66 0 (eReg d) (eSrc a) (eSrc b) (eSrc c) (ePred p) (eMod rm sat false) (eFm ma mb mc)
  | .vdot8 rm ma mb mc p d a b c =>
    mkR 0x68 0 (eReg d) (eSrc a) (eSrc b) (eSrc c) (ePred p) (eMod rm false false) (eFm ma mb mc)
  | .cvt td ts rm sat p d a =>
    mkR 0x70 (b4 td.code) (eReg d) (eSrc a) 0 0 (ePred p) (eMod rm sat false) (b12 ts.code)
  | .pack2 bf rm sat ma mb p d a b =>
    mkR 0x71 (b4 (nb bf 1)) (eReg d) (eSrc a) (eSrc b) 0 (ePred p) (eMod rm sat false) (eFm ma mb .none)
  | .okey h nh p d a b =>
    mkR 0x72 (b4 (nb h 1)) (eReg d) (eSrc a) (eSrc b) 0 (ePred p) (eMod .rn false nh) 0
  | .ld w p d r i j => mkR 0x00 (b4 w.code) (eReg d) (eRec r) (eSrc i) (eSrc j) (ePred p) 0 0
  | .st w p c r i j => mkR 0x01 (b4 w.code) (eSrc c) (eRec r) (eSrc i) (eSrc j) (ePred p) 0 0
  | .pref l p r i j => mkR 0x02 0 0 (eRec r) (eSrc i) (eSrc j) (ePred p) 0 (b12 l.code)
  | .lock k p d r i j => mkR 0x03 0 (eReg d) (eRec r) (eSrc i) (eSrc j) (ePred p) 0 (b12 k.val)
  | .unlock p r i j => mkR 0x04 0 0 (eRec r) (eSrc i) (eSrc j) (ePred p) 0 0
  | .dld p d a => mkR 0x08 0 (eRec d) (eSrc a) 0 0 (ePred p) 0 0
  | .dmk p d a b => mkR 0x09 0 (eRec d) (eSrc a) (eSrc b) 0 (ePred p) 0 0
  | .dget w p d r => mkR 0x0A 0 (eReg d) (eRec r) 0 0 (ePred p) 0 (b12 w.val)
  | .dset w p d a => mkR 0x0B 0 (eRec d) (eSrc a) 0 0 (ePred p) 0 (b12 w.val)
  | .atom op t p d r i c => mkR 0x10 (b4 t.code) (eReg d) (eRec r) (eSrc i) (eSrc c) (ePred p) 0 (b12 op.code)
  | .atomn op t p r i c => mkR 0x11 (b4 t.code) 0 (eRec r) (eSrc i) (eSrc c) (ePred p) 0 (b12 op.code)
  | .satom op t p d r i c => mkR 0x12 (b4 t.code) (eReg d) (eRec r) (eSrc i) (eSrc c) (ePred p) 0 (b12 op.code)
  | .bra off => mkI 0x00 8 0 0 0 off
  | .brc c s off => mkI 0x01 8 0 0 (b4 (c.val + nb s 4)) off
  | .jmpi p a => mkR 0x02 0 0 (eSrc a) 0 0 (ePred p) 0 0
  | .call d off => mkI 0x03 8 (eReg d) 0 0 off
  | .calli p d a => mkR 0x04 0 (eReg d) (eSrc a) 0 0 (ePred p) 0 0
  | .ret p a => mkR 0x05 0 0 (eSrc a) 0 0 (ePred p) 0 0
  | .conv p m => mkR 0x06 0 0 0 0 (eSrc m) (ePred p) 0 0
  | .exit p => mkR 0x07 0 0 0 0 0 (ePred p) 0 0
  | .nop p => mkR 0x08 0 0 0 0 0 (ePred p) 0 0
  | .yield p => mkR 0x09 0 0 0 0 0 (ePred p) 0 0
  | .sleep p a => mkR 0x0A 0 0 (eSrc a) 0 0 (ePred p) 0 0
  | .waitv p d r i c => mkR 0x0B 0 (eReg d) (eRec r) (eSrc i) (eSrc c) (ePred p) 0 0
  | .binit k sl p d r i j => mkR 0x00 0 (eReg d) (eRec r) (eSrc i) (eSrc j) (ePred p) 0 (eObj k sl false)
  | .barrive k sl p d => mkR 0x01 0 (eReg d) 0 0 0 (ePred p) 0 (eObj k sl false)
  | .bwait k sl p d => mkR 0x02 0 (eReg d) 0 0 0 (ePred p) 0 (eObj k sl false)
  | .bsync k sl p d => mkR 0x03 0 (eReg d) 0 0 0 (ePred p) 0 (eObj k sl false)
  | .bdrop k sl p d => mkR 0x04 0 (eReg d) 0 0 0 (ePred p) 0 (eObj k sl false)
  | .bquery st k sl p d => mkR 0x05 0 (eReg d) 0 0 0 (ePred p) 0 (eObj k sl st)
  | .bexpect k sl p d a => mkR 0x06 0 (eReg d) (eSrc a) 0 0 (ePred p) 0 (eObj k sl false)
  | .rinit get k sl p d r i j => mkR 0x10 0 (eReg d) (eRec r) (eSrc i) (eSrc j) (ePred p) 0 (eObj k sl get)
  | .rputAcq k sl p d => mkR 0x11 0 (eReg d) 0 0 0 (ePred p) 0 (eObj k sl false)
  | .rputPub k sl p d a => mkR 0x11 0 (eReg d) (eSrc a) 0 0 (ePred p) 0 (eObj k sl true)
  | .rgetAcq k sl p d => mkR 0x12 0 (eReg d) 0 0 0 (ePred p) 0 (eObj k sl false)
  | .rgetRel k sl p d a => mkR 0x12 0 (eReg d) (eSrc a) 0 0 (ePred p) 0 (eObj k sl true)
  | .rclose k sl p d => mkR 0x13 0 (eReg d) 0 0 0 (ePred p) 0 (eObj k sl false)
  | .tkwait p k => mkR 0x20 0 (eBit k) 0 0 0 (ePred p) 0 0
  | .tkpass p => mkR 0x21 0 0 0 0 0 (ePred p) 0 0
  | .spawn p k a b c => mkR 0x30 0 (eBit k) (eSrc a) (eSrc b) (eSrc c) (ePred p) 0 0
  | .bflush p a =>
    match a with
    | none => mkR 0x31 0 0 0 0 0 (ePred p) 0 1
    | some x => mkR 0x31 0 0 (eSrc x) 0 0 (ePred p) 0 0
  | .evsig p a => mkR 0x38 0 0 (eSrc a) 0 0 (ePred p) 0 0
  | .evtest p d a =>
    match d with
    | .bit c => mkR 0x39 0 (eBit c) (eSrc a) 0 0 (ePred p) 0 0
    | .word r => mkR 0x39 0 (eReg r) (eSrc a) 0 0 (ePred p) 0 1
  | .krsv k p d a b => mkR 0x00 0 (eReg d) (eSrc a) (eSrc b) 0 (ePred p) 0 (eK k 0)
  | .krel k p d => mkR 0x01 0 (eReg d) 0 0 0 (ePred p) 0 (eK k 0)
  | .kload k p d a b => mkR 0x02 0 (eReg d) (eSrc a) (eSrc b) 0 (ePred p) 0 (eK k 0)
  | .kswap k p d a => mkR 0x03 0 (eReg d) (eSrc a) 0 0 (ePred p) 0 (eK k 0)
  | .kloop sp k p d a b => mkR 0x04 0 (eReg d) (eSrc a) (eSrc b) 0 (ePred p) (eMod .rn false sp) (eK k 0)
  | .kdrainReg sp cl k p d a =>
    mkR 0x05 (b4 (nb sp 2)) (eReg d) (eSrc a) 0 0 (ePred p) (eMod .rn false cl) (eK k 0)
  | .kdrainMem sp cl k p d a =>
    mkR 0x05 (b4 (1 + nb sp 2)) (eReg d) (eSrc a) 0 0 (ePred p) (eMod .rn false cl) (eK k 0)
  | .kzero sp k p d a b => mkR 0x06 0 (eReg d) (eSrc a) (eSrc b) 0 (ePred p) (eMod .rn false sp) (eK k 0)
  | .kfid k p d a => mkR 0x07 0 (eReg d) (eSrc a) 0 0 (ePred p) 0 (eK k 0)
  | .kstat sl kd k p d => mkR 0x08 0 (eReg d) 0 0 0 (ePred p) 0 (eK k (sl.code + 4 * kd.val))
  | .skick k p d r i j => mkR 0x00 0 (eReg d) (eRec r) (eSrc i) (eSrc j) (ePred p) 0 (eK k 0)
  | .squery k p d a => mkR 0x01 0 (eReg d) (eSrc a) 0 0 (ePred p) 0 (eK k 0)
  | .scancel k p d a => mkR 0x02 0 (eReg d) (eSrc a) 0 0 (ePred p) 0 (eK k 0)
  | .gseq k p d a b c => mkR 0x00 0 (eReg d) (eSrc a) (eSrc b) (eSrc c) (ePred p) 0 (eK k 0)
  | .gflat cu fi k p d a b c =>
    mkR 0x01 (b4 (nb cu 1)) (eReg d) (eSrc a) (eSrc b) (eSrc c) (ePred p) (eMod .rn false fi) (eK k 0)
  | .gdep k p d a b => mkR 0x02 0 (eReg d) (eSrc a) (eSrc b) 0 (ePred p) 0 (eK k 0)
  | .gclrPath k p d a b => mkR 0x03 0 (eReg d) (eSrc a) (eSrc b) 0 (ePred p) 0 (eK k 0)
  | .gclrDest t k p d a b c => mkR 0x03 0 (eReg d) (eSrc a) (eSrc b) (eSrc c) (ePred p) 0 (eK k (128 + t.val))
  | .gclrPathFree k p d b => mkR 0x03 0 (eReg d) 0 (eSrc b) 0 (ePred p) 0 (eK k 64)
  | .gclrDestFree t k p d => mkR 0x03 0 (eReg d) 0 0 0 (ePred p) 0 (eK k (192 + t.val))
  | .gscan t k p d b => mkR 0x04 0 (eReg d) 0 (eSrc b) 0 (ePred p) 0 (eK k t.val)
  | .gclipPop t k p d => mkR 0x05 0 (eReg d) 0 0 0 (ePred p) 0 (eK k t.val)
  | .gclipReset t k p d => mkR 0x05 0 (eReg d) 0 0 0 (ePred p) 0 (eK k (16 + t.val))
  | .gcov path k p d a =>
    match path with
    | none => mkR 0x06 0 (eReg d) (eSrc a) 0 0 (ePred p) 0 (eK k 0)
    | some b => mkR 0x06 0 (eReg d) (eSrc a) (eSrc b) 0 (ePred p) 0 (eK k 16)
  | .gblend k p d a b => mkR 0x07 0 (eReg d) (eSrc a) (eSrc b) 0 (ePred p) 0 (eK k 0)
  | .gemit e t k p d =>
    match e with
    | .mem h r i j => mkR 0x08 0 (eReg d) (eRec r) (eSrc i) (eSrc j) (ePred p) 0 (eK k (t.val + nb h 16))
    | .enc a => mkR 0x08 1 (eReg d) (eSrc a) 0 0 (ePred p) 0 (eK k t.val)
  | .movs n p d => mkR 0x00 0 (eReg d) 0 0 0 (ePred p) 0 (b12 n.code)
  | .sets n p a => mkR 0x01 0 0 (eSrc a) 0 0 (ePred p) 0 (b12 n.code)
  | .trap p code a => mkR 0x02 0 0 (eSrc a) 0 0 (ePred p) 0 (code.setWidth 12)
  | .rte p => mkR 0x03 0 0 0 0 0 (ePred p) 0 0
  | .dbrk p code => mkR 0x04 0 0 0 0 0 (ePred p) 0 (code.setWidth 12)
  | .pmc n cl p d => mkR 0x05 0 (eReg d) 0 0 0 (ePred p) 0 (b12 (n.val + nb cl 16))
  | .cred k p d a b => mkR 0x08 0 (eReg d) (eSrc a) (eSrc b) 0 (ePred p) 0 (eK k 0)
  | .cbcast k p d a b => mkR 0x09 0 (eReg d) (eSrc a) (eSrc b) 0 (ePred p) 0 (eK k 0)
  | _ => 0

/-- The word of one of Saggar's four instructions (R74); zero for every other step. -/
def encodeSaggar : Instr → Word
  | .rfetch rd r1 r2 => xWord 0 rd r1 r2
  | .bfext rd r1 r2 => xWord 1 rd r1 r2
  | .swait rd r1 r2 => xWord 2 rd r1 r2
  | .wdisp rd r1 r2 => xWord 3 rd r1 r2
  | _ => 0
where
  /-- The R-type layout with funct7 0 and the custom-0 opcode. -/
  xWord (f3 : Nat) (rd r1 r2 : XReg) : Word :=
    0#7 ++ BitVec.ofNat 5 r2.val ++ BitVec.ofNat 5 r1.val ++ BitVec.ofNat 3 f3 ++ BitVec.ofNat 5 rd.val ++ 0x0B#7

end Sys2Proof
end

