-- ==== Sys2Proof/Machine/State.lean ====
section
/-!
DEFINITION. The state of the machine: every piece of state the spec gives the device, as plain data, and the state
right after reset. INVENTORY.md lists each field with its rule and its reset value.
-/

namespace Sys2Proof.Machine

/-- A memory: bytes by address in canonical form, keys strictly rising and no listed byte zero; an unlisted byte reads
zero. DESIGN CHOICE (log entry 2): the spec gives main memory no contents at reset. -/
abbrev Memory := NMap Byte

/-- A byte's place: in memory at a physical address (R189), or in a workgroup's scratchpad at an offset (R186). -/
inductive Loc
  | glob (pa : Nat)
  | scr (wg off : Nat)
deriving DecidableEq, Repr, Inhabited

/-- Whether a thread runs, and if not, why (R94, R354, R355, R362, R373, R374). -/
inductive Run
  | run
  | fault (code : Nat)
  | page
  | stopped
  | rte
  | exited
  | killed
deriving DecidableEq, Repr, Inhabited

/-- What a thread in WAITV watches (R161): the sectors of the word that it has loaded, with the number of their writes, and
the clock of its quarter, both at the load; no clock once it has resumed on a core. Of a load that is cut: the sectors still
to go, and the bytes read so far (R200). -/
structure Watch where
  locs : List Loc := []
  writes : Nat := 0
  clk : Option Nat := none
  rest : List (Loc × Nat) := []
  got : List Byte := []
deriving DecidableEq, Repr, Inhabited

/-- The wait a thread is in at its instruction (R94, R239). -/
inductive Wait
  | none
  /-- It has its result; its group waits for another member (R239). -/
  | hold
  /-- It attempts the instruction again when its group issues (R85, R393, R413). -/
  | again
  /-- The same, held by Glaze or the Kiln (R259, R328, R331). -/
  | engine
  /-- Events of other agents come before its turn in its instruction (R195, R200). -/
  | cut
  /-- Its access has these sectors still to go: of a store, with the bytes to write; of a load, with the bytes read so far
  (R200). -/
  | rest (store : Bool) (ls : List (Loc × Nat)) (bytes : List Byte)
  /-- CRED or CBCAST reads the source of chunk `id` (R200, R413). -/
  | chunk (id : Nat)
  /-- WAITV's first load is cut (R161, R200). -/
  | look (watch : Watch)
  /-- SKICK has read its card and waits for room (R303). -/
  | kick (card : List Byte)
  /-- Its page fault answered, it retries the instruction for itself alone (R192). -/
  | retry
  /-- SLEEP until TICKS reaches the value (R160). -/
  | sleep (til : Nat)
  /-- WAITV on element (i, 0) of the record, compared with `cmp` (R161). -/
  | waitv (d : Reg) (r : BitVec 256) (i cmp : Word) (watch : Watch)
  /-- BWAIT, or BSYNC after its arrival (R241). -/
  | bar (sl : Slot) (d : Reg) (k : CBit)
  /-- RPUT.acq or RGET.acq (R248). -/
  | ring (put : Bool) (sl : Slot) (d : Reg) (k : CBit)
  /-- TKWAIT (R251). -/
  | token (k : CBit)
  /-- The reply of an atomic in flight (R225). -/
  | atom (req : Nat)
  /-- An arrival in a gathering (R143). -/
  | gather (g : Nat)
deriving DecidableEq, Repr, Inhabited

/-- What a thread holds on a ring: its roles, the slots it reserved and has not published, and took and has not
released, by free-running index (R245 to R249). -/
structure RingHold where
  put : Bool := false
  get : Bool := false
  reserved : List Nat := []
  taken : List Nat := []
deriving DecidableEq, Repr, Inhabited

/-- An instruction as it issued, kept by a thread that has left its group within it: its clause's header, its word, its
GROUPMASK, the wave's s and d registers, and its place in the order of issue (R95, R108, R111, R356, R358). -/
structure Issued where
  hdr : Header := ⟨0, 0, 0, 0, 0, 0, false, 0⟩
  iw : Option DWord := none
  mask : DWord := 0
  s0 : NMap Word := []
  d0 : NMap (BitVec 256) := []
  ord : Nat := 0
deriving DecidableEq, Repr, Inhabited

/-- A thread (R94, R107, R109). -/
structure Thread where
  workid : DWord := 0
  depth : Nat := 0
  launch : Nat := 0
  /-- The number of the entry for which GSCAN created it; none for a thread it did not create (R271, R276). -/
  paint : Option Nat := none
  v : NMap Word := []
  c : BitVec 4 := 0
  pc : DWord := 0
  tpc : DWord := 0
  taddr : DWord := 0
  breg : Word := 0
  /-- Phase of the latest arrival, by barrier slot; none listed where there is none (R233). -/
  arr : NMap Word := []
  rings : NMap RingHold := []
  run : Run := .run
  wait : Wait := .none
  /-- It leads the instruction it waits in (R108). -/
  lead : Bool := false
  /-- The resume mark, whether the thread leads the instruction of that wait, and that instruction (R108, R358). -/
  mark : Wait := .none
  markLead : Bool := false
  markInst : Option Issued := none
  /-- TICKS at which the instruction it waits in was issued (R360). -/
  issued : Nat := 0
  pgVa : Nat := 0
  pgKind : Nat := 0
  pgLevel : Nat := 0
  /-- The instruction it stands in, where it has left its group within one: it goes on with it, retries it, or passes it
  (R93, R192, R358, R366). -/
  inst : Option Issued := none
  /-- GROUPMASK of the issue group at the access that parked it (R356); the atomic request of that instruction (R224); and
  its place in the order of parks (R408). -/
  pgMask : DWord := 0
  pgReq : Option Nat := none
  pgOrd : Nat := 0
  /-- Program timestamp and number of events (R194, R197). -/
  pts : DWord := 0
  evSeq : Nat := 0
  runOn : Nat := 0
  /-- The place in the order of kicks below which the commands before its register KDRAIN stand (R202, R334). -/
  kseq : Nat := 0
  nAtom : Nat := 0
  nTicks : Nat := 0
deriving DecidableEq, Repr, Inhabited

/-- An issue group in a clause (R94, R95): its members in ascending WORKID. -/
structure Group where
  clause : DWord := 0
  hdr : Header := ⟨0, 0, 0, 0, 0, 0, false, 0⟩
  index : Nat := 0
  lanes : List Nat := []
  /-- The instruction at `index` has issued and is held (R239). -/
  began : Bool := false
  /-- The lowest-WORKID member whose predicate held at that issue (R108); that word, and the
  wave's s and d registers then (R111). -/
  lead : Option Nat := none
  iw : Option DWord := none
  s0 : NMap Word := []
  d0 : NMap (BitVec 256) := []
  /-- GROUPMASK at that issue, and its place in the order of issue (R356). -/
  mask : DWord := 0
  ord : Nat := 0
  /-- The member that performed the instruction's latest event (R195), and the slice of the members in a row
  whose arrival the log has answered for (R392). -/
  after : Option Nat := none
  asked : List Nat := []
deriving DecidableEq, Repr, Inhabited

/-- An arrival in a gathering: a value's operands a (64 bits) and b, and the condition bits (R142). -/
structure Arrival where
  lane : Nat
  workid : DWord
  value : Option (DWord × Word × BitVec 4)
deriving DecidableEq, Repr, Inhabited

/-- A gathering (R143 to R145). -/
structure Gather where
  pc : DWord := 0
  instr : Instr := .unitPlacement
  mask : DWord := 0
  arr : List Arrival := []
deriving DecidableEq, Repr, Inhabited

/-- The wave's first handler fault (R355, R356), with the place of its instruction in the order of issue. -/
structure FirstFault where
  code : Nat
  lane : Nat
  mask : DWord
  user : Nat
  ord : Nat := 0
deriving DecidableEq, Repr, Inhabited

/-- A wave (R12, R107, R109). -/
structure Wave where
  wg : Nat := 0
  idx : Nat := 0
  ctx : Nat := 0
  launch : Nat := 0
  live : Bool := false
  resident : Bool := false
  core : Nat := 0
  /-- WAVESLOT (R75). -/
  slot : Nat := 0
  regs : Nat := 8
  s : NMap Word := []
  d : NMap (BitVec 256) := []
  fpflags : Word := 0
  hold : Nat := 0
  /-- TICKS at which its latest HOLD budget began (R90). -/
  holdBegan : Option Nat := none
  tformer : DWord := 0
  tfault : DWord := 0
  tcause : Word := 0
  fid : Nat := 0
  pmc : NMap DWord := []
  threads : NMap Thread := []
  groups : NMap Group := []
  nextGroup : Nat := 0
  gathers : NMap Gather := []
  nextGather : Nat := 0
  first : Option FirstFault := none
  /-- A handler fault while INHANDLER is 1: code and lane (R359). -/
  fatal : Option (Nat × Nat) := none
  runOn : Nat := 0
  /-- The instructions issued so far: the quarter's issue order (R356). -/
  issues : Nat := 0
  /-- Of each s register, the place in that order of the latest instruction that has written it (R111). -/
  wrote : NMap Nat := []
  /-- The run-on limit is reached (R355). -/
  limited : Bool := false
  /-- Deadline of the yield request or the safe-point request that stands (R371, R386). -/
  yieldReq : Option Nat := none
  /-- Without a deadline once the context has been demoted (R386). -/
  safeReq : Option (Option Nat) := none
  /-- Chosen for eviction, it stops issuing; true for a cooperative yield (R366, R371). -/
  leaving : Option Bool := none
  isBin : Bool := false
  jobs : List Nat := []
deriving DecidableEq, Repr, Inhabited

/-- The object a barrier or ring slot is bound to (R229): its sector, and its virtual address where it is global. -/
structure Bind where
  loc : Loc
  va : Nat
deriving DecidableEq, Repr, Inhabited

/-- The descriptor of a path-tile (R263). -/
structure PathDesc where
  seq : Word := 0
  evenOdd : Bool := false
  clip : Nat := 0
  pay0 : Word := 0
  pay1 : Word := 0
  pay2 : Word := 0
  entry : DWord := 0
deriving DecidableEq, Repr, Inhabited

/-- A bound path-tile (R258, R267); cells by 16y + x. -/
structure PathTile where
  origin : Word := 0
  cellA : NMap (BitVec 40) := []
  cellC : NMap (BitVec 24) := []
  desc : PathDesc := {}
deriving DecidableEq, Repr, Inhabited

/-- An entry of an ordered buffer (R271, R275, R276): none while pending, some none discarded, some colour filled. -/
structure BufEntry where
  k : Nat
  /-- The number that ties its paint thread to it (R276). -/
  uid : Nat := 0
  fill : Option (Option DWord) := none
deriving DecidableEq, Repr, Inhabited

/-- A bound destination tile (R258); its open sequences oldest first, entries by pixel index. -/
structure DestTile where
  origin : Word := 0
  block : Nat := 0
  id : Nat := 0
  gen : Nat := 0
  depth : Nat := 0
  last : Option Nat := none
  seqs : List (Nat × NMap BufEntry) := []
  /-- An instruction on the tile has sectors of its block still to read or to write (R200, R259). -/
  busy : Bool := false
deriving DecidableEq, Repr, Inhabited

/-- An appended Kiln command (R321). -/
structure KCmd where
  op : Nat
  clr : Bool
  split : Bool
  level : Nat
  seq : Nat
  a : List Word
  b : List Word
  /-- Its place in the order of kicks (R202). -/
  order : Nat := 0
deriving DecidableEq, Repr, Inhabited

/-- The Kiln reservation of a workgroup (R319 to R327). -/
structure Kiln where
  area : Nat := 0
  bytes : Nat := 0
  /-- The accumulator region (R320). -/
  acc : Memory := []
  /-- Bank b of macro n, 4,096 bytes at 4096 × (2n + b) (R307, R308). -/
  banks : Memory := []
  /-- Active-bank bits by group (R307). -/
  active : BitVec 6 := 0
  seq : Nat := 0
  cmds : List KCmd := []
  /-- The command area has sectors still to write, and the command whose slot they are (R200, R321). -/
  busy : Bool := false
  pend : Option KCmd := none
  /-- The running command has started. -/
  started : Bool := false
  /-- Step s and rank q of the running KLOOP, or the next sector of a running KLOAD or drain (R326, R332, R334). -/
  posS : Nat := 0
  posQ : Nat := 0
  /-- The step in progress: the ring slot it took, the sectors of its vector and scales that it has read, and their
  bytes (R326). -/
  slot : Option Nat := none
  rd : Nat := 0
  buf : List Byte := []
  /-- The ring the running KLOOP is registered on. -/
  ring : Option Bind := none
  status : Nat := 0
  poison : Bool := false
  /-- Its workgroup was killed within a step: its commands end at the next step boundary (R327). -/
  cancel : Bool := false
deriving DecidableEq, Repr, Inhabited

/-- A workgroup, or the one of a bin wave (R12, R75, R86). -/
structure Wg where
  launch : Nat := 0
  ctx : Nat := 0
  /-- WORKID shifted right by W0; of a bin wave, its bin's place in the order of launches (R78). -/
  idx : Nat := 0
  /-- Its place among the launch's workgroups in ascending WORKID, from 0. -/
  num : Nat := 0
  /-- Field 1 of WORKID (R81). -/
  f1 : Nat := 0
  /-- The neighbourhood, by its number in the launch plus one; 0 for none (R12). -/
  nbhd : Nat := 0
  live : Bool := false
  resident : Bool := false
  core : Nat := 0
  /-- Start of its range in the core's scratchpad (R76). -/
  base : Nat := 0
  /-- SCRATCH (R186). -/
  scratch : Nat := 0
  mem : Memory := []
  bslots : NMap Bind := []
  rslots : NMap Bind := []
  paths : NMap PathTile := []
  dests : NMap DestTile := []
  kiln : Option Kiln := none
  /-- STATUS and POISON of its last reservation, once that has ended (R325). -/
  kstatus : Nat := 0
  kpoison : Bool := false
  waves : List Nat := []
  isBin : Bool := false
  /-- Bytes of its frame in the save area while it is wholly evicted (R369). -/
  frame : Nat := 0
  /-- Its waves have ended; it stays until its engine work has (R373). -/
  ended : Bool := false
deriving DecidableEq, Repr, Inhabited

/-- A barrier or ring in a registered sector; its fields stand in the sector's bytes (R230, R232, R244). -/
structure Obj where
  loc : Loc
  ring : Bool
  ctx : Nat
  /-- The space through which it was registered: the ring's space, in which BASE is an offset (R230, R244). -/
  space : Nat := 1
  /-- Threads registered, by wave and lane. -/
  regs : List (Nat × Nat) := []
  /-- Engine work that names it: job numbers, or a workgroup's Kiln by 2^32 plus its number. -/
  eng : List Nat := []
  /-- Slots published and not yet counted in FILLED, released and not yet counted in FREE (R245). -/
  pubs : List Nat := []
  rels : List Nat := []
  pubNext : Nat := 0
  relNext : Nat := 0
deriving DecidableEq, Repr, Inhabited

/-- A Slip job (R291 to R305). -/
structure Job where
  id : Nat := 0
  ctx : Nat := 0
  wg : Nat := 0
  wave : Nat := 0
  card : Memory := []
  core : Nat := 0
  order : Nat := 0
  /-- R305: 1 QUEUED, 2 RUNNING, 3 RINGWAIT, 4 PAGEWAIT, 5 DONE, 6 ENDED; 0 UNKNOWN. -/
  state : Nat := 0
  status : Nat := 0
  /-- The next unit (i, j), bytes delivered, bytes of the count begun, bytes in all. -/
  i : Nat := 0
  j : Nat := 0
  done : Nat := 0
  part : Nat := 0
  total : Nat := 0
  stop : Nat := 0
  /-- The unit in progress: its index word once read, the source elements read whole (none where dropped), the sectors
  read and the bytes so far of the element under way, the destination sectors written; and its source index 0 (R298,
  R305). -/
  word : Option Nat := none
  got : List (Nat × Option (List Byte)) := []
  buf : List Byte := []
  rd : Nat := 0
  wr : Nat := 0
  src : Nat := 0
  /-- The unit that closes a count is performed; the count has still to close (R298). -/
  full : Bool := false
  /-- The ring slot reserved for the count in progress, and the roles it holds (R298). -/
  slot : Option Nat := none
  onRing : Bool := false
  /-- An end that has been decided and not performed (R299, R305). -/
  ending : Option Nat := none
  pgVa : Nat := 0
  pgKind : Nat := 0
  pgLevel : Nat := 0
  pgOrd : Nat := 0
deriving DecidableEq, Repr, Inhabited

/-- A pinned line: the line of a virtual address of a context, with the physical line it had (R205, R206, R216). -/
structure Pin where
  ctx : Nat
  line : Nat
  pa : Nat
  holders : List Nat
deriving DecidableEq, Repr, Inhabited

/-- What a quarter selects among: a group's next instruction, or a clause address (R112). -/
structure Cand where
  slot : Nat
  pc : DWord
  group : Option Nat
deriving DecidableEq, Repr, Inhabited

/-- A quarter of a core (R112). -/
structure Quarter where
  clk : Nat := 0
  last : Option Cand := none
  /-- The clock at which each candidate became eligible. -/
  elig : List (Cand × Nat) := []
  /-- Clocks since one of its waves last had a ready thread (R429). -/
  idle : Nat := 0
deriving DecidableEq, Repr, Inhabited

/-- A translation: the page's physical address with its rights, for one 64 KiB granule (R190, R193). -/
structure Tr where
  pa : Nat
  wr : Bool
  ex : Bool
deriving DecidableEq, Repr, Inhabited

/-- A home sector's write timestamp and read bound (R197), the agent of its last write (R195), and the number of its
writes (R161). -/
structure Stamps where
  wts : DWord := 0
  rts : DWord := 0
  ag : Nat := 0
  writes : Nat := 0
deriving DecidableEq, Repr, Inhabited

/-- An L1 copy of a sector: its bytes with their write timestamp and writer, and the end of its lease (R197). -/
structure Copy where
  bytes : List Byte
  wts : DWord
  ag : Nat
  lr : DWord
deriving DecidableEq, Repr, Inhabited

/-- An L1 line of 128 bytes: its generation tag, and the copies of its four sectors that it has (R187). -/
structure L1Line where
  tag : Nat := 0
  sectors : NMap Copy := []
deriving DecidableEq, Repr, Inhabited

/-- A core (R1, R77): its scratchpad split, L1, TLB, locked lines, kick register and quarters. -/
structure Core where
  /-- MiB of scratchpad (R77). -/
  split : Nat := 8
  /-- The 12-bit L1 generation register, and the lines by physical address over 128 (R187). -/
  l1gen : Nat := 0
  l1 : NMap L1Line := []
  pins : List Pin := []
  kick : DWord := 0
  kicks : Nat := 0
  quarters : NMap Quarter := []
  /-- The number of words of memory changed before its last L1 bump (R193). -/
  bumpAt : Nat := 0
  /-- The core's TLB, at most 128 translations by 2^41 × context + granule (R193). -/
  tlb : NMap Tr := []
deriving DecidableEq, Repr, Inhabited

/-- The launch header, decoded (R10). -/
structure LaunchHdr where
  det : Bool := false
  rec_ : Bool := false
  rep : Bool := false
  fid : Nat := 0
  cls : Nat := 0
  nbhd : Bool := false
  consumer : Bool := false
  entry : DWord := 0
  widths : List Nat := []
  extents : List Nat := []
  regs : Nat := 8
  waves : Nat := 1
  scratch : Nat := 0
  nrows : Nat := 0
  ncols : Nat := 0
  reserve : Nat := 0
  deadline : Nat := 0
  args : DWord := 0
  handles : List Word := []
  waitMask : BitVec 256 := 0
  setMask : BitVec 256 := 0
deriving DecidableEq, Repr, Inhabited

/-- Where a launch stands: issued, released in the vector's order, released to placement, complete (R66, R72). -/
inductive LState
  | waiting | due | released | complete
deriving DecidableEq, Repr, Inhabited

/-- A launch that has been issued (R10, R66). -/
structure Launch where
  ctx : Nat := 0
  /-- The queue and packet it came by; none from WDISP. -/
  via : Option (Nat × Nat) := none
  hdr : LaunchHdr := {}
  state : LState := .waiting
  dueAt : Nat := 0
  relSeq : Nat := 0
  /-- The greatest timestamp at its release (R199), and at the token's latest pass, with the agent that has it (R251). -/
  relTs : DWord := 0
  tokenTs : DWord := 0
  tokenAg : Nat := 0
  /-- Class and absolute deadline in force (R73, R386). -/
  cls : Nat := 0
  deadline : Option Nat := none
  /-- The least workgroup not placed, and those above it that are (R79, R82). -/
  nextWg : Nat := 0
  early : List Nat := []
  /-- The commit token's wave in logical order, 16 × workgroup + wave (R250), workgroups counted from 0. -/
  token : Option Nat := none
  /-- Waves ended, in logical order numbers. -/
  endedWaves : List Nat := []
  /-- Workgroups not yet ended, of those placed. -/
  liveWgs : Nat := 0
  /-- Log settings taken at the fetch of the packet (R391), and whether the log is truncated (R393). -/
  logBase : Nat := 0
  logLog : Nat := 0
  logWait : Nat := 0
  truncated : Bool := false
deriving DecidableEq, Repr, Inhabited

/-- A thread in a spawn bin (R84, R252, R271). -/
structure BinThread where
  workid : DWord
  pay : List Word
  depth : Nat
  launch : Nat
  paint : Option Nat
  pts : DWord
deriving DecidableEq, Repr, Inhabited

/-- A spawn bin, or a launched bin wave awaiting placement (R84 to R86). -/
structure Bin where
  cluster : Nat := 0
  ctx : Nat := 0
  entry : DWord := 0
  regs : Nat := 8
  scratch : Nat := 0
  timer : Nat := 0
  threads : List BinThread := []
  /-- TICKS and order of the first thread's entry; order of the launch once launched. -/
  since : Nat := 0
  order : Nat := 0
deriving DecidableEq, Repr, Inhabited

/-- A unit awaiting placement (R78): a new workgroup, or the neighbourhood that begins with it; a launched bin; an
evicted wave; a wholly evicted workgroup, or the neighbourhood it begins. -/
inductive PUnit
  | new (l n : Nat)
  | bin (order : Nat)
  | wave (w : Nat)
  | wg (g : Nat)
deriving DecidableEq, Repr, Inhabited

/-- Where one workgroup's waves go: wave slots in ascending wave number, scratchpad range, split (R75 to R77). -/
structure Seat where
  core : Nat
  slots : List Nat
  regs : List Nat
  base : Nat
  size : Nat
  split : Nat
deriving DecidableEq, Repr, Inhabited

/-- A plan being carried out: the room held for its unit, its victims and the workgroups it evicts whole that are still in
place, and all the room that those it has evicted freed (R79, R89); or the safe-point requests made for a unit, which hold no
room but such (R386). -/
structure Plan where
  unit : PUnit
  seats : List Seat := []
  victims : List Nat := []
  whole : List Nat := []
  freed : List Seat := []
  safe : Bool := false
deriving DecidableEq, Repr, Inhabited

/-- A packet issued and not yet complete with its NVAL write (R65 to R67). -/
structure Out where
  pkt : Nat
  kind : Nat
  notify : Bool
  naddr : Nat
  nval : DWord
  complete : Bool := false
  /-- The NVAL write waits on a page fault; LEVEL of the fault, and its place in the order of parks (R408). -/
  paged : Option Nat := none
  pgOrd : Nat := 0
deriving DecidableEq, Repr, Inhabited

/-- A queue's register block and its packets (R62, R64). -/
structure Queue where
  qbase : DWord := 0
  qlog : Nat := 0
  qen : Bool := false
  tail : Word := 0
  head : Word := 0
  halt : Nat := 0
  kinds : BitVec 8 := 0
  ranges : NMap DWord := []
  /-- The packet fetched and checked, not yet issued. -/
  pend : Option (List Byte) := none
  outs : List Out := []
  pktNo : Nat := 0
deriving DecidableEq, Repr, Inhabited

/-- A frame in assembly: its number and its filled positions with their samples (R419). -/
structure Frame where
  num : Nat
  tiles : NMap (List Nat) := []
  key : Bool := false
  /-- Bytes 0x10–0x27 of the block, as in force when it started to assemble (R418). -/
  rate : List Byte := []
deriving DecidableEq, Repr, Inhabited

/-- An encoder session (R417 to R422). -/
structure Session where
  opened : Bool := false
  block : Nat := 0
  codec : Nat := 0
  profile : Nat := 0
  level : Nat := 0
  width : Nat := 0
  height : Nat := 0
  d10 : Bool := false
  full : Bool := false
  lowDelay : Bool := false
  /-- Bytes 0x00–0x0F of its block at open, CROPB and FPS among them; bytes 0x10–0x27, in force for frames that start to
  assemble (R417, R418). -/
  head : List Byte := []
  rate : List Byte := []
  outBase : Nat := 0
  outLog : Nat := 0
  outWr : Nat := 0
  frames : Nat := 0
  dropped : Nat := 0
  stalled : Bool := false
  keyNext : Bool := false
  newRate : Option (List Byte) := none
  nextFrame : Nat := 0
  asm : List Frame := []
  coding : List Frame := []
  /-- A close in progress: the packets, by queue and number, that complete with it (R418). -/
  closing : Option (List (Nat × Nat)) := none
  /-- The frames coded, in decode order (R419); the bits in its buffer model, and those of its frames under capped VBR, times
  the numerator of FPS (R422). -/
  coded : List CodedFrame := []
  bucket : Nat := 0
  spent : Nat := 0
  /-- The record that the output ring has no room for (R420). -/
  held : Option (List Byte) := none
  /-- The next frame to start coding is a key frame (R421). -/
  keyCode : Bool := false
deriving DecidableEq, Repr, Inhabited

/-- The log block of a context (R391). -/
structure LogBlock where
  base : Nat := 0
  log : Nat := 0
  wait : Nat := 10000
  wr : Word := 0
  rd : Word := 0
  end_ : Word := 0
  active : Bool := false
  status : Nat := 0
  mismatch : List Byte := []
  /-- Records that wait for room, each 32 bytes, with the TICKS since which the first waits (R393). -/
  waiting : List (List Byte) := []
  since : Nat := 0
  /-- The launch that records or replays. -/
  launch : Nat := 0
  /-- In replay, the records consumed; the WORKIDs of the launch's threads that have exited; and of those that run, how many
  atomics and arrivals they have performed (R394). -/
  used : List Nat := []
  exited : List Nat := []
  performed : NMap Nat := []
  /-- A mismatch found, with its record (R394). -/
  bad : Option (List Byte) := none
deriving DecidableEq, Repr, Inhabited

/-- The page-fault block of a context (R408, R409). -/
structure PfBlock where
  base : DWord := 0
  log : Nat := 0
  wr : Word := 0
  rd : Word := 0
  note : DWord := 0
  ansva : DWord := 0
  /-- Granules with a record awaiting an answer; their number is FRPEND. -/
  pending : List Nat := []
deriving DecidableEq, Repr, Inhabited

/-- A context (R57, R58). -/
structure Ctx where
  cstate : Nat := 0
  owner : Option Nat := none
  desc : Memory := []
  invBase : DWord := 0
  invLen : DWord := 0
  /-- The range that the invalidation under way was commanded for (R406). -/
  cmdBase : DWord := 0
  cmdLen : DWord := 0
  procId : Nat := 0
  qcount : Nat := 0
  sealed_ : Bool := false
  compat : Bool := false
  cls : Nat := 0
  period : Nat := 0
  deadline : Nat := 0
  yield_ : Nat := 0
  ptroot : Nat := 0
  save : Nat := 0
  saveSize : Nat := 0
  sealMask : Word := 0
  lockq : Nat := 0
  created : Nat := 0
  events : BitVec 256 := 0
  /-- Record-table slots: record (zero when empty), generation, and whether installed (R20, R21). -/
  recs : NMap (BitVec 256 × Nat × Bool) := []
  queues : NMap Queue := []
  /-- Cone counters by 12 × core + 3 × kind + slice (R317). -/
  cones : NMap Nat := []
  logb : LogBlock := {}
  pf : PfBlock := {}
  /-- The reduction group table, 16 entries of 256 bytes (R410). -/
  groups : Memory := []
  chunkSeq : NMap Nat := []
  sessions : NMap Session := []
  /-- Generations of tile IDs (R258). -/
  tileGen : NMap Nat := []
  /-- A command in progress: 1 create, 2 destroy, 3 invalidate (R406). -/
  busy : Nat := 0
deriving DecidableEq, Repr, Inhabited

/-- One member's atomic: its lane, its thread's launch, WORKID and ordinal of the instruction, its address, virtual and
physical, its operand words, and the value it returned once it is performed (R223, R392). -/
structure AtomOp where
  lane : Nat
  launch : Nat := 0
  workid : DWord := 0
  ord : Nat := 0
  addr : Nat
  pa : Nat
  data : List Word
  old : Option DWord := none
deriving DecidableEq, Repr, Inhabited

/-- An atomic instruction on its way to its service wave, or its reply on its way back (R223 to R225). -/
structure AtomReq where
  wave : Nat := 0
  op : AOp := .add
  ty : ATy := .i32
  ret : Bool := false
  d : Reg := .v 0
  /-- Members in ascending WORKID. -/
  ops : List AtomOp := []
  /-- Its core's requests still need a reply write. -/
  live : Bool := false
deriving DecidableEq, Repr, Inhabited

/-- A reduction or broadcast chunk of this device (R413, R414). -/
structure Chunk where
  ctx : Nat := 0
  wg : Nat := 0
  core : Nat := 0
  group : Nat := 0
  seq : Nat := 0
  bcast : Bool := false
  row : Nat := 0
  n : Nat := 0
  pfmt : Nat := 0
  dfmt : Nat := 0
  die : Nat := 0
  src : List Byte := []
  dst : Nat := 0
  bar : Option Nat := none
  live : Bool := false
  /-- Its workgroup was killed: the other members see its row as failed (R414). -/
  gone : Bool := false
  /-- The sectors of its source still to read; once it is delivered, the bytes, and how many are written (R200, R413). -/
  todo : List (Loc × Nat) := []
  out : Option (List Byte) := none
  pos : Nat := 0
deriving DecidableEq, Repr, Inhabited

/-- A host access of a context's memory aperture of which sectors are still to go, with the bytes read so far (R200, R407). -/
structure Apert where
  node : Nat
  ctx : Nat
  off : DWord
  write : Bool
  data : List Byte
  rest : List (Loc × Nat)
  got : List Byte := []
deriving DecidableEq, Repr, Inhabited

/-- The device: all that runs work. -/
structure Device where
  /-- Time in TICKS; the counter of R109 shows its low 64 bits. -/
  ticks : Nat := 0
  mem : Memory := []
  /-- Memory of the host's fabric addresses (R62, R408). -/
  host : Memory := []
  /-- The home sectors' stamps (R197), by 2 × sector for memory, and 2 × (2^24 × workgroup + sector) + 1 for
  scratchpad. -/
  home : NMap Stamps := []
  /-- The clusters' TLBs, at most 8,192 translations each (R193). -/
  ctlb : NMap (NMap Tr) := []
  /-- Former contents of 8-byte words of memory, latest first, with their number and address; and how many there have
  been: what an instruction fetch may still see until the core's next L1 bump (R193). -/
  codeLog : List (Nat × Nat × DWord) := []
  codeSeq : Nat := 0
  ctxs : NMap Ctx := []
  cores : NMap Core := []
  launches : NMap Launch := []
  wgs : NMap Wg := []
  waves : NMap Wave := []
  bins : List Bin := []
  binUnits : List Bin := []
  plans : List Plan := []
  objs : List Obj := []
  jobs : NMap Job := []
  svc : NMap AtomReq := []
  chunks : NMap Chunk := []
  nextId : Nat := 1
  relSeq : Nat := 0
  binSeq : Nat := 0
  /-- Timestamp and number of the latest event of each agent that is no thread, by its number (R194); and the greatest
  timestamp assigned so far (R199). -/
  agents : NMap (DWord × Nat) := []
  topTs : DWord := 0
  /-- Timestamp and agent of the latest kick of a job, a command or a chunk, by context (R202). -/
  kicks : NMap (DWord × Nat) := []
  /-- Parks on PAGE so far (R408). -/
  parkSeq : Nat := 0
  /-- Data of the latest fabric read, or none after a fabric error (R403, R407). -/
  resp : Option (List Byte) := none
  /-- Accesses of the apertures under way (R407). -/
  aps : List Apert := []
  /-- The wave and group whose instruction is issuing. -/
  cur : Nat × Nat := (0, 0)
  /-- How many more events the issuing instruction performs before events of other agents come between (R195, R200):
  none where nothing comes between. -/
  cut : Option Nat := none
  /-- Index of the next free value (log entry 1). -/
  free : Nat := 0
deriving DecidableEq, Repr, Inhabited

/-- A Saggar core's SWAIT in progress: destination, mask, deadline (R74). -/
structure SWait where
  rd : Nat
  mask : DWord
  til : Option Nat
deriving DecidableEq, Repr, Inhabited

/-- A Saggar core (R74). Reset values PRESUMED from RV64 (log entry 5). -/
structure SCore where
  x : NMap DWord := []
  pc : DWord := 0x08000000
  machine : Bool := true
  mepc : DWord := 0
  mcause : DWord := 0
  mtval : DWord := 0
  mtvec : DWord := 0
  mscratch : DWord := 0
  mie : Bool := false
  mpie : Bool := false
  mpp : Bool := false
  mprv : Bool := false
  tw : Bool := false
  /-- The machine interrupt enables. -/
  mieBits : DWord := 0
  mcounteren : Word := 0
  fiom : Bool := false
  /-- Instructions retired. -/
  instret : DWord := 0
  /-- The bytes a load-reserved reserves: the first, and how many. -/
  resv : Option (Nat × Nat) := none
  sig : DWord := 0
  mem : Memory := []
  wait : Option SWait := none
deriving DecidableEq, Repr, Inhabited

/-- Saggar: whether its cores run, its cores, and the one whose instruction executes (R74). -/
structure Saggar where
  on : Bool := false
  cores : NMap SCore := []
  cur : Nat := 0
deriving DecidableEq, Repr, Inhabited

/-- One cluster's word of the power block, and its droop (R424, R426). -/
structure ClusterPower where
  cal : Bool := false
  ret : Bool := false
  bisque : Bool := false
  /-- Its bisque run ends at the next pattern boundary (R428). -/
  cut : Bool := false
  grants : Nat := 6
  ratio : Nat := 1
  droop : Bool := false
deriving DecidableEq, Repr, Inhabited

/-- The power block (R426). -/
structure Power where
  plimit : Nat := 2200
  pnow : Nat := 0
  nobisque : Word := 0
  clusters : NMap ClusterPower := []
deriving DecidableEq, Repr, Inhabited

/-- The management block, flash and firmware images (R432 to R438). -/
structure Mgmt where
  boot : Nat := 0
  booterr : Nat := 0
  nodeid : Nat := 0
  /-- NODEID has been written (R432). -/
  nodeSet : Bool := false
  fbbase : DWord := 0
  /-- The node whose write set FBBASE (R434). -/
  mnode : Option Nat := none
  fwver : Nat := 0
  fwfloor : Nat := 0
  /-- The SHA-256 digest of the image, its first byte in bits [7:0]. -/
  fwmeas : BitVec 256 := 0
  /-- An image is authoritative. -/
  auth : Bool := false
  hoimg : DWord := 0
  holen : Word := 0
  hostate : Nat := 0
  hoerr : Nat := 0
  inImg : List Byte := []
  outVer : Nat := 0
  outMeas : BitVec 256 := 0
  attbuf : DWord := 0
  attstate : Nat := 0
  /-- T of the latest report (R438). -/
  repAt : Option Nat := none
  nonce : Memory := []
  certlen : Nat := 0
  cert : Memory := []
  flash : List Byte := []
deriving DecidableEq, Repr, Inhabited

/-- The machine. -/
structure State where
  dev : Device := {}
  saggar : Saggar := {}
  power : Power := {}
  mgmt : Mgmt := {}
  /-- The actions that come next, first first. -/
  agenda : List Action := []
  /-- The number of free choices of an action made (log entry 1). -/
  turns : Nat := 0
deriving DecidableEq, Repr, Inhabited

/-- The machine right after power-on or module reset (R432): BOOT is 0, every context free, nothing resident, and the
management, power and queue registers at the resets of their field maps. -/
def State.reset : State := {}

/-- Why the machine stops. -/
inductive Fault
  /-- A Saggar core fetches outside its local memory, where the spec describes no memory of its map (R74): raised by
  `step`. Safe: the model stops where the hardware may go on. -/
  | saggarFetch (pc : DWord)
  /-- A Saggar core loads or stores outside its local memory, where the spec describes nothing (R74): raised by `step`.
  Safe: the model stops where the hardware may go on. -/
  | saggarAccess (addr : Nat)
deriving DecidableEq, Repr

/-- Why the model gives a step no meaning. -/
inductive Refusal
  /-- An instruction whose meaning the model does not have: answered by an arm of `exec` that names it. Safe. -/
  | notModelled (mnemonic : String)
deriving DecidableEq, Repr

end Sys2Proof.Machine
end

