-- ==== Sys2Proof/Machine/Operands.lean ====
section
/-!
DEFINITION. The operand forms (R105, R106, R164): registers, pairs, quads, inline constants, immediates, records; and
writing destinations.
-/

namespace Sys2Proof.Machine

/-- The 32-bit integer value of inline constant 208 + n (R106). -/
def constInt (n : Fin 32) : Word :=
  if n.val < 16 then BitVec.ofNat 32 n.val
  else match n.val with
    | 16 => 0xFFFFFFFF
    | 17 => 0x80000000
    | 18 => 0x7FFFFFFF
    | 19 => 32
    | 20 => 64
    | 21 => 128
    | 22 => 255
    | 23 => 256
    | 24 => 0x0000FFFF
    | 25 => 131072
    | 26 => 0x00FF00FF
    | 27 => 0x0F0F0F0F
    | 28 => 0x33333333
    | 29 => 0x55555555
    | 30 => 0x01010101
    | _ => 0xFFFF0000

/-- The FP32 bits of the floating-point value of inline constant 208 + n (R106). -/
def constF32 (n : Fin 32) : Word :=
  match n.val with
  | 0 => 0x00000000
  | 1 => 0x3F800000
  | 2 => 0x40000000
  | 3 => 0x40400000
  | 4 => 0x40800000
  | 5 => 0x40A00000
  | 6 => 0x40C00000
  | 7 => 0x40E00000
  | 8 => 0x41000000
  | 9 => 0x41100000
  | 10 => 0x41200000
  | 11 => 0x41300000
  | 12 => 0x41400000
  | 13 => 0x41500000
  | 14 => 0x41600000
  | 15 => 0x41700000
  | 16 => 0xBF800000
  | 17 => 0x80000000
  | 18 => 0x7F800000
  | 19 => 0x42000000
  | 20 => 0x3F000000
  | 21 => 0x3E800000
  | 22 => 0x40000000
  | 23 => 0x40800000
  | 24 => 0xBF000000
  | 25 => 0xC0000000
  | 26 => 0x7FC00000
  | 27 => 0x7F7FFFFF
  | 28 => 0x41000000
  | 29 => 0xC0800000
  | 30 => 0x3B000000
  | _ => 0xFF800000

/-- Register `i` after `r`, of thread `t` of wave `w`. -/
def rdReg (w : Wave) (t : Thread) (r : Reg) (i : Nat) : Word :=
  match r with
  | .v n => NMap.get 0 t.v (n.val + i)
  | .s n => NMap.get 0 w.s (n.val + i)

/-- A 32-bit integer or raw operand. -/
def rd32 (w : Wave) (t : Thread) : Src → Word
  | .v n => rdReg w t (.v n) 0
  | .s n => rdReg w t (.s n) 0
  | .k n => constInt n

/-- A 64-bit operand: the low half in the even register; code 224 extends by sign, every other by zero (R106). -/
def rd64 (w : Wave) (t : Thread) : Src → DWord
  | .v n => rdReg w t (.v n) 1 ++ rdReg w t (.v n) 0
  | .s n => rdReg w t (.s n) 1 ++ rdReg w t (.s n) 0
  | .k n => if n.val = 16 then (constInt n).signExtend 64 else (constInt n).setWidth 64

/-- Word `i` of a quad operand (R105, R106). -/
def rdQuad (w : Wave) (t : Thread) (x : Src) (i : Nat) : Word :=
  match x with
  | .v n => rdReg w t (.v n) i
  | .s n => rdReg w t (.s n) i
  | .k n => if i = 0 then constInt n else if n.val = 16 then 0xFFFFFFFF else 0

def rd128 (w : Wave) (t : Thread) (x : Src) : BitVec 128 :=
  rdQuad w t x 3 ++ rdQuad w t x 2 ++ rdQuad w t x 1 ++ rdQuad w t x 0

/-- The number an integer operand has in its type: signed for .i, unsigned for .n. -/
def rdInt (w : Wave) (t : Thread) (ty : ITy) (x : Src) : Int :=
  match ty with
  | .i32 => (rd32 w t x).toInt
  | .n32 => (rd32 w t x).toNat
  | .i64 => (rd64 w t x).toInt
  | .n64 => (rd64 w t x).toNat

/-- Operand b of type `ty`; IMM extends by sign for .i64 and by zero for .n64 (R121). -/
def rdOpbInt (w : Wave) (t : Thread) (ty : ITy) : Opb → Int
  | .src x => rdInt w t ty x
  | .imm x =>
    match ty with
    | .i32 | .i64 => x.toInt
    | .n32 | .n64 => x.toNat

/-- Raw operand b of 32 or 64 bits; IMM extends by zero (R131). -/
def rdOpbRaw (w64 : Bool) (w : Wave) (t : Thread) : Opb → DWord
  | .src x => if w64 then rd64 w t x else (rd32 w t x).setWidth 64
  | .imm x => x.setWidth 64

/-- A raw operand of 32 or 64 bits, the upper half zero for 32. -/
def rdRaw (w64 : Bool) (w : Wave) (t : Thread) (x : Src) : DWord :=
  if w64 then rd64 w t x else (rd32 w t x).setWidth 64

/-- A 32-bit operand b with an I form. -/
def rdOpb32 (w : Wave) (t : Thread) : Opb → Word
  | .src x => rd32 w t x
  | .imm x => x

/-- The record in a d register (R15). -/
def rdRec (w : Wave) (r : DReg) : BitVec 256 := NMap.get 0 w.d r.val

def cbit (t : Thread) (c : CBit) : Bool := t.c.getLsbD c.val

/-- Set condition bit `c`. -/
def setCbit (t : Thread) (c : CBit) (b : Bool) : Thread :=
  { t with c := if b then t.c ||| (1#4 <<< c.val) else t.c &&& ~~~(1#4 <<< c.val) }

/-- The two words of a 64-bit value, low first. -/
def words64 (x : DWord) : List Word := [x.setWidth 32, (x >>> 32).setWidth 32]

/-- The words a result of 32 or 64 bits fills. -/
def wordsRaw (w64 : Bool) (x : DWord) : List Word := if w64 then words64 x else [x.setWidth 32]

/-- Write consecutive registers of a register file. -/
def putWords (m : NMap Word) (n : Nat) : List Word → NMap Word
  | [] => m
  | x :: xs => putWords (NMap.set 0 m n x) (n + 1) xs

/-- Whether a member executes (R104). -/
def performs (p : Pred) (t : Thread) : Bool :=
  match p with
  | .always => true
  | .on sense b => cbit t b != sense

/-- What one member's execution writes: its destination words, condition bits, and flags raised. -/
structure LaneOut where
  ws : List Word := []
  ks : List (CBit × Bool) := []
  fl : BitVec 6 := 0
deriving DecidableEq, Repr

/-- One 32-bit result. -/
def out32 (x : Word) : LaneOut := { ws := [x] }
def out64 (x : DWord) : LaneOut := { ws := words64 x }
def outRaw (w64 : Bool) (x : DWord) : LaneOut := { ws := wordsRaw w64 x }
def outC (c : CBit) (b : Bool) : LaneOut := { ks := [(c, b)] }

/-- A status word with its condition bit: 1 for OK (R237). -/
def outSt (k : CBit) (code : Nat) : LaneOut :=
  { ws := [BitVec.ofNat 32 code], ks := [(k, code == 0)] }

end Sys2Proof.Machine
end

