-- ==== Sys2Proof/Machine/Flags.lean ====
section
/-!
DEFINITION. FPFLAGS (R37, R38): the six sticky flags and how an instruction raises them.
-/

namespace Sys2Proof.Machine

/-- The flags, at their bits of FPFLAGS (R37). -/
def fIV : BitVec 6 := 1
def fDZ : BitVec 6 := 2
def fOF : BitVec 6 := 4
def fUF : BitVec 6 := 8
def fNX : BitVec 6 := 16
def fSAT : BitVec 6 := 32

/-- An instruction ORs the flags its members raise into FPFLAGS (R38). -/
def raiseFlags (w : Wave) (fl : BitVec 6) : Wave := { w with fpflags := w.fpflags ||| fl.setWidth 32 }

/-- SETS of FPFLAGS: bits [5:0] are written, the written bits [31:6] are ignored (R37, R360). -/
def setFlags (w : Wave) (x : Word) : Wave := { w with fpflags := x &&& 0x3F }

end Sys2Proof.Machine
end

