-- ==== Sys2Proof/Machine/FloatCore.lean ====
section
/-!
DEFINITION. Floating-point numbers (R29 to R38): values, one rounding of an exact result with its flags, and the
operations of chapter 7 on bit patterns (R164 to R182).
-/

namespace Sys2Proof.Machine

/-! ### Formats (R29) -/

/-- The formats of R29. -/
inductive Fmt
  | f32 | f16 | bf16 | e4m3 | e5m2
deriving DecidableEq, Repr

/-- Fraction bits. -/
def Fmt.mb : Fmt → Nat
  | .f32 => 23
  | .f16 => 10
  | .bf16 => 7
  | .e4m3 => 3
  | .e5m2 => 2

/-- Exponent bits. -/
def Fmt.eb : Fmt → Nat
  | .f32 | .bf16 => 8
  | .f16 | .e5m2 => 5
  | .e4m3 => 4

def Fmt.bits (f : Fmt) : Nat := 1 + f.eb + f.mb
def Fmt.bias (f : Fmt) : Nat := 2 ^ (f.eb - 1) - 1
/-- The exponent of the least fraction bit of a subnormal. -/
def Fmt.qmin (f : Fmt) : Int := 1 - (f.bias : Int) - f.mb
/-- The sign bit. -/
def Fmt.sb (f : Fmt) : Nat := 2 ^ (f.eb + f.mb)

/-- The bits of the largest finite value. -/
def Fmt.largest : Fmt → Nat
  | .e4m3 => 0x7E
  | f => (2 ^ f.eb - 1) * 2 ^ f.mb - 1

def Fmt.infinity (f : Fmt) : Nat := (2 ^ f.eb - 1) * 2 ^ f.mb

/-- The canonical NaN. -/
def Fmt.nan : Fmt → Nat
  | .e4m3 => 0x7F
  | f => f.infinity + 2 ^ (f.mb - 1)

/-- The bits of 1.0. -/
def Fmt.one (f : Fmt) : Nat := f.bias * 2 ^ f.mb

def Fmt.sgnBit (f : Fmt) (neg : Bool) : Nat := if neg then f.sb else 0

/-- A value: NaN, an infinity, or (−1)^neg × m × 2^e. -/
inductive FVal
  | nan
  | inf (neg : Bool)
  | fin (neg : Bool) (m : Nat) (e : Int)
deriving DecidableEq, Repr

/-- The value of a bit pattern. E4M3 has no infinity (R32). -/
def Fmt.val (f : Fmt) (x : Nat) : FVal :=
  let neg := bitsOf x (f.eb + f.mb) 1 == 1
  let ex := bitsOf x f.mb f.eb
  let fr := bitsOf x 0 f.mb
  let top := ex == 2 ^ f.eb - 1
  if f = .e4m3 && top && fr == 7 then .nan
  else if f ≠ .e4m3 && top then (if fr = 0 then .inf neg else .nan)
  else if ex = 0 then .fin neg fr f.qmin
  else .fin neg (2 ^ f.mb + fr) (f.qmin + (ex - 1 : Nat))

def FVal.isNan : FVal → Bool
  | .nan => true
  | _ => false

def FVal.isInf : FVal → Bool
  | .inf _ => true
  | _ => false

def FVal.isZero : FVal → Bool
  | .fin _ m _ => m == 0
  | _ => false

def FVal.neg : FVal → Bool
  | .nan => false
  | .inf n => n
  | .fin n _ _ => n

def FVal.flip : FVal → FVal
  | .nan => .nan
  | .inf n => .inf (!n)
  | .fin n m e => .fin (!n) m e

/-! ### Rounding (R35, R36, R167, R180) -/

/-- m / 2^k rounded to an integer in a mode; `neg` is the sign of the whole. -/
def roundShift (rm : Rm) (neg : Bool) (m k : Nat) : Nat :=
  let q := m / 2 ^ k
  let r := m % 2 ^ k
  if r = 0 then q
  else match rm with
    | .rz => q
    | .ru => if neg then q else q + 1
    | .rd => if neg then q + 1 else q
    | .rn => if 2 * r < 2 ^ k then q else if 2 ^ k < 2 * r then q + 1 else q + q % 2

/-- m × 2^e in units of 2^q, rounded. -/
def roundAt (rm : Rm) (neg : Bool) (m : Nat) (e q : Int) : Nat :=
  if q ≤ e then m * 2 ^ (e - q).toNat else roundShift rm neg m (q - e).toNat

/-- What a result beyond the largest finite value becomes (R35, R36, R179, R180). -/
def overflow (f : Fmt) (rm : Rm) (sat neg : Bool) : Nat × BitVec 6 :=
  if sat then (f.sgnBit neg + f.largest, fOF ||| fNX ||| fSAT)
  else if f = .e4m3 then (f.nan, fOF ||| fNX ||| fIV)
  else
    let toInf := match rm with
      | .rn => true
      | .rz => false
      | .ru => !neg
      | .rd => neg
    (f.sgnBit neg + (if toInf then f.infinity else f.largest), fOF ||| fNX)

/-- Round (−1)^neg × m × 2^e once to format `f`, with its flags (R35, R167). A zero keeps its sign. `sat` is the
conversion's saturation (R179). -/
def roundTo (f : Fmt) (rm : Rm) (sat neg : Bool) (m : Nat) (e : Int) : Nat × BitVec 6 :=
  if m = 0 then (f.sgnBit neg, 0)
  else
    let q0 := e + m.log2 - f.mb
    let q := max q0 f.qmin
    let t := roundAt rm neg m e q
    let mag := (q - f.qmin).toNat * 2 ^ f.mb + t
    if f.largest < mag then overflow f rm sat neg
    else
      let exact := decide (q ≤ e) || m % 2 ^ (q - e).toNat == 0
      let tiny := decide (q0 < f.qmin) &&
        decide (q0 + 1 < f.qmin ∨ roundAt rm neg m e q0 < 2 ^ (f.mb + 1))
      (f.sgnBit neg + mag, if exact then 0 else if tiny then fNX ||| fUF else fNX)

/-- The bits of a value in a format, rounded. -/
def FVal.round (f : Fmt) (rm : Rm) : FVal → Nat × BitVec 6
  | .nan => (f.nan, 0)
  | .inf neg => (f.sgnBit neg + f.infinity, 0)
  | .fin neg m e => roundTo f rm false neg m e

/-! ### Sums and products -/

/-- The exact product of two finite values. -/
def finMul : FVal → FVal → FVal
  | .fin n m e, .fin n' m' e' => .fin (n != n') (m * m') (e + e')
  | _, _ => .nan

/-- The exact sum of finite values, and its zero rule: −0 when every term is −0; otherwise by mode (R35). -/
def finSum (rm : Rm) (xs : List FVal) : FVal :=
  let e0 := xs.foldl (fun r x => match x with
    | .fin _ _ e => min r e
    | _ => r) 0
  let s : Int := xs.foldl (fun r x => match x with
    | .fin n m e => r + (if n then -((m * 2 ^ (e - e0).toNat : Nat) : Int) else ((m * 2 ^ (e - e0).toNat : Nat) : Int))
    | _ => r) 0
  if s = 0 then .fin (xs.all (fun x => x.isZero && x.neg) || rm == .rd) 0 0
  else .fin (decide (s < 0)) s.natAbs e0

/-- x + y (R168). -/
def fAddV (f : Fmt) (rm : Rm) (x y : FVal) : Nat × BitVec 6 :=
  match x, y with
  | .nan, _ | _, .nan => (f.nan, 0)
  | .inf a, .inf b => if a = b then (f.sgnBit a + f.infinity, 0) else (f.nan, fIV)
  | .inf a, _ | _, .inf a => (f.sgnBit a + f.infinity, 0)
  | x, y => (finSum rm [x, y]).round f rm

/-- x × y (R168). -/
def fMulV (f : Fmt) (rm : Rm) (x y : FVal) : Nat × BitVec 6 :=
  match x, y with
  | .nan, _ | _, .nan => (f.nan, 0)
  | .fin n m e, .fin n' m' e' => (finMul (.fin n m e) (.fin n' m' e')).round f rm
  | x, y => if x.isZero || y.isZero then (f.nan, fIV) else (f.sgnBit (x.neg != y.neg) + f.infinity, 0)

/-- x × y + z, rounded once (R169). -/
def fFmaV (f : Fmt) (rm : Rm) (x y z : FVal) : Nat × BitVec 6 :=
  if x.isNan || y.isNan || z.isNan then (f.nan, 0)
  else if x.isInf || y.isInf then
    if x.isZero || y.isZero then (f.nan, fIV)
    else
      let n := x.neg != y.neg
      if z.isInf && z.neg != n then (f.nan, fIV) else (f.sgnBit n + f.infinity, 0)
  else if z.isInf then (f.sgnBit z.neg + f.infinity, 0)
  else (finSum rm [finMul x y, z]).round f rm

/-- c + Σ aᵢ × bᵢ over E4M3 pairs, rounded once (R55, R177). -/
def fDotV (rm : Rm) (c : FVal) (ps : List (FVal × FVal)) : Nat × BitVec 6 :=
  if c.isNan || ps.any fun p => p.1.isNan || p.2.isNan then (Fmt.nan .f32, 0)
  else if c.isInf then (Fmt.f32.sgnBit c.neg + Fmt.f32.infinity, 0)
  else (finSum rm (c :: ps.map fun p => finMul p.1 p.2)).round .f32 rm

/-! ### Order (R149, R170, R171) -/

/-- The place of a bit pattern in an order where −0 is below +0. -/
def Fmt.key (f : Fmt) (x : Nat) : Int :=
  let mag := x % f.sb
  if x / f.sb % 2 = 1 then -(mag : Int) - 1 else mag

/-- The lesser or the greater of two patterns; a NaN gives the canonical NaN, or under the N forms the other (R170). -/
def fMinMax (f : Fmt) (wantMax num : Bool) (x y : Nat) : Nat :=
  match (f.val x).isNan, (f.val y).isNan with
  | true, true => f.nan
  | true, false => if num then y else f.nan
  | false, true => if num then x else f.nan
  | false, false => if decide (f.key x < f.key y) == wantMax then y else x

/-- A floating-point relation (R171). -/
def FRel.holds (f : Fmt) (rel : FRel) (x y : Nat) : Bool :=
  let un := (f.val x).isNan || (f.val y).isNan
  let num (v : Nat) : Int := if v / f.sb % 2 = 1 then -((v % f.sb : Nat) : Int) else ((v % f.sb : Nat) : Int)
  match rel with
  | .eq => !un && decide (num x = num y)
  | .ne => un || decide (num x ≠ num y)
  | .lt => !un && decide (num x < num y)
  | .le => !un && decide (num x ≤ num y)
  | .gt => !un && decide (num y < num x)
  | .ge => !un && decide (num y ≤ num x)
  | .ord => !un
  | .uno => un

/-- The class bit of a pattern (R172). -/
def fClass (f : Fmt) (x : Nat) : Nat :=
  match f.val x with
  | .nan => 8
  | .inf n => if n then 0 else 7
  | .fin n m _ =>
    if m = 0 then (if n then 3 else 4)
    else if bitsOf x f.mb f.eb = 0 then (if n then 2 else 5)
    else if n then 1 else 6

/-! ### Modifiers, saturation (R165, R166) -/

def modBits (f : Fmt) (m : FMod) (x : Nat) : Nat :=
  let y := if m.abs then x % f.sb else x
  if m.neg then (if y / f.sb % 2 = 1 then y - f.sb else y + f.sb) else y

/-- Arithmetic .sat: clamp a result to [+0, 1.0] (R166). -/
def clampUnit (f : Fmt) (x : Nat) : Nat :=
  if (f.val x).isNan || x / f.sb % 2 = 1 then 0 else if f.one < x then f.one else x

def satIf (f : Fmt) (sat : Bool) (r : Nat × BitVec 6) : Nat × BitVec 6 :=
  (if sat then clampUnit f r.1 else r.1, r.2)

/-! ### Conversions (R36, R178 to R180) -/

/-- Float to float. -/
def cvtFF (src dst : Fmt) (rm : Rm) (sat : Bool) (x : Nat) : Nat × BitVec 6 :=
  match src.val x with
  | .nan => (dst.nan, 0)
  | .inf n =>
    if sat then (dst.sgnBit n + dst.largest, fSAT)
    else if dst = .e4m3 then (dst.nan, fIV)
    else (dst.sgnBit n + dst.infinity, 0)
  | .fin n m e => if src = dst then (x, 0) else roundTo dst rm sat n m e

/-- Integer to float. -/
def cvtIF (dst : Fmt) (rm : Rm) (sat : Bool) (x : Int) : Nat × BitVec 6 :=
  roundTo dst rm sat (decide (x < 0)) x.natAbs 0

/-- Float to an integer in [lo, hi]. -/
def cvtFI (src : Fmt) (rm : Rm) (lo hi : Int) (x : Nat) : Int × BitVec 6 :=
  match src.val x with
  | .nan => (0, fIV)
  | .inf n => (if n then lo else hi, fIV)
  | .fin n m e =>
    let t : Int := roundAt rm n m e 0
    let v := if n then -t else t
    if v < lo then (lo, fIV)
    else if hi < v then (hi, fIV)
    else (v, if decide (0 ≤ e) || m % 2 ^ (-e).toNat == 0 then 0 else fNX)

/-- A pattern of one format read as FP32 (exact). -/
def toF32 (src : Fmt) (x : Nat) : Nat := (cvtFF src .f32 .rn false x).1

/-- Round to an integral value of the same format (R173). -/
def fRnd (f : Fmt) (rm : Rm) (x : Nat) : Nat :=
  match f.val x with
  | .nan => f.nan
  | .inf _ => x
  | .fin n m e => if 0 ≤ e then x else (roundTo f .rn false n (roundAt rm n m e 0) 0).1

/-! ### Operands (R106, R164) -/

/-- The bits of an inline constant in a format. Code 235 is the format's largest finite value. -/
def constF (f : Fmt) (n : Fin 32) : Nat :=
  if n.val = 27 then f.largest else (cvtFF .f32 f .rn false (constF32 n).toNat).1

def FTy.fmt : FTy → Fmt
  | .f32 => .f32
  | .f16 => .f16
  | .bf16 => .bf16

/-- A scalar floating-point operand: the low bits of its register. -/
def rdF (f : Fmt) (w : Wave) (t : Thread) : Src → Nat
  | .v n => (rdReg w t (.v n) 0).toNat % 2 ^ f.bits
  | .s n => (rdReg w t (.s n) 0).toNat % 2 ^ f.bits
  | .k n => constF f n

/-- Operand b; an immediate holds FP32 bits (R121). -/
def rdOpbF (f : Fmt) (w : Wave) (t : Thread) : Opb → Nat
  | .src x => rdF f w t x
  | .imm x => x.toNat

/-- Part `i` of a packed operand; a constant fills every part. -/
def rdPart (f : Fmt) (w : Wave) (t : Thread) (x : Src) (i : Nat) : Nat :=
  match x with
  | .v n => bitsOf (rdReg w t (.v n) 0).toNat (f.bits * i) f.bits
  | .s n => bitsOf (rdReg w t (.s n) 0).toNat (f.bits * i) f.bits
  | .k n => constF f n

/-- A scalar result, zero above its width. -/
def outF (r : Nat × BitVec 6) : LaneOut := { ws := [BitVec.ofNat 32 r.1], fl := r.2 }

/-- Two 16-bit halves, each a result of its own (R176). -/
def outHalves (lo hi : Nat × BitVec 6) : LaneOut :=
  { ws := [BitVec.ofNat 32 (lo.1 + 2 ^ 16 * hi.1)], fl := lo.2 ||| hi.2 }

/-! ### Reciprocal and roots (R174) -/

/-- The integer square root, from bit `k` down. -/
def isqrtFrom (n : Nat) : Nat → Nat → Nat
  | 0, r => if (r + 1) * (r + 1) ≤ n then r + 1 else r
  | k + 1, r => isqrtFrom n k (if (r + 2 ^ (k + 1)) * (r + 2 ^ (k + 1)) ≤ n then r + 2 ^ (k + 1) else r)

/-- ⌊√n⌋. -/
def isqrt (n : Nat) : Nat := if n = 0 then 0 else isqrtFrom n (n.log2 / 2) 0

/-- Two more bits that say whether a truncated value was exact. -/
def sticky (q : Nat) (exact : Bool) : Nat := 4 * q + (if exact then 0 else 1)

def fRcp (rm : Rm) (x : Nat) : Nat × BitVec 6 :=
  match Fmt.f32.val x with
  | .nan => (Fmt.nan .f32, 0)
  | .inf n => (Fmt.f32.sgnBit n, 0)
  | .fin n m e =>
    if m = 0 then (Fmt.f32.sgnBit n + Fmt.f32.infinity, fDZ)
    else
      let k := m.log2 + 32
      roundTo .f32 rm false n (sticky (2 ^ k / m) (2 ^ k % m == 0)) (-e - k - 2)

/-- m × 2^e with an even exponent. -/
def evenExp (m : Nat) (e : Int) : Nat × Int := if e % 2 = 0 then (m, e) else (2 * m, e - 1)

def fRsq (rm : Rm) (x : Nat) : Nat × BitVec 6 :=
  match Fmt.f32.val x with
  | .nan => (Fmt.nan .f32, 0)
  | .inf n => if n then (Fmt.nan .f32, fIV) else (0, 0)
  | .fin n m e =>
    if m = 0 then (Fmt.f32.sgnBit n + Fmt.f32.infinity, fDZ)
    else if n then (Fmt.nan .f32, fIV)
    else
      let (m1, e1) := evenExp m e
      let k := m1.log2 / 2 + 40
      let s := isqrt (2 ^ (2 * k) / m1)
      roundTo .f32 rm false false (sticky s (s * s * m1 == 2 ^ (2 * k))) (-(e1 / 2) - k - 2)

def fSqrt (rm : Rm) (x : Nat) : Nat × BitVec 6 :=
  match Fmt.f32.val x with
  | .nan => (Fmt.nan .f32, 0)
  | .inf n => if n then (Fmt.nan .f32, fIV) else (x, 0)
  | .fin n m e =>
    if m = 0 then (x, 0)
    else if n then (Fmt.nan .f32, fIV)
    else
      let (m1, e1) := evenExp m e
      let s := isqrt (m1 * 2 ^ 80)
      roundTo .f32 rm false false (sticky s (s * s == m1 * 2 ^ 80)) (e1 / 2 - 40 - 2)

/-! ### Transcendental functions (R175)

Each result is rounded from an enclosure of the exact value: a fixed-point number in units of 2^−P whose error is below
2^16 units. Where both ends of the enclosure round alike, that is the rounding of the exact value. -/

/-- 2^P × atanh(1/d) or atan(1/d) by their series, `n` terms. -/
def arcSeries (alt : Bool) (d P : Nat) : Nat → Nat → Int → Int
  | 0, _, _ => 0
  | n + 1, j, pw =>
    let term := pw / (2 * j + 1 : Nat)
    (if alt && j % 2 = 1 then -term else term) + arcSeries alt d P n (j + 1) (pw / ((d * d : Nat) : Int))

/-- 2^P × ln 2 = 2 atanh(1/3). -/
def ln2Fix (P : Nat) : Int := 2 * arcSeries false 3 P (P / 3) 0 ((2 ^ P : Nat) / 3)

/-- 2^P × π = 16 atan(1/5) − 4 atan(1/239). -/
def piFix (P : Nat) : Int :=
  16 * arcSeries true 5 P (P / 4) 0 ((2 ^ P : Nat) / 5) - 4 * arcSeries true 239 P (P / 4) 0 ((2 ^ P : Nat) / 239)

/-- 2^P × exp(y / 2^P) by its series from term `i`, `n` terms. -/
def expSeries (P : Nat) (y : Int) : Nat → Nat → Int → Int
  | 0, _, _ => 0
  | n + 1, i, term => term + expSeries P y n (i + 1) (term * y / ((2 ^ P * (i + 1) : Nat) : Int))

/-- 2^P × sin(y / 2^P) by its series: term `i` of odd degree 2i + 1. -/
def sinSeries (P : Nat) (y2 : Int) : Nat → Nat → Int → Int
  | 0, _, _ => 0
  | n + 1, i, term =>
    term + sinSeries P y2 n (i + 1) (-(term * y2 / ((2 ^ P * ((2 * i + 2) * (2 * i + 3)) : Nat) : Int)))

/-- 2^P × Σ z^(2j+1) / (2j+1), with z in units of 2^−P. -/
def atanhSeries (P : Nat) (z2 : Int) : Nat → Nat → Int → Int
  | 0, _, _ => 0
  | n + 1, j, pw => pw / ((2 * j + 1 : Nat) : Int) + atanhSeries P z2 n (j + 1) (pw * z2 / ((2 ^ P : Nat) : Int))

/-- x × 2^P, truncated, for x = m × 2^e. -/
def fixOf (P m : Nat) (e : Int) : Nat := roundAt .rz false m (e + P) 0

/-- A computed value (−1)^neg × v × 2^e whose error is below 2^16 units of v. -/
structure Enclosure where
  neg : Bool
  v : Nat
  e : Int

/-- The rounding of an enclosed value where both ends agree on it and on its flags. -/
def Enclosure.round (x : Enclosure) : Option (Nat × BitVec 6) :=
  let a := roundTo .f32 .rn false x.neg (x.v - 65536) x.e
  let b := roundTo .f32 .rn false x.neg (x.v + 65536) x.e
  if a.1 = b.1 ∧ a.2 ||| fNX = b.2 ||| fNX ∧ 65536 < x.v then some (a.1, b.2 ||| fNX) else none

/-- round_rn of the exact value that `f` encloses at a precision of P bits (R175). An exact value that is no FP32 number is
no midpoint of two either, and lies further from one than the enclosure at 768 bits is wide (UNVERIFIED, log entry 19): the
value computed there stands for it otherwise. -/
def enclosed (f : Nat → Enclosure) : Nat × BitVec 6 :=
  let top := f 768
  ((f 256).round.or top.round).getD
    (let r := roundTo .f32 .rn false top.neg top.v top.e
     (r.1, r.2 ||| fNX))

/-- The fraction f in [0, 1) of a value times 2^P, and its floor. -/
def floorFrac (P : Nat) (neg : Bool) (m : Nat) (e : Int) : Int × Nat :=
  if 0 ≤ e then
    let v : Int := (m * 2 ^ e.toNat : Nat)
    (if neg then -v else v, 0)
  else
    let k := (-e).toNat
    let v : Int := if neg then -(m : Int) else m
    let fl := v / ((2 ^ k : Nat) : Int)
    (fl, fixOf P (v - fl * ((2 ^ k : Nat) : Int)).toNat e)

def isInteger (m : Nat) (e : Int) : Bool := decide (0 ≤ e) || m % 2 ^ (-e).toNat == 0

def fExp2 (x : Nat) : Nat × BitVec 6 :=
  match Fmt.f32.val x with
  | .nan => (Fmt.nan .f32, 0)
  | .inf n => if n then (0, 0) else (x, 0)
  | .fin n m e =>
    if m = 0 then (Fmt.one .f32, 0)
    else if !n && decide (7 ≤ e + m.log2) then (Fmt.f32.infinity, fOF ||| fNX)
    else if n && decide (Fmt.key .f32 x < Fmt.key .f32 0xC3160000) then (0, fUF ||| fNX)
    else if isInteger m e then roundTo .f32 .rn false false 1 (floorFrac 0 n m e).1
    else enclosed fun P =>
      let (k, fr) := floorFrac P n m e
      let y := (fr : Int) * ln2Fix P / ((2 ^ P : Nat) : Int)
      { neg := false, v := (expSeries P y (P / 2) 0 ((2 ^ P : Nat) : Int)).toNat, e := k - P }

def fLog2 (x : Nat) : Nat × BitVec 6 :=
  match Fmt.f32.val x with
  | .nan => (Fmt.nan .f32, 0)
  | .inf n => if n then (Fmt.nan .f32, fIV) else (x, 0)
  | .fin n m e =>
    if m = 0 then (Fmt.f32.sgnBit true + Fmt.f32.infinity, fDZ)
    else if n then (Fmt.nan .f32, fIV)
    else
      let L := m.log2
      let k := e + L
      if m = 2 ^ L then cvtIF .f32 .rn false k
      else enclosed fun P =>
        let z : Int := ((m - 2 ^ L) * 2 ^ P / (m + 2 ^ L) : Nat)
        let z2 := z * z / ((2 ^ P : Nat) : Int)
        let ln := 2 * atanhSeries P z2 (P / 3) 0 z
        let v := k * ((2 ^ P : Nat) : Int) + ln * ((2 ^ P : Nat) : Int) / ln2Fix P
        { neg := decide (v < 0), v := v.natAbs, e := -(P : Int) }

/-- round_rn(sin(π × (half-turns q + r))) for r = m × 2^e in (0, 1), `neg` the sign it is given. -/
def sinPart (neg : Bool) (m : Nat) (e : Int) : Nat × BitVec 6 :=
  enclosed fun P =>
    let r := fixOf P m e
    let r := if 2 ^ P < 2 * r then 2 ^ P - r else r
    let y := (r : Int) * piFix P / ((2 ^ P : Nat) : Int)
    let y2 := y * y / ((2 ^ P : Nat) : Int)
    { neg := neg, v := (sinSeries P y2 (P / 3) 0 y).toNat, e := -(P : Int) }

/-- sin(π × v) for v = m × 2^e of sign `neg`, not zero: the sign by the half-turn, exact values at multiples of one
half. -/
def sinPi (neg : Bool) (m : Nat) (e : Int) : Nat × BitVec 6 :=
  if isInteger m e then (Fmt.f32.sgnBit neg, 0)
  else
    let k := (-e).toNat
    let turns := m / 2 ^ k
    let r := m % 2 ^ k
    let n := neg != (turns % 2 == 1)
    if 2 * r = 2 ^ k then (Fmt.f32.sgnBit n + Fmt.one .f32, 0) else sinPart n r e

def fSin (x : Nat) : Nat × BitVec 6 :=
  match Fmt.f32.val x with
  | .nan => (Fmt.nan .f32, 0)
  | .inf _ => (Fmt.nan .f32, fIV)
  | .fin n m e => if m = 0 then (x, 0) else sinPi n m e

/-- cos(π × v) = sin(π × (|v| + 1/2)). -/
def fCos (x : Nat) : Nat × BitVec 6 :=
  match Fmt.f32.val x with
  | .nan => (Fmt.nan .f32, 0)
  | .inf _ => (Fmt.nan .f32, fIV)
  | .fin _ m e =>
    if m = 0 then (Fmt.one .f32, 0)
    else if 0 ≤ e then (Fmt.f32.sgnBit (e == 0 && m % 2 == 1) + Fmt.one .f32, 0)
    else
      let k := (-e).toNat
      let (z, fl) := sinPi false (m + 2 ^ (k - 1)) e
      (if z = Fmt.f32.sb then 0 else z, fl)

/-! ### Keys (R182) -/

/-- The high word of an ordering key for FP32 bits. -/
def okeyOf (nanhi : Bool) (x : Nat) : Nat :=
  if (Fmt.f32.val x).isNan then (if nanhi then 0xFFFFFFFF else 0)
  else if x < 2 ^ 31 then x + 2 ^ 31 else 2 ^ 32 - 1 - x

end Sys2Proof.Machine
end

