-- ==== Sys2Proof/Machine/Ops.lean ====
section
/-!
DEFINITION. The named operations over waves, threads and issue groups: PCs (R93), the end of an instruction and of a
clause (R93, R95, R153), results (R108), and taking an exception, handler entry and return (R354 to R363).
-/

namespace Sys2Proof.Machine

/-! ### Access -/

def wave (dev : Device) (w : Nat) : Wave := NMap.get {} dev.waves w
def thread (x : Wave) (l : Nat) : Thread := NMap.get { run := .exited } x.threads l
def group (x : Wave) (g : Nat) : Group := NMap.get {} x.groups g
def wg (dev : Device) (g : Nat) : Wg := NMap.get {} dev.wgs g
def ctx (dev : Device) (c : Nat) : Ctx := NMap.get {} dev.ctxs c
def core (dev : Device) (c : Nat) : Core := NMap.get {} dev.cores c
def launch (dev : Device) (l : Nat) : Launch := NMap.get {} dev.launches l

def setWave (dev : Device) (w : Nat) (x : Wave) : Device := { dev with waves := NMap.put dev.waves w x }
/-- Change a wave there is. -/
def modWave (dev : Device) (w : Nat) (f : Wave → Wave) : Device :=
  match NMap.find? dev.waves w with
  | some x => setWave dev w (f x)
  | none => dev
def setThread (x : Wave) (l : Nat) (t : Thread) : Wave := { x with threads := NMap.put x.threads l t }
/-- Change a thread there is. -/
def modThread (x : Wave) (l : Nat) (f : Thread → Thread) : Wave :=
  match NMap.find? x.threads l with
  | some t => setThread x l (f t)
  | none => x
def setGroup (x : Wave) (g : Nat) (y : Group) : Wave := { x with groups := NMap.put x.groups g y }
def dropGroup (x : Wave) (g : Nat) : Wave := { x with groups := NMap.erase x.groups g }
def setWg (dev : Device) (g : Nat) (x : Wg) : Device := { dev with wgs := NMap.put dev.wgs g x }
/-- Change a workgroup there is. -/
def modWg (dev : Device) (g : Nat) (f : Wg → Wg) : Device :=
  match NMap.find? dev.wgs g with
  | some x => setWg dev g (f x)
  | none => dev
def setCtx (dev : Device) (c : Nat) (x : Ctx) : Device := { dev with ctxs := NMap.put dev.ctxs c x }
def modCtx (dev : Device) (c : Nat) (f : Ctx → Ctx) : Device := setCtx dev c (f (ctx dev c))
def setCore (dev : Device) (c : Nat) (x : Core) : Device := { dev with cores := NMap.put dev.cores c x }
def modCore (dev : Device) (c : Nat) (f : Core → Core) : Device := setCore dev c (f (core dev c))
def setLaunch (dev : Device) (l : Nat) (x : Launch) : Device := { dev with launches := NMap.put dev.launches l x }
/-- Change a launch there is. -/
def modLaunch (dev : Device) (l : Nat) (f : Launch → Launch) : Device :=
  match NMap.find? dev.launches l with
  | some x => setLaunch dev l (f x)
  | none => dev

/-- The thread at lane `l` of wave `w`. -/
def threadAt (dev : Device) (w l : Nat) : Thread := thread (wave dev w) l
def modThreadAt (dev : Device) (w l : Nat) (f : Thread → Thread) : Device := modWave dev w fun x => modThread x l f

/-! ### The machine's geometry (R1, R2) -/

def coreX (c : Nat) : Nat := c % 16
def coreY (c : Nat) : Nat := c / 16
/-- The die that holds a core (R2). -/
def dieOf (c : Nat) : Nat := coreX c / 8 + 2 * (coreY c / 8)
/-- The cluster that holds a core (R2). -/
def clusterOf (c : Nat) : Nat := dieOf c * 8 + coreY c % 8
/-- The cores of a cluster, ascending. -/
def clusterCores (n : Nat) : List Nat :=
  let y := n % 8 + 8 * (n / 8 / 2)
  let x := 8 * (n / 8 % 2)
  (List.range 8).map fun i => 16 * y + x + i

/-- A core's cluster is in retention (R429). -/
def coreRetained (s : State) (co : Nat) : Bool := (NMap.get {} s.power.clusters (clusterOf co)).ret

/-- The wave stands on a cluster in retention: nothing of it moves (R429). -/
def retained (s : State) (w : Nat) : Bool := (wave s.dev w).resident && coreRetained s (wave s.dev w).core

/-- An event of a wave, which waits while its cluster is in retention. -/
def onWaveDev (s : State) (w : Nat) (f : Device → Device) : Host.Outcome State Fault Refusal :=
  if retained s w then .next s else .next { s with dev := f s.dev }

/-! ### PCs (R93) -/

/-- A clause address: bits [56:0] with bits [2:0] clear. -/
def clauseMask : DWord := 0x01FFFFFFFFFFFFF8
/-- The PC of a clause and an INDEX. -/
def mkPc (clause : DWord) (index : Nat) : DWord := (clause &&& 0x01FFFFFFFFFFFFFF) ||| (BitVec.ofNat 64 (index % 16) <<< 60)
def pcClause (pc : DWord) : DWord := pc &&& 0x01FFFFFFFFFFFFFF
def pcIndex (pc : DWord) : Nat := (pc >>> 60).toNat
/-- The address of instruction `i` of a clause (R93). DESIGN CHOICE (log entry 57): one that passes 2^57 wraps. -/
def wordAddr (clause : DWord) (i : Nat) : DWord := pcClause (clause + 8 + 8 * BitVec.ofNat 64 i)
/-- The clause after one of COUNT + 1 instructions (R93, R153). -/
def nextClause (g : Group) : DWord := wordAddr g.clause (g.hdr.count + 1)
/-- The PC of the instruction a group is at. -/
def groupPc (g : Group) : DWord := mkPc g.clause g.index
/-- GROUPMASK (R95). -/
def laneMask (ls : List Nat) : DWord := ls.foldl (fun m l => m ||| (1#64 <<< l)) 0

/-! ### The end of an instruction -/

/-- A thread that takes up its run at `pc`. -/
def goTo (t : Thread) (pc : DWord) : Thread := { t with pc := pc, wait := .none, lead := false, inst := none }

/-- Every member of group `g` leaves it, each for the PC that `tgt` names (R95, R153). -/
def leaveGroup (x : Wave) (g : Nat) (tgt : Nat → DWord) : Wave :=
  dropGroup ((group x g).lanes.foldl (fun y l => modThread y l fun t => goTo t (tgt l)) x) g

/-- The group has finished its instruction: it goes on to the next of the clause, or its members go on to the next
clause (R93, R95). -/
def advance (x : Wave) (g : Nat) : Wave :=
  let y := group x g
  if y.index < y.hdr.count then
    setGroup (y.lanes.foldl (fun z l => modThread z l fun t => { t with wait := .none, lead := false }) x) g
      { y with index := y.index + 1, began := false, lead := none, iw := none, s0 := [], d0 := [], mask := 0, ord := 0
               after := none, asked := [] }
  else leaveGroup x g fun _ => nextClause y

/-- Take a lane out of its group (R95). -/
def leaveLane (x : Wave) (g l : Nat) : Wave :=
  let y := group x g
  let r := y.lanes.filter (· != l)
  if r.isEmpty then dropGroup x g else setGroup x g { y with lanes := r }

/-- The group a lane is in. -/
def groupOf (x : Wave) (l : Nat) : Option Nat :=
  (x.groups.find? fun p => p.2.lanes.contains l).map Prod.fst

/-- The PC at which a thread stands: its group's instruction, or its own. -/
def pcOf (x : Wave) (l : Nat) : DWord :=
  match groupOf x l with
  | some g => groupPc (group x g)
  | none => (thread x l).pc

/-- Every member of the group has its result (R239). -/
def allHold (x : Wave) (ls : List Nat) : Bool := ls.all fun l => (thread x l).wait == .hold

/-- Where every member of group `g` has its result, the group goes on (R239); a group without members is no more. -/
def settleGroup (x : Wave) (g : Nat) : Wave :=
  match NMap.find? x.groups g with
  | none => x
  | some y => if y.lanes.isEmpty then dropGroup x g else if allHold x y.lanes then advance x g else x

/-! ### Results (R108, R111) -/

/-- The instruction a group is at, as a thread that leaves it within that instruction keeps it. -/
def Group.issued (y : Group) : Issued :=
  { hdr := y.hdr, iw := y.iw, mask := y.mask, s0 := y.s0, d0 := y.d0, ord := y.ord }

/-- The instruction a thread stands in: its group's, or the one it has left its group within. -/
def instOf (x : Wave) (l : Nat) : Option Issued :=
  match groupOf x l with
  | some g => some (group x g).issued
  | none => (thread x l).inst

/-- The place of a lane's instruction in the order of issue; a header's is the latest (R111, R356). -/
def issueOrd (x : Wave) (l : Nat) : Nat := ((instOf x l).map Issued.ord).getD x.issues

/-- `k` registers from `n` have been written by the instruction issued at place `ord`. -/
def noteWrites (m : NMap Nat) (n k ord : Nat) : NMap Nat :=
  (List.range k).foldl (fun m i => NMap.set 0 m (n + i) (max (NMap.get 0 m (n + i)) ord)) m

/-- Write one member's results: a v destination and condition bits are the thread's; an s destination is written for
the wave by its leading member only (R108). -/
def writeOut (x : Wave) (l : Nat) (lead : Bool) (d : Option Reg) (o : LaneOut) : Wave :=
  let x1 := match d with
    | some (.v n) => modThread x l fun t => { t with v := putWords t.v n.val o.ws }
    | some (.s n) => if lead then
        { x with s := putWords x.s n.val o.ws, wrote := noteWrites x.wrote n.val o.ws.length (issueOrd x l) }
      else x
    | none => x
  modThread x1 l fun t => o.ks.foldl (fun t k => setCbit t k.1 k.2) t

/-- An instruction issued at place `ord` turns wave `x` into `z`: what later ones have written of the s registers stands
(R111). -/
def keepLater (x z : Wave) (ord : Nat) : Wave :=
  let rs := (List.range 64).filter fun r => decide (ord < NMap.get 0 x.wrote r)
  { z with s := rs.foldl (fun m r => NMap.set 0 m r (NMap.get 0 x.s r)) z.s
           wrote := rs.foldl (fun m r => NMap.set 0 m r (NMap.get 0 x.wrote r)) z.wrote }

/-- Write the results of an instruction that ends after others of its wave may have issued (R108, R111). -/
def writeLate (x : Wave) (l : Nat) (d : Option Reg) (o : LaneOut) : Wave :=
  keepLater x (writeOut x l (thread x l).lead d o) (issueOrd x l)

/-- The members of a group that perform its instruction (R104). -/
def performers (x : Wave) (g : Group) (p : Pred) : List Nat := g.lanes.filter fun l => performs p (thread x l)

/-- The results of an instruction whose members only compute: each performing member's result is of the state before
the instruction, and the flags of all are raised (R38, R108, R111). -/
def compute (x : Wave) (g : Nat) (p : Pred) (d : Option Reg) (f : Wave → Thread → Nat → LaneOut) : Wave :=
  let act := performers x (group x g) p
  let outs := act.map fun l => (l, f x (thread x l) l)
  let y := outs.foldl (fun y o => writeOut y o.1 (act.head? == some o.1) d o.2) x
  raiseFlags y (outs.foldl (fun fl o => fl ||| o.2.fl) 0)

/-- An instruction whose members only compute, and the group's advance past it. -/
def alu (dev : Device) (p : Pred) (d : Option Reg) (f : Wave → Thread → Nat → LaneOut) : Device :=
  modWave dev dev.cur.1 fun x => advance (compute x dev.cur.2 p d f) dev.cur.2

/-- A change of wave state by the lowest-WORKID performing member (R108), and the group's advance. -/
def byLead (dev : Device) (p : Pred) (f : Wave → Thread → Nat → Wave) : Device :=
  modWave dev dev.cur.1 fun x =>
    advance (match performers x (group x dev.cur.2) p with
      | [] => x
      | l :: _ => f x (thread x l) l) dev.cur.2

/-- A control transfer: each performing member goes where `tgt` says, every other to the next clause (R153). -/
def transfer (x : Wave) (g : Nat) (p : Pred) (tgt : Wave → Thread → Nat → DWord) : Wave :=
  let y := group x g
  leaveGroup x g fun l => if performs p (thread x l) then tgt x (thread x l) l else nextClause y

/-! ### Taking an exception -/

def inHandler (x : Wave) : Bool := x.tcause.getLsbD 31

/-- GROUPMASK of the issue group at the issue of its instruction (R356). -/
def issueMask (y : Group) : DWord := if y.began then y.mask else laneMask y.lanes

/-- GROUPMASK at the issue of the instruction a thread stands in; of itself alone where there is none (R356). -/
def maskOf (x : Wave) (l : Nat) : DWord :=
  match groupOf x l with
  | some g => issueMask (group x g)
  | none => ((thread x l).inst.map Issued.mask).getD (laneMask [l])

/-- The first of two handler faults: in the order of issue, then in ascending WORKID; DEDUCED (log entry 45): the order in
which they are raised does not count (R356). -/
def firstOf (x : Wave) (a : Option FirstFault) (b : FirstFault) : FirstFault :=
  match a with
  | none => b
  | some f =>
    if b.ord < f.ord ∨ (b.ord = f.ord ∧ (thread x b.lane).workid.toNat < (thread x f.lane).workid.toNat) then b else f

/-- A thread raises a handler fault (R354): it leaves its group and parks with TPC at the instruction and TADDR the
address the entry names. The wave's first such fault is kept for handler entry, with `mask`, the GROUPMASK of the
issue group at that instruction, and the user code (R356); inside the handler a fault is fatal (R359). -/
def raiseFault (x : Wave) (l code : Nat) (addr : DWord) (user : Nat) (mask : DWord) : Wave :=
  let pc := pcOf x l
  let x1 := match groupOf x l with
    | some g => leaveLane x g l
    | none => x
  let x2 := modThread x1 l fun t =>
    { t with run := .fault code, pc := pc, tpc := pc, taddr := addr, wait := .none, lead := false, mark := .none
             inst := none }
  if inHandler x then { x2 with fatal := x2.fatal.or (some (code, l)) }
  else
    let f : FirstFault := { code := code, lane := l, mask := mask, user := user, ord := issueOrd x l }
    { x2 with first := some (firstOf x x.first f) }

/-- Members of one group raise a fault at one instruction, in ascending WORKID. -/
def raiseFaults (x : Wave) (ls : List Nat) (code : Nat) (addr : Nat → DWord) (user : Nat) (mask : DWord) : Wave :=
  ls.foldl (fun y l => raiseFault y l code (addr l) user mask) x

/-- A fault of a clause header: TPC is at INDEX 0 of the clause, while the thread keeps its own PC (R100, R354, R359). -/
def atHeader (x : Wave) (l : Nat) : Wave := modThread x l fun t => { t with tpc := mkPc (pcClause t.tpc) 0 }

/-- Threads raise a fault at a clause header, in ascending WORKID, next in the order of issue (R100, R356). -/
def raiseHeader (x : Wave) (ls : List Nat) (code : Nat) (addr mask : DWord) : Wave :=
  ls.foldl (fun y l => atHeader (raiseFault y l code addr 0 mask) l) { x with issues := x.issues + 1 }

/-- A thread parks on PAGE as the `ord`-th park (R192, R354): it leaves its group, whose mask and instruction are kept, with
its PC at the instruction; `lead` says whether it leads that instruction (R108). Its TPC changes, and with that a resume mark
is gone (R358). -/
def parkPage (x : Wave) (l : Nat) (va kind level : Nat) (addr mask : DWord) (lead : Bool) (ord : Nat) : Wave :=
  let pc := pcOf x l
  let inst := instOf x l
  let x1 := match groupOf x l with
    | some g => leaveLane x g l
    | none => x
  let x2 := modThread x1 l fun t =>
    { t with run := .page, pc := pc, tpc := pc, taddr := addr, wait := .none, lead := lead, mark := .none
             pgVa := va, pgKind := kind, pgLevel := level, pgMask := mask, inst := inst, pgReq := none
             pgOrd := ord }
  { x2 with pmc := NMap.set 0 x2.pmc 6 (NMap.get 0 x2.pmc 6 + 1) }

/-- The handler clause: bits [56:3] of s62:s63 (R353). -/
def handlerVector (x : Wave) : DWord := (NMap.get 0 x.s 63 ++ NMap.get 0 x.s 62) &&& clauseMask

/-- A thread whose run has not ended. -/
def alive (t : Thread) : Bool := t.run != .exited && t.run != .killed

def aliveLanes (x : Wave) : List Nat := x.threads.foldr (fun p r => if alive p.2 then p.1 :: r else r) []

/-- Whether a wait stops a thread for handler entry (R355): a wait on an object, the token, a gathering, SLEEP, WAITV, a
Glaze or Kiln hold, or on the other members of a group that is held so. An atomic in flight, an access or an instruction
under way, and the hold of SKICK, of a 33rd bin, of CRED or of the log are no such waits. -/
def Wait.stops : Wait → Bool
  | .none | .atom _ | .again | .cut | .rest _ _ _ | .chunk _ | .look _ | .kick _ | .retry => false
  | _ => true

/-- The thread attempts its instruction, or the rest of it, when its group issues. -/
def Wait.acts : Wait → Bool
  | .again | .engine | .cut | .rest _ _ _ | .chunk _ | .look _ | .kick _ | .retry => true
  | _ => false

/-- The thread is in the middle of its instruction, which is to be finished (R200, R366). -/
def Wait.midway : Wait → Bool
  | .cut | .rest _ _ _ | .chunk _ | .look _ => true
  | _ => false

/-- A sleep in WAITV whose load is cut: the word is to be loaded anew. -/
def Watch.whole (t : Watch) : Watch := if t.rest.isEmpty then t else {}

/-- A wait that a thread takes up again after RTE (R358); an arrival in a gathering is made again (R145). -/
def Wait.marks : Wait → Wait
  | .waitv d r i cmp t => .waitv d r i cmp t.whole
  | .gather _ | .atom _ | .cut | .rest _ _ _ | .chunk _ | .look _ | .retry => .none
  | w => w

/-- TCAUSE at handler entry (R357). -/
def causeWord (x : Wave) (f : FirstFault) : Word :=
  let multi := x.threads.any fun p => match p.2.run with
    | .fault c => c != f.code
    | _ => false
  BitVec.ofNat 32 (2 ^ 31 + 65536 * f.user + (if multi then 256 else 0) + f.code)

/-- Handler entry, in one step (R356): the trap registers take their values, arrivals are withdrawn, waits keep resume
marks, and every thread not exited goes to the handler clause at INDEX 0. -/
def enterHandler (x : Wave) (f : FirstFault) : Wave :=
  let fm := x.threads.foldl (fun m p => match p.2.run with
    | .fault _ => m ||| (1#64 <<< p.1)
    | _ => m) 0
  let ent (l : Nat) (t : Thread) : Thread :=
    if !alive t then t
    else
      let parked := match t.run with
        | .fault _ | .page => true
        | _ => false
      { t with run := .run, tpc := if parked then t.tpc else pcOf x l, taddr := if parked then t.taddr else 0
               pc := handlerVector x, mark := if parked then .none else Wait.marks t.wait, wait := .none
               markLead := !parked && t.lead, lead := false, markInst := if parked then none else instOf x l, inst := none }
  { x with tformer := f.mask, tfault := fm, tcause := causeWord x f, first := none, limited := false
           threads := x.threads.map (fun p => (p.1, ent p.1 p.2)), groups := [], gathers := [] }

/-- Where a thread stands once its instruction `i` at `pc` is behind it: the next word of its clause, or after the last the
next clause (R93). A thread without one stands at the next word. -/
def nextPc (i : Option Issued) (pc : DWord) : DWord :=
  let n := (i.map fun i => i.hdr.count).getD 15
  if pcIndex pc < n then mkPc (pcClause pc) (pcIndex pc + 1) else wordAddr (pcClause pc) (n + 1)

/-- A thread takes up the wait of its resume mark; one that had its result goes on (R358). -/
def resumeMark (t : Thread) : Thread :=
  match t.mark with
  | .hold =>
    { t with run := .run, pc := nextPc t.markInst t.tpc, mark := .none, wait := .none, lead := false, inst := none
             markInst := none }
  | m =>
    { t with run := .run, pc := t.tpc, wait := m, lead := t.markLead, mark := .none
             inst := if m = .none then none else t.markInst, markInst := none }

/-- Return from the handler, in one step (R362): INHANDLER, TFORMER, TFAULT and TCAUSE are cleared, and every thread
resumes at its TPC, inside its wait if it carries a resume mark (R358). -/
def returnFromHandler (x : Wave) : Wave :=
  { x with tformer := 0, tfault := 0, tcause := 0, runOn := 0, limited := false
           threads := x.threads.map fun p =>
             (p.1, { (if p.2.run = .rte then resumeMark p.2 else p.2) with runOn := 0 }) }

end Sys2Proof.Machine
end

