-- ==== Sys2Proof/Machine/Integer.lean ====
section
/-!
DEFINITION. Class 0: integer arithmetic, logic, shifts, bit fields, compare, select, moves, condition bits and ternary
packing (R128 to R141).
-/

namespace Sys2Proof.Machine

/-- A step of the device that ends in a next state. -/
def onDev (s : State) (f : Device → Device) : Host.Outcome State Fault Refusal := .next { s with dev := f s.dev }

/-- An instruction whose members only compute. -/
def aluStep (s : State) (p : Pred) (d : Option Reg) (f : Wave → Thread → Nat → LaneOut) :
    Host.Outcome State Fault Refusal := onDev s fun dev => alu dev p d f

/-! ### Shared computations -/

/-- The least and greatest value of an integer type. -/
def ITy.lo : ITy → Int
  | .i32 => -(2 ^ 31)
  | .i64 => -(2 ^ 63)
  | .n32 | .n64 => 0

def ITy.hi : ITy → Int
  | .i32 => 2 ^ 31 - 1
  | .n32 => 2 ^ 32 - 1
  | .i64 => 2 ^ 63 - 1
  | .n64 => 2 ^ 64 - 1

/-- The words of an exact result in type `t`, clamped under .sat and reduced modulo 2^n (R128, R129). -/
def outInt (t : ITy) (sat : Bool) (r : Int) : LaneOut :=
  let r := if sat then clampI (ITy.lo t) (ITy.hi t) r else r
  match t with
  | .i32 | .n32 => out32 (BitVec.ofInt 32 r)
  | .i64 | .n64 => out64 (BitVec.ofInt 64 r)

/-- Two-operand integer arithmetic (R128). -/
def intOp (f : Int → Int → Int) (t : ITy) (sat : Bool) (a : Src) (b : Opb) (w : Wave) (th : Thread) (_ : Nat) : LaneOut :=
  outInt t sat (f (rdInt w th t a) (rdOpbInt w th t b))

/-- Bitwise logic (R131). -/
def logOp (f : DWord → DWord → DWord) (w64 : Bool) (a : Src) (b : Opb) (w : Wave) (th : Thread) (_ : Nat) : LaneOut :=
  outRaw w64 (f (rdRaw w64 w th a) (rdOpbRaw w64 w th b))

/-- A shift by an amount read as an unsigned 32-bit value (R132). -/
def shiftOp (f32 : Word → Nat → Word) (f64 : DWord → Nat → DWord) (w64 : Bool) (a : Src) (b : Opb) (w : Wave)
    (th : Thread) (_ : Nat) : LaneOut :=
  let k := (rdOpb32 w th b).toNat
  if w64 then out64 (f64 (rd64 w th a) k) else out32 (f32 (rd32 w th a) k)

/-- Extract a field of a value extended without limit; its number, zero- or sign-extended (R133). -/
def extractField (t : ITy) (a : Int) (desc : Word) : Int :=
  let lo := bitsOf desc.toNat 0 8
  let len := bitsOf desc.toNat 8 8
  let f := wrapN len (a / ((2 ^ lo : Nat) : Int))
  match t with
  | .i32 | .i64 => if len = 0 then 0 else sgn len f
  | .n32 | .n64 => f

/-- Insert the low bits of `b` into `a` at a field; bits at or above `n` are dropped (R133). -/
def insertField (n a b : Nat) (desc : Word) : Nat :=
  let lo := bitsOf desc.toNat 0 8
  let len := bitsOf desc.toNat 8 8
  (List.range n).foldl (fun r i =>
    r + (if lo ≤ i ∧ i < lo + len then bitsOf b (i - lo) 1 else bitsOf a i 1) * 2 ^ i) 0

/-- Ones among the low `n` bits. -/
def popN (n x : Nat) : Nat := (List.range n).foldl (fun r i => r + bitsOf x i 1) 0
/-- Zero bits from bit n − 1 down to the first one (R134). -/
def clzN (n x : Nat) : Nat := if x = 0 then n else n - 1 - x.log2
/-- Zero bits from bit 0 up to the first one (R134). -/
def ctzN (n x : Nat) : Nat := ((List.range n).find? fun i => bitsOf x i 1 == 1).getD n
/-- The low `n` bits reversed (R134). -/
def revN (n x : Nat) : Nat := (List.range n).foldl (fun r i => r + bitsOf x i 1 * 2 ^ (n - 1 - i)) 0

/-- A bit count (R134). -/
def countOp (f : Nat → Nat → Nat) (w64 : Bool) (a : Src) (w : Wave) (th : Thread) (_ : Nat) : LaneOut :=
  out32 (BitVec.ofNat 32 (f (if w64 then 64 else 32) (rdRaw w64 w th a).toNat))

/-- Result byte `i` of PERMB (R135). -/
def permByte (a b c : Word) (i : Nat) : Byte :=
  let nib := bitsOf c.toNat (4 * i) 4
  let s : Byte := BitVec.ofNat 8 (bitsOf (a.toNat + 2 ^ 32 * b.toNat) (8 * (nib % 8)) 8)
  if nib < 8 then s else if s.getLsbD 7 then 0xFF else 0

/-- An integer relation (R136). -/
def IRel.holds : IRel → Int → Int → Bool
  | .eq, x, y => decide (x = y)
  | .ne, x, y => decide (x ≠ y)
  | .lt, x, y => decide (x < y)
  | .le, x, y => decide (x ≤ y)
  | .gt, x, y => decide (y < x)
  | .ge, x, y => decide (y ≤ x)

/-- The two-bit code of a ternary weight as its base-3 digit; the fourth code counts as 0 (R42, R141). -/
def ternDigit (code : Nat) : Nat :=
  match code with
  | 1 => 1
  | 3 => 2
  | _ => 0

/-- The two-bit code of a base-3 digit (R42, R141). -/
def ternCode (digit : Nat) : Nat :=
  match digit with
  | 1 => 1
  | 2 => 3
  | _ => 0

/-- The packed byte of five codes, the first in bits [1:0] (R40). -/
def packFive (x : Nat) : Nat :=
  (List.range 5).foldl (fun r m => r + ternDigit (bitsOf x (2 * m) 2) * 3 ^ m) 0

/-- The five codes of a packed byte, ten bits; a byte of 243 or more gives zeros (R141). -/
def unpackFive (b : Nat) : Nat :=
  if 243 ≤ b then 0
  else (List.range 5).foldl (fun r m => r + ternCode (b / 3 ^ m % 3) * 4 ^ m) 0

/-! ### Arithmetic (R128 to R130) -/

def execIadd (t : ITy) (sat : Bool) (p : Pred) (d : Reg) (a : Src) (b : Opb) (s : State) :
    Host.Outcome State Fault Refusal := aluStep s p (some d) (intOp (· + ·) t sat a b)

def execIsub (t : ITy) (sat : Bool) (p : Pred) (d : Reg) (a : Src) (b : Opb) (s : State) :
    Host.Outcome State Fault Refusal := aluStep s p (some d) (intOp (· - ·) t sat a b)

def execImul (t : ITy) (sat : Bool) (p : Pred) (d : Reg) (a : Src) (b : Opb) (s : State) :
    Host.Outcome State Fault Refusal := aluStep s p (some d) (intOp (· * ·) t sat a b)

def execImin (t : ITy) (p : Pred) (d : Reg) (a : Src) (b : Opb) (s : State) :
    Host.Outcome State Fault Refusal := aluStep s p (some d) (intOp min t false a b)

def execImax (t : ITy) (p : Pred) (d : Reg) (a : Src) (b : Opb) (s : State) :
    Host.Outcome State Fault Refusal := aluStep s p (some d) (intOp max t false a b)

/-- Bits [63:32] of the exact product (R129). -/
def execImulh (signed : Bool) (p : Pred) (d : Reg) (a b : Src) (s : State) : Host.Outcome State Fault Refusal :=
  aluStep s p (some d) fun w t _ =>
    let ty : ITy := if signed then .i32 else .n32
    out32 (BitVec.ofInt 32 (rdInt w t ty a * rdInt w t ty b / 2 ^ 32))

def execImad (ty : ITy) (sat : Bool) (p : Pred) (d : Reg) (a b c : Src) (s : State) :
    Host.Outcome State Fault Refusal :=
  aluStep s p (some d) fun w t _ => outInt ty sat (rdInt w t ty a * rdInt w t ty b + rdInt w t ty c)

/-- The signed type of a width. -/
def sty (w64 : Bool) : ITy := if w64 then .i64 else .i32

def execIabs (w64 sat : Bool) (p : Pred) (d : Reg) (a : Src) (s : State) : Host.Outcome State Fault Refusal :=
  aluStep s p (some d) fun w t _ => outInt (sty w64) sat (max (rdInt w t (sty w64) a) (-rdInt w t (sty w64) a))

def execIneg (w64 sat : Bool) (p : Pred) (d : Reg) (a : Src) (s : State) : Host.Outcome State Fault Refusal :=
  aluStep s p (some d) fun w t _ => outInt (sty w64) sat (-rdInt w t (sty w64) a)

/-! ### Logic, shifts, bit fields (R131 to R135) -/

def execAnd (w64 : Bool) (p : Pred) (d : Reg) (a : Src) (b : Opb) (s : State) : Host.Outcome State Fault Refusal :=
  aluStep s p (some d) (logOp (· &&& ·) w64 a b)

def execOr (w64 : Bool) (p : Pred) (d : Reg) (a : Src) (b : Opb) (s : State) : Host.Outcome State Fault Refusal :=
  aluStep s p (some d) (logOp (· ||| ·) w64 a b)

def execXor (w64 : Bool) (p : Pred) (d : Reg) (a : Src) (b : Opb) (s : State) : Host.Outcome State Fault Refusal :=
  aluStep s p (some d) (logOp (· ^^^ ·) w64 a b)

def execAndn (w64 : Bool) (p : Pred) (d : Reg) (a : Src) (b : Opb) (s : State) : Host.Outcome State Fault Refusal :=
  aluStep s p (some d) (logOp (fun x y => x &&& ~~~y) w64 a b)

def execNot (w64 : Bool) (p : Pred) (d : Reg) (a : Src) (s : State) : Host.Outcome State Fault Refusal :=
  aluStep s p (some d) fun w t _ => outRaw w64 (~~~rdRaw w64 w t a)

def execShl (w64 : Bool) (p : Pred) (d : Reg) (a : Src) (b : Opb) (s : State) : Host.Outcome State Fault Refusal :=
  aluStep s p (some d) (shiftOp (fun x k => if k < 32 then x <<< k else 0) (fun x k => if k < 64 then x <<< k else 0) w64 a b)

def execShr (w64 : Bool) (p : Pred) (d : Reg) (a : Src) (b : Opb) (s : State) : Host.Outcome State Fault Refusal :=
  aluStep s p (some d) (shiftOp (fun x k => if k < 32 then x >>> k else 0) (fun x k => if k < 64 then x >>> k else 0) w64 a b)

/-- A shift by the width or more gives the sign bit in every bit (R132). -/
def execSar (w64 : Bool) (p : Pred) (d : Reg) (a : Src) (b : Opb) (s : State) : Host.Outcome State Fault Refusal :=
  aluStep s p (some d) (shiftOp (fun x k => x.sshiftRight (min k 31)) (fun x k => x.sshiftRight (min k 63)) w64 a b)

def execRotl (w64 : Bool) (p : Pred) (d : Reg) (a : Src) (b : Opb) (s : State) : Host.Outcome State Fault Refusal :=
  aluStep s p (some d) (shiftOp (fun x k => x.rotateLeft (k % 32)) (fun x k => x.rotateLeft (k % 64)) w64 a b)

def execBfx (ty : ITy) (p : Pred) (d : Reg) (a b : Src) (s : State) : Host.Outcome State Fault Refusal :=
  aluStep s p (some d) fun w t _ => outInt ty false (extractField ty (rdInt w t ty a) (rd32 w t b))

def execBfi (w64 : Bool) (p : Pred) (d : Reg) (a b c : Src) (s : State) : Host.Outcome State Fault Refusal :=
  aluStep s p (some d) fun w t _ =>
    outRaw w64 (BitVec.ofNat 64
      (insertField (if w64 then 64 else 32) (rdRaw w64 w t a).toNat (rdRaw w64 w t b).toNat (rd32 w t c)))

def execPopc (w64 : Bool) (p : Pred) (d : Reg) (a : Src) (s : State) : Host.Outcome State Fault Refusal :=
  aluStep s p (some d) (countOp popN w64 a)

def execClz (w64 : Bool) (p : Pred) (d : Reg) (a : Src) (s : State) : Host.Outcome State Fault Refusal :=
  aluStep s p (some d) (countOp clzN w64 a)

def execCtz (w64 : Bool) (p : Pred) (d : Reg) (a : Src) (s : State) : Host.Outcome State Fault Refusal :=
  aluStep s p (some d) (countOp ctzN w64 a)

def execBrev (w64 : Bool) (p : Pred) (d : Reg) (a : Src) (s : State) : Host.Outcome State Fault Refusal :=
  aluStep s p (some d) fun w t _ =>
    outRaw w64 (BitVec.ofNat 64 (revN (if w64 then 64 else 32) (rdRaw w64 w t a).toNat))

def execPermb (p : Pred) (d : Reg) (a b c : Src) (s : State) : Host.Outcome State Fault Refusal :=
  aluStep s p (some d) fun w t _ =>
    let f := permByte (rd32 w t a) (rd32 w t b) (rd32 w t c)
    out32 (f 3 ++ f 2 ++ f 1 ++ f 0)

/-! ### Compare, select, move (R136 to R138) -/

def execIcmp (ty : ITy) (rel : IRel) (p : Pred) (c : CBit) (a : Src) (b : Opb) (s : State) :
    Host.Outcome State Fault Refusal :=
  aluStep s p none fun w t _ => outC c (IRel.holds rel (rdInt w t ty a) (rdOpbInt w t ty b))

def execSel (w64 : Bool) (q : CBit) (p : Pred) (d : Reg) (a b : Src) (s : State) : Host.Outcome State Fault Refusal :=
  aluStep s p (some d) fun w t _ => outRaw w64 (if cbit t q then rdRaw w64 w t a else rdRaw w64 w t b)

def execMov (k : MovW) (p : Pred) (d : Reg) (a : Src) (s : State) : Host.Outcome State Fault Refusal :=
  aluStep s p (some d) fun w t _ =>
    match k with
    | .b32 => out32 (rd32 w t a)
    | .b64 => out64 (rd64 w t a)
    | .b128 => { ws := [rdQuad w t a 0, rdQuad w t a 1, rdQuad w t a 2, rdQuad w t a 3] }

def execMovi (w64 : Bool) (d : Reg) (x : Word) (s : State) : Host.Outcome State Fault Refusal :=
  aluStep s .always (some d) fun _ _ _ => outRaw w64 (x.setWidth 64)

def execMovw (d : Reg) (a : Src) (x : Word) (s : State) : Host.Outcome State Fault Refusal :=
  aluStep s .always (some d) fun w t _ => { ws := [rd32 w t a, x] }

/-! ### Condition bits (R139, R140) -/

def execClog (l : Fin 16) (p : Pred) (c a b : CBit) (s : State) : Host.Outcome State Fault Refusal :=
  aluStep s p none fun _ t _ =>
    outC c (bitsOf l.val (2 * (if cbit t a then 1 else 0) + (if cbit t b then 1 else 0)) 1 == 1)

/-- Members whose predicate is false are read too; the upper half names no lane of the E72 (R140). -/
def execCtov (hi : Bool) (q : CBit) (p : Pred) (d : Reg) (s : State) : Host.Outcome State Fault Refusal :=
  let g := s.dev.cur.2
  aluStep s p (some d) fun w _ _ =>
    out64 (if hi then 0 else laneMask ((group w g).lanes.filter fun l => cbit (thread w l) q))

def execVtoc (hi : Bool) (p : Pred) (c : CBit) (a : Src) (s : State) : Host.Outcome State Fault Refusal :=
  aluStep s p none fun w t l => if hi then {} else outC c ((rd64 w t a).getLsbD l)

/-! ### Ternary packing (R141) -/

def execT3pk (p : Pred) (d : Reg) (a : Src) (s : State) : Host.Outcome State Fault Refusal :=
  aluStep s p (some d) fun w t _ =>
    let x := (rd64 w t a).toNat
    out32 (BitVec.ofNat 32 (leNat ((List.range 4).map fun i => BitVec.ofNat 8 (packFive (bitsOf x (10 * i) 10)))))

def execT3un (q : CBit) (p : Pred) (d : Reg) (a : Src) (s : State) : Host.Outcome State Fault Refusal :=
  aluStep s p (some d) fun w t _ =>
    let bs := (List.range 4).map fun i => bitsOf (rd32 w t a).toNat (8 * i) 8
    let x := ((List.range 4).zip bs).foldl (fun r p => r + unpackFive p.2 * 2 ^ (10 * p.1)) 0
    { ws := words64 (BitVec.ofNat 64 x), ks := [(q, bs.any fun b => decide (243 ≤ b))] }

end Sys2Proof.Machine
end

