-- ==== Sys2Proof/Machine/Float.lean ====
section
/-!
DEFINITION. Class 0: floating point, packed halves, VDOT8, conversions, PACK2 and OKEY (R164 to R184).
-/

namespace Sys2Proof.Machine

/-! ### Shared forms -/

/-- A floating-point operand's value after its modifiers (R165). -/
def fv (f : Fmt) (m : FMod) (x : Nat) : FVal := f.val (modBits f m x)

/-- Two operands, one rounding (R166, R168). -/
def float2 (op : Fmt → Rm → FVal → FVal → Nat × BitVec 6) (ty : FTy) (rm : Rm) (sat : Bool) (ma mb : FMod) (a : Src)
    (b : Opb) (w : Wave) (t : Thread) (_ : Nat) : LaneOut :=
  let f := FTy.fmt ty
  outF (satIf f sat (op f rm (fv f ma (rdF f w t a)) (fv f mb (rdOpbF f w t b))))

/-- FMIN, FMAX, FMINN, FMAXN (R170). -/
def floatMin (wantMax num : Bool) (ty : FTy) (ma mb : FMod) (a : Src) (b : Opb) (w : Wave) (t : Thread) (_ : Nat) :
    LaneOut :=
  let f := FTy.fmt ty
  outF (fMinMax f wantMax num (modBits f ma (rdF f w t a)) (modBits f mb (rdOpbF f w t b)), 0)

/-- A function of one FP32 operand (R174, R175). -/
def float1 (fn : Nat → Nat × BitVec 6) (ma : FMod) (a : Src) (w : Wave) (t : Thread) (_ : Nat) : LaneOut :=
  outF (fn (modBits .f32 ma (rdF .f32 w t a)))

/-- A packed operation on two operands, half by half (R176). -/
def half2 (f : Fmt) (op : Fmt → Rm → FVal → FVal → Nat × BitVec 6) (rm : Rm) (sat : Bool) (ma mb : FMod) (a b : Src)
    (w : Wave) (t : Thread) (_ : Nat) : LaneOut :=
  let h (i : Nat) := satIf f sat (op f rm (fv f ma (rdPart f w t a i)) (fv f mb (rdPart f w t b i)))
  outHalves (h 0) (h 1)

/-- A packed fused multiply-add (R176). -/
def half3 (f : Fmt) (rm : Rm) (sat : Bool) (ma mb mc : FMod) (a b c : Src) (w : Wave) (t : Thread) (_ : Nat) :
    LaneOut :=
  let h (i : Nat) := satIf f sat
    (fFmaV f rm (fv f ma (rdPart f w t a i)) (fv f mb (rdPart f w t b i)) (fv f mc (rdPart f w t c i)))
  outHalves (h 0) (h 1)

/-- HMIN2 and HMAX2 (R176). -/
def halfMin (wantMax : Bool) (ma mb : FMod) (a b : Src) (w : Wave) (t : Thread) (_ : Nat) : LaneOut :=
  let h (i : Nat) : Nat × BitVec 6 :=
    (fMinMax .f16 wantMax false (modBits .f16 ma (rdPart .f16 w t a i)) (modBits .f16 mb (rdPart .f16 w t b i)), 0)
  outHalves (h 0) (h 1)

/-! ### Arithmetic (R168 to R173) -/

/-- x − y: the sum with the sign of y inverted; a NaN stays one (R168). -/
def fSubV (f : Fmt) (rm : Rm) (x y : FVal) : Nat × BitVec 6 := fAddV f rm x y.flip

def execFadd (ty : FTy) (rm : Rm) (sat : Bool) (ma mb : FMod) (p : Pred) (d : Reg) (a : Src) (b : Opb) (s : State) :
    Host.Outcome State Fault Refusal := aluStep s p (some d) (float2 fAddV ty rm sat ma mb a b)

def execFsub (ty : FTy) (rm : Rm) (sat : Bool) (ma mb : FMod) (p : Pred) (d : Reg) (a : Src) (b : Opb) (s : State) :
    Host.Outcome State Fault Refusal := aluStep s p (some d) (float2 fSubV ty rm sat ma mb a b)

def execFmul (ty : FTy) (rm : Rm) (sat : Bool) (ma mb : FMod) (p : Pred) (d : Reg) (a : Src) (b : Opb) (s : State) :
    Host.Outcome State Fault Refusal := aluStep s p (some d) (float2 fMulV ty rm sat ma mb a b)

def execFfma (ty : FTy) (rm : Rm) (sat : Bool) (ma mb mc : FMod) (p : Pred) (d : Reg) (a b c : Src) (s : State) :
    Host.Outcome State Fault Refusal :=
  aluStep s p (some d) fun w t _ =>
    let f := FTy.fmt ty
    outF (satIf f sat (fFmaV f rm (fv f ma (rdF f w t a)) (fv f mb (rdF f w t b)) (fv f mc (rdF f w t c))))

def execFmin (ty : FTy) (ma mb : FMod) (p : Pred) (d : Reg) (a : Src) (b : Opb) (s : State) :
    Host.Outcome State Fault Refusal := aluStep s p (some d) (floatMin false false ty ma mb a b)

def execFmax (ty : FTy) (ma mb : FMod) (p : Pred) (d : Reg) (a : Src) (b : Opb) (s : State) :
    Host.Outcome State Fault Refusal := aluStep s p (some d) (floatMin true false ty ma mb a b)

def execFminn (ty : FTy) (ma mb : FMod) (p : Pred) (d : Reg) (a : Src) (b : Opb) (s : State) :
    Host.Outcome State Fault Refusal := aluStep s p (some d) (floatMin false true ty ma mb a b)

def execFmaxn (ty : FTy) (ma mb : FMod) (p : Pred) (d : Reg) (a : Src) (b : Opb) (s : State) :
    Host.Outcome State Fault Refusal := aluStep s p (some d) (floatMin true true ty ma mb a b)

def execFcmp (ty : FTy) (rel : FRel) (ma mb : FMod) (p : Pred) (c : CBit) (a b : Src) (s : State) :
    Host.Outcome State Fault Refusal :=
  aluStep s p none fun w t _ =>
    let f := FTy.fmt ty
    outC c (FRel.holds f rel (modBits f ma (rdF f w t a)) (modBits f mb (rdF f w t b)))

def execFclass (ty : FTy) (ma : FMod) (p : Pred) (d : Reg) (a : Src) (s : State) :
    Host.Outcome State Fault Refusal :=
  aluStep s p (some d) fun w t _ =>
    let f := FTy.fmt ty
    out32 (BitVec.ofNat 32 (2 ^ fClass f (modBits f ma (rdF f w t a))))

def execFrnd (ty : FTy) (rm : Rm) (ma : FMod) (p : Pred) (d : Reg) (a : Src) (s : State) :
    Host.Outcome State Fault Refusal :=
  aluStep s p (some d) fun w t _ =>
    let f := FTy.fmt ty
    outF (fRnd f rm (modBits f ma (rdF f w t a)), 0)

/-! ### Functions (R174, R175) -/

def execFrcp (rm : Rm) (ma : FMod) (p : Pred) (d : Reg) (a : Src) (s : State) : Host.Outcome State Fault Refusal :=
  aluStep s p (some d) (float1 (fRcp rm) ma a)

def execFrsq (rm : Rm) (ma : FMod) (p : Pred) (d : Reg) (a : Src) (s : State) : Host.Outcome State Fault Refusal :=
  aluStep s p (some d) (float1 (fRsq rm) ma a)

def execFsqrt (rm : Rm) (ma : FMod) (p : Pred) (d : Reg) (a : Src) (s : State) : Host.Outcome State Fault Refusal :=
  aluStep s p (some d) (float1 (fSqrt rm) ma a)

def execFexp2 (ma : FMod) (p : Pred) (d : Reg) (a : Src) (s : State) : Host.Outcome State Fault Refusal :=
  aluStep s p (some d) (float1 fExp2 ma a)

def execFlog2 (ma : FMod) (p : Pred) (d : Reg) (a : Src) (s : State) : Host.Outcome State Fault Refusal :=
  aluStep s p (some d) (float1 fLog2 ma a)

def execFsin (ma : FMod) (p : Pred) (d : Reg) (a : Src) (s : State) : Host.Outcome State Fault Refusal :=
  aluStep s p (some d) (float1 fSin ma a)

def execFcos (ma : FMod) (p : Pred) (d : Reg) (a : Src) (s : State) : Host.Outcome State Fault Refusal :=
  aluStep s p (some d) (float1 fCos ma a)

/-! ### Packed halves (R176) -/

def execHadd2 (rm : Rm) (sat : Bool) (ma mb : FMod) (p : Pred) (d : Reg) (a b : Src) (s : State) :
    Host.Outcome State Fault Refusal := aluStep s p (some d) (half2 .f16 fAddV rm sat ma mb a b)

def execHmul2 (rm : Rm) (sat : Bool) (ma mb : FMod) (p : Pred) (d : Reg) (a b : Src) (s : State) :
    Host.Outcome State Fault Refusal := aluStep s p (some d) (half2 .f16 fMulV rm sat ma mb a b)

def execHfma2 (rm : Rm) (sat : Bool) (ma mb mc : FMod) (p : Pred) (d : Reg) (a b c : Src) (s : State) :
    Host.Outcome State Fault Refusal := aluStep s p (some d) (half3 .f16 rm sat ma mb mc a b c)

def execHmin2 (ma mb : FMod) (p : Pred) (d : Reg) (a b : Src) (s : State) : Host.Outcome State Fault Refusal :=
  aluStep s p (some d) (halfMin false ma mb a b)

def execHmax2 (ma mb : FMod) (p : Pred) (d : Reg) (a b : Src) (s : State) : Host.Outcome State Fault Refusal :=
  aluStep s p (some d) (halfMin true ma mb a b)

def execBadd2 (rm : Rm) (sat : Bool) (ma mb : FMod) (p : Pred) (d : Reg) (a b : Src) (s : State) :
    Host.Outcome State Fault Refusal := aluStep s p (some d) (half2 .bf16 fAddV rm sat ma mb a b)

def execBfma2 (rm : Rm) (sat : Bool) (ma mb mc : FMod) (p : Pred) (d : Reg) (a b c : Src) (s : State) :
    Host.Outcome State Fault Refusal := aluStep s p (some d) (half3 .bf16 rm sat ma mb mc a b c)

/-- Four E4M3 products and an FP32 addend (R177). -/
def execVdot8 (rm : Rm) (ma mb mc : FMod) (p : Pred) (d : Reg) (a b c : Src) (s : State) :
    Host.Outcome State Fault Refusal :=
  aluStep s p (some d) fun w t _ =>
    outF (fDotV rm (fv .f32 mc (rdF .f32 w t c))
      ((List.range 4).map fun i => (fv .e4m3 ma (rdPart .e4m3 w t a i), fv .e4m3 mb (rdPart .e4m3 w t b i))))

/-! ### Conversions (R178 to R182) -/

/-- The float format of a CVT operand. -/
def CTy.fmt : CTy → Option Fmt
  | .f32 => some .f32
  | .f16 => some .f16
  | .bf16 => some .bf16
  | .e4m3 => some .e4m3
  | _ => none

/-- Width of an integer format of CVT; 64 where the format is a float, which no caller asks. -/
def CTy.width (c : CTy) : Nat := (CTy.bits c).getD 64
def CTy.lo (c : CTy) : Int := if CTy.signed c then -(2 ^ (CTy.width c - 1) : Nat) else 0
def CTy.hi (c : CTy) : Int := if CTy.signed c then (2 ^ (CTy.width c - 1) : Nat) - 1 else (2 ^ CTy.width c : Nat) - 1

/-- An integer source of CVT: its field, signed or unsigned by type (R164). -/
def rdCInt (c : CTy) (w : Wave) (t : Thread) (a : Src) : Int :=
  let x := if CTy.width c = 64 then (rd64 w t a).toNat else (rd32 w t a).toNat
  if CTy.signed c then sgn (CTy.width c) x else (x % 2 ^ CTy.width c : Nat)

/-- An integer destination of CVT: reduced to its width, then extended by its own signedness (R178). -/
def outCInt (c : CTy) (r : Int) (fl : BitVec 6) : LaneOut :=
  let x := wrapN (CTy.width c) r
  let y : Int := if CTy.signed c then sgn (CTy.width c) x else x
  { ws := if CTy.width c = 64 then words64 (BitVec.ofInt 64 y) else [BitVec.ofInt 32 y], fl := fl }

/-- Integer to integer (R178, R179). -/
def cvtII (d : CTy) (sat : Bool) (x : Int) : Int × BitVec 6 :=
  if sat then (clampI (CTy.lo d) (CTy.hi d) x, if x < CTy.lo d ∨ CTy.hi d < x then fSAT else 0) else (x, 0)

def execCvt (dst src : CTy) (rm : Rm) (sat : Bool) (p : Pred) (d : Reg) (a : Src) (s : State) :
    Host.Outcome State Fault Refusal :=
  aluStep s p (some d) fun w t _ =>
    match CTy.fmt dst, CTy.fmt src with
    | some fd, some fs => outF (cvtFF fs fd rm sat (rdF fs w t a))
    | some fd, none => outF (cvtIF fd rm sat (rdCInt src w t a))
    | none, some fs =>
      let r := cvtFI fs rm (CTy.lo dst) (CTy.hi dst) (rdF fs w t a)
      outCInt dst r.1 r.2
    | none, none =>
      let r := cvtII dst sat (rdCInt src w t a)
      outCInt dst r.1 r.2

def execPack2 (bf : Bool) (rm : Rm) (sat : Bool) (ma mb : FMod) (p : Pred) (d : Reg) (a b : Src) (s : State) :
    Host.Outcome State Fault Refusal :=
  aluStep s p (some d) fun w t _ =>
    let f := if bf then Fmt.bf16 else Fmt.f16
    outHalves (cvtFF .f32 f rm sat (modBits .f32 ma (rdF .f32 w t a)))
      (cvtFF .f32 f rm sat (modBits .f32 mb (rdF .f32 w t b)))

def execOkey (h nanhi : Bool) (p : Pred) (d : Reg) (a b : Src) (s : State) : Host.Outcome State Fault Refusal :=
  aluStep s p (some d) fun w t _ =>
    let x := if h then toF32 .f16 (rdF .f16 w t a) else rdF .f32 w t a
    { ws := [rd32 w t b, BitVec.ofNat 32 (okeyOf nanhi x)] }

end Sys2Proof.Machine
end

