-- ==== Sys2Proof/Machine/Memory.lean ====
section
/-!
DEFINITION. Storage: sectors and bytes of memory and scratchpads (R185, R186, R200), logical timestamps (R197),
L1 copies (R187, R197), translation (R189 to R193), the fetch of code (R193), forming and checking an address through a
record (R207 to R212).
-/

namespace Sys2Proof.Machine

/-! ### Free values (log entry 1) -/

def freeBit (dev : Device) : Bool × Device := (Config.freeBit dev.free, { dev with free := dev.free + 1 })
def freeNat (dev : Device) : Nat × Device := (Config.freeNat dev.free, { dev with free := dev.free + 1 })
def freeBytes (dev : Device) : List Byte × Device := (Config.freeBytes dev.free, { dev with free := dev.free + 1 })
def freeInt (dev : Device) : Int × Device := (Config.freeInt dev.free, { dev with free := dev.free + 1 })

/-! ### Places -/

def Loc.add : Loc → Nat → Loc
  | .glob a, n => .glob (a + n)
  | .scr g o, n => .scr g (o + n)

/-- The 32-byte sector a byte lies in (R200). -/
def Loc.sector : Loc → Loc
  | .glob a => .glob (a / 32 * 32)
  | .scr g o => .scr g (o / 32 * 32)

/-- The key of a sector's timestamps. -/
def Loc.homeKey : Loc → Nat
  | .glob a => 2 * (a / 32)
  | .scr g o => 2 * (2 ^ 24 * g + o / 32) + 1

/-- One byte of storage. -/
def getByte (dev : Device) : Loc → Byte
  | .glob a => NMap.get 0 dev.mem a
  | .scr g o => NMap.get 0 (wg dev g).mem o

/-- Write one byte of storage. -/
def putByte (dev : Device) (l : Loc) (b : Byte) : Device :=
  match l with
  | .glob a => { dev with mem := NMap.set 0 dev.mem a b }
  | .scr g o => modWg dev g fun x => { x with mem := NMap.set 0 x.mem o b }

/-- `n` bytes from a place, ascending. -/
def getBytes (dev : Device) (l : Loc) (n : Nat) : List Byte :=
  match l with
  | .glob a => Memory.bytes dev.mem a n
  | .scr g o => Memory.bytes (wg dev g).mem o n

/-- The former contents of the 8-byte words of memory that a write of `n` bytes at `a` changes (R193). -/
def logCode (dev : Device) (a n : Nat) (new : Memory) : Device :=
  let ws := (List.range ((a + n + 7) / 8 - a / 8)).map fun i => 8 * (a / 8 + i)
  ws.foldl (fun d w =>
    let old := leNat (Memory.bytes dev.mem w 8)
    if old = leNat (Memory.bytes new w 8) then d
    else { d with codeLog := (d.codeSeq, w, BitVec.ofNat 64 old) :: d.codeLog, codeSeq := d.codeSeq + 1 }) dev

/-- Write bytes from a place on; former code words are kept (R193). -/
def putBytes (dev : Device) (l : Loc) (bs : List Byte) : Device :=
  match l with
  | .glob a =>
    let m := Memory.putBytes dev.mem a bs
    { logCode dev a bs.length m with mem := m }
  | .scr g o => modWg dev g fun x => { x with mem := Memory.putBytes x.mem o bs }

/-! ### Events and their timestamps (R194, R195, R197, R199) -/

/-- Who performs an event: a thread, a cluster's service wave, a core's Slip, Kiln or Glaze, Saggar, or the host (R194). -/
inductive Who
  | lane (w l : Nat)
  | svc (cluster : Nat)
  | slip (core : Nat)
  | kiln (core : Nat)
  | glaze (core : Nat)
  | saggar
  | host
deriving DecidableEq, Repr

/-- The fixed agent number (R194); the spec names no numbers (log entry 3). -/
def Who.num : Who → Nat
  | .svc n => n % 32
  | .slip c => 256 + c % 256
  | .kiln c => 512 + c % 256
  | .glaze c => 768 + c % 256
  | .saggar => 1024
  | .host => 1025
  | .lane w l => 2048 + 64 * w + l

/-- A timestamp is held in 64 bits (R194). DESIGN CHOICE (log entry 64): one that reaches 2^64 wraps. -/
def tsBits (n : Nat) : DWord := BitVec.ofNat 64 n

/-- The later of two timestamps. -/
def laterTs (a : DWord) (n : Nat) : DWord := if a.toNat < n then tsBits n else a

def ptsOf (dev : Device) : Who → Nat
  | .lane w l => (threadAt dev w l).pts.toNat
  | who => (NMap.get (0, 0) dev.agents who.num).1.toNat

/-- The agent's latest event has timestamp `n`, and it has had one more (R194, R197). -/
def setPts (dev : Device) (who : Who) (n : DWord) : Device :=
  match who with
  | .lane w l => modThreadAt dev w l fun t => { t with pts := n, evSeq := t.evSeq + 1 }
  | who => { dev with agents := NMap.put dev.agents who.num (n, (NMap.get (0, 0) dev.agents who.num).2 + 1) }

/-- The agent's next event takes a timestamp of at least `n` (R198, R203). -/
def raisePts (dev : Device) (who : Who) (n : Nat) : Device :=
  match who with
  | .lane w l => modThreadAt dev w l fun t => { t with pts := laterTs t.pts n }
  | who =>
    let (p, k) := NMap.get (0, 0) dev.agents who.num
    { dev with agents := NMap.put dev.agents who.num (laterTs p n, k) }

/-- The least timestamp that puts an event of agent `me` after one of agent `other` at `ts`: on equal timestamps the lower
agent number comes first (R195). -/
def tsAfter (ts other me : Nat) : Nat := if me < other then ts + 1 else ts

def stampsOf (dev : Device) (l : Loc) : Stamps := NMap.get {} dev.home l.homeKey

/-- The timestamp of a read that sees the write with timestamp `wts` of agent `ag`: max(pts, wts). DEDUCED (log entry 7): one
more than wts where the reader's agent number is the lower, so that R195 orders the read after that write; a lease counts
from there. -/
def readTs (dev : Device) (who : Who) (wts : DWord) (ag : Nat) : Nat :=
  max (ptsOf dev who) (tsAfter wts.toNat ag who.num)

/-- A read at home: its timestamp is at least pts and wts, and the read bound rises to it (R197). -/
def stampRead (dev : Device) (who : Who) (l : Loc) : Device :=
  let h := stampsOf dev l
  let ts := readTs dev who h.wts h.ag
  setPts { dev with home := NMap.put dev.home l.homeKey { h with rts := laterTs h.rts ts }, topTs := laterTs dev.topTs ts }
    who (tsBits ts)

/-- A write or atomic at home: ts := max(pts, rts + 1) becomes both stamps (R197). -/
def stampWrite (dev : Device) (who : Who) (l : Loc) : Device :=
  let h := stampsOf dev l
  let ts := tsBits (max (ptsOf dev who) (h.rts.toNat + 1))
  setPts { dev with home := NMap.put dev.home l.homeKey { wts := ts, rts := ts, ag := who.num, writes := h.writes + 1 }
                    topTs := laterTs dev.topTs ts.toNat } who ts

/-- Thread `l`'s events of this instruction come after those of thread `k` (R195 item 2). -/
def membersFollow (dev : Device) (w k l : Nat) : Device :=
  raisePts dev (.lane w l) (tsAfter (threadAt dev w k).pts.toNat (Who.lane w k).num (Who.lane w l).num)

/-- An agent's events follow those of a thread (R203). -/
def agentFollows (dev : Device) (who : Who) (w l : Nat) : Device :=
  raisePts dev who (tsAfter (threadAt dev w l).pts.toNat (Who.lane w l).num who.num)

/-- A thread's events follow those of an agent. -/
def followsAgent (dev : Device) (who : Who) (w l : Nat) : Device :=
  raisePts dev (.lane w l) (tsAfter (ptsOf dev who) who.num (Who.lane w l).num)

/-- The events of the core's engines follow those of the engines of the core that the work comes from (R203, R204, R234, R298). -/
def enginesFollow (dev : Device) (old new : Nat) : Device :=
  [Who.slip, Who.kiln, Who.glaze].foldl
    (fun d e => raisePts d (e new) (tsAfter (ptsOf d (e old)) (e old).num (e new).num)) dev

/-- A thread's kick follows, in the global order, the context's kicks before it (R202, R322). -/
def kickAfter (dev : Device) (w l : Nat) : Device :=
  let c := (wave dev w).ctx
  let me := (Who.lane w l).num
  let (ts, ag) := NMap.get (0, 0) dev.kicks c
  let d := raisePts dev (.lane w l) (tsAfter ts.toNat ag me)
  { d with kicks := NMap.put d.kicks c ((threadAt d w l).pts, me) }

/-- The sectors that `n` bytes at offset `a` touch, as (first byte, count) ascending (R200). -/
def sectorSpans (a n : Nat) : List (Nat × Nat) :=
  if n = 0 then []
  else
    let s0 := a / 32
    let cnt := (a + n - 1) / 32 - s0 + 1
    (List.range cnt).map fun i =>
      let lo := if i = 0 then a else (s0 + i) * 32
      let hi := min (a + n) ((s0 + i + 1) * 32)
      (lo, hi - lo)

/-! ### Translation (R189 to R193) -/

/-- What an access needs of a page (R191). -/
inductive Need
  | load | store | fetch
deriving DecidableEq, Repr

/-- The outcome of translating an address. -/
inductive TRes
  | ok (pa : Nat)
  | page (level : Nat)
  | protection
deriving DecidableEq, Repr

/-- The outcome of a walk: a granule's translation, or where it stopped. -/
inductive WRes
  | leaf (t : Tr)
  | page (level : Nat)
  | protection
deriving DecidableEq, Repr

/-- A table entry at a physical address (R190). -/
def tableEntry (mem : Memory) (a : Nat) : Nat := leNat (Memory.bytes mem a 8)

/-- Index, page size and size of the next level's table, by level (R189). -/
def levelIndex (va : Nat) : Nat → Nat
  | 0 => bitsOf va 39 18
  | 1 => bitsOf va 30 9
  | 2 => bitsOf va 21 9
  | _ => bitsOf va 16 5

def levelPage : Nat → Nat
  | 1 => 2 ^ 30
  | 2 => 2 ^ 21
  | _ => 2 ^ 16

def nextTableSize : Nat → Nat
  | 0 => 4096
  | 1 => 4096
  | _ => 256

/-- The walk from level `lev` with `fuel` levels left (R190, R191). A granule's translation names the physical address
of the 64 KiB that hold `va`. -/
def walk (mem : Memory) (va table lev : Nat) : Nat → WRes
  | 0 => .protection
  | fuel + 1 =>
    let e := tableEntry mem (table + 8 * levelIndex va lev)
    if e % 2 = 0 then .page lev
    else
      let leaf := bitsOf e 2 1 == 1
      let pa := bitsOf e 8 44 * 256
      let bad := bitsOf e 52 12 != 0 || bitsOf e 5 3 != 0 || bitsOf e 1 1 != 0
      if bad || (leaf && lev == 0) || (!leaf && lev == 3) then .protection
      else if leaf then
        if pa % levelPage lev != 0 then .protection
        else .leaf { pa := pa + va % levelPage lev / 65536 * 65536
                     wr := bitsOf e 3 1 == 1, ex := bitsOf e 4 1 == 1 }
      else if pa % nextTableSize lev != 0 then .protection
      else walk mem va pa (lev + 1) fuel

def walkVa (dev : Device) (c va : Nat) : WRes := walk dev.mem va (ctx dev c).ptroot 0 4

/-- The rights an access needs (R191). -/
def permit (need : Need) (va : Nat) : WRes → TRes
  | .page l => .page l
  | .protection => .protection
  | .leaf t =>
    if (need == .store && !t.wr) || (need == .fetch && !t.ex) then .protection
    else .ok (t.pa + va % 65536)

/-- Put a translation into a TLB of `cap` entries; where it is full, entry `victim` goes. -/
def tlbPut (m : NMap Tr) (cap victim key : Nat) (t : Tr) : NMap Tr :=
  if (NMap.find? m key).isSome || decide (m.length < cap) then NMap.put m key t
  else NMap.put (m.eraseIdx (victim % cap)) key t

/-- The translation for a granule that an access from core `co` uses: one that the core's or its cluster's TLB holds may
serve in place of the walk's until the range is invalidated; which, is free where they differ (R193). -/
def tlbLookup (dev : Device) (co key : Nat) (new : WRes) : WRes × Device :=
  let held := (NMap.find? (core dev co).tlb key).or (NMap.find? (NMap.get [] dev.ctlb (clusterOf co)) key)
  match held with
  | none => (new, dev)
  | some t =>
    if new = WRes.leaf t then (new, dev)
    else
      let (b, dev1) := freeBit dev
      (if b then WRes.leaf t else new, dev1)

/-- Both TLBs hold the translation that served; what a full one drops is free (R193). -/
def tlbHold (dev : Device) (co key : Nat) (t : Tr) : Device :=
  let cl := NMap.get [] dev.ctlb (clusterOf co)
  if NMap.find? (core dev co).tlb key = some t ∧ NMap.find? cl key = some t then dev
  else
    let (v, dev1) := if (core dev co).tlb.length < 128 ∧ cl.length < 8192 then (0, dev) else freeNat dev
    let dev2 := modCore dev1 co fun x => { x with tlb := tlbPut x.tlb 128 v key t }
    { dev2 with ctlb := NMap.put dev2.ctlb (clusterOf co) (tlbPut cl 8192 v key t) }

/-- Translate an address for an access made from core `co` (R189 to R193). -/
def translate (dev : Device) (co c va : Nat) (need : Need) : TRes × Device :=
  if 2 ^ 57 ≤ va then (.protection, dev)
  else
    let key := 2 ^ 41 * c + va / 65536
    let (res, dev1) := tlbLookup dev co key (walkVa dev c va)
    let dev2 := match res with
      | .leaf t => tlbHold dev1 co key t
      | _ => dev1
    (permit need va res, dev2)

/-- Translate for Saggar and the host, whose walks no TLB serves (R407). -/
def translateDirect (dev : Device) (c va : Nat) (need : Need) : TRes :=
  if 2 ^ 57 ≤ va then .protection else permit need va (walkVa dev c va)

/-- Translate every sector of an access: the places of its spans, or the first failing address and why. -/
def translateSpans (dev : Device) (co c : Nat) (need : Need) :
    List (Nat × Nat) → Except (Nat × TRes) (List (Loc × Nat)) × Device
  | [] => (.ok [], dev)
  | (a, n) :: r =>
    match translate dev co c a need with
    | (.ok pa, dev1) =>
      match translateSpans dev1 co c need r with
      | (.ok ls, dev2) => (.ok ((.glob pa, n) :: ls), dev2)
      | (.error e, dev2) => (.error e, dev2)
    | (e, dev1) => (.error (a, e), dev1)

/-! ### Code (R193, R359) -/

/-- The outcome of fetching one 8-byte word of code. -/
inductive FRes
  | word (w : DWord)
  | page (level : Nat)
  | protection
deriving DecidableEq, Repr

/-- Former contents of the word at `pa` since the core's last L1 bump (R193). -/
def formerWords (dev : Device) (co pa : Nat) : List DWord :=
  dev.codeLog.filterMap fun e => if e.2.1 == pa && decide ((core dev co).bumpAt ≤ e.1) then some e.2.2 else none

/-- Fetch a word of code: until the core's next L1 bump it may be seen as it is or as it was; which, is free (R193). -/
def fetchWord (dev : Device) (co c va : Nat) : FRes × Device :=
  match translate dev co c va .fetch with
  | (.page l, dev1) => (.page l, dev1)
  | (.protection, dev1) => (.protection, dev1)
  | (.ok pa, dev1) =>
    let new : DWord := BitVec.ofNat 64 (leNat (Memory.bytes dev1.mem pa 8))
    match formerWords dev1 co pa with
    | [] => (.word new, dev1)
    | ws =>
      let (n, dev2) := freeNat dev1
      (.word (ws.getD (n % (ws.length + 1)) new), dev2)

/-! ### The L1 (R187, R197, R206) -/

/-- A line that a pin names is never evicted and never absent (R206). -/
def pinned (c : Core) (line : Nat) : Bool := c.pins.any fun q => q.pa == line

/-- A dispatch or a change of split bumps the core's L1 generation: unpinned lines become absent, and at the wrap they are
discarded; pinned lines take the new tag (R187). -/
def bumpL1 (dev : Device) (co : Nat) : Device :=
  modCore dev co fun x =>
    let g := (x.l1gen + 1) % 4096
    let keep := if g = 0 then x.l1.filter fun p => pinned x p.1 else x.l1
    { x with l1gen := g, bumpAt := dev.codeSeq
             l1 := keep.map fun p => if pinned x p.1 then (p.1, { p.2 with tag := g }) else p }

/-- The copy of a sector of memory that a core's L1 holds present. -/
def l1Copy (c : Core) (pa : Nat) : Option Copy :=
  match NMap.find? c.l1 (pa / 128) with
  | some y => if y.tag = c.l1gen then NMap.find? y.sectors (pa / 32 % 4) else none
  | none => none

/-- Lines of the L1 (R77, R187). -/
def l1Lines (c : Core) : Nat := (10 - c.split) * 8192

/-- Put a copy into a core's L1. A line new to a full L1 takes the place of an unpinned one, number `victim` of them. -/
def l1Put (c : Core) (pa victim : Nat) (y : Copy) : Core :=
  let line := pa / 128
  match NMap.find? c.l1 line with
  | some z =>
    let old := if z.tag = c.l1gen then z.sectors else []
    { c with l1 := NMap.put c.l1 line { tag := c.l1gen, sectors := NMap.put old (pa / 32 % 4) y } }
  | none =>
    let z : L1Line := { tag := c.l1gen, sectors := [(pa / 32 % 4, y)] }
    if c.l1.length < l1Lines c then { c with l1 := NMap.put c.l1 line z }
    else
      match (c.l1.filter fun p => !pinned c p.1) with
      | [] => c
      | us => { c with l1 := NMap.put (NMap.erase c.l1 ((us.getD (victim % us.length) (0, {})).1)) line z }

/-- Fill a sector into a core's L1 for an agent: the copy takes a lease of 0 to 1,024 units from max(pts, wts), which the device
chooses, and which holds at the read's timestamp (R197). -/
def l1Fill (dev : Device) (co pa : Nat) (who : Who) : Device :=
  let h := stampsOf dev (.glob pa)
  let ts := readTs dev who h.wts h.ag
  let (n, d1) := freeNat dev
  let (v, d2) := freeNat d1
  let lr := max ts (max (ptsOf dev who) h.wts.toNat + n % 1025)
  let y : Copy := { bytes := Memory.bytes dev.mem (pa / 32 * 32) 32, wts := h.wts, ag := h.ag, lr := tsBits lr }
  modCore { d2 with home := NMap.put d2.home (Loc.glob pa).homeKey { h with rts := laterTs h.rts lr } } co
    fun c => l1Put c pa v y

/-- `n` bytes of a copy from the address `pa` on. -/
def copyBytes (y : Copy) (pa n : Nat) : List Byte := (y.bytes.drop (pa % 32)).take n

/-- A thread's read of `n` bytes of one sector of memory, through its core's L1 (R197): a copy whose lease holds returns its
bytes; one whose lease is over renews at home, and a sector of which the core has no copy is filled. Whether an unpinned
copy is still there is free. The answer says whether the read hit (R364). -/
def readL1 (dev : Device) (co pa n : Nat) (who : Who) : (List Byte × Bool) × Device :=
  let (kept, d1) : Option Copy × Device := match l1Copy (core dev co) pa with
    | none => (none, dev)
    | some y =>
      if pinned (core dev co) (pa / 128) then (some y, dev)
      else
        let (b, d) := freeBit dev
        (if b then some y else none, d)
  let fill : (List Byte × Bool) × Device :=
    ((Memory.bytes d1.mem pa n, false), stampRead (l1Fill d1 co pa who) who (.glob pa))
  match kept with
  | none => fill
  | some y =>
    let ts := readTs d1 who y.wts y.ag
    if ts ≤ y.lr.toNat then ((copyBytes y pa n, true), setPts { d1 with topTs := laterTs d1.topTs ts } who (tsBits ts))
    else fill

/-! ### Records (R15 to R19, R207, R208) -/

structure Rec where
  base : Nat
  ext0 : Nat
  ext1 : Nat
  str0 : Int
  str1 : Int
  fmt : Nat
  bounds : Nat
  space : Nat
  order : Nat
  cache : Nat
  slot : Nat
  gen : Nat
  rsvd : Nat
deriving DecidableEq, Repr

/-- The fields of a record (R15). -/
def recOf (x : BitVec 256) : Rec :=
  let n := x.toNat
  { base := bitsOf n 0 64, ext0 := bitsOf n 64 32, ext1 := bitsOf n 96 32
    str0 := sgn 32 (bitsOf n 128 32), str1 := sgn 32 (bitsOf n 160 32)
    fmt := bitsOf n 192 8, bounds := bitsOf n 200 2, space := bitsOf n 202 2, order := bitsOf n 204 1
    cache := bitsOf n 205 3, slot := bitsOf n 208 16, gen := bitsOf n 224 16, rsvd := bitsOf n 240 16 }

/-- The element size of a format code; none for a reserved code (R17). DEDUCED (log entry 67): R347 writes 0x0D beside .n32,
which R17 numbers 0x0E; the table of R17 decides. -/
def fmtSize (f : Nat) : Option Nat :=
  match f with
  | 0x00 | 0x08 | 0x0C | 0x13 | 0x14 | 0x18 => some 1
  | 0x01 | 0x09 | 0x0D | 0x11 | 0x12 => some 2
  | 0x02 | 0x0A | 0x0E | 0x10 | 0x15 | 0x16 => some 4
  | 0x03 | 0x0B | 0x0F => some 8
  | 0x04 => some 16
  | 0x20 => some 26
  | 0x21 => some 320
  | 0x22 => some 4096
  | _ => none

/-- The record has no reserved bit or code (R19). -/
def Rec.valid (r : Rec) : Bool :=
  r.rsvd == 0 && (fmtSize r.fmt).isSome && r.bounds != 3 && r.space != 3 && decide (r.cache < 5)

/-- The address of element (i, j) (R16). -/
def Rec.addr (r : Rec) (i j : Nat) : Nat :=
  wrapN 64 ((r.base : Int) + i * r.str0 + j * r.str1)

/-- The bounds mode's answer for an access of `n` bytes at (i, j): a fault, a drop, or an address (R208). -/
inductive BRes
  | bounds
  | drop
  | at (a : Nat)
deriving DecidableEq, Repr

def Rec.form (r : Rec) (n i j : Nat) : BRes :=
  let e := (fmtSize r.fmt).getD 1
  let k := if n ≤ e then 1 else (n + e - 1) / e
  if i + k ≤ r.ext0 ∧ j < r.ext1 then .at (r.addr i j)
  else match r.bounds with
    | 0 => .bounds
    | 1 =>
      if r.ext0 < k ∨ r.ext1 = 0 then .drop
      else .at (r.addr (min i (r.ext0 - k)) (min j (r.ext1 - 1)))
    | _ => .drop

/-! ### Registered object sectors (R211, R230, R319) -/

/-- The sector lies in the command area of a held Kiln (R319). -/
def inKilnArea (dev : Device) (l : Loc) : Bool :=
  match l with
  | .glob _ => false
  | .scr g o =>
    match (wg dev g).kiln with
    | some k => decide (k.area ≤ o ∧ o < k.area + 4096)
    | none => false

/-- The sector is registered by BINIT or RINIT, or belongs to a Kiln's command area (R230, R319). -/
def registered (dev : Device) (l : Loc) : Bool :=
  dev.objs.any (fun o => o.loc == l.sector) || inKilnArea dev l

/-- A store under way has the sector still to write (R200). -/
def storeDue (dev : Device) (l : Loc) : Bool :=
  dev.waves.any fun p => p.2.threads.any fun q =>
    match q.2.wait with
    | .rest true ls _ => ls.any fun s => s.1.sector == l.sector
    | _ => false

/-- Some sector of a scratchpad range is still to be written by a store under way. -/
def rangeDue (dev : Device) (g a n : Nat) : Bool := (sectorSpans a n).any fun s => storeDue dev (.scr g s.1)

/-- Some sector of a scratchpad range is registered. -/
def rangeRegistered (dev : Device) (g a n : Nat) : Bool :=
  (sectorSpans a n).any fun s => registered dev (.scr g s.1)

/-! ### Spaces (R81, R209) -/

/-- E1 of a launch (R10). -/
def LaunchHdr.e1 (h : LaunchHdr) : Nat := h.extents.getD 1 1

/-- The workgroup of neighbourhood `x.nbhd` with field-1 value `f` (R81); 0, which is no workgroup, once it has ended. -/
def windowWg (dev : Device) (x : Wg) (f : Nat) : Nat :=
  ((dev.wgs.find? fun p => p.2.live && p.2.launch == x.launch && p.2.nbhd == x.nbhd && p.2.f1 == f).map Prod.fst).getD 0

/-- Where scratchpad or window bytes lie for workgroup `g`; none when outside (R81, R186, R209). DESIGN CHOICE (log entry 47):
a bin wave has no window, whatever its spawner's launch. -/
def spaceLoc (dev : Device) (g space a n : Nat) : Option (List (Loc × Nat)) :=
  let x := wg dev g
  if space = 1 then
    if a + n ≤ x.scratch then some ((sectorSpans a n).map fun s => (.scr g s.1, s.2)) else none
  else if x.nbhd = 0 then none
  else
    let lim := (launch dev x.launch).hdr.e1 * x.scratch
    if a + n ≤ lim then
      some ((sectorSpans a n).map fun s => (Loc.scr (windowWg dev x (s.1 / x.scratch)) (s.1 % x.scratch), s.2))
    else none

/-! ### Fault codes (R352) -/

def cILLCLAUSE : Nat := 0x01
def cILLOPCODE : Nat := 0x02
def cRESERVED : Nat := 0x03
def cMEMBER : Nat := 0x04
def cPRIVILEGE : Nat := 0x05
def cTRAP : Nat := 0x06
def cBREAK : Nat := 0x07
def cPAGE : Nat := 0x20
def cPROT : Nat := 0x21
def cBOUNDS : Nat := 0x22
def cGENERATION : Nat := 0x23
def cOVERWRITE : Nat := 0x24
def cBROKEN : Nat := 0x40
def cKILN : Nat := 0x50
def cTERNARY : Nat := 0x51
def cRANGE : Nat := 0x52
def cGLAZE : Nat := 0x53
def cCANCELLED : Nat := 0x54
def cRINGSTATE : Nat := 0x55
def cTKABSENT : Nat := 0x60
def cTKHOLD : Nat := 0x61
def cMISMATCH : Nat := 0x62
def cTRUNCATED : Nat := 0x63
def cSAVEAREA : Nat := 0x70
def cRETLOSS : Nat := 0x71
def cKILLED : Nat := 0x72

def DErr.code : DErr → Nat
  | .illegalClause => cILLCLAUSE
  | .illegalOpcode => cILLOPCODE
  | .reservedField => cRESERVED

/-! ### A member's access (R210) -/

/-- What an access is, for its checks and its page-fault KIND (R210, R408). -/
structure Acc where
  n : Nat
  need : Need := .load
  /-- Requires the address to be a multiple of n: atomics (R210 check 4). -/
  aligned : Bool := false
  /-- The spaces allowed: bit s for space s (R223, R247). -/
  spaces : Nat := 7
  /-- Check 2 applies: ATOM and ATOMN always, ST and SATOM by ORDER (R212). -/
  token : Bool := false
  tokenOrder : Bool := false
  /-- Check 7 applies (R211). -/
  objects : Bool := false
  kind : Nat := 1
deriving DecidableEq, Repr

/-- The outcome of a member's checks. -/
inductive ARes
  | fault (code : Nat) (addr : DWord)
  | page (va level : Nat) (addr : DWord)
  | drop
  | at (a : Nat) (ls : List (Loc × Nat))
deriving DecidableEq, Repr

/-- Wave `w` holds its launch's commit token (R250). -/
def holdsToken (dev : Device) (w : Nat) : Bool :=
  let x := wave dev w
  let l := launch dev x.launch
  l.hdr.det && !x.isBin && decide (l.token = some (16 * (wg dev x.wg).num + x.idx))

/-- The checks of R210, in order, for a member of wave `w` and the addresses R208 forms. DEDUCED (log entry 46): an access
that R208 drops has no address, and the checks after the third are not made for it; a cas fails check 7 whether or not
its compare would succeed. -/
def checkAcc (dev : Device) (w : Nat) (r : Rec) (i j : Nat) (q : Acc) : ARes × Device :=
  let x := wave dev w
  let det := (launch dev x.launch).hdr.det
  let ta := BitVec.ofNat 64 (r.addr i j)
  if !r.valid then (.fault cRESERVED ta, dev)
  else if det && !holdsToken dev w && (q.token || (q.tokenOrder && r.order == 1)) then (.fault cTKABSENT ta, dev)
  else match r.form q.n i j with
    | .bounds => (.fault cBOUNDS ta, dev)
    | .drop => (.drop, dev)
    | .at a =>
      if q.aligned && a % q.n != 0 then (.fault cPROT ta, dev)
      else if bitsOf q.spaces r.space 1 == 0 then (.fault cPROT ta, dev)
      else if r.space = 0 then
        if 2 ^ 57 ≤ a then (.fault cPROT ta, dev)
        else match translateSpans dev x.core x.ctx q.need (sectorSpans a q.n) with
          | (.error (va, .page l), dev1) => (.page va l ta, dev1)
          | (.error _, dev1) => (.fault cPROT ta, dev1)
          | (.ok ls, dev1) =>
            if q.objects && ls.any (fun s => registered dev1 s.1) then (.fault cOVERWRITE ta, dev1)
            else (.at a ls, dev1)
      else match spaceLoc dev x.wg r.space a q.n with
        | none => (.fault cPROT ta, dev)
        | some ls =>
          if q.objects && ls.any (fun s => registered dev s.1) then (.fault cOVERWRITE ta, dev)
          else (.at a ls, dev)

/-- `n` bytes at a place as an event reads them: the slice of an ended workgroup in its neighbourhood's window, of which
the spec gives no contents, reads as free bytes (R81, R209; log entry 47). -/
def readAt (dev : Device) (l : Loc) (n : Nat) : List Byte × Device :=
  match l with
  | .scr 0 _ =>
    let (bs, d) := freeBytes dev
    (padTo n bs, d)
  | l => (getBytes dev l n, dev)

/-- Read the spans of an access at home, one event a sector (R200, R213). -/
def readSpans (dev : Device) (who : Who) : List (Loc × Nat) → List Byte × Device
  | [] => ([], dev)
  | (l, n) :: r =>
    let (bs, dev1) := readAt dev l n
    let (cs, dev2) := readSpans (stampRead dev1 who l) who r
    (bs ++ cs, dev2)

/-- Write the spans of an access, one event a sector (R200, R214). -/
def writeSpans (dev : Device) (who : Who) : List (Loc × Nat) → List Byte → Device
  | [], _ => dev
  | (l, n) :: r, bs => writeSpans (putBytes (stampWrite dev who l) l (bs.take n)) who r (bs.drop n)

/-- One event of the issuing instruction is due: whether it comes before the events of other agents that the action puts
between (R195, R200). -/
def spendCut (dev : Device) : Bool × Device :=
  match dev.cut with
  | none => (true, dev)
  | some 0 => (false, dev)
  | some (n + 1) => (true, { dev with cut := some n })

/-- An L1 read hit or miss of a wave (R364). -/
def countRead (dev : Device) (w : Nat) (hit : Bool) : Device :=
  modWave dev w fun x => { x with pmc := NMap.set 0 x.pmc (if hit then 4 else 5) (NMap.get 0 x.pmc (if hit then 4 else 5) + 1) }

/-- A thread's read of one span: of memory through its core's L1, of a scratchpad at home (R197). -/
def readOne (dev : Device) (w l : Nat) (p : Loc) (n : Nat) : List Byte × Device :=
  match p with
  | .glob pa =>
    let ((bs, hit), d) := readL1 dev (wave dev w).core pa n (.lane w l)
    (bs, countRead d w hit)
  | p =>
    let (bs, d) := readAt dev p n
    (bs, stampRead d (.lane w l) p)

/-- What became of a thread's access: whole, or cut off with spans still to go (R200). -/
inductive Done
  | whole (bytes : List Byte)
  | part (ls : List (Loc × Nat)) (bytes : List Byte)
deriving DecidableEq, Repr

/-- A thread reads the spans of an access, one event a sector, `got` before them; the first event has been counted. -/
def threadRead (dev : Device) (w l : Nat) (got : List Byte) : List (Loc × Nat) → Done × Device
  | [] => (.whole got, dev)
  | (p, n) :: r =>
    let (bs, d1) := readOne dev w l p n
    match r with
    | [] => (.whole (got ++ bs), d1)
    | r =>
      let (go, d2) := spendCut d1
      if go then threadRead d2 w l (got ++ bs) r else (.part r (got ++ bs), d2)

/-- A thread writes the spans of an access, one event a sector; the first event has been counted. -/
def threadWrite (dev : Device) (w l : Nat) : List (Loc × Nat) → List Byte → Done × Device
  | [], _ => (.whole [], dev)
  | (p, n) :: r, bs =>
    let d1 := putBytes (stampWrite dev (.lane w l) p) p (bs.take n)
    match r with
    | [] => (.whole [], d1)
    | r =>
      let (go, d2) := spendCut d1
      if go then threadWrite d2 w l r (bs.drop n) else (.part r (bs.drop n), d2)

/-- An engine reads spans at home, one event a sector, `got` before them; the first event has been counted. -/
def agentRead (dev : Device) (who : Who) (got : List Byte) : List (Loc × Nat) → Done × Device
  | [] => (.whole got, dev)
  | (p, n) :: r =>
    let (bs, d) := readAt dev p n
    let d1 := stampRead d who p
    match r with
    | [] => (.whole (got ++ bs), d1)
    | r =>
      let (go, d2) := spendCut d1
      if go then agentRead d2 who (got ++ bs) r else (.part r (got ++ bs), d2)

/-- An engine writes spans, one event a sector, and nothing into one that `skip` names; the first event has been counted. -/
def agentWrite (dev : Device) (who : Who) (skip : Device → Loc → Bool) : List (Loc × Nat) → List Byte → Done × Device
  | [], _ => (.whole [], dev)
  | (p, n) :: r, bs =>
    let d1 := if skip dev p then dev else putBytes (stampWrite dev who p) p (bs.take n)
    match r with
    | [] => (.whole [], d1)
    | r =>
      let (go, d2) := spendCut d1
      if go then agentWrite d2 who skip r (bs.drop n) else (.part r (bs.drop n), d2)

/-- The sectors of scratchpad bytes, in order. -/
def scrSpans (g a n : Nat) : List (Loc × Nat) := (sectorSpans a n).map fun s => (Loc.scr g s.1, s.2)

/-- Bytes of a workgroup's scratchpad read by an engine, one event a sector (R201). -/
def engRead (dev : Device) (who : Who) (g a n : Nat) : List Byte × Device :=
  readSpans dev who (scrSpans g a n)

def engWrite (dev : Device) (who : Who) (g a : Nat) (bs : List Byte) : Device :=
  writeSpans dev who (scrSpans g a bs.length) bs

/-- Translate the spans of an access by Saggar or the host. -/
def directSpans (dev : Device) (c : Nat) (need : Need) : List (Nat × Nat) → Except (Nat × TRes) (List (Loc × Nat))
  | [] => .ok []
  | (a, n) :: r =>
    match translateDirect dev c a need with
    | .ok pa => (directSpans dev c need r).map fun ls => (Loc.glob pa, n) :: ls
    | e => .error (a, e)

/-- A store by Saggar to virtual addresses of a context: done whole, or where it failed (R67, R368, R392, R417). -/
def saggarStore (dev : Device) (c va : Nat) (bs : List Byte) : Except (Nat × TRes) Device :=
  (directSpans dev c .store (sectorSpans va bs.length)).map fun ls => writeSpans dev .saggar ls bs

/-- A read by Saggar of virtual addresses of a context; none where it faults. -/
def saggarLoad (dev : Device) (c va n : Nat) : Option (List Byte × Device) :=
  match directSpans dev c .load (sectorSpans va n) with
  | .ok ls => some (readSpans dev .saggar ls)
  | .error _ => none

end Sys2Proof.Machine
end

