-- ==== Sys2Proof/Machine/Objects.lean ====
section
/-!
DEFINITION. Barrier and ring objects: their sectors' fields, registration, phases, slots, breaking (R229 to R236, R244
to R249), for threads and for engines.
-/

namespace Sys2Proof.Machine

def isGlob : Loc → Bool
  | .glob _ => true
  | .scr _ _ => false

/-- The object registered in a sector. -/
def objAt (dev : Device) (l : Loc) : Option Obj := dev.objs.find? fun o => o.loc == l.sector

def modObj (dev : Device) (l : Loc) (f : Obj → Obj) : Device :=
  { dev with objs := dev.objs.map fun o => if o.loc == l.sector then f o else o }

/-! ### Barriers -/

/-- The fields of a barrier's sector (R232). -/
structure Bar where
  expected : Word := 0
  arrived : Word := 0
  countdown : Word := 0
  phase : Word := 0
  armed : Bool := false
  broken : Bool := false
  status : Nat := 0
  replays : Nat := 0
  done : Word := 0
deriving DecidableEq, Repr

def wordAt (bs : List Byte) (i : Nat) : Word := BitVec.ofNat 32 (leAt bs (4 * i) 4)

def Bar.parse (bs : List Byte) : Bar :=
  { expected := wordAt bs 0, arrived := wordAt bs 1, countdown := wordAt bs 2, phase := wordAt bs 3
    armed := (wordAt bs 4).getLsbD 9, broken := (wordAt bs 4).getLsbD 8, status := leAt bs 20 1
    replays := leAt bs 24 2, done := wordAt bs 7 }

def Bar.bytes (b : Bar) : List Byte :=
  leBytes 4 b.expected.toNat ++ leBytes 4 b.arrived.toNat ++ leBytes 4 b.countdown.toNat ++ leBytes 4 b.phase.toNat ++
  leBytes 4 (1 + nb b.broken 256 + nb b.armed 512) ++ leBytes 4 (b.status % 256) ++ leBytes 4 (b.replays % 65536) ++
  leBytes 4 b.done.toNat

def readBar (dev : Device) (l : Loc) : Bar := Bar.parse (getBytes dev l 32)

/-- The completion check after every change to a barrier (R233). -/
def Bar.check (b : Bar) : Bar :=
  if !b.broken && b.armed && b.arrived == b.expected && decide (b.countdown.toInt ≤ 0) then
    { b with phase := b.phase + 1, arrived := 0, countdown := 0, armed := false }
  else b

/-- One atomic event on a barrier's sector (R231). -/
def writeBar (dev : Device) (who : Who) (l : Loc) (b : Bar) : Device :=
  putBytes (stampWrite dev who l) l b.bytes

/-- A barrier is registered in the sector. -/
def barrierAt (dev : Device) (l : Loc) : Bool :=
  match objAt dev l with
  | some o => !o.ring
  | none => false

/-! ### Registration and slots (R229, R230) -/

/-- A thread of workgroup `g` is registered on barrier slot `s`. -/
def barSlotUsed (dev : Device) (g s : Nat) : Bool :=
  dev.waves.any fun p => p.2.wg == g && p.2.threads.any fun q => alive q.2 && q.2.breg.getLsbD s

def ringSlotUsed (dev : Device) (g s : Nat) : Bool :=
  dev.waves.any fun p => p.2.wg == g && p.2.threads.any fun q =>
    alive q.2 && (let h := NMap.get {} q.2.rings s; h.put || h.get)

/-- A sector becomes ordinary memory when no thread is registered on it, no slot is bound to it and no engine job
names it (R230). -/
def sweepObjs (dev : Device) : Device :=
  { dev with objs := dev.objs.filter fun o =>
      !o.regs.isEmpty || !o.eng.isEmpty ||
      dev.wgs.any fun p => p.2.live &&
        (p.2.bslots.any (fun b => b.2.loc == o.loc) || p.2.rslots.any (fun b => b.2.loc == o.loc)) }

/-- A slot becomes unbound when no thread of its workgroup remains registered on it (R229). -/
def sweepSlots (dev : Device) (g : Nat) : Device :=
  sweepObjs (modWg dev g fun x =>
    { x with bslots := x.bslots.filter fun b => barSlotUsed dev g b.1
             rslots := x.rslots.filter fun b => ringSlotUsed dev g b.1 })

def unregister (dev : Device) (l : Loc) (w t : Nat) : Device :=
  modObj dev l fun o => { o with regs := o.regs.filter (· != (w, t)) }

/-- A thread leaves barrier slot `s`, on which its BREG bit is set: BDROP (R241). -/
def leaveBarrier (dev : Device) (w l s : Nat) : Nat × Device :=
  let x := wave dev w
  let t := thread x l
  let clear (d : Device) : Device :=
    modThreadAt d w l fun t => { t with breg := t.breg &&& ~~~(1#32 <<< s), arr := NMap.erase t.arr s }
  match NMap.find? (wg dev x.wg).bslots s with
  | none => (4, clear dev)
  | some b =>
    let o := readBar dev b.loc
    let (st, dev1) :=
      if o.broken then (1, writeBar dev (.lane w l) b.loc o)
      else
        let o1 := if NMap.find? t.arr s = some o.phase then { o with arrived := o.arrived - 1 } else o
        (0, writeBar dev (.lane w l) b.loc { o1 with expected := o1.expected - 1 }.check)
    (st, sweepSlots (unregister (clear dev1) b.loc w l) x.wg)

/-- Mark an object broken (R235). -/
def breakObj (dev : Device) (who : Who) (l : Loc) : Device :=
  match objAt dev l with
  | none => dev
  | some o =>
    let off := if o.ring then 24 else 16
    let at1 := Loc.add l.sector (off + 1)
    putByte (stampWrite dev who l) at1 (getByte dev at1 ||| 1)

/-- An engine counts delivered bytes down on a barrier; on a broken one the count is discarded (R234, R235). The
answer says whether it was broken. -/
def countDown (dev : Device) (who : Who) (l : Loc) (bytes : Nat) : Bool × Device :=
  let o := readBar dev l
  if o.broken then (true, dev)
  else
    (false, writeBar dev who l
      { o with countdown := o.countdown - BitVec.ofNat 32 bytes, done := o.done + BitVec.ofNat 32 bytes }.check)

/-- A job that ends with a status writes it and takes the bytes it will not deliver off COUNTDOWN (R234); on a broken
barrier counts are discarded and the status is written (R235). -/
def countEnd (dev : Device) (who : Who) (l : Loc) (status undelivered : Nat) : Device :=
  let o := readBar dev l
  let o1 := { o with status := if o.status = 0 then status else o.status }
  writeBar dev who l
    (if o.broken then o1 else { o1 with countdown := o.countdown - BitVec.ofNat 32 undelivered }.check)

/-! ### Rings -/

/-- The fields of a ring's sector (R244). -/
structure Ring where
  base : Nat := 0
  nslots : Nat := 0
  slotsz : Nat := 0
  head : Word := 0
  tail : Word := 0
  free : Nat := 0
  filled : Nat := 0
  closed : Bool := false
  broken : Bool := false
  getters : Nat := 0
  putters : Nat := 0
deriving DecidableEq, Repr

def Ring.parse (bs : List Byte) : Ring :=
  { base := leAt bs 0 4, slotsz := leAt bs 4 2, nslots := leAt bs 6 2, head := wordAt bs 2, tail := wordAt bs 3
    free := leAt bs 16 4, filled := leAt bs 20 4, closed := (wordAt bs 6).getLsbD 9, broken := (wordAt bs 6).getLsbD 8
    putters := leAt bs 28 2, getters := leAt bs 30 2 }

def Ring.bytes (r : Ring) : List Byte :=
  leBytes 4 r.base ++ leBytes 2 r.slotsz ++ leBytes 2 r.nslots ++ leBytes 4 r.head.toNat ++ leBytes 4 r.tail.toNat ++
  leBytes 4 r.free ++ leBytes 4 r.filled ++ leBytes 4 (2 + nb r.broken 256 + nb r.closed 512) ++
  leBytes 2 r.putters ++ leBytes 2 r.getters

def readRing (dev : Device) (l : Loc) : Ring := Ring.parse (getBytes dev l 32)
def writeRing (dev : Device) (who : Who) (l : Loc) (r : Ring) : Device :=
  putBytes (stampWrite dev who l) l r.bytes

/-- The offset of slot index `i` (R245). -/
def Ring.offset (r : Ring) (i : Nat) : Nat := r.base + i % (max r.nslots 1) * r.slotsz

/-- The geometry RINIT accepts on an unregistered sector at offset `off` of a space of `size` bytes (R247). -/
def Ring.geometryOk (r : Ring) (off size : Nat) : Bool :=
  r.slotsz % 32 == 0 && decide (32 ≤ r.slotsz) && decide (1 ≤ r.nslots) && r.base % 32 == 0 &&
  decide (r.base + r.nslots * r.slotsz ≤ size) &&
  (decide (off + 32 ≤ r.base) || decide (r.base + r.nslots * r.slotsz ≤ off))

/-- The reset values of R244: BASE and GEOM stay. -/
def Ring.fresh (r : Ring) : Ring := { base := r.base, nslots := r.nslots, slotsz := r.slotsz, free := r.nslots }

/-- How many consecutive free-running indices from `n` are in the list, and the list without them. -/
def runFrom (ls : List Nat) (n : Nat) : Nat → Nat × List Nat
  | 0 => (0, ls)
  | fuel + 1 =>
    if ls.contains n then
      let (k, r) := runFrom (ls.filter (· != n)) ((n + 1) % 2 ^ 32) fuel
      (k + 1, r)
    else (0, ls)

/-- Publish slot index `i`: FILLED grows over the contiguous published slots (R245). -/
def publish (dev : Device) (who : Who) (l : Loc) (i : Nat) : Device :=
  match objAt dev l with
  | none => dev
  | some o =>
    let ps := i :: o.pubs
    let (k, rest) := runFrom ps o.pubNext ps.length
    let r := readRing dev l
    modObj (writeRing dev who l { r with filled := r.filled + k }) l fun o =>
      { o with pubs := rest, pubNext := (o.pubNext + k) % 2 ^ 32 }

/-- Release slot index `i`: FREE grows over the contiguous released slots (R245). -/
def release (dev : Device) (who : Who) (l : Loc) (i : Nat) : Device :=
  match objAt dev l with
  | none => dev
  | some o =>
    let ps := i :: o.rels
    let (k, rest) := runFrom ps o.relNext ps.length
    let r := readRing dev l
    modObj (writeRing dev who l { r with free := r.free + k }) l fun o =>
      { o with rels := rest, relNext := (o.relNext + k) % 2 ^ 32 }

/-- Reserve slot TAIL, where FREE is not 0 (R245, R248). -/
def reserve (dev : Device) (who : Who) (l : Loc) : Nat × Device :=
  let r := readRing dev l
  (r.tail.toNat, writeRing dev who l { r with free := r.free - 1, tail := r.tail + 1 })

/-- Take slot HEAD, where FILLED is not 0 (R245, R248). -/
def take (dev : Device) (who : Who) (l : Loc) : Nat × Device :=
  let r := readRing dev l
  (r.head.toNat, writeRing dev who l { r with filled := r.filled - 1, head := r.head + 1 })

/-- A putter or getter leaves a ring that is not broken; at the last putter the ring closes (R249). -/
def leaveRole (dev : Device) (who : Who) (l : Loc) (put : Bool) : Device :=
  let r := readRing dev l
  if put then
    writeRing dev who l { r with putters := r.putters - 1, closed := r.closed || r.putters - 1 == 0 }
  else writeRing dev who l { r with getters := r.getters - 1 }

/-- RCLOSE by a thread that holds a role on ring slot `s` (R249). -/
def leaveRing (dev : Device) (w l s : Nat) : Nat × Device :=
  let x := wave dev w
  let t := thread x l
  let h := NMap.get {} t.rings s
  let clear (d : Device) : Device := modThreadAt d w l fun t => { t with rings := NMap.erase t.rings s }
  match NMap.find? (wg dev x.wg).rslots s with
  | none => (4, clear dev)
  | some b =>
    if !h.put && !h.get then (4, dev)
    else
      let who := Who.lane w l
      let (st, dev1) :=
        if (readRing dev b.loc).broken then (1, writeRing dev who b.loc (readRing dev b.loc))
        else
          let d1 := if h.put then
              leaveRole (h.reserved.foldl (fun d i => publish d who b.loc i) dev) who b.loc true
            else dev
          let d2 := if h.get then
              leaveRole (h.taken.foldl (fun d i => release d who b.loc i) d1) who b.loc false
            else d1
          (0, d2)
      (st, sweepSlots (unregister (clear dev1) b.loc w l) x.wg)

/-- Slots 0 to 31 of a word's set bits. -/
def slotsOf (m : Word) : List Nat := (List.range 32).filter fun i => m.getLsbD i

/-- A thread that exits drops its barriers, then closes its rings, in ascending slot number (R236). -/
def exitObjects (dev : Device) (w l : Nat) : Device :=
  let t := threadAt dev w l
  let d1 := (slotsOf t.breg).foldl (fun d s => (leaveBarrier d w l s).2) dev
  (NMap.keys t.rings).foldl (fun d s => (leaveRing d w l s).2) d1

/-- The objects a killed thread holds are broken, and its registrations end (R235). -/
def breakObjects (dev : Device) (w l : Nat) : Device :=
  let x := wave dev w
  let t := thread x l
  let g := wg dev x.wg
  let bs := (slotsOf t.breg).filterMap fun s => NMap.find? g.bslots s
  let rs := t.rings.filterMap fun h => if h.2.put || h.2.get then NMap.find? g.rslots h.1 else none
  let d1 := (bs ++ rs).foldl (fun d b => unregister (breakObj d (.lane w l) b.loc) b.loc w l) dev
  modThreadAt d1 w l fun t => { t with breg := 0, arr := [], rings := [] }

/-- Engine work names an object, so that its sector stays registered (R230). -/
def engName (dev : Device) (l : Loc) (e : Nat) : Device :=
  modObj dev l fun o => { o with eng := e :: o.eng }

/-- Engine work no longer names an object. -/
def engUnname (dev : Device) (l : Loc) (e : Nat) : Device :=
  sweepObjs (modObj dev l fun o => { o with eng := o.eng.erase e })

end Sys2Proof.Machine
end

