-- ==== Sys2Proof/Machine/Kill.lean ====
section
/-!
DEFINITION. The end of threads, waves, workgroups and contexts: exit (R373), the commit token's passage (R250), kill
with its log records (R368, R374, R375), discard of a context (R69, R370).
-/

namespace Sys2Proof.Machine

/-! ### The commit token (R250) -/

def LaunchHdr.wgCount (h : LaunchHdr) : Nat :=
  (h.extents.drop 1).foldl (fun n e => n * e) 1

/-- Waves of a workgroup of the launch (R13). -/
def LaunchHdr.waveCount (h : LaunchHdr) : Nat := (h.extents.getD 0 1 + Config.W - 1) / Config.W

/-- The wave after logical wave `i`, wrapping from the last to the first. -/
def LaunchHdr.nextWave (h : LaunchHdr) (i : Nat) : Nat :=
  if i % 16 + 1 < h.waveCount then i + 1
  else if i / 16 + 1 < h.wgCount then 16 * (i / 16 + 1) else 0

/-- The next wave in logical order from `i` that has not ended; none when every wave has (R250). -/
def nextHolder (h : LaunchHdr) (ended : List Nat) (i : Nat) : Nat → Option Nat
  | 0 => none
  | fuel + 1 =>
    let j := h.nextWave i
    if ended.contains j then nextHolder h ended j fuel else some j

/-- An event, by timestamp and agent number, comes before another in the global order (R195). -/
def eventLt (a b : Nat × Nat) : Bool := decide (a.1 < b.1 ∨ (a.1 = b.1 ∧ a.2 < b.2))

/-- The token goes from its holder, whose latest event is `e`, to the next wave (R250, R251). -/
def passToken (l : Launch) (e : Nat × Nat) : Launch :=
  match l.token with
  | none => l
  | some i =>
    let l1 := { l with token := nextHolder l.hdr l.endedWaves i (l.endedWaves.length + 1) }
    if eventLt (l.tokenTs.toNat, l.tokenAg) e then { l1 with tokenTs := tsBits e.1, tokenAg := e.2 } else l1

/-- The timestamp and the agent of the latest event of wave `w`. -/
def waveTs (w : Nat) (x : Wave) : Nat × Nat :=
  x.threads.foldl (fun m p =>
    let e := (p.2.pts.toNat, (Who.lane w p.1).num)
    if eventLt m e then e else m) (0, 0)

/-- The events of the wave the token has come to follow the pass (R251). -/
def deliverToken (dev : Device) (lid : Nat) : Device :=
  let l := launch dev lid
  { dev with waves := dev.waves.map fun p =>
      if p.2.launch == lid && !p.2.isBin && l.token == some (16 * (wg dev p.2.wg).num + p.2.idx) then
        (p.1, { p.2 with threads := p.2.threads.map fun q =>
          (q.1, { q.2 with pts := laterTs q.2.pts (tsAfter l.tokenTs.toNat l.tokenAg (Who.lane p.1 q.1).num) }) })
      else p }

/-! ### Paint entries (R276) -/

/-- The workgroup and index of the bound tile a ticket names, of the context (R275). -/
def tileOf (dev : Device) (c : Nat) (tk : DWord) : Option (Nat × Nat) :=
  dev.wgs.findSome? fun p =>
    if p.2.live && p.2.ctx == c then
      (p.2.dests.find? fun q => q.2.id == bitsOf tk.toNat 20 12 && q.2.gen == bitsOf tk.toNat 16 4).map
        fun q => (p.1, q.1)
    else none

/-- The entry of an open sequence, by pixel. -/
def DestTile.entry? (t : DestTile) (seq px : Nat) : Option BufEntry :=
  (t.seqs.find? fun s => s.1 == seq).bind fun s => NMap.find? s.2 px

def DestTile.setEntry (t : DestTile) (seq px : Nat) (e : BufEntry) : DestTile :=
  { t with seqs := t.seqs.map fun s => if s.1 == seq then (s.1, NMap.put s.2 px e) else s }

/-- A paint thread that ends discards the entry GSCAN created it for while that is pending (R276). -/
def discardEntry (dev : Device) (c : Nat) (t : Thread) : Device :=
  match t.paint with
  | none => dev
  | some n =>
    let tk := t.workid
    match tileOf dev c tk with
    | none => dev
    | some (g, i) =>
      let x := NMap.get {} (wg dev g).dests i
      let seq := bitsOf tk.toNat 32 32
      let px := bitsOf tk.toNat 0 8
      match x.entry? seq px with
      | some e =>
        if e.fill.isNone && e.uid == n then
          modWg dev g fun y => { y with dests := NMap.put y.dests i (x.setEntry seq px { e with fill := some none }) }
        else dev
      | none => dev

/-! ### Pins (R205, R218) -/

def unpinWave (dev : Device) (w : Nat) : Device :=
  { dev with cores := dev.cores.map fun p =>
      (p.1, { p.2 with pins := p.2.pins.filterMap fun q =>
        let hs := q.holders.filter (· != w)
        if hs.isEmpty then none else some { q with holders := hs } }) }

/-! ### Slip jobs (R299, R302) -/

/-- The ring or barrier a job's card names, in the kicking workgroup's scratchpad (R291). -/
def Job.barLoc (j : Job) : Option Loc :=
  if bitsOf (leNat (Memory.bytes j.card 1 1)) 0 1 == 1 then some (.scr j.wg (leNat (Memory.bytes j.card 4 4))) else none
def Job.ringLoc (j : Job) : Option Loc :=
  if bitsOf (leNat (Memory.bytes j.card 1 1)) 1 1 == 1 then some (.scr j.wg (leNat (Memory.bytes j.card 0x60 4)))
  else none

/-- The job leaves its ring as RCLOSE does, publishing the slot it had reserved (R249, R299). -/
def jobLeaveRing (dev : Device) (id : Nat) : Device :=
  let j := NMap.get {} dev.jobs id
  match j.onRing, j.ringLoc with
  | true, some l =>
    let d1 :=
      if (readRing dev l).broken then dev
      else
        let d := match j.slot with
          | some i => publish dev (.slip j.core) l i
          | none => dev
        leaveRole d (.slip j.core) l true
    { d1 with jobs := NMap.put d1.jobs id { j with onRing := false, slot := none } }
  | _, _ => dev

/-- A job has ended: it names its ring and its barrier no more (R230), and its result is kept (R305). -/
def jobFinish (dev : Device) (id state status : Nat) : Device :=
  let d1 := jobLeaveRing dev id
  let j := NMap.get {} d1.jobs id
  let d2 := (j.barLoc.toList ++ j.ringLoc.toList).foldl (fun d l => engUnname d l id) d1
  let j1 := { j with state := state, status := status, ending := none, word := none, got := [], buf := [], rd := 0,
                      wr := 0, full := false }
  { d2 with jobs := NMap.put d2.jobs id j1 }

def jobLive (j : Job) : Bool := decide (1 ≤ j.state ∧ j.state ≤ 4)

/-- At kill the jobs of a workgroup end with CANCELLED, each at its sector, and their counts are discarded (R302, R305). -/
def cancelJobs (dev : Device) (g : Nat) : Device :=
  dev.jobs.foldl (fun d p =>
    if p.2.wg == g && jobLive p.2 then
      let j := NMap.get {} d.jobs p.1
      let d1 := if j.state = 1 then d else { d with jobs := NMap.put d.jobs p.1 { j with stop := j.src } }
      jobFinish d1 p.1 6 cCANCELLED
    else d) dev

/-! ### The Kiln (R327) -/

/-- A step of the Kiln is in progress: it has taken its slot, or read a sector (R326, R327). -/
def Kiln.midStep (k : Kiln) : Bool := k.slot.isSome || k.rd != 0

/-- The number by which a workgroup's Kiln names an object. -/
def kilnName (g : Nat) : Nat := 2 ^ 32 + g

/-- The Kiln leaves the ring of the KLOOP it was running (R326). -/
def kilnLeaveRings (dev : Device) (g : Nat) : Device :=
  dev.objs.foldl (fun d o =>
    if o.ring && o.eng.contains (kilnName g) then
      let who := Who.kiln (wg d g).core
      let d1 := if (readRing d o.loc).broken then d
        else
          let taken := ((wg d g).kiln.bind Kiln.slot).toList
          leaveRole (taken.foldl (fun d i => release d who o.loc i) d) who o.loc false
      engUnname d1 o.loc (kilnName g)
    else d) dev

/-- The reservation ends; pending drains no longer name their barriers; STATUS and POISON stay until the next one (R325,
R327, R334). -/
def endKiln (dev : Device) (g : Nat) : Device :=
  let d1 := kilnLeaveRings dev g
  sweepObjs (modWg { d1 with objs := d1.objs.map fun o => { o with eng := o.eng.filter (· != kilnName g) } } g
    fun x => match x.kiln with
      | some k => { x with kiln := none, kstatus := k.status, kpoison := k.poison }
      | none => x)

/-! ### The end of waves and workgroups -/

/-- Every thread of the wave has exited or been killed: its pins go, the token passes, its slot is freed (R218, R250,
R373). -/
def endWave (dev : Device) (w : Nat) : Device :=
  let x := wave dev w
  let d1 := unpinWave dev w
  let d2 := modWave d1 w fun x => { x with live := false, resident := false, groups := [], gathers := [] }
  if x.isBin then d2
  else
    let i := 16 * (wg dev x.wg).num + x.idx
    deliverToken (modLaunch d2 x.launch fun l =>
      let l1 := { l with endedWaves := i :: l.endedWaves }
      if l1.token = some i then passToken l1 (waveTs w x) else l1) x.launch

/-- Every wave of the workgroup has ended. -/
def wavesEnded (dev : Device) (g : Nat) : Bool := (wg dev g).waves.all fun w => !(wave dev w).live

/-- Remove a workgroup whose engine work is over: its waves' records go, its scratchpad is freed (R373). DESIGN CHOICE (log
entry 47): an object of its window slice in which others stay registered reads as zeros from then on, and its changes are
lost. -/
def removeWg (dev : Device) (g : Nat) : Device :=
  let x := wg dev g
  let d1 := { dev with wgs := NMap.erase dev.wgs g, waves := dev.waves.filter fun p => p.2.wg != g }
  let d2 := sweepObjs d1
  if x.isBin then d2 else modLaunch d2 x.launch fun l => { l with liveWgs := l.liveWgs - 1 }

/-- The end of a workgroup whose last wave has ended: tiles are freed; once the Kiln's commands are complete, the
reservation ends and the slots are unbound; once Slip's jobs and the chunks have ended, it is gone (R229, R282, R302, R327,
R373, R414). -/
def settleWg (dev : Device) (g : Nat) : Device :=
  let x := wg dev g
  if !x.live || !wavesEnded dev g then dev
  else
    let d1 := modWg dev g fun y => { y with ended := true, paths := [], dests := [] }
    let kilnBusy := match x.kiln with
      | some k => !k.cmds.isEmpty
      | none => false
    if kilnBusy then d1
    else
      let d2 := sweepObjs (modWg (if x.kiln.isSome then endKiln d1 g else d1) g fun y =>
        { y with bslots := [], rslots := [] })
      if d2.jobs.any (fun p => p.2.wg == g && jobLive p.2) || d2.chunks.any (fun p => p.2.wg == g && p.2.live) then d2
      else removeWg d2 g

/-- The gatherings `ks` fail: MEMBERSHIP-MISMATCH in every arrived thread and in `me`, which arrives, in ascending WORKID
(R144). The groups they leave behind go on where every member left has its result (R142). -/
def failGather (x : Wave) (ks : List Nat) (me : List (Nat × DWord)) : Wave :=
  let arr := ks.flatMap fun k => (NMap.get {} x.gathers k).arr
  let all := sortBy (fun a : Nat × DWord => a.2.toNat) (me ++ arr.map fun a => (a.lane, a.workid))
  let y := all.foldl (fun z a => raiseFault z a.1 cMEMBER 0 0 (maskOf x a.1)) { x with gathers := ks.foldl NMap.erase x.gathers }
  (arr.filterMap fun a => groupOf x a.lane).foldl settleGroup y

/-- An exited lane fails every gathering that names it (R144, event 4). -/
def failGathers (x : Wave) (l : Nat) : Wave :=
  x.gathers.foldl (fun y p => if p.2.mask.getLsbD l then failGather y [p.1] [] else y) x

/-! ### Log records (R367, R368) -/

/-- The 32 bytes of a fault record. -/
def logBytes (code kind co wv : Nat) (workid pc addr : DWord) : List Byte :=
  leBytes 1 code ++ leBytes 1 kind ++ leBytes 2 co ++ leBytes 1 wv ++ leBytes 3 0 ++
  leBytes 8 workid.toNat ++ leBytes 8 pc.toNat ++ leBytes 8 addr.toNat

/-- Write one record and advance LOGCOUNT; none where the save area does not take it (R368, R370). -/
def writeLog (dev : Device) (c : Nat) (bs : List Byte) : Option Device :=
  let sv := (ctx dev c).save
  match saggarLoad dev c sv 4 with
  | none => none
  | some (cnt, d0) =>
    let n := leNat cnt
    match saggarStore d0 c (sv + 0x8000 + 32 * (n % 1024)) bs with
    | .error _ => none
    | .ok d1 =>
      match saggarStore d1 c sv (leBytes 4 ((n + 1) % 2 ^ 32)) with
      | .error _ => none
      | .ok d2 => some d2

/-- The thread of a wave with the lowest WORKID. -/
def lowestLane (x : Wave) : Nat :=
  match minBy (fun p q : Nat × Thread => p.2.workid.toNat < q.2.workid.toNat) x.threads with
  | some p => p.1
  | none => 0

/-- Why a wave is killed: its record's KIND and CODE, and the lane whose thread the record names. -/
structure Cause where
  kind : Nat
  code : Nat
  lane : Option Nat := none
deriving DecidableEq, Repr

/-- The record of a killed wave (R368). -/
def waveRecord (x : Wave) (k : Cause) : List Byte :=
  let l := k.lane.getD (lowestLane x)
  let t := thread x l
  logBytes k.code k.kind x.core x.idx t.workid (pcOf x l) t.taddr

/-- A killed wave: its threads end without EXIT, their objects break, their entries are discarded (R235, R276, R375).
The record comes first; the answer says whether the save area took it. -/
def killWave (dev : Device) (w : Nat) (k : Cause) : Bool × Device :=
  let x := wave dev w
  if !x.live then (true, dev)
  else
    let (ok, d0) := match writeLog dev x.ctx (waveRecord x k) with
      | some d => (true, d)
      | none => (false, dev)
    let d1 := (aliveLanes x).foldl (fun d l =>
      let d' := breakObjects (discardEntry d x.ctx (threadAt d w l)) w l
      modThreadAt d' w l fun t => { t with run := .killed, wait := .none }) d0
    let d2 := { d1 with svc := d1.svc.map fun p => if p.2.wave == w then (p.1, { p.2 with live := false }) else p }
    (ok, endWave d2 w)

/-- The number by which a chunk names its barrier. -/
def chunkName (k : Nat) : Nat := 2 ^ 33 + k

/-- At kill the chunks of a workgroup end; other members see them as failed (R414). -/
def cancelChunks (dev : Device) (g : Nat) : Device :=
  let gone (e : Nat) : Bool := dev.chunks.any fun p => p.2.wg == g && chunkName p.1 == e
  sweepObjs { dev with
    objs := dev.objs.map fun o => { o with eng := o.eng.filter fun e => !gone e }
    chunks := dev.chunks.map fun p => if p.2.wg == g && p.2.live then (p.1, { p.2 with live := false, gone := true }) else p }

/-- A killed workgroup's Kiln is within a step: the step ends, and with it the reservation and the workgroup (R327). -/
def lingers (dev : Device) (g : Nat) : Bool :=
  let x := wg dev g
  x.resident && (x.kiln.map Kiln.midStep).getD false && (ctx dev x.ctx).busy != 2

/-- A killed workgroup: its waves, jobs, Kiln, tiles and chunks end, its scratchpad is freed (R375). -/
def killWg (dev : Device) (g : Nat) (cause : Nat → Cause) : Bool × Device :=
  let x := wg dev g
  let (ok, d1) := x.waves.foldl (fun (r : Bool × Device) w =>
    let (o, d) := killWave r.2 w (cause w)
    (r.1 && o, d)) (true, dev)
  let d2 := cancelChunks (cancelJobs d1 g) g
  let d3 := modWg d2 g fun y => { y with paths := [], dests := [], bslots := [], rslots := [] }
  if lingers d3 g then
    (ok, modWg d3 g fun y =>
      { y with ended := true, kiln := y.kiln.map fun k => { k with cmds := k.cmds.take 1, cancel := true } })
  else (ok, removeWg (endKiln d3 g) g)

/-! ### Contexts -/

/-- Halt every queue of a context with `code`, but for the offending one, which keeps its own (R69, R370, R406). -/
def haltQueues (dev : Device) (c code : Nat) (keep : Option Nat) : Device :=
  modCtx dev c fun x =>
    let halt (m : NMap Queue) (q : Nat) : NMap Queue :=
      let y := NMap.get {} m q
      NMap.put m q { y with halt := if keep = some q then y.halt else code, pend := none, outs := [] }
    { x with queues := (List.range x.qcount).foldl halt x.queues }

/-- The sessions of a context close, their frames discarded: STATE is 0 (R418). -/
def closeSessions (dev : Device) (c : Nat) : Device :=
  (ctx dev c).sessions.foldl (fun d p =>
    if p.2.opened then
      match saggarStore d c (p.2.block + 0x40) (leBytes 1 0) with
      | .ok d1 => d1
      | .error _ => d
    else d) dev

/-- What the granules of a context's memory from `va` on translate to for stores, of `n` granules. DESIGN CHOICE (log entry
48): one that does not translate any more is none of them. -/
def granulesOf (dev : Device) (c va n : Nat) : List Nat :=
  (List.range n).filterMap fun i => match translateDirect dev c (va + 65536 * i) .store with
    | .ok pa => some pa
    | _ => none

/-- The sectors of memory, ascending, with a byte that is not zero in these granules. -/
def sectorsIn (mem : Memory) (gs : List Nat) : List Nat :=
  mem.foldr (fun p r =>
    let a := p.1 / 32 * 32
    if gs.contains (p.1 / 65536 * 65536) && r.head? != some a then a :: r else r) []

/-- `n` granules of a context's memory from `va` on are zeroed: each sector that is not zero is a write event of Saggar (R60,
R194, R367). -/
def zeroGranules (dev : Device) (c va n : Nat) : Device :=
  (sectorsIn dev.mem (granulesOf dev c va n)).foldl (fun d a =>
    putBytes (stampWrite d .saggar (.glob a)) (.glob a) (List.replicate 32 0)) dev

/-- The record of a SAVE-AREA kill (R368). -/
def saveCause : Cause := { kind := 4, code := cSAVEAREA }

/-- End every workgroup of a context, a step of its Kiln with it: nothing of that is left to see. Where the save area does
not take a record, the context is discarded with SAVE-AREA: the workgroups that are left end so, and its queues halt with
code 7, but for the one in `keep`, which keeps the code of its own halt (R69, R368, R370; log entry 21). -/
def killAll (dev : Device) (c : Nat) (keep : Option Nat) (k : Cause) : Device :=
  let gs := dev.wgs.foldr (fun p r => if p.2.ctx == c then p.1 :: r else r) []
  let (ok, d1) := gs.foldl (fun (r : Bool × Device) g =>
    let (o, d) := killWg r.2 g fun _ => if r.1 then k else saveCause
    (r.1 && o, if (wg d g).live then removeWg (endKiln d g) g else d)) (true, dev)
  if ok then d1 else haltQueues d1 c 7 keep

/-- End a context's work: its waves, workgroups, bins, launches, sessions, chunks and faults; what it held is zeroed and
freed, the frames of its save area among it (R60, R69, R370, R375, R409, R418). DESIGN CHOICE (log entry 48): the header,
with the log, is zeroed when the context is destroyed. -/
def endContext (dev : Device) (c : Nat) (keep : Option Nat) (k : Cause) : Device :=
  let d0 := closeSessions (killAll dev c keep k) c
  let d1 := zeroGranules d0 c ((ctx d0 c).save + 65536) ((ctx d0 c).saveSize / 65536 - 1)
  let d2 := { d1 with
    ctlb := d1.ctlb.map fun p => (p.1, p.2.filter fun q => q.1 / 2 ^ 41 != c)
    bins := d1.bins.filter fun b => b.ctx != c
    binUnits := d1.binUnits.filter fun b => b.ctx != c
    launches := d1.launches.filter fun p => p.2.ctx != c
    jobs := d1.jobs.filter fun p => p.2.ctx != c
    chunks := d1.chunks.filter fun p => p.2.ctx != c
    aps := d1.aps.filter fun a => a.ctx != c
    cores := d1.cores.map fun p => (p.1, { p.2 with pins := p.2.pins.filter fun q => q.ctx != c
                                                    tlb := p.2.tlb.filter fun q => q.1 / 2 ^ 41 != c }) }
  modCtx d2 c fun x =>
    { x with events := 0, recs := [], cones := [], chunkSeq := [], sessions := [], tileGen := []
             pf := { x.pf with pending := [] }, logb := { x.logb with active := false, waiting := [] } }

/-- A context is discarded: its queues halt with `code`, but for the one in `keep`, its work ends, CSTATE becomes 4 (R69,
R370, R394). -/
def discardContext (dev : Device) (c code : Nat) (keep : Option Nat) (k : Cause) : Device :=
  modCtx (endContext (haltQueues dev c code keep) c keep k) c fun x => { x with cstate := 4, busy := 0 }

/-- A context in destruction has no work left: CSTATE is 0 and its whole save area is zeroed (R60, R406). -/
def freeContext (dev : Device) (c : Nat) : Device :=
  let x := ctx dev c
  setCtx (zeroGranules dev c x.save (x.saveSize / 65536)) c { desc := x.desc }

/-- A save, a restore or a log record met PAGE or PROTECTION in the save area: the context is discarded (R370); one in
destruction is freed, as the destroy of a discarded context does (R406). -/
def saveAreaLoss (dev : Device) (c : Nat) : Device :=
  if (ctx dev c).busy = 2 then freeContext (endContext dev c none saveCause) c else discardContext dev c 7 none saveCause

/-- The workgroups a kill by a fault of workgroup `g` takes: it, or its whole neighbourhood (R353). -/
def killScope (dev : Device) (g : Nat) : List Nat :=
  let x := wg dev g
  if x.nbhd = 0 then [g]
  else dev.wgs.foldr (fun p r => if p.2.live && p.2.launch == x.launch && p.2.nbhd == x.nbhd then p.1 :: r else r) []

/-- Kill by a handler fault of wave `w` (R353, R359, R374): its record carries the code, every other is KILLED. -/
def killByFault (dev : Device) (w : Nat) (k : Cause) : Device :=
  let x := wave dev w
  let cause (v : Nat) : Cause := if v = w then k else { kind := 3, code := cKILLED }
  let (ok, d) := (killScope dev x.wg).foldl (fun (r : Bool × Device) g =>
    let (o, d) := killWg r.2 g cause
    (r.1 && o, d)) (true, dev)
  if ok then d else saveAreaLoss d x.ctx

/-- A handler fault inside the handler is fatal (R359). -/
def settleFatal (dev : Device) (w : Nat) : Device :=
  match (wave dev w).fatal with
  | some (code, l) => killByFault dev w { kind := 2, code := code, lane := some l }
  | none => dev

/-! ### Exit (R157, R373) -/

/-- Thread `l` of wave `w` exits: drops and closures, the discard of its pending entry, its recording as an exited lane;
with the last thread the wave ends, with the last wave the workgroup (R373). -/
def exitThread (dev : Device) (w l : Nat) : Device :=
  let d1 := exitObjects dev w l
  let d2 := discardEntry d1 (wave d1 w).ctx (threadAt d1 w l)
  let d3 := modWave d2 w fun x =>
    let pc := pcOf x l
    let x1 := match groupOf x l with
      | some g => leaveLane x g l
      | none => x
    failGathers (modThread x1 l fun t => { t with run := .exited, pc := pc, wait := .none, lead := false, mark := .none }) l
  if (aliveLanes (wave d3 w)).isEmpty then settleWg (endWave d3 w) (wave d3 w).wg else d3

end Sys2Proof.Machine
end

