-- ==== Sys2Proof/Machine/Members.lean ====
section
/-!
DEFINITION. Running an instruction member by member in ascending WORKID, with faults, parks and waits (R95, R104, R108,
R210, R239, R354), and finishing a wait.
-/

namespace Sys2Proof.Machine

/-- What came of one member. -/
inductive LaneRes
  | done (o : LaneOut)
  | wait (w : Wait)
  | fault (code : Nat) (addr : DWord) (user : Nat)
  | page (va kind level : Nat) (addr : DWord)
deriving DecidableEq, Repr

/-- The effect of one member's outcome on its wave; `ord` is the number of a park. -/
def applyRes (x : Wave) (l : Nat) (lead : Bool) (d : Option Reg) (mask : DWord) (ord : Nat) : LaneRes → Wave
  | .done o => modThread (raiseFlags (writeOut x l lead d o) o.fl) l fun t => { t with wait := .hold, lead := false }
  | .wait w => modThread x l fun t => { t with wait := w, lead := lead }
  | .fault code addr user => raiseFault x l code addr user mask
  | .page va kind level addr => parkPage x l va kind level addr mask lead ord

/-- The effect of one member's outcome. -/
def applyTo (dev : Device) (w l : Nat) (lead : Bool) (d : Option Reg) (mask : DWord) (r : LaneRes) : Device :=
  let d1 := modWave dev w fun x => applyRes x l lead d mask dev.parkSeq r
  match r with
  | .page _ _ _ _ => { d1 with parkSeq := d1.parkSeq + 1 }
  | _ => d1

/-- The wait in which a member's outcome leaves the members above it: none may act before one that is held (R84, R195,
R259). -/
def LaneRes.holds : LaneRes → Option Wait
  | .wait .again => some .again
  | .wait .engine => some .engine
  | .wait (.rest _ _ _) => some .cut
  | .wait (.look _) => some .cut
  | .wait (.kick _) => some .again
  | _ => none

/-- The members that act at this issue: at the first, those whose predicate holds; at a later one, those that attempt
the instruction again. -/
def actors (x : Wave) (y : Group) (p : Pred) : List Nat :=
  if y.began then y.lanes.filter fun l => (thread x l).wait.acts
  else y.lanes.filter fun l => performs p (thread x l)

/-- Mark the instruction as issued at TICKS `now`: the others hold; the leading member, the operands and GROUPMASK are fixed
(R108, R111, R239, R356, R360). -/
def beginGroup (x : Wave) (g : Nat) (p : Pred) (now : Nat) : Wave :=
  let y := group x g
  if y.began then x
  else
    let act := actors x y p
    let x1 := y.lanes.foldl (fun z l => modThread z l fun t =>
      if act.contains l then { t with issued := now } else { t with wait := .hold }) x
    setGroup x1 g { y with began := true, lead := act.head?, s0 := x.s, d0 := x.d, mask := laneMask y.lanes }

/-- The wave as the instruction of group `y` reads it: its s and d registers are those at its issue (R111). -/
def operandsOf (x : Wave) (y : Group) : Wave := if y.began then { x with s := y.s0, d := y.d0 } else x

/-- Members acting one after another: the device, the wait in which those to come stay, and the member that performed the
latest event. -/
structure Walk where
  dev : Device
  held : Option Wait := none
  after : Option Nat := none
deriving DecidableEq, Repr

/-- A member that does not act now waits; one in the middle of its instruction stays in it. -/
def keepBack (dev : Device) (w l : Nat) (lead : Bool) (h : Wait) : Device :=
  modThreadAt dev w l fun t => if t.wait.acts then t else { t with wait := h, lead := lead }

/-- One member's turn: it stays back behind one that is held, or where events of other agents come first; else it acts,
after the events of the members before it (R195). -/
def walkOne (w : Nat) (x : Wave) (lead : Option Nat) (d : Option Reg) (mask : DWord)
    (f : Device → Wave → Thread → Nat → LaneRes × Device) (q : Walk) (l : Nat) : Walk :=
  match q.held with
  | some h => { q with dev := keepBack q.dev w l (lead == some l) h }
  | none =>
    let (go, d0) := spendCut q.dev
    if !go then { q with dev := keepBack d0 w l (lead == some l) .cut, held := some .cut }
    else
      let d1 := match q.after with
        | some k => membersFollow d0 w k l
        | none => d0
      let n := (threadAt d1 w l).evSeq
      let (r, d2) := f d1 x (thread x l) l
      let d3 := applyTo d2 w l (lead == some l) d mask r
      { dev := d3, held := r.holds, after := if (threadAt d2 w l).evSeq = n then q.after else some l }

/-- Group `y`'s instruction, attempted again, turns wave `x` into `z`. -/
def laterKept (x : Wave) (y : Group) (z : Wave) : Wave := if y.began then keepLater x z y.ord else z

/-- Run an instruction for each acting member in ascending WORKID. Operands are of the state before the instruction
(R111); memory and objects are as the members before left them. Faulting and parking members leave; when every other
has its result the group goes on. -/
def members (dev : Device) (p : Pred) (d : Option Reg) (f : Device → Wave → Thread → Nat → LaneRes × Device) : Device :=
  let (w, g) := dev.cur
  let x := wave dev w
  let y := group x g
  let act := actors x y p
  let d1 := modWave dev w fun z => beginGroup z g p dev.ticks
  let lead := (group (wave d1 w) g).lead
  let q := act.foldl (walkOne w (operandsOf x y) lead d (issueMask y) f) { dev := d1, after := y.after }
  settleFatal (modWave q.dev w fun z => settleGroup (noteAfter (laterKept x y z) g q.after) g) w
where
  /-- Keep the member of the latest event while the instruction is under way. -/
  noteAfter (x : Wave) (g : Nat) (k : Option Nat) : Wave :=
    match NMap.find? x.groups g with
    | some y => if y.after = k then x else setGroup x g { y with after := k }
    | none => x

/-- An instruction that acts once for the issue group, with the operands of its lowest-WORKID performing member; every
performing member receives the same outcome (R328, R413). -/
def once (dev : Device) (p : Pred) (d : Option Reg) (f : Device → Wave → Thread → Nat → LaneRes × Device) : Device :=
  let (w, g) := dev.cur
  let x := wave dev w
  let y := group x g
  match actors x y p with
  | [] => modWave dev w fun z => advance z g
  | a :: act =>
    let mask := issueMask y
    let d1 := modWave dev w fun z => beginGroup z g p dev.ticks
    let lead := (group (wave d1 w) g).lead
    let (go, d0) := spendCut d1
    let (r, d2) := if go then f d0 (operandsOf x y) (thread x a) a else (.wait (if (thread x a).wait.acts then (thread x a).wait else .cut), d0)
    let d3 := (a :: act).foldl (fun v l => applyTo v w l (lead == some l) d mask r) d2
    settleFatal (modWave d3 w fun z => settleGroup (laterKept x y z) g) w

/-! ### Finishing a wait -/

/-- A waiting thread receives its result: its group goes on once every member has one, or, where it has no group, the
thread goes on to the next word (R239, R358). -/
def finishWait (dev : Device) (w l : Nat) (d : Option Reg) (o : LaneOut) : Device :=
  modWave dev w fun x =>
    let y := writeLate x l d o
    match groupOf x l with
    | some g => settleGroup (modThread y l fun t => { t with wait := .hold, lead := false }) g
    | none => modThread y l fun t => goTo t (nextPc t.inst t.pc)

/-- A group that some member has left goes on where every other has its result. -/
def settleLeft (x : Wave) (g : Option Nat) : Wave :=
  match g with
  | some g => settleGroup x g
  | none => x

/-- A waiting thread raises a fault, or parks, at the instruction it waits in. -/
def faultWait (dev : Device) (w l code : Nat) (addr : DWord) : Device :=
  settleFatal (modWave dev w fun x => settleLeft (raiseFault x l code addr 0 (maskOf x l)) (groupOf x l)) w

def parkWait (dev : Device) (w l va kind level : Nat) (addr : DWord) : Device :=
  let d1 := modWave dev w fun x =>
    settleLeft (parkPage x l va kind level addr (maskOf x l) (thread x l).lead dev.parkSeq) (groupOf x l)
  { d1 with parkSeq := d1.parkSeq + 1 }

/-- The group of a wave's lane dissolves with the wave's eviction: members with a result go on, members without keep
their wait and PC (R366). -/
def dissolveGroup (x : Wave) (g : Nat) : Wave :=
  let y := group x g
  let pc := groupPc y
  dropGroup (y.lanes.foldl (fun z l => modThread z l fun t =>
    match t.wait with
    | .hold => goTo t (nextPc (some y.issued) pc)
    | .none => { t with pc := pc, inst := none }
    | _ => { t with pc := pc, inst := some y.issued }) x) g

end Sys2Proof.Machine
end

