-- ==== Sys2Proof/Machine/Lane.lean ====
section
/-!
DEFINITION. Gatherings and the lane instructions (R142 to R152), CONV's gathering (R156), the trees of R53 and R54.
-/

namespace Sys2Proof.Machine

/-! ### Combining (R53, R54, R149) -/

/-- Combine with no value: the other unchanged, no rounding. -/
def combOpt (f : DWord → DWord → DWord × BitVec 6) (x y : Option DWord × BitVec 6) : Option DWord × BitVec 6 :=
  match x.1, y.1 with
  | some a, some b =>
    let r := f a b
    (some r.1, x.2 ||| y.2 ||| r.2)
  | some a, none => (some a, x.2 ||| y.2)
  | none, b => (b, x.2 ||| y.2)

/-- One level of the pairwise tree of R53 over a list of lanes; pairs from the front, the lower lane first. -/
def pairUp (f : DWord → DWord → DWord × BitVec 6) : List (Option DWord × BitVec 6) → List (Option DWord × BitVec 6)
  | x :: y :: r => combOpt f x y :: pairUp f r
  | r => r

/-- The tree of R53: `k` levels. -/
def treeOf (f : DWord → DWord → DWord × BitVec 6) : Nat → List (Option DWord × BitVec 6) → List (Option DWord × BitVec 6)
  | 0, xs => xs
  | k + 1, xs => treeOf f k (pairUp f xs)

/-- One level of the network of R54, at distance `d`. -/
def scanLevel (f : DWord → DWord → DWord × BitVec 6) (d : Nat) (xs : List (Option DWord × BitVec 6)) :
    List (Option DWord × BitVec 6) :=
  xs.take d ++ (xs.zip (xs.drop d)).map fun p => combOpt f p.1 p.2

/-- The network of R54: levels at distances 1, 2, 4, ... -/
def scanOf (f : DWord → DWord → DWord × BitVec 6) : Nat → Nat → List (Option DWord × BitVec 6) →
    List (Option DWord × BitVec 6)
  | 0, _, xs => xs
  | k + 1, d, xs => scanOf f k (2 * d) (scanLevel f d xs)

/-- A float operation on each part of a 32-bit value. -/
def onParts (f : Fmt) (n : Nat) (op : Nat → Nat → Nat × BitVec 6) (a b : DWord) : DWord × BitVec 6 :=
  (List.range n).foldl (fun r i =>
    let q := op (bitsOf a.toNat (f.bits * i) f.bits) (bitsOf b.toNat (f.bits * i) f.bits)
    (r.1 + BitVec.ofNat 64 (q.1 * 2 ^ (f.bits * i)), r.2 ||| q.2)) (0, 0)

/-- The float format of a lane type and its parts. -/
def LTy.float : LTy → Option (Fmt × Nat)
  | .f32 => some (.f32, 1)
  | .h2 => some (.f16, 2)
  | .bh2 => some (.bf16, 2)
  | _ => none

/-- Compare as the type orders its bits. -/
def LTy.num (t : LTy) (x : DWord) : Int :=
  match t with
  | .i32 => sgn 32 x.toNat
  | _ => x.toNat

/-- maxix and minix: the greater or the lesser [63:32]; on equal ones the lower [31:0] (R149). -/
def ixOp (wantMax : Bool) (a b : DWord) : DWord :=
  let ka := a.toNat / 2 ^ 32
  let kb := b.toNat / 2 ^ 32
  if ka = kb then (if a.toNat ≤ b.toNat then a else b)
  else if decide (ka < kb) == wantMax then b else a

/-- The combination of R149. -/
def laneOp (op : LOp) (t : LTy) (rm : Rm) (a b : DWord) : DWord × BitVec 6 :=
  match LTy.float t with
  | some (f, n) =>
    match op with
    | .min => onParts f n (fun x y => (fMinMax f false false x y, 0)) a b
    | .max => onParts f n (fun x y => (fMinMax f true false x y, 0)) a b
    | _ => onParts f n (fun x y => fAddV f rm (f.val x) (f.val y)) a b
  | none =>
    let w := if t = .n64 then 64 else 32
    (match op with
      | .add => BitVec.ofNat 64 ((a.toNat + b.toNat) % 2 ^ w)
      | .min => if LTy.num t a ≤ LTy.num t b then a else b
      | .max => if LTy.num t a < LTy.num t b then b else a
      | .and => a &&& b
      | .or => a ||| b
      | .xor => a ^^^ b
      | .maxix => ixOp true a b
      | .minix => ixOp false a b, 0)

/-- The identities of R149. -/
def laneId (op : LOp) (t : LTy) : DWord :=
  match LTy.float t with
  | some (f, n) =>
    let x := match op with
      | .min => f.infinity
      | .max => f.sgnBit true + f.infinity
      | _ => f.sgnBit true
    BitVec.ofNat 64 (x * (if n = 2 then 65537 else 1))
  | none =>
    match op with
    | .min => match t with
      | .i32 => 0x7FFFFFFF
      | .n32 => 0xFFFFFFFF
      | _ => 0xFFFFFFFFFFFFFFFF
    | .max => if t = .i32 then 0x80000000 else 0
    | .and => if t = .n64 then 0xFFFFFFFFFFFFFFFF else 0xFFFFFFFF
    | .maxix => 0x00000000FFFFFFFF
    | .minix => 0xFFFFFFFFFFFFFFFF
    | _ => 0

/-! ### Completion -/

/-- The members of a gathering that carry a value, in ascending WORKID: lane, a, b, condition bits. -/
def valued (y : Gather) : List (Nat × DWord × Word × BitVec 4) :=
  (sortBy (fun a : Arrival => a.workid.toNat) y.arr).filterMap fun a => a.value.map fun v => (a.lane, v)

/-- The value of each lane 0 to W − 1. -/
def laneVals (vs : List (Nat × DWord × Word × BitVec 4)) : List (Option DWord × BitVec 6) :=
  (List.range Config.W).map fun i => ((vs.find? fun v => v.1 == i).map fun v => v.2.1, 0)

/-- The value of the lane numbered by an integer, where there is one (R146). -/
def laneVal (vs : List (Nat × DWord × Word × BitVec 4)) (i : Int) : Option DWord :=
  if 0 ≤ i then (vs.find? fun v => v.1 == i.toNat).map fun v => v.2.1 else none

def flagsOf (xs : List (Option DWord × BitVec 6)) : BitVec 6 := xs.foldl (fun r x => r ||| x.2) 0

/-- Each valued member's result, and the destination (R147 to R152). DESIGN CHOICE (log entry 49): a WSCAN raises the flags
of the additions at all lanes, carriers that are no members and prefixes that no member receives included. -/
def gatherOuts (i : Instr) (vs : List (Nat × DWord × Word × BitVec 4)) : Option Reg × List (Nat × LaneOut) :=
  match i with
  | .wshfl m _ d _ _ _ =>
    (some d, vs.map fun v =>
      let k : Int := v.2.2.1.toNat
      let src : Int := match m with
        | .idx => k
        | .up => v.1 - k
        | .down => v.1 + k
        | .xor => (v.1 ^^^ v.2.2.1.toNat : Nat)
      (v.1, out32 (((laneVal vs src).getD v.2.1).setWidth 32)))
  | .wbcast w64 _ d _ _ _ =>
    let low := minBy (fun v u : Nat × DWord × Word × BitVec 4 => decide (v.1 < u.1)) vs
    let src : Int := match low with
      | some v => (v.2.2.1.toNat : Int)
      | none => -1
    (some d, vs.map fun v => (v.1, outRaw w64 ((laneVal vs src).getD v.2.1)))
  | .wred op t rm _ d _ _ =>
    match treeOf (laneOp op t rm) 6 (laneVals vs) with
    | (some r, fl) :: _ => (some d, vs.map fun v => (v.1, { outRaw (LTy.n t == 2) r with fl := fl }))
    | _ => (some d, [])
  | .wscan op t rm excl _ d _ _ =>
    let ys := scanOf (laneOp op t rm) 6 1 (laneVals vs)
    let fl := flagsOf ys
    (some d, vs.map fun v =>
      let r := if excl then
          (if v.1 = 0 then laneId op t else ((ys.getD (v.1 - 1) (none, 0)).1).getD (laneId op t))
        else ((ys.getD v.1 (none, 0)).1).getD 0
      (v.1, { outRaw (LTy.n t == 2) r with fl := fl }))
  | .wvote k q _ _ =>
    let bs := vs.map fun v => v.2.2.2.getLsbD q.val
    match k with
    | .all c => (none, vs.map fun v => (v.1, outC c (bs.all id)))
    | .any c => (none, vs.map fun v => (v.1, outC c (bs.any id)))
    | .uni c => (none, vs.map fun v => (v.1, outC c (bs.all id || !bs.any id)))
    | .ballot d =>
      (some d, vs.map fun v =>
        (v.1, out64 (laneMask ((vs.filter fun u => u.2.2.2.getLsbD q.val).map Prod.fst))))
  | .wmatch _ _ d _ _ =>
    (some d, vs.map fun v => (v.1, out64 (laneMask ((vs.filter fun u => u.2.1 == v.2.1).map Prod.fst))))
  | _ => (none, [])

/-- Let a thread that waited in a gathering go on (R143). -/
def releaseLane (x : Wave) (l : Nat) : Wave :=
  match groupOf x l with
  | some _ => modThread x l fun t => { t with wait := .hold, lead := false }
  | none => modThread x l fun t => goTo t (nextPc t.inst t.pc)

/-- The clause after the one whose last instruction is at `pc` (R153). -/
def clauseAfter (pc : DWord) : DWord := mkPc (wordAddr (pcClause pc) (pcIndex pc + 1)) 0

/-- A lane leaves its group for a PC. -/
def sendLane (x : Wave) (l : Nat) (pc : DWord) : Wave :=
  let x1 := match groupOf x l with
    | some g => leaveLane x g l
    | none => x
  modThread x1 l fun t => goTo t pc

def isConv : Instr → Bool
  | .conv .. => true
  | _ => false

/-- Every lane named in the mask has arrived. -/
def gatherFull (y : Gather) : Bool :=
  (List.range Config.W).all fun l => !y.mask.getLsbD l || y.arr.any fun a => a.lane == l

/-- A complete gathering delivers its results and releases its groups (R143, R156). -/
def completeGather (x : Wave) (k : Nat) : Wave :=
  match NMap.find? x.gathers k with
  | none => x
  | some y =>
    if !gatherFull y then x
    else
      let vs := valued y
      let (d, outs) := gatherOuts y.instr vs
      let lead := (vs.head?).map Prod.fst
      let x1 := outs.foldl (fun z o => writeOut z o.1 (lead == some o.1) d o.2) { x with gathers := NMap.erase x.gathers k }
      let x2 := raiseFlags x1 (outs.foldl (fun r o => r ||| o.2.fl) 0)
      let x3 := y.arr.foldl (fun z a =>
        if isConv y.instr then sendLane z a.lane (clauseAfter y.pc) else releaseLane z a.lane) x2
      (NMap.keys x3.groups).foldl settleGroup x3

/-! ### Arrival (R142 to R144) -/

/-- Lane `l` arrives at the lane instruction `i` at `pc` with mask `m`, and a value where its predicate holds. The events
of R144 are taken together: every gathering that one of them fails is failed. -/
def arrive (x : Wave) (i : Instr) (pc : DWord) (l : Nat) (m : DWord) (v : Option (DWord × Word × BitVec 4)) : Wave :=
  if !m.getLsbD l && v.isNone then modThread x l fun t => { t with wait := .hold }
  else
    let here := x.gathers.find? fun p => p.2.pc == pc
    let clear := !m.getLsbD l
    let differs := match here with
      | some p => p.2.mask != m
      | none => false
    let dead := (List.range Config.W).any fun j => m.getLsbD j && !alive (thread x j)
    let mine := if clear || differs || dead then here.toList.map Prod.fst else []
    let others := x.gathers.foldr (fun p r => if p.2.pc != pc && p.2.mask.getLsbD l then p.1 :: r else r) []
    if clear || differs || dead || !others.isEmpty then failGather x (mine ++ others) [(l, (thread x l).workid)]
    else
      let a : Arrival := { lane := l, workid := (thread x l).workid, value := v }
      let (k, y, n) : Nat × Gather × Nat := match here with
        | some (k, y) => (k, { y with arr := y.arr ++ [a] }, x.nextGather)
        | none => (x.nextGather, { pc := pc, instr := i, mask := m, arr := [a] }, x.nextGather + 1)
      let x1 := { x with gathers := NMap.put x.gathers k y, nextGather := n }
      completeGather (modThread x1 l fun t => { t with wait := .gather k }) k

/-- A lane instruction or CONV: each member arrives in ascending WORKID (R142 to R145). -/
def gatherStep (dev : Device) (i : Instr) (p : Pred) (mask : Src) (rd : Wave → Thread → DWord × Word) : Device :=
  let (w, g) := dev.cur
  let x := wave dev w
  let y := group x g
  let pc := groupPc y
  let x1 := setGroup x g { y with began := true, lead := (performers x y p).head?, mask := laneMask y.lanes }
  let x2 := y.lanes.foldl (fun z l =>
    let t := thread x l
    let v := rd x t
    arrive z i pc l (rd64 x t mask) (if performs p t then some (v.1, v.2, t.c) else none)) x1
  settleFatal (setWave dev w (settleGroup x2 g)) w

/-! ### The lane instructions -/

def execWshfl (m : Shfl) (p : Pred) (d : Reg) (a b mask : Src) (s : State) : Host.Outcome State Fault Refusal :=
  onDev s fun dev => gatherStep dev (.wshfl m p d a b mask) p mask fun w t => ((rd32 w t a).setWidth 64, rd32 w t b)

def execWbcast (w64 : Bool) (p : Pred) (d : Reg) (a b mask : Src) (s : State) : Host.Outcome State Fault Refusal :=
  onDev s fun dev => gatherStep dev (.wbcast w64 p d a b mask) p mask fun w t => (rdRaw w64 w t a, rd32 w t b)

/-- A floating-point constant takes the operand's format (R106). -/
def rdLane (ty : LTy) (w : Wave) (t : Thread) (a : Src) : DWord :=
  match LTy.float ty with
  | some (f, n) =>
    BitVec.ofNat 64 ((List.range n).foldl (fun r i => r + rdPart f w t a i * 2 ^ (f.bits * i)) 0)
  | none => rdRaw (LTy.n ty == 2) w t a

def execWred (op : LOp) (ty : LTy) (rm : Rm) (p : Pred) (d : Reg) (a mask : Src) (s : State) :
    Host.Outcome State Fault Refusal :=
  onDev s fun dev => gatherStep dev (.wred op ty rm p d a mask) p mask fun w t => (rdLane ty w t a, 0)

def execWscan (op : LOp) (ty : LTy) (rm : Rm) (excl : Bool) (p : Pred) (d : Reg) (a mask : Src) (s : State) :
    Host.Outcome State Fault Refusal :=
  onDev s fun dev => gatherStep dev (.wscan op ty rm excl p d a mask) p mask fun w t => (rdLane ty w t a, 0)

def execWvote (v : Vote) (q : CBit) (p : Pred) (mask : Src) (s : State) : Host.Outcome State Fault Refusal :=
  onDev s fun dev => gatherStep dev (.wvote v q p mask) p mask fun _ _ => (0, 0)

def execWmatch (w64 : Bool) (p : Pred) (d : Reg) (a mask : Src) (s : State) : Host.Outcome State Fault Refusal :=
  onDev s fun dev => gatherStep dev (.wmatch w64 p d a mask) p mask fun w t => (rdRaw w64 w t a, 0)

/-- A complete gathering of a wave delivers its results (R143). A gathering completes with its last arrival; the step is
the same at any later moment. -/
def execGatheringComplete (w k : Nat) (s : State) : Host.Outcome State Fault Refusal :=
  onDev s fun dev => modWave dev w fun x => completeGather x k

end Sys2Proof.Machine
end

