-- ==== Sys2Proof/Machine/Score.lean ====
section
/-!
DEFINITION. The registers of the wave that an instruction reads and writes, as the scoreboard sees them (R105, R108, R111).
-/

namespace Sys2Proof.Machine

/-- Consecutive registers of a wave, by the operand code of the first and their number: s0 at 128, d0 at 192 (R105). -/
abbrev RegSpan := Nat × Nat

/-- Two spans share a register. -/
def meets (a b : RegSpan) : Bool := decide (a.1 < b.1 + b.2 ∧ b.1 < a.1 + a.2)

/-- A source of `n` registers: v registers are a thread's own, inline constants are none. -/
def srcSpan (n : Nat) : Src → List RegSpan
  | .s i => [(128 + i.val, n)]
  | _ => []

def opbSpan (n : Nat) : Opb → List RegSpan
  | .src x => srcSpan n x
  | .imm _ => []

def recSpan (r : DReg) : List RegSpan := [(192 + r.val, 1)]

def dstSpan (n : Nat) : Reg → Option RegSpan
  | .s i => some (128 + i.val, n)
  | .v _ => none

/-- What an instruction reads of the wave's s and d registers (R111). -/
def reads : Instr → List RegSpan
  | .iadd t _ _ _ a b | .isub t _ _ _ a b | .imul t _ _ _ a b => srcSpan t.n a ++ opbSpan t.n b
  | .imulh _ _ _ a b => srcSpan 1 a ++ srcSpan 1 b
  | .imad t _ _ _ a b c => srcSpan t.n a ++ srcSpan t.n b ++ srcSpan t.n c
  | .imin t _ _ a b | .imax t _ _ a b => srcSpan t.n a ++ opbSpan t.n b
  | .iabs w _ _ _ a | .ineg w _ _ _ a => srcSpan (wn w) a
  | .and w _ _ a b | .or w _ _ a b | .xor w _ _ a b | .andn w _ _ a b => srcSpan (wn w) a ++ opbSpan (wn w) b
  | .not w _ _ a | .brev w _ _ a | .popc w _ _ a | .clz w _ _ a | .ctz w _ _ a => srcSpan (wn w) a
  | .shl w _ _ a b | .shr w _ _ a b | .sar w _ _ a b | .rotl w _ _ a b => srcSpan (wn w) a ++ opbSpan 1 b
  | .bfx t _ _ a b => srcSpan t.n a ++ srcSpan 1 b
  | .bfi w _ _ a b c => srcSpan (wn w) a ++ srcSpan (wn w) b ++ srcSpan 1 c
  | .permb _ _ a b c => srcSpan 1 a ++ srcSpan 1 b ++ srcSpan 1 c
  | .icmp t _ _ _ a b => srcSpan t.n a ++ opbSpan t.n b
  | .sel w _ _ _ a b => srcSpan (wn w) a ++ srcSpan (wn w) b
  | .mov w _ _ a => srcSpan w.n a
  | .movw _ a _ => srcSpan 1 a
  | .vtoc _ _ _ a | .t3pk _ _ a => srcSpan 2 a
  | .t3un _ _ _ a => srcSpan 1 a
  | .wshfl _ _ _ a b m => srcSpan 1 a ++ srcSpan 1 b ++ srcSpan 2 m
  | .wbcast w _ _ a b m => srcSpan (wn w) a ++ srcSpan 1 b ++ srcSpan 2 m
  | .wred _ t _ _ _ a m | .wscan _ t _ _ _ _ a m => srcSpan t.n a ++ srcSpan 2 m
  | .wvote _ _ _ m => srcSpan 2 m
  | .wmatch w _ _ a m => srcSpan (wn w) a ++ srcSpan 2 m
  | .fadd _ _ _ _ _ _ _ a b | .fsub _ _ _ _ _ _ _ a b | .fmul _ _ _ _ _ _ _ a b => srcSpan 1 a ++ opbSpan 1 b
  | .ffma _ _ _ _ _ _ _ _ a b c => srcSpan 1 a ++ srcSpan 1 b ++ srcSpan 1 c
  | .fmin _ _ _ _ _ a b | .fmax _ _ _ _ _ a b | .fminn _ _ _ _ _ a b | .fmaxn _ _ _ _ _ a b =>
    srcSpan 1 a ++ opbSpan 1 b
  | .fcmp _ _ _ _ _ _ a b => srcSpan 1 a ++ srcSpan 1 b
  | .fclass _ _ _ _ a | .frnd _ _ _ _ _ a => srcSpan 1 a
  | .frcp _ _ _ _ a | .frsq _ _ _ _ a | .fsqrt _ _ _ _ a => srcSpan 1 a
  | .fexp2 _ _ _ a | .flog2 _ _ _ a | .fsin _ _ _ a | .fcos _ _ _ a => srcSpan 1 a
  | .hadd2 _ _ _ _ _ _ a b | .hmul2 _ _ _ _ _ _ a b | .badd2 _ _ _ _ _ _ a b => srcSpan 1 a ++ srcSpan 1 b
  | .hmin2 _ _ _ _ a b | .hmax2 _ _ _ _ a b => srcSpan 1 a ++ srcSpan 1 b
  | .hfma2 _ _ _ _ _ _ _ a b c | .bfma2 _ _ _ _ _ _ _ a b c => srcSpan 1 a ++ srcSpan 1 b ++ srcSpan 1 c
  | .vdot8 _ _ _ _ _ _ a b c => srcSpan 1 a ++ srcSpan 1 b ++ srcSpan 1 c
  | .cvt _ ts _ _ _ _ a => srcSpan ts.n a
  | .pack2 _ _ _ _ _ _ _ a b | .okey _ _ _ _ a b => srcSpan 1 a ++ srcSpan 1 b
  | .ld _ _ _ r i j | .lock _ _ _ r i j => recSpan r ++ srcSpan 1 i ++ srcSpan 1 j
  | .st w _ c r i j => recSpan r ++ srcSpan w.n c ++ srcSpan 1 i ++ srcSpan 1 j
  | .pref _ _ r i j | .unlock _ r i j => recSpan r ++ srcSpan 1 i ++ srcSpan 1 j
  | .dld _ _ a => srcSpan 1 a
  | .dmk _ _ a b => srcSpan 4 a ++ srcSpan 4 b
  | .dget _ _ _ r => recSpan r
  | .dset _ _ d a => recSpan d ++ srcSpan 1 a
  | .atom op t _ _ r i c | .satom op t _ _ r i c => recSpan r ++ srcSpan 1 i ++ srcSpan (op.cn t) c
  | .atomn op t _ r i c => recSpan r ++ srcSpan 1 i ++ srcSpan (op.cn t) c
  | .jmpi _ a | .calli _ _ a | .ret _ a => srcSpan 2 a
  | .conv _ m => srcSpan 2 m
  | .sleep _ a => srcSpan 1 a
  | .waitv _ _ r i c => recSpan r ++ srcSpan 1 i ++ srcSpan 1 c
  | .binit _ _ _ _ r i j | .rinit _ _ _ _ _ r i j => recSpan r ++ srcSpan 1 i ++ srcSpan 1 j
  | .bexpect _ _ _ _ a | .rputPub _ _ _ _ a | .rgetRel _ _ _ _ a => srcSpan 1 a
  | .spawn _ _ a b c => srcSpan 2 a ++ srcSpan 4 b ++ srcSpan 2 c
  | .bflush _ a => (a.map (srcSpan 2)).getD []
  | .evsig _ a | .evtest _ _ a => srcSpan 1 a
  | .krsv _ _ _ a b | .kload _ _ _ a b | .kzero _ _ _ _ a b => srcSpan 1 a ++ srcSpan 1 b
  | .kswap _ _ _ a | .kfid _ _ _ a | .kdrainReg _ _ _ _ _ a => srcSpan 1 a
  | .kloop _ _ _ _ a b => srcSpan 4 a ++ srcSpan 4 b
  | .kdrainMem _ _ _ _ _ a => srcSpan 4 a
  | .skick _ _ _ r i j => recSpan r ++ srcSpan 1 i ++ srcSpan 1 j
  | .squery _ _ _ a | .scancel _ _ _ a => srcSpan 1 a
  | .gseq _ _ _ a b c => srcSpan 4 a ++ srcSpan 1 b ++ srcSpan 4 c
  | .gflat _ _ _ _ _ a b c => srcSpan 4 a ++ srcSpan 4 b ++ srcSpan 1 c
  | .gdep _ _ _ a b => srcSpan 4 a ++ srcSpan 1 b
  | .gclrPath _ _ _ a b => srcSpan 1 a ++ srcSpan 1 b
  | .gclrDest _ _ _ _ a b c => srcSpan 1 a ++ srcSpan 1 b ++ srcSpan 2 c
  | .gclrPathFree _ _ _ b | .gscan _ _ _ _ b => srcSpan 1 b
  | .gcov path _ _ _ a =>
    match path with
    | none => srcSpan 2 a
    | some b => srcSpan 1 a ++ srcSpan 1 b
  | .gblend _ _ _ a b => srcSpan 2 a ++ srcSpan 2 b
  | .gemit e _ _ _ _ =>
    match e with
    | .mem _ r i j => recSpan r ++ srcSpan 1 i ++ srcSpan 1 j
    | .enc a => srcSpan 1 a
  | .sets n _ a => srcSpan n.n a
  | .trap _ _ a => srcSpan 2 a
  | .cred _ _ _ a b | .cbcast _ _ _ a b => srcSpan 4 a ++ srcSpan 1 b
  | _ => []

/-- The s registers or the record register that an instruction writes for its wave (R108). -/
def gives : Instr → Option RegSpan
  | .iadd t _ _ d _ _ | .isub t _ _ d _ _ | .imul t _ _ d _ _ | .imad t _ _ d _ _ _ => dstSpan t.n d
  | .imulh _ _ d _ _ => dstSpan 1 d
  | .imin t _ d _ _ | .imax t _ d _ _ | .bfx t _ d _ _ => dstSpan t.n d
  | .iabs w _ _ d _ | .ineg w _ _ d _ => dstSpan (wn w) d
  | .and w _ d _ _ | .or w _ d _ _ | .xor w _ d _ _ | .andn w _ d _ _ => dstSpan (wn w) d
  | .not w _ d _ | .brev w _ d _ => dstSpan (wn w) d
  | .shl w _ d _ _ | .shr w _ d _ _ | .sar w _ d _ _ | .rotl w _ d _ _ => dstSpan (wn w) d
  | .bfi w _ d _ _ _ => dstSpan (wn w) d
  | .popc _ _ d _ | .clz _ _ d _ | .ctz _ _ d _ => dstSpan 1 d
  | .permb _ d _ _ _ => dstSpan 1 d
  | .sel w _ _ d _ _ => dstSpan (wn w) d
  | .mov w _ d _ => dstSpan w.n d
  | .movi w d _ => dstSpan (wn w) d
  | .movw d _ _ => dstSpan 2 d
  | .ctov _ _ _ d => dstSpan 2 d
  | .t3pk _ d _ => dstSpan 1 d
  | .t3un _ _ d _ => dstSpan 2 d
  | .wshfl _ _ d _ _ _ => dstSpan 1 d
  | .wbcast w _ d _ _ _ => dstSpan (wn w) d
  | .wred _ t _ _ d _ _ | .wscan _ t _ _ _ d _ _ => dstSpan t.n d
  | .wvote v _ _ _ =>
    match v with
    | .ballot d => dstSpan 2 d
    | _ => none
  | .wmatch _ _ d _ _ => dstSpan 2 d
  | .fadd _ _ _ _ _ _ d _ _ | .fsub _ _ _ _ _ _ d _ _ | .fmul _ _ _ _ _ _ d _ _ => dstSpan 1 d
  | .ffma _ _ _ _ _ _ _ d _ _ _ => dstSpan 1 d
  | .fmin _ _ _ _ d _ _ | .fmax _ _ _ _ d _ _ | .fminn _ _ _ _ d _ _ | .fmaxn _ _ _ _ d _ _ => dstSpan 1 d
  | .fclass _ _ _ d _ | .frnd _ _ _ _ d _ => dstSpan 1 d
  | .frcp _ _ _ d _ | .frsq _ _ _ d _ | .fsqrt _ _ _ d _ => dstSpan 1 d
  | .fexp2 _ _ d _ | .flog2 _ _ d _ | .fsin _ _ d _ | .fcos _ _ d _ => dstSpan 1 d
  | .hadd2 _ _ _ _ _ d _ _ | .hmul2 _ _ _ _ _ d _ _ | .badd2 _ _ _ _ _ d _ _ => dstSpan 1 d
  | .hmin2 _ _ _ d _ _ | .hmax2 _ _ _ d _ _ => dstSpan 1 d
  | .hfma2 _ _ _ _ _ _ d _ _ _ | .bfma2 _ _ _ _ _ _ d _ _ _ => dstSpan 1 d
  | .vdot8 _ _ _ _ _ d _ _ _ => dstSpan 1 d
  | .cvt td _ _ _ _ d _ => dstSpan td.n d
  | .pack2 _ _ _ _ _ _ d _ _ => dstSpan 1 d
  | .okey _ _ _ d _ _ => dstSpan 2 d
  | .ld w _ d _ _ _ => dstSpan w.n d
  | .lock _ _ d _ _ _ => dstSpan 1 d
  | .dld _ d _ | .dset _ _ d _ => some (192 + d.val, 1)
  | .dmk _ d _ _ => some (192 + d.val, 1)
  | .dget _ _ d _ => dstSpan 1 d
  | .atom _ t _ d _ _ _ | .satom _ t _ d _ _ _ => dstSpan t.n d
  | .call d _ => dstSpan 2 d
  | .calli _ d _ => dstSpan 2 d
  | .waitv _ d _ _ _ => dstSpan 1 d
  | .binit _ _ _ d _ _ _ | .rinit _ _ _ _ d _ _ _ => dstSpan 1 d
  | .barrive _ _ _ d | .bwait _ _ _ d | .bsync _ _ _ d | .bdrop _ _ _ d => dstSpan 1 d
  | .bquery _ _ _ _ d => dstSpan 4 d
  | .bexpect _ _ _ d _ | .rputPub _ _ _ d _ | .rgetRel _ _ _ d _ => dstSpan 1 d
  | .rputAcq _ _ _ d | .rgetAcq _ _ _ d | .rclose _ _ _ d => dstSpan 1 d
  | .evtest _ e _ =>
    match e with
    | .word d => dstSpan 1 d
    | .bit _ => none
  | .krsv _ _ d _ _ | .kload _ _ d _ _ => dstSpan 1 d
  | .krel _ _ d => dstSpan 1 d
  | .kswap _ _ d _ | .kfid _ _ d _ => dstSpan 1 d
  | .kloop _ _ _ d _ _ | .kzero _ _ _ d _ _ => dstSpan 1 d
  | .kdrainReg split _ _ _ d _ => dstSpan (if split then 4 else 1) d
  | .kdrainMem _ _ _ _ d _ => dstSpan 1 d
  | .kstat _ _ _ _ d => dstSpan 2 d
  | .skick _ _ d _ _ _ => dstSpan 1 d
  | .squery _ _ d _ => dstSpan 4 d
  | .scancel _ _ d _ => dstSpan 1 d
  | .gseq _ _ d _ _ _ => dstSpan 1 d
  | .gflat _ _ _ _ d _ _ _ => dstSpan 1 d
  | .gdep _ _ d _ _ | .gclrPath _ _ d _ _ | .gblend _ _ d _ _ => dstSpan 1 d
  | .gclrDest _ _ _ d _ _ _ => dstSpan 1 d
  | .gclrPathFree _ _ d _ => dstSpan 1 d
  | .gscan _ _ _ d _ => dstSpan 1 d
  | .gclrDestFree _ _ _ d | .gclipPop _ _ _ d | .gclipReset _ _ _ d => dstSpan 1 d
  | .gcov _ _ _ d _ => dstSpan 1 d
  | .gemit _ _ _ _ d => dstSpan 1 d
  | .movs n _ d => dstSpan n.n d
  | .pmc _ _ _ d => dstSpan 2 d
  | .cred _ _ d _ _ | .cbcast _ _ d _ _ => dstSpan 1 d
  | _ => none

end Sys2Proof.Machine
end

