-- ==== Sys2Proof/Machine/Issue.lean ====
section
/-!
DEFINITION. Issue: which group or clause address a quarter takes (R111 to R113), forming a group with its header checks
and waits (R94 to R100), fetching and decoding an instruction word (R116, R359), run-on (R355).
-/

namespace Sys2Proof.Machine

/-! ### Header waits (R99) -/

/-- The wait of kind `k` and index `i` is satisfied for thread `l` of wave `w`. -/
def waitOk (dev : Device) (w l k i : Nat) : Bool :=
  let x := wave dev w
  let g := wg dev x.wg
  match k with
  | 1 =>
    match NMap.find? g.bslots i, NMap.find? (thread x l).arr i with
    | some b, some ph =>
      let o := readBar dev b.loc
      o.broken || o.phase != ph
    | _, _ => true
  | 2 =>
    match NMap.find? g.rslots i with
    | some b =>
      let r := readRing dev b.loc
      decide (0 < r.filled) || r.closed || r.broken
    | none => true
  | 3 =>
    match NMap.find? g.rslots i with
    | some b =>
      let r := readRing dev b.loc
      decide (0 < r.free) || r.closed || r.broken
    | none => true
  | 4 => (ctx dev x.ctx).events.getLsbD i
  | 5 =>
    match g.kiln with
    | some kn => kn.cmds.isEmpty
    | none => true
  | 6 => x.jobs.all fun j => !jobLive (NMap.get {} dev.jobs j)
  | 7 =>
    match NMap.find? g.dests i with
    | some t => t.seqs.isEmpty
    | none => true
  | _ => true

def waitsOk (dev : Device) (w : Nat) (h : Header) (l : Nat) : Bool :=
  waitOk dev w l h.wak h.wai && waitOk dev w l h.wbk h.wbi

/-- The group would form with the thread but for what is wrong with the header: its legal waits are satisfied. DESIGN CHOICE
(log entry 12): a wait that R100 rejects holds no thread back from the fault. -/
def legalWaitsOk (dev : Device) (w : Nat) (h : Header) (l : Nat) : Bool :=
  (!waitIndexOk h.wak h.wai || waitOk dev w l h.wak h.wai) && (!waitIndexOk h.wbk h.wbi || waitOk dev w l h.wbk h.wbi)

/-- The thread's waits other than those of kind 1 are satisfied: where its wave holds the commit token, the group that
would form raises TOKEN-HOLD-WAIT for it. DESIGN CHOICE (log entry 12): a thread that its other wait holds back does not
raise it yet. -/
def otherWaitsOk (dev : Device) (w : Nat) (h : Header) (l : Nat) : Bool :=
  (h.wak == 1 || waitOk dev w l h.wak h.wai) && (h.wbk == 1 || waitOk dev w l h.wbk h.wbi)

/-- Some wait of the header is of kind 1. -/
def barrierWait (h : Header) : Bool := h.wak == 1 || h.wbk == 1

/-- The object whose event a satisfied wait has read (R231). -/
def waitObj (dev : Device) (w l k i : Nat) : Option Loc :=
  let g := wg dev (wave dev w).wg
  match k with
  | 1 => if (NMap.find? (threadAt dev w l).arr i).isSome then (NMap.find? g.bslots i).map Bind.loc else none
  | 2 => (NMap.find? g.rslots i).map Bind.loc
  | 3 => (NMap.find? g.rslots i).map Bind.loc
  | _ => none

/-- The engines whose work a satisfied wait has seen complete: the Kiln, Slip with the wave's jobs, Glaze (R99, R204). -/
def waitAgents (x : Wave) (jobCore : Nat → Nat) : Nat → List Who
  | 5 => [.kiln x.core]
  | 6 => x.jobs.map fun j => .slip (jobCore j)
  | 7 => [.glaze x.core]
  | _ => []

/-- A thread that a header's waits let pass has read an event of each of their objects, and follows what the engines have done
(R204, R231, R259). -/
def readWaits (dev : Device) (w : Nat) (h : Header) (l : Nat) : Device :=
  let d1 := ((waitObj dev w l h.wak h.wai).toList ++ (waitObj dev w l h.wbk h.wbi).toList).foldl
    (fun d o => stampRead d (.lane w l) o) dev
  let who := waitAgents (wave dev w) fun j => (NMap.get {} dev.jobs j).core
  (who h.wak ++ who h.wbk).foldl (fun d a => followsAgent d a w l) d1

/-! ### Readiness (R94) -/

/-- A resident, running thread outside every group that waits for nothing. -/
def readyAt (x : Wave) (l : Nat) : Bool :=
  let t := thread x l
  t.run == .run && t.wait == .none && (groupOf x l).isNone

/-- A thread that attempts its instruction again and has no group. -/
def againAt (x : Wave) (l : Nat) : Bool :=
  let t := thread x l
  t.run == .run && t.wait.acts && (groupOf x l).isNone

/-- The run-on limit has been reached for the wave, which is no deterministic one (R355). -/
def runOnReached (dev : Device) (x : Wave) : Bool :=
  x.first.isSome && !(launch dev x.launch).hdr.det && decide (Config.runOnLimit ≤ x.runOn)

/-- In deterministic mode, the thread has issued all the instructions of its run-on (R355, R384). -/
def spent (dev : Device) (x : Wave) (l : Nat) : Bool :=
  x.first.isSome && (launch dev x.launch).hdr.det && decide (Config.runOnLimit ≤ (thread x l).runOn)

/-- The PCs at which threads of a wave could form a group, ascending. -/
def formPcs (dev : Device) (x : Wave) : List DWord :=
  let pcs := x.threads.foldr (fun p r =>
    if (readyAt x p.1 && !spent dev x p.1) || againAt x p.1 then p.2.pc :: r else r) []
  sortBy BitVec.toNat (pcs.foldr (fun p r => if r.contains p then r else p :: r) [])

/-- The clause header at a PC as the wave's core would fetch it. -/
def headerAt (dev : Device) (x : Wave) (pc : DWord) : FRes :=
  (fetchWord dev x.core x.ctx (pcClause pc).toNat).1

/-- A group could form at a PC: some thread there attempts its instruction again, or is ready and passes the header's
waits, which a header that faults or fails its checks, and a PC inside a clause, do not hold back (R94, R96). -/
def formable (dev : Device) (w : Nat) (pc : DWord) : Bool :=
  let x := wave dev w
  let ls := NMap.keys x.threads
  ls.any (fun l => againAt x l && (thread x l).pc == pc) ||
  ls.any (fun l => readyAt x l && !spent dev x l && (thread x l).pc == pc &&
    match headerAt dev x pc with
    | .word hw =>
      let h := Header.of hw
      pcIndex pc != 0 || (if h.check != .ok () then legalWaitsOk dev w h l
        else if holdsToken dev w && barrierWait h then otherWaitsOk dev w h l else waitsOk dev w h l)
    | _ => true)

/-- The member that leads has no result yet. A gathering may need the arrival of other groups: it holds none back. -/
def Wait.late : Wait → Bool
  | .none | .hold | .sleep _ | .gather _ => false
  | _ => true

/-- The wait ends whatever else the wave does: the sectors, or the reply, of an access under way. -/
def Wait.passes : Wait → Bool
  | .atom _ | .cut | .rest _ _ _ | .chunk _ | .look _ | .retry => true
  | _ => false

/-- The instruction that a word stands for at an INDEX of a clause, for a wave (R98, R116). -/
def wordInstr (x : Wave) (h : Header) (index : Nat) (iw : DWord) : Except DErr Instr :=
  decodeWord h.cls x.regs (index == h.count) h.tail iw

/-- The registers that the instruction in which lane `l` waits has still to write for the wave, where the lane leads it
(R108, R111). -/
def lateSpan (x : Wave) (l : Nat) : Option RegSpan :=
  let t := thread x l
  let leads := match groupOf x l with
    | some g => (group x g).began && (group x g).lead == some l
    | none => t.lead
  if t.run == .run && leads && t.wait.late then
    (instOf x l).bind fun i => i.iw.bind fun iw =>
      match wordInstr x i.hdr (pcIndex (pcOf x l)) iw with
      | .ok i => gives i
      | .error _ => none
  else none

/-- The s and d registers that instructions under way outside group `g` have still to write, and the wait of each. -/
def pendingSpans (x : Wave) (g : Nat) : List (RegSpan × Wait) :=
  x.threads.filterMap fun p =>
    if groupOf x p.1 == some g then none else (lateSpan x p.1).map fun c => (c, p.2.wait)

/-- The registers `ps` that are not final hold back a word of group `y`: its instruction reads one, or writes one. DEDUCED
(log entry 65): it may write the result of a wait that it may itself have to end. -/
def heldBy (x : Wave) (y : Group) (iw : DWord) (ps : List (RegSpan × Wait)) : Bool :=
  match wordInstr x y.hdr y.index iw with
  | .error _ => false
  | .ok i => ps.any fun q => (reads i).any (meets q.1) || (q.2.passes && (gives i).any (meets q.1))

/-- The registers `ps` hold back the next instruction of group `y`. -/
def heldNext (dev : Device) (x : Wave) (y : Group) (ps : List (RegSpan × Wait)) : Bool :=
  !ps.isEmpty && !y.began &&
  match (fetchWord dev x.core x.ctx (wordAddr y.clause y.index).toNat).1 with
  | .word iw => heldBy x y iw ps
  | _ => false

/-- The scoreboard holds back the group's next instruction: an operand of it is not yet final (R111). -/
def heldByScore (dev : Device) (x : Wave) (g : Nat) (y : Group) : Bool := heldNext dev x y (pendingSpans x g)

/-- The group waits for the result of a wait that stops its thread, and stops with it. DEDUCED (log entry 65). -/
def stopsWith (dev : Device) (x : Wave) (g : Nat) (y : Group) : Bool :=
  heldNext dev x y ((pendingSpans x g).filter fun q => q.2.stops)

/-- A group's next instruction may issue: some member attempts the one under way again, or no member waits and the
scoreboard allows the next (R111, R239, R355). -/
def issuable (dev : Device) (x : Wave) (g : Nat) (y : Group) : Bool :=
  y.lanes.any (fun l => (thread x l).wait.acts) ||
  (y.lanes.all (fun l => (thread x l).wait == .none && !spent dev x l) && !heldByScore dev x g y)

/-- Some member of the group is in the middle of an instruction that is to be finished (R200, R355, R366). -/
def midway (x : Wave) (y : Group) : Bool := y.lanes.any fun l => (thread x l).wait.midway

/-! ### Selection (R112) -/

/-- What wave `w` offers its quarter. -/
def waveCands (dev : Device) (w : Nat) : List Cand :=
  let x := wave dev w
  let stop := x.limited || x.leaving.isSome || runOnReached dev x
  let may (y : Group) : Bool := !stop || midway x y || (y.began && x.leaving.isNone)
  (x.groups.foldr (fun p r =>
    if issuable dev x p.1 p.2 && may p.2 then { slot := x.slot, pc := groupPc p.2, group := some p.1 } :: r else r) []) ++
  (if stop then [] else ((formPcs dev x).filter fun pc => formable dev w pc).map fun pc =>
    { slot := x.slot, pc := pc, group := none })

/-- The waves resident on quarter `q` of a core. -/
def quarterWaves (dev : Device) (co q : Nat) : List Nat :=
  dev.waves.foldr (fun p r =>
    if p.2.live && p.2.resident && p.2.core == co && p.2.slot / 8 == q then p.1 :: r else r) []

/-- Urgency: class, then absolute deadline; none is later than every deadline (R73, R78). -/
def rankLt (a b : Nat × Option Nat) : Bool :=
  decide (a.1 < b.1) || (a.1 == b.1 && (match a.2, b.2 with
    | some m, some n => decide (m < n)
    | some _, none => true
    | none, _ => false))

def waveRank (dev : Device) (x : Wave) : Nat × Option Nat :=
  let l := launch dev x.launch
  (l.cls, l.deadline)

/-- The round-robin key of a candidate (R112). -/
def Cand.key (c : Cand) : Nat :=
  (c.slot * 2 ^ 57 + (pcClause c.pc).toNat) * 16 + pcIndex c.pc

/-- The candidate a quarter issues (R112). DESIGN CHOICE (log entry 65): of two that tie on the clock and WAVESLOT, or share
one place in the round-robin order, a group comes before a clause address, and the older group first. -/
def pickCand (dev : Device) (qs : Quarter) (ws : List (Nat × List Cand)) (elig : List (Cand × Nat)) :
    Option (Nat × Cand) :=
  let all := ws.flatMap fun p => p.2.map fun c => (p.1, c)
  let since (c : Cand) : Nat := ((elig.find? fun e => e.1 == c).map Prod.snd).getD qs.clk
  let starved := all.filter fun p => decide (since p.2 + Config.starve ≤ qs.clk)
  match minBy (fun a b : Nat × Cand =>
      decide (since a.2 < since b.2) || (since a.2 == since b.2 && decide (a.2.slot < b.2.slot))) starved with
  | some p => some p
  | none =>
    let rank (p : Nat × Cand) := waveRank dev (wave dev p.1)
    match minBy (fun a b : Nat × Cand => rankLt (rank a) (rank b)) all with
    | none => none
    | some top =>
      let peers := sortBy (fun p : Nat × Cand => p.2.key) (all.filter fun (p : Nat × Cand) => rank p == rank top)
      let after := match qs.last with
        | some c => peers.filter fun (p : Nat × Cand) => decide (c.key < p.2.key)
        | none => peers
      (after.head?).or peers.head?

/-- Add to a performance counter (R364). -/
def pmcAdd (x : Wave) (n k : Nat) : Wave :=
  { x with pmc := NMap.set 0 x.pmc n (NMap.get 0 x.pmc n + BitVec.ofNat 64 k) }

/-- Front-end clocks pass on a quarter: its waves count them, and those whose candidates did not issue count that
(R364). -/
def quarterClock (dev : Device) (ws : List (Nat × List Cand)) (chosen : Option Cand) (n : Nat) : Device :=
  ws.foldl (fun d p => modWave d p.1 fun x =>
    let y := pmcAdd x 2 n
    if p.2.any (fun c => chosen != some c) then pmcAdd y 3 n else y) dev

/-- Where a quarter's clock passes a multiple of 1,024, the pts of its waves' threads rises (R198). -/
def ptsClock (dev : Device) (ws : List Nat) (old new : Nat) : Device :=
  let n := new / 1024 - old / 1024
  if n = 0 then dev
  else ws.foldl (fun d w => modWave d w fun x =>
    { x with threads := x.threads.map fun q => (q.1, if alive q.2 then { q.2 with pts := q.2.pts + BitVec.ofNat 64 n } else q.2) }) dev

/-! ### Forming a group (R94 to R100) -/

/-- Threads park on a page fault of a fetch, in ascending WORKID; one of a clause header has TPC at INDEX 0 (R354, R359). -/
def parkAll (dev : Device) (w : Nat) (ls : List Nat) (va lv : Nat) (addr mask : DWord) (header : Bool) : Device :=
  ls.foldl (fun d l =>
    let d1 := modWave d w fun x =>
      let y := parkPage x l va 4 lv addr mask false d.parkSeq
      if header then atHeader y l else y
    { d1 with parkSeq := d1.parkSeq + 1 }) dev

/-- A group for lanes that are within instruction `i` at a PC: it goes on, with what the instruction had at its issue (R111,
R358, R366). A lane that retries a page fault is the only one of its group (R192). -/
def resumedGroup (x : Wave) (pc : DWord) (i : Issued) (ls : List Nat) (retry : Bool) : Group :=
  { clause := pcClause pc, hdr := i.hdr, index := pcIndex pc, lanes := ls, began := true
    lead := ls.find? fun l => (thread x l).lead
    iw := i.iw, s0 := i.s0, d0 := i.d0, mask := if retry then laneMask ls else i.mask, ord := i.ord }

/-- Lanes within one instruction join a group that goes on with it. -/
def resumeGroup (x : Wave) (y : Group) : Wave :=
  let z := y.lanes.foldl (fun z l => modThread z l fun t => { t with inst := none }) x
  setGroup (pmcAdd { z with nextGroup := z.nextGroup + 1 } 1 1) z.nextGroup y

/-- The lanes `agn` at a PC, each within an instruction, form a group with the first of them, of those within the same
instruction; one that retries a page fault does so alone (R192). -/
def formAgain (x : Wave) (pc : DWord) (agn : List Nat) : Wave :=
  match (agn.find? fun l => (thread x l).wait == .retry).or agn.head? with
  | none => x
  | some a =>
    match (thread x a).inst with
    | none => x
    | some i =>
      let retry := (thread x a).wait == .retry
      let ls := if retry then [a] else agn.filter fun l => (thread x l).inst == some i
      resumeGroup x (resumedGroup x pc i ls retry)

/-- Form the issue group of the selected lanes at a PC of a wave, with the checks of R100 and the waits of R99; threads
whose INDEX lies beyond the clause go to the next clause (R363). Where none of them is ready, or the header's waits hold
them all, those within an instruction go on with it (R358, R366). -/
def formGroup (dev : Device) (w : Nat) (pc : DWord) (sel : Nat → Bool) : Device :=
  let x0 := wave dev w
  let ls0 := sortBy (fun l => (thread x0 l).workid.toNat) ((NMap.keys x0.threads).filter sel)
  let ls := ls0.filter fun l => readyAt x0 l && !spent dev x0 l && (thread x0 l).pc == pc
  let goOn (d : Device) : Device :=
    modWave d w fun x => formAgain x pc (ls0.filter fun l => againAt x0 l && (thread x0 l).pc == pc)
  if !x0.live || !x0.resident || x0.limited || x0.leaving.isSome then dev
  else if ls.isEmpty then goOn dev
  else
    let clause := pcClause pc
    let (fr, d1) := fetchWord dev x0.core x0.ctx clause.toNat
    match fr with
    | .page lv => parkAll d1 w ls clause.toNat lv clause (laneMask ls) true
    | .protection => settleFatal (modWave d1 w fun x => raiseHeader x ls cPROT clause (laneMask ls)) w
    | .word hw =>
      let h := Header.of hw
      let first := pcIndex pc == 0
      match h.check with
      | .error e =>
        let ms := if first then ls.filter fun l => legalWaitsOk d1 w h l else ls
        if ms.isEmpty then goOn d1
        else settleFatal (modWave d1 w fun x => raiseHeader x ms (DErr.code e) 0 (laneMask ms)) w
      | .ok _ =>
        if h.count < pcIndex pc then
          modWave d1 w fun x => ls.foldl (fun x l => modThread x l fun t =>
            goTo t (wordAddr clause (h.count + 1))) x
        else if first && holdsToken d1 w && barrierWait h then
          let ms := ls.filter fun l => otherWaitsOk d1 w h l
          if ms.isEmpty then goOn d1
          else settleFatal (modWave d1 w fun x => raiseHeader x ms cTKHOLD 0 (laneMask ms)) w
        else
          let ms := if first then ls.filter fun l => waitsOk d1 w h l else ls
          if ms.isEmpty then goOn d1
          else
            modWave (if first then ms.foldl (fun d l => readWaits d w h l) d1 else d1) w fun x =>
              let g := x.nextGroup
              setGroup (pmcAdd { x with nextGroup := g + 1 } 1 1) g
                { clause := clause, hdr := h, index := pcIndex pc, lanes := ms }

/-! ### Issuing an instruction word (R116, R354, R355, R359) -/

/-- The next instruction of a group issues: it is counted, and takes its place in the order of issue with its GROUPMASK (R355,
R356, R364). -/
def countIssue (x : Wave) (g : Nat) : Wave :=
  let y := group x g
  let z := pmcAdd { x with issues := x.issues + 1 } 0 1
  let z1 := if x.first.isSome then
      y.lanes.foldl (fun z l => modThread z l fun t => { t with runOn := t.runOn + 1 }) { z with runOn := z.runOn + 1 }
    else z
  setGroup z1 g { y with ord := z1.issues, mask := laneMask y.lanes }

/-- The word of a group's instruction: the one it issued with, or as it is fetched (R111). -/
def groupWord (dev : Device) (x : Wave) (y : Group) : FRes × Device :=
  match y.iw with
  | some iw => (.word iw, dev)
  | none => fetchWord dev x.core x.ctx (wordAddr y.clause y.index).toNat

/-- Fetch and decode the word a group is at. A fault is raised for every member, whatever its predicate (R116). -/
def issueWord (dev : Device) (w g : Nat) : Device × Option Instr :=
  let d0 := if (group (wave dev w) g).began then dev else modWave dev w fun x => countIssue x g
  let x := wave d0 w
  let y := group x g
  let va := wordAddr y.clause y.index
  let mask := issueMask y
  let (fr, d1) := groupWord d0 x y
  match fr with
  | .page lv => (parkAll d1 w y.lanes va.toNat lv va mask false, none)
  | .protection =>
    (settleFatal (modWave d1 w fun x => raiseFaults x y.lanes cPROT (fun _ => va) 0 mask) w, none)
  | .word iw =>
    let d2 := modWave d1 w fun x => setGroup x g { y with iw := some iw }
    match wordInstr x y.hdr y.index iw with
    | .error e => (settleFatal (modWave d2 w fun x => raiseFaults x y.lanes (DErr.code e) (fun _ => 0) 0 mask) w, none)
    | .ok i => ({ d2 with cur := (w, g) }, some i)

/-- Some thread of a quarter's waves is ready (R94, R429). -/
def anyReady (dev : Device) (ws : List (Nat × List Cand)) : Bool :=
  ws.any fun p => (wave dev p.1).threads.any fun q => q.2.run == .run && !q.2.wait.stops

/-- One front-end clock of a quarter: select, and bring what it selected to execution: an instruction word of a group,
or the forming of a group at a clause address. -/
def issueQuarter (dev : Device) (co q : Nat) : Device × Option Instr :=
  let ws := (quarterWaves dev co q).map fun w => (w, waveCands dev w)
  let qs := NMap.get {} (core dev co).quarters q
  let all := ws.flatMap Prod.snd
  let elig := all.map fun c => (c, ((qs.elig.find? fun e => e.1 == c).map Prod.snd).getD qs.clk)
  let pick := pickCand dev qs ws elig
  let chosen := pick.map Prod.snd
  let d1 := ptsClock (quarterClock dev ws chosen 1) (ws.map Prod.fst) qs.clk (qs.clk + 1)
  let qs1 : Quarter :=
    { clk := qs.clk + 1, last := chosen.or qs.last, elig := elig.filter fun e => chosen != some e.1
      idle := if anyReady dev ws then 0 else qs.idle + 1 }
  let d2 := modCore d1 co fun x => { x with quarters := NMap.put x.quarters q qs1 }
  match pick with
  | none => (d2, none)
  | some (w, c) =>
    match c.group with
    | none => (d2, some (.issueGroupForm w c.pc))
    | some g => issueWord d2 w g

/-- `n` front-end clocks pass on a cluster without an issue (R114, R198). -/
def clusterClocks (dev : Device) (cl n : Nat) : Device :=
  (clusterCores cl).foldl (fun d co => (List.range 4).foldl (fun d q =>
    let ws := (quarterWaves d co q).map fun w => (w, waveCands d w)
    if ws.isEmpty then d
    else
      let qs := NMap.get {} (core d co).quarters q
      let d1 := ptsClock (quarterClock d ws none n) (ws.map Prod.fst) qs.clk (qs.clk + n)
      let elig := (ws.flatMap Prod.snd).map fun c => (c, ((qs.elig.find? fun e => e.1 == c).map Prod.snd).getD qs.clk)
      let qs1 : Quarter := { qs with clk := qs.clk + n, elig := elig, idle := if anyReady d ws then 0 else qs.idle + n }
      modCore d1 co fun x => { x with quarters := NMap.put x.quarters q qs1 }) d)
    dev

/-- TICKS advances: the HOLD of every resident wave counts down (R90, R109). -/
def timePasses (dev : Device) (n : Nat) : Device :=
  { dev with ticks := dev.ticks + n
             waves := dev.waves.map fun p => if p.2.resident then (p.1, { p.2 with hold := p.2.hold - n }) else p }

/-! ### Events of issue -/

/-- The run-on limit stops the wave's groups after their current instruction; in deterministic mode, each thread that
reached it (R355). -/
def stopRunOn (dev : Device) (w : Nat) : Device :=
  let x := wave dev w
  if x.first.isSome && (launch dev x.launch).hdr.det then
    modWave dev w fun x => x.threads.foldl (fun y p =>
      if p.2.run == .run && spent dev x p.1 && p.2.wait == .none then
        let pc := pcOf y p.1
        let y1 := match groupOf y p.1 with
          | some g => leaveLane y g p.1
          | none => y
        modThread y1 p.1 fun t => { t with run := .stopped, pc := pc }
      else y) x
  else if !runOnReached dev x then dev
  else
    modWave dev w fun x =>
      let y := x.groups.foldl (fun y p =>
        if p.2.lanes.all (fun l => (thread y l).wait == .none) then dissolveGroup y p.1 else y) x
      { y with limited := true }

/-- A thread that runs, outside every group and past every wait, stands at a clause whose header waits hold it back. -/
def headerHolds (dev : Device) (w l : Nat) : Bool :=
  let x := wave dev w
  let pc := (thread x l).pc
  match headerAt dev x pc with
  | .word hw =>
    let h := Header.of hw
    pcIndex pc == 0 && !(if h.check != .ok () then legalWaitsOk dev w h l
      else if holdsToken dev w && barrierWait h then otherWaitsOk dev w h l else waitsOk dev w h l)
  | _ => false

/-- A running thread has stopped (R355): it waits, its group waits with another's, or it stands outside every group and none
of its wave forms any more, or its clause's waits hold it back. -/
def threadStopped (dev : Device) (w l : Nat) : Bool :=
  let x := wave dev w
  let t := thread x l
  t.wait.stops ||
  match groupOf x l with
  | some g => (group x g).lanes.all (fun k => (thread x k).wait == .none) && stopsWith dev x g (group x g)
  | none => (x.limited && (t.wait == .none || t.wait.acts)) || (t.wait == .none && headerHolds dev w l)

/-- Every thread of the wave has exited or stopped (R355, R356). -/
def allStopped (dev : Device) (w : Nat) : Bool :=
  (aliveLanes (wave dev w)).all fun l => (thread (wave dev w) l).run != .run || threadStopped dev w l

end Sys2Proof.Machine
end

