-- ==== Sys2Proof/Machine/MemoryInstr.lean ====
section
/-!
DEFINITION. Class 1 without the atomics: loads, stores, PREF, LOCK, UNLOCK and the record registers (R207 to R221).
-/

namespace Sys2Proof.Machine

/-! ### Loads and stores (R213, R214) -/

/-- Bytes of an LD. -/
def LdW.bytes : LdW → Nat
  | .n8 | .i8 => 1
  | .n16 | .i16 => 2
  | .b32 => 4
  | .b64 => 8
  | .b128 => 16

def StW.bytes : StW → Nat
  | .b8 => 1
  | .b16 => 2
  | .b32 => 4
  | .b64 => 8
  | .b128 => 16

/-- The words an LD fills from its bytes (R213). -/
def LdW.out (k : LdW) (bs : List Byte) : LaneOut :=
  match k with
  | .n8 | .n16 | .b32 => out32 (BitVec.ofNat 32 (leNat bs))
  | .i8 => out32 (BitVec.ofInt 32 (sgn 8 (leNat bs)))
  | .i16 => out32 (BitVec.ofInt 32 (sgn 16 (leNat bs)))
  | .b64 => out64 (BitVec.ofNat 64 (leNat bs))
  | .b128 => { ws := (List.range 4).map fun i => BitVec.ofNat 32 (leAt bs (4 * i) 4) }

/-- The bytes an ST writes: the low bytes of its operand (R214). -/
def StW.data (k : StW) (w : Wave) (t : Thread) (c : Src) : List Byte :=
  match k with
  | .b8 | .b16 | .b32 => leBytes (StW.bytes k) (rd32 w t c).toNat
  | .b64 => leBytes 8 (rd64 w t c).toNat
  | .b128 => leBytes 16 (rd128 w t c).toNat

/-- A fault or park of a member's access; a drop or an access by what follows. -/
def onAccess (r : ARes × Device) (kind : Nat) (drop : Device → LaneRes × Device)
    (ok : Device → Nat → List (Loc × Nat) → LaneRes × Device) : LaneRes × Device :=
  match r with
  | (.fault c a, d) => (.fault c a 0, d)
  | (.page va lv a, d) => (.page va kind lv a, d)
  | (.drop, d) => drop d
  | (.at a ls, d) => ok d a ls

/-- The access of an LD. -/
def ldAcc (n : Nat) : Acc := { n := n, need := .load, kind := 1 }

/-- The access of an ST (R210 to R212). -/
def stAcc (n : Nat) : Acc := { n := n, need := .store, tokenOrder := true, objects := true, kind := 2 }

/-- What a member's access comes to: its result, or its wait for the sectors still to go (R200). -/
def afterAccess (store : Bool) (r : Done × Device) (out : List Byte → LaneOut) : LaneRes × Device :=
  match r with
  | (.whole bs, d) => (.done (out bs), d)
  | (.part ls bs, d) => (.wait (.rest store ls bs), d)

/-- A member of an LD: its checks and its read events, or those that are still to go (R200, R210, R213). -/
def ldMember (w : Nat) (k : LdW) (r : DReg) (i j : Src) (dv : Device) (x : Wave) (t : Thread) (l : Nat) :
    LaneRes × Device :=
  match t.wait with
  | .rest _ ls bs => afterAccess false (threadRead dv w l bs ls) (LdW.out k)
  | _ =>
    onAccess (checkAcc dv w (recOf (rdRec x r)) (rd32 x t i).toNat (rd32 x t j).toNat (ldAcc (LdW.bytes k))) 1
      (fun dv1 => (.done (LdW.out k (List.replicate (LdW.bytes k) 0)), dv1))
      fun dv1 _ ls => afterAccess false (threadRead dv1 w l [] ls) (LdW.out k)

def execLd (k : LdW) (p : Pred) (d : Reg) (r : DReg) (i j : Src) (s : State) : Host.Outcome State Fault Refusal :=
  onDev s fun dev => members dev p (some d) (ldMember dev.cur.1 k r i j)

/-- A member of an ST: its checks and its write events, or those that are still to go, into sectors that no object takes
meanwhile (R200, R210, R211, R214). -/
def stMember (w : Nat) (k : StW) (c : Src) (r : DReg) (i j : Src) (dv : Device) (x : Wave) (t : Thread) (l : Nat) :
    LaneRes × Device :=
  match t.wait with
  | .rest _ ls bs => afterAccess true (threadWrite dv w l ls bs) fun _ => {}
  | _ =>
    onAccess (checkAcc dv w (recOf (rdRec x r)) (rd32 x t i).toNat (rd32 x t j).toNat (stAcc (StW.bytes k))) 2
      (fun dv1 => (.done {}, dv1))
      fun dv1 _ ls => afterAccess true (threadWrite dv1 w l ls (StW.data k x t c)) fun _ => {}

def execSt (k : StW) (p : Pred) (c : Src) (r : DReg) (i j : Src) (s : State) : Host.Outcome State Fault Refusal :=
  onDev s fun dev => members dev p none (stMember dev.cur.1 k c r i j)

/-- PREF performs no event, raises no fault and never parks; it affects timing only (R215). -/
def execPref (_ : PfLvl) (p : Pred) (_ : DReg) (_ _ : Src) (s : State) : Host.Outcome State Fault Refusal :=
  aluStep s p none fun _ _ _ => {}

/-! ### Locks (R205, R206, R216 to R218) -/

/-- Half of the core's L1 lines (R205). -/
def halfL1 (c : Core) : Nat := (10 - c.split) * 4096

/-- A line that is absent, its tag an old one, holds no copies (R187). -/
def freshLine (k : Core) (line : Nat) : Core :=
  match NMap.find? k.l1 line with
  | some z => if z.tag = k.l1gen then k else { k with l1 := NMap.put k.l1 line { tag := k.l1gen } }
  | none => k

/-- Pin the line of a virtual address, physical line `pa`, on a core for wave `w` of context `c`: the status of R216. -/
def pinLine (dev : Device) (co c w line pa : Nat) : Nat × Device :=
  let k := core dev co
  match k.pins.find? fun q => q.ctx == c && q.line == line with
  | some _ =>
    let pins := k.pins.map fun q =>
      if q.ctx == c && q.line == line && !q.holders.contains w then { q with holders := q.holders ++ [w] } else q
    (1, setCore dev co { k with pins := pins })
  | none =>
    if (ctx dev c).lockq ≤ (k.pins.filter fun q => q.ctx == c).length ∨ halfL1 k ≤ k.pins.length then (2, dev)
    else (0, setCore dev co { freshLine k pa with pins := k.pins ++ [{ ctx := c, line := line, pa := pa, holders := [w] }] })

/-- Remove a wave's holding of a line (R217). -/
def unpinLine (dev : Device) (co c w line : Nat) : Device :=
  let keep (q : Pin) : Option Pin :=
    if q.ctx == c && q.line == line then
      let hs := q.holders.filter (· != w)
      if hs.isEmpty then none else some { q with holders := hs }
    else some q
  modCore dev co fun k => { k with pins := k.pins.filterMap keep }

/-- LOCK's outcome: the status and its condition bit (R216). -/
def lockOut (k : CBit) (st : Nat) : LaneOut := { ws := [BitVec.ofNat 32 st], ks := [(k, decide (st < 2))] }

def execLock (k : CBit) (p : Pred) (d : Reg) (r : DReg) (i j : Src) (s : State) : Host.Outcome State Fault Refusal :=
  onDev s fun dev => members dev p (some d) fun dv x t _ =>
    let rc := recOf (rdRec x r)
    onAccess (checkAcc dv dev.cur.1 rc (rd32 x t i).toNat (rd32 x t j).toNat (ldAcc 1)) 1
      (fun dv1 => (.done (lockOut k 4), dv1))
      fun dv1 a ls =>
        match ls with
        | (.glob pa, _) :: _ =>
          let (st, dv2) := pinLine dv1 x.core x.ctx dev.cur.1 (a / 128) (pa / 128)
          (.done (lockOut k st), dv2)
        | _ => (.done (lockOut k 3), dv1)

/-- UNLOCK runs checks 1 and 3 of R210 and does not translate (R217). -/
def execUnlock (p : Pred) (r : DReg) (i j : Src) (s : State) : Host.Outcome State Fault Refusal :=
  onDev s fun dev => members dev p none fun dv x t _ =>
    let rc := recOf (rdRec x r)
    let i := (rd32 x t i).toNat
    let j := (rd32 x t j).toNat
    let ta := BitVec.ofNat 64 (rc.addr i j)
    if !rc.valid then (.fault cRESERVED ta 0, dv)
    else match rc.form 1 i j with
      | .bounds => (.fault cBOUNDS ta 0, dv)
      | .drop => (.done {}, dv)
      | .at a => (.done {}, if rc.space = 0 then unpinLine dv x.core x.ctx dev.cur.1 (a / 128) else dv)

/-! ### Record registers (R219 to R221) -/

/-- The record a handle names: none where the handle fails (R22); the zero handle yields a zero record (R219). -/
def handleRec (c : Ctx) (h : Word) : Option (BitVec 256) :=
  if h = 0 then some 0
  else
    let e := NMap.get (0, 0, false) c.recs (bitsOf h.toNat 0 16)
    if e.2.2 && e.2.1 == bitsOf h.toNat 16 16 then some e.1 else none

/-- The member that leads this instruction: the lowest WORKID among those whose predicate held at its issue (R108). -/
def leadOf (dev : Device) (p : Pred) : Option Nat :=
  let x := wave dev dev.cur.1
  let y := group x dev.cur.2
  if y.began then y.lead else (performers x y p).head?

/-- The sector of slot `n` of a context's record table, for its timestamps: the table lies in memory that Saggar owns, which
no context addresses (R20). DESIGN CHOICE (log entry 32): its address. -/
def slotLoc (c n : Nat) : Loc := .glob (2 ^ 64 + 32 * (65536 * c + n))

def setRec (x : Wave) (d : DReg) (v : BitVec 256) : Wave := { x with d := NMap.set 0 x.d d.val v }

def execDld (p : Pred) (d : DReg) (a : Src) (s : State) : Host.Outcome State Fault Refusal :=
  onDev s fun dev =>
    let lead := leadOf dev p
    members dev p none fun dv x t l =>
      let h := rd32 x t a
      let dv1 := if h = 0 then dv else stampRead dv (.lane dev.cur.1 l) (slotLoc x.ctx (h.toNat % 65536))
      match handleRec (ctx dv x.ctx) h with
      | none => (.fault cGENERATION (h.setWidth 64) 0, dv1)
      | some v => (.done {}, if lead = some l then modWave dv1 dev.cur.1 fun z => setRec z d v else dv1)

def execDmk (p : Pred) (d : DReg) (a b : Src) (s : State) : Host.Outcome State Fault Refusal :=
  onDev s fun dev => byLead dev p fun x t _ => setRec x d (rd128 x t b ++ rd128 x t a)

def execDget (k : Fin 8) (p : Pred) (d : Reg) (r : DReg) (s : State) : Host.Outcome State Fault Refusal :=
  aluStep s p (some d) fun w _ _ => out32 ((rdRec w r).extractLsb' (32 * k.val) 32)

/-- A record with word `k` replaced (R221). -/
def putRecWord (x : BitVec 256) (k : Nat) (v : Word) : BitVec 256 :=
  (x &&& ~~~(0xFFFFFFFF#256 <<< (32 * k))) ||| (v.setWidth 256 <<< (32 * k))

def execDset (k : Fin 8) (p : Pred) (d : DReg) (a : Src) (s : State) : Host.Outcome State Fault Refusal :=
  onDev s fun dev => byLead dev p fun x t _ => setRec x d (putRecWord (rdRec x d) k.val (rd32 x t a))

end Sys2Proof.Machine
end

