-- ==== Sys2Proof/Machine/Replay.lean ====
section
/-!
DEFINITION. Record and replay (R391 to R394): asking the log about a decision.
-/

namespace Sys2Proof.Machine

/-- The slice of a global physical address (R188). -/
def sliceOf (pa : Nat) : Nat := (List.range 9).foldl (fun h i => h ^^^ bitsOf (pa % 2 ^ 52) (8 + 5 * i) 5) 0

/-- The 32 bytes of a log record (R392). -/
def logRec (kind cluster arg workid value : Nat) : List Byte :=
  leBytes 1 kind ++ leBytes 1 cluster ++ leBytes 2 0 ++ leBytes 4 arg ++ leBytes 8 workid ++ leBytes 8 value ++
  leBytes 8 0

def recKind (r : List Byte) : Nat := leAt r 0 1
def recCluster (r : List Byte) : Nat := leAt r 1 1
def recArg (r : List Byte) : Nat := leAt r 4 4
def recWorkid (r : List Byte) : Nat := leAt r 8 8
def recValue (r : List Byte) : Nat := leAt r 16 8

/-- The log's answer to a decision: it takes effect, it waits, or (in replay) it takes a value. -/
inductive LogAns
  | go
  | hold
  | value (x : Nat)
deriving DecidableEq, Repr

def modLog (dev : Device) (c : Nat) (f : LogBlock → LogBlock) : Device :=
  modCtx dev c fun x => { x with logb := f x.logb }

/-- Room for one more record, those not yet written counted: the log is full at WRIDX − RDIDX = 2^LOGLOG (R393). -/
def logRoom (b : LogBlock) (l : Launch) : Bool :=
  decide ((b.wr.toNat + b.waiting.length + 2 ^ 32 - b.rd.toNat) % 2 ^ 32 ≠ 2 ^ l.logLog)

/-- In record mode a decision's record joins those to be written; while the log is full the decision waits, and once the
log is truncated it goes on unlogged (R392, R393). -/
def recordDecision (dev : Device) (lid : Nat) (r : List Byte) : LogAns × Device :=
  let l := launch dev lid
  let b := (ctx dev l.ctx).logb
  if l.truncated then (.go, dev)
  else if logRoom b l then (.go, modLog dev l.ctx fun b => { b with waiting := b.waiting ++ [r], since := 0 })
  else (.hold, modLog dev l.ctx fun b => if b.since = 0 then { b with since := dev.ticks + 1 } else b)

/-- Record `i` of a replaying launch's log, with the device after the event that reads it. -/
def replayLoad (dev : Device) (lid i : Nat) : Option (List Byte × Device) :=
  let l := launch dev lid
  saggarLoad dev l.ctx (l.logBase + 32 * (i % 2 ^ l.logLog)) 32

/-- Record `i` as a comparison sees it: the event that reads it is that of its use. -/
def replayRec (dev : Device) (lid i : Nat) : Option (List Byte) := (replayLoad dev lid i).map Prod.fst

/-- The first record from `i` on, of the next `n`, that is not consumed and meets `q`. -/
def replayFind (dev : Device) (lid : Nat) (used : List Nat) (q : List Byte → Bool) : Nat → Nat → Option (Nat × List Byte)
  | 0, _ => none
  | n + 1, i =>
    match if used.contains i then none else replayRec dev lid i with
    | some r => if q r then some (i, r) else replayFind dev lid used q n (i + 1)
    | none => replayFind dev lid used q n (i + 1)

/-- The next record of a stream (R394). -/
def replayNext (dev : Device) (lid : Nat) (q : List Byte → Bool) : Option (Nat × List Byte) :=
  let b := (ctx dev (launch dev lid).ctx).logb
  replayFind dev lid b.used q b.end_.toNat 0

/-- The least index not consumed, from `i`, looking at most `n` on. -/
def firstUnused (used : List Nat) : Nat → Nat → Nat
  | 0, i => i
  | n + 1, i => if used.contains i then firstUnused used n (i + 1) else i

/-- A mismatch is found: REPLAY_MISMATCH acts on the first (R394). -/
def mismatch (dev : Device) (lid : Nat) (r : List Byte) : Device :=
  modLog dev (launch dev lid).ctx fun b => { b with bad := b.bad.or (some r) }

/-- The next records of the slices' streams (R394). -/
def sliceRecs (dev : Device) (lid : Nat) : List (Nat × List Byte) :=
  (List.range 32).filterMap fun h => replayNext dev lid fun r => recKind r == 3 && recCluster r == h

/-- The next record of a bin's stream (R394). -/
def binRec (dev : Device) (lid cluster entry : Nat) : Option (Nat × List Byte) :=
  if (launch dev lid).hdr.rep then
    replayNext dev lid fun r =>
      decide (recKind r = 1 ∨ recKind r = 2) && recCluster r == cluster && recValue r == entry
  else none

/-- The next records of the bins' streams (R394). -/
def binRecs (dev : Device) (lid : Nat) : List (Nat × List Byte) :=
  let b := (ctx dev (launch dev lid).ctx).logb
  (List.range b.end_.toNat).filterMap fun i =>
    match if b.used.contains i then none else replayRec dev lid i with
    | some r =>
      if decide (recKind r = 1 ∨ recKind r = 2) && binRec dev lid (recCluster r) (recValue r) == some (i, r) then some (i, r)
      else none
    | none => none

/-- The bin of the record's stream holds the thread it names: that thread has not exited. -/
def inBin (dev : Device) (lid : Nat) (r : List Byte) : Bool :=
  dev.bins.any fun b => b.ctx == (launch dev lid).ctx && b.cluster == recCluster r && b.entry.toNat == recValue r &&
    b.threads.any fun t => t.workid.toNat == recWorkid r

/-- The thread that a stream's next record names has exited, or has passed the record's ordinal, without making its decision
(R394). -/
def overdue (dev : Device) (lid : Nat) (r : List Byte) : Bool :=
  let b := (ctx dev (launch dev lid).ctx).logb
  (b.exited.contains (recWorkid r) && (recKind r == 3 || !inBin dev lid r)) ||
  (recKind r == 3 && decide (recArg r < NMap.get 0 b.performed (recWorkid r)))

/-- In replay, a stream whose next record can no longer be met is a mismatch (R394). -/
def checkNext (dev : Device) (lid : Nat) : Device :=
  if !(launch dev lid).hdr.rep then dev
  else match (sliceRecs dev lid ++ binRecs dev lid).find? fun p => overdue dev lid p.2 with
    | some (_, r) => mismatch dev lid r
    | none => dev

/-- A record is read and consumed; RDIDX passes the records consumed (R391), and the next of its stream is looked at. -/
def consumeRec (dev : Device) (lid i : Nat) : Device :=
  let d1 := ((replayLoad dev lid i).map Prod.snd).getD dev
  checkNext (modLog d1 (launch dev lid).ctx fun b =>
    let used := i :: b.used
    { b with used := used, rd := BitVec.ofNat 32 (firstUnused used used.length 0) }) lid

/-- A thread's logged read of TICKS, of ordinal `n` among its own (R392, R394). -/
def askTicks (dev : Device) (lid cluster workid n now : Nat) : LogAns × Device :=
  let l := launch dev lid
  if l.hdr.rep then
    match replayNext dev lid fun r => recKind r == 4 && recWorkid r == workid with
    | none => (.go, dev)
    | some (i, r) => if recArg r = n then (.value (recValue r), consumeRec dev lid i) else (.hold, mismatch dev lid r)
  else if l.hdr.rec_ then recordDecision dev lid (logRec 4 cluster n workid now)
  else (.go, dev)

/-- A service-wave arrival at slice `h`: instruction `n` of its kind of the thread with the lowest WORKID, at its address
(R392, R394). -/
def askArrival (dev : Device) (lid h workid n addr : Nat) : LogAns × Device :=
  let l := launch dev lid
  if l.hdr.det then (.go, dev)
  else if l.hdr.rep then
    match replayNext dev lid fun r => recKind r == 3 && recWorkid r == workid && recArg r == n &&
        (recCluster r != h || recValue r != addr) with
    | some (_, r) => (.hold, mismatch dev lid r)
    | none =>
      match replayNext dev lid fun r => recKind r == 3 && recCluster r == h with
      | none => (.go, dev)
      | some (i, r) =>
        if recWorkid r = workid then
          if recArg r = n then (.go, consumeRec dev lid i)
          else if recArg r < n then (.hold, mismatch dev lid r) else (.hold, dev)
        else (.hold, dev)
  else if l.hdr.rec_ then recordDecision dev lid (logRec 3 h n workid addr)
  else (.go, dev)

/-- A thread has performed `n` logged atomics and arrivals (R394). -/
def replayPassed (dev : Device) (lid workid n : Nat) : Device :=
  if !(launch dev lid).hdr.rep then dev
  else checkNext (modLog dev (launch dev lid).ctx fun b =>
    { b with performed := NMap.set 0 b.performed workid (max n (NMap.get 0 b.performed workid)) }) lid

/-- A thread of a replaying launch exits: a mismatch while the next record of a stream names it, a slice's, its own of TICKS,
or a bin's whose first thread it would have been (R394). -/
def replayExit (dev : Device) (lid workid : Nat) : Device :=
  if !(launch dev lid).hdr.rep then dev
  else
    let d := checkNext (modLog dev (launch dev lid).ctx fun b => { b with exited := workid :: b.exited }) lid
    match replayNext d lid fun r => recKind r == 4 && recWorkid r == workid with
    | some (_, r) => mismatch d lid r
    | none => d

/-- A bin launch by timer (kind 1) or displacement (kind 2): recorded, or in replay not made by these causes while a
record of the bin's stream remains (R394). -/
def askBin (dev : Device) (lid kind cluster count first entry : Nat) : LogAns × Device :=
  if (binRec dev lid cluster entry).isSome then (.hold, dev)
  else if (launch dev lid).hdr.rec_ then recordDecision dev lid (logRec kind cluster count first entry)
  else (.go, dev)

/-- In replay, whether a bin of `count` threads launches now: it holds the count of its stream's next record; another
first thread, or a count already beyond, is a mismatch (R394). -/
def askBinCount (dev : Device) (lid cluster count first entry : Nat) : Bool × Device :=
  match binRec dev lid cluster entry with
  | none => (false, dev)
  | some (i, r) =>
    if recWorkid r ≠ first ∨ recArg r < count then (false, mismatch dev lid r)
    else if recArg r = count then (true, consumeRec dev lid i)
    else (false, dev)

/-- A bin that no thread can enter any more, in replay, while a record of its stream remains: the launch that the record
names cannot come. DEDUCED (log entry 58): a mismatch. -/
def askDrain (dev : Device) (lid cluster entry : Nat) : Bool × Device :=
  match binRec dev lid cluster entry with
  | none => (true, dev)
  | some (_, r) => (false, mismatch dev lid r)

end Sys2Proof.Machine
end

