-- ==== Sys2Proof/Machine/Atomics.lean ====
section
/-!
DEFINITION. The atomics and their service (R222 to R228).
-/

namespace Sys2Proof.Machine

/-- Bytes of an atomic's location (R223). -/
def ATy.bytes (t : ATy) : Nat := 4 * ATy.n t

/-- The float format of an atomic type and its parts. -/
def ATy.float : ATy → Option (Fmt × Nat)
  | .f32 => some (.f32, 1)
  | .h2 => some (.f16, 2)
  | .bh2 => some (.bf16, 2)
  | _ => none

/-- The number a location holds, by type. -/
def ATy.num (t : ATy) (x : DWord) : Int :=
  match t with
  | .i32 => sgn 32 x.toNat
  | .i64 => sgn 64 x.toNat
  | _ => x.toNat

/-- The words of a value of the type. -/
def ATy.words (t : ATy) (x : DWord) : List Word := wordsRaw (ATy.n t == 2) x

/-- The number that words make, the first lowest. -/
def wordsNat (ws : List Word) : Nat := ws.foldr (fun x r => x.toNat + 2 ^ 32 * r) 0

/-- The new value from the old `o` and the operand words (R222, R226, R227). -/
def atomNew (op : AOp) (t : ATy) (o : DWord) (c : List Word) : DWord :=
  let n := 32 * ATy.n t
  let x : DWord := BitVec.ofNat 64 (wordsNat c % 2 ^ n)
  match op with
  | .exch => x
  | .cas => if o = x then BitVec.ofNat 64 (wordsNat c / 2 ^ n % 2 ^ n) else o
  | .maxix => ixOp true o x
  | .minix => ixOp false o x
  | .and => o &&& x
  | .or => o ||| x
  | .xor => o ^^^ x
  | .add =>
    match ATy.float t with
    | some (f, k) => (onParts f k (fun a b => fAddV f .rn (f.val a) (f.val b)) o x).1
    | none => BitVec.ofNat 64 ((o.toNat + x.toNat) % 2 ^ n)
  | .sub =>
    match ATy.float t with
    | some (f, k) => (onParts f k (fun a b => fAddV f .rn (f.val a) (f.val b).flip) o x).1
    | none => BitVec.ofNat 64 ((o.toNat + 2 ^ n - x.toNat) % 2 ^ n)
  | .min =>
    match ATy.float t with
    | some (f, k) => (onParts f k (fun a b => (fMinMax f false false a b, 0)) o x).1
    | none => if ATy.num t x < ATy.num t o then x else o
  | .max =>
    match ATy.float t with
    | some (f, k) => (onParts f k (fun a b => (fMinMax f true false a b, 0)) o x).1
    | none => if ATy.num t o < ATy.num t x then x else o

/-- Operand c: one value, or for cas compare and new (R222). Floating-point constants take the format (R106). -/
def atomData (op : AOp) (t : ATy) (w : Wave) (th : Thread) (c : Src) : List Word :=
  match c with
  | .k _ =>
    match ATy.float t with
    | some (f, n) =>
      let x : Word := BitVec.ofNat 32 ((List.range n).foldl (fun r i => r + rdPart f w th c i * 2 ^ (f.bits * i)) 0)
      if op = .cas then words64 (rd64 w th c) else [x]
    | none => (List.range (AOp.cn op t)).map fun i => rdQuad w th c i
  | _ => (List.range (AOp.cn op t)).map fun i => rdQuad w th c i

/-- Apply one member's operation at a place, as one atomic event: the old value (R223). -/
def atomApply (dev : Device) (who : Who) (l : Loc) (op : AOp) (t : ATy) (c : List Word) : DWord × Device :=
  let (bs, dev1) := readAt dev l (ATy.bytes t)
  let o : DWord := BitVec.ofNat 64 (leNat bs)
  (o, putBytes (stampWrite dev1 who l) l (leBytes (ATy.bytes t) (atomNew op t o c).toNat))

/-- The access of ATOM and ATOMN: space 0, the token in deterministic mode (R210 to R212, R223). -/
def atomAcc (t : ATy) : Acc :=
  { n := ATy.bytes t, need := .store, aligned := true, spaces := 1, token := true, objects := true, kind := 3 }

/-- The access of SATOM: spaces 1 and 2. -/
def satomAcc (t : ATy) : Acc :=
  { n := ATy.bytes t, need := .store, aligned := true, spaces := 6, tokenOrder := true, objects := true, kind := 3 }

def modReq (dev : Device) (k : Nat) (f : AtomReq → AtomReq) : Device :=
  { dev with svc := NMap.mod {} dev.svc k f }

/-- ATOM and ATOMN: each member's checks, then one request of those that pass, on its way to the service waves; they wait
for it (R223, R225). A member that parks performs after it (R224). -/
def atomStep (dev : Device) (op : AOp) (t : ATy) (ret : Bool) (p : Pred) (d : Reg) (r : DReg) (i c : Src) : Device :=
  let k := dev.nextId
  let q : AtomReq := { wave := dev.cur.1, op := op, ty := t, ret := ret, d := d, live := true }
  let dev1 := { dev with nextId := k + 1, svc := NMap.put dev.svc k q, cut := none }
  let dev2 := members dev1 p (if ret then some d else none) fun dv x th l =>
    onAccess (checkAcc dv dev.cur.1 (recOf (rdRec x r)) (rd32 x th i).toNat 0 (atomAcc t)) 3
      (fun dv1 => (.done { ws := if ret then ATy.words t 0 else [] }, dv1))
      fun dv1 a ls =>
        let pa := match ls with
          | (.glob pa, _) :: _ => pa
          | _ => 0
        let o : AtomOp := { lane := l, launch := th.launch, workid := th.workid, ord := th.nAtom, addr := a, pa := pa
                            data := atomData op t x th c }
        (.wait (.atom k), modThreadAt (modReq dv1 k fun q => { q with ops := q.ops ++ [o] }) dev.cur.1 l fun t =>
          { t with nAtom := t.nAtom + 1 })
  if (NMap.get {} dev2.svc k).ops.isEmpty then { dev2 with svc := NMap.erase dev2.svc k }
  else
    let y := group (wave dev dev.cur.1) dev.cur.2
    y.lanes.foldl (fun d l => modThreadAt d dev.cur.1 l fun t =>
      if t.run == .page then { t with pgReq := some k } else t) dev2

def execAtom (op : AOp) (t : ATy) (p : Pred) (d : Reg) (r : DReg) (i c : Src) (s : State) :
    Host.Outcome State Fault Refusal := onDev s fun dev => atomStep dev op t true p d r i c

def execAtomn (op : AOp) (t : ATy) (p : Pred) (r : DReg) (i c : Src) (s : State) :
    Host.Outcome State Fault Refusal := onDev s fun dev => atomStep dev op t false p (.v 0) r i c

/-- No two acting members of the instruction name the same address, as R208 forms it (R224). -/
def distinctAddrs (dev : Device) (t : ATy) (p : Pred) (r : DReg) (i : Src) : Bool :=
  let x := wave dev dev.cur.1
  let y := group x dev.cur.2
  let z := operandsOf x y
  decide ((actors x y p).filterMap fun l =>
    match (recOf (rdRec z r)).form (ATy.bytes t) (rd32 z (thread x l) i).toNat 0 with
    | .at a => some a
    | _ => none).Nodup

/-- The core whose scratchpad holds the bytes performs a SATOM (R223). Events of others come between its members only where
no address is shared (R224). -/
def execSatom (op : AOp) (t : ATy) (p : Pred) (d : Reg) (r : DReg) (i c : Src) (s : State) :
    Host.Outcome State Fault Refusal :=
  onDev s fun dev =>
    members (if distinctAddrs dev t p r i then dev else { dev with cut := none }) p (some d) fun dv x th l =>
    onAccess (checkAcc dv dev.cur.1 (recOf (rdRec x r)) (rd32 x th i).toNat 0 (satomAcc t)) 3
      (fun dv1 => (.done { ws := ATy.words t 0 }, dv1))
      fun dv1 _ ls =>
        match ls with
        | (l1, _) :: _ =>
          let (o, dv2) := atomApply dv1 (.lane dev.cur.1 l) l1 op t (atomData op t x th c)
          (.done { ws := ATy.words t o }, dv2)
        | [] => (.done {}, dv1)

/-! ### Service (R188, R224, R225) -/

/-- Every member has performed. -/
def AtomReq.performed (q : AtomReq) : Bool := q.ops.all fun o => o.old.isSome

/-- The launch's arrivals are logged (R392, R394). -/
def loggedOps (dev : Device) (ops : List AtomOp) : Bool :=
  ops.any fun o => (launch dev o.launch).hdr.rec_ || (launch dev o.launch).hdr.rep

/-- The members that the next arrival performs, of those `todo`, in ascending WORKID: those at the first one's slice, up to
the first of another slice (R188, R195); and on, as long as a member further up shares an address with one of them (R224), or,
where arrivals are logged, a slice: the instruction is one arrival there, with one record (R392). -/
def nextRun (logged : Bool) (todo : List AtomOp) : List AtomOp :=
  match todo with
  | [] => []
  | o :: r =>
    let base := o :: r.takeWhile fun u => sliceOf u.pa == sliceOf o.pa
    grow todo.length base (todo.drop base.length)
where
  /-- The run, longer by the members up to the last that belongs with it. -/
  grow : Nat → List AtomOp → List AtomOp → List AtomOp
    | 0, run, _ => run
    | n + 1, run, rest =>
      match rest.findIdx? fun u => run.any fun o => o.pa == u.pa || (logged && sliceOf o.pa == sliceOf u.pa) with
      | some i => grow n (run ++ rest.take (i + 1)) (rest.drop (i + 1))
      | none => run

/-- One member's operation is performed, after those of the members below it (R195, R224). DEDUCED (log entry 3): its event
is the issuing thread's; a request of a killed wave is performed by the service wave, its reply discarded (R194, R225). In
replay it may pass a record (R394). -/
def performOp (q : AtomReq) (st : Device × Option Nat) (o : AtomOp) : (Device × Option Nat) × AtomOp :=
  let d0 := match st.2 with
    | some k => if q.live then membersFollow st.1 q.wave k o.lane else st.1
    | none => st.1
  let who := if q.live then Who.lane q.wave o.lane else Who.svc (sliceOf o.pa)
  let (old, d1) := atomApply d0 who (.glob o.pa) q.op q.ty o.data
  ((replayPassed d1 o.launch o.workid.toNat (o.ord + 1), some o.lane), { o with old := some old })

/-- Members are performed one after another, with nothing between (R224). -/
def performOps (q : AtomReq) (st : Device × Option Nat) : List AtomOp → (Device × Option Nat) × List AtomOp
  | [] => (st, [])
  | o :: r =>
    let (st1, o1) := performOp q st o
    let (st2, r1) := performOps q st1 r
    (st2, o1 :: r1)

/-- What a decision that the log holds back leaves behind: since when it waits, and a mismatch found. -/
def logHeld (dev asked : Device) (c : Nat) : Device :=
  let b := (ctx asked c).logb
  modLog dev c fun a => { a with since := if a.since = 0 then b.since else a.since, bad := b.bad }

/-- The members of a run that are the lowest at their slice, in ascending WORKID. -/
def firstAtSlice : List AtomOp → List AtomOp
  | [] => []
  | o :: r => o :: (firstAtSlice r).filter fun u => sliceOf u.pa != sliceOf o.pa

/-- Ask the log for the arrival at each slice of the run, in the order of their events, by its lowest member there: all of them
may go, or none does and the log is as it was (R392 to R394). -/
def askRun (dev : Device) (run : List AtomOp) : Bool × Device :=
  let (go, d) := (firstAtSlice run).foldl (fun (r : Bool × Device) o =>
    if !r.1 then r
    else match askArrival r.2 o.launch (sliceOf o.pa) o.workid.toNat o.ord o.addr with
      | (.hold, d) => (false, d)
      | (_, d) => (true, d)) (true, dev)
  if go then (true, d) else (false, run.foldl (fun v o => logHeld v d (launch dev o.launch).ctx) dev)

/-- A member whose sector has been registered since its checks: a waiting thread raises the fault, and nothing is written
(R211). -/
def refuseOp (q : AtomReq) (dev : Device) (o : AtomOp) : Device :=
  if q.live then faultWait dev q.wave o.lane cOVERWRITE (BitVec.ofNat 64 o.addr) else dev

/-- An arriving request: its next run is performed, unless the log holds it back; an ATOMN's members go on (R211, R223, R224,
R393, R394). -/
def serviceReq (dev : Device) (k : Nat) : Device :=
  match NMap.find? dev.svc k with
  | none => dev
  | some q =>
    let was := q.ops.takeWhile fun o => o.old.isSome
    let todo := q.ops.drop was.length
    let run := nextRun (loggedOps dev todo) todo
    let ok := run.filter fun o => !registered dev (.glob o.pa)
    let (go, dev1) := askRun dev ok
    if run.isEmpty || !go then dev1
    else
      let ((dev2, _), now) := performOps q (dev1, was.getLast?.map AtomOp.lane) ok
      let dev3 := modReq dev2 k fun q => { q with ops := was ++ now ++ todo.drop run.length }
      let dev4 := if q.live && !q.ret then ok.foldl (fun d o => finishWait d q.wave o.lane none {}) dev3 else dev3
      let dev5 := (run.filter fun o => registered dev (.glob o.pa)).foldl (refuseOp q) dev4
      if (NMap.get {} dev5.svc k).performed && (!q.live || !q.ret || (NMap.get {} dev5.svc k).ops.isEmpty) then
        { dev5 with svc := NMap.erase dev5.svc k }
      else dev5

/-- Every reply of an ATOM has arrived: vd is written for the group (R225). -/
def replyReq (dev : Device) (k : Nat) : Device :=
  match NMap.find? dev.svc k with
  | none => dev
  | some q =>
    if !q.performed then dev
    else
      let dev1 := { dev with svc := NMap.erase dev.svc k }
      if !q.live then dev1
      else q.ops.foldl (fun d o => finishWait d q.wave o.lane (some q.d) { ws := ATy.words q.ty (o.old.getD 0) }) dev1

def execServiceWaveAtomic (k : Nat) (s : State) : Host.Outcome State Fault Refusal := onDev s fun dev => serviceReq dev k

def execAtomicReplyWrite (k : Nat) (s : State) : Host.Outcome State Fault Refusal :=
  onWaveDev s (NMap.get {} s.dev.svc k).wave fun dev => replyReq dev k

end Sys2Proof.Machine
end

