-- ==== Sys2Proof/Machine/Crypto.lean ====
section
/-!
DEFINITION. SHA-256 and RSASSA-PSS with SHA-256, MGF1 over SHA-256 and a 32-byte salt, as R433 and R435 name them.
PRESUMED (log entry 60): their definitions are those of FIPS 180-4 and RFC 8017.
-/

namespace Sys2Proof.Machine

/-! ### SHA-256 -/

/-- The low `n` bytes of `x`, highest first. -/
def beBytes (n x : Nat) : List Byte := (leBytes n x).reverse

/-- The number that bytes make, the first highest. -/
def beNat (bs : List Byte) : Nat := leNat bs.reverse

/-- No number from 2 up to `n`, exclusive, whose square is at most `p` divides `p`. -/
def noFactor (p n : Nat) : Bool := (List.range n).all fun k => decide (k < 2 ∨ p < k * k) || p % k != 0

/-- The whole part of the `k`-th root of `n`, from `r` on, bit by bit below 2^b. -/
def rootFrom (k n : Nat) : Nat → Nat → Nat
  | 0, r => r
  | b + 1, r => rootFrom k n b (if (r + 2 ^ b) ^ k ≤ n then r + 2 ^ b else r)

/-- The first 32 bits of the fraction of the `k`-th root of `p`. -/
def rootBits (k p : Nat) : Nat := rootFrom k (p * 2 ^ (32 * k)) 36 0 % 2 ^ 32

/-- The first 64 primes. -/
def shaPrimes : List Nat := (List.range 312).filter fun p => decide (2 ≤ p) && noFactor p 18

/-- The constants of the 64 rounds: of the cube roots of the first 64 primes. -/
def shaK : List Nat := shaPrimes.map (rootBits 3)

/-- The initial hash value: of the square roots of the first 8 primes. -/
def shaInit : List Nat := (shaPrimes.take 8).map (rootBits 2)

/-- Rotate a 32-bit number right. -/
def rotr (x n : Nat) : Nat := x / 2 ^ n + x * 2 ^ (32 - n) % 2 ^ 32

/-- The message schedule, latest word first, longer by `n` words. -/
def shaSchedule (w : List Nat) : Nat → List Nat
  | 0 => w
  | n + 1 =>
    let a := w.getD 1 0
    let b := w.getD 14 0
    let s1 := rotr a 17 ^^^ rotr a 19 ^^^ (a / 2 ^ 10)
    let s0 := rotr b 7 ^^^ rotr b 18 ^^^ (b / 2 ^ 3)
    shaSchedule ((s1 + w.getD 6 0 + s0 + w.getD 15 0) % 2 ^ 32 :: w) n

/-- One round on the eight working words. -/
def shaRound (v : List Nat) (kw : Nat × Nat) : List Nat :=
  match v with
  | [a, b, c, d, e, f, g, h] =>
    let s1 := rotr e 6 ^^^ rotr e 11 ^^^ rotr e 25
    let ch := (e &&& f) ^^^ ((2 ^ 32 - 1 - e) &&& g)
    let t1 := h + s1 + ch + kw.1 + kw.2
    let s0 := rotr a 2 ^^^ rotr a 13 ^^^ rotr a 22
    let maj := (a &&& b) ^^^ (a &&& c) ^^^ (b &&& c)
    [(t1 + s0 + maj) % 2 ^ 32, a, b, c, (d + t1) % 2 ^ 32, e, f, g]
  | v => v

/-- One block of 64 bytes. -/
def shaBlock (h : List Nat) (b : List Byte) : List Nat :=
  let w := (shaSchedule ((List.range 16).map fun i => beNat ((b.drop (4 * i)).take 4)).reverse 48).reverse
  (h.zip ((shaK.zip w).foldl shaRound h)).map fun p => (p.1 + p.2) % 2 ^ 32

/-- The blocks of a padded message. -/
def shaBlocks (h : List Nat) (bs : List Byte) : Nat → List Nat
  | 0 => h
  | n + 1 => shaBlocks (shaBlock h (bs.take 64)) (bs.drop 64) n

/-- The SHA-256 digest, 32 bytes. -/
def sha256 (m : List Byte) : List Byte :=
  let n := m.length
  let p := m ++ [0x80] ++ List.replicate ((119 - n % 64) % 64) 0 ++ beBytes 8 (8 * n)
  (shaBlocks shaInit p (p.length / 64)).flatMap (beBytes 4)

/-! ### RSASSA-PSS -/

/-- b ^ e mod m, for an exponent of at most `fuel` bits. -/
def powMod (b e m : Nat) : Nat → Nat
  | 0 => 1 % m
  | fuel + 1 =>
    if e = 0 then 1 % m
    else
      let h := powMod (b * b % m) (e / 2) m fuel
      if e % 2 = 1 then b * h % m else h

/-- MGF1 over SHA-256: `n` bytes. -/
def mgf1 (seed : List Byte) (n : Nat) : List Byte :=
  ((List.range ((n + 31) / 32)).flatMap fun i => sha256 (seed ++ beBytes 4 i)).take n

def xorBytes (a b : List Byte) : List Byte := (a.zip b).map fun p => p.1 ^^^ p.2

/-- The top bit of a block of 384 bytes is clear: a 3072-bit modulus encodes 3071 bits. -/
def clearTop : List Byte → List Byte
  | [] => []
  | b :: r => (b &&& 0x7F) :: r

/-- The hash of a message with its salt. -/
def pssHash (msg salt : List Byte) : List Byte := sha256 (List.replicate 8 0 ++ sha256 msg ++ salt)

/-- The encoded message of 384 bytes. -/
def pssEncode (msg salt : List Byte) : List Byte :=
  let h := pssHash msg salt
  let db := List.replicate 318 0 ++ [0x01] ++ salt
  clearTop (xorBytes db (mgf1 h 351)) ++ h ++ [0xBC]

/-- A signature of 384 bytes by the key with modulus `n` and private exponent `d`. -/
def pssSign (n d : Nat) (msg salt : List Byte) : List Byte := beBytes 384 (powMod (beNat (pssEncode msg salt)) d n 3072)

/-- A signature verifies under the key with modulus `n` and exponent `e`. -/
def pssVerify (n e : Nat) (msg sig : List Byte) : Bool :=
  let em := beBytes 384 (powMod (beNat sig) e n 3072)
  let db := clearTop (xorBytes (em.take 351) (mgf1 ((em.drop 351).take 32) 351))
  sig.length == 384 && decide (beNat sig < n) && em == pssEncode msg (db.drop 319)

/-! ### Keys -/

/-- The inverse of `a` modulo `m`, by the extended algorithm of Euclid with the remainders `r0`, `r1` and their factors. -/
def inverse (m : Nat) (r0 r1 : Nat) (t0 t1 : Int) : Nat → Nat
  | 0 => 0
  | fuel + 1 =>
    if r1 = 0 then (t0 % (m : Int)).toNat
    else inverse m r1 (r0 % r1) t1 (t0 - (r0 / r1 : Nat) * t1) fuel

/-- An RSA key: its primes and its public exponent. -/
structure RsaKey where
  p : Nat
  q : Nat
  e : Nat
deriving DecidableEq, Repr

def isPrime (p : Nat) : Bool := decide (2 ≤ p) && noFactor p p

/-- It is an RSA key with a modulus of 3,072 bits. -/
def RsaKey.ok (k : RsaKey) : Bool :=
  isPrime k.p && isPrime k.q && k.p != k.q && decide (2 ^ 3071 ≤ k.p * k.q ∧ k.p * k.q < 2 ^ 3072) &&
    decide (3 ≤ k.e ∧ k.e < k.p * k.q) && Nat.gcd k.e ((k.p - 1) * (k.q - 1)) == 1

/-- Some RSA-3072 key. -/
def someKey (e : Nat) : RsaKey := { p := 193 * 2 ^ 1528 + 1, q := 4051 * 2 ^ 1524 + 1, e := e }

/-- The key, where it is an RSA-3072 key; there is one either way. -/
def RsaKey.orSome (k : RsaKey) : RsaKey := if k.ok then k else someKey 65537

def RsaKey.modulus (k : RsaKey) : Nat := k.p * k.q

def RsaKey.private_ (k : RsaKey) : Nat :=
  let m := Nat.lcm (k.p - 1) (k.q - 1)
  inverse m m k.e 0 1 4500

/-- The Narolmid key whose public half is in the ROM (R433). UNVERIFIED (log entry 60): which key it is, the spec does not
say. -/
def romKey : RsaKey := (RsaKey.mk Config.romP Config.romQ Config.romE).orSome

/-- The device identity key: its public exponent is 65,537; its primes are the device's own (R435; log entry 60). -/
def identityKey : RsaKey := (RsaKey.mk Config.identityP Config.identityQ 65537).orSome

/-- The signature of an image verifies under the key of the ROM (R433). -/
def imageVerifies (img : List Byte) : Bool :=
  pssVerify romKey.modulus romKey.e (Config.imageSigned img) (Config.imageSignature img)

/-- The identity key's signature of an attestation report (R435, R438). -/
def attestSign (report salt : List Byte) : List Byte := pssSign identityKey.modulus identityKey.private_ report salt

end Sys2Proof.Machine
end

