-- ==== Sys2Proof/Machine/Coverage.lean ====
section
/-!
DEFINITION. The numbers of Glaze: flattening (R264), deposits (R49, R266, R267), the scan (R269), the clip product
(R51), blending (R52), RGBA8 and YUV (R280, R281).
-/

namespace Sys2Proof.Machine

/-- a / b rounded to an integer, ties to even. -/
def roundDiv (a : Int) (b : Nat) : Int :=
  let q := a / (b : Int)
  let r := a % (b : Int)
  if 2 * r < b then q else if (b : Int) < 2 * r then q + 1 else q + q % 2

/-- A point, in units of 1/256 pixel. -/
abbrev Pt := Int × Int

/-! ### Flattening (R264) -/

/-- The least n ≥ 1, at most `cap`, with `lhs` ≤ 4τn²; `cap` where there is none. -/
def flatCount (lhs tau cap : Nat) : Nat :=
  (((List.range cap).map (· + 1)).find? fun n => decide (lhs ≤ 4 * tau * n * n)).getD cap

/-- |Δ.x| + |Δ.y| of P − 2Q + R. -/
def bend (p q r : Pt) : Nat := (p.1 - 2 * q.1 + r.1).natAbs + (p.2 - 2 * q.2 + r.2).natAbs

/-- The flattened points of a quadratic. -/
def flatQuad (tau : Nat) (p0 p1 p2 : Pt) : List Pt :=
  let n := flatCount (bend p0 p1 p2) tau 128
  (List.range (n + 1)).map fun i =>
    if i = 0 then p0 else if i = n then p2
    else
      let u : Int := (n - i : Nat)
      let v : Int := i
      let at1 (a b c : Int) : Int := roundDiv (u * u * a + 2 * v * u * b + v * v * c) (n * n)
      (at1 p0.1 p1.1 p2.1, at1 p0.2 p1.2 p2.2)

/-- The flattened points of a cubic. -/
def flatCubic (tau : Nat) (p0 p1 p2 p3 : Pt) : List Pt :=
  let n := flatCount (3 * max (bend p0 p1 p2) (bend p1 p2 p3)) tau 256
  (List.range (n + 1)).map fun i =>
    if i = 0 then p0 else if i = n then p3
    else
      let u : Int := (n - i : Nat)
      let v : Int := i
      let at1 (a b c d : Int) : Int :=
        roundDiv (u * u * u * a + 3 * v * u * u * b + 3 * v * v * u * c + v * v * v * d) (n * n * n)
      (at1 p0.1 p1.1 p2.1 p3.1, at1 p0.2 p1.2 p2.2 p3.2)

/-! ### Deposit (R49, R266, R267) -/

/-- The multiples of 256 strictly between two coordinates, ascending. -/
def gridBetween (a b : Int) : List Int :=
  let lo := min a b
  let hi := max a b
  let first := lo / 256 + 1
  (List.range ((hi - 1) / 256 - first + 1).toNat).map fun i => 256 * (first + i)

/-- The quotient n / d for a divisor of either sign, rounded to an integer, ties to even. -/
def roundQuot (n d : Int) : Int := roundDiv (if d < 0 then -n else n) d.natAbs

/-- The crossings of a segment with the grid, each with its place along the segment; a computed coordinate is the exact
quotient rounded. -/
def crossings (p q : Pt) : List (Nat × Pt) :=
  let dx := q.1 - p.1
  let dy := q.2 - p.2
  let vs := (gridBetween p.1 q.1).map fun x => ((x - p.1).natAbs * dy.natAbs, (x, roundQuot (p.2 * dx + (x - p.1) * dy) dx))
  let hs := (gridBetween p.2 q.2).map fun y =>
    ((y - p.2).natAbs * max dx.natAbs 1, (roundQuot (p.1 * dy + (y - p.2) * dx) dy, y))
  sortBy Prod.fst (vs ++ hs)

/-- The points that cut a segment into pieces. A horizontal one deposits nothing and is not cut. -/
def cutPoints (p q : Pt) : List Pt :=
  if p.2 = q.2 then [p, q] else p :: ((crossings p q).map Prod.snd ++ [q])

def signed16 (n : Nat) : Int := sgn 16 n

/-- One piece into a path-tile (R49, R267). -/
def depositPiece (t : PathTile) (a b : Pt) : PathTile :=
  let col := min a.1 b.1 / 256
  let row := min a.2 b.2 / 256
  let x := col - 16 * signed16 (bitsOf t.origin.toNat 0 16)
  let y := row - 16 * signed16 (bitsOf t.origin.toNat 16 16)
  if a.2 = b.2 ∨ y < 0 ∨ 16 ≤ y ∨ 16 ≤ x then t
  else
    let i := (16 * y + max x 0).toNat
    let dc := b.2 - a.2
    let t1 := { t with cellC := NMap.set 0 t.cellC i (NMap.get 0 t.cellC i + BitVec.ofInt 24 dc) }
    if x < 0 then t1
    else
      let da := dc * ((a.1 - 256 * col) + (b.1 - 256 * col))
      { t1 with cellA := NMap.set 0 t1.cellA i (NMap.get 0 t1.cellA i + BitVec.ofInt 40 da) }

/-- Consecutive points as pieces. -/
def depositPoints (t : PathTile) : List Pt → PathTile
  | a :: b :: r => depositPoints (depositPiece t a b) (b :: r)
  | _ => t

/-- A segment (R266). -/
def depositSegment (t : PathTile) (p q : Pt) : PathTile := depositPoints t (cutPoints p q)

/-- Every segment of a flattened curve. -/
def depositCurve (t : PathTile) : List Pt → PathTile
  | a :: b :: r => depositCurve (depositSegment t a b) (b :: r)
  | _ => t

/-! ### Scan (R51, R269) -/

/-- The coverage of an area term under a fill rule. -/
def coverOf (evenOdd : Bool) (a : Int) : Nat :=
  if evenOdd then
    let m := a.natAbs % 262144
    if m ≤ 131072 then m else 262144 - m
  else min a.natAbs 131072

/-- The coverages of a row, from cell x on with the running sum of C. -/
def scanRow (t : PathTile) (y : Nat) : Nat → Nat → Int → List Nat
  | 0, _, _ => []
  | n + 1, x, acc =>
    let i := 16 * y + x
    let acc := acc + (NMap.get 0 t.cellC i).toInt
    coverOf t.desc.evenOdd (512 * acc - (NMap.get 0 t.cellA i).toInt) :: scanRow t y n (x + 1) acc

/-- The coverage of every pixel, by pixel index (R269). -/
def scanTile (t : PathTile) : List Nat := (List.range 16).flatMap fun y => scanRow t y 16 0 0

/-- The coverage value of a clip plane's word (R258). -/
def planeCover (w : Nat) : Nat := min (bitsOf w 0 18) 131072

/-- The clip product (R51). -/
def clipProduct (a b : Nat) : Nat := (roundDiv ((a * b : Nat) : Int) (2 ^ 17)).toNat

/-! ### Blending (R52) -/

/-- The value of FP32 bits. -/
def f32v (x : Nat) : FVal := Fmt.val .f32 x

/-- One channel: FP16 bits of dst, of the source channel and of the source alpha, and the coverage. -/
def blendChannel (dst src alpha k : Nat) : Nat :=
  if k = 0 then dst
  else
    let cov : FVal := .fin false k (-17)
    let t := (fMulV .f32 .rn (Fmt.val .f16 alpha) cov).1
    let f := (fAddV .f32 .rn (.fin false 1 0) (f32v t).flip).1
    let s := (fMulV .f32 .rn (Fmt.val .f16 src) cov).1
    (cvtFF .f32 .f16 .rn false (fFmaV .f32 .rn (Fmt.val .f16 dst) (f32v f) (f32v s)).1).1

/-- A pixel's 64 bits: four channels, R lowest (R258). -/
def blendPixel (dst src k : Nat) : Nat :=
  (List.range 4).foldl (fun r i =>
    r + blendChannel (bitsOf dst (16 * i) 16) (bitsOf src (16 * i) 16) (bitsOf src 48 16) k * 2 ^ (16 * i)) 0

/-! ### Output (R280, R281) -/

/-- clamp(v, 0, 1) × n of an FP16 channel, rounded to an integer, ties to even; NaN gives 0. -/
def unitTimes (x n : Nat) : Nat :=
  match Fmt.val .f16 x with
  | .nan => 0
  | .inf neg => if neg then 0 else n
  | .fin neg m e => if neg then 0 else min n (roundAt .rn false (n * m) e 0)

/-- RGBA8 of a pixel, R lowest (R280, R290). -/
def rgba8 (px : Nat) : List Byte := (List.range 4).map fun i => BitVec.ofNat 8 (unitTimes (bitsOf px (16 * i) 16) 255)

/-- r, g, b of a pixel (R281). -/
def rgbOf (px : Nat) : Int × Int × Int :=
  let c (i : Nat) : Int := unitTimes (bitsOf px (16 * i) 16) 65536
  (c 0, c 1, c 2)

def lumaNum (c : Int × Int × Int) : Int := 6967 * c.1 + 23435 * c.2.1 + 2366 * c.2.2
def uNum (c : Int × Int × Int) : Int := -3754 * c.1 - 12630 * c.2.1 + 16384 * c.2.2
def vNum (c : Int × Int × Int) : Int := 16384 * c.1 - 14882 * c.2.1 - 1502 * c.2.2

/-- A luma sample from Yf × 2^31. -/
def lumaSample (d : Nat) (full : Bool) (n : Int) : Nat :=
  if full then (roundDiv (n * ((2 ^ d - 1 : Nat) : Int)) (2 ^ 31)).toNat
  else (16 * 2 ^ (d - 8) + roundDiv (n * ((219 * 2 ^ (d - 8) : Nat) : Int)) (2 ^ 31)).toNat

/-- A chroma sample from the sum of a block's four values × 2^31. -/
def chromaSample (d : Nat) (full : Bool) (n : Int) : Nat :=
  let m : Int := ((2 ^ d - 1 : Nat) : Int)
  let mid : Int := ((2 ^ (d - 1) : Nat) : Int)
  if full then (clampI 0 m (mid + roundDiv (n * m) (2 ^ 33))).toNat
  else (mid + roundDiv (n * ((224 * 2 ^ (d - 8) : Nat) : Int)) (2 ^ 33)).toNat

/-- A tile's samples: 256 luma, 64 of each chroma plane (R281). -/
def yuvTile (d : Nat) (full : Bool) (px : List Nat) : List Nat :=
  let cs := px.map rgbOf
  let block (f : Int × Int × Int → Int) (i : Nat) : Int :=
    let x := 2 * (i % 8)
    let y := 2 * (i / 8)
    [16 * y + x, 16 * y + x + 1, 16 * y + x + 16, 16 * y + x + 17].foldl (fun r j => r + f (cs.getD j (0, 0, 0))) 0
  (cs.map fun c => lumaSample d full (lumaNum c)) ++
  ((List.range 64).map fun i => chromaSample d full (block uNum i)) ++
  (List.range 64).map fun i => chromaSample d full (block vNum i)

end Sys2Proof.Machine
end

