-- ==== Sys2Proof/Machine/Engines.lean ====
section
/-!
DEFINITION. What Slip and the Kiln share: the job card (R291 to R293), the footprints of jobs and commands, the edges
the Wheel derives from them (R202, R301, R323), an engine's access to an element (R208, R209, R298), and the fixed-point
value of a storage element (R32 to R34).
-/

namespace Sys2Proof.Machine

/-! ### The card (R291, R292) -/

structure Card where
  kind : Nat
  dring : Bool
  bar : Bool
  barrier : Nat
  c0 : Nat
  c1 : Nat
  si0 : Nat
  si1 : Nat
  di0 : Nat
  di1 : Nat
  srec : Rec
  drec : Rec
  ring : Nat
  scale : Nat
  index : Nat
deriving DecidableEq, Repr

def Job.num (j : Job) (off n : Nat) : Nat := leNat (Memory.bytes j.card off n)

def Job.parse (j : Job) : Card :=
  { kind := j.num 0 1, dring := bitsOf (j.num 1 1) 1 1 == 1, bar := bitsOf (j.num 1 1) 0 1 == 1
    barrier := j.num 4 4, c0 := j.num 8 4, c1 := j.num 0x0C 4, si0 := j.num 0x10 4, si1 := j.num 0x14 4
    di0 := j.num 0x18 4, di1 := j.num 0x1C 4
    srec := recOf (BitVec.ofNat 256 (j.num 0x20 32)), drec := recOf (BitVec.ofNat 256 (j.num 0x40 32))
    ring := j.num 0x60 4, scale := j.num 0x64 4, index := j.num 0x68 4 }

/-- Source and destination element sizes; with DRING the destination format is the source's (R440). -/
def Card.se (c : Card) : Nat := (fmtSize c.srec.fmt).getD 1
def Card.de (c : Card) : Nat := if c.dring then c.se else (fmtSize c.drec.fmt).getD 1

/-- Bytes a unit delivers, and a count (R293). -/
def Card.unitBytes (c : Card) : Nat :=
  match c.kind with
  | 3 => 320
  | 4 => 4096
  | _ => c.de
def Card.countBytes (c : Card) : Nat := if c.kind ≤ 2 then c.c0 * c.de else c.unitBytes
def Card.total (c : Card) : Nat := c.c0 * c.c1 * c.unitBytes

/-- Activations per element: two for INT4 (R295). -/
def Card.per (c : Card) : Nat := if c.srec.fmt = 0x18 then 2 else 1

/-- K index of element 0 of vector `i` (R295). -/
def Card.kBase (c : Card) (i : Nat) : Nat := c.si0 * c.per + 128 * i

/-- The source elements unit (i, j) reads, as index 0, index 1 and bytes; `x` is X[i] (R293, R295, R296). -/
def Card.sources (c : Card) (i j x : Nat) : List (Nat × Nat × Nat) :=
  let inRow (ks : List Nat) : List Nat := ks.filter fun k => decide (k < c.srec.ext0)
  match c.kind with
  | 1 => [(x, c.si1 + j, c.se)]
  | 3 => (inRow ((List.range (128 / c.per)).map fun e => c.kBase i / c.per + e)).map fun k => (k, c.si1 + j, 1)
  | 4 => (inRow ((List.range 128).map fun n => c.si0 + 128 * i + n)).map fun k => (k, c.si1 + j, 26)
  | _ => [(c.si0 + i, c.si1 + j, c.se)]

/-- The destination element of unit (i, j). -/
def Card.dest (c : Card) (i j x : Nat) : Nat × Nat × Nat :=
  (if c.kind = 2 then x else c.di0 + i, c.di1 + j, c.unitBytes)

/-- Index 0 of the source at which unit (i, j) stands (R305). -/
def Card.sourceIndex (c : Card) (i x : Nat) : Nat :=
  match c.kind with
  | 1 => x
  | 3 => c.kBase i / c.per
  | 4 => c.si0 + 128 * i
  | _ => c.si0 + i

/-- The index word X[i] as it stands in the kicker's scratchpad (R293). -/
def indexWord (dev : Device) (j : Job) (c : Card) (i : Nat) : Nat :=
  if c.kind = 1 ∨ c.kind = 2 then leNat (getBytes dev (.scr j.wg (c.index + 4 * i)) 4) else 0

/-! ### Accesses of an engine -/

/-- Where a sector of an element lies for an engine: its place, a drop, or why it stops (R208, R209, R298). -/
inductive ERes
  | at (ls : List (Loc × Nat))
  | drop
  | stop (code : Nat)
  | page (va level : Nat)
deriving DecidableEq, Repr

/-- The sectors of an element before translation: virtual, or placed in a scratchpad; or why there are none. -/
inductive EForm
  | va (ls : List (Nat × Nat))
  | placed (ls : List (Loc × Nat))
  | drop
  | stop (code : Nat)
deriving DecidableEq, Repr

def elemForm (dev : Device) (g : Nat) (r : Rec) (i j n : Nat) : EForm :=
  match r.form n i j with
  | .bounds => .stop cBOUNDS
  | .drop => .drop
  | .at a =>
    if r.space = 0 then
      if 2 ^ 57 ≤ a then .stop cPROT else .va (sectorSpans a n)
    else match spaceLoc dev g r.space a n with
      | some ls => .placed ls
      | none => .stop cPROT

/-- Sector number `k` of an element, for an access from core `co`; no place once every sector is behind (R298). -/
def sectorAt (dev : Device) (co c : Nat) (need : Need) (f : EForm) (k : Nat) : ERes × Device :=
  match f with
  | .drop => (.drop, dev)
  | .stop code => (.stop code, dev)
  | .placed ls => (.at ((ls.drop k).take 1), dev)
  | .va ls =>
    match translateSpans dev co c need ((ls.drop k).take 1) with
    | (.ok ps, d) => (.at ps, d)
    | (.error (va, .page lv), d) => (.page va lv, d)
    | (.error _, d) => (.stop cPROT, d)

/-- Sectors of an element, and the bytes before sector number `k`. -/
def EForm.count : EForm → Nat
  | .va ls => ls.length
  | .placed ls => ls.length
  | _ => 0

/-- The element has sectors to access. -/
def EForm.accesses : EForm → Bool
  | .va _ | .placed _ => true
  | _ => false

def EForm.before (f : EForm) (k : Nat) : Nat :=
  match f with
  | .va ls => ((ls.take k).map Prod.snd).sum
  | .placed ls => ((ls.take k).map Prod.snd).sum
  | _ => 0

/-! ### Footprints (R301, R323) -/

/-- The sectors of an element, for a footprint: none where it is dropped, out of bounds or does not translate. -/
def elemSectors (dev : Device) (g c : Nat) (r : Rec) (need : Need) (i j n : Nat) : List Loc :=
  match r.form n i j with
  | .at a =>
    if r.space = 0 then
      match directSpans dev c need (sectorSpans a n) with
      | .ok ls => ls.map fun l => l.1.sector
      | .error _ => []
    else ((spaceLoc dev g r.space a n).getD []).map fun l => l.1.sector
  | _ => []

/-- The sectors of a record's whole extent. -/
def extentSectors (dev : Device) (g c : Nat) (r : Rec) (need : Need) : List Loc :=
  (List.range r.ext1).flatMap fun j => (List.range r.ext0).flatMap fun i =>
    elemSectors dev g c r need i j ((fmtSize r.fmt).getD 1)

/-- The sectors of scratchpad bytes. -/
def scrSectors (g a n : Nat) : List Loc := (sectorSpans a n).map fun s => (Loc.scr g s.1).sector

/-- The units a job has still to perform, in order (R293), without one that only has its count to close (R298). -/
def Job.rest (j : Job) (c : Card) : List (Nat × Nat) :=
  ((List.range c.c1).flatMap fun b => (List.range c.c0).map fun a => (a, b)).filter fun u =>
    decide (j.j < u.2) || (u.2 == j.j && (decide (j.i < u.1) || (u.1 == j.i && !j.full)))

/-- The remaining read footprint of a job. -/
def jobReads (dev : Device) (j : Job) : List Loc :=
  let c := j.parse
  (if c.kind = 1 ∨ c.kind = 2 then scrSectors j.wg c.index (4 * c.c0) else []) ++
  (if c.kind = 1 then extentSectors dev j.wg j.ctx c.srec .load
    else (j.rest c).flatMap fun u => (c.sources u.1 u.2 (indexWord dev j c u.1)).flatMap fun e =>
      elemSectors dev j.wg j.ctx c.srec .load e.1 e.2.1 e.2.2)

/-- The space through which the ring in a sector was registered: BASE is an offset in it (R230, R244). -/
def ringSpace (dev : Device) (l : Loc) : Nat := ((objAt dev l).map Obj.space).getD 1

/-- The places of `n` bytes at an offset of the space of the ring at `l`, for workgroup `g`. -/
def ringPlace (dev : Device) (g : Nat) (l : Loc) (off n : Nat) : Option (List (Loc × Nat)) :=
  spaceLoc dev g (ringSpace dev l) off n

/-- The remaining write footprint of a job; with a ring, its slots (R301). -/
def jobWrites (dev : Device) (j : Job) : List Loc :=
  let c := j.parse
  if c.dring then
    let l := Loc.scr j.wg c.ring
    let r := readRing dev l
    ((ringPlace dev j.wg l r.base (r.nslots * r.slotsz)).getD []).map fun p => p.1.sector
  else if c.kind = 2 then extentSectors dev j.wg j.ctx c.drec .store
  else (j.rest c).flatMap fun u =>
    let e := c.dest u.1 u.2 (indexWord dev j c u.1)
    elemSectors dev j.wg j.ctx c.drec .store e.1 e.2.1 e.2.2

/-- Members of a mask of `n` bits, ascending. -/
def maskList (n m : Nat) : List Nat := (List.range n).filter fun i => bitsOf m i 1 == 1

def KCmd.an (k : KCmd) (i : Nat) : Nat := (k.a.getD i 0).toNat
def KCmd.bn (k : KCmd) (i : Nat) : Nat := (k.b.getD i 0).toNat
def KCmd.steps (k : KCmd) : Nat := bitsOf (k.an 3) 16 16
def KCmd.macros (k : KCmd) : List Nat := maskList 8 (bitsOf (k.an 3) 8 8)
def KCmd.groups (k : KCmd) : List Nat := maskList 6 (bitsOf (k.an 3) 0 6)
def KCmd.ringMode (k : KCmd) : Bool := bitsOf (k.bn 0) 31 1 == 1
def KCmd.size (k : KCmd) : Nat := if k.split then 16 else 4

/-- Offset of the vector of step `s` at rank `q` in direct mode (R326). -/
def KCmd.vecAt (k : KCmd) (s q : Nat) : Nat := k.bn 0 + (s * k.groups.length + q) * k.bn 1
/-- Offset of the weight scale of (g, m) at step `s` (R326). -/
def KCmd.scaleAt (k : KCmd) (s g m : Nat) : Int :=
  (k.bn 2 : Int) + 4 * ((8 * g + m : Nat) : Int) + s * sgn 32 (k.bn 3)

/-- The remaining read footprint of a Kiln command of workgroup `g`, from step `s` on (R323). -/
def cmdReads (g s : Nat) (k : KCmd) : List Loc :=
  match k.op with
  | 1 => scrSectors g (k.an 0) (4096 * (maskList 8 (bitsOf (k.bn 0) 8 8)).length)
  | 3 => (List.range k.steps).flatMap fun t =>
      if t < s then []
      else
        (if k.ringMode then []
          else (List.range k.groups.length).flatMap fun q => scrSectors g (k.vecAt t q) 320) ++
        k.groups.flatMap fun gr => k.macros.flatMap fun m => scrSectors g (k.scaleAt t gr m).toNat 4
  | _ => []

/-- The write footprint of a Kiln command. -/
def cmdWrites (g : Nat) (k : KCmd) : List Loc :=
  if k.op = 4 then scrSectors g (k.an 2) (k.size * k.an 1) else []

/-- Two footprints have a sector in common. -/
def meet (xs ys : List Loc) : Bool := xs.any fun x => ys.contains x

/-- Earlier work with remaining footprints `r` and `w` holds back an access that reads and writes these sectors. -/
def conflict (r w reads writes : List Loc) : Bool := meet w reads || meet w writes || meet r writes

/-- Bytes a chunk delivers to each member (R413). -/
def Chunk.bytes (k : Chunk) : Nat := k.n * (fmtSize (if k.bcast then k.pfmt else k.dfmt)).getD 1

/-- An edge to earlier work of the context, kicked before `order`, holds back an access with these sectors (R202). -/
def heldBack (dev : Device) (c order : Nat) (reads writes : List Loc) : Bool :=
  (dev.jobs.any fun p => p.2.ctx == c && jobLive p.2 && decide (p.2.order < order) &&
    conflict (jobReads dev p.2) (jobWrites dev p.2) reads writes) ||
  (dev.chunks.any fun p => p.2.ctx == c && p.2.live && decide (p.1 < order) &&
    conflict (p.2.todo.map fun s => s.1.sector) (scrSectors p.2.wg p.2.dst (Chunk.bytes p.2)) reads writes) ||
  dev.wgs.any fun p => p.2.ctx == c &&
    match p.2.kiln with
    | none => false
    | some kn => kn.cmds.any fun k => decide (k.order < order) &&
        conflict (cmdReads p.1 (if kn.started && kn.cmds.head? == some k then kn.posS else 0) k) (cmdWrites p.1 k)
          reads writes

/-! ### Storage elements (R32 to R34, R294) -/

/-- The CVT format of a record's FORMAT code. -/
def cvtTy (f : Nat) : Option CTy :=
  match f with
  | 0x08 => some .i8
  | 0x09 => some .i16
  | 0x0A => some .i32
  | 0x0B => some .i64
  | 0x0C => some .n8
  | 0x0D => some .n16
  | 0x0E => some .n32
  | 0x0F => some .n64
  | 0x10 => some .f32
  | 0x11 => some .f16
  | 0x12 => some .bf16
  | 0x13 => some .e4m3
  | _ => none

/-- An E5M2 code as FP16: its infinity codes are read as ±57344 (R33). -/
def e5m2AsF16 (x : Nat) : Nat := if bitsOf x 0 7 = 0x7C then bitsOf x 7 1 * 0x8000 + 0x7B00 else x % 256 * 256

/-- The number an integer format's bits stand for. -/
def CTy.intOf (c : CTy) (x : Nat) : Int :=
  if CTy.signed c then sgn (CTy.width c) x else (x % 2 ^ CTy.width c : Nat)

/-- Convert an element as CVT does with .rn and without .sat (R294). -/
def convElem (sf df x : Nat) : Nat :=
  let (src, x) : Option CTy × Nat := if sf = 0x14 then (some .f16, e5m2AsF16 x) else (cvtTy sf, x)
  match src, cvtTy df with
  | some s, some d =>
    match CTy.fmt d, CTy.fmt s with
    | some fd, some fs => (cvtFF fs fd .rn false x).1
    | some fd, none => (cvtIF fd .rn false (CTy.intOf s x)).1
    | none, some fs => wrapN (CTy.width d) (cvtFI fs .rn (CTy.lo d) (CTy.hi d) x).1
    | none, none => wrapN (CTy.width d) (CTy.intOf s x)
  | _, _ => x

/-- An activation element as sign and magnitude in units: none where it is NaN, some none where it is out of range
(R32 to R34, R45). -/
def activation (fmt half x : Nat) : Option (Option (Bool × Nat)) :=
  match fmt with
  | 0x08 => let v := sgn 8 x; some (some (decide (v < 0), v.natAbs))
  | 0x18 => let v := sgn 4 (bitsOf x (4 * half) 4); some (some (decide (v < 0), v.natAbs))
  | _ =>
    match if fmt = 0x14 then Fmt.val .f16 (e5m2AsF16 x) else Fmt.val .e4m3 x with
    | .nan => none
    | .inf _ => some none
    | .fin neg m e =>
      if m = 0 then some (some (neg, 0))
      else
        let e9 := e + 9
        let ok := decide (0 ≤ e9) || m % 2 ^ (-e9).toNat == 0
        let mag := roundAt .rz false m e9 0
        if ok && decide (mag < 2 ^ 18) then some (some (neg, mag)) else some none

end Sys2Proof.Machine
end

