-- ==== Sys2Proof/Machine/Slip.lean ====
section
/-!
DEFINITION. Class 5 and the jobs it kicks (R291 to R306, R440): SKICK, SQUERY, SCANCEL; the issue, the units and the end
of a Slip job.
-/

namespace Sys2Proof.Machine

def job (dev : Device) (id : Nat) : Job := NMap.get {} dev.jobs id
/-- Change a job there is. -/
def modJob (dev : Device) (id : Nat) (f : Job → Job) : Device :=
  match NMap.find? dev.jobs id with
  | some j => { dev with jobs := NMap.put dev.jobs id (f j) }
  | none => dev

/-! ### SKICK (R303, R304) -/

/-- The workgroups whose scratchpad the rest of a job touches (R301, R302). -/
def jobPads (dev : Device) (j : Job) : List Nat :=
  let c := j.parse
  (if c.bar || c.dring then [j.wg] else []) ++ (jobReads dev j ++ jobWrites dev j).filterMap fun l =>
    match l with
    | .scr g _ => some g
    | .glob _ => none

/-- The wholly evicted workgroup that a job is saved with: of those whose scratchpad it touches, the kicker's where it is among
them (R302). -/
def jobHome (dev : Device) (j : Job) : Option Nat :=
  let out := (jobPads dev j).filter fun g => (NMap.find? dev.wgs g).any fun x => !x.resident
  if out.contains j.wg then some j.wg else out.head?

/-- Whether a job runs: one that touches the scratchpad of an evicted workgroup pauses, saved with that (R302). -/
def jobRuns (dev : Device) (j : Job) : Bool := (jobHome dev j).isNone

/-- Jobs a core's Slip holds: none that is saved with a workgroup (R297, R302). -/
def coreJobs (dev : Device) (co : Nat) : List Job :=
  dev.jobs.foldr (fun p r => if p.2.core == co && jobLive p.2 && jobRuns dev p.2 then p.2 :: r else r) []

/-- A registered barrier or ring stands at a scratchpad offset. -/
def objNamed (dev : Device) (g off : Nat) (ring : Bool) : Bool :=
  off % 32 == 0 &&
  match objAt dev (.scr g off) with
  | some o => o.ring == ring
  | none => false

/-- The job names the barrier and the ring of its card that are registered, so that they stay so (R230). -/
def nameObjects (dev : Device) (j : Job) : Device :=
  let c := j.parse
  let name (d : Device) (off : Nat) (ring : Bool) : Device :=
    let l := Loc.scr j.wg off
    if objNamed d j.wg off ring && !((objAt d l).any fun o => o.eng.contains j.id) then engName d l j.id else d
  let d1 := if c.bar then name dev c.barrier false else dev
  if c.dring then name d1 c.ring true else d1

/-- Kick a card: the kick register and the job ID (R304). -/
def kickJob (dev : Device) (w l : Nat) (card : List Byte) : Nat × Device :=
  let x := wave dev w
  let co := core dev x.core
  let id := 2 ^ 24 * x.core + co.kicks % 2 ^ 24
  let j : Job := { id := id, ctx := x.ctx, wg := x.wg, wave := w, card := Memory.putBytes [] 0 card, core := x.core
                   order := dev.nextId, state := 1 }
  let d1 := setCore { dev with nextId := dev.nextId + 1, jobs := NMap.put dev.jobs id j } x.core
    { co with kicks := co.kicks + 1, kick := BitVec.ofNat 64 (2 ^ 32 * id + x.ctx) }
  let d2 := nameObjects (modWave d1 w fun y => { y with jobs := id :: y.jobs }) j
  (id, agentFollows d2 (.slip x.core) w l)

/-- The card has been read: it is kicked, or waits for room (R303). -/
def tryKick (dev : Device) (w l : Nat) (k : CBit) (card : List Byte) : LaneRes × Device :=
  if 64 ≤ (coreJobs dev (wave dev w).core).length then (.wait (.kick card), dev)
  else
    let (id, d) := kickJob (kickAfter dev w l) w l card
    (.done { ws := [BitVec.ofNat 32 id], ks := [(k, true)] }, d)

/-- The reading of the card, whole or cut off (R200, R303). -/
def afterCard (w l : Nat) (k : CBit) (r : Done × Device) : LaneRes × Device :=
  match r with
  | (.whole card, d) => tryKick d w l k card
  | (.part ls bs, d) => (.wait (.rest false ls bs), d)

/-- A member of a SKICK (R303). -/
def skickMember (w : Nat) (k : CBit) (r : DReg) (i j : Src) (dv : Device) (x : Wave) (t : Thread) (l : Nat) :
    LaneRes × Device :=
  match t.wait with
  | .kick card => tryKick dv w l k card
  | .rest _ ls bs => afterCard w l k (threadRead dv w l bs ls)
  | _ =>
    let rc := recOf (rdRec x r)
    let a0 := rc.addr (rd32 x t i).toNat (rd32 x t j).toNat
    onAccess (checkAcc dv w rc (rd32 x t i).toNat (rd32 x t j).toNat (ldAcc 128)) 1
      (fun dv1 => (.done { ws := [0], ks := [(k, false)] }, dv1))
      fun dv1 a ls =>
        if a % 32 != 0 then (.fault cPROT (BitVec.ofNat 64 a0) 0, dv1)
        else afterCard w l k (threadRead dv1 w l [] ls)

def execSkick (k : CBit) (p : Pred) (d : Reg) (r : DReg) (i j : Src) (s : State) : Host.Outcome State Fault Refusal :=
  onDev s fun dev => members dev p (some d) (skickMember dev.cur.1 k r i j)

/-! ### Issue (R297) -/

/-- The format rules of R294, R295 and R440. -/
def Card.formatsOk (c : Card) : Bool :=
  let s := c.srec.fmt
  match c.kind with
  | 3 => (s == 0x13 || s == 0x14 || s == 0x08 || s == 0x18) && (c.dring || c.drec.fmt == 0x21)
  | 4 => s == 0x20 && (c.dring || c.drec.fmt == 0x22)
  | _ => c.dring || s == c.drec.fmt || (((cvtTy s).isSome || s == 0x14) && (cvtTy c.drec.fmt).isSome)

/-- Check 1 of R297. -/
def fieldsOk (dev : Device) (j : Job) : Bool :=
  let c := j.parse
  decide (c.kind ≤ 4) && bitsOf (j.num 1 1) 2 6 == 0 && j.num 2 2 == 0 && (c.bar || c.barrier == 0) &&
  (c.dring || c.ring == 0) && (c.kind == 3 || c.scale == 0) && (c.kind == 1 || c.kind == 2 || c.index == 0) &&
  j.num 0x6C 20 == 0 && (!c.dring || (j.num 0x40 32 == 0 && c.di0 == 0 && c.di1 == 0)) &&
  (c.kind != 1 || c.si0 == 0) && (c.kind != 2 || c.di0 == 0) && c.srec.valid && (c.dring || c.drec.valid) &&
  c.formatsOk && decide (c.total < 2 ^ 32) &&
  (!(c.kind == 1 || c.kind == 2) || (c.index % 4 == 0 && decide (c.index + 4 * c.c0 ≤ (wg dev j.wg).scratch)))

/-- A tracked record's handle is valid (R22, R292). -/
def trackedOk (dev : Device) (c : Nat) (r : Rec) : Bool :=
  let e := NMap.get (0, 0, false) (ctx dev c).recs r.slot
  r.gen == 0 || (e.2.2 && e.2.1 == r.gen)

def handlesOk (dev : Device) (j : Job) : Bool :=
  let c := j.parse
  trackedOk dev j.ctx c.srec && (c.dring || trackedOk dev j.ctx c.drec)

/-- The slot size check 4 requires (R440). -/
def Card.slotNeed (c : Card) : Nat := if c.kind ≤ 2 then c.c0 * c.se else c.unitBytes

/-- The checks of R297, in order: the code of the first that fails. -/
def issueCheck (dev : Device) (j : Job) : Nat :=
  let c := j.parse
  if !fieldsOk dev j then cRESERVED
  else if !handlesOk dev j then cGENERATION
  else if c.bar && !objNamed dev j.wg c.barrier false then cRESERVED
  else if !c.dring then 0
  else if !objNamed dev j.wg c.ring true then cRINGSTATE
  else
    let r := readRing dev (.scr j.wg c.ring)
    if r.broken then cBROKEN else if r.closed || decide (r.slotsz < c.slotNeed) then cRINGSTATE else 0

/-! ### Units (R293 to R298, R440) -/

/-- The source elements of a unit with their bytes; none where dropped. -/
abbrev Got := List (Nat × Option (List Byte))

/-- What stopped a unit: an end with a code at a source index, or a page fault. -/
inductive Halt
  | stop (code index : Nat)
  | page (va kind level : Nat)
deriving DecidableEq, Repr

def gotAt (g : Got) (i : Nat) : Option (List Byte) := (g.find? fun p => p.1 == i).bind Prod.snd

/-- A number's low 128 bits of one plane: bit e is that of the element's magnitude. -/
def planeBits (xs : List (Nat × Bool × Nat)) (f : Bool × Nat → Bool) : Nat :=
  xs.foldl (fun r x => if f x.2 then r + 2 ^ x.1 else r) 0

/-- The canonical vector of activations `xs` (element, sign, magnitude), with the marks of R46. -/
def vectorBytes (scale fmt kbase : Nat) (poison range : Bool) (xs : List (Nat × Bool × Nat)) : List Byte :=
  let ys := if range then [] else xs
  let sign := planeBits ys fun x => x.1 && x.2 != 0
  let planes := (List.range 18).map fun p => planeBits ys fun x => bitsOf x.2 p 1 == 1
  let occ := (List.range 18).foldl (fun r p => if planes.getD p 0 != 0 then r + 2 ^ p else r) 0
  leBytes 4 scale ++ leBytes 4 (occ + if sign != 0 then 2 ^ 18 else 0) ++
  leBytes 4 (16 * fmt + (if range then 2 else 0) + (if poison || range then 1 else 0)) ++ leBytes 4 kbase ++
  leBytes 16 sign ++ planes.flatMap fun p => leBytes 16 p

/-- SRCFMT of a source format (R295). -/
def srcFmt (f : Nat) : Nat :=
  match f with
  | 0x13 => 0
  | 0x14 => 1
  | 0x08 => 2
  | _ => 3

/-- Vector `i` from its source elements, and the index of the first element out of range (R295). -/
def expandVector (c : Card) (i : Nat) (g : Got) : List Byte × Option Nat :=
  let k0 := c.kBase i
  let xs := (List.range 128).map fun e =>
    let k := k0 + e
    (e, k / c.per, match gotAt g (k / c.per) with
      | some bs => activation c.srec.fmt (k % c.per) (leNat bs)
      | none => some (some (false, 0)))
  let poison := xs.any fun x => x.2.2.isNone
  let bad := (xs.find? fun x => x.2.2 == some none).map fun x => x.2.1
  let vals := xs.filterMap fun x => (x.2.2.join).map fun v => (x.1, v.1, v.2)
  (vectorBytes c.scale (srcFmt c.srec.fmt) k0 poison bad.isSome vals, bad)

/-- The five digits of a packed byte (R40). -/
def digits (b : Nat) : List Nat := [b % 3, b / 3 % 3, b / 9 % 3, b / 27 % 3, b / 81 % 3]

/-- A byte of a packed row is legal (R40, R41). -/
def packedOk (i b : Nat) : Bool := if i = 25 then decide (b < 27) else decide (b < 243)

/-- The canonical row of a packed one (R42). -/
def canonRow (row : List Byte) : List Byte :=
  let ds := (row.flatMap fun b => digits b.toNat).map fun d => if d = 2 then 3 else d
  (List.range 32).map fun q =>
    BitVec.ofNat 8 ((List.range 4).foldl (fun r i => r + ds.getD (4 * q + i) 0 * 4 ^ i) 0)

/-- Tile `i` from its rows, or the first row with an illegal byte (R296). -/
def expandTile (c : Card) (i : Nat) (g : Got) : Except Nat (List Byte) :=
  let rows := (List.range 128).map fun n =>
    let k := c.si0 + 128 * i + n
    (k, (gotAt g k).getD (List.replicate 26 0))
  match rows.find? fun r => !((List.range 26).all fun b => packedOk b (byteAt r.2 b)) with
  | some r => .error r.1
  | none => .ok (rows.flatMap fun r => canonRow r.2)

/-- The bytes a unit writes, none where its element was dropped, and the index at which it first met
ACTIVATION-RANGE. -/
def unitData (c : Card) (i : Nat) (g : Got) : Except Halt (Option (List Byte) × Option Nat) :=
  match c.kind with
  | 3 =>
    let (bs, bad) := expandVector c i g
    .ok (some bs, bad)
  | 4 =>
    match expandTile c i g with
    | .ok bs => .ok (some bs, none)
    | .error k => .error (.stop cTERNARY k)
  | _ =>
    let df := if c.dring then c.srec.fmt else c.drec.fmt
    .ok (((g.head?).bind Prod.snd).map fun bs =>
      if c.srec.fmt = df then bs else leBytes c.de (convElem c.srec.fmt df (leNat bs)), none)

/-- Where a unit writes: in the reserved slot, or through DREC. -/
def destForm (dev : Device) (j : Job) (c : Card) (x : Nat) : EForm :=
  if c.dring then
    let l := Loc.scr j.wg c.ring
    let r := readRing dev l
    let o := if c.kind = 2 then x * c.se else if c.kind ≤ 1 then j.i * c.se else 0
    if c.kind = 2 && decide (r.slotsz < (x + 1) * c.se) then .stop cBOUNDS
    else match ringPlace dev j.wg l (r.offset (j.slot.getD 0) + o) c.unitBytes with
      | some ls => .placed ls
      | none => .stop cPROT
  else
    let e := c.dest j.i j.j x
    elemForm dev j.wg c.drec e.1 e.2.1 e.2.2

/-- The end of a job is decided, at a source index; or it stalls at a sector (R298, R299). -/
def haltJob (dev : Device) (id : Nat) : Halt → Device
  | .stop code k => modJob dev id fun j => { j with ending := some code, stop := k % 2 ^ 32 }
  | .page va kind lv =>
    modJob { dev with parkSeq := dev.parkSeq + 1 } id fun j =>
      { j with state := 4, pgVa := va, pgKind := kind, pgLevel := lv, pgOrd := dev.parkSeq }

/-- Reserve a slot for a count that opens, as RPUT.acq does, sleeping while none is free (R298). -/
def openSlot (dev : Device) (id : Nat) (j : Job) (c : Card) : Device :=
  let l := Loc.scr j.wg c.ring
  let r := readRing dev l
  if r.broken then haltJob dev id (.stop cBROKEN j.src)
  else if r.free = 0 then modJob dev id fun j => { j with state := 3 }
  else
    let (i, d) := reserve dev (.slip j.core) l
    modJob d id fun j => { j with slot := some i, state := 2 }

/-- A count closes: the slot is published, the bytes counted on the barrier (R298). -/
def closeCount (dev : Device) (id : Nat) (c : Card) : Device :=
  let j := job dev id
  let l := Loc.scr j.wg c.ring
  if c.dring && (readRing dev l).broken then haltJob dev id (.stop cBROKEN j.src)
  else
    let d1 := match j.slot with
      | some i => if c.dring then publish dev (.slip j.core) l i else dev
      | none => dev
    let d2 := if c.bar then (countDown d1 (.slip j.core) (.scr j.wg c.barrier) j.part).2 else d1
    modJob d2 id fun j => { j with slot := none, done := j.done + j.part, part := 0 }

/-- The job stands at a unit: nothing of it is done; its source index is that of the index word as it stands (R305). -/
def atUnit (dev : Device) (c : Card) (j : Job) : Job :=
  { j with word := none, got := [], buf := [], rd := 0, wr := 0, full := false
           src := c.sourceIndex j.i (indexWord dev j c j.i) % 2 ^ 32 }

/-- The unit is behind the job: the next, or the end of all (R293, R299). -/
def nextUnit (dev : Device) (id : Nat) (c : Card) : Device :=
  modJob dev id fun j =>
    let j1 := if j.i + 1 < c.c0 then { j with i := j.i + 1 } else { j with i := 0, j := j.j + 1 }
    if j1.j < c.c1 then atUnit dev c j1 else { j1 with full := false, ending := j1.ending.or (some j1.status) }

/-- A unit is delivered: its bytes join the count. One within a count goes on to the next; one that closes a count has that
still to do (R293, R295, R298, R299). -/
def unitDone (dev : Device) (id : Nat) (c : Card) (bad : Option Nat) : Device :=
  let d1 := modJob dev id fun j =>
    let j1 := { j with state := 2, part := j.part + c.unitBytes, full := decide (2 < c.kind ∨ c.c0 ≤ j.i + 1) }
    match bad with
    | some k => if j.status = 0 then { j1 with status := cRANGE, stop := k % 2 ^ 32 } else j1
    | none => j1
  if (job d1 id).full then d1 else nextUnit d1 id c

/-- The job's Slip reads the generations of the slots it tracks (R194, R298). -/
def stampTracked (dev : Device) (j : Job) : Device :=
  let c := j.parse
  ((c.srec :: if c.dring then [] else [c.drec]).filter fun r => r.gen != 0).foldl (fun d r =>
    stampRead d (.slip j.core) (slotLoc j.ctx r.slot)) dev

/-- An access of a job to sectors, with the generations it tracks read before it, and again after it: what changes one follows
it in the global order (R195, R298). -/
def trackedAccess {α : Type} (dev : Device) (j : Job) (f : Device → α × Device) : α × Device :=
  let (r, d) := f (stampTracked dev j)
  (r, stampTracked d j)

/-- The index word of a unit is read (R293, R298). -/
def readWord (dev : Device) (id : Nat) (j : Job) (c : Card) : Device :=
  let a := c.index + 4 * j.i
  if !handlesOk dev j then haltJob dev id (.stop cGENERATION j.src)
  else if heldBack dev j.ctx j.order (scrSectors j.wg a 4) [] then dev
  else
    let (bs, d) := trackedAccess dev j fun d => engRead d (.slip j.core) j.wg a 4
    let x := leNat bs
    modJob d id fun j => { j with word := some x, src := c.sourceIndex j.i x % 2 ^ 32 }

/-- The job with its source index at the element it reads, or, once all are read, at the unit's first (R305). -/
def reading (c : Card) (j : Job) : Job :=
  let x := j.word.getD 0
  let k := match (c.sources j.i j.j x)[j.got.length]? with
    | some e => e.1
    | none => c.sourceIndex j.i x
  { j with src := k % 2 ^ 32 }

/-- One sector of a source element is read (R298). -/
def readSector (dev : Device) (id : Nat) (j : Job) (c : Card) (e : Nat × Nat × Nat) : Device :=
  let f := elemForm dev j.wg c.srec e.1 e.2.1 e.2.2
  if f.accesses && !handlesOk dev j then haltJob dev id (.stop cGENERATION j.src)
  else match sectorAt dev j.core j.ctx .load f j.rd with
  | (.stop code, d) => haltJob d id (.stop code e.1)
  | (.page va lv, d) => haltJob d id (.page va 6 lv)
  | (.drop, d) => modJob d id fun j => reading c { j with got := j.got ++ [(e.1, none)] }
  | (.at ls, d) =>
    if heldBack d j.ctx j.order (ls.map fun l => l.1.sector) [] then d
    else
      let (bs, d1) := trackedAccess d j fun d => readSpans d (.slip j.core) ls
      modJob d1 id fun j =>
        if f.count ≤ j.rd + 1 then reading c { j with got := j.got ++ [(e.1, some (j.buf ++ bs))], buf := [], rd := 0 }
        else reading c { j with buf := j.buf ++ bs, rd := j.rd + 1 }

/-- One sector of a unit's destination is addressed, checked and written; with the last the unit is delivered. Where the
source was dropped nothing is written (R208, R209, R293, R298). -/
def writeSector (dev : Device) (id : Nat) (j : Job) (c : Card) (x : Nat) (data : Option (List Byte)) (bad : Option Nat) :
    Device :=
  let f := destForm dev j c x
  let behind (d : Device) : Device :=
    if j.wr + 1 < f.count then modJob d id fun j => { j with wr := j.wr + 1 } else unitDone d id c bad
  if f.accesses && data.isSome && !handlesOk dev j then haltJob dev id (.stop cGENERATION j.src)
  else match sectorAt dev j.core j.ctx .store f j.wr with
  | (.stop code, d) => haltJob d id (.stop code j.src)
  | (.page va lv, d) => haltJob d id (.page va 7 lv)
  | (.drop, d) => unitDone d id c bad
  | (.at ls, d) =>
    match data with
    | none => behind d
    | some bs =>
      if ls.any fun l => registered d l.1 then haltJob d id (.stop cOVERWRITE j.src)
      else if heldBack d j.ctx j.order [] (ls.map fun l => l.1.sector) then d
      else behind (trackedAccess d j fun d => ((), writeSpans d (.slip j.core) ls (bs.drop (f.before j.wr)))).2

/-- A running job is among the first 8 of its core that run (R297). -/
def amongEight (dev : Device) (j : Job) : Bool :=
  decide (((coreJobs dev j.core).filter fun k => k.state != 1 && decide (k.order < j.order)).length < 8)

/-- Under BOUNDS 0 a vector's or a tile's row is out of bounds at index 1, whatever lies beyond its end at index 0 (R295). -/
def rowOut (c : Card) (j : Nat) : Bool :=
  decide (2 < c.kind) && c.srec.bounds == 0 && decide (c.srec.ext1 ≤ c.si1 + j)

/-- A running job closes a count, or performs its next access: the index word, a source sector, the slot, a
destination sector; edges hold it back (R202, R298). -/
def runUnit (dev : Device) (id : Nat) : Device :=
  let j := job dev id
  let c := j.parse
  if !(j.state == 2 || j.state == 3) || j.ending.isSome || !jobRuns dev j || !amongEight dev j then dev
  else if j.full then nextUnit (closeCount dev id c) id c
  else if (c.kind = 1 ∨ c.kind = 2) ∧ j.word = none then readWord dev id j c
  else
    let x := j.word.getD 0
    match (c.sources j.i j.j x)[j.got.length]? with
    | some e => readSector dev id j c e
    | none =>
      if rowOut c j.j then haltJob dev id (.stop cBOUNDS j.src)
      else
        match unitData c j.i j.got with
        | .error h => haltJob dev id h
        | .ok (data, bad) =>
          if c.dring && j.slot.isNone then openSlot dev id j c else writeSector dev id j c x data bad

def execSlipUnit (id : Nat) (s : State) : Host.Outcome State Fault Refusal := onDev s fun dev => runUnit dev id

/-! ### The end (R234, R299) -/

/-- A job ends with a status: the count it had begun, the status with the undelivered bytes, its ring; its workgroup may
have waited for it (R299, R302). -/
def endJob (dev : Device) (id code : Nat) : Device :=
  let j := job dev id
  let c := j.parse
  let l := Loc.scr j.wg c.barrier
  let named := c.bar && objNamed dev j.wg c.barrier false
  let d1 := if named && j.part != 0 then (countDown dev (.slip j.core) l j.part).2 else dev
  let done := j.done + j.part
  let total := if j.state = 1 then c.total else j.total
  let d2 := if named && code != 0 then countEnd d1 (.slip j.core) l code (total - done) else d1
  let d3 := modJob d2 id fun j => { j with done := done, part := 0 }
  settleEnded (jobFinish d3 id (if code = 0 then 5 else 6) code) j.wg
where
  /-- The workgroup, where its waves have ended. -/
  settleEnded (d : Device) (g : Nat) : Device := if (wg d g).ended then settleWg d g else d

def execSlipJobEnd (id : Nat) (s : State) : Host.Outcome State Fault Refusal :=
  onDev s fun dev =>
    match (job dev id).ending with
    | some code => if jobLive (job dev id) && jobRuns dev (job dev id) then endJob dev id code else dev
    | none => dev

/-! ### Issue -/

/-- A job issues in kick order, at most 8 on a core (R297). -/
def mayIssue (dev : Device) (j : Job) : Bool :=
  j.state == 1 && jobRuns dev j && j.ending.isNone &&
  !((coreJobs dev j.core).any fun k => k.state == 1 && decide (k.order < j.order)) &&
  decide (((coreJobs dev j.core).filter fun k => k.state != 1).length < 8)

/-- Slip issues a job: it registers on its ring and runs; one that fails a check ends, and one without units is complete
(R293, R297). -/
def issueJob (dev : Device) (id : Nat) : Device :=
  let j := job dev id
  if !mayIssue dev j then dev
  else
    let c := j.parse
    let code := issueCheck dev j
    let j1 := { j with state := 2, total := c.total }
    if code != 0 then endJob (modJob dev id fun _ => j1) id code
    else
      let d1 := nameObjects dev j
      let d2 := if c.dring then
          let l := Loc.scr j.wg c.ring
          let r := readRing d1 l
          writeRing d1 (.slip j.core) l { r with putters := r.putters + 1 }
        else d1
      let d3 := modJob d2 id fun _ => atUnit dev c { j1 with onRing := c.dring }
      if c.c0 = 0 ∨ c.c1 = 0 then endJob d3 id 0 else d3

def execSlipJobIssue (id : Nat) (s : State) : Host.Outcome State Fault Refusal := onDev s fun dev => issueJob dev id

/-! ### SQUERY, SCANCEL (R305) -/

/-- The job of an ID that a context may ask about: among the latest 1,024 it kicked on that core. -/
def findJob (dev : Device) (c id : Nat) : Option Job :=
  match NMap.find? dev.jobs id with
  | none => none
  | some j =>
    if j.ctx = c ∧ (dev.jobs.filter fun p => p.2.ctx == c && p.1 / 2 ^ 24 == id / 2 ^ 24 &&
        decide (j.order < p.2.order)).length < 1024 then some j else none

/-- The status word of a job that runs is 0: ACTIVATION-RANGE is reported at its end (R299, R305). -/
def execSquery (k : CBit) (p : Pred) (d : Reg) (a : Src) (s : State) : Host.Outcome State Fault Refusal :=
  onDev s fun dev => members dev p (some d) fun dv x t _ =>
    match findJob dv x.ctx (rd32 x t a).toNat with
    | none => (.done { ws := [0, 0, 0, 0], ks := [(k, false)] }, dv)
    | some j =>
      let st := if jobLive j then 0 else j.status
      (.done { ws := [st, j.state, j.done, j.stop].map (BitVec.ofNat 32), ks := [(k, true)] }, dv)

/-- A cancel takes effect at the job's next sector boundary: between two accesses it stands at one; a job that has paused ends
once it has resumed (R302, R305). -/
def cancelJob (dev : Device) (id : Nat) : Device :=
  let d1 := if (job dev id).state = 1 then dev else modJob dev id fun j => { j with stop := j.src }
  if jobRuns dev (job dev id) then endJob d1 id cCANCELLED else modJob d1 id fun j => { j with ending := some cCANCELLED }

def execScancel (k : CBit) (p : Pred) (d : Reg) (a : Src) (s : State) : Host.Outcome State Fault Refusal :=
  onDev s fun dev => members dev p (some d) fun dv x t _ =>
    match findJob dv x.ctx (rd32 x t a).toNat with
    | none => (.done { ws := [0], ks := [(k, false)] }, dv)
    | some j =>
      let out (b : Bool) : LaneRes := .done { ws := [BitVec.ofNat 32 j.state], ks := [(k, b)] }
      if jobLive j then (out true, cancelJob dv j.id) else (out false, dv)

end Sys2Proof.Machine
end

