-- ==== Sys2Proof/Machine/Kiln.lean ====
section
/-!
DEFINITION. Class 4 and the commands it appends (R307 to R337): the reservation, the command area, KLOOP's plane-sums at
each fidelity level with promotion (R47, R48, R309 to R314), the cone counters (R317, R318).
-/

namespace Sys2Proof.Machine

def kilnOf (dev : Device) (g : Nat) : Option Kiln := (wg dev g).kiln
def setKiln (dev : Device) (g : Nat) (k : Kiln) : Device := modWg dev g fun x => { x with kiln := some k }
def modKiln (dev : Device) (g : Nat) (f : Kiln → Kiln) : Device := modWg dev g fun x => { x with kiln := x.kiln.map f }

/-- The Kiln of the core that a workgroup is on, as an agent (R194, R201). -/
def kilnAgent (dev : Device) (g : Nat) : Who := .kiln (wg dev g).core

/-! ### The accumulator store (R257, R319) -/

/-- Bytes of a core's accumulator store in use by Kiln regions and Glaze tiles. -/
def storeUsed (dev : Device) (co : Nat) : Nat :=
  dev.wgs.foldl (fun n p =>
    if p.2.live && p.2.resident && p.2.core == co then
      n + ((p.2.kiln.map fun k => k.bytes).getD 0) + 2048 * p.2.paths.length + 65536 * p.2.dests.length
    else n) 0

def storeBytes : Nat := 2 ^ 23

/-- Another workgroup holds the core's Kiln. -/
def kilnHeld (dev : Device) (co g : Nat) : Bool :=
  dev.wgs.any fun p => p.1 != g && p.2.live && p.2.resident && p.2.core == co && p.2.kiln.isSome

/-! ### Appending (R321, R328) -/

/-- The 64 bytes of a command's slot. -/
def KCmd.bytes (k : KCmd) : List Byte :=
  leBytes 1 k.op ++ leBytes 1 ((if k.clr then 2 else 0) + (if k.split then 1 else 0)) ++ leBytes 1 k.level ++
  leBytes 1 0 ++ leBytes 4 k.seq ++ leBytes 8 0 ++
  ((List.range 4).flatMap fun i => leBytes 4 (k.an i)) ++ ((List.range 4).flatMap fun i => leBytes 4 (k.bn i)) ++
  leBytes 16 0

/-- A command is appended: it takes its place in the order of kicks, and its own events follow the thread's (R202, R203,
R322). -/
def endAppend (dev : Device) (w l : Nat) : Device :=
  let g := (wave dev w).wg
  match kilnOf dev g with
  | none => dev
  | some k =>
    match k.pend with
    | none => dev
    | some c =>
      let d := kickAfter { dev with nextId := dev.nextId + 1 } w l
      agentFollows (setKiln d g { k with seq := k.seq + 1, cmds := k.cmds ++ [{ c with order := dev.nextId }]
                                         busy := false, pend := none }) (kilnAgent d g) w l

/-- The writes of a command's slot, whole or cut off (R200, R321). -/
def slotWritten (w l : Nat) (k : CBit) (r : Done × Device) : LaneRes × Device :=
  match r with
  | (.whole _, d) => (.done (outSt k 0), endAppend d w l)
  | (.part ls bs, d) => (.wait (.rest true ls bs), d)

/-- Append a command: its slot is written as two sector events of the thread, after the context's kicks before it, and no other
append comes between (R202, R321). -/
def appendCmd (dev : Device) (w l op : Nat) (split clr : Bool) (k : CBit) (a b : List Word) : LaneRes × Device :=
  let x := wave dev w
  match kilnOf dev x.wg with
  | none => (.fault cKILN 0 0, dev)
  | some kn =>
    let c : KCmd := { op := op, clr := clr, split := split, level := x.fid, seq := kn.seq, a := a, b := b }
    slotWritten w l k (threadWrite (setKiln (kickAfter dev w l) x.wg { kn with busy := true, pend := some c }) w l
      (scrSpans x.wg (kn.area + 64 * (kn.seq % 64)) 64) c.bytes)

/-- An append waits for another, and for room (R321, R328). -/
def Kiln.appendHeld (kn : Kiln) : Bool := kn.busy || decide (64 ≤ kn.cmds.length)

/-- An instruction that appends a command, once for the group (R328 to R330): `check` is its status, given the
reservation and the operands. -/
def appendStep (dev : Device) (p : Pred) (k : CBit) (d : Reg) (op : Nat) (split clr : Bool)
    (ab : Wave → Thread → List Word × List Word) (check : Device → Nat → Kiln → KCmd → Nat) : Device :=
  once dev p (some d) fun dv x t l =>
    match t.wait, kilnOf dv x.wg with
    | .rest _ ls bs, _ => slotWritten dev.cur.1 l k (threadWrite dv dev.cur.1 l ls bs)
    | _, none => (.fault cKILN 0 0, dv)
    | _, some kn =>
      if kn.appendHeld then (.wait .engine, dv)
      else
        let (a, b) := ab x t
        let st := check dv x.wg kn { op := op, clr := clr, split := split, level := x.fid, seq := 0, a := a, b := b }
        if st = 0 then appendCmd dv dev.cur.1 l op split clr k a b else (.done (outSt k st), dv)

/-- Scratchpad bytes a command may name: within SCRATCH, over no registered sector (R328). -/
def areaOk (dev : Device) (g : Nat) (a : Int) (n : Nat) : Bool :=
  decide (0 ≤ a ∧ a + n ≤ (wg dev g).scratch) && !rangeRegistered dev g a.toNat n

/-- Accumulators of a region, in a form. -/
def Kiln.accs (k : Kiln) (split : Bool) : Nat := k.bytes / (if split then 16 else 4)

/-! ### KRSV, KREL (R331) -/

/-- The command area is emptied, or has sectors still to go. -/
def areaEmptied (w l : Nat) (k : CBit) (r : Done × Device) : LaneRes × Device :=
  match r with
  | (.whole _, d) =>
    let g := (wave d w).wg
    (.done (outSt k 0), modKiln (followsAgent d (kilnAgent d g) w l) g fun y => { y with busy := false })
  | (.part ls bs, d) => (.wait (.rest true ls bs), d)

/-- A reservation by lane `l` of wave `w`: its status; or, where it succeeds, the Kiln with its region zeroed, STATUS and
POISON clear, and the command area's slots emptied, once no store under way has a sector there to write (R211, R319, R321,
R325, R331). -/
def krsvAt (dev : Device) (w l : Nat) (x : Wave) (k : CBit) (a b : Nat) : LaneRes × Device :=
  let g := wg dev x.wg
  let st (n : Nat) : LaneRes × Device := (.done (outSt k n), dev)
  if g.kiln.isSome then st 0
  else if a % 256 ≠ 0 ∨ g.scratch < a + 4096 ∨ rangeRegistered dev x.wg a 4096 then st 3
  else if b % 65536 ≠ 0 ∨ b = 0 ∨ storeBytes < b then st 4
  else if kilnHeld dev x.core x.wg then st 1
  else if storeBytes < storeUsed dev x.core + b then st 2
  else if rangeDue dev x.wg a 4096 then (.wait .engine, dev)
  else
    let who := kilnAgent dev x.wg
    let d1 := modWg (agentFollows dev who w l) x.wg fun y =>
      { y with kiln := some { area := a, bytes := b, busy := true }, kstatus := 0, kpoison := false }
    areaEmptied w l k (agentWrite d1 who (fun _ _ => false) (scrSpans x.wg a 4096) (List.replicate 4096 0))

def execKrsv (k : CBit) (p : Pred) (d : Reg) (a b : Src) (s : State) : Host.Outcome State Fault Refusal :=
  onDev s fun dev => once dev p (some d) fun dv x t l =>
    match t.wait with
    | .rest _ ls bs =>
      areaEmptied dev.cur.1 l k (agentWrite dv (kilnAgent dv x.wg) (fun _ _ => false) ls bs)
    | _ => krsvAt dv dev.cur.1 l x k (rd32 x t a).toNat (rd32 x t b).toNat

def execKrel (k : CBit) (p : Pred) (d : Reg) (s : State) : Host.Outcome State Fault Refusal :=
  onDev s fun dev => once dev p (some d) fun dv x _ _ =>
    match kilnOf dv x.wg with
    | none => (.done (outSt k 5), dv)
    | some kn => if kn.cmds.isEmpty && !kn.busy then (.done (outSt k 0), endKiln dv x.wg) else (.wait .engine, dv)

/-! ### KLOAD, KSWAP, KLOOP, KZERO and KDRAIN to scratchpad: their checks (R332 to R335) -/

def checkKload (dev : Device) (g : Nat) (_ : Kiln) (k : KCmd) : Nat :=
  let b := k.bn 0
  if 5 < bitsOf b 0 3 ∨ bitsOf b 8 8 = 0 ∨ bitsOf b 4 4 ≠ 0 ∨ bitsOf b 16 16 ≠ 0 then 4
  else if k.an 0 % 32 ≠ 0 ∨ !areaOk dev g (k.an 0) (4096 * (maskList 8 (bitsOf b 8 8)).length) then 3 else 0

def checkKswap (_ : Device) (_ : Nat) (_ : Kiln) (k : KCmd) : Nat :=
  if k.an 0 = 0 ∨ 64 ≤ k.an 0 then 4 else 0

/-- Accumulator a of step s, group g, macro m, row n (R326). -/
def KCmd.accAt (k : KCmd) (s g m n : Nat) : Int :=
  (k.an 0 : Int) + s * sgn 32 (k.an 1) + g * sgn 32 (k.an 2) + ((128 * m + n : Nat) : Int)

/-- The first and the last of a list. -/
def ends (xs : List Nat) : List Nat := [xs.headD 0, xs.getLastD 0]

def checkKloop (dev : Device) (g : Nat) (kn : Kiln) (k : KCmd) : Nat :=
  let corners := [0, k.steps - 1].flatMap fun s => (ends k.groups).flatMap fun gr => (ends k.macros).flatMap fun m =>
    [0, 127].map fun n => k.accAt s gr m n
  if k.steps = 0 ∨ k.groups = [] ∨ k.macros = [] ∨ bitsOf (k.an 3) 6 2 ≠ 0 then 4
  else if k.ringMode && (bitsOf (k.bn 0) 5 26 != 0 || k.bn 1 != 0) then 4
  else if !k.ringMode && k.bn 1 % 32 != 0 then 4
  else if corners.any fun a => decide (a < 0 ∨ (kn.accs k.split : Int) ≤ a) then 4
  else if k.bn 2 % 4 ≠ 0 ∨ (!k.ringMode && k.bn 0 % 32 != 0) then 3
  else if (List.range k.steps).all fun s =>
      (k.ringMode || (List.range k.groups.length).all fun q => areaOk dev g (k.vecAt s q) 320) &&
      k.groups.all fun gr => k.macros.all fun m => areaOk dev g (k.scaleAt s gr m) 4 then 0 else 3

def checkKdrain (dev : Device) (g : Nat) (kn : Kiln) (k : KCmd) : Nat :=
  let n := k.size * k.an 1
  let bar := bitsOf (k.an 3) 5 27 * 32
  if k.an 1 = 0 ∨ kn.accs k.split < k.an 0 + k.an 1 ∨ bitsOf (k.an 3) 1 4 ≠ 0 then 4
  else if k.an 2 % k.size ≠ 0 ∨ !areaOk dev g (k.an 2) n then 3
  else if bitsOf (k.an 3) 0 1 = 1 && !(decide (bar + 32 ≤ (wg dev g).scratch) && objNamed dev g bar false) then 3 else 0

def checkKzero (_ : Device) (_ : Nat) (kn : Kiln) (k : KCmd) : Nat :=
  if k.bn 0 = 0 ∨ kn.accs k.split < k.an 0 + k.bn 0 then 4 else 0

def rdQuads (x : Wave) (t : Thread) (a : Src) : List Word := (List.range 4).map fun i => rdQuad x t a i

def execKload (k : CBit) (p : Pred) (d : Reg) (a b : Src) (s : State) : Host.Outcome State Fault Refusal :=
  onDev s fun dev => appendStep dev p k d 1 false false (fun x t => ([rd32 x t a], [rd32 x t b])) checkKload

def execKswap (k : CBit) (p : Pred) (d : Reg) (a : Src) (s : State) : Host.Outcome State Fault Refusal :=
  onDev s fun dev => appendStep dev p k d 2 false false (fun x t => ([rd32 x t a], [])) checkKswap

def execKloop (split : Bool) (k : CBit) (p : Pred) (d : Reg) (a b : Src) (s : State) :
    Host.Outcome State Fault Refusal :=
  onDev s fun dev => appendStep dev p k d 3 split false (fun x t => (rdQuads x t a, rdQuads x t b)) checkKloop

/-- The drain's barrier is named while it is pending (R230, R334). -/
def nameDrains (dev : Device) (w : Nat) (before : Nat) : Device :=
  let g := (wave dev w).wg
  match kilnOf dev g with
  | none => dev
  | some kn =>
    match kn.cmds.getLast? with
    | some c =>
      if kn.seq != before && c.op == 4 && bitsOf (c.an 3) 0 1 == 1 then
        engName dev (.scr g (bitsOf (c.an 3) 5 27 * 32)) (kilnName g)
      else dev
    | none => dev

def execKdrainMem (split clr : Bool) (k : CBit) (p : Pred) (d : Reg) (a : Src) (s : State) :
    Host.Outcome State Fault Refusal :=
  onDev s fun dev =>
    let w := dev.cur.1
    let before := ((kilnOf dev (wave dev w).wg).map fun kn => kn.seq).getD 0
    nameDrains (appendStep dev p k d 4 split clr (fun x t => (rdQuads x t a, [])) checkKdrain) w before

def execKzero (split : Bool) (k : CBit) (p : Pred) (d : Reg) (a b : Src) (s : State) :
    Host.Outcome State Fault Refusal :=
  onDev s fun dev => appendStep dev p k d 5 split false (fun x t => ([rd32 x t a], [rd32 x t b])) checkKzero

/-! ### KDRAIN to registers, KFID, KSTAT (R315, R334, R336) -/

def zeros (n : Nat) : List Byte := List.replicate n 0

/-- At its issue a register KDRAIN notes, for every member, the place in the order of kicks that the commands before it are
below (R334). -/
def markDrain (dev : Device) : Device :=
  let (w, g) := dev.cur
  modWave dev w fun x =>
    let y := group x g
    if y.began then x
    else match kilnOf dev x.wg with
      | none => x
      | some _ => y.lanes.foldl (fun z l => modThread z l fun t => { t with kseq := dev.nextId }) x

/-- One member's register drain: wait for every command before it, then the accumulator, zeroed under .clr (R334). -/
def drainMember (dv : Device) (x : Wave) (t : Thread) (split clr : Bool) (k : CBit) (a : Nat) : LaneRes × Device :=
  match kilnOf dv x.wg with
  | none => (.fault cKILN 0 0, dv)
  | some kn =>
    if kn.cmds.any fun c => decide (c.order < t.kseq) then (.wait .engine, dv)
    else
      let n := if split then 4 else 1
      if kn.accs split ≤ a then (.done { ws := List.replicate n 0, ks := [(k, false)] }, dv)
      else
        let bs := Memory.bytes kn.acc (4 * n * a) (4 * n)
        let d1 := if clr then setKiln dv x.wg { kn with acc := Memory.putBytes kn.acc (4 * n * a) (zeros (4 * n)) } else dv
        (.done { ws := (List.range n).map fun i => BitVec.ofNat 32 (leAt bs (4 * i) 4), ks := [(k, true)] }, d1)

def execKdrainReg (split clr : Bool) (k : CBit) (p : Pred) (d : Reg) (a : Src) (s : State) :
    Host.Outcome State Fault Refusal :=
  onDev s fun dev => members (markDrain dev) p (some d) fun dv x t _ => drainMember dv x t split clr k (rd32 x t a).toNat

/-- The Kiln holds a member of instruction `i`, the lowest where it acts once for its group (R328, R331, R334). -/
def kilnHolds (dv : Device) (x : Wave) (t : Thread) (l : Nat) (i : Instr) : Bool :=
  match i, kilnOf dv x.wg with
  | .kload .., some kn | .kswap .., some kn | .kloop .., some kn | .kdrainMem .., some kn | .kzero .., some kn => kn.appendHeld
  | .krsv k _ _ a b, _ => (krsvAt dv dv.cur.1 l x k (rd32 x t a).toNat (rd32 x t b).toNat).1 == .wait .engine
  | .krel .., some kn => !kn.cmds.isEmpty || kn.busy
  | .kdrainReg split clr k _ _ a, _ => (drainMember dv x t split clr k (rd32 x t a).toNat).1 == .wait .engine
  | _, _ => false

/-- A level R315 permits for a wave. -/
def levelOk (dev : Device) (x : Wave) (a : Word) : Bool :=
  let h := (launch dev x.launch).hdr
  decide (a.toNat ≤ h.fid) && (!h.det || a == 0 || a == 4)

def execKfid (k : CBit) (p : Pred) (d : Reg) (a : Src) (s : State) : Host.Outcome State Fault Refusal :=
  onDev s fun dev =>
    let lead := leadOf dev p
    members dev p (some d) fun dv x t l =>
      let v := rd32 x t a
      if levelOk dv x v then
        (.done (outSt k 0),
          if lead = some l then modWave dv dev.cur.1 fun y => { y with fid := v.toNat } else dv)
      else (.done (outSt k 6), dv)

def coneKey (co kind slice : Nat) : Nat := 12 * co + 3 * kind + slice

def KSlice.num : KSlice → Nat
  | .low => 0
  | .mid => 1
  | .high => 2

/-- Every member reads at the issue (R336). -/
def execKstat (sl : KSlice) (kind : Fin 4) (k : CBit) (p : Pred) (d : Reg) (s : State) :
    Host.Outcome State Fault Refusal :=
  onDev s fun dev => members { dev with cut := none } p (some d) fun dv x _ _ =>
    let n := NMap.get 0 (ctx dv x.ctx).cones (coneKey x.core kind.val (KSlice.num sl))
    (.done { ws := words64 (BitVec.ofNat 64 n), ks := [(k, true)] }, dv)

/-! ### Commands that run (R322, R324) -/

/-- The running command of a workgroup's Kiln: the oldest, where the workgroup is resident and it is of operation `op`. -/
def running (dev : Device) (g op : Nat) : Option (Kiln × KCmd) :=
  let x := wg dev g
  match x.kiln with
  | some kn =>
    match kn.cmds with
    | c :: _ => if x.live && x.resident && c.op == op then some (kn, c) else none
    | [] => none
  | none => none

/-- The command at the front completes, with a runtime code where it failed; the workgroup may have waited for it (R324,
R327). -/
def finishCmd (dev : Device) (g code : Nat) : Device :=
  let d := modKiln dev g fun k =>
    { k with cmds := k.cmds.drop 1, started := false, posS := 0, posQ := 0, slot := none, rd := 0, buf := [], ring := none
             status := if k.status = 0 then code else k.status }
  if (wg d g).ended then settleWg d g else d

/-- The Kiln fetches its command's slot, as two events (R321). -/
def fetchCmd (dev : Device) (g : Nat) (kn : Kiln) (c : KCmd) : Device :=
  (engRead dev (kilnAgent dev g) g (kn.area + 64 * (c.seq % 64)) 64).2

/-- The command starts: its slot is fetched; one that is under way goes on. -/
def startCmd (dev : Device) (g : Nat) (kn : Kiln) (c : KCmd) : Device :=
  if kn.started then dev else modKiln (fetchCmd dev g kn c) g fun k => { k with started := true }

/-- A bank's place (R307). -/
def bankAt (g m b : Nat) : Nat := 4096 * (2 * (8 * g + m) + b)

/-- The sectors of a KLOAD that are to go, each an event: sector i is bytes 32i on of the tiles of the selected macros,
128 sectors a macro (R332). -/
def loadSectors (dev : Device) (g : Nat) (c : KCmd) : List Nat → Device
  | [] => finishCmd dev g 0
  | i :: r =>
    let (go, d0) := spendCut dev
    if !go then modKiln d0 g fun k => { k with posS := i }
    else
      let b := c.bn 0
      let m := (maskList 8 (bitsOf b 8 8)).getD (i / 128) 0
      let (bs, d1) := engRead d0 (kilnAgent d0 g) g (c.an 0 + 32 * i) 32
      let d2 := modKiln d1 g fun k =>
        { k with banks := Memory.putBytes k.banks (bankAt (bitsOf b 0 3) m (bitsOf b 3 1) + 32 * (i % 128)) bs }
      loadSectors d2 g c r

def runKload (dev : Device) (g : Nat) : Device :=
  match running dev g 1 with
  | none => dev
  | some (kn, c) =>
    if heldBack dev (wg dev g).ctx c.order (cmdReads g 0 c) [] then dev
    else
      let n := 128 * (maskList 8 (bitsOf (c.bn 0) 8 8)).length
      loadSectors (startCmd dev g kn c) g c ((List.range n).drop kn.posS)

def runKswap (dev : Device) (g : Nat) : Device :=
  match running dev g 2 with
  | none => dev
  | some (kn, c) =>
    finishCmd (modKiln (fetchCmd dev g kn c) g fun k => { k with active := k.active ^^^ BitVec.ofNat 6 (c.an 0) }) g 0

def runKzero (dev : Device) (g : Nat) : Device :=
  match running dev g 5 with
  | none => dev
  | some (kn, c) =>
    finishCmd (modKiln (fetchCmd dev g kn c) g fun k =>
      { k with acc := Memory.putBytes k.acc (c.size * c.an 0) (zeros (c.size * c.bn 0)) }) g 0

/-- A drain ends, `done` of its bytes delivered: they are counted down on its barrier, and where it failed the rest is taken
off and its code written (R234, R324, R334). A barrier that has broken is met here. -/
def endDrain (dev : Device) (g : Nat) (c : KCmd) (code done : Nat) : Device :=
  if bitsOf (c.an 3) 0 1 = 0 then finishCmd dev g code
  else
    let who := kilnAgent dev g
    let bar := Loc.scr g (bitsOf (c.an 3) 5 27 * 32)
    let (broken, d1) := if done = 0 then ((readBar dev bar).broken, dev) else countDown dev who bar done
    let d2 := if code = 0 then d1 else countEnd d1 who bar code (c.size * c.an 1 - done)
    finishCmd (engUnname d2 bar (kilnName g)) g (if code = 0 && broken then cBROKEN else code)

/-- The sectors of a drain that are to go, each an event, from the `k`-th: the bytes of the accumulators in it, zeroed under
.clr (R334). A registered sector stops it (R324). -/
def drainSectors (dev : Device) (g : Nat) (c : KCmd) (k : Nat) : List (Nat × Nat) → Device
  | [] => endDrain dev g c 0 (c.size * c.an 1)
  | (a, n) :: r =>
    let (go, d0) := spendCut dev
    if !go then modKiln d0 g fun x => { x with posS := k }
    else
      let off := a - c.an 2
      if registered d0 (.scr g a) then endDrain d0 g c cOVERWRITE off
      else
        let at0 := c.size * c.an 0 + off
        let bs := Memory.bytes ((kilnOf d0 g).getD {}).acc at0 n
        let d1 := writeSpans d0 (kilnAgent d0 g) [(.scr g a, n)] bs
        let d2 := if c.clr then modKiln d1 g fun x => { x with acc := Memory.putBytes x.acc at0 (zeros n) } else d1
        drainSectors d2 g c (k + 1) r

def runKdrain (dev : Device) (g : Nat) : Device :=
  match running dev g 4 with
  | none => dev
  | some (kn, c) =>
    if heldBack dev (wg dev g).ctx c.order [] (cmdWrites g c) then dev
    else
      drainSectors (startCmd dev g kn c) g c kn.posS ((sectorSpans (c.an 2) (c.size * c.an 1)).drop kn.posS)

/-! ### A step (R309 to R314) -/

/-- A vector as the Kiln takes it (R44, R45). -/
structure Vec where
  scale : Nat
  occ : Nat
  srcfmt : Nat
  poisoned : Bool
  sign : Nat
  planes : List Nat
deriving DecidableEq, Repr

def Vec.parse (bs : List Byte) : Vec :=
  let w8 := leAt bs 8 4
  let occ := bitsOf (leAt bs 4 4) 0 18
  { scale := leAt bs 0 4, occ := occ, srcfmt := bitsOf w8 4 4
    poisoned := bitsOf w8 0 1 == 1 || bitsOf w8 1 1 == 1 || decide (3 < bitsOf w8 4 4)
    sign := leAt bs 16 16
    planes := (List.range 18).map fun j => if bitsOf occ j 1 = 1 then leAt bs (32 + 16 * j) 16 else 0 }

/-- Executed planes of a slice (R309, R310); the low slice is off at F4 (R311). -/
def Vec.slice (v : Vec) (level sl : Nat) : List Nat :=
  if sl = 0 && level == 4 then [] else ((List.range 6).map fun i => 6 * sl + i).filter fun j => bitsOf v.occ j 1 == 1

/-- e_k of a weight row (R42, R309). -/
def rowSigns (v : Vec) (row : List Byte) : List Int :=
  (List.range 128).map fun k =>
    let w : Int := match bitsOf (byteAt row (k / 4)) (2 * (k % 4)) 2 with
      | 1 => 1
      | 3 => -1
      | _ => 0
    if bitsOf v.sign k 1 = 1 then -w else w

/-- P_j (R309). -/
def planeSum (v : Vec) (e : List Int) (j : Nat) : Int :=
  ((List.range 128).zip e).foldl (fun r p => if bitsOf (v.planes.getD j 0) p.1 1 = 1 then r + p.2 else r) 0

/-- What one row's lanes did: contributions of the low and mid slices as formed, and events to count by kind and slice. -/
structure Tally where
  mism : Nat × Nat := (0, 0)
  rep : Nat := 0
  clamp : Nat × Nat := (0, 0)
deriving DecidableEq, Repr

/-- A checked lane's plane-sum: at F1 a mismatch of its residue is repaired, at F2 and F3 it is counted and kept (R312).
The lane's own result is free. -/
def lanePlane (dev : Device) (level : Nat) (p : Int) : Int × Bool × Device :=
  let (q, d) := freeInt dev
  let bad := decide (q % 15 ≠ p % 15)
  (if level = 1 && bad then p else q, bad, d)

/-- A checked slice: its contribution, the mismatches (R311, R312). -/
def laneSlice (dev : Device) (level : Nat) (ps : List (Nat × Int)) : Int × Nat × Device :=
  ps.foldl (fun r p =>
    let (q, bad, d) := lanePlane r.2.2 level p.2
    (r.1 + q * ((2 ^ p.1 : Nat) : Int), r.2.1 + (if bad then 1 else 0), d)) (0, 0, dev)

/-- The exact contribution of planes. -/
def exactSlice (ps : List (Nat × Int)) : Int := ps.foldl (fun r p => r + p.2 * ((2 ^ p.1 : Nat) : Int)) 0

/-- The delivered sum S′ of a row and its high word G (R311, R313). -/
def deliver (dev : Device) (level : Nat) (lo mi hi : List (Nat × Int)) : Int × Int × Tally × Device :=
  let m := exactSlice mi
  let h := exactSlice hi
  match level with
  | 0 => (exactSlice lo + m + h, m + h, {}, dev)
  | 4 => (m + h, m + h, {}, dev)
  | 3 =>
    let (l', a, d1) := laneSlice dev 3 lo
    let (m', b, d2) := laneSlice d1 3 mi
    let x := clampI (-524160) 524160 (m' + l')
    (h + x, h, { mism := (a, b), clamp := (0, if x = m' + l' then 0 else 1) }, d2)
  | n =>
    let (l', a, d1) := laneSlice dev n lo
    let x := clampI (-8064) 8064 l'
    (h + m + x, h + m, { mism := (a, 0), rep := if n = 1 then a else 0, clamp := (if x = l' then 0 else 1, 0) }, d1)

/-- The product p of a step's promotion (R48). -/
def stepTerm (v : Vec) (ws : Nat) (s : Int) : Nat :=
  if v.poisoned then Fmt.nan .f32
  else
    let m := Fmt.val .f32 (fMulV .f32 .rn (Fmt.val .f32 v.scale) (Fmt.val .f32 ws)).1
    if s = 0 then (if m.isNan || m.isInf then Fmt.nan .f32 else 0)
    else (fMulV .f32 .rn (.fin (decide (s < 0)) s.natAbs (if v.srcfmt ≤ 1 then -9 else 0)) m).1

/-- Promote one row into accumulator `a` (R48, R320). -/
def promote (acc : Memory) (split : Bool) (a : Nat) (v : Vec) (ws : Nat) (s g : Int) : Memory :=
  if split then
    if v.poisoned then Memory.putBytes acc (16 * a + 12) [NMap.get 0 acc (16 * a + 12) ||| 1]
    else
      let hs := leNat (Memory.bytes acc (16 * a) 8)
      let ls := leNat (Memory.bytes acc (16 * a + 8) 4)
      Memory.putBytes acc (16 * a) (leBytes 8 (wrapN 64 (hs + g)) ++ leBytes 4 (wrapN 32 (ls + (s - g))))
  else
    let old := leNat (Memory.bytes acc (4 * a) 4)
    Memory.putBytes acc (4 * a) (leBytes 4 (fAddV .f32 .rn (Fmt.val .f32 old) (Fmt.val .f32 (stepTerm v ws s))).1)

/-- Add to a cone counter, which saturates at 2^48 − 1 (R317). -/
def addCone (dev : Device) (c co kind slice n : Nat) : Device :=
  if n = 0 then dev
  else modCtx dev c fun x =>
    let k := coneKey co kind slice
    { x with cones := NMap.set 0 x.cones k (min (2 ^ 48 - 1) (NMap.get 0 x.cones k + n)) }

/-- Row `n` of macro (g, m)'s active bank. -/
def bankRow (kn : Kiln) (g m n : Nat) : List Byte :=
  Memory.bytes kn.banks (bankAt g m (nb (kn.active.getLsbD g) 1) + 32 * n) 32

/-- One row of a step: deliver, count, promote (R318, R326). -/
def stepRow (dev : Device) (wgn : Nat) (c : KCmd) (v : Vec) (ws s gr m n : Nat) : Device :=
  match kilnOf dev wgn with
  | none => dev
  | some kn =>
    let a := (c.accAt s gr m n).toNat
    let e := rowSigns v (bankRow kn gr m n)
    let part (sl : Nat) : List (Nat × Int) := (v.slice c.level sl).map fun j => (j, planeSum v e j)
    let put (d : Device) (s' g : Int) : Device := modKiln d wgn fun k => { k with acc := promote k.acc c.split a v ws s' g }
    if v.poisoned then put dev 0 0
    else
      let (s', g, t, d1) := deliver dev c.level (part 0) (part 1) (part 2)
      let cx := (wg dev wgn).ctx
      let co := (wg dev wgn).core
      let add (d : Device) (kind sl n : Nat) : Device := addCone d cx co kind sl n
      let d2 := add (add (add d1 0 0 (part 0).length) 0 1 (part 1).length) 0 2 (part 2).length
      let d3 := add (add (add d2 1 0 t.mism.1) 1 1 t.mism.2) 2 0 t.rep
      put (add (add d3 3 0 t.clamp.1) 3 1 t.clamp.2) s' g

/-- The step on one group: every selected macro with its weight scale, 4 bytes each in `ws`, every row (R326). -/
def stepGroup (dev : Device) (wgn : Nat) (c : KCmd) (v : Vec) (ws : List Byte) (s gr : Nat) : Device :=
  let d := (c.macros.zip (List.range c.macros.length)).foldl (fun d m =>
    (List.range 128).foldl (fun d n => stepRow d wgn c v (leAt ws (4 * m.2) 4) s gr m.1 n) d) dev
  if v.poisoned then modKiln d wgn fun k => { k with poison := true } else d

/-! ### KLOOP (R326) -/

/-- The ring a KLOOP names, by its slot. -/
def loopRing (dev : Device) (g : Nat) (c : KCmd) : Option Bind :=
  NMap.find? (wg dev g).rslots (bitsOf (c.bn 0) 0 5)

/-- A KLOOP ends: it leaves its ring, and completes (R249, R324). -/
def endLoop (dev : Device) (g code : Nat) : Device := finishCmd (kilnLeaveRings dev g) g code

/-- A KLOOP starts: in ring mode it registers as a getter, or fails (R324, R326, R247). -/
def startLoop (dev : Device) (g : Nat) (c : KCmd) : Except Nat Device :=
  let go (d : Device) (b : Option Bind) : Device :=
    modKiln d g fun k => { k with started := true, posS := 0, posQ := 0, ring := b }
  if !c.ringMode then .ok (go dev none)
  else
    match loopRing dev g c with
    | none => .error cRINGSTATE
    | some b =>
      let r := readRing dev b.loc
      if r.broken then .error cBROKEN
      else if r.slotsz < 320 then .error cRINGSTATE
      else .ok (go (engName (writeRing dev (kilnAgent dev g) b.loc { r with getters := r.getters + 1 }) b.loc (kilnName g)) (some b))

/-- The place after step s at rank q. -/
def nextPos (c : KCmd) (s q : Nat) : Nat × Nat := if q + 1 < c.groups.length then (s, q + 1) else (s + 1, 0)

/-- The step with its vector and scales: the sums and promotions, the release of the slot, then the next position or the
end (R326). On a ring that has broken meanwhile the release is refused and ends the command; so does, here, the kill of its
workgroup (R248, R324, R327). -/
def loopStep (dev : Device) (g : Nat) (c : KCmd) : Device :=
  match kilnOf dev g with
  | none => dev
  | some kn =>
    let d1 := stepGroup dev g c (Vec.parse (kn.buf.take 320)) (kn.buf.drop 320) kn.posS (c.groups.getD kn.posQ 0)
    let broken := kn.ring.any fun b => (readRing d1 b.loc).broken
    let d2 := match kn.ring, kn.slot with
      | some b, some i => if broken then d1 else release d1 (kilnAgent d1 g) b.loc i
      | _, _ => d1
    let (s, q) := nextPos c kn.posS kn.posQ
    let d3 := modKiln d2 g fun k => { k with slot := none, rd := 0, buf := [] }
    if kn.cancel then endLoop d3 g cCANCELLED
    else if broken then endLoop d3 g cBROKEN
    else if c.steps ≤ s then endLoop d3 g 0 else modKiln d3 g fun k => { k with posS := s, posQ := q }

/-- The sectors of a step's vector and scales that are to go, each an event; then the step (R326). -/
def stepReads (dev : Device) (g : Nat) (c : KCmd) : List (Loc × Nat) → Device
  | [] => loopStep dev g c
  | l :: r =>
    let (go, d0) := spendCut dev
    if !go then d0
    else
      let (bs, d1) := readSpans d0 (kilnAgent d0 g) [l]
      stepReads (modKiln d1 g fun k => { k with buf := k.buf ++ bs, rd := k.rd + 1 }) g c r

/-- The places of a step's vector, in the slot it took or in the scratchpad; none outside the ring's space. -/
def vecPlace (dev : Device) (g : Nat) (kn : Kiln) (c : KCmd) : Option (List (Loc × Nat)) :=
  match kn.ring, kn.slot with
  | some b, some i => ringPlace dev g b.loc ((readRing dev b.loc).offset i) 320
  | _, _ => some ((sectorSpans (c.vecAt kn.posS kn.posQ) 320).map fun s => (Loc.scr g s.1, s.2))

/-- A KLOOP's next step, its slot taken in ring mode: the reads that are to go, and the step. -/
def goStep (dev : Device) (g : Nat) (c : KCmd) : Device :=
  match kilnOf dev g with
  | none => dev
  | some kn =>
    match vecPlace dev g kn c with
    | none => endLoop dev g cRINGSTATE
    | some ls =>
      let gr := c.groups.getD kn.posQ 0
      let scales := c.macros.flatMap fun m => (sectorSpans (c.scaleAt kn.posS gr m).toNat 4).map fun s => (Loc.scr g s.1, s.2)
      let reads := (if c.ringMode then scales else ls ++ scales).map fun l => l.1.sector
      if heldBack dev (wg dev g).ctx c.order reads [] then dev
      else stepReads dev g c ((ls ++ scales).drop kn.rd)

/-- A running KLOOP's next step, in ring or direct mode. A closed ring that holds no slot, and a broken one, end it. -/
def runLoop (dev : Device) (g : Nat) (kn : Kiln) (c : KCmd) : Device :=
  if !c.ringMode || kn.slot.isSome then goStep dev g c
  else
    match kn.ring with
    | none => endLoop dev g cRINGSTATE
    | some b =>
      let r := readRing dev b.loc
      if r.broken then endLoop dev g cBROKEN
      else if r.filled = 0 then (if r.closed then endLoop dev g cRINGSTATE else dev)
      else
        let (i, d1) := take dev (kilnAgent dev g) b.loc
        goStep (modKiln d1 g fun k => { k with slot := some i }) g c

def runStep (dev : Device) (g : Nat) : Device :=
  match running dev g 3 with
  | none => dev
  | some (kn, c) =>
    if kn.started then runLoop dev g kn c
    else
      let d0 := fetchCmd dev g kn c
      match startLoop d0 g c with
      | .error code => finishCmd d0 g code
      | .ok d1 => runLoop d1 g ((kilnOf d1 g).getD kn) c

def execKilnKloadRun (g : Nat) (s : State) : Host.Outcome State Fault Refusal := onDev s fun dev => runKload dev g
def execKilnKswapRun (g : Nat) (s : State) : Host.Outcome State Fault Refusal := onDev s fun dev => runKswap dev g
def execKilnStep (g : Nat) (s : State) : Host.Outcome State Fault Refusal := onDev s fun dev => runStep dev g
def execKilnDrainRun (g : Nat) (s : State) : Host.Outcome State Fault Refusal := onDev s fun dev => runKdrain dev g
def execKilnKzeroRun (g : Nat) (s : State) : Host.Outcome State Fault Refusal := onDev s fun dev => runKzero dev g

/-! ### KSTATUS (R325) -/

/-- The word KSTATUS reads for a workgroup. -/
def kstatusOf (x : Wg) : Word :=
  match x.kiln with
  | none => BitVec.ofNat 32 (65536 * (x.kstatus % 256) + nb x.kpoison 2)
  | some k => BitVec.ofNat 32 (65536 * (k.status % 256) + 256 * k.cmds.length + nb k.poison 2 + 1)

end Sys2Proof.Machine
end

