-- ==== Sys2Proof/Machine/Control.lean ====
section
/-!
DEFINITION. Class 2: control (R153 to R162), and the completions of SLEEP and WAITV.
-/

namespace Sys2Proof.Machine

/-! ### Transfers (R153 to R155) -/

/-- A control transfer of the issuing group. -/
def transferStep (s : State) (p : Pred) (tgt : Wave → Group → Thread → Nat → DWord) :
    Host.Outcome State Fault Refusal :=
  onDev s fun dev => modWave dev dev.cur.1 fun x =>
    transfer x dev.cur.2 p fun y t l => tgt y (group x dev.cur.2) t l

/-- The clause address `off` words from the header (R154). DESIGN CHOICE (log entry 57): one below 0 or at 2^57 and beyond
wraps modulo 2^57, the 57 bits of R93. -/
def branchTarget (g : Group) (off : Word) : DWord := pcClause (g.clause + 8 * off.signExtend 64)

/-- The clause address in a register pair (R153). -/
def regTarget (w : Wave) (t : Thread) (a : Src) : DWord := rd64 w t a &&& clauseMask

def execBra (off : Word) (s : State) : Host.Outcome State Fault Refusal :=
  transferStep s .always fun _ g _ _ => branchTarget g off

def execBrc (c : CBit) (sense : Bool) (off : Word) (s : State) : Host.Outcome State Fault Refusal :=
  transferStep s (.on sense c) fun _ g _ _ => branchTarget g off

def execJmpi (p : Pred) (a : Src) (s : State) : Host.Outcome State Fault Refusal :=
  transferStep s p fun x _ t _ => regTarget x t a

def execRet (p : Pred) (a : Src) (s : State) : Host.Outcome State Fault Refusal :=
  transferStep s p fun x _ t _ => regTarget x t a

/-- A call: the next clause address into the link, then the target, read before the link is written (R155). -/
def callStep (s : State) (p : Pred) (d : Reg) (tgt : Wave → Group → Thread → Nat → DWord) :
    Host.Outcome State Fault Refusal :=
  onDev s fun dev => modWave dev dev.cur.1 fun x =>
    let g := dev.cur.2
    let y := group x g
    leaveGroup (compute x g p (some d) fun _ _ _ => out64 (nextClause y)) g fun l =>
      if performs p (thread x l) then tgt x y (thread x l) l else nextClause y

def execCall (d : Reg) (off : Word) (s : State) : Host.Outcome State Fault Refusal :=
  callStep s .always d fun _ g _ _ => branchTarget g off

def execCalli (p : Pred) (d : Reg) (a : Src) (s : State) : Host.Outcome State Fault Refusal :=
  callStep s p d fun x _ t _ => regTarget x t a

/-! ### CONV, EXIT, NOP, YIELD (R156 to R159) -/

/-- The lanes of a group stop at its instruction, which they do not execute (R355). -/
def stopAt (x : Wave) (g : Nat) : Wave :=
  let y := group x g
  dropGroup (y.lanes.foldl (fun z l => modThread z l fun t =>
    { t with run := .stopped, pc := groupPc y, wait := .none, lead := false }) x) g

/-- After the wave's first handler fault a thread that reaches a CONV stops there (R355). -/
def execConv (p : Pred) (mask : Src) (s : State) : Host.Outcome State Fault Refusal :=
  onDev s fun dev =>
    if (wave dev dev.cur.1).first.isSome then modWave dev dev.cur.1 fun x => stopAt x dev.cur.2
    else gatherStep dev (.conv p mask) p mask fun _ _ => (0, 0)

/-- Threads of the group whose predicate holds exit in ascending WORKID, their events in that order; the others go to the next
clause (R157, R195, R373). -/
def execExit (p : Pred) (s : State) : Host.Outcome State Fault Refusal :=
  onDev s fun dev =>
    let (w, g) := dev.cur
    let x := wave dev w
    let y := group x g
    let dev1 := ((performers x y p).foldl (fun (q : Device × Option Nat) l =>
      let d := match q.2 with
        | some k => membersFollow q.1 w k l
        | none => q.1
      let d1 := exitThread (replayExit d (thread x l).launch (thread x l).workid.toNat) w l
      (d1, if (threadAt d1 w l).evSeq = (threadAt d w l).evSeq then q.2 else some l)) (dev, none)).1
    settleFatal (modWave dev1 w fun z => leaveGroup z g fun _ => nextClause y) w

/-- NOP has no effect; as the last word of a clause it passes every member on (R158). -/
def execNop (p : Pred) (s : State) : Host.Outcome State Fault Refusal := aluStep s p none fun _ _ _ => {}

/-- Whether a YIELD at this moment is a cooperative yield of wave `x` (R159, R371, R372). -/
def yieldStands (dev : Device) (x : Wave) : Bool :=
  match x.yieldReq with
  | some dl => decide (dev.ticks ≤ dl)
  | none => false

/-- With a request standing, a performed YIELD chooses the wave for eviction; the group goes to the next clause. -/
def execYield (p : Pred) (s : State) : Host.Outcome State Fault Refusal :=
  onDev s fun dev => modWave dev dev.cur.1 fun x =>
    let g := dev.cur.2
    let y := leaveGroup x g fun _ => nextClause (group x g)
    if !(performers x (group x g) p).isEmpty && yieldStands dev x then { y with leaving := some true } else y

/-! ### SLEEP and WAITV (R160, R161): each thread waits by itself -/

/-- A lane leaves its group and stands at the instruction, in a wait. -/
def waitAlone (x : Wave) (g l : Nat) (lead : Bool) (w : Wait) : Wave :=
  let pc := groupPc (group x g)
  modThread (leaveLane x g l) l fun t => { t with pc := pc, wait := w, lead := lead, inst := some (group x g).issued }

def execSleep (p : Pred) (a : Src) (s : State) : Host.Outcome State Fault Refusal :=
  onDev s fun dev => modWave dev dev.cur.1 fun x =>
    let g := dev.cur.2
    let y := group x g
    let z := (performers x y p).foldl (fun z l =>
      let n := (rd32 x (thread x l) a).toNat
      if n = 0 then z else waitAlone z g l false (.sleep (dev.ticks + n))) x
    leaveGroup z g fun _ => nextClause y

/-- A sleeping thread whose time has passed becomes ready at the next clause (R160). -/
def wakeSleep (dev : Device) (w l : Nat) : Device :=
  match (threadAt dev w l).wait with
  | .sleep til =>
    if til ≤ dev.ticks then modWave dev w fun x => sendLane x l (clauseAfter (thread x l).pc) else dev
  | _ => dev

def execSleepExpiry (w l : Nat) (s : State) : Host.Outcome State Fault Refusal :=
  onWaveDev s w fun dev => wakeSleep dev w l

/-- The writes that sectors have had (R161). -/
def writesOf (dev : Device) (ls : List Loc) : Nat := (ls.map fun l => (stampsOf dev l).writes).sum

/-- The clock of the quarter a wave is on. -/
def clockOf (dev : Device) (x : Wave) : Nat := (NMap.get {} (core dev x.core).quarters (x.slot / 8)).clk

/-- WAITV loads the sectors that are to go, one event a sector, and watches each from its load on (R161, R200); the first
event has been counted. -/
def lookOn (dev : Device) (w l : Nat) (x : Wave) (q : Watch) : List (Loc × Nat) → Watch × Device
  | [] => (q, dev)
  | (p, n) :: r =>
    let (bs, d1) := readOne dev w l p n
    let q1 : Watch := { locs := q.locs ++ [p.sector], writes := q.writes + (stampsOf d1 p).writes
                        clk := some (clockOf d1 x), rest := r, got := q.got ++ bs }
    match r with
    | [] => (q1, d1)
    | r =>
      let (go, d2) := spendCut d1
      if go then lookOn d2 w l x q1 r else (q1, d2)

/-- What a load of WAITV's word came to: cut, it stays in `cut`; a word that differs is its result; an equal one puts it to
sleep on the word's sectors and its quarter's clock (R161). -/
def waitvSaw (cut : Watch → Wait) (d : Reg) (r : BitVec 256) (i cmp : Word) (o : Watch × Device) : LaneRes × Device :=
  if !o.1.rest.isEmpty then (.wait (cut o.1), o.2)
  else
    let v : Word := BitVec.ofNat 32 (leNat o.1.got)
    if v = cmp then (.wait (.waitv d r i cmp { o.1 with got := [] }), o.2) else (.done (out32 v), o.2)

/-- One load of WAITV's word by lane `l`, checked as an LD.b32; a dropped one reads 0 (R161, R208). -/
def waitvLoad (dev : Device) (w l : Nat) (x : Wave) (cut : Watch → Wait) (d : Reg) (r : BitVec 256) (i cmp : Word) :
    LaneRes × Device :=
  onAccess (checkAcc dev w (recOf r) i.toNat 0 (ldAcc 4)) 1
    (fun d1 => waitvSaw cut d r i cmp ({ clk := some (clockOf d1 x) }, d1))
    fun d1 _ ls => waitvSaw cut d r i cmp (lookOn d1 w l x {} ls)

/-- A member of a WAITV. -/
def waitvMember (w : Nat) (d : Reg) (r : DReg) (i c : Src) (dv : Device) (x : Wave) (t : Thread) (l : Nat) :
    LaneRes × Device :=
  let rc := rdRec x r
  match t.wait with
  | .look q => waitvSaw .look d rc (rd32 x t i) (rd32 x t c) (lookOn dv w l x q q.rest)
  | _ => waitvLoad dv w l x .look d rc (rd32 x t i) (rd32 x t c)

/-- The members that sleep leave the group, which goes on to the next clause where every other has its word. -/
def sleepers (x : Wave) (g : Nat) : Wave :=
  match NMap.find? x.groups g with
  | none => x
  | some y => settleGroup (y.lanes.foldl (fun z l =>
      match (thread z l).wait with
      | .waitv _ _ _ _ _ => waitAlone z g l (thread z l).lead (thread z l).wait
      | _ => z) x) g

def execWaitv (p : Pred) (d : Reg) (r : DReg) (i c : Src) (s : State) : Host.Outcome State Fault Refusal :=
  onDev s fun dev =>
    modWave (members dev p (some d) (waitvMember dev.cur.1 d r i c)) dev.cur.1 fun x => sleepers x dev.cur.2

/-- One more load of a sleeping WAITV, or the rest of one that was cut: a differing word ends the wait at the next clause; an
equal one leaves it, asleep again (R161, R200). -/
def waitvTry (dev : Device) (w l : Nat) (d : Reg) (r : BitVec 256) (i cmp : Word) (q : Watch) : Device :=
  let x := wave dev w
  let (go, d0) := spendCut dev
  if !go then d0
  else
    match if q.rest.isEmpty then waitvLoad d0 w l x (.waitv d r i cmp) d r i cmp
        else waitvSaw (.waitv d r i cmp) d r i cmp (lookOn d0 w l x q q.rest) with
    | (.done o, d1) => modWave d1 w fun x =>
        sendLane (writeLate x l (some d) o) l (clauseAfter (thread x l).pc)
    | (.fault c a _, d1) => faultWait d1 w l c a
    | (.page va k lv a, d1) => parkWait d1 w l va k lv a
    | (.wait wt, d1) => modThreadAt d1 w l fun t => { t with wait := wt }

/-- The sleep of a WAITV is over: there has been a store event to a sector of its word, or 1,024 clocks of its quarter have
passed (R161); or its load is cut. DEDUCED (log entry 13): a thread that has resumed on a core loads at once. -/
def waitvDue (dev : Device) (x : Wave) (t : Watch) : Bool :=
  !t.rest.isEmpty || writesOf dev t.locs != t.writes ||
  match t.clk with
  | some c => decide (c + 1024 ≤ clockOf dev x)
  | none => true

/-- A thread in WAITV whose sleep is over loads the word again (R161). -/
def recheckWaitv (dev : Device) (w l : Nat) : Device :=
  let x := wave dev w
  match (thread x l).wait with
  | .waitv d r i cmp t =>
    if x.resident && (thread x l).run == .run && waitvDue dev x t then waitvTry dev w l d r i cmp t else dev
  | _ => dev

def execWaitvRecheck (w l : Nat) (s : State) : Host.Outcome State Fault Refusal :=
  onWaveDev s w fun dev => recheckWaitv dev w l

end Sys2Proof.Machine
end

