-- ==== Sys2Proof/Machine/Sync.lean ====
section
/-!
DEFINITION. Class 3 on objects and the token: barriers, rings, the commit token (R229 to R251), and the wakes of their
waits.
-/

namespace Sys2Proof.Machine

/-! ### Access to a global object (R230, R240) -/

/-- Translate a bound object's sector for a member: as an atomic where it is changed, as a load where it is only read. -/
def objTranslate (dev : Device) (w : Nat) (b : Bind) (change : Bool) : Option LaneRes × Device :=
  match b.loc with
  | .scr _ _ => (none, dev)
  | .glob _ =>
    let x := wave dev w
    let va := BitVec.ofNat 64 b.va
    match translate dev x.core x.ctx b.va (if change then .store else .load) with
    | (.ok _, d) => (none, d)
    | (.page lv, d) => (some (.page b.va 3 lv va), d)
    | (.protection, d) => (some (.fault cPROT va 0), d)

/-- An object instruction on a global object is an arrival at its slice's service wave (R392): the log is asked once for the
members in a row at one slice, by the lowest that performs; the answer says whether it goes on. -/
def askMember (dev : Device) (l : Nat) (loc : Loc) (va : Nat) : Bool × Device :=
  let (w, g) := dev.cur
  match loc with
  | .scr _ _ => (true, dev)
  | .glob pa =>
    let h := sliceOf pa
    if (group (wave dev w) g).asked.contains h then (true, dev)
    else
      let t := threadAt dev w l
      match askArrival dev t.launch h t.workid.toNat t.nAtom va with
      | (.hold, d) => (false, d)
      | (_, d) => (true, modWave d w fun x => setGroup x g { (group x g) with asked := [h] })

/-- Count an instruction a service wave executed for a member; in replay it may pass a record (R394). -/
def countObject (dev : Device) (w l : Nat) (loc : Loc) : Device :=
  match loc with
  | .scr _ _ => dev
  | .glob _ =>
    let d := modThreadAt dev w l fun t => { t with nAtom := t.nAtom + 1 }
    let t := threadAt d w l
    replayPassed d t.launch t.workid.toNat t.nAtom

/-- A member's arrival at an object, once the log lets it (R392 to R394). -/
def onArrival (dev : Device) (l : Nat) (loc : Loc) (va : Nat) (f : Device → LaneRes × Device) : LaneRes × Device :=
  match askMember dev l loc va with
  | (false, d) => (.wait .again, d)
  | (true, d) => f (countObject d d.cur.1 l loc)

/-- In a launch whose arrivals are logged an arrival is performed whole: nothing comes between its members, or its place in
the slice's order would say nothing (R392, R394). -/
def wholeArrival (dev : Device) : Device :=
  let x := wave dev dev.cur.1
  let logs := (group x dev.cur.2).lanes.any fun l =>
    let h := (launch dev (thread x l).launch).hdr
    !h.det && (h.rec_ || h.rep)
  if logs then { dev with cut := none } else dev

/-- Registered on the slot. -/
def onSlot (dev : Device) (w l : Nat) (sl : Slot) : Bool := (threadAt dev w l).breg.getLsbD sl.val

/-- An instruction on the object of barrier slot `sl`, member by member; `f` acts on the bound object, `unbound` is its
outcome where there is none, and, if `reg`, for a thread that is not registered on the slot. -/
def barStep (dev : Device) (p : Pred) (d : Option Reg) (sl : Slot) (change reg : Bool) (unbound : LaneOut)
    (f : Device → Wave → Thread → Nat → Bind → LaneRes × Device) : Device :=
  members (wholeArrival dev) p d fun dv x t l =>
    match NMap.find? (wg dv x.wg).bslots sl.val with
    | none => (.done unbound, dv)
    | some b =>
      match objTranslate dv dev.cur.1 b change with
      | (some r, dv1) => (r, dv1)
      | (none, dv1) =>
        if reg && !onSlot dv1 dev.cur.1 l sl then (.done unbound, dv1)
        else onArrival dv1 l b.loc b.va fun dv2 => f dv2 x t l b

/-! ### Members that wait at one object (R231, R248) -/

/-- Lanes `q` and `l` stand in one instruction as it issued. -/
def mates (x : Wave) (q l : Nat) : Bool :=
  (instOf x q).map Issued.ord == (instOf x l).map Issued.ord && pcOf x q == pcOf x l

/-- A lower WORKID of the instruction that lane `l` stands in still sleeps in a wait of this form: it acts first (R231, R248). -/
def lowerSleeps (x : Wave) (l : Nat) (form : Wait → Bool) : Bool :=
  x.threads.any fun q =>
    form q.2.wait && q.2.run == .run && decide (q.2.workid.toNat < (thread x l).workid.toNat) && mates x q.1 l

/-- A member has left its wait: the events of the instruction's higher WORKIDs follow its own (R195, R231). -/
def matesFollow (dev : Device) (w l : Nat) : Device :=
  let x := wave dev w
  (NMap.keys x.threads).foldl (fun d q =>
    if (thread x l).workid.toNat < (thread x q).workid.toNat && mates x q l then membersFollow d w l q else d) dev

/-- The wait of BWAIT and BSYNC on a slot. -/
def Wait.atBar (sl : Slot) : Wait → Bool
  | .bar sl' _ _ => sl' == sl
  | _ => false

/-- The sleep of a ring's putters or getters on a slot. -/
def Wait.atRing (put : Bool) (sl : Slot) : Wait → Bool
  | .ring pt sl' _ _ => pt == put && sl' == sl
  | _ => false

/-! ### Barriers (R240 to R243) -/

/-- The live engine work of context `c` that names a sector on its card, or in its command, as that of an object of this kind:
a job, a drain or a chunk; what names it keeps it registered (R230). -/
def namers (dev : Device) (c : Nat) (loc : Loc) (ring : Bool) : List Nat :=
  (dev.jobs.filterMap fun p =>
    let named := if ring then p.2.ringLoc else p.2.barLoc
    if p.2.ctx == c && jobLive p.2 && named == some loc then some p.1 else none) ++
  if ring then []
  else
    (dev.wgs.flatMap fun p =>
      let drains := ((p.2.kiln.map Kiln.cmds).getD []).filter fun m =>
        m.op == 4 && bitsOf (m.an 3) 0 1 == 1 && Loc.scr p.1 (bitsOf (m.an 3) 5 27 * 32) == loc
      if p.2.ctx == c then drains.map fun _ => kilnName p.1 else []) ++
    dev.chunks.filterMap fun p =>
      if p.2.ctx == c && p.2.live && (p.2.bar.any fun o => Loc.scr p.2.wg o == loc) then some (chunkName p.1) else none

/-- The access of BINIT and RINIT: 32 bytes, as an atomic. -/
def objAcc (spaces : Nat) : Acc := { n := 32, need := .store, spaces := spaces, kind := 3 }

/-- The sector lies in the slice of a window whose workgroup has ended: no core executes an object there (R230; log
entry 47). -/
def ownerless (l : Loc) : Bool :=
  match l with
  | .scr 0 _ => true
  | _ => false

/-- BINIT at a sector of a space, as one event; a slot on which it leaves no thread registered is unbound again (R229,
R240). -/
def binitAt (dev : Device) (w l : Nat) (sl : Slot) (loc : Loc) (va space : Nat) : Nat × Device :=
  let x := wave dev w
  let g := wg dev x.wg
  let other := match NMap.find? g.bslots sl.val with
    | some b => b.loc != loc
    | none => false
  let isRing := match objAt dev loc with
    | some o => o.ring
    | none => false
  if other || isRing || inKilnArea dev loc then (3, stampRead dev (.lane w l) loc)
  else
    let dev1 := if (objAt dev loc).isSome then dev
      else { dev with objs := { loc := loc, ring := false, ctx := x.ctx, space := space, eng := namers dev x.ctx loc false } :: dev.objs }
    let o := if (objAt dev loc).isSome then readBar dev loc else {}
    let dev2 := modWg dev1 x.wg fun g => { g with bslots := NMap.put g.bslots sl.val { loc := loc, va := va } }
    if o.broken then (1, sweepSlots (writeBar dev2 (.lane w l) loc o) x.wg)
    else if (threadAt dev w l).breg.getLsbD sl.val then (0, writeBar dev2 (.lane w l) loc o)
    else
      let dev3 := writeBar dev2 (.lane w l) loc { o with expected := o.expected + 1 }
      let dev4 := modObj dev3 loc fun b => { b with regs := (w, l) :: b.regs }
      (0, modThreadAt dev4 w l fun t =>
        { t with breg := t.breg ||| (1#32 <<< sl.val), arr := NMap.erase t.arr sl.val })

/-- One member of BINIT or RINIT: the address, its checks and its alignment, then the object's event, once no store under way
has the sector still to write (R200, R211, R240, R247). -/
def initMember (dv : Device) (w : Nat) (x : Wave) (t : Thread) (r : DReg) (i j : Src) (spaces : Nat) (k : CBit)
    (f : Device → Loc → Nat → LaneRes × Device) : LaneRes × Device :=
  let rc := recOf (rdRec x r)
  let a0 := rc.addr (rd32 x t i).toNat (rd32 x t j).toNat
  onAccess (checkAcc dv w rc (rd32 x t i).toNat (rd32 x t j).toNat (objAcc spaces)) 3
    (fun d => (.done (outSt k 4), d))
    fun d a ls =>
      match ls with
      | (loc, _) :: _ =>
        if a % 32 != 0 then (.fault cPROT (BitVec.ofNat 64 a0) 0, d)
        else if ownerless loc then
          let (n, d1) := freeNat d
          (.done (outSt k ([0, 1, 3, 4].getD (n % 4) 0)), d1)
        else if storeDue d loc then (.wait .again, d)
        else f d loc a
      | [] => (.done (outSt k 4), d)

def execBinit (k : CBit) (sl : Slot) (p : Pred) (d : Reg) (r : DReg) (i j : Src) (s : State) :
    Host.Outcome State Fault Refusal :=
  onDev s fun dev => members (wholeArrival dev) p (some d) fun dv x t l =>
    initMember dv dev.cur.1 x t r i j 7 k fun d loc a => onArrival d l loc a fun d1 =>
      let (st, d2) := binitAt d1 dev.cur.1 l sl loc a (recOf (rdRec x r)).space
      (.done (outSt k st), d2)

/-- Arrive (R241): the status. -/
def arriveAt (dev : Device) (w l : Nat) (sl : Slot) (b : Bind) : Nat × Device :=
  let o := readBar dev b.loc
  if o.broken then (1, stampRead dev (.lane w l) b.loc)
  else if NMap.find? (threadAt dev w l).arr sl.val = some o.phase then (3, stampRead dev (.lane w l) b.loc)
  else
    let dev1 := writeBar dev (.lane w l) b.loc { o with arrived := o.arrived + 1, armed := true }.check
    (0, modThreadAt dev1 w l fun t => { t with arr := NMap.put t.arr sl.val o.phase })

/-- Whether a wait on a barrier is over, and its status (R241). -/
def barWaitOver (dev : Device) (t : Thread) (sl : Slot) (b : Bind) : Option Nat :=
  let o := readBar dev b.loc
  if o.broken then some 1
  else if NMap.find? t.arr sl.val = some o.phase then none
  else some (if o.status != 0 then 5 else 0)

/-- The wait part of BWAIT and BSYNC (R241): a member sleeps behind a lower WORKID that still does (R231). -/
def barWait (dev : Device) (w l : Nat) (sl : Slot) (b : Bind) (d : Reg) (k : CBit) : LaneRes × Device :=
  match barWaitOver dev (threadAt dev w l) sl b with
  | some st =>
    if lowerSleeps (wave dev w) l (Wait.atBar sl) then (.wait (.bar sl d k), dev)
    else (.done (outSt k st), stampRead dev (.lane w l) b.loc)
  | none => (.wait (.bar sl d k), dev)

def execBarrive (k : CBit) (sl : Slot) (p : Pred) (d : Reg) (s : State) : Host.Outcome State Fault Refusal :=
  onDev s fun dev => barStep dev p (some d) sl true true (outSt k 4) fun dv _ _ l b =>
    let (st, dv1) := arriveAt dv dev.cur.1 l sl b
    (.done (outSt k st), dv1)

def execBwait (k : CBit) (sl : Slot) (p : Pred) (d : Reg) (s : State) : Host.Outcome State Fault Refusal :=
  onDev s fun dev => barStep dev p (some d) sl false true (outSt k 4) fun dv _ _ l b =>
    if holdsToken dv dev.cur.1 then (.fault cTKHOLD 0 0, dv) else barWait dv dev.cur.1 l sl b d k

/-- BSYNC waits only where its arrival returned OK (R241). -/
def execBsync (k : CBit) (sl : Slot) (p : Pred) (d : Reg) (s : State) : Host.Outcome State Fault Refusal :=
  onDev s fun dev => barStep dev p (some d) sl true true (outSt k 4) fun dv _ _ l b =>
    if holdsToken dv dev.cur.1 then (.fault cTKHOLD 0 0, dv)
    else
      let (st, dv1) := arriveAt dv dev.cur.1 l sl b
      if st = 0 then barWait dv1 dev.cur.1 l sl b d k else (.done (outSt k st), dv1)

def execBdrop (k : CBit) (sl : Slot) (p : Pred) (d : Reg) (s : State) : Host.Outcome State Fault Refusal :=
  onDev s fun dev => barStep dev p (some d) sl true true (outSt k 4) fun dv _ _ l _ =>
    let (st, dv1) := leaveBarrier dv dev.cur.1 l sl.val
    (.done (outSt k st), dv1)

/-- BQUERY reads the first half of the sector; .st the second, clearing STATUS and DONE in the same event (R242). -/
def execBquery (st : Bool) (k : CBit) (sl : Slot) (p : Pred) (d : Reg) (s : State) :
    Host.Outcome State Fault Refusal :=
  onDev s fun dev =>
    barStep dev p (some d) sl st false { ws := [0, 0, 0, 0], ks := [(k, false)] } fun dv _ _ l b =>
      let o := readBar dv b.loc
      let bs := getBytes dv (if st then Loc.add b.loc.sector 16 else b.loc.sector) 16
      let out : LaneOut :=
        { ws := (List.range 4).map fun i => BitVec.ofNat 32 (leAt bs (4 * i) 4), ks := [(k, !o.broken)] }
      (.done out, if st then writeBar dv (.lane dev.cur.1 l) b.loc { o with status := 0, done := 0 }
        else stampRead dv (.lane dev.cur.1 l) b.loc)

def execBexpect (k : CBit) (sl : Slot) (p : Pred) (d : Reg) (a : Src) (s : State) :
    Host.Outcome State Fault Refusal :=
  onDev s fun dev => barStep dev p (some d) sl true false (outSt k 4) fun dv x t l b =>
    let o := readBar dv b.loc
    if o.broken then (.done (outSt k 1), stampRead dv (.lane dev.cur.1 l) b.loc)
    else
      (.done (outSt k 0), writeBar dv (.lane dev.cur.1 l) b.loc
        { o with countdown := o.countdown + rd32 x t a, armed := true }.check)

/-- A thread that waits on a barrier wakes once its phase is complete or the object is broken (R235, R241), the lower WORKIDs of
its instruction first (R231). -/
def wakeBar (dev : Device) (w l : Nat) : Device :=
  let x := wave dev w
  match (thread x l).wait with
  | .bar sl d k =>
    if !x.resident || (thread x l).run != .run || lowerSleeps x l (Wait.atBar sl) then dev
    else
      match NMap.find? (wg dev x.wg).bslots sl.val with
      | none => finishWait dev w l (some d) (outSt k 4)
      | some b =>
        match barWaitOver dev (thread x l) sl b with
        | none => dev
        | some st => finishWait (matesFollow (stampRead dev (.lane w l) b.loc) w l) w l (some d) (outSt k st)
  | _ => dev

def execBarrierWaitWake (w l : Nat) (s : State) : Host.Outcome State Fault Refusal :=
  onWaveDev s w fun dev => wakeBar dev w l

/-! ### Rings (R247 to R249) -/

/-- RINIT at a sector, as one event, as BINIT; `size` is that of the space and `off` the sector's offset in it (R247).
DESIGN CHOICE (log entry 47): a role is held by a thread through a slot, so one that registers a ring through two slots holds
it, and is counted, twice. -/
def rinitAt (dev : Device) (w l : Nat) (sl : Slot) (get : Bool) (loc : Loc) (off size space : Nat) : Nat × Device :=
  let x := wave dev w
  let other := match NMap.find? (wg dev x.wg).rslots sl.val with
    | some b => b.loc != loc
    | none => false
  if other || barrierAt dev loc || inKilnArea dev loc then (3, stampRead dev (.lane w l) loc)
  else
    let isNew := (objAt dev loc).isNone
    let r0 := readRing dev loc
    if isNew && !r0.geometryOk off size then (6, stampRead dev (.lane w l) loc)
    else
      let r := if isNew then r0.fresh else r0
      let dev1 := if isNew then { dev with objs := { loc := loc, ring := true, ctx := x.ctx, space := space, eng := namers dev x.ctx loc true } :: dev.objs } else dev
      let dev2 := modWg dev1 x.wg fun g => { g with rslots := NMap.put g.rslots sl.val { loc := loc, va := off } }
      let who := Who.lane w l
      if r.broken then (1, sweepSlots (writeRing dev2 who loc r) x.wg)
      else if !get && r.closed then (2, sweepSlots (writeRing dev2 who loc r) x.wg)
      else
        let h := NMap.get {} (threadAt dev w l).rings sl.val
        let has := if get then h.get else h.put
        if has then (0, writeRing dev2 who loc r)
        else
          let r1 := if get then { r with getters := r.getters + 1 } else { r with putters := r.putters + 1 }
          let h1 := if get then { h with get := true } else { h with put := true }
          let dev3 := modObj (writeRing dev2 who loc r1) loc fun o =>
            { o with regs := if o.regs.contains (w, l) then o.regs else (w, l) :: o.regs }
          (0, modThreadAt dev3 w l fun t => { t with rings := NMap.put t.rings sl.val h1 })

/-- Bytes of a workgroup's scratchpad or window (R209). -/
def spaceSize (dev : Device) (g space : Nat) : Nat :=
  let x := wg dev g
  if space = 1 then x.scratch else (launch dev x.launch).hdr.e1 * x.scratch

def execRinit (get : Bool) (k : CBit) (sl : Slot) (p : Pred) (d : Reg) (r : DReg) (i j : Src) (s : State) :
    Host.Outcome State Fault Refusal :=
  onDev s fun dev => members dev p (some d) fun dv x t l =>
    initMember dv dev.cur.1 x t r i j 6 k fun d loc a =>
      let space := (recOf (rdRec x r)).space
      let (st, d1) := rinitAt d dev.cur.1 l sl get loc a (spaceSize d x.wg space) space
      (.done (outSt k st), d1)

/-- The outcome of an .acq form (R248). -/
def acqOut (k : CBit) : Except Nat Nat → LaneOut
  | .ok off => { ws := [BitVec.ofNat 32 off], ks := [(k, true)] }
  | .error st => { ws := [BitVec.ofNat 32 st], ks := [(k, false)] }

/-- Try an .acq form for a thread in its role; none where it sleeps (R248). -/
def ringTry (dev : Device) (w l : Nat) (put : Bool) (sl : Slot) (b : Bind) : Option (Except Nat Nat) × Device :=
  let r := readRing dev b.loc
  let who := Who.lane w l
  let hold (d : Device) (f : RingHold → RingHold) : Device := modThreadAt d w l fun t =>
    { t with rings := NMap.put t.rings sl.val (f (NMap.get {} t.rings sl.val)) }
  if r.broken then (some (.error 1), stampRead dev who b.loc)
  else if put then
    if r.closed then (some (.error 2), stampRead dev who b.loc)
    else if r.free = 0 then (none, dev)
    else
      let (i, dev1) := reserve dev who b.loc
      (some (.ok (r.offset i)), hold dev1 fun h => { h with reserved := h.reserved ++ [i] })
  else if r.filled = 0 then
    if r.closed then (some (.error 2), stampRead dev who b.loc) else (none, dev)
  else
    let (i, dev1) := take dev who b.loc
    (some (.ok (r.offset i)), hold dev1 fun h => { h with taken := h.taken ++ [i] })

/-- One member of RPUT.acq or RGET.acq: it sleeps behind a lower WORKID of the instruction that still does (R248). -/
def acqMember (dv : Device) (w l : Nat) (put : Bool) (k : CBit) (sl : Slot) (d : Reg) : LaneRes × Device :=
  let h := NMap.get {} (threadAt dv w l).rings sl.val
  match NMap.find? (wg dv (wave dv w).wg).rslots sl.val with
  | none => (.done (acqOut k (.error 4)), dv)
  | some b =>
    if !(if put then h.put else h.get) then (.done (acqOut k (.error 4)), dv)
    else if lowerSleeps (wave dv w) l (Wait.atRing put sl) then (.wait (.ring put sl d k), dv)
    else
      match ringTry dv w l put sl b with
      | (some r, dv1) => (.done (acqOut k r), dv1)
      | (none, dv1) => (.wait (.ring put sl d k), dv1)

def execRputAcq (k : CBit) (sl : Slot) (p : Pred) (d : Reg) (s : State) : Host.Outcome State Fault Refusal :=
  onDev s fun dev => members dev p (some d) fun dv _ _ l => acqMember dv dev.cur.1 l true k sl d

def execRgetAcq (k : CBit) (sl : Slot) (p : Pred) (d : Reg) (s : State) : Host.Outcome State Fault Refusal :=
  onDev s fun dev => members dev p (some d) fun dv _ _ l => acqMember dv dev.cur.1 l false k sl d

/-- One member of RPUT.pub or RGET.rel: the slot is one it holds at that offset (R248). -/
def pubMember (dv : Device) (w l : Nat) (put : Bool) (k : CBit) (sl : Slot) (off : Nat) : LaneRes × Device :=
  let h := NMap.get {} (threadAt dv w l).rings sl.val
  match NMap.find? (wg dv (wave dv w).wg).rslots sl.val with
  | none => (.done (outSt k 4), dv)
  | some b =>
    let who := Who.lane w l
    if !(if put then h.put else h.get) then (.done (outSt k 4), dv)
    else
      let r := readRing dv b.loc
      if r.broken then (.done (outSt k 1), stampRead dv who b.loc)
      else
        let mine := if put then h.reserved else h.taken
        match mine.find? fun i => r.offset i == off with
        | none => (.done (outSt k 3), stampRead dv who b.loc)
        | some i =>
          let dv1 := if put then publish dv who b.loc i else release dv who b.loc i
          let rest := mine.erase i
          let h1 := if put then { h with reserved := rest } else { h with taken := rest }
          (.done (outSt k 0), modThreadAt dv1 w l fun t => { t with rings := NMap.put t.rings sl.val h1 })

def execRputPub (k : CBit) (sl : Slot) (p : Pred) (d : Reg) (a : Src) (s : State) :
    Host.Outcome State Fault Refusal :=
  onDev s fun dev => members dev p (some d) fun dv x t l =>
    pubMember dv dev.cur.1 l true k sl (rd32 x t a).toNat

def execRgetRel (k : CBit) (sl : Slot) (p : Pred) (d : Reg) (a : Src) (s : State) :
    Host.Outcome State Fault Refusal :=
  onDev s fun dev => members dev p (some d) fun dv x t l =>
    pubMember dv dev.cur.1 l false k sl (rd32 x t a).toNat

def execRclose (k : CBit) (sl : Slot) (p : Pred) (d : Reg) (s : State) : Host.Outcome State Fault Refusal :=
  onDev s fun dev => members dev p (some d) fun dv _ _ l =>
    let (st, dv1) := leaveRing dv dev.cur.1 l sl.val
    (.done (outSt k st), dv1)

/-- A sleeping ring acquire wakes, the lower WORKIDs of its instruction first (R248, R249). -/
def wakeRing (dev : Device) (w l : Nat) : Device :=
  let x := wave dev w
  match (thread x l).wait with
  | .ring put sl d k =>
    if !x.resident || (thread x l).run != .run || lowerSleeps x l (Wait.atRing put sl) then dev
    else
      match NMap.find? (wg dev x.wg).rslots sl.val with
      | none => finishWait dev w l (some d) (acqOut k (.error 4))
      | some b =>
        match ringTry dev w l put sl b with
        | (some r, dev1) => finishWait (matesFollow dev1 w l) w l (some d) (acqOut k r)
        | (none, _) => dev
  | _ => dev

def execRingWaitWake (w l : Nat) (s : State) : Host.Outcome State Fault Refusal :=
  onWaveDev s w fun dev => wakeRing dev w l

/-! ### The commit token (R250, R251) -/

def execTkwait (p : Pred) (k : CBit) (s : State) : Host.Outcome State Fault Refusal :=
  onDev s fun dev => members dev p none fun dv x _ _ =>
    if !(launch dv x.launch).hdr.det then (.done { ks := [(k, false)] }, dv)
    else if holdsToken dv dev.cur.1 then (.done { ks := [(k, true)] }, dv)
    else (.wait (.token k), dv)

/-- TKPASS passes the token once if any member's predicate holds and the wave holds it (R251). -/
def execTkpass (p : Pred) (s : State) : Host.Outcome State Fault Refusal :=
  onDev s fun dev =>
    let (w, g) := dev.cur
    let x := wave dev w
    let dev1 := if !(performers x (group x g) p).isEmpty && holdsToken dev w then
        deliverToken (modLaunch dev x.launch fun l => passToken l (waveTs w x)) x.launch
      else dev
    modWave dev1 w fun x => advance x g

/-- The token stands at a resident wave: its threads in TKWAIT go on (R250, R251). -/
def arriveToken (dev : Device) (w : Nat) : Device :=
  let x := wave dev w
  if x.resident && holdsToken dev w then
    (NMap.keys x.threads).foldl (fun d l =>
      match (threadAt d w l).wait, (threadAt d w l).run with
      | .token k, .run => finishWait d w l none { ks := [(k, true)] }
      | _, _ => d) dev
  else dev

def execTokenArrival (w : Nat) (s : State) : Host.Outcome State Fault Refusal :=
  onWaveDev s w fun dev => arriveToken dev w

end Sys2Proof.Machine
end

