-- ==== Sys2Proof/Machine/Spawn.lean ====
section
/-!
DEFINITION. Spawn entries and bins (R25, R26, R84 to R86, R252, R253, R439), the event vector (R71, R72, R254, R255).
-/

namespace Sys2Proof.Machine

/-! ### Entry headers (R25, R26) -/

structure EntryHdr where
  regs : Nat
  timer : Nat
  scratch : Nat
  depth : Nat
deriving DecidableEq, Repr

/-- The entry header of 32 bytes, where it is in range (R25). -/
def parseEntry (bs : List Byte) : Option EntryHdr :=
  let h : EntryHdr := { regs := leAt bs 0 2, timer := leAt bs 2 2, scratch := leAt bs 4 4, depth := leAt bs 8 1 }
  if leAt bs 9 1 == 0x5E && zeroAt bs 10 22 && decide (8 ≤ h.regs ∧ h.regs ≤ 128) && h.regs % 8 == 0 &&
    h.scratch % 256 == 0 && decide (h.scratch ≤ 2 ^ 20) && decide (1 ≤ h.depth ∧ h.depth ≤ 4) then some h else none

/-- Read 32 bytes of code, word by word (R193, R252). -/
def fetchEntry (dev : Device) (co c va : Nat) : Nat → Except FRes (List Byte) × Device
  | 0 => (.ok [], dev)
  | n + 1 =>
    match fetchWord dev co c va with
    | (.word w, d) =>
      match fetchEntry d co c (va + 8) n with
      | (.ok bs, d1) => (.ok (leBytes 8 w.toNat ++ bs), d1)
      | (.error e, d1) => (.error e, d1)
    | (e, d) => (.error e, d)

/-! ### Bins (R84, R85) -/

def Bin.is (b : Bin) (cl c : Nat) (entry : DWord) : Bool := b.cluster == cl && b.ctx == c && b.entry == entry

def binAt (dev : Device) (cl c : Nat) (entry : DWord) : Option Bin := dev.bins.find? fun b => b.is cl c entry

/-- The launch whose settings a bin's wave takes: that of its first thread (R26, R78). -/
def Bin.launch (b : Bin) : Nat :=
  match b.threads with
  | t :: _ => t.launch
  | [] => 0

def Bin.firstId (b : Bin) : Nat :=
  match b.threads with
  | t :: _ => t.workid.toNat
  | [] => 0

/-- A bin launches its wave, a unit awaiting placement; the bin is then empty (R85, R86). -/
def launchBin (dev : Device) (b : Bin) : Device :=
  if b.threads.isEmpty then dev
  else
    { dev with bins := dev.bins.filter fun x => !x.is b.cluster b.ctx b.entry
               binUnits := dev.binUnits ++ [{ b with order := dev.binSeq }], binSeq := dev.binSeq + 1 }

/-- The bin of a cluster and context whose first thread entered earliest, among those a displacement may launch. -/
def oldestBin (dev : Device) (cl c : Nat) : Option Bin :=
  minBy (fun a b : Bin => decide (a.since < b.since ∨ (a.since = b.since ∧ a.order < b.order)))
    (dev.bins.filter fun b => b.cluster == cl && b.ctx == c && !(launch dev b.launch).hdr.det)

/-- Whether a thread of launch `lid` needs a 33rd bin of the cluster and context. -/
def needsBin (dev : Device) (cl c : Nat) (entry : DWord) : Bool :=
  (binAt dev cl c entry).isNone && decide (32 ≤ (dev.bins.filter fun b => b.cluster == cl && b.ctx == c).length)

/-- Make room for a 33rd bin: displace the oldest, or wait: in deterministic mode, and where the log holds the
displacement back (R85, R393, R394). -/
def roomForBin (dev : Device) (lid cl c : Nat) (entry : DWord) : Bool × Device :=
  if !needsBin dev cl c entry then (true, dev)
  else if (launch dev lid).hdr.det then (false, dev)
  else
    match oldestBin dev cl c with
    | none => (false, dev)
    | some b =>
      match askBin dev b.launch 2 cl b.threads.length b.firstId b.entry.toNat with
      | (.hold, d) => (false, d)
      | (_, d) => (true, launchBin d b)

/-- Enter a thread into its bin; a bin of W threads launches, in replay one of its record's count (R84, R85, R394). -/
def enterBin (dev : Device) (cl c : Nat) (entry : DWord) (h : EntryHdr) (t : BinThread) : Device :=
  let old := binAt dev cl c entry
  let b : Bin := match old with
    | some b => { b with threads := b.threads ++ [t] }
    | none => { cluster := cl, ctx := c, entry := entry, regs := h.regs, scratch := h.scratch, timer := h.timer
                threads := [t], since := dev.ticks, order := dev.binSeq }
  let dev1 : Device := match old with
    | some _ => { dev with bins := dev.bins.map fun x => if x.is cl c entry then b else x }
    | none => { dev with bins := dev.bins ++ [b], binSeq := dev.binSeq + 1 }
  let free := (binRec dev1 b.launch cl entry.toNat).isNone
  let (now, dev2) := askBinCount dev1 b.launch cl b.threads.length b.firstId entry.toNat
  if now || (free && decide (Config.W ≤ b.threads.length)) then launchBin dev2 b else dev2

/-- What came of entering a thread at an entry: entered, failed, held for want of a bin, or the header's fetch stopped
(R252, R271). -/
inductive SpawnRes
  | entered
  | failed
  | held
  | page (va level : Nat)
  | protection
deriving DecidableEq, Repr

/-- The checks of SPAWN of an entry by thread `t` of wave `x`: its header, or why it gives none (R26, R252). -/
def spawnCheck (dev : Device) (x : Wave) (t : Thread) (entry : DWord) : Except SpawnRes EntryHdr × Device :=
  if entry.toNat % 32 != 0 then (.error .failed, dev)
  else
    let va := (entry - 32).toNat
    match fetchEntry dev x.core x.ctx va 4 with
    | (.error (.page lv), d) => (.error (.page va lv), d)
    | (.error _, d) => (.error .protection, d)
    | (.ok bs, d) =>
      match parseEntry bs with
      | none => (.error .failed, d)
      | some h => if min h.depth 4 < t.depth + 1 then (.error .failed, d) else (.ok h, d)

/-- Enter the new thread of `t` into its bin (R26, R252). -/
def enterThread (dev : Device) (x : Wave) (t : Thread) (entry : DWord) (h : EntryHdr) (workid : DWord)
    (pay : List Word) (paint : Option Nat) : Device :=
  enterBin dev (clusterOf x.core) x.ctx entry h
    { workid := workid, pay := pay, depth := t.depth + 1, launch := t.launch, paint := paint, pts := t.pts }

/-- Create a thread at an entry from thread `t` of wave `x` (R26, R252). -/
def spawnAt (dev : Device) (x : Wave) (t : Thread) (entry : DWord) (workid : DWord) (pay : List Word)
    (paint : Option Nat) :
    SpawnRes × Device :=
  match spawnCheck dev x t entry with
  | (.error r, d) => (r, d)
  | (.ok h, d) =>
    match roomForBin d t.launch (clusterOf x.core) x.ctx entry with
    | (false, d1) => (.held, d1)
    | (true, d1) => (.entered, enterThread d1 x t entry h workid pay paint)

def execSpawn (p : Pred) (k : CBit) (a b c : Src) (s : State) : Host.Outcome State Fault Refusal :=
  onDev s fun dev => members dev p none fun dv x t l =>
    let entry := rd64 x t a
    let pay := (List.range 3).map fun i => rdQuad x t b i
    match spawnAt dv x (threadAt dv dev.cur.1 l) entry (rd64 x t c) pay none with
    | (.entered, d) => (.done { ks := [(k, true)] }, d)
    | (.failed, d) => (.done { ks := [(k, false)] }, d)
    | (.held, d) => (.wait .again, d)
    | (.page va lv, d) => (.page va 5 lv (entry - 32), d)
    | (.protection, d) => (.fault cPROT (entry - 32) 0, d)

/-- BFLUSH launches the bin of an entry; .all, every nonempty bin of the cluster and context (R253). In replay a bin whose
stream has a record left launches only at that record's count (R394). -/
def flushBins (dev : Device) (cl c : Nat) (entry : Option DWord) : Device :=
  (dev.bins.filter fun b => b.cluster == cl && b.ctx == c && (entry.isNone || entry == some b.entry) &&
    (binRec dev b.launch cl b.entry.toNat).isNone).foldl launchBin dev

def execBflush (p : Pred) (a : Option Src) (s : State) : Host.Outcome State Fault Refusal :=
  onDev s fun dev => members dev p none fun dv x t _ =>
    (.done {}, flushBins dv (clusterOf x.core) x.ctx (a.map fun r => rd64 x t r))

/-- A bin's timer runs out: TIMER µs, of 100 TICKS each, after its first thread entered; not in deterministic mode, nor
while the log holds it back (R85, R393, R394). -/
def binTimer (dev : Device) (cl c : Nat) (entry : DWord) : Device :=
  match binAt dev cl c entry with
  | none => dev
  | some b =>
    if b.timer = 0 || (launch dev b.launch).hdr.det || decide (dev.ticks < b.since + 100 * b.timer) then dev
    else
      match askBin dev b.launch 1 cl b.threads.length b.firstId entry.toNat with
      | (.hold, d) => d
      | (_, d) => launchBin d b

def execBinTimerExpiry (cl c : Nat) (entry : DWord) (s : State) : Host.Outcome State Fault Refusal :=
  onDev s fun dev => binTimer dev cl c entry

/-- A thread of launch `lid` remains outside spawn bins: one that runs, one of a bin wave awaiting placement, or one of
a workgroup not yet placed (R439). -/
def launchOutside (dev : Device) (lid : Nat) : Bool :=
  let l := launch dev lid
  (l.state != .complete && decide (l.nextWg < l.hdr.wgCount)) ||
  dev.waves.any (fun p => p.2.live && p.2.threads.any fun q => q.2.launch == lid && alive q.2) ||
  dev.binUnits.any fun b => b.threads.any fun t => t.launch == lid

/-- A bin drains once no thread outside bins remains of the launch of any thread in it (R85, R439). -/
def binDrains (dev : Device) (cl c : Nat) (entry : DWord) : Device :=
  match binAt dev cl c entry with
  | none => dev
  | some b =>
    if b.threads.any fun t => launchOutside dev t.launch then dev
    else
      let (go, d) := askDrain dev b.launch cl entry.toNat
      if go then launchBin d b else d

def execBinDrain (cl c : Nat) (entry : DWord) (s : State) : Host.Outcome State Fault Refusal :=
  onDev s fun dev => binDrains dev cl c entry

/-! ### The event vector (R71, R72) -/

/-- After a change of a context's vector, and at issue: every waiting launch whose mask it satisfies is due; what it is
released with is fixed at this point (R72, R73, R199). -/
def noteVector (dev : Device) (c : Nat) : Device :=
  let ev := (ctx dev c).events
  dev.launches.foldl (fun d p =>
    if p.2.ctx == c && p.2.state == .waiting && p.2.hdr.waitMask &&& ev == p.2.hdr.waitMask then
      let d1 := modLaunch d p.1 fun l =>
        { l with state := .due, dueAt := d.ticks, relSeq := d.relSeq, relTs := d.topTs }
      { d1 with relSeq := d.relSeq + 1 }
    else d) dev

/-- Set bits of the vector: one change in its serial order (R71). -/
def setEvents (dev : Device) (c : Nat) (m : BitVec 256) : Device :=
  noteVector (modCtx dev c fun x => { x with events := x.events ||| m }) c

def clearEvents (dev : Device) (c : Nat) (m : BitVec 256) : Device :=
  noteVector (modCtx dev c fun x => { x with events := x.events &&& ~~~m }) c

def execEvsig (p : Pred) (a : Src) (s : State) : Host.Outcome State Fault Refusal :=
  onDev s fun dev => members dev p none fun dv x t _ =>
    (.done {}, setEvents dv x.ctx (1#256 <<< bitsOf (rd32 x t a).toNat 0 8))

/-- EVTEST reads the vector at one point for all members (R255). -/
def execEvtest (p : Pred) (d : EvDst) (a : Src) (s : State) : Host.Outcome State Fault Refusal :=
  let ev := (ctx s.dev (wave s.dev s.dev.cur.1).ctx).events
  match d with
  | .bit c => aluStep s p none fun x t _ => outC c (ev.getLsbD (bitsOf (rd32 x t a).toNat 0 8))
  | .word r => aluStep s p (some r) fun x t _ => out32 (ev.extractLsb' (32 * bitsOf (rd32 x t a).toNat 0 3) 32)

end Sys2Proof.Machine
end

