-- ==== Sys2Proof/Machine/Glaze.lean ====
section
/-!
DEFINITION. Class 6 and the ordered blender (R257 to R283), the ingest of an encoder session (R419).
-/

namespace Sys2Proof.Machine

def pathAt (dev : Device) (g p : Nat) : Option PathTile := NMap.find? (wg dev g).paths p
def setPath (dev : Device) (g p : Nat) (t : PathTile) : Device := modWg dev g fun x => { x with paths := NMap.put x.paths p t }
def destAt (dev : Device) (g t : Nat) : Option DestTile := NMap.find? (wg dev g).dests t
def setDest (dev : Device) (g t : Nat) (d : DestTile) : Device := modWg dev g fun x => { x with dests := NMap.put x.dests t d }

/-- Tiles bound on a core, of all its resident workgroups (R257). -/
def coreTiles (dev : Device) (co : Nat) (n : Wg → Nat) : Nat :=
  dev.wgs.foldl (fun r p => if p.2.live && p.2.resident && p.2.core == co then r + n p.2 else r) 0

/-- Room for one more path-tile, and for one more destination tile (R257). -/
def roomPath (dev : Device) (co : Nat) : Bool :=
  decide (coreTiles dev co (fun x => x.paths.length) < 64 ∧ storeUsed dev co + 2048 ≤ storeBytes)
def roomDest (dev : Device) (co : Nat) : Bool :=
  decide (coreTiles dev co (fun x => x.dests.length) < 16 ∧ storeUsed dev co + 65536 ≤ storeBytes)

/-- A status outcome of a Glaze instruction (R260, R261). -/
def glazeSt (k : CBit) (st : Nat) : LaneRes := .done (outSt k st)
/-- A count or coverage on OK. -/
def glazeVal (k : CBit) (n : Nat) : LaneRes := .done { ws := [BitVec.ofNat 32 n], ks := [(k, true)] }

/-- Run what a member's Glaze instruction does between the thread's preceding and following events, as events of its core's
Glaze (R259). -/
def glazeActs (dev : Device) (co w l : Nat) (f : Device → Device) : Device :=
  followsAgent (f (agentFollows dev (.glaze co) w l)) (.glaze co) w l

/-! ### Instructions that are under way on a tile (R200, R259) -/

/-- Mark a destination tile as one on which an instruction is under way, or no more. -/
def setBusy (dev : Device) (g t : Nat) (b : Bool) : Device :=
  match destAt dev g t with
  | some o => if o.busy = b then dev else setDest dev g t { o with busy := b }
  | none => dev

/-- The member has sectors of its access still to go. -/
def Wait.partly : Wait → Bool
  | .rest _ _ _ => true
  | _ => false

/-- Another instruction is under way on tile `t`: one that names it waits (R259). DESIGN CHOICE (log entry 6): events of
others come between the sectors of one instruction on a tile, but no other instruction on that tile. -/
def tileTaken (dev : Device) (g t : Nat) (wt : Wait) : Bool := !wt.partly && (destAt dev g t).any fun o => o.busy

/-- What a member's instruction on tile `t` comes to: with sectors still to go it is under way there. -/
def onTile (g t : Nat) (r : LaneRes × Device) : LaneRes × Device :=
  (r.1, setBusy r.2 g t (match r.1 with
    | .wait wt => wt.partly
    | _ => false))

/-- Reads or writes of Glaze, whole or cut off: `k` is what follows the whole. -/
def glazeThen (store : Bool) (r : Done × Device) (k : List Byte → Device → LaneRes × Device) : LaneRes × Device :=
  match r with
  | (.whole bs, d) => k bs d
  | (.part ls bs, d) => (.wait (.rest store ls bs), d)

/-- Glaze writes sectors, and nothing into a registered one (R201, R230). -/
def glazeWrite (dev : Device) (co : Nat) (ls : List (Loc × Nat)) (bs : List Byte) : Done × Device :=
  agentWrite dev (.glaze co) registered ls bs

/-! ### GCLR (R262) -/

def clearPath (dev : Device) (x : Wave) (p : Nat) (origin : Word) : Nat × Device :=
  if 63 < p then (1, dev)
  else if (pathAt dev x.wg p).isNone && !roomPath dev x.core then (2, dev)
  else (0, setPath dev x.wg p { origin := origin })

def execGclrPath (k : CBit) (p : Pred) (d : Reg) (a b : Src) (s : State) : Host.Outcome State Fault Refusal :=
  onDev s fun dev => members dev p (some d) fun dv x t l =>
    let (st, d1) := clearPath (agentFollows dv (.glaze x.core) dev.cur.1 l) x (rd32 x t b).toNat (rd32 x t a)
    (glazeSt k st, followsAgent d1 (.glaze x.core) dev.cur.1 l)

def execGclrPathFree (k : CBit) (p : Pred) (d : Reg) (b : Src) (s : State) : Host.Outcome State Fault Refusal :=
  onDev s fun dev => members dev p (some d) fun dv x t l =>
    let n := (rd32 x t b).toNat
    if (pathAt dv x.wg n).isNone then (glazeSt k 1, dv)
    else (glazeSt k 0, glazeActs dv x.core dev.cur.1 l fun d => modWg d x.wg fun y => { y with paths := NMap.erase y.paths n })

/-- The block at B overlaps another bound tile's, or a registered sector (R262). -/
def blockOverlaps (dev : Device) (g t b : Nat) : Bool :=
  ((wg dev g).dests.any fun q => q.1 != t && decide (b < q.2.block + 10240 ∧ q.2.block < b + 10240)) ||
  rangeRegistered dev g b 10240

/-- The lowest tile ID that no bound tile of the context has (R262). -/
def freeTileId (dev : Device) (c : Nat) : Option Nat :=
  lowestFree (dev.wgs.foldr (fun p r => if p.2.live && p.2.ctx == c then (p.2.dests.map fun q => q.2.id) ++ r else r) [])
    0 4096

/-- Bind or clear tile T under an ID: its generation rises (R262). -/
def bindDest (dev : Device) (x : Wave) (t b id : Nat) (origin : Word) : Device :=
  let gen := (NMap.get 0 (ctx dev x.ctx).tileGen id + 1) % 16
  let d1 := modCtx dev x.ctx fun c => { c with tileGen := NMap.put c.tileGen id gen }
  setDest d1 x.wg t { origin := origin, block := b, id := id, gen := gen }

/-- GCLR.dest writes the pixels, or those still to go (R262). -/
def clearPixels (dev : Device) (w l co : Nat) (k : CBit) (ls : List (Loc × Nat)) (bs : List Byte) : LaneRes × Device :=
  glazeThen true (glazeWrite dev co ls bs) fun _ d => (glazeSt k 0, followsAgent d (.glaze co) w l)

/-- A member of GCLR.dest: its checks and its binding, then the clear colour in all pixels (R262). -/
def clearDest (dv : Device) (w l : Nat) (x : Wave) (t : Thread) (tn : Nat) (k : CBit) (origin : Word) (blk : Nat) (c : DWord) :
    LaneRes × Device :=
  let old := destAt dv x.wg tn
  let bind (id : Nat) : LaneRes × Device :=
    clearPixels (bindDest (agentFollows dv (.glaze x.core) w l) x tn blk id origin) w l x.core k (scrSpans x.wg blk 2048)
      ((List.range 256).flatMap fun _ => leBytes 8 c.toNat)
  match t.wait with
  | .rest _ ls bs => clearPixels dv w l x.core k ls bs
  | _ =>
    if old.any fun o => !o.seqs.isEmpty then (glazeSt k 3, dv)
    else if blk % 256 ≠ 0 ∨ (wg dv x.wg).scratch < blk + 10240 then (.fault cPROT (BitVec.ofNat 64 blk) 0, dv)
    else if blockOverlaps dv x.wg tn blk then (glazeSt k 12, dv)
    else match old with
      | some o => bind o.id
      | none =>
        match if roomDest dv x.core then freeTileId dv x.ctx else none with
        | some id => bind id
        | none => (glazeSt k 2, dv)

def execGclrDest (tn : Fin 16) (k : CBit) (p : Pred) (d : Reg) (a b c : Src) (s : State) :
    Host.Outcome State Fault Refusal :=
  onDev s fun dev => members dev p (some d) fun dv x t l =>
    if tileTaken dv x.wg tn.val t.wait then (.wait .engine, dv)
    else onTile x.wg tn.val
      (clearDest dv dev.cur.1 l x t tn.val k (rd32 x t a) (rd32 x t b).toNat (rd64 x t c))

def execGclrDestFree (tn : Fin 16) (k : CBit) (p : Pred) (d : Reg) (s : State) : Host.Outcome State Fault Refusal :=
  onDev s fun dev => members dev p (some d) fun dv x t l =>
    match destAt dv x.wg tn.val with
    | none => (glazeSt k 1, dv)
    | some o =>
      if tileTaken dv x.wg tn.val t.wait then (.wait .engine, dv)
      else if !o.seqs.isEmpty then (glazeSt k 3, dv)
      else (glazeSt k 0, glazeActs dv x.core dev.cur.1 l fun d => modWg d x.wg fun y => { y with dests := NMap.erase y.dests tn.val })

/-! ### GSEQ, GFLAT, GDEP (R263 to R268) -/

def execGseq (k : CBit) (p : Pred) (d : Reg) (a b c : Src) (s : State) : Host.Outcome State Fault Refusal :=
  onDev s fun dev => members dev p (some d) fun dv x t l =>
    let n := (rd32 x t b).toNat
    let fl := (rdQuad x t a 1).toNat
    match pathAt dv x.wg n with
    | none => (glazeSt k 1, dv)
    | some q =>
      if fl / 16 ≠ 0 ∨ bitsOf fl 1 1 ≠ 0 ∨ bitsOf fl 2 2 = 3 then (glazeSt k 9, dv)
      else
        let desc : PathDesc :=
          { seq := rdQuad x t a 0, evenOdd := bitsOf fl 0 1 == 1, clip := bitsOf fl 2 2, pay0 := rdQuad x t a 2
            pay1 := rdQuad x t a 3, pay2 := rdQuad x t c 2, entry := rdQuad x t c 1 ++ rdQuad x t c 0 }
        (glazeSt k 0, glazeActs dv x.core dev.cur.1 l fun d => setPath d x.wg n { q with desc := desc })

/-- A point in words i and i + 1 of a quad. -/
def rdPoint (x : Wave) (t : Thread) (a : Src) (i : Nat) : Pt := ((rdQuad x t a i).toInt, (rdQuad x t a (i + 1)).toInt)

def execGflat (cubic fine : Bool) (k : CBit) (p : Pred) (d : Reg) (a b c : Src) (s : State) :
    Host.Outcome State Fault Refusal :=
  onDev s fun dev => members dev p (some d) fun dv x t l =>
    let n := (rd32 x t c).toNat
    match pathAt dv x.wg n with
    | none => (glazeSt k 1, dv)
    | some q =>
      let tau := if fine then 4 else 16
      let pts := if cubic then flatCubic tau (rdPoint x t a 0) (rdPoint x t a 2) (rdPoint x t b 0) (rdPoint x t b 2)
        else flatQuad tau (rdPoint x t a 0) (rdPoint x t a 2) (rdPoint x t b 0)
      (glazeVal k (pts.length - 1), glazeActs dv x.core dev.cur.1 l fun d => setPath d x.wg n (depositCurve q pts))

def execGdep (k : CBit) (p : Pred) (d : Reg) (a b : Src) (s : State) : Host.Outcome State Fault Refusal :=
  onDev s fun dev => members dev p (some d) fun dv x t l =>
    let n := (rd32 x t b).toNat
    match pathAt dv x.wg n with
    | none => (glazeSt k 1, dv)
    | some q =>
      (glazeSt k 0, glazeActs dv x.core dev.cur.1 l fun d =>
        setPath d x.wg n (depositSegment q (rdPoint x t a 0) (rdPoint x t a 2)))

/-! ### GSCAN, GCLIP (R269 to R273) -/

/-- The sectors of clip plane L of a tile's block (R258). -/
def planeSpans (g : Nat) (o : DestTile) (lev : Nat) : List (Loc × Nat) := scrSpans g (o.block + 2048 + 1024 * lev) 1024

/-- The tile's topmost clip plane, read as Glaze events; of one that is being read, the sectors still to go; nothing where it has
none (R258, R270). -/
def readPlane (dev : Device) (co g : Nat) (o : DestTile) (wt : Wait) : Done × Device :=
  match wt with
  | .rest _ ls bs => agentRead dev (.glaze co) bs ls
  | _ => if o.depth = 0 then (.whole [], dev) else agentRead dev (.glaze co) [] (planeSpans g o (o.depth - 1))

/-- The coverage of every pixel of a scan, with the bytes of the destination tile's clip (R269, R270). -/
def scanCover (q : PathTile) (o : DestTile) (plane : List Byte) : List Nat :=
  let ks := scanTile q
  if o.depth = 0 then ks
  else (ks.zip ((List.range 256).map fun i => leAt plane (4 * i) 4)).map fun kw => clipProduct kw.1 (planeCover kw.2)

/-- A clip path: its coverage becomes a plane (R270). -/
def clipScan (dev : Device) (w l co g t : Nat) (k : CBit) (q : PathTile) (o : DestTile) (ks : List Nat) : LaneRes × Device :=
  let push := q.desc.clip = 1 ∨ o.depth = 0
  let lev := if push then o.depth else o.depth - 1
  let d := setDest dev g t { o with depth := if push then o.depth + 1 else o.depth }
  planeWritten w l co k (glazeWrite d co (planeSpans g o lev) (ks.flatMap fun k => leBytes 4 k))
where
  /-- The plane is written, or has sectors still to go. -/
  planeWritten (w l co : Nat) (k : CBit) (r : Done × Device) : LaneRes × Device :=
    glazeThen true r fun _ d => (glazeVal k 0, followsAgent d (.glaze co) w l)

/-- The ticket of a pixel (R271). -/
def ticketOf (seq : Word) (o : DestTile) (px : Nat) : DWord :=
  BitVec.ofNat 64 (seq.toNat * 2 ^ 32 + o.id * 2 ^ 20 + o.gen * 2 ^ 16 + px)

/-- A painted path: the sequence opens with an entry for each covered pixel, whose paint threads, each tied to its entry by
a number of its own, enter their bin (R271, R276). -/
def paintScan (dev : Device) (w l t : Nat) (x : Wave) (q : PathTile) (o : DestTile) (h : EntryHdr) (ks : List Nat) :
    Device :=
  let px := ((List.range 256).zip ks).filter fun p => p.2 != 0
  let seq := q.desc.seq.toNat
  let ps := (List.range px.length).zip px
  let es : NMap BufEntry := ps.map fun p => (p.2.1, { k := p.2.2, uid := dev.nextId + p.1 })
  let o1 := { o with busy := false, last := some seq, seqs := if px.isEmpty then o.seqs else o.seqs ++ [(seq, es)] }
  ps.foldl (fun d p =>
    enterThread d x (threadAt d w l) q.desc.entry h (ticketOf q.desc.seq o p.2.1)
      [q.desc.pay0, q.desc.pay1, q.desc.pay2] (some (dev.nextId + p.1)))
    { setDest dev x.wg t o1 with nextId := dev.nextId + px.length }

/-- One member's GSCAN of a path that paints, after the sequence checks (R272): the entry's checks, the clip, room in the bin,
then the sequence. -/
def scanPaint (dv : Device) (w : Nat) (x : Wave) (t : Thread) (l tn : Nat) (k : CBit) (q : PathTile) (o : DestTile) :
    LaneRes × Device :=
  match spawnCheck dv x t q.desc.entry with
  | (.error (.page va lv), d) => (.page va 5 lv (q.desc.entry - 32), d)
  | (.error .protection, d) => (.fault cPROT (q.desc.entry - 32) 0, d)
  | (.error _, d) => (glazeSt k 8, d)
  | (.ok h, d) =>
    glazeThen false (readPlane (agentFollows d (.glaze x.core) w l) x.core x.wg o t.wait) fun bs d1 =>
      let ks := scanCover q o bs
      let n := (ks.filter (· != 0)).length
      let (room, d2) := if n = 0 then (true, d1) else roomForBin d1 t.launch (clusterOf x.core) x.ctx q.desc.entry
      if !room then (.wait .engine, d2)
      else (glazeVal k n, paintScan (followsAgent d2 (.glaze x.core) w l) w l tn x q o h ks)

/-- One member's GSCAN of path-tile `q` into tile `o`: its checks, and what it does (R270 to R272). -/
def scanStep (dv : Device) (w : Nat) (x : Wave) (t : Thread) (l tn : Nat) (k : CBit) (q : PathTile) (o : DestTile) :
    LaneRes × Device :=
  if q.origin != o.origin then (glazeSt k 10, dv)
  else if q.desc.clip = 0 then
    if o.last.any fun n => decide (q.desc.seq.toNat ≤ n) then (.fault cGLAZE 0 0, dv)
    else if 16 ≤ o.seqs.length then (glazeSt k 4, dv)
    else scanPaint dv w x t l tn k q o
  else if q.desc.clip = 1 && o.depth == 8 then (glazeSt k 7, dv)
  else
    glazeThen false (readPlane (agentFollows dv (.glaze x.core) w l) x.core x.wg o t.wait) fun bs d =>
      clipScan d w l x.core x.wg tn k q o (scanCover q o bs)

/-- A member of GSCAN. -/
def gscanMember (tn : Fin 16) (k : CBit) (b : Src) (dv : Device) (x : Wave) (t : Thread) (l : Nat) : LaneRes × Device :=
  let w := dv.cur.1
  if tileTaken dv x.wg tn.val t.wait then (.wait .engine, dv)
  else onTile x.wg tn.val
    (match t.wait, pathAt dv x.wg (rd32 x t b).toNat, destAt dv x.wg tn.val with
    | .rest true ls bs, _, _ => clipScan.planeWritten w l x.core k (glazeWrite dv x.core ls bs)
    | _, some q, some o => scanStep dv w x t l tn.val k q o
    | _, _, _ => (glazeSt k 1, dv))

def execGscan (tn : Fin 16) (k : CBit) (p : Pred) (d : Reg) (b : Src) (s : State) : Host.Outcome State Fault Refusal :=
  onDev s fun dev => members dev p (some d) (gscanMember tn k b)

def execGclipPop (tn : Fin 16) (k : CBit) (p : Pred) (d : Reg) (s : State) : Host.Outcome State Fault Refusal :=
  onDev s fun dev => members dev p (some d) fun dv x t l =>
    match destAt dv x.wg tn.val with
    | none => (glazeSt k 1, dv)
    | some o =>
      if tileTaken dv x.wg tn.val t.wait then (.wait .engine, dv)
      else if o.depth = 0 then (glazeSt k 7, dv)
      else (glazeSt k 0, glazeActs dv x.core dev.cur.1 l fun d => setDest d x.wg tn.val { o with depth := o.depth - 1 })

def execGclipReset (tn : Fin 16) (k : CBit) (p : Pred) (d : Reg) (s : State) : Host.Outcome State Fault Refusal :=
  onDev s fun dev => members dev p (some d) fun dv x t l =>
    match destAt dv x.wg tn.val with
    | none => (glazeSt k 1, dv)
    | some o =>
      if tileTaken dv x.wg tn.val t.wait then (.wait .engine, dv)
      else (glazeSt k 0, glazeActs dv x.core dev.cur.1 l fun d => setDest d x.wg tn.val { o with depth := 0 })

/-! ### The ordered blender: GBLEND, GCOV, retirement (R274 to R278) -/

/-- The entry a ticket names: its workgroup, tile, sequence, pixel and contents (R275). -/
def entryOf (dev : Device) (c : Nat) (tk : DWord) : Option (Nat × Nat × Nat × Nat × BufEntry) :=
  let n := tk.toNat
  if bitsOf n 8 8 ≠ 0 then none
  else
    match tileOf dev c tk with
    | none => none
    | some (g, t) =>
      ((NMap.get {} (wg dev g).dests t).entry? (bitsOf n 32 32) (bitsOf n 0 8)).map fun e =>
        (g, t, bitsOf n 32 32, bitsOf n 0 8, e)

/-- A member of GBLEND: it is held while the tile's workgroup is evicted (R282) or its core asleep in retention (R429). -/
def gblendMember (asleep : Nat → Bool) (k : CBit) (a b : Src) (dv : Device) (x : Wave) (t : Thread) (l : Nat) :
    LaneRes × Device :=
  match entryOf dv x.ctx (rd64 x t a) with
  | none => (glazeSt k 5, dv)
  | some (g, tn, seq, px, e) =>
    if !(wg dv g).resident || asleep (wg dv g).core then (.wait .engine, dv)
    else if e.fill.isSome then (glazeSt k 6, dv)
    else
      let o := NMap.get {} (wg dv g).dests tn
      (glazeSt k 0, glazeActs dv (wg dv g).core dv.cur.1 l fun d =>
        setDest d g tn (o.setEntry seq px { e with fill := some (some (rd64 x t b)) }))

def execGblend (k : CBit) (p : Pred) (d : Reg) (a b : Src) (s : State) : Host.Outcome State Fault Refusal :=
  onDev s fun dev => members dev p (some d) (gblendMember (coreRetained s) k a b)

def execGcov (path : Option Src) (k : CBit) (p : Pred) (d : Reg) (a : Src) (s : State) :
    Host.Outcome State Fault Refusal :=
  onDev s fun dev => members dev p (some d) fun dv x t _ =>
    match path with
    | some b =>
      match pathAt dv x.wg (rd32 x t b).toNat with
      | none => (glazeSt k 1, dv)
      | some q => (glazeVal k ((scanTile q).getD (bitsOf (rd32 x t a).toNat 0 8) 0), dv)
    | none =>
      match entryOf dv x.ctx (rd64 x t a) with
      | none => (glazeSt k 5, dv)
      | some (_, _, _, _, e) => (glazeVal k e.k, dv)

/-- Blend one pixel, as a read and a write of its sector in one event; a registered sector is left as it is (R230, R274). -/
def blendOne (dev : Device) (co g a k : Nat) (colour : DWord) : Device :=
  if registered dev (.scr g a) then dev
  else
    let (bs, d) := engRead dev (.glaze co) g a 8
    engWrite d (.glaze co) g a (leBytes 8 (blendPixel (leNat bs) colour.toNat k))

/-- Blend the entries of a retiring sequence, in ascending pixel index; where events of others come between, those that are
blended are behind it, as if discarded, and the others still to go (R200, R274). -/
def blendEntries (dev : Device) (co g b : Nat) : NMap BufEntry → (Bool × NMap BufEntry) × Device
  | [] => ((true, []), dev)
  | (px, e) :: r =>
    match e.fill with
    | some (some colour) =>
      let (go, d) := spendCut dev
      if !go then ((false, (px, e) :: r), d)
      else
        let ((all, es), d1) := blendEntries (blendOne d co g (b + 8 * px) e.k colour) co g b r
        ((all, (px, { e with fill := some none }) :: es), d1)
    | _ =>
      let ((all, es), d1) := blendEntries dev co g b r
      ((all, (px, e) :: es), d1)

/-- The oldest open sequence of a tile retires once every entry is filled or discarded (R274). Retirement pauses while
the workgroup is evicted (R282). -/
def retire (dev : Device) (g t : Nat) : Device :=
  match destAt dev g t with
  | none => dev
  | some o =>
    match o.seqs with
    | [] => dev
    | (n, es) :: rest =>
      if !(wg dev g).live || !(wg dev g).resident || es.any fun e => e.2.fill.isNone then dev
      else
        let ((all, es1), d) := blendEntries dev (wg dev g).core g o.block es
        setDest d g t { o with seqs := if all then rest else (n, es1) :: rest }

def execSequenceRetire (g : Nat) (t : Fin 16) (s : State) : Host.Outcome State Fault Refusal :=
  if coreRetained s (wg s.dev g).core then .next s else onDev s fun dev => retire dev g t.val

/-! ### GEMIT (R279, R419) -/

/-- A tile's pixels, read as Glaze events, or those still to go. -/
def readPixels (dev : Device) (co g : Nat) (o : DestTile) (wt : Wait) : Done × Device :=
  match wt with
  | .rest _ ls bs => agentRead dev (.glaze co) bs ls
  | _ => agentRead dev (.glaze co) [] (scrSpans g o.block 2048)

/-- The pixels in their bytes. -/
def pixelsOf (bs : List Byte) : List Nat := (List.range 256).map fun i => leAt bs (8 * i) 8

/-- The access of GEMIT.mem. -/
def emitAcc (n : Nat) : Acc := { n := n, need := .store, objects := true, kind := 8 }

/-- Where every pixel goes: the first failing pixel, or its places; none where it is dropped (R279). -/
def emitPlaces (dev : Device) (w : Nat) (r : Rec) (i j n : Nat) :
    List Nat → Except ARes (List (Option (List (Loc × Nat)))) × Device
  | [] => (.ok [], dev)
  | px :: rest =>
    match checkAcc dev w r (i + px % 16) (j + px / 16) (emitAcc n) with
    | (.at _ ls, d) =>
      match emitPlaces d w r i j n rest with
      | (.ok ps, d1) => (.ok (some ls :: ps), d1)
      | (.error e, d1) => (.error e, d1)
    | (.drop, d) =>
      match emitPlaces d w r i j n rest with
      | (.ok ps, d1) => (.ok (none :: ps), d1)
      | (.error e, d1) => (.error e, d1)
    | (e, d) => (.error e, d)

/-- The places and the bytes of the pixels that are not dropped, in ascending index. -/
def pixelSpans (fp16 : Bool) (ps : List (Option (List (Loc × Nat)) × Nat)) : List (Loc × Nat) × List Byte :=
  (ps.flatMap fun p => p.1.getD [], ps.flatMap fun p => if p.1.isSome then (if fp16 then leBytes 8 p.2 else rgba8 p.2) else [])

/-- The writes of a GEMIT.mem, or those still to go. -/
def emitPixels (dev : Device) (w l co : Nat) (k : CBit) (ls : List (Loc × Nat)) (bs : List Byte) : LaneRes × Device :=
  glazeThen true (glazeWrite dev co ls bs) fun _ d => (glazeSt k 0, followsAgent d (.glaze co) w l)

/-- GEMIT.mem of a tile: every pixel's checks, the reads of the tile, then the writes, no sector of which is registered
meanwhile (R200, R211, R259, R279). -/
def emitMem (dv : Device) (w l : Nat) (x : Wave) (t : Thread) (o : DestTile) (fp16 : Bool) (r : Rec) (i j : Nat) (k : CBit) :
    LaneRes × Device :=
  let n := if fp16 then 8 else 4
  match t.wait with
  | .rest true ls bs => emitPixels dv w l x.core k ls bs
  | _ =>
    match emitPlaces dv w r i j n (List.range 256) with
    | (.error (.fault c a), d) => (.fault c a 0, d)
    | (.error (.page va lv a), d) => (.page va 8 lv a, d)
    | (.error _, d) => (glazeSt k 0, d)
    | (.ok ps, d) =>
      glazeThen false (readPixels (agentFollows d (.glaze x.core) w l) x.core x.wg o t.wait) fun px d1 =>
        let (ls, bs) := pixelSpans fp16 (ps.zip (pixelsOf px))
        emitPixels d1 w l x.core k ls bs

/-- An open session of a context (R423). -/
def sessionAt (dev : Device) (c n : Nat) : Option Session :=
  match NMap.find? (ctx dev c).sessions n with
  | some q => if q.opened && q.closing.isNone then some q else none
  | none => none

def setSession (dev : Device) (c n : Nat) (q : Session) : Device :=
  modCtx dev c fun x => { x with sessions := NMap.put x.sessions n q }

/-- A frame starts to assemble: it takes the key mark and the new settings (R418, R419). -/
def startFrame (q : Session) : Session :=
  let rate := q.newRate.getD q.rate
  { q with asm := q.asm ++ [{ num := q.nextFrame, key := q.keyNext, rate := rate }], nextFrame := q.nextFrame + 1
           keyNext := false, rate := rate, newRate := none }

/-- Deliver a tile to a session: none where both assembling frames have its position filled (R419). -/
def ingest (q : Session) (pos : Nat) (samples : List Nat) : Option Session :=
  let has (f : Frame) : Bool := (NMap.find? f.tiles pos).isSome
  let q1 := if q.asm.all has && decide (q.asm.length < 2) then startFrame q else q
  match q1.asm.find? fun f => !has f with
  | none => none
  | some f =>
    some { q1 with asm := q1.asm.map fun h => if h.num == f.num then { h with tiles := NMap.put h.tiles pos samples } else h }

def emitEnc (dv : Device) (w l : Nat) (x : Wave) (t : Thread) (o : DestTile) (n : Nat) (k : CBit) : LaneRes × Device :=
  match sessionAt dv x.ctx n with
  | none => (glazeSt k 11, dv)
  | some q =>
    let tx := signed16 (bitsOf o.origin.toNat 0 16)
    let ty := signed16 (bitsOf o.origin.toNat 16 16)
    if tx < 0 ∨ ty < 0 ∨ (q.width : Int) ≤ 16 * tx ∨ (q.height : Int) ≤ 16 * ty then
      let n1 := (q.dropped + 1) % 2 ^ 32
      let d1 := setSession dv x.ctx n { q with dropped := n1 }
      (glazeSt k 0, match saggarStore d1 x.ctx (q.block + 0x44) (leBytes 4 n1) with
        | .ok d2 => d2
        | .error _ => d1)
    else
      let pos := ty.toNat * (q.width / 16) + tx.toNat
      if (ingest q pos []).isNone then (.wait .engine, dv)
      else glazeThen false (readPixels (agentFollows dv (.glaze x.core) w l) x.core x.wg o t.wait) fun px d1 =>
        match ingest q pos (yuvTile (if q.d10 then 10 else 8) q.full (pixelsOf px)) with
        | none => (.wait .engine, d1)
        | some q1 => (glazeSt k 0, setSession (followsAgent d1 (.glaze x.core) w l) x.ctx n q1)

/-- A member of GEMIT. -/
def gemitMember (e : EmitTo) (tn : Fin 16) (k : CBit) (dv : Device) (x : Wave) (t : Thread) (l : Nat) : LaneRes × Device :=
  match destAt dv x.wg tn.val with
  | none => (glazeSt k 1, dv)
  | some o =>
    if tileTaken dv x.wg tn.val t.wait then (.wait .engine, dv)
    else if !o.seqs.isEmpty && !t.wait.partly then (glazeSt k 3, dv)
    else onTile x.wg tn.val
      (match e with
      | .mem fp16 r i j =>
        emitMem dv dv.cur.1 l x t o fp16 (recOf (rdRec x r)) (rd32 x t i).toNat (rd32 x t j).toNat k
      | .enc a => emitEnc dv dv.cur.1 l x t o (rd32 x t a).toNat k)

def execGemit (e : EmitTo) (tn : Fin 16) (k : CBit) (p : Pred) (d : Reg) (s : State) :
    Host.Outcome State Fault Refusal :=
  onDev s fun dev => members dev p (some d) (gemitMember e tn k)

/-- Glaze holds a member of instruction `i` (R259, R271, R275, R419). -/
def glazeHolds (asleep : Nat → Bool) (dv : Device) (x : Wave) (t : Thread) (l : Nat) (i : Instr) : Bool :=
  match i with
  | .gclrDest tn .. | .gclrDestFree tn .. | .gclipPop tn .. | .gclipReset tn .. => tileTaken dv x.wg tn.val t.wait
  | .gscan tn k _ _ b => (gscanMember tn k b dv x t l).1 == .wait .engine
  | .gblend k _ _ a b => (gblendMember asleep k a b dv x t l).1 == .wait .engine
  | .gemit e tn k _ _ => (gemitMember e tn k dv x t l).1 == .wait .engine
  | _ => false

end Sys2Proof.Machine
end

