-- ==== Sys2Proof/Machine/Fabric.lean ====
section
/-!
DEFINITION. The collectives: the reduction group table (R410), CRED and CBCAST (R413, R415), the reduction of a chunk
(R56, R411), its delivery (R413, R414), the failure of a row (R412).
-/

namespace Sys2Proof.Machine

/-! ### The reduction group table (R410) -/

/-- A row of a group entry. In the table's bytes bit 1 of a row is kept inverted, so that LIVE resets to 1. -/
structure Row where
  node : Nat := 0
  parent : Nat := 0
  port : Nat := 0
  live : Bool := true
  dev : Bool := false
deriving DecidableEq, Repr, Inhabited

def Row.parse (n : Nat) : Row :=
  { node := bitsOf n 48 16, parent := bitsOf n 40 8, port := bitsOf n 32 8, live := bitsOf n 1 1 == 0
    dev := bitsOf n 0 1 == 1 }

def Row.word (r : Row) : Nat := 2 ^ 48 * r.node + 2 ^ 40 * r.parent + 2 ^ 32 * r.port + nb (!r.live) 2 + nb r.dev 1

structure Grp where
  nrows : Nat := 0
  valid : Bool := false
  rebuilt : Bool := false
  self : Nat := 0
  pfmt : Nat := 0
  dfmt : Nat := 0
  dies : Nat := 0
  rows : List Row := []
deriving DecidableEq, Repr, Inhabited

/-- Entry `g` of a context's table. -/
def grpOf (x : Ctx) (g : Nat) : Grp :=
  let f (off n : Nat) : Nat := leNat (Memory.bytes x.groups (256 * g + off) n)
  { nrows := f 0 1, valid := bitsOf (f 5 1) 0 1 == 1, rebuilt := bitsOf (f 5 1) 1 1 == 1, self := f 1 1, pfmt := f 2 1, dfmt := f 3 1
    dies := bitsOf (f 4 1) 0 4, rows := (List.range (min (f 0 1) 30)).map fun r => Row.parse (f (16 + 8 * r) 8) }

def Grp.row (g : Grp) (r : Nat) : Row := g.rows.getD r {}

/-- The live rows whose parent is `q`, in ascending port. -/
def Grp.children (g : Grp) (q : Nat) : List Nat :=
  sortBy (fun r => (g.row r).port)
    ((List.range g.rows.length).filter fun r => (g.row r).live && (g.row r).parent == q)

/-- The parents of a row lead to a root within `n` steps. -/
def Grp.rooted (g : Grp) (r : Nat) : Nat → Bool
  | 0 => false
  | n + 1 =>
    let p := (g.row r).parent
    p == 0xFF || (decide (p < g.rows.length) && (g.row p).live && g.rooted p n)

/-- A device row that lives. -/
def Grp.liveDev (g : Grp) (r : Nat) : Bool := (g.row r).live && (g.row r).dev

/-- The entry is usable (R410). -/
def Grp.usable (g : Grp) : Bool :=
  let n := g.rows.length
  let live := (List.range n).filter fun r => (g.row r).live
  g.valid && decide (1 ≤ g.nrows ∧ g.nrows ≤ 30) && decide (g.self < n) && (g.row g.self).dev && decide (0 < g.dies) &&
  (g.pfmt == 0x10 || g.pfmt == 0x12 || g.pfmt == 0x13) && (g.dfmt == 0x10 || g.dfmt == g.pfmt) &&
  live.all (fun r => decide ((g.row r).port ≤ 17) && g.rooted r n && ((g.row r).dev || !(g.children r).isEmpty)) &&
  (live.filter fun r => (g.row r).parent == 0xFF).length == 1 &&
  live.all fun r => live.all fun q =>
    r == q || (g.row r).parent != (g.row q).parent || (g.row r).port != (g.row q).port

/-! ### CRED and CBCAST (R413, R415) -/

/-- Chunks of a core in flight. -/
def coreChunks (dev : Device) (co : Nat) : Nat := (dev.chunks.filter fun p => p.2.core == co && p.2.live).length

/-- A range a chunk may name: within SCRATCH, over no registered sector (R413). -/
def chunkArea (dev : Device) (g a n : Nat) : Bool :=
  a % 32 == 0 && decide (a + n ≤ (wg dev g).scratch) && !rangeRegistered dev g a n

/-- Saggar reads the sectors of a chunk's source that are still to go, one event a sector, into the fabric buffer; the first
event has been counted (R200, R413). -/
def readChunk (dev : Device) (w l id : Nat) (k : CBit) : List (Loc × Nat) → LaneRes × Device
  | [] => (.done (outSt k 0), followsAgent dev .saggar w l)
  | (p, n) :: r =>
    let (bs, d) := readAt dev p n
    let d1 := { stampRead d .saggar p with chunks := NMap.mod {} (stampRead d .saggar p).chunks id fun c =>
      { c with src := c.src ++ bs, todo := r } }
    match r with
    | [] => (.done (outSt k 0), followsAgent d1 .saggar w l)
    | r =>
      let (go, d2) := spendCut d1
      if go then readChunk d2 w l id k r else (.wait (.chunk id), d2)

/-- Begin a chunk: its number, its place in the order of kicks, its barrier named; then its source is read (R202, R203, R413). -/
def startChunk (dev : Device) (w l : Nat) (k : CBit) (c : Chunk) : LaneRes × Device :=
  let id := dev.nextId
  let d1 := agentFollows (kickAfter { dev with nextId := id + 1, chunks := NMap.put dev.chunks id c } w l) .saggar w l
  let d2 := modCtx d1 c.ctx fun x => { x with chunkSeq := NMap.put x.chunkSeq (16 * c.die + c.group) (c.seq + 1) }
  readChunk (match c.bar with
    | some o => engName d2 (.scr c.wg o) (chunkName id)
    | none => d2) w l id k c.todo

/-- CRED or CBCAST, once for the group (R413). -/
def chunkStep (dev : Device) (bcast : Bool) (k : CBit) (p : Pred) (d : Reg) (a b : Src) : Device :=
  once dev p (some d) fun dv x t l => match t.wait with
  | .chunk id => readChunk dv dev.cur.1 l id k (NMap.get {} dv.chunks id).todo
  | _ =>
    let a0 := (rdQuad x t a 0).toNat
    let n := (rdQuad x t a 1).toNat
    let a2 := (rdQuad x t a 2).toNat
    let a3 := (rdQuad x t a 3).toNat
    let bw := (rd32 x t b).toNat
    let g := bitsOf a0 0 8
    let gr := grpOf (ctx dv x.ctx) g
    let die := dieOf x.core
    let e := (fmtSize gr.pfmt).getD 1
    let dl := if bcast then e else (fmtSize gr.dfmt).getD 1
    let bar := if bitsOf bw 0 1 = 1 then some (bw / 32 * 32) else none
    let barOk := match bar with
      | some o => objNamed dv x.wg o false
      | none => true
    let row := bitsOf a0 8 8
    if bitsOf bw 1 4 ≠ 0 then (.fault cRESERVED 0 0, dv)
    else if 15 < g ∨ !gr.usable ∨ bitsOf gr.dies die 1 = 0 then (.done (outSt k 1), dv)
    else if n = 0 ∨ 65536 < n then (.done (outSt k 3), dv)
    else if !chunkArea dv x.wg a2 (n * e) ∨ !chunkArea dv x.wg a3 (n * dl) ∨ !barOk then (.done (outSt k 2), dv)
    else
      let reads := !bcast || row == gr.self
      if 8 ≤ coreChunks dv x.core ∨
          (reads ∧ heldBack dv x.ctx dv.nextId (scrSectors x.wg a2 (n * e)) []) then (.wait .again, dv)
      else
        let c : Chunk :=
          { ctx := x.ctx, wg := x.wg, core := x.core, group := g
            seq := NMap.get 0 (ctx dv x.ctx).chunkSeq (16 * die + g), bcast := bcast, row := if bcast then row else 0
            n := n, pfmt := gr.pfmt, dfmt := gr.dfmt, die := die, dst := a3, bar := bar, live := true
            todo := if reads then scrSpans x.wg a2 (n * e) else [] }
        startChunk dv dev.cur.1 l k c

def execCred (k : CBit) (p : Pred) (d : Reg) (a b : Src) (s : State) : Host.Outcome State Fault Refusal :=
  onDev s fun dev => chunkStep dev false k p d a b

def execCbcast (k : CBit) (p : Pred) (d : Reg) (a b : Src) (s : State) : Host.Outcome State Fault Refusal :=
  onDev s fun dev => chunkStep dev true k p d a b

/-! ### The reduction (R56, R411) -/

/-- Element-wise sum in FP32, .rn. -/
def addVec (xs ys : List Nat) : List Nat :=
  (xs.zip ys).map fun p => (fAddV .f32 .rn (Fmt.val .f32 p.1) (Fmt.val .f32 p.2)).1

/-- The sum of inputs in their order; none where there is no input. -/
def sumVecs : List (List Nat) → Option (List Nat)
  | [] => none
  | x :: r => some (r.foldl addVec x)

/-- node(r) of R411 over the values of the device rows, with `n` levels left. -/
def Grp.node (g : Grp) (vals : NMap (List Nat)) (r : Nat) : Nat → Option (List Nat)
  | 0 => none
  | n + 1 => sumVecs ((if (g.row r).dev then NMap.find? vals r else none).toList ++
      (g.children r).filterMap fun c => g.node vals c n)

/-- Elements of a payload as FP32, exactly. -/
def payload (fmt n : Nat) (bs : List Byte) : List Nat :=
  let e := (fmtSize fmt).getD 1
  (List.range n).map fun i => convElem fmt 0x10 (leAt bs (e * i) e)

/-- The chunks of this device that match chunk `k`, in ascending die number. -/
def chunkPeers (dev : Device) (k : Chunk) : List (Nat × Chunk) :=
  sortBy (fun p : Nat × Chunk => p.2.die)
    (dev.chunks.filter fun p => p.2.ctx == k.ctx && p.2.group == k.group && p.2.seq == k.seq)

/-- The values of the device rows: this device's from its chunks, every other live one's from `data`, one FP32 word an
element, in ascending row number. -/
def rowValues (g : Grp) (n : Nat) (own : List Nat) (data : List Byte) : NMap (List Nat) :=
  let others := (List.range g.rows.length).filter fun r => g.liveDev r && r != g.self
  (List.range others.length).foldl (fun m i =>
    NMap.put m (others.getD i 0) (payload 0x10 n (data.drop (4 * n * i)))) [(g.self, own)]

/-- An FP32 result in the delivery format: an E4M3 result saturates (R56). -/
def delivered (fmt x : Nat) : Nat := if fmt = 0x13 then (cvtFF .f32 .e4m3 .rn true x).1 else convElem 0x10 fmt x

/-- What a completed chunk writes at each member, of the chunks `peers` of this device (R411, R413). -/
def chunkResult (g : Grp) (k : Chunk) (peers : List (Nat × Chunk)) (data : List Byte) : List Byte :=
  if k.bcast then
    padTo (Chunk.bytes k) (if g.self = k.row then ((peers.map fun p => p.2.src).find? fun b => !b.isEmpty).getD data else data)
  else
    let own := (sumVecs (peers.map fun p => payload k.pfmt k.n p.2.src)).getD []
    let root := ((List.range g.rows.length).find? fun r => (g.row r).live && (g.row r).parent == 0xFF).getD 0
    let res := (g.node (rowValues g k.n own data) root (g.rows.length + 1)).getD []
    res.flatMap fun x => leBytes ((fmtSize k.dfmt).getD 1) (delivered k.dfmt x)

/-! ### Delivery (R413, R414) -/

/-- A chunk is over: its barrier is no longer named, and its workgroup ends if it waited for it. -/
def dropChunk (dev : Device) (id : Nat) (k : Chunk) : Device :=
  let d1 := { dev with chunks := NMap.erase dev.chunks id }
  let d2 := match k.bar with
    | some o => engUnname d1 (.scr k.wg o) (chunkName id)
    | none => d1
  if (wg d2 k.wg).ended then settleWg d2 k.wg else d2

/-- A chunk ends with a status and nothing written (R414). -/
def failChunk (dev : Device) (id : Nat) (k : Chunk) (status : Nat) : Device :=
  dropChunk (match k.bar with
    | some o => countEnd dev .saggar (.scr k.wg o) status (Chunk.bytes k)
    | none => dev) id k

/-- A member has its result, or as much of it as came before a registered sector: the bytes are counted, and the chunk is over
(R230, R234, R413). -/
def endChunk (dev : Device) (id : Nat) (k : Chunk) (n : Nat) : Device :=
  dropChunk (match k.bar with
    | none => dev
    | some o =>
      let d2 := if n = 0 then dev else (countDown dev .saggar (.scr k.wg o) n).2
      if n = Chunk.bytes k then d2 else countEnd d2 .saggar (.scr k.wg o) cOVERWRITE (Chunk.bytes k - n)) id k

/-- A member receives the sectors of its result that are still to go, by Saggar's writes in ascending address, one event a
sector; a registered one ends it (R200, R230, R413). -/
def writeChunk (dev : Device) (id : Nat) (k : Chunk) (bs : List Byte) : List (Nat × Nat) → Device
  | [] => endChunk dev id k (Chunk.bytes k)
  | (a, n) :: r =>
    let (go, d) := spendCut dev
    if !go then { d with chunks := NMap.mod {} d.chunks id fun c => { c with pos := a - k.dst } }
    else if registered d (.scr k.wg a) then endChunk d id k (a - k.dst)
    else writeChunk (writeSpans d .saggar [(.scr k.wg a, n)] (bs.drop (a - k.dst))) id k bs r

/-- What is still to go of the delivery of a chunk is written. -/
def pushChunk (dev : Device) (id : Nat) : Device :=
  match NMap.find? dev.chunks id with
  | none => dev
  | some k =>
    match k.out with
    | none => dev
    | some bs =>
      if !(wg dev k.wg).resident then dev
      else writeChunk dev id k bs ((sectorSpans k.dst (Chunk.bytes k)).filter fun s => decide (k.dst + k.pos ≤ s.1))

/-- The members of this device may be written now: every contributing die has issued its chunk, and no edge holds a
write back (R202, R411, R414). -/
def chunkReady (dev : Device) (g : Grp) (peers : List (Nat × Chunk)) : Bool :=
  (List.range 4).all (fun d => bitsOf g.dies d 1 == 0 || peers.any fun p => p.2.die == d) &&
  peers.all fun p => !p.2.live || ((wg dev p.2.wg).resident && p.2.todo.isEmpty &&
    !heldBack dev p.2.ctx p.1 [] (scrSectors p.2.wg p.2.dst (Chunk.bytes p.2)))

/-! ### The failure of a row (R412) -/

/-- Row `c` attaches to parent `q` at its own port, or the next free one above it. -/
def attach (rows : List Row) (q c : Nat) : List Row :=
  let used := (List.range rows.length).filterMap fun r =>
    let x := rows.getD r {}
    if r != c && x.live && x.parent == q then some x.port else none
  let x := rows.getD c {}
  rows.set c { x with parent := q, port := (lowestFree used x.port 256).getD x.port }

/-- The rows after the failure of row `r`: its children go to its parent; a failed root is replaced by the live device
row with the lowest number. -/
def rebuild (g : Grp) (r : Nat) : List Row :=
  let x := g.row r
  let kids := g.children r
  let rows := g.rows.set r { x with live := false }
  if x.parent = 0xFF then
    match (List.range rows.length).find? fun i => (rows.getD i {}).live && (rows.getD i {}).dev with
    | none => rows
    | some t => (kids.filter (· != t)).foldl (fun m c => attach m t c) (rows.set t { rows.getD t {} with parent := 0xFF })
  else kids.foldl (fun m c => attach m x.parent c) rows

/-- Write the rows of an entry, and REBUILT. -/
def putRows (x : Ctx) (g : Nat) (rows : List Row) : Ctx :=
  let m := (List.range rows.length).foldl (fun m r =>
    Memory.putBytes m (256 * g + 16 + 8 * r) (leBytes 8 (rows.getD r {}).word)) x.groups
  let fl := bitsOf (leNat (Memory.bytes m (256 * g + 5) 1)) 0 1
  { x with groups := Memory.putBytes m (256 * g + 5) (leBytes 1 (fl + 2)) }

/-- A replay adds one to REPLAYS of a chunk's barrier (R232, R412). -/
def countReplay (dev : Device) (k : Chunk) : Device :=
  match k.bar with
  | none => dev
  | some o =>
    let b := readBar dev (.scr k.wg o)
    if b.broken then dev else writeBar dev .saggar (.scr k.wg o) { b with replays := b.replays + 1 }

/-- A row is declared failed: the tree is rebuilt and the chunks in flight are replayed, or end with CANCELLED where no
device row lives (R412). -/
def failRow (dev : Device) (c g r : Nat) : Device :=
  let gr := grpOf (ctx dev c) g
  if 15 < g ∨ !gr.valid ∨ gr.rows.length ≤ r ∨ !(gr.row r).live then dev
  else
    let rows := rebuild gr r
    let d1 := modCtx dev c fun x => putRows x g rows
    let gr1 := grpOf (ctx d1 c) g
    let alive := (List.range rows.length).any gr1.liveDev
    d1.chunks.foldl (fun d p =>
      if p.2.ctx != c || p.2.group != g || !p.2.live || p.2.out.isSome then d
      else if !alive then failChunk d p.1 p.2 cCANCELLED
      else if gr1.liveDev gr1.self then countReplay d p.2
      else d) d1

def execRowFailure (c g r : Nat) (s : State) : Host.Outcome State Fault Refusal :=
  onDev s fun dev => failRow dev c g r

/-! ### Completion (R414) -/

/-- The chunks of killed workgroups among `peers` are seen as a failed row: this device's (R414). DEDUCED (log entry 59). -/
def failGone (dev : Device) (k : Chunk) (peers : List (Nat × Chunk)) : Device :=
  let gone := peers.filter fun p => p.2.gone
  if gone.isEmpty then dev
  else
    let d := failRow dev k.ctx k.group (grpOf (ctx dev k.ctx) k.group).self
    gone.foldl (fun d p => dropChunk d p.1 p.2) d

/-- A chunk completes at this device, or goes on with what is still to go of its delivery: `data` is what the other devices' rows contribute, or the source row's bytes, and
`agree` says that their members agree with this device's (R414). -/
def deliverChunk (dev : Device) (id : Nat) (data : List Byte) (agree : Bool) : Device :=
  match NMap.find? dev.chunks id with
  | none => dev
  | some k =>
    let peers := chunkPeers dev k
    if k.out.isSome then pushChunk dev id
    else if !chunkReady dev (grpOf (ctx dev k.ctx) k.group) peers then dev
    else
      let d1 := failGone dev k peers
      let g := grpOf (ctx d1 k.ctx) k.group
      let live := (chunkPeers d1 k).filter fun p => p.2.live
      let same := live.all fun p => p.2.bcast == k.bcast && p.2.n == k.n && p.2.pfmt == k.pfmt && p.2.row == k.row
      let bs := chunkResult g k live data
      if agree && same then
        live.foldl (fun d p => pushChunk d p.1) { d1 with chunks := d1.chunks.map fun q =>
          if (live.any fun p => p.1 == q.1) then (q.1, { q.2 with out := some bs }) else q }
      else live.foldl (fun d p => failChunk d p.1 p.2 cRESERVED) d1

def execChunkDelivery (chunk : Nat) (data : List Byte) (agree : Bool) (s : State) : Host.Outcome State Fault Refusal :=
  onDev s fun dev => deliverChunk dev chunk data agree

end Sys2Proof.Machine
end

