-- ==== Sys2Proof/Machine/Queues.lean ====
section
/-!
DEFINITION. Queues, packets and launches: doorbells, fetch and checks, halts and containment (R10, R11, R62 to R70), the
packets' effects (R20, R21, R66, R71), release and completion of launches (R72, R73, R375, R439), NVAL (R67).
-/

namespace Sys2Proof.Machine

/-! ### Access (R57, R62, R404) -/

/-- The context runs: active, or busy with an invalidation (R406). -/
def Ctx.runs (x : Ctx) : Bool := x.cstate == 1 || (x.cstate == 2 && x.busy == 3)

def queue (dev : Device) (c q : Nat) : Queue := NMap.get {} (ctx dev c).queues q
def modQueue (dev : Device) (c q : Nat) (f : Queue → Queue) : Device :=
  modCtx dev c fun x => { x with queues := NMap.put x.queues q (f (NMap.get {} x.queues q)) }

/-- Queue `q` of context `c` is one of its queues, not an inert block (R62). -/
def queueLives (dev : Device) (c q : Nat) : Bool :=
  decide (c < 64) && (ctx dev c).runs && decide (q < (ctx dev c).qcount)

/-- A node's access to a context window takes effect: the node owns the context (R404). -/
def owns (dev : Device) (node c : Nat) : Bool := decide (c < 64) && (ctx dev c).owner == some node

/-! ### Halts and containment (R68, R69, R70) -/

/-- Discard every running context of the process of context `c`; every queue but the offending one, `q` of `c`, takes halt
code 6 (R69). DESIGN CHOICE (log entry 29): a context of it that is already being destroyed is left to that. -/
def containProcess (dev : Device) (c q : Nat) : Device :=
  dev.ctxs.foldl (fun d p =>
    if (ctx d p.1).runs && (ctx d p.1).procId == (ctx dev c).procId then
      discardContext d p.1 6 (if p.1 = c then some q else none) { kind := 3, code := cKILLED }
    else d) dev

/-- A queue halts; in native mode, and with code 1 in any mode, the process is contained (R63, R68 to R70). -/
def haltQueue (dev : Device) (c q code : Nat) : Device :=
  let d1 := modQueue dev c q fun y => { y with halt := code, pend := none }
  if code = 5 ∨ ((ctx dev c).compat ∧ code ≠ 1) then d1 else containProcess d1 c q

/-! ### Doorbell and registers (R62, R63) -/

def ringDoorbell (dev : Device) (node c q : Nat) (t : Word) : Device :=
  if !owns dev node c || !queueLives dev c q then dev
  else
    let y := queue dev c q
    if (t - y.tail).toNat + (y.tail - y.head).toNat ≤ 2 ^ y.qlog then modQueue dev c q fun y => { y with tail := t }
    else haltQueue dev c q 1

def execDoorbell (node c q : Nat) (tail : Word) (s : State) : Host.Outcome State Fault Refusal :=
  onDev s fun dev => ringDoorbell dev node c q tail

/-- QEN becomes 1 only with a legal QLOG and QBASE (R62). -/
def writeQen (dev : Device) (node c q : Nat) (v : Word) : Device :=
  if !owns dev node c || !queueLives dev c q then dev
  else modQueue dev c q fun y =>
    { y with qen := v.getLsbD 0 && decide (6 ≤ y.qlog ∧ y.qlog ≤ 16) && y.qbase.toNat % 128 == 0 }

def execQenWrite (node c q : Nat) (val : Word) (s : State) : Host.Outcome State Fault Refusal :=
  onDev s fun dev => writeQen dev node c q val

/-! ### The launch header (R10, R11) -/

def LaunchHdr.parse (b : List Byte) : LaunchHdr :=
  let fl := leAt b 4 4
  { det := bitsOf fl 0 1 == 1, rec_ := bitsOf fl 1 1 == 1, rep := bitsOf fl 2 1 == 1, fid := bitsOf fl 3 3
    cls := bitsOf fl 6 2, nbhd := bitsOf fl 8 1 == 1, consumer := bitsOf fl 9 1 == 1
    entry := BitVec.ofNat 64 (leAt b 8 8), widths := (List.range 6).map fun i => bitsOf (leAt b 16 8) (7 * i) 7
    extents := (List.range 6).map fun i => leAt b (0x18 + 4 * i) 4
    regs := leAt b 0x30 2, waves := leAt b 0x32 2, scratch := leAt b 0x34 4, nrows := leAt b 0x38 1
    ncols := leAt b 0x39 1, reserve := leAt b 0x3A 2, deadline := leAt b 0x3C 4, args := BitVec.ofNat 64 (leAt b 0x40 8)
    handles := (List.range 16).map fun i => BitVec.ofNat 32 (leAt b (0x48 + 4 * i) 4)
    waitMask := BitVec.ofNat 256 (leAt b 0x88 32), setMask := BitVec.ofNat 256 (leAt b 0xA8 32) }

/-- The bytes of a header pass the checks of R11, in a context of class `cls` with log settings `base` and `log`. DEDUCED
(log entry 50): WAVES above 16, which R10 excludes and R11 does not name, fails them too. -/
def headerOk (b : List Byte) (cls base log : Nat) : Bool :=
  let h := LaunchHdr.parse b
  let e (i : Nat) := h.extents.getD i 0
  let w (i : Nat) := h.widths.getD i 0
  leAt b 0 2 == 1 && leAt b 2 2 == 256 && leAt b 4 4 / 1024 == 0 && leAt b 16 8 / 2 ^ 42 == 0 && zeroAt b 0xC8 56 &&
  decide (h.widths.sum ≤ 64) && (List.range 6).all (fun i => decide (1 ≤ e i ∧ e i ≤ 2 ^ w i)) &&
  decide (e 0 ≤ h.waves * Config.W ∧ e 0 ≤ 1024) &&
  decide (8 ≤ h.regs ∧ h.regs ≤ 128) && h.regs % 8 == 0 && decide (1 ≤ h.waves ∧ h.waves ≤ 16) &&
  h.scratch % 256 == 0 && decide (h.scratch ≤ 9 * 2 ^ 20) &&
  h.nbhd == decide (0 < w 1) &&
  (if h.nbhd then decide (1 ≤ h.nrows ∧ h.nrows ≤ 8 ∧ 1 ≤ h.ncols ∧ h.ncols ≤ 8 ∧ h.nrows * h.ncols = e 1 ∧ e 1 ≤ 24)
    else h.nrows == 0 && h.ncols == 0) &&
  decide (h.fid ≤ 4) && (!h.det || h.fid == 0 || h.fid == 4) && !(h.rec_ && h.rep) &&
  (!(h.rec_ || h.rep) || (decide (8 ≤ log ∧ log ≤ 24) && base % 4096 == 0)) &&
  (h.cls == 0 || decide (cls ≤ h.cls)) &&
  h.consumer == decide (0 < h.reserve) && decide (h.reserve ≤ h.wgCount) && h.entry.toNat % 32 == 0

/-! ### Fetch (R64 to R68, R70) -/

def pktKind (b : List Byte) : Nat := leAt b 0 1 % 128
def pktNotify (b : List Byte) : Bool := leAt b 0 1 / 128 == 1
def pktNaddr (b : List Byte) : Nat := leAt b 0x70 8
def pktNval (b : List Byte) : DWord := BitVec.ofNat 64 (leAt b 0x78 8)

/-- The body bytes a kind names, as (offset, end) (R66, R418). -/
def pktBody : Nat → List (Nat × Nat)
  | 1 => [(0x08, 0x50)]
  | 2 => [(0x10, 0x30)]
  | 3 => [(0x10, 0x30)]
  | 4 => [(0x08, 0x0B), (0x20, 0x40)]
  | 6 => [(0x08, 0x0A), (0x10, 0x18)]
  | _ => []

/-- The packet has no reserved kind, no nonzero reserved field and no misaligned NADDR (R65, R66, R418). -/
def pktOk (b : List Byte) : Bool :=
  let k := pktKind b
  zeroAt b 1 7 && decide (k ≤ 6) && (!pktNotify b || pktNaddr b % 8 == 0) &&
  (List.range 0x68).all (fun i => byteAt b (i + 8) == 0 ||
    (pktBody k).any fun r => decide (r.1 ≤ i + 8 ∧ i + 8 < r.2)) &&
  (k != 4 || (leAt b 8 2 != 0 && decide (leAt b 0x0A 1 ≤ 1))) &&
  (k != 6 || decide (leAt b 8 1 ≤ 3 ∧ leAt b 9 1 ≤ 15))

/-- `n` bytes at `a` lie wholly within one of the queue's ranges (R62, R70). -/
def inRanges (y : Queue) (a n : Nat) : Bool :=
  (List.range 4).any fun i =>
    decide ((NMap.get 0 y.ranges (2 * i)).toNat ≤ a ∧ a + n ≤ (NMap.get 0 y.ranges (2 * i + 1)).toNat)

/-- The validator of a compatibility-mode queue (R70). -/
def validated (y : Queue) (b : List Byte) : Bool :=
  y.kinds.getLsbD (pktKind b) && (pktKind b != 1 || inRanges y (leAt b 8 8) 256) &&
  (!pktNotify b || inRanges y (pktNaddr b) 8)

/-- The checks of a packet: its halt code, or the packet with what the fetch read for it: a launch's header and log
settings (R10, R11, R67, R391). -/
def checkPacket (dev : Device) (c : Nat) (y : Queue) (b : List Byte) : Except Nat (List Byte) × Device :=
  let x := ctx dev c
  if !pktOk b then (.error 2, dev)
  else if x.compat && !validated y b then (.error 5, dev)
  else if pktKind b ≠ 1 then (.ok b, dev)
  else if leAt b 8 8 % 64 ≠ 0 then (.error 3, dev)
  else match saggarLoad dev c (leAt b 8 8) 256 with
    | none => (.error 4, dev)
    | some (h, d) =>
      (if headerOk h x.cls x.logb.base x.logb.log then
        .ok (b ++ h ++ leBytes 8 x.logb.base ++ leBytes 1 x.logb.log ++ leBytes 4 x.logb.wait)
      else .error 3, d)

/-- A barrier packet of the queue is issued and not complete (R66). -/
def barred (y : Queue) : Bool := y.outs.any fun o => o.kind == 5 && !o.complete

/-- The host address of the packet at HEAD (R62). -/
def headAddr (y : Queue) : Nat := y.qbase.toNat + 128 * (y.head.toNat % 2 ^ y.qlog)

/-- Saggar fetches and checks the next packet of a queue (R64); the fetch of the ring meets a fabric error or none. -/
def fetchPacket (dev : Device) (c q : Nat) : Device :=
  let y := queue dev c q
  if !queueLives dev c q || !y.qen || y.halt != 0 || y.head == y.tail || y.pend.isSome then dev
  else
    let (err, d1) := freeBit dev
    if err then haltQueue d1 c q 4
    else match checkPacket d1 c y (Memory.bytes d1.host (headAddr y) 128) with
      | (.error code, d2) => haltQueue d2 c q code
      | (.ok b, d2) => modQueue d2 c q fun y => { y with pend := some b }

def execPacketFetch (c q : Nat) (s : State) : Host.Outcome State Fault Refusal :=
  onDev s fun dev => fetchPacket dev c q

/-! ### Issue and completion (R64, R66) -/

/-- The packet fetched and ready to issue, where its kind is `k`. -/
def ready (dev : Device) (c q k : Nat) : Option (List Byte) :=
  let y := queue dev c q
  if queueLives dev c q && y.halt == 0 && !barred y then
    match y.pend with
    | some b => if pktKind b = k then some b else none
    | none => none
  else none

/-- Packets that are complete and write no NVAL are done with. -/
def Queue.sweep (y : Queue) : Queue := { y with outs := y.outs.filter fun o => !o.complete || o.notify }

/-- The packet issues: HEAD advances past it (R64). -/
def issuePacket (dev : Device) (c q : Nat) (b : List Byte) (complete : Bool) : Device :=
  modQueue dev c q fun y =>
    let o : Out := { pkt := y.pktNo, kind := pktKind b, notify := pktNotify b, naddr := pktNaddr b, nval := pktNval b
                     complete := complete }
    Queue.sweep { y with pend := none, head := y.head + 1, pktNo := y.pktNo + 1, outs := y.outs ++ [o] }

/-- An issued packet completes. -/
def completePacket (dev : Device) (c q pkt : Nat) : Device :=
  modQueue dev c q fun y =>
    Queue.sweep { y with outs := y.outs.map fun o => if o.pkt == pkt then { o with complete := true } else o }

/-- A packet of kind `k` that completes at issue, with its effect. -/
def atIssue (dev : Device) (c q k : Nat) (f : Device → List Byte → Device) : Device :=
  match ready dev c q k with
  | none => dev
  | some b => issuePacket (f dev b) c q b true

def execNoOperation (c q : Nat) (s : State) : Host.Outcome State Fault Refusal :=
  onDev s fun dev => atIssue dev c q 0 fun d _ => d

def pktMask (b : List Byte) : BitVec 256 := BitVec.ofNat 256 (leAt b 0x10 32)

def execEventSet (c q : Nat) (s : State) : Host.Outcome State Fault Refusal :=
  onDev s fun dev => atIssue dev c q 2 fun d b => setEvents d c (pktMask b)

def execEventClear (c q : Nat) (s : State) : Host.Outcome State Fault Refusal :=
  onDev s fun dev => atIssue dev c q 3 fun d b => clearEvents d c (pktMask b)

/-- The generation after `g` (R21). -/
def nextGen (g : Nat) : Nat := if g = 0xFFFF then 1 else g + 1

/-- A record as its slot stores it: with the slot's own handle (R21). -/
def ownHandle (r : BitVec 256) (slot gen : Nat) : BitVec 256 :=
  (r &&& ~~~(0xFFFFFFFF#256 <<< 208)) ||| (BitVec.ofNat 256 (slot + 2 ^ 16 * gen) <<< 208)

/-- Write a slot of the record table: install a record, or empty it; a write event of Saggar (R20, R21, R194). -/
def updateSlot (dev : Device) (c slot : Nat) (rec : Option (BitVec 256)) : Device :=
  modCtx (stampWrite dev .saggar (slotLoc c slot)) c fun x =>
    let g := nextGen (NMap.get (0, 0, false) x.recs slot).2.1
    { x with recs := NMap.put x.recs slot (match rec with
      | some r => (ownHandle r slot g, g, true)
      | none => (0, g, false)) }

def execRecordTableUpdate (c q : Nat) (s : State) : Host.Outcome State Fault Refusal :=
  onDev s fun dev => atIssue dev c q 4 fun d b =>
    updateSlot d c (leAt b 8 2) (if leAt b 0x0A 1 = 0 then some (BitVec.ofNat 256 (leAt b 0x20 32)) else none)

/-- The oldest packet of a queue that is not complete for a barrier: a complete one whose NVAL write is still to be made
counts as complete once the queue has halted (R67). -/
def Queue.oldest (y : Queue) : Option Out := y.outs.find? fun o => !(o.complete && y.halt != 0)

/-- A barrier packet issues, and completes once every earlier packet of the queue has (R66, R67). -/
def barrierAct (dev : Device) (c q : Nat) : Device :=
  let d1 := match ready dev c q 5 with
    | some b => issuePacket dev c q b false
    | none => dev
  match (queue d1 c q).oldest with
  | some o => if queueLives d1 c q && o.kind == 5 && !o.complete then completePacket d1 c q o.pkt else d1
  | none => d1

def execBarrierPacket (c q : Nat) (s : State) : Host.Outcome State Fault Refusal :=
  onDev s fun dev => barrierAct dev c q

/-! ### Launches (R66, R72, R73) -/

/-- A launch of a context enters the Wheel, to await its wait mask (R72). -/
def enterLaunch (dev : Device) (l : Launch) : Device :=
  noteVector (setLaunch { dev with nextId := dev.nextId + 1 } dev.nextId l) l.ctx

def launchOf (c q pkt : Nat) (b : List Byte) : Launch :=
  let h := LaunchHdr.parse (b.drop 128)
  { ctx := c, via := some (q, pkt), state := .waiting
    hdr := { h with waitMask := h.waitMask ||| BitVec.ofNat 256 (leAt b 0x10 32)
                    setMask := h.setMask ||| BitVec.ofNat 256 (leAt b 0x30 32) }
    logBase := leAt b 384 8, logLog := leAt b 392 1, logWait := leAt b 393 4 }

def execLaunch (c q : Nat) (s : State) : Host.Outcome State Fault Refusal :=
  onDev s fun dev =>
    match ready dev c q 1 with
    | none => dev
    | some b => enterLaunch (issuePacket dev c q b false) (launchOf c q (queue dev c q).pktNo b)

/-- The absolute deadline of a launch of class `cls` released at `t` (R73). -/
def absDeadline (x : Ctx) (cls d t : Nat) : Option Nat :=
  match cls with
  | 1 => some (x.created + (t - x.created) / max x.period 1 * x.period + (if d = 0 then x.deadline else d))
  | 2 => some (t + (if d = 0 then x.deadline else d))
  | _ => if d = 0 then none else some (t + d)

/-- A due launch is released to placement; one that records or replays waits while another of its context is active
(R72, R73, R250, R391). DESIGN CHOICE (log entry 31): its release time is that at which its wait mask was satisfied. -/
def releaseLaunch (dev : Device) (lid : Nat) : Device :=
  let l := launch dev lid
  let x := ctx dev l.ctx
  let logs := l.hdr.rec_ || l.hdr.rep
  if l.state != .due || (logs && x.logb.active) then dev
  else
    let cls := if l.hdr.cls = 0 then x.cls else l.hdr.cls
    let d1 := modLaunch dev lid fun l =>
      { l with state := .released, cls := cls, deadline := absDeadline x cls l.hdr.deadline l.dueAt
               token := if l.hdr.det then some 0 else none }
    if logs then
      modCtx d1 l.ctx fun x =>
        { x with logb := { x.logb with active := true, launch := lid, used := [], exited := [], performed := [], waiting := [], since := 0, bad := none
                                       wr := if l.hdr.rec_ then 0 else x.logb.wr } }
    else d1

def execLaunchRelease (l : Nat) (s : State) : Host.Outcome State Fault Refusal :=
  onDev s fun dev => releaseLaunch dev l

/-- Nothing of the launch remains: every workgroup has been placed and has ended with its jobs and commands, no thread
that belongs to it runs or stands in a bin, every atomic of it is performed, and its log is written (R66, R225, R439). DESIGN CHOICE (log entry 53): the jobs and
commands of a bin wave are of the launch of its first thread. -/
def launchOver (dev : Device) (lid : Nat) : Bool :=
  let l := launch dev lid
  l.state == .released && !launchOutside dev lid && l.liveWgs == 0 &&
  !(dev.wgs.any fun p => p.2.launch == lid) &&
  !(dev.bins.any fun b => b.threads.any fun t => t.launch == lid) &&
  !(dev.svc.any fun p => p.2.ops.any fun o => o.launch == lid && o.old.isNone) &&
  !((l.hdr.rec_ || l.hdr.rep) && !(ctx dev l.ctx).logb.waiting.isEmpty)

/-- A launch completes: its set mask is applied, its packet completes (R66, R71); in replay a record left unconsumed is
a mismatch (R394). -/
def completeLaunch (dev : Device) (lid : Nat) : Device :=
  let l := launch dev lid
  if !launchOver dev lid then dev
  else
    match if l.hdr.rep then replayNext dev lid (fun _ => true) else none with
    | some (_, r) => mismatch dev lid r
    | none =>
      let d1 := modLaunch dev lid fun l => { l with state := .complete }
      let d2 := if l.hdr.rec_ || l.hdr.rep then modCtx d1 l.ctx fun x => { x with logb := { x.logb with active := false } }
        else d1
      let d3 := setEvents d2 l.ctx l.hdr.setMask
      match l.via with
      | some (q, pkt) => completePacket d3 l.ctx q pkt
      | none => d3

def execLaunchComplete (l : Nat) (s : State) : Host.Outcome State Fault Refusal :=
  onDev s fun dev => completeLaunch dev l

/-! ### NVAL (R67) -/

def modOut (dev : Device) (c q pkt : Nat) (f : Out → Option Out) : Device :=
  modQueue dev c q fun y => { y with outs := y.outs.filterMap fun o => if o.pkt == pkt then f o else some o }

/-- Saggar writes NVAL after a packet completes; a PAGE waits for its answer, PROTECTION halts the queue (R67). DESIGN CHOICE
(log entry 30): where an object is registered in its sector, the write goes over the object's bytes. -/
def writeNval (dev : Device) (c q pkt : Nat) : Device :=
  match (queue dev c q).outs.find? fun o => o.pkt == pkt with
  | none => dev
  | some o =>
    if !queueLives dev c q || !o.complete || !o.notify || o.paged.isSome then dev
    else
      match saggarStore (raisePts dev .saggar dev.topTs.toNat) c o.naddr (leBytes 8 o.nval.toNat) with
      | .ok d => modOut d c q pkt fun _ => none
      | .error (_, .page lv) =>
        modOut { dev with parkSeq := dev.parkSeq + 1 } c q pkt fun o => some { o with paged := some lv, pgOrd := dev.parkSeq }
      | .error _ => haltQueue (modOut dev c q pkt fun _ => none) c q 4

def execNvalWrite (c q pkt : Nat) (s : State) : Host.Outcome State Fault Refusal :=
  onDev s fun dev => writeNval dev c q pkt

end Sys2Proof.Machine
end

