-- ==== Sys2Proof/Machine/System.lean ====
section
/-!
DEFINITION. Class 7 without the collectives: special registers, software traps, return, counters (R109, R360 to R365);
the events of issue and of the handler (R94, R192, R198, R355, R356, R362), and KILL (R374, R375).
-/

namespace Sys2Proof.Machine

/-! ### Special registers (R109, R360) -/

/-- What MOVS reads, apart from TICKS. -/
def readSpecial (dev : Device) (n : SReg) (x : Wave) (g : Group) (t : Thread) (l : Nat) : LaneOut :=
  match n with
  | .width => out32 (BitVec.ofNat 32 Config.W)
  | .workid => out64 t.workid
  | .lane => out32 (BitVec.ofNat 32 l)
  | .waveslot => out32 (BitVec.ofNat 32 x.slot)
  | .groupmask => out64 (laneMask g.lanes)
  | .ticks => out64 (BitVec.ofNat 64 dev.ticks)
  | .breg => out32 t.breg
  | .hold => out32 (BitVec.ofNat 32 x.hold)
  | .tpc => out64 t.tpc
  | .tformer => out64 x.tformer
  | .tfault => out64 x.tfault
  | .tcause => out32 x.tcause
  | .taddr => out64 t.taddr
  | .kstatus => out32 (kstatusOf (wg dev x.wg))
  | .fidelity => out32 (BitVec.ofNat 32 x.fid)
  | .fpflags => out32 x.fpflags

/-- One member's read of TICKS at the issue of its instruction, which the log may record, replace or hold back (R360, R392 to
R394). -/
def readTicks (dv : Device) (w : Nat) (x : Wave) (t : Thread) (l : Nat) : LaneRes × Device :=
  let now := (threadAt dv w l).issued % 2 ^ 64
  let count (d : Device) : Device := modThreadAt d w l fun t => { t with nTicks := t.nTicks + 1 }
  match askTicks dv t.launch (clusterOf x.core) t.workid.toNat t.nTicks now with
  | (.hold, d) => (.wait .again, d)
  | (.go, d) => (.done (out64 (BitVec.ofNat 64 now)), count d)
  | (.value v, d) => (.done (out64 (BitVec.ofNat 64 v)), count d)

def execMovs (n : SReg) (p : Pred) (d : Reg) (s : State) : Host.Outcome State Fault Refusal :=
  match n with
  | .ticks => onDev s fun dev => members dev p (some d) fun dv x t l => readTicks dv dev.cur.1 x t l
  | n =>
    onDev s fun dev => alu dev p (some d) fun x t l => readSpecial dev n x (group x dev.cur.2) t l

/-- A SETS of HOLD with value `n` (R90). -/
def setHold (now : Nat) (x : Wave) (n : Nat) : Wave :=
  if n = 0 then { x with hold := 0 }
  else
    let due := match x.holdBegan with
      | none => true
      | some b => decide (b + 50000 ≤ now)
    if x.hold == 0 && due then { x with hold := min n 5000, holdBegan := some now } else x

/-- Bits [59:57] of a TPC are not written (R93, R360). -/
def tpcMask : DWord := 0xF1FFFFFFFFFFFFFF

/-- The privilege check of R116, the last before an instruction's own effect: it raises PRIVILEGE for every member of
the group, whatever its predicate. -/
def privilegeFault (dev : Device) : Device :=
  let (w, g) := dev.cur
  let ls := (group (wave dev w) g).lanes
  settleFatal (modWave dev w fun x => raiseFaults x ls cPRIVILEGE (fun _ => 0) 0 (laneMask ls)) w

/-- SETS. DESIGN CHOICE (log entry 56): bits [2:0] of a value written to TPC are kept, and the header is fetched from the
address they give. -/
def execSets (n : SReg) (p : Pred) (a : Src) (s : State) : Host.Outcome State Fault Refusal :=
  onDev s fun dev =>
    match n with
    | .hold => byLead dev p fun x t _ => setHold dev.ticks x (rd32 x t a).toNat
    | .fpflags => byLead dev p fun x t _ => setFlags x (rd32 x t a)
    | .tpc =>
      if !inHandler (wave dev dev.cur.1) then privilegeFault dev
      else modWave dev dev.cur.1 fun x =>
        let g := dev.cur.2
        advance ((performers x (group x g) p).foldl (fun y l =>
          modThread y l fun t => { t with tpc := rd64 x (thread x l) a &&& tpcMask, mark := .none }) x) g
    | _ => privilegeFault dev

/-! ### Software traps (R361) -/

/-- Every performing member raises a fault; the others go on (R361). -/
def trapStep (dev : Device) (p : Pred) (code : Nat) (user : BitVec 8) (addr : Wave → Group → Thread → DWord) : Device :=
  members dev p none fun dv x t _ => (.fault code (addr x (group x dev.cur.2) t) user.toNat, dv)

def execTrap (p : Pred) (code : BitVec 8) (a : Src) (s : State) : Host.Outcome State Fault Refusal :=
  onDev s fun dev => trapStep dev p cTRAP code fun x _ t => rd64 x t a

def execDbrk (p : Pred) (code : BitVec 8) (s : State) : Host.Outcome State Fault Refusal :=
  onDev s fun dev => trapStep dev p cBREAK code fun _ g _ => groupPc g

/-! ### Return from the handler (R362, R363) -/

/-- The performing members stop at RTE; the others go to the next clause (R362). -/
def stopAtRte (x : Wave) (g : Nat) (p : Pred) : Wave :=
  let y := group x g
  let act := performers x y p
  let z := act.foldl (fun z l => modThread z l fun t => { t with run := .rte }) x
  leaveGroup z g fun l => if act.contains l then groupPc y else nextClause y

def execRte (p : Pred) (s : State) : Host.Outcome State Fault Refusal :=
  onDev s fun dev =>
    if inHandler (wave dev dev.cur.1) then modWave dev dev.cur.1 fun x => stopAtRte x dev.cur.2 p
    else privilegeFault dev

/-- Every thread of the wave that has not exited has stopped at an RTE. -/
def allAtRte (x : Wave) : Bool :=
  inHandler x && !(aliveLanes x).isEmpty && (aliveLanes x).all fun l => (thread x l).run == .rte

def handlerReturn (dev : Device) (w : Nat) : Device :=
  modWave dev w fun x => if x.live && x.resident && allAtRte x then returnFromHandler x else x

def execHandlerReturn (w : Nat) (s : State) : Host.Outcome State Fault Refusal :=
  onWaveDev s w fun dev => handlerReturn dev w

/-! ### Performance counters (R364) -/

def execPmc (n : Fin 9) (clr : Bool) (p : Pred) (d : Reg) (s : State) : Host.Outcome State Fault Refusal :=
  onDev s fun dev =>
    let x := wave dev dev.cur.1
    let some_ := !(performers x (group x dev.cur.2) p).isEmpty
    let d1 := alu dev p (some d) fun x _ _ => out64 (NMap.get 0 x.pmc n.val)
    if clr && some_ then modWave d1 dev.cur.1 fun x => { x with pmc := NMap.erase x.pmc n.val } else d1

/-! ### Events of issue and of the handler -/

/-- A quarter forms a group at a PC of a wave that it has selected: not on a cluster in retention, nor past the run-on limit
(R94, R112, R355, R424). -/
def execIssueGroupForm (w : Nat) (pc : DWord) (s : State) : Host.Outcome State Fault Refusal :=
  onWaveDev s w fun dev => if runOnReached dev (wave dev w) then dev else formGroup dev w pc fun _ => true

/-- The pts of a resident thread rises (R198). -/
def execPtsAdvance (w l : Nat) (s : State) : Host.Outcome State Fault Refusal :=
  onDev s fun dev =>
    if (wave dev w).resident then
      modThreadAt dev w l fun t => if alive t then { t with pts := t.pts + 1 } else t
    else dev

/-- Handler entry once every thread has exited or stopped; a wave without a handler is killed (R353, R356). -/
def handlerEntry (dev : Device) (w : Nat) : Device :=
  let x := wave dev w
  match x.first with
  | none => dev
  | some f =>
    if !x.live || !x.resident || inHandler x || !allStopped dev w then dev
    else if handlerVector x = 0 then killByFault dev w { kind := 1, code := f.code, lane := some f.lane }
    else modWave dev w fun x => enterHandler x f

def execHandlerEntry (w : Nat) (s : State) : Host.Outcome State Fault Refusal :=
  onWaveDev s w fun dev => handlerEntry dev w

def execRunOnLimit (w : Nat) (s : State) : Host.Outcome State Fault Refusal :=
  onWaveDev s w fun dev => stopRunOn dev w

/-- A lane parked on PAGE, its fault answered, may retry: after the members that performed with the original issue of an
atomic (R224), and while its wave may issue. -/
def mayRetry (dev : Device) (x : Wave) (l : Nat) : Bool :=
  let t := thread x l
  x.live && x.resident && !x.limited && x.leaving.isNone && !runOnReached dev x && !spent dev x l &&
  t.run == .page && t.pgKind == 0 &&
  match t.pgReq with
  | some k => (NMap.get {} dev.svc k).performed
  | none => true

/-- The instruction a thread has left its group within is an atomic. -/
def inAtomic (x : Wave) (t : Thread) : Bool :=
  match t.inst with
  | some ⟨h, some iw, _, _, _, _⟩ =>
    match wordInstr x h (pcIndex t.pc) iw with
    | .ok (.atom ..) | .ok (.atomn ..) | .ok (.satom ..) => true
    | _ => false
  | _ => false

/-- An atomic that a lane performs alone at its retry follows what the other members of its issue have done (R224). -/
def afterMates (dev : Device) (w l : Nat) : Device :=
  let x := wave dev w
  let t := thread x l
  if !inAtomic x t then dev
  else (NMap.keys x.threads).foldl (fun d k => if k ≠ l ∧ t.pgMask.getLsbD k then membersFollow d w k l else d) dev

/-- A lane parked on PAGE, its fault answered, retries its whole instruction for itself alone, which it leads where it led it
before (R108, R192, R224); at the fetch of a word, it fetches that first. One parked at the fetch of a clause header goes on from
its PC. -/
def retryPage (dev : Device) (w l : Nat) : Device :=
  let x := wave dev w
  let t := thread x l
  if !mayRetry dev x l then dev
  else
    let go (wt : Wait) (y : Wave) : Wave :=
      modThread y l fun t => { t with run := .run, wait := wt, pgVa := 0, pgLevel := 0, pgReq := none }
    modWave (afterMates dev w l) w fun y =>
      match t.inst with
      | none => go .none y
      | some i =>
        let r := resumedGroup x t.pc i [l] true
        if i.iw.isSome then resumeGroup (go .retry y) r
        else resumeGroup (go .none y) { r with began := false, lead := none, s0 := [], d0 := [] }

def execPageRetry (w l : Nat) (s : State) : Host.Outcome State Fault Refusal :=
  onWaveDev s w fun dev => retryPage dev w l

/-! ### KILL (R374, R375, R406) -/

/-- Contexts in destruction of which no workgroup is left are zeroed and freed (R60, R406). -/
def freeDestroyed (dev : Device) : Device :=
  dev.ctxs.foldl (fun d p =>
    if (ctx d p.1).busy == 2 && !(d.wgs.any fun g => g.2.ctx == p.1) then
      freeContext (endContext d p.1 none { kind := 3, code := cKILLED }) p.1
    else d) dev

/-- A workgroup of a context in destruction is killed; with the last one the context is free (R374, R375, R406). A record
that the save area does not take ends the rest with SAVE-AREA (R368, R370). -/
def killDue (dev : Device) (g : Nat) : Device :=
  let x := wg dev g
  if x.live && (ctx dev x.ctx).busy == 2 then
    let (ok, d) := killWg dev g fun _ => { kind := 3, code := cKILLED }
    if ok then freeDestroyed d else saveAreaLoss d x.ctx
  else dev

def execKill (g : Nat) (s : State) : Host.Outcome State Fault Refusal := onDev s fun dev => killDue dev g

end Sys2Proof.Machine
end

