-- ==== Sys2Proof/Machine/Contexts.lean ====
section
/-!
DEFINITION. Contexts and the host: creation, destruction, invalidation (R57 to R60, R193, R406), the windows' plain
registers (R391, R404, R405, R410), the memory aperture (R407), page faults and their answers (R408, R409).
-/

namespace Sys2Proof.Machine

/-! ### Creation (R57 to R59, R406) -/

def Ctx.d (x : Ctx) (off n : Nat) : Nat := leNat (Memory.bytes x.desc off n)

/-- The descriptor's clusters are owned by another sealed context (R59). -/
def clustersOwned (dev : Device) (c : Nat) (m : Word) : Bool :=
  dev.ctxs.any fun p => p.1 != c && p.2.sealed_ && (p.2.cstate == 1 || p.2.cstate == 2) && p.2.sealMask &&& m != 0

/-- Every 64 KiB page of the save area translates to a leaf that permits writes (R59). -/
def saveMapped (mem : Memory) (root save size : Nat) : Bool :=
  (List.range (size / 65536)).all fun i =>
    let va := save + 65536 * i
    decide (va < 2 ^ 57) &&
    match walk mem va root 0 4 with
    | .leaf t => t.wr
    | _ => false

/-- Saggar accepts the descriptor (R59). -/
def descriptorOk (dev : Device) (c : Nat) (x : Ctx) : Bool :=
  let flags := x.d 3 1
  let cls := bitsOf flags 0 2
  let sealed_ := bitsOf flags 3 1 == 1
  let mask : Word := BitVec.ofNat 32 (x.d 0x24 4)
  let period := x.d 4 4
  let deadline := x.d 8 4
  decide (1 ≤ x.d 2 1 ∧ x.d 2 1 ≤ 8) && flags / 16 == 0 && cls != 0 &&
  (List.range 0x56).all (fun i => x.d (0x2A + i) 1 == 0) &&
  (if sealed_ then mask != 0 && !clustersOwned dev c mask else mask == 0) &&
  (if cls == 3 then period == 0 && deadline == 0 else period != 0) && decide (deadline ≤ period) &&
  x.d 0x10 8 % 2 ^ 21 == 0 && x.d 0x18 8 % 65536 == 0 && x.d 0x20 4 % 65536 == 0 && decide (131072 ≤ x.d 0x20 4) &&
  saveMapped dev.mem (x.d 0x10 8) (x.d 0x18 8) (x.d 0x20 4)

/-- The context a descriptor makes for its owner, at TICKS `now`. -/
def fromDescriptor (x : Ctx) (node now : Nat) : Ctx :=
  { cstate := 1, owner := some node, desc := x.desc, invBase := x.invBase, invLen := x.invLen
    procId := x.d 0 2, qcount := x.d 2 1, sealed_ := bitsOf (x.d 3 1) 3 1 == 1, compat := bitsOf (x.d 3 1) 2 1 == 1
    cls := bitsOf (x.d 3 1) 0 2, period := x.d 4 4, deadline := x.d 8 4, yield_ := x.d 0xC 4, ptroot := x.d 0x10 8
    save := x.d 0x18 8, saveSize := x.d 0x20 4, sealMask := BitVec.ofNat 32 (x.d 0x24 4), lockq := x.d 0x28 2
    created := now }

/-- A create command, accepted while the context is free; LOGCOUNT and LOG in the header of the save area are zeroed (R367,
R404, R406). DESIGN CHOICE (log entry 54): waves of other contexts resident on the clusters of a new sealed context run
on there. -/
def createContext (dev : Device) (node c : Nat) : Device :=
  let x := ctx dev c
  if 64 ≤ c ∨ !(x.cstate == 0 || x.cstate == 3) then dev
  else if descriptorOk dev c x then
    let y := fromDescriptor x node dev.ticks
    zeroGranules (setCtx dev c y) c y.save 1
  else setCtx dev c { x with cstate := 3, owner := none }

/-- The bisque runs of the clusters that an active context `c` owns end, short of a calibration (R61, R428). -/
def endOwnedRuns (dev : Device) (c : Nat) (p : Power) : Power :=
  let x := ctx dev c
  if x.cstate != 1 then p
  else { p with clusters := p.clusters.map fun q =>
    (q.1, if x.sealMask.getLsbD q.1 then { q.2 with bisque := false, cut := false } else q.2) }

/-- Contexts may be created at BOOT 3 (R432). -/
def execContextCreate (node c : Nat) (s : State) : Host.Outcome State Fault Refusal :=
  if s.mgmt.boot ≠ 3 then .next s
  else
    let d := createContext s.dev node c
    .next { s with dev := d, power := endOwnedRuns d c s.power }

/-! ### Destruction and invalidation (R193, R218, R406) -/

/-- A destroy command: its queues halt with code 7 and CSTATE is 2 until KILL has ended its workgroups; a context already
discarded, or without workgroups, is freed at once (R374, R406). -/
def destroyContext (dev : Device) (node c : Nat) : Device :=
  let x := ctx dev c
  if !owns dev node c then dev
  else if x.cstate = 4 then freeContext dev c
  else if x.cstate = 1 then
    freeDestroyed (modCtx (haltQueues dev c 7 none) c fun x => { x with cstate := 2, busy := 2 })
  else dev

def execContextDestroy (node c : Nat) (s : State) : Host.Outcome State Fault Refusal :=
  onDev s fun dev => destroyContext dev node c

/-- An invalidate command over INVBASE to INVBASE + INVLEN − 1, as they stand when it is written (R406). -/
def invalidate (dev : Device) (node c : Nat) : Device :=
  if owns dev node c && (ctx dev c).cstate == 1 then
    modCtx dev c fun x => { x with cstate := 2, busy := 3, cmdBase := x.invBase, cmdLen := x.invLen }
  else dev

def execTranslationInvalidate (node c : Nat) (s : State) : Host.Outcome State Fault Refusal :=
  onDev s fun dev => invalidate dev node c

/-- A virtual address lies in the range being invalidated. -/
def Ctx.invalidates (x : Ctx) (va : Nat) : Bool := decide (x.cmdBase.toNat ≤ va ∧ va < x.cmdBase.toNat + x.cmdLen.toNat)

/-- A thread's access has sectors left. -/
def Wait.partway : Wait → Bool
  | .rest _ _ _ | .chunk _ | .look _ => true
  | .waitv _ _ _ _ q => !q.rest.isEmpty
  | _ => false

/-- An access of the context that has been translated is still under way: an atomic request, a thread's access or one of an
aperture of which sectors are left. -/
def accessUnderWay (dev : Device) (c : Nat) : Bool :=
  dev.svc.any (fun p => !p.2.performed && (wave dev p.2.wave).ctx == c) ||
  dev.aps.any (fun a => a.ctx == c) ||
  dev.waves.any fun p => p.2.ctx == c && p.2.threads.any fun q => q.2.wait.partway

/-- An invalidation completes: no TLB holds a translation of the range, every access translated earlier has been
performed, pins of the range end, CSTATE is 1 (R193, R218). -/
def completeInvalidation (dev : Device) (c : Nat) : Device :=
  let x := ctx dev c
  if x.busy != 3 || accessUnderWay dev c then dev
  else
    let keep (m : NMap Tr) : NMap Tr := m.filter fun t => !(t.1 / 2 ^ 41 == c && x.invalidates (t.1 % 2 ^ 41 * 65536))
    let d1 := { dev with
      ctlb := dev.ctlb.map fun p => (p.1, keep p.2)
      cores := dev.cores.map fun p =>
      (p.1, { p.2 with tlb := keep p.2.tlb
                       pins := p.2.pins.filter fun q => !(q.ctx == c && x.invalidates (q.line * 128)) }) }
    modCtx d1 c fun x => { x with cstate := 1, busy := 0 }

def execInvalidationComplete (c : Nat) (s : State) : Host.Outcome State Fault Refusal :=
  onDev s fun dev => completeInvalidation dev c

/-! ### Plain registers of a window (R391, R404, R405, R408, R410) -/

/-- A write of `len` bytes `val` at `off`, as it changes an `n`-byte register at offset `o` that holds `old`. -/
def mergeReg (o n old off len val : Nat) : Nat :=
  leNat ((List.range n).map fun i =>
    if off ≤ o + i ∧ o + i < off + len then BitVec.ofNat 8 (bitsOf val (8 * (o + i - off)) 8)
    else BitVec.ofNat 8 (bitsOf old (8 * i) 8))

/-- A write to the descriptor, bytewise. -/
def writeDesc (x : Ctx) (off len val : Nat) : Ctx :=
  (List.range len).foldl (fun x i =>
    if off + i < 0x80 then { x with desc := NMap.set 0 x.desc (off + i) (BitVec.ofNat 8 (bitsOf val (8 * i) 8)) } else x) x

def writeLogBlock (b : LogBlock) (off len val : Nat) : LogBlock :=
  if b.active then b
  else
    { b with base := mergeReg 0x100 8 b.base off len val, log := mergeReg 0x108 1 b.log off len val % 32
             wait := mergeReg 0x10C 4 b.wait off len val
             end_ := BitVec.ofNat 32 (mergeReg 0x118 4 b.end_.toNat off len val) }

def writePfBlock (b : PfBlock) (off len val : Nat) : PfBlock :=
  { b with base := BitVec.ofNat 64 (mergeReg 0x300 8 b.base.toNat off len val)
           log := mergeReg 0x308 1 b.log off len val % 32
           note := BitVec.ofNat 64 (mergeReg 0x318 8 b.note.toNat off len val)
           ansva := BitVec.ofNat 64 (mergeReg 0x320 8 b.ansva.toNat off len val) }

/-- What a written byte of a group entry keeps: reserved bits, REBUILT and LIVE do not take it (R410). -/
def groupByte (k v : Nat) : Nat :=
  if k ≤ 3 then v
  else if k = 4 then v % 16
  else if k = 5 then v % 2
  else if k < 16 then 0
  else match k % 8 with
    | 0 => v % 2
    | 1 | 2 | 3 => 0
    | _ => v

/-- A byte written to the group table; a VALID entry takes none while a chunk of it is in flight (R410). -/
def writeGroupByte (dev : Device) (c : Nat) (x : Ctx) (off v : Nat) : Ctx :=
  let g := off / 256
  let busy := (grpOf x g).valid && dev.chunks.any fun p => p.2.ctx == c && p.2.group == g && p.2.live
  if busy then x else { x with groups := NMap.set 0 x.groups off (BitVec.ofNat 8 (groupByte (off % 256) v)) }

/-- A write to a queue block's plain registers, without effect while QEN is 1 (R62). -/
def writeQueueBlock (y : Queue) (off len val : Nat) : Queue :=
  if y.qen then y
  else
    { y with qbase := BitVec.ofNat 64 (mergeReg 0 8 y.qbase.toNat off len val)
             qlog := mergeReg 8 1 y.qlog off len val % 32
             kinds := BitVec.ofNat 8 (mergeReg 0x20 1 y.kinds.toNat off len val)
             ranges := (List.range 8).foldl (fun m i =>
               NMap.set 0 m i (BitVec.ofNat 64 (mergeReg (0x40 + 8 * i) 8 (NMap.get 0 y.ranges i).toNat off len val)))
               y.ranges }

/-- A host's write of up to 8 bytes at an offset of a context window, to registers without behaviour of their own. The
registers that act (CMD, TAIL, QEN, FRRD, ANSCMD, RDIDX) take nothing here. DESIGN CHOICE (log entry 63): of a write that runs
from one queue's block into the next, the first block alone takes its part. -/
def writeWindow (dev : Device) (node c off len : Nat) (val : DWord) : Device :=
  let x := ctx dev c
  let v := val.toNat
  let free := x.cstate == 0 || x.cstate == 3
  if 64 ≤ c ∨ 8 < len ∨ 65536 < off + len then dev
  else if off < 0x80 then (if free then setCtx dev c (writeDesc x off len v) else dev)
  else if !free && !owns dev node c then dev
  else if 0x200 ≤ off ∧ off < 0x220 then
    setCtx dev c { x with invBase := BitVec.ofNat 64 (mergeReg 0x208 8 x.invBase.toNat off len v)
                          invLen := BitVec.ofNat 64 (mergeReg 0x210 8 x.invLen.toNat off len v) }
  else if free then dev
  else if 0x100 ≤ off ∧ off < 0x140 then setCtx dev c { x with logb := writeLogBlock x.logb off len v }
  else if 0x300 ≤ off ∧ off < 0x340 then setCtx dev c { x with pf := writePfBlock x.pf off len v }
  else if 0x7000 ≤ off ∧ off < 0x8000 then
    setCtx dev c ((List.range len).foldl (fun x i =>
      if off + i < 0x8000 then writeGroupByte dev c x (off + i - 0x7000) (bitsOf v (8 * i) 8) else x) x)
  else if 0x8000 ≤ off ∧ off < 0x8400 then
    let q := (off - 0x8000) / 128
    if queueLives dev c q then modQueue dev c q fun y => writeQueueBlock y (off % 128) len v else dev
  else dev

/-! ### The memory aperture (R407) -/

/-- The sectors of an access of an aperture, in ascending address, one event each; it may stop with some still to go, to be
continued by the same access. A write that meets a sector registered meanwhile is an error (R200, R211, R407). -/
def apertRun (dev : Device) (p : Apert) : List (Loc × Nat) → List Byte → Device
  | [], got => { dev with resp := some got }
  | (l, n) :: r, got =>
    let (go, d0) := spendCut dev
    if !go then { d0 with aps := d0.aps ++ [{ p with rest := (l, n) :: r, got := got }] }
    else if p.write then
      if registered d0 l then { d0 with resp := none }
      else
        let left := ((l, n) :: r).foldl (fun k q => k + q.2) 0
        apertRun (writeSpans d0 .host [(l, n)] ((p.data.drop (p.data.length - left)).take n)) p r got
    else
      let (bs, d1) := readSpans d0 .host [(l, n)]
      apertRun d1 p r (got ++ bs)

/-- An access of an aperture under way of which this is the rest. -/
def Apert.goesOn (p : Apert) (node c : Nat) (off : DWord) (write : Bool) (data : List Byte) : Bool :=
  p.node == node && p.ctx == c && p.off == off && p.write == write && p.data == data

def apertOf (dev : Device) (node c : Nat) (off : DWord) (write : Bool) (data : List Byte) : Option Apert :=
  dev.aps.find? fun p => p.goesOn node c off write data

/-- A node's access of the device comes after one of its own that is still under way, of which it is not the rest (`rest`): it
has no effect yet (R404). -/
def behindAperture (dev : Device) (node : Nat) (rest : Apert → Bool) : Bool := dev.aps.any fun p => p.node == node && !rest p

/-- A host access of the aperture: a read's data or a fabric error stands in `resp` (R407); of another node, reads
return zero and writes are ignored (R404). -/
def accessAperture (dev : Device) (node c : Nat) (off : DWord) (write : Bool) (data : List Byte) : Device :=
  let a := off.toNat
  let n := data.length
  let x := ctx dev c
  match apertOf dev node c off write data with
  | some p => apertRun { dev with aps := dev.aps.erase p } p p.rest p.got
  | none =>
    if !owns dev node c then { dev with resp := some (if write then [] else List.replicate n 0) }
    else if !(x.cstate == 1 || x.cstate == 2) || decide (2 ^ 32 < a + n) then { dev with resp := none }
    else
      match directSpans dev c (if write then .store else .load) (sectorSpans a n) with
      | .error _ => { dev with resp := none }
      | .ok ls =>
        if write && ls.any (fun l => registered dev l.1) then { dev with resp := none }
        else apertRun dev { node := node, ctx := c, off := off, write := write, data := data, rest := [] } ls []

def execApertureAccess (node c : Nat) (off : DWord) (write : Bool) (data : List Byte) (s : State) :
    Host.Outcome State Fault Refusal :=
  onDev s fun dev => accessAperture dev node c off write data

/-! ### Page faults (R192, R408, R409) -/

/-- A fault that waits for an answer: where it lies, its KIND and LEVEL, its core, and the WORKID for its record. -/
structure PfItem where
  va : Nat
  kind : Nat
  level : Nat
  core : Nat
  workid : Nat
  /-- Its place in the order of parks. -/
  ord : Nat
deriving DecidableEq, Repr, Inhabited

/-- A lane is parked on a fault that has no answer. -/
def parkedOn (t : Thread) : Bool := t.run == .page && t.pgKind != 0

/-- The lanes' faults of a context. The lanes of one instruction park in ascending WORKID, so that the first is the lane
with the lowest. -/
def laneFaults (dev : Device) (c : Nat) : List PfItem :=
  dev.waves.flatMap fun p =>
    if p.2.ctx != c || !p.2.live then []
    else (p.2.threads.filter fun q => parkedOn q.2).map fun q =>
      { va := q.2.pgVa, kind := q.2.pgKind, level := q.2.pgLevel, core := p.2.core, workid := q.2.workid.toNat
        ord := q.2.pgOrd : PfItem }

def jobFaults (dev : Device) (c : Nat) : List PfItem :=
  dev.jobs.filterMap fun p =>
    if p.2.ctx == c && p.2.state == 4 then
      some { va := p.2.pgVa, kind := p.2.pgKind, level := p.2.pgLevel, core := p.2.core, workid := 0, ord := p.2.pgOrd : PfItem }
    else none

def nvalFaults (x : Ctx) : List PfItem :=
  x.queues.flatMap fun p => p.2.outs.filterMap fun o =>
    o.paged.map fun lv => { va := o.naddr, kind := 9, level := lv, core := 0xFFFF, workid := 0, ord := o.pgOrd : PfItem }

/-- The faults of a context whose granule has no record. -/
def newFaults (dev : Device) (c : Nat) : List PfItem :=
  let x := ctx dev c
  (laneFaults dev c ++ jobFaults dev c ++ nvalFaults x).filter fun f => !x.pf.pending.contains (f.va / 65536)

/-- The lanes of a granule retry, its engine accesses and NVAL writes go on (R192, R409). -/
def grantGranule (dev : Device) (c gr : Nat) : Device :=
  let here (va : Nat) : Bool := va / 65536 == gr
  let d1 := { dev with
    waves := dev.waves.map fun p =>
      if p.2.ctx != c then p
      else (p.1, { p.2 with threads := p.2.threads.map fun q =>
        (q.1, if parkedOn q.2 && here q.2.pgVa then { q.2 with pgKind := 0 } else q.2) })
    jobs := dev.jobs.map fun p =>
      if p.2.ctx == c && p.2.state == 4 && here p.2.pgVa then (p.1, { p.2 with state := 2 }) else p }
  modCtx d1 c fun x => { x with queues := x.queues.map fun p =>
    (p.1, { p.2 with outs := p.2.outs.map fun o => if here o.naddr then { o with paged := none } else o }) }

/-- A lane whose fault is declined takes PROTECTION through its handler (R354, R409). -/
def declineLane (dev : Device) (w l : Nat) : Device :=
  let t := threadAt dev w l
  modWave dev w fun x => modThread (raiseFault x l cPROT t.taddr 0 t.pgMask) l fun u => { u with tpc := t.tpc }

/-- The lanes of a granule take PROTECTION, in ascending WORKID, its jobs end with it, its NVAL writes halt their queues (R67,
R409). DESIGN CHOICE (log entry 30): where two queues have such a write, each takes halt code 4, also over the 6 that the
containment for the first gave it. -/
def denyGranule (dev : Device) (c gr : Nat) : Device :=
  let here (va : Nat) : Bool := va / 65536 == gr
  let d1 := dev.waves.foldl (fun d p =>
    if p.2.ctx != c then d
    else
      let ls := sortBy (fun q => q.2.workid.toNat) (p.2.threads.filter fun q => parkedOn q.2 && here q.2.pgVa)
      settleFatal (ls.foldl (fun d q => declineLane d p.1 q.1) d) p.1) dev
  let d2 := { d1 with jobs := d1.jobs.map fun p =>
    if p.2.ctx == c && p.2.state == 4 && here p.2.pgVa then (p.1, { p.2 with state := 2, ending := some cPROT, stop := p.2.src }) else p }
  (ctx d2 c).queues.foldl (fun d p =>
    let bad := p.2.outs.filter fun o => o.paged.isSome && here o.naddr
    bad.foldl (fun d o => haltQueue (modOut d c p.1 o.pkt fun _ => none) c p.1 4) d) d2

/-- The 32 bytes of a fault record (R408). -/
def faultRecord (f : PfItem) (seq : Word) : List Byte :=
  leBytes 8 f.va ++ leBytes 1 f.kind ++ leBytes 1 f.level ++ leBytes 2 f.core ++ leBytes 4 seq.toNat ++
  leBytes 8 f.workid ++ leBytes 8 0

/-- The first of the faults in the granule of `f`. -/
def firstFault (fs : List PfItem) (f : PfItem) : PfItem :=
  (minBy (fun a b : PfItem => decide (a.ord < b.ord)) (fs.filter fun e => e.va / 65536 == f.va / 65536)).getD f

/-- Saggar writes one record, of the first fault, for a granule that has none; which granule, is free. With a bad ring it
declines at once; with a full one it waits (R408). -/
def writeFaultRecord (dev : Device) (c : Nat) : Device :=
  let x := ctx dev c
  match newFaults dev c with
  | [] => dev
  | f0 :: fs =>
    let (k, d1) := freeNat dev
    let f := firstFault (f0 :: fs) ((f0 :: fs).getD (k % (f0 :: fs).length) f0)
    if !x.runs then dev
    else if !(decide (4 ≤ x.pf.log ∧ x.pf.log ≤ 12)) || x.pf.base.toNat % 64 != 0 then denyGranule d1 c (f.va / 65536)
    else if (x.pf.wr - x.pf.rd).toNat = 2 ^ x.pf.log then dev
    else
      let h1 := Memory.putBytes d1.host (x.pf.base.toNat + 32 * (x.pf.wr.toNat % 2 ^ x.pf.log)) (faultRecord f x.pf.wr)
      let wr := x.pf.wr + 1
      let h2 := if x.pf.note = 0 then h1 else Memory.putBytes h1 x.pf.note.toNat (leBytes 8 wr.toNat)
      modCtx { d1 with host := h2 } c fun x =>
        { x with pf := { x.pf with wr := wr, pending := x.pf.pending ++ [f.va / 65536] } }

def execFaultRecordWrite (c : Nat) (s : State) : Host.Outcome State Fault Refusal :=
  onDev s fun dev => writeFaultRecord dev c

def writeFrrd (dev : Device) (node c : Nat) (val : Word) : Device :=
  if owns dev node c then modCtx dev c fun x => { x with pf := { x.pf with rd := val } } else dev

def execFrrdWrite (node c : Nat) (val : Word) (s : State) : Host.Outcome State Fault Refusal :=
  onDev s fun dev => writeFrrd dev node c val

/-- An answer for the granule of ANSVA, where it has a pending record (R409). -/
def answer (dev : Device) (node c : Nat) (act : Device → Nat → Device) : Device :=
  let x := ctx dev c
  let gr := x.pf.ansva.toNat / 65536
  if !owns dev node c || !x.pf.pending.contains gr then dev
  else act (modCtx dev c fun x => { x with pf := { x.pf with pending := x.pf.pending.filter (· != gr) } }) gr

/-- ANSCMD: 1 mapped, 2 declined (R409). -/
def writeAnscmd (dev : Device) (node c v : Nat) : Device :=
  match v with
  | 1 => answer dev node c fun d gr => grantGranule d c gr
  | 2 => answer dev node c fun d gr => denyGranule d c gr
  | _ => dev

def execAnswerMapped (node c : Nat) (s : State) : Host.Outcome State Fault Refusal :=
  onDev s fun dev => writeAnscmd dev node c 1

def execAnswerDeclined (node c : Nat) (s : State) : Host.Outcome State Fault Refusal :=
  onDev s fun dev => writeAnscmd dev node c 2

end Sys2Proof.Machine
end

