-- ==== Sys2Proof/Machine/Place.lean ====
section
/-!
DEFINITION. Where the Wheel could place a unit: footprints and fit (R75 to R77, R80, R82, R83), the ranking of units
(R78), and plans of eviction (R88, R89, R369, R385, R387).
-/

namespace Sys2Proof.Machine

/-! ### Workgroups of a launch (R12, R13) -/

/-- Values of fields 1 to 5 of workgroup number `n`, each with its place above W0. -/
def LaunchHdr.wgIndex (h : LaunchHdr) (n : Nat) : Nat := go n 0 (h.extents.drop 1) (h.widths.drop 1)
where
  /-- The index that the remaining fields give. -/
  go (n sh : Nat) : List Nat → List Nat → Nat
    | e :: es, w :: ws => 2 ^ sh * (n % max e 1) + go (n / max e 1) (sh + w) es ws
    | _, _ => 0

/-- A workgroup number is not placed yet. -/
def Launch.unplaced (l : Launch) (n : Nat) : Bool := decide (l.nextWg ≤ n ∧ n < l.hdr.wgCount) && !l.early.contains n

/-- Note the placement of a workgroup. -/
def Launch.notePlaced (l : Launch) (n : Nat) : Launch :=
  if n = l.nextWg then
    let m := skip l.early (l.early.length + 1) (n + 1)
    { l with nextWg := m, early := l.early.filter fun k => decide (m ≤ k) }
  else { l with early := n :: l.early }
where
  /-- The least number from `k` that is not in the list. -/
  skip (early : List Nat) : Nat → Nat → Nat
    | 0, k => k
    | fuel + 1, k => if early.contains k then skip early fuel (k + 1) else k

/-! ### Cores of a context (R61, R76, R82) -/

/-- The cores a context may use, ascending (R82). -/
def usableCores (x : Ctx) : List Nat :=
  (List.range Config.cores).filter fun c => !x.sealed_ || x.sealMask.getLsbD (clusterOf c)

/-- The logical core of the workgroup of index `i` (R82). -/
def logicalCore (x : Ctx) (i : Nat) : Nat :=
  let cs := usableCores x
  cs.getD (i % max cs.length 1) 0

/-- The cluster lies in some sealed context's SEALMASK (R61). -/
def sealedCluster (dev : Device) (n : Nat) : Bool :=
  dev.ctxs.any fun p => p.2.sealed_ && (p.2.cstate == 1 || p.2.cstate == 2) && p.2.sealMask.getLsbD n

/-- A core is placeable for a context; `blocked` clusters are in a bisque run or have yet to leave retention (R76,
R429). -/
def placeable (dev : Device) (blocked : Nat → Bool) (c co : Nat) : Bool :=
  let n := clusterOf co
  !blocked n && (if (ctx dev c).sealed_ then (ctx dev c).sealMask.getLsbD n else !sealedCluster dev n)

/-! ### What a unit needs -/

def round64 (n : Nat) : Nat := (n + 65535) / 65536 * 65536

/-- Live waves of a workgroup, ascending. -/
def liveWaves (dev : Device) (g : Nat) : List Nat := (wg dev g).waves.filter fun w => (wave dev w).live

/-- The workgroups of `g`'s neighbourhood, by field 1; itself where it has none (R13). -/
def siblings (dev : Device) (g : Nat) : List Nat :=
  let x := wg dev g
  if x.nbhd = 0 then [g]
  else (sortBy (fun p : Nat × Wg => p.2.f1)
    (dev.wgs.filter fun p => p.2.live && p.2.launch == x.launch && p.2.nbhd == x.nbhd)).map Prod.fst

/-- Workgroups of the neighbourhood of `g` as it was placed; 1 where it has none. -/
def unitSize (dev : Device) (g : Nat) : Nat :=
  if (wg dev g).nbhd = 0 then 1 else (launch dev (wg dev g).launch).hdr.e1

/-- The live workgroup of `g`'s neighbourhood with field 1 `j`; `g` itself where it has none. -/
def memberAt (dev : Device) (g j : Nat) : Option Nat :=
  if (wg dev g).nbhd = 0 then some g else (siblings dev g).find? fun h => (wg dev h).f1 == j

/-- The launch whose rank a unit has, its context, and whether it is a neighbourhood. -/
def unitLaunch (dev : Device) : PUnit → Nat
  | .new l _ => l
  | .bin o => ((dev.binUnits.find? fun b => b.order == o).map Bin.launch).getD 0
  | .wave w => (wave dev w).launch
  | .wg g => (wg dev g).launch

def unitCtx (dev : Device) : PUnit → Nat
  | .bin o => ((dev.binUnits.find? fun b => b.order == o).map Bin.ctx).getD 0
  | .wave w => (wave dev w).ctx
  | .wg g => (wg dev g).ctx
  | .new l _ => (launch dev l).ctx

def unitNbhd (dev : Device) : PUnit → Bool
  | .new l _ => (launch dev l).hdr.nbhd
  | .wg g => (wg dev g).nbhd != 0
  | _ => false

/-- The registers of each wave and the scratchpad of each workgroup of a unit. -/
def unitNeeds (dev : Device) (u : PUnit) : List (List Nat × Nat) :=
  match u with
  | .new l _ =>
    let h := (launch dev l).hdr
    List.replicate (if h.nbhd then h.e1 else 1) (List.replicate h.waveCount h.regs, round64 h.scratch)
  | .bin o =>
    match dev.binUnits.find? fun b => b.order == o with
    | some b => [([b.regs], round64 b.scratch)]
    | none => []
  | .wave w => [([(wave dev w).regs], 0)]
  | .wg g => (List.range (unitSize dev g)).map fun j =>
    match memberAt dev g j with
    | some h => ((liveWaves dev h).map fun w => (wave dev w).regs, round64 (wg dev h).scratch)
    | none => ([], 0)

/-- Workgroup number `j` of a resuming neighbourhood has ended: it needs no room (R91). -/
def absent (dev : Device) (u : PUnit) (j : Nat) : Bool :=
  match u with
  | .wg g => (memberAt dev g j).isNone
  | _ => false

/-! ### Room on a core (R75 to R77, R79) -/

/-- A workgroup's neighbourhood is being evicted whole: a member of it is out, and one that is not follows (R89, R91). -/
def partOut (dev : Device) (g : Nat) : Bool :=
  (wg dev g).nbhd != 0 && (siblings dev g).any fun h => !(wg dev h).resident

/-- Plans that hold room against unit `u`; those of safe-point requests hold only what their victims have freed (R79). -/
def heldPlans (dev : Device) (u : PUnit) : List Plan := dev.plans.filter fun p => p.unit != u

/-- Plans of other units that are being carried out. -/
def otherPlans (dev : Device) (u : PUnit) : List Plan := (heldPlans dev u).filter fun p => !p.safe

/-- Waves resident on a core. -/
def coreWaves (dev : Device) (co : Nat) : List (Nat × Wave) :=
  dev.waves.filter fun p => p.2.live && p.2.resident && p.2.core == co

/-- Registers of quarter `q` that seats at `slots` take. -/
def quarterRegs (q : Nat) (slots regs : List Nat) : Nat :=
  (slots.zip regs).foldl (fun n p => if p.1 / 8 = q then n + p.2 else n) 0

/-- Registers of quarter `q` of a core that seats take. -/
def seatRegs (ss : List Seat) (co q : Nat) : Nat :=
  ss.foldl (fun n s => if s.core = co then n + quarterRegs q s.slots s.regs else n) 0

/-- Registers in use in a quarter, the room that plans hold counted: all that their victims have freed, and what their units
take beyond that and beyond what the victims still in place will free (R75, R79). -/
def regsUsed (dev : Device) (u : PUnit) (co q : Nat) : Nat :=
  let now := (coreWaves dev co).foldl (fun n p => if p.2.slot / 8 = q then n + p.2.regs else n) 0
  (heldPlans dev u).foldl (fun n p =>
    let out := seatRegs p.freed co q
    let to_come := p.victims.foldl (fun n w =>
      let x := wave dev w
      if x.live && x.resident && x.core == co && x.slot / 8 == q then n + x.regs else n) 0
    n + out + (seatRegs p.seats co q - (out + to_come))) now

/-- The seats on a core that plans hold against a unit: their units' own, and those their victims have left. -/
def heldSeats (dev : Device) (u : PUnit) (co : Nat) : List Seat :=
  (heldPlans dev u).flatMap fun p => (p.seats ++ p.freed).filter fun s => s.core == co

/-- Slots of a quarter in use or held. -/
def slotsUsed (dev : Device) (u : PUnit) (co : Nat) : List Nat :=
  (coreWaves dev co).map (fun p => p.2.slot) ++ (heldSeats dev u co).flatMap Seat.slots

/-- Scratchpad ranges in use or held, by start. -/
def rangesUsed (dev : Device) (u : PUnit) (co : Nat) : List (Nat × Nat) :=
  let own := dev.wgs.filterMap fun p =>
    if p.2.live && p.2.resident && p.2.core == co then some (p.2.base, round64 p.2.scratch) else none
  let held := (heldSeats dev u co).map fun s => (s.base, s.size)
  sortBy Prod.fst ((own ++ held).filter fun r => r.2 != 0)

/-- Seat waves in ascending number: each in the quarter with the most free registers that has a free slot, ties to the
lowest; the lowest slot of it (R75, R76). -/
def seatWaves (used : List Nat) (regs : Nat → Nat) : List Nat → Option (List Nat)
  | [] => some []
  | r :: rs =>
    let open_ := (List.range 4).filter fun q => ((List.range 8).filter fun s => !used.contains (8 * q + s)) != []
    match minBy (fun a b => decide (regs a < regs b)) open_ with
    | none => none
    | some q =>
      if 1024 < regs q + r then none
      else match lowestFree used (8 * q) 8 with
        | none => none
        | some s => (seatWaves (s :: used) (fun k => if k = q then regs k + r else regs k) rs).map (s :: ·)

/-- The lowest start of `size` free bytes below `limit`, past the ranges given in ascending order. -/
def lowestGap (size limit : Nat) : Nat → List (Nat × Nat) → Option Nat
  | at0, [] => if at0 + size ≤ limit then some at0 else none
  | at0, (b, n) :: r => if at0 + size ≤ b then some at0 else lowestGap size limit (max at0 (b + n)) r

/-- A core holds no workgroup, no locked line, and no room for another unit (R77). -/
def coreEmpty (dev : Device) (u : PUnit) (co : Nat) : Bool :=
  !(dev.wgs.any fun p => p.2.live && p.2.resident && p.2.core == co) && (core dev co).pins.isEmpty &&
  (heldSeats dev u co).isEmpty

/-- A plan counts on a change of a core's split, for which the core stays empty (R77, R79). -/
def splitHeld (dev : Device) (u : PUnit) (co : Nat) : Bool :=
  (heldPlans dev u).any fun p => p.seats.any fun s => s.core == co && s.split != (core dev co).split

/-- A range of `size` bytes on a core, with the split it takes: an empty core first takes the smallest split that holds
the workgroup, where its own does not (R76, R77). -/
def findRange (dev : Device) (u : PUnit) (co size : Nat) : Option (Nat × Nat) :=
  let sp := (core dev co).split
  if splitHeld dev u co then none
  else if size = 0 then some (0, sp)
  else if size ≤ sp * 2 ^ 20 then (lowestGap size (sp * 2 ^ 20) 0 (rangesUsed dev u co)).map fun b => (b, sp)
  else if coreEmpty dev u co ∧ size ≤ 9 * 2 ^ 20 then some (0, (size + 2 ^ 20 - 1) / 2 ^ 20)
  else none

/-- What a workgroup holds on its core beside its waves and its range (R76, R257, R327): path-tiles, destination tiles,
bytes of accumulator store, Kilns. -/
structure Holdings where
  paths : Nat := 0
  dests : Nat := 0
  store : Nat := 0
  kilns : Nat := 0
deriving DecidableEq, Repr

def Holdings.add (a b : Holdings) : Holdings :=
  { paths := a.paths + b.paths, dests := a.dests + b.dests, store := a.store + b.store, kilns := a.kilns + b.kilns }

def Holdings.sub (a b : Holdings) : Holdings :=
  { paths := a.paths - b.paths, dests := a.dests - b.dests, store := a.store - b.store, kilns := a.kilns - b.kilns }

def holdings (dev : Device) (g : Nat) : Holdings :=
  let x := wg dev g
  { paths := x.paths.length, dests := x.dests.length, kilns := nb x.kiln.isSome 1
    store := ((x.kiln.map fun k => k.bytes).getD 0) + 2048 * x.paths.length + 65536 * x.dests.length }

/-- What a held plan takes on a core for a resuming workgroup, beyond what its victims free there (R79). -/
def planHoldings (dev : Device) (co : Nat) (p : Plan) : Holdings :=
  let take := match p.unit with
    | .wg g => (List.range p.seats.length).foldl (fun (h : Holdings) (j : Nat) =>
        match p.seats[j]?, memberAt dev g j with
        | some s, some m => if s.core = co then h.add (holdings dev m) else h
        | _, _ => h) ({} : Holdings)
    | _ => {}
  let free := p.whole.foldl (fun (h : Holdings) (g : Nat) =>
    if (wg dev g).resident && (wg dev g).core == co then h.add (holdings dev g) else h) ({} : Holdings)
  take.sub free

/-- What is held on a core, the room that plans hold counted. -/
def coreHoldings (dev : Device) (u : PUnit) (co : Nat) : Holdings :=
  let now := dev.wgs.foldl (fun (h : Holdings) p =>
    if p.2.live && p.2.resident && p.2.core == co then h.add (holdings dev p.1) else h) ({} : Holdings)
  (heldPlans dev u).foldl (fun h p => h.add (planHoldings dev co p)) now

/-- Places for the tiles and the Kiln that a resuming workgroup holds (R76, R79, R257, R327). -/
def holdingsFit (dev : Device) (u : PUnit) (co g : Nat) : Bool :=
  let need := holdings dev g
  let all := need.add (coreHoldings dev u co)
  decide (all.paths ≤ 64 ∧ all.dests ≤ 16 ∧ all.store ≤ storeBytes) && (need.kilns == 0 || decide (all.kilns ≤ 1))

/-- Workgroup number `j` of a unit fits on a core, where (R76). -/
def fitCore (dev : Device) (blocked : Nat → Bool) (u : PUnit) (co j : Nat) : Option Seat :=
  match (unitNeeds dev u)[j]? with
  | none => none
  | some (rs, size) =>
    let ok := placeable dev blocked (unitCtx dev u) co && (match u with
      | .wg g => ((memberAt dev g j).map (holdingsFit dev u co)).getD true
      | _ => true)
    if absent dev u j then some { core := co, slots := [], regs := [], base := 0, size := 0, split := (core dev co).split }
    else if !ok then none
    else
      match findRange dev u co size, seatWaves (slotsUsed dev u co) (regsUsed dev u co) rs with
      | some (b, sp), some ss => some { core := co, slots := ss, regs := rs, base := b, size := size, split := sp }
      | _, _ => none

/-! ### Where a unit may go (R79, R80, R82, R86, R91) -/

/-- The cores a unit of one workgroup may go to. DESIGN CHOICE (log entry 55): the number that R82 takes mod L is the
workgroup's index, WORKID shifted right by W0. -/
def unitCores (dev : Device) (u : PUnit) : List Nat :=
  let x := ctx dev (unitCtx dev u)
  match u with
  | .wave w => [(wg dev (wave dev w).wg).core]
  | .new l n =>
    let h := (launch dev l).hdr
    if h.det then [logicalCore x (h.wgIndex n)] else List.range Config.cores
  | .wg g =>
    if (launch dev (wg dev g).launch).hdr.det && !(wg dev g).isBin then [logicalCore x (wg dev g).idx]
    else List.range Config.cores
  | .bin _ => List.range Config.cores

/-- The cluster a bin wave prefers (R86). -/
def unitHome (dev : Device) : PUnit → Option Nat
  | .bin o => (dev.binUnits.find? fun b => b.order == o).map Bin.cluster
  | _ => none

/-- The core of a seat ranks before another: the preferred cluster, then the fewest occupied slots, then the lowest
number (R79, R86). -/
def seatLt (dev : Device) (home : Option Nat) (a b : Seat) : Bool :=
  let away (s : Seat) : Nat := match home with
    | some n => if clusterOf s.core = n then 0 else 1
    | none => 0
  let occ (s : Seat) := (coreWaves dev s.core).length
  decide (away a < away b ∨ (away a = away b ∧ (occ a < occ b ∨ (occ a = occ b ∧ a.core < b.core))))

/-- Rows and columns of a neighbourhood's rectangle. -/
def unitShape (dev : Device) (u : PUnit) : Nat × Nat :=
  let h := (launch dev (unitLaunch dev u)).hdr
  (h.nrows, h.ncols)

/-- The rectangles of a shape within one die, dies ascending, origins ascending; the core of each field-1 value (R13,
R80). -/
def rectangles (nr nc : Nat) : List (List Nat) :=
  (List.range 4).flatMap fun d =>
    (List.range 8).flatMap fun y => (List.range 8).filterMap fun x =>
      if y + nr ≤ 8 ∧ x + nc ≤ 8 then
        some ((List.range (nr * nc)).map fun g =>
          16 * (8 * (d / 2) + y + g / max nc 1) + 8 * (d % 2) + x + g % max nc 1)
      else none

/-- A seat for every workgroup of a unit on the cores of a rectangle. -/
def fitRect (dev : Device) (blocked : Nat → Bool) (u : PUnit) (cs : List Nat) : Option (List Seat) :=
  (List.range cs.length).mapM fun j => fitCore dev blocked u (cs.getD j 0) j

/-- Where a unit fits now (R79, R80). -/
def fit (dev : Device) (blocked : Nat → Bool) (u : PUnit) : Option (List Seat) :=
  if unitNbhd dev u then
    let (nr, nc) := unitShape dev u
    (rectangles nr nc).findSome? (fitRect dev blocked u)
  else
    (minBy (seatLt dev (unitHome dev u)) ((unitCores dev u).filterMap fun co => fitCore dev blocked u co 0)).map
      fun s => [s]

/-! ### The ranking (R78) -/

def unitRank (dev : Device) (u : PUnit) : Nat × Option Nat :=
  let l := launch dev (unitLaunch dev u)
  (l.cls, l.deadline)

/-- Keys 3 to 5: resuming before new, release sequence, workgroups before bin waves, index (R78). -/
def unitTail (dev : Device) (u : PUnit) : List Nat :=
  let l := launch dev (unitLaunch dev u)
  match u with
  | .new _ n => [1, l.relSeq, 0, l.hdr.wgIndex n]
  | .bin o => [1, l.relSeq, 1, o]
  | .wave w => [0, l.relSeq, nb (wg dev (wave dev w).wg).isBin 1, (wg dev (wave dev w).wg).idx]
  | .wg g => [0, l.relSeq, nb (wg dev g).isBin 1, (wg dev g).idx]

/-- Lexicographic order of equally long lists. -/
def listLt : List Nat → List Nat → Bool
  | a :: as, b :: bs => decide (a < b) || (a == b && listLt as bs)
  | _, _ => false

def unitLt (dev : Device) (a b : PUnit) : Bool :=
  rankLt (unitRank dev a) (unitRank dev b) ||
  (!rankLt (unitRank dev b) (unitRank dev a) && listLt (unitTail dev a) (unitTail dev b))

/-- Insert a unit in ranking order, after those before it. -/
def insertUnit (dev : Device) (u : PUnit) : List PUnit → List PUnit
  | [] => [u]
  | v :: r => if unitLt dev u v then u :: v :: r else v :: insertUnit dev u r

/-- The new workgroups of a launch that come next: the lowest; in deterministic mode the lowest of each logical core;
of a neighbourhood launch the next neighbourhood (R79, R80, R82). -/
def nextUnits (dev : Device) (lid : Nat) (l : Launch) : List PUnit :=
  if l.state != .released || decide (l.hdr.wgCount ≤ l.nextWg) then []
  else if !l.hdr.det || l.hdr.nbhd then [.new lid l.nextWg]
  else
    let x := ctx dev l.ctx
    (((List.range l.hdr.wgCount).filter l.unplaced).foldl (fun (r : List Nat × List PUnit) n =>
      let co := logicalCore x (l.hdr.wgIndex n)
      if r.1.contains co then r else (co :: r.1, r.2 ++ [.new lid n])) ([], [])).2

/-- Every unit awaiting placement, in ranking order (R78). A wave whose workgroup is being evicted whole waits with it (R91). -/
def awaiting (dev : Device) : List PUnit :=
  let news := dev.launches.flatMap fun p => nextUnits dev p.1 p.2
  let bins := dev.binUnits.map fun b => PUnit.bin b.order
  let goes (g : Nat) : Bool := partOut dev g || dev.plans.any fun p => p.whole.contains g
  let waves := dev.waves.filterMap fun p =>
    if p.2.live && !p.2.resident && (wg dev p.2.wg).resident && !goes p.2.wg then some (PUnit.wave p.1) else none
  let wgs := dev.wgs.filterMap fun p =>
    if p.2.live && !p.2.resident && (siblings dev p.1).all (fun g => !(wg dev g).resident) &&
      (siblings dev p.1).head? == some p.1 then some (PUnit.wg p.1) else none
  (news ++ bins ++ waves ++ wgs).foldl (fun r u => insertUnit dev u r) []

/-! ### Victims (R88, R385, R387) -/

/-- The wave is at a safe point: the step that begins stands at an instruction boundary, between Kiln steps (R385). -/
def atSafePoint (dev : Device) (w : Nat) : Bool :=
  !holdsToken dev w && (wg dev (wave dev w).wg).dests.all fun t => t.2.seqs.isEmpty

/-- The place of a wave in its launch's logical order (R250). -/
def logicalOrder (dev : Device) (x : Wave) : Nat := 16 * (wg dev x.wg).num + x.idx

/-- The workgroup, by number, at a wave of which the token of a unit's launch waits, where it is one of the unit (R387). -/
def tokenAwaits (dev : Device) (u : PUnit) : Option Nat :=
  let l := launch dev (unitLaunch dev u)
  match l.token, u with
  | some i, .new _ n =>
    if l.hdr.det && decide (n ≤ i / 16 ∧ i / 16 < n + (if l.hdr.nbhd then l.hdr.e1 else 1)) then some (i / 16) else none
  | some i, .wg g =>
    if l.hdr.det && !(wg dev g).isBin && (siblings dev g).any (fun h => (wg dev h).num == i / 16) then some (i / 16)
    else none
  | _, _ => none

/-- A resident wave ranks below unit `u`, or is one that R387 lets it evict: later in the logical order than the wave at
which the token waits, and on that wave's logical core. -/
def ranksBelow (dev : Device) (u : PUnit) (x : Wave) : Bool :=
  rankLt (unitRank dev u) (waveRank dev x) ||
  match tokenAwaits dev u with
  | none => false
  | some n =>
    let l := launch dev (unitLaunch dev u)
    x.launch == unitLaunch dev u && !x.isBin && decide (l.token.getD 0 < logicalOrder dev x) &&
    x.core == logicalCore (ctx dev l.ctx) (l.hdr.wgIndex n)

/-- A candidate victim (R88); with `anyPoint`, deterministic waves that are not at a safe point count too (R386). -/
def isVictim (dev : Device) (u : PUnit) (anyPoint : Bool) (w : Nat) : Bool :=
  let x := wave dev w
  x.live && x.resident && ranksBelow dev u x && x.hold == 0 &&
  (!(launch dev x.launch).hdr.det || anyPoint || atSafePoint dev w) &&
  !(otherPlans dev u).any fun p => p.victims.contains w

/-- A wave of a producer workgroup (R83). -/
def isProducer (dev : Device) (x : Wave) : Bool :=
  (launch dev x.launch).hdr.consumer && !x.isBin && decide ((wg dev x.wg).num < (launch dev x.launch).hdr.reserve)

/-- The order in which a plan takes victims: least urgent first, consumers before producers of one launch, WAVESLOT
descending (R89). -/
def victimLt (dev : Device) (a b : Nat) : Bool :=
  let x := wave dev a
  let y := wave dev b
  rankLt (waveRank dev y) (waveRank dev x) ||
  (!rankLt (waveRank dev x) (waveRank dev y) &&
    (if x.launch = y.launch ∧ isProducer dev x ≠ isProducer dev y then isProducer dev y else decide (y.slot < x.slot)))

/-- A victim at its place. DESIGN CHOICE (log entry 39): where the keys order three waves in a circle, they are taken as this
insertion in wave-number order leaves them (R89). -/
def insertVictim (dev : Device) (w : Nat) : List Nat → List Nat
  | [] => [w]
  | v :: r => if victimLt dev w v then w :: v :: r else v :: insertVictim dev w r

/-! ### Frames (R369) -/

def waveFrame (x : Wave) : Nat := 8192 + 256 * x.regs

def wgFrame (dev : Device) (g : Nat) : Nat :=
  let x := wg dev g
  round64 x.scratch + 2048 * x.paths.length + 65536 * x.dests.length +
  ((x.kiln.map fun k => 388 * 1024 + k.bytes).getD 0) +
  256 * (dev.jobs.filter fun p => p.2.wg == g && jobLive p.2).length

/-- Bytes of a context's frames in use. -/
def savedBytes (dev : Device) (c : Nat) : Nat :=
  dev.waves.foldl (fun n p => if p.2.ctx == c && p.2.live && !p.2.resident then n + waveFrame p.2 else n)
    (dev.wgs.foldl (fun n p => if p.2.ctx == c && p.2.live && !p.2.resident then n + p.2.frame else n) 0)

/-- The workgroups that the eviction of these waves evicts whole. DESIGN CHOICE (log entry 39): a workgroup is evicted whole
when its last resident wave goes, whatever its waves were taken for and by however many plans (R91). -/
def wholeOf (dev : Device) (taken : List Nat) : List Nat :=
  dev.wgs.filterMap fun p =>
    if p.2.live && p.2.resident && p.2.waves.any (fun w => taken.contains w) &&
      p.2.waves.all (fun w => taken.contains w || !(wave dev w).live || !(wave dev w).resident) then some p.1 else none

/-- Bytes of frames of context `c` that the eviction of these waves takes. -/
def frameSum (dev : Device) (c : Nat) (taken : List Nat) : Nat :=
  taken.foldl (fun n w =>
    let x := wave dev w
    if x.ctx == c && x.live && x.resident then n + waveFrame x else n)
    ((wholeOf dev taken).foldl (fun n g => if (wg dev g).ctx == c then n + wgFrame dev g else n) 0)

/-- Bytes of frames of context `c` that a plan being carried out has still to take. -/
def planFrames (dev : Device) (c : Nat) (p : Plan) : Nat :=
  p.victims.foldl (fun n w =>
    let x := wave dev w
    if x.ctx == c && x.live && x.resident then n + waveFrame x else n)
    (p.whole.foldl (fun n g => if (wg dev g).ctx == c && (wg dev g).resident then n + wgFrame dev g else n) 0)

/-- The frames of these victims fit in the free part of a context's save area, those of plans being carried out counted
(R89, R369). -/
def framesFit (dev : Device) (u : PUnit) (c : Nat) (taken : List Nat) : Bool :=
  let planned := (otherPlans dev u).foldl (fun n p => n + planFrames dev c p) 0
  decide (savedBytes dev c + planned + frameSum dev c taken + 65536 ≤ (ctx dev c).saveSize)

/-! ### Plans (R89) -/

/-- The device as it is once these waves are out. -/
def without (dev : Device) (taken : List Nat) : Device :=
  let gone := wholeOf dev taken
  { dev with
    waves := dev.waves.map fun p => if taken.contains p.1 then (p.1, { p.2 with resident := false }) else p
    wgs := dev.wgs.map fun p => if gone.contains p.1 then (p.1, { p.2 with resident := false }) else p }

/-- Take more victims: a workgroup of a neighbourhood evicted whole takes the whole neighbourhood, and what does not fit
the save area is skipped (R89). DESIGN CHOICE (log entry 39): so is one whose neighbourhood has a wave that is no candidate. -/
def takeMore (dev : Device) (u : PUnit) (any : Bool) (taken ws : List Nat) : List Nat :=
  let more := ws.filter fun w => !taken.contains w
  let t1 := taken ++ more
  let kin := (wholeOf dev t1).flatMap fun g => (siblings dev g).flatMap fun h =>
    (liveWaves dev h).filter fun w => (wave dev w).resident && !t1.contains w
  let t2 := t1 ++ kin.foldr (fun w r => if r.contains w then r else w :: r) []
  if kin.all (fun w => isVictim dev u any w) && t2.all (fun w => framesFit dev u (wave dev w).ctx t2) then t2 else taken

/-- The plan for workgroup `j` of a unit on a core, beyond what is taken already: its victims (R89). -/
def planCore (dev : Device) (blocked : Nat → Bool) (u : PUnit) (any : Bool) (co j : Nat) (taken0 : List Nat) :
    Option (List Nat) :=
  match (unitNeeds dev u)[j]? with
  | none => none
  | some (rs, size) =>
    if absent dev u j then some taken0
    else if !placeable dev blocked (unitCtx dev u) co then none
    else
      let cand := (((coreWaves dev co).map Prod.fst).filter (isVictim dev u any)).foldl
        (fun r w => insertVictim dev w r) []
      let roomy (t : List Nat) : Bool := (findRange (without dev t) u co size).isSome
      let groups := cand.foldl (fun r w => if r.contains (wave dev w).wg then r else r ++ [(wave dev w).wg]) []
      let t1 := groups.foldl (fun t g =>
        if roomy t then t
        else
          let ws := (liveWaves dev g).filter fun w => (wave dev w).resident
          if ws.all fun w => cand.contains w || t.contains w then takeMore dev u any t ws else t) taken0
      if !roomy t1 then none
      else
        let seated (t : List Nat) : Bool :=
          let d := without dev t
          (seatWaves (slotsUsed d u co) (regsUsed d u co) rs).isSome
        let t2 := cand.foldl (fun t w => if seated t || t.contains w then t else takeMore dev u any t [w]) t1
        if (fitCore (without dev t2) blocked u co j).isSome then some t2 else none

/-- The plan of a rectangle, core by core (R89). -/
def planRect (dev : Device) (blocked : Nat → Bool) (u : PUnit) (any : Bool) (cs : List Nat) : Option (List Nat) :=
  (List.range cs.length).foldl (fun t j => t.bind fun t => planCore dev blocked u any (cs.getD j 0) j t) (some [])

/-- The plan for a unit that evicts the fewest waves, ties to the lowest core number or the first rectangle (R89). -/
def planFor (dev : Device) (blocked : Nat → Bool) (u : PUnit) (any : Bool) : Option Plan :=
  let mk (cs : List Nat) (t : List Nat) : Option Plan :=
    (fitRect (without dev t) blocked u cs).map fun ss =>
      { unit := u, seats := ss, victims := t, whole := wholeOf dev t }
  let all := if unitNbhd dev u then
      let (nr, nc) := unitShape dev u
      (rectangles nr nc).filterMap fun cs => (planRect dev blocked u any cs).bind (mk cs)
    else (unitCores dev u).filterMap fun co => (planCore dev blocked u any co 0 []).bind (mk [co])
  minBy (fun a b => decide (a.victims.length < b.victims.length)) (all.filter fun p => !p.victims.isEmpty)

/-! ### The producer reserve (R83) -/

/-- Count a unit's seats as taken, on cores split as they ask: a plan that holds them, in place of what was planned for it
(R77, R83). -/
def reserveSeats (dev : Device) (u : PUnit) (ss : List Seat) : Device :=
  ss.foldl (fun d s => modCore d s.core fun x => { x with split := s.split })
    { dev with plans := (dev.plans.filter fun p => p.unit != u) ++ [{ unit := u, seats := ss }] }

/-- The unplaced producers of a launch, in ascending order, evicted ones among them (R83). -/
def unplacedProducers (dev : Device) (lid : Nat) : List PUnit :=
  let l := launch dev lid
  let step := if l.hdr.nbhd then max l.hdr.e1 1 else 1
  let news := ((List.range l.hdr.reserve).filter fun n => l.unplaced n && n % step == 0).map (PUnit.new lid)
  let out := (awaiting dev).filter fun u => match u with
    | .wg g => (wg dev g).launch == lid && !(wg dev g).isBin && decide ((wg dev g).num < l.hdr.reserve)
    | .wave w => (wave dev w).launch == lid && isProducer dev (wave dev w)
    | _ => false
  out ++ news

/-- A unit is a producer of launch `lid`. -/
def producerUnit (dev : Device) (lid : Nat) : PUnit → Bool
  | .new l n => l == lid && decide (n < (launch dev lid).hdr.reserve)
  | .wg g => (wg dev g).launch == lid && !(wg dev g).isBin && decide ((wg dev g).num < (launch dev lid).hdr.reserve)
  | .wave w => (wave dev w).launch == lid && isProducer dev (wave dev w)
  | .bin _ => false

/-- Every producer still finds a core, each one's space taken before the next is tried. -/
def producersFit (dev : Device) (blocked : Nat → Bool) : List PUnit → Bool
  | [] => true
  | p :: ps =>
    match fit dev blocked p with
    | some ss => producersFit (reserveSeats dev p ss) blocked ps
    | none => false

/-- The placement of a unit leaves every unplaced producer of every launch its room, where R83 asks it. DESIGN CHOICE (log
entry 39): a bin wave of the launch itself counts as one of its consumers. -/
def reserveOk (dev : Device) (blocked : Nat → Bool) (u : PUnit) (ss : List Seat) : Bool :=
  dev.launches.all fun p =>
    if !p.2.hdr.consumer || p.2.state != .released || producerUnit dev p.1 u ||
        (unitLaunch dev u != p.1 && rankLt (unitRank dev u) (p.2.cls, p.2.deadline)) then true
    else producersFit (reserveSeats dev u ss) blocked (unplacedProducers dev p.1)

end Sys2Proof.Machine
end

