-- ==== Sys2Proof/Machine/Wheel.lean ====
section
/-!
DEFINITION. The Wheel's steps: placement with wave start (R14, R26, R79, R80, R187, R199), eviction and resumption (R89
to R91, R366, R369, R370), HOLD, yield and safe-point deadlines (R90, R371, R372, R386).
-/

namespace Sys2Proof.Machine

/-! ### Wave start (R14, R26) -/

/-- The records that a launch's handles name, and the first handle that fails (R14). DESIGN CHOICE (log entry 32): these
fetches are no events. -/
def startRecords (c : Ctx) (hs : List Word) : NMap (BitVec 256) × Option Word :=
  (List.range hs.length).foldl (fun r i =>
    let h := hs.getD i 0
    match handleRec c h with
    | some v => (NMap.set 0 r.1 i v, r.2)
    | none => (r.1, r.2.or (some h))) ([], none)

/-- Every thread of a wave that starts raises a fault at its first clause, as one handler fault of the wave. -/
def startFault (x : Wave) (code : Nat) (addr : DWord) : Wave :=
  { x with threads := x.threads.map fun q => (q.1, { q.2 with run := .fault code, tpc := q.2.pc, taddr := addr })
           first := some { code := code, lane := 0, mask := laneMask (NMap.keys x.threads), user := 0 } }

/-- A wave that starts at `entry`. DEDUCED (log entry 51): where that lies at 2^57 or above, the fetch of its first clause is a
PROTECTION fault, which its threads have at once (R11, R189). -/
def startAt (x : Wave) (entry : DWord) : Wave := if entry.toNat < 2 ^ 57 then x else startFault x cPROT entry

/-- A handle of the launch fails: RECORD-GENERATION before the first clause, with the trap registers that R14 gives. -/
def failHandle (x : Wave) (b : Word) : Wave :=
  let m := laneMask (NMap.keys x.threads)
  { startFault x cGENERATION (b.setWidth 64) with tformer := m, tfault := m, tcause := BitVec.ofNat 32 cGENERATION }

/-- The timestamp with which thread `k` of wave `w` of a launch starts: after the release, and, where the wave has the token,
after its pass (R199, R251). -/
def startPts (l : Launch) (holds : Bool) (w k : Nat) : DWord :=
  let p := l.relTs + 1
  if holds then laterTs p (tsAfter l.tokenTs.toNat l.tokenAg (Who.lane w k).num) else p

/-- Wave `w`, number `i` of workgroup number `n`, as it starts: its threads by field 0, its registers, its records (R12 to R14,
R315). -/
def startWave (dev : Device) (lid n g i w co slot : Nat) : Wave :=
  let l := launch dev lid
  let h := l.hdr
  let cnt := min Config.W (h.extents.getD 0 1 - Config.W * i)
  let (ds, bad) := startRecords (ctx dev l.ctx) h.handles
  let base := 2 ^ (h.widths.getD 0 0) * h.wgIndex n + Config.W * i
  let th (k : Nat) : Thread :=
    { workid := BitVec.ofNat 64 (base + k), launch := lid, pc := mkPc h.entry 0
      pts := startPts l (l.token == some (16 * n + i)) w k }
  let x : Wave :=
    { wg := g, idx := i, ctx := l.ctx, launch := lid, live := true, resident := true, core := co, slot := slot
      regs := h.regs, fid := h.fid, s := putWords [] 0 (words64 h.args), d := ds
      threads := (List.range cnt).map fun k => (k, th k) }
  match bad with
  | some b => failHandle x b
  | none => startAt x h.entry

/-- The wave of a launched bin as it starts: lanes dense from 0, the payload in v0 to v2 (R26, R84). -/
def startBin (dev : Device) (b : Bin) (g co slot : Nat) : Wave :=
  let l := launch dev b.launch
  let th (t : BinThread) : Thread :=
    { workid := t.workid, depth := t.depth, launch := t.launch, paint := t.paint, v := putWords [] 0 t.pay
      pc := mkPc b.entry 0, pts := laterTs t.pts (l.relTs.toNat + 1) }
  startAt { wg := g, ctx := b.ctx, launch := b.launch, live := true, resident := true, core := co, slot := slot, regs := b.regs
            fid := l.hdr.fid, isBin := true
            threads := (List.range b.threads.length).filterMap fun k => (b.threads[k]?).map fun t => (k, th t) } b.entry

/-! ### Placement (R77, R79, R187) -/

/-- A dispatch on the seat's core: its split, and the bumps of its L1 generation (R77, R187). -/
def dispatch (dev : Device) (s : Seat) : Device :=
  let d1 := if (core dev s.core).split = s.split then dev
    else bumpL1 (modCore dev s.core fun x => { x with split := s.split }) s.core
  bumpL1 d1 s.core

/-- Place workgroup number `n` of a launch on a seat. -/
def placeWg (dev : Device) (lid n : Nat) (s : Seat) : Device :=
  let l := launch dev lid
  let g := dev.nextId
  let k := s.slots.length
  let x : Wg := { launch := lid, ctx := l.ctx, idx := l.hdr.wgIndex n, num := n, f1 := n % max l.hdr.e1 1
                  nbhd := if l.hdr.nbhd then n / max l.hdr.e1 1 + 1 else 0, live := true, resident := true
                  core := s.core, base := s.base, scratch := l.hdr.scratch
                  waves := (List.range k).map fun i => g + 1 + i }
  let d1 := setWg { dispatch dev s with nextId := g + 1 + k } g x
  let d2 := (List.range k).foldl (fun d i =>
    setWave d (g + 1 + i) (startWave dev lid n g i (g + 1 + i) s.core (s.slots.getD i 0))) d1
  modLaunch d2 lid fun l => { l.notePlaced n with liveWgs := l.liveWgs + 1 }

/-- Place a bin's wave, a workgroup of one wave (R26, R86). -/
def placeBin (dev : Device) (b : Bin) (s : Seat) : Device :=
  let g := dev.nextId
  let x : Wg := { launch := b.launch, ctx := b.ctx, live := true, resident := true, core := s.core, base := s.base
                  scratch := b.scratch, idx := b.order, waves := [g + 1], isBin := true }
  let d1 := setWg { dispatch dev s with nextId := g + 2
                                        binUnits := dev.binUnits.filter fun u => u.order != b.order } g x
  setWave d1 (g + 1) (startBin dev b g s.core (s.slots.getD 0 0))

/-- A sleeper of WAITV that resumes on a core has no clock of it, and loads its word anew (R161). -/
def resumeSleep : Wait → Wait
  | .waitv d r i cmp t => .waitv d r i cmp { t.whole with clk := none }
  | wt => wt

/-- An evicted wave takes a slot again; on another core its pins on the former one end (R218). -/
def resumeWave (dev : Device) (w co slot : Nat) : Device :=
  let d1 := if (wave dev w).core = co then dev else unpinWave dev w
  modWave d1 w fun x =>
    { x with resident := true, core := co, slot := slot, leaving := none, yieldReq := none, safeReq := none
             threads := x.threads.map fun p =>
               (p.1, { p.2 with wait := resumeSleep p.2.wait, mark := resumeSleep p.2.mark }) }

/-- A wholly evicted workgroup resumes on a seat, with the jobs that were saved with it, as `was` has them, and its chunks
(R91, R302, R327): what the new core's engines do for it follows what the former core's did (R203, R204). -/
def resumeWg (was dev : Device) (g : Nat) (s : Seat) : Device :=
  let ws := liveWaves dev g
  let d1 := (List.range ws.length).foldl (fun d i => resumeWave d (ws.getD i 0) s.core (s.slots.getD i 0)) (dispatch dev s)
  let d2 := modWg d1 g fun x => { x with resident := true, core := s.core, base := s.base, frame := 0 }
  let d3 := enginesFollow d2 (wg was g).core s.core
  { d3 with jobs := d3.jobs.map fun p => if jobLive p.2 && jobHome was p.2 == some g then (p.1, { p.2 with core := s.core }) else p
            chunks := d3.chunks.map fun p => if p.2.wg == g then (p.1, { p.2 with core := s.core }) else p }

/-- A frame's pages, at a place of the device's choice: it is written with device-internal bytes, or read; none where a
page of it does not take that (R366, R369, R370). -/
def touchFrame (dev : Device) (c n : Nat) (write : Bool) : Option Device :=
  let x := ctx dev c
  let (k, d1) := freeNat dev
  let a := x.save + 65536 + k % (x.saveSize - 65536 - n + 1)
  if write then
    let (bs, d2) := freeBytes d1
    match saggarStore d2 c a (padTo n bs) with
    | .ok d3 => some d3
    | .error _ => none
  else match directSpans d1 c .load (sectorSpans a n) with
    | .ok _ => some d1
    | .error _ => none

/-- Restore a unit from its frame and resume it, or lose its context (R370). -/
def resumeUnit (dev : Device) (u : PUnit) (ss : List Seat) : Device :=
  match u with
  | .wave w =>
    let x := wave dev w
    match touchFrame dev x.ctx (waveFrame x) false with
    | none => saveAreaLoss dev x.ctx
    | some d => (ss.take 1).foldl (fun d s => resumeWave (dispatch d s) w s.core (s.slots.getD 0 0)) d
  | .wg g =>
    let gs := siblings dev g
    let n := gs.foldl (fun n h => n + (wg dev h).frame + ((liveWaves dev h).map fun w => waveFrame (wave dev w)).sum) 0
    match touchFrame dev (wg dev g).ctx n false with
    | none => saveAreaLoss dev (wg dev g).ctx
    | some d => (List.range ss.length).foldl (fun d j =>
        match ss[j]?, memberAt dev g j with
        | some s, some h => resumeWg dev d h s
        | _, _ => d) d
  | _ => dev

/-- Withdraw the plans and requests made for a unit, but for requests in `keep` and those that another unit has made too
(R371, R386). -/
def withdraw (dev : Device) (u : PUnit) (keep : List Nat) : Device :=
  let asks (safe mine : Bool) (w : Nat) : Bool :=
    dev.plans.any fun p => (p.unit == u) == mine && p.safe == safe && p.victims.contains w
  let gone (safe : Bool) (w : Nat) : Bool := asks safe true w && !asks safe false w && !keep.contains w
  { dev with
    plans := dev.plans.filter fun p => p.unit != u
    waves := dev.waves.map fun p =>
      (p.1, { p.2 with yieldReq := if gone false p.1 then none else p.2.yieldReq
                       safeReq := if gone true p.1 then none else p.2.safeReq }) }

/-- Place a unit on its seats (R79). -/
def placeUnit (dev : Device) (u : PUnit) (ss : List Seat) : Device :=
  let d := withdraw dev u []
  match u with
  | .new l n => (List.range ss.length).foldl (fun d j =>
      match ss[j]? with
      | some s => placeWg d l (n + j) s
      | none => d) d
  | .bin o =>
    match d.binUnits.find? fun b => b.order == o with
    | some b => (ss.take 1).foldl (fun d s => placeBin d b s) d
    | none => d
  | u => resumeUnit d u ss

/-! ### Carrying out plans (R89, R371, R386) -/

/-- A wave is chosen: a context without YIELD loses it at once, another is asked to yield; one whose safe-point request stands
after a demotion goes at once (R371, R386). -/
def askVictim (dev : Device) (w : Nat) : Device :=
  let y := (ctx dev (wave dev w).ctx).yield_
  modWave dev w fun x =>
    if y = 0 ∨ x.safeReq = some none then { x with leaving := x.leaving.or (some false) }
    else { x with yieldReq := x.yieldReq.or (some (dev.ticks + y)) }

/-- A plan is made in place of one that no longer stands, with which the room held for that one is free again: requests it
keeps stand (R79, R371). -/
def postPlan (dev : Device) (p : Plan) : Device :=
  let d := withdraw dev p.unit p.victims
  p.victims.foldl askVictim { d with plans := d.plans ++ [p] }

/-- The room that the safe-point requests for a unit have freed so far. -/
def freedFor (dev : Device) (u : PUnit) : List Seat :=
  (dev.plans.filter fun p => p.unit == u && p.safe).flatMap Plan.freed

/-- A context is demoted one class: its launches released and resident, and their bin waves (R386). -/
def demote (dev : Device) (c : Nat) : Device :=
  { dev with launches := dev.launches.map fun p =>
      if p.2.ctx == c && p.2.state == .released then
        (p.1, { p.2 with cls := min (p.2.cls + 1) 3, deadline := if p.2.cls = 3 then none else p.2.deadline })
      else p }

/-- The waves of a plan over waves at any point to which safe-point requests go: the deterministic ones that are not at a safe
point, or that have been asked (R386). -/
def requested (dev : Device) (p : Plan) : List Nat :=
  p.victims.filter fun w =>
    (launch dev (wave dev w).launch).hdr.det && (!atSafePoint dev w || (wave dev w).safeReq.isSome)

/-- Safe-point requests to the waves of a plan; without YIELD the context is demoted at once (R386). -/
def postRequests (dev0 : Device) (p : Plan) : Device :=
  let vs := requested dev0 p
  let dev := withdraw dev0 p.unit vs
  let d1 := { dev with plans := dev.plans ++ [{ unit := p.unit, victims := vs, freed := freedFor dev0 p.unit, safe := true }] }
  vs.foldl (fun d w =>
    let c := (wave d w).ctx
    let y := (ctx d c).yield_
    if (wave d w).safeReq.isSome then d
    else if y = 0 then
      modWave (if vs.any (fun v => (wave d v).ctx == c && (wave d v).safeReq.isSome) then d else demote d c) w
        fun x => { x with safeReq := some none }
    else modWave d w fun x => { x with safeReq := some (some (d.ticks + y)) }) d1

/-- What the Wheel does next. -/
inductive Turn
  | place (u : PUnit) (ss : List Seat)
  | plan (p : Plan)
  | request (p : Plan)
  | drop (u : PUnit)
  | rest
deriving DecidableEq, Repr

/-- A unit's plan stands: something of it is still to go, and none of its victims has ended (R371). -/
def planStands (dev : Device) (p : Plan) : Bool :=
  p.victims.all (fun w => (wave dev w).live && (wave dev w).resident) &&
  (!p.victims.isEmpty || p.whole.any fun g => (wg dev g).live && (wg dev g).resident)

/-- Safe-point requests for a unit to just these waves stand already. -/
def requestsStand (dev : Device) (u : PUnit) (vs : List Nat) : Bool :=
  vs.all (fun w => (wave dev w).safeReq.isSome) &&
  dev.plans.any fun p => p.unit == u && p.safe && vs.all p.victims.contains && p.victims.all vs.contains

/-- A plan for a unit that stands has begun to be carried out on the cores of these seats: the unit waits for every victim to
be out, those of a neighbourhood elsewhere among them (R89, R371). -/
def planBegun (dev : Device) (u : PUnit) (ss : List Seat) : Bool :=
  dev.plans.any fun p => p.unit == u && !p.safe && planStands dev p && !p.freed.isEmpty &&
    ss.all fun s => p.seats.any fun t => t.core == s.core

/-- What is planned for a unit is withdrawn, if anything is. -/
def dropOr (dev : Device) (u : PUnit) : Turn := if dev.plans.any fun p => p.unit == u then .drop u else .rest

/-- What the Wheel does for one unit: place it, plan for it, ask waves for a safe point, withdraw what it had planned, or
nothing (R79, R83, R89, R371, R386). -/
def turnFor (dev : Device) (blocked : Nat → Bool) (u : PUnit) : Turn :=
  match fit dev blocked u with
  | some ss => if !reserveOk dev blocked u ss then dropOr dev u else if planBegun dev u ss then .rest else .place u ss
  | none =>
    if dev.plans.any fun p => p.unit == u && !p.safe && planStands dev p then .rest
    else match planFor dev blocked u false with
      | some p => .plan p
      | none =>
        match planFor dev blocked u true with
        | some p => if requestsStand dev u (requested dev p) then .rest else .request p
        | none => dropOr dev u

/-- The first thing to do in ranking order (R79). -/
def nextTurn (dev : Device) (blocked : Nat → Bool) (us : List PUnit) : Turn :=
  match us with
  | [] => .rest
  | u :: r =>
    match turnFor dev blocked u with
    | .rest => nextTurn dev blocked r
    | t => t

/-- Plans whose unit no longer awaits placement are withdrawn. -/
def prunePlans (dev : Device) : Device :=
  let us := awaiting dev
  dev.plans.foldl (fun d p => if us.contains p.unit then d else withdraw d p.unit []) dev

/-- The cores to which workgroup `j` of a unit may go, whatever stands there now (R76, R80, R82). -/
def mayGo (dev : Device) (u : PUnit) (j co : Nat) : Bool :=
  let open_ (c : Nat) : Bool := placeable dev (fun _ => false) (unitCtx dev u) c
  if unitNbhd dev u then
    let (nr, nc) := unitShape dev u
    (rectangles nr nc).any fun cs => cs[j]? == some co && cs.all open_
  else (unitCores dev u).contains co && open_ co

/-- Some waiting unit needs a core's larger split: it may go there, fits there, and does not at the default (R77). -/
def splitNeeded (dev : Device) (us : List PUnit) (co : Nat) : Bool :=
  us.any fun u =>
    let ns := unitNeeds dev u
    (List.range ns.length).any fun j =>
      let n := (ns.getD j ([], 0)).2
      decide (8 * 2 ^ 20 < n ∧ n ≤ (core dev co).split * 2 ^ 20) && mayGo dev u j co

/-- Empty cores that no waiting unit needs return to the default split (R77). -/
def restoreSplits (dev : Device) (us : List PUnit) : Device :=
  dev.cores.foldl (fun d p =>
    if p.2.split != 8 && coreEmpty d (.new 0 0) p.1 && !splitNeeded d us p.1 then
      bumpL1 (modCore d p.1 fun x => { x with split := 8 }) p.1
    else d) dev

/-! ### Clusters in a bisque run or in retention (R76, R425, R428 to R430) -/

def cluster (p : Power) (n : Nat) : ClusterPower := NMap.get {} p.clusters n
def setCluster (p : Power) (n : Nat) (x : ClusterPower) : Power := { p with clusters := NMap.put p.clusters n x }

/-- Clusters where nothing can be placed: in a bisque run (R76). -/
def blockedIn (p : Power) (n : Nat) : Bool := (cluster p n).bisque

/-- The clusters of a unit's seats. -/
def seatClusters (ss : List Seat) : List Nat := ss.map fun s => clusterOf s.core

/-- The clusters with a core for which deterministic workgroups wait (R82). -/
def detWaits (dev : Device) (us : List PUnit) : List Nat :=
  us.flatMap fun u =>
    let own := match u with
      | .new _ _ => true
      | .wg g => !(wg dev g).isBin
      | _ => false
    if (launch dev (unitLaunch dev u)).hdr.det && !unitNbhd dev u && own then (unitCores dev u).map clusterOf else []

/-- A unit that would be placed on a cluster, were it not in a bisque run, ends the run at its next pattern boundary (R428); so
does a deterministic workgroup that waits for a core of the cluster (R82). -/
def cutRuns (dev : Device) (p : Power) (us : List PUnit) : Power :=
  let ns := us.flatMap fun u => seatClusters ((fit dev (fun _ => false) u).getD [])
  (ns ++ detWaits dev us).foldl (fun p n =>
    if (cluster p n).bisque then setCluster p n { cluster p n with cut := true } else p) p

/-- The workgroups lost with a cluster's retention: those resident, with their neighbourhoods (R430). -/
def retentionScope (dev : Device) (n : Nat) : List Nat :=
  dev.wgs.foldr (fun p r =>
    if p.2.live && p.2.resident && clusterOf p.2.core == n then
      (killScope dev p.1).foldr (fun g r => if r.contains g then r else g :: r) r
    else r) []

/-- A parity check failed: the workgroups are killed with RETENTION-LOSS, the cores are as new but for their split
(R430). -/
def loseCluster (dev : Device) (n : Nat) : Device :=
  let d1 := (retentionScope dev n).foldl (fun d g =>
    if (wg d g).live then
      let (ok, d1) := killWg d g fun _ => { kind := 5, code := cRETLOSS }
      if ok then d1 else saveAreaLoss d1 (wg d g).ctx
    else d) dev
  (clusterCores n).foldl (fun d co => modCore d co fun x => { split := x.split, bumpAt := d.codeSeq }) d1

/-- A cluster leaves retention and checks parity; whether a check fails is the device's (R430). -/
def leaveRetention (s : State) (n : Nat) : State :=
  if !(cluster s.power n).ret then s
  else
    let (bad, d) := freeBit s.dev
    { s with dev := if bad then loseCluster d n else d
             power := setCluster s.power n { cluster s.power n with ret := false } }

/-- Waves resident on a cluster. -/
def clusterWaves (dev : Device) (n : Nat) : List Wave :=
  dev.waves.foldr (fun p r => if p.2.live && p.2.resident && clusterOf p.2.core == n then p.2 :: r else r) []

/-- A cluster that has no resident wave runs at N = 6 and 1:1 (R425). -/
def idleSettings (dev : Device) (p : Power) : Power :=
  { p with clusters := p.clusters.map fun c =>
      if (clusterWaves dev c.1).isEmpty then (c.1, { c.2 with grants := 6, ratio := 1 }) else c }

/-- What the Wheel does on these clusters waits until they have left retention (R429). -/
def awake (s : State) (ns : List Nat) (f : State → State) : State :=
  match ns.filter fun n => (cluster s.power n).ret with
  | [] => f s
  | rs => rs.foldl leaveRetention s

/-- One turn of the Wheel; of placements, those that `mine` takes. -/
def wheelTurn (s0 : State) (mine : Device → PUnit → Bool) : State :=
  let d := prunePlans s0.dev
  let us := awaiting d
  let s := { s0 with dev := d, power := idleSettings d (cutRuns d s0.power us) }
  match nextTurn d (blockedIn s.power) us with
  | .place u ss =>
    if mine d u then awake s (seatClusters ss) fun s => { s with dev := placeUnit s.dev u ss } else s
  | .plan p => awake s (seatClusters p.seats) fun s => { s with dev := postPlan s.dev p }
  | .request p => awake s (seatClusters p.seats) fun s => { s with dev := postRequests s.dev p }
  | .drop u => { s with dev := withdraw d u [] }
  | .rest => { s with dev := restoreSplits d us }

/-- The Wheel plans, where the first thing to do is a plan. -/
def wheelPlans (s : State) : State := wheelTurn s fun _ _ => false

def isNewUnit (dev : Device) (u : PUnit) : Bool :=
  match u with
  | .new l _ => !(launch dev l).hdr.nbhd
  | .bin _ => true
  | _ => false

def execUnitPlacement (s : State) : Host.Outcome State Fault Refusal := .next (wheelTurn s isNewUnit)

def execNeighbourhoodPlacement (s : State) : Host.Outcome State Fault Refusal :=
  .next (wheelTurn s fun dev u => match u with
    | .new l _ => (launch dev l).hdr.nbhd
    | _ => false)

def execUnitResumption (s : State) : Host.Outcome State Fault Refusal :=
  .next (wheelTurn s fun _ u => match u with
    | .wave _ | .wg _ => true
    | _ => false)

/-- A HOLD budget has reached zero: planning is retried (R89, R90). -/
def execHoldExpiry (w : Nat) (s : State) : Host.Outcome State Fault Refusal :=
  .next (if (wave s.dev w).live && (wave s.dev w).hold == 0 then wheelPlans s else s)

/-! ### Eviction (R366 to R370) -/

/-- The wave is out: its groups dissolve, its slot and registers are free, what it waits in stays with its threads
(R91, R358, R366). -/
def leaveSlot (x : Wave) : Wave :=
  let y := (NMap.keys x.groups).foldl dissolveGroup x
  let z := pmcAdd y (if x.leaving = some true then 8 else 7) 1
  { z with resident := false, leaving := none, yieldReq := none, safeReq := none }

/-- The unit for which a victim's room is held: that of the plan that takes it, or, where it goes by safe-point requests alone,
of the first that asked (R79, R386). -/
def takenFor (dev : Device) (has : Plan → Bool) : Option PUnit :=
  ((dev.plans.find? fun p => !p.safe && has p).or (dev.plans.find? has)).map Plan.unit

/-- A victim has left its seat: no plan waits for it any more, and the one that took it holds the room (R79). -/
def noteFreed (dev : Device) (w : Nat) (s : Seat) : Device :=
  let u := takenFor dev fun p => p.victims.contains w
  { dev with plans := dev.plans.map fun p =>
      if p.victims.contains w then
        { p with victims := p.victims.filter (· != w), freed := if u == some p.unit then s :: p.freed else p.freed }
      else p }

/-- A workgroup evicted whole has left its range: the plan that took it holds the room. -/
def noteWhole (dev : Device) (g : Nat) (s : Seat) : Device :=
  let u := takenFor dev fun p => p.whole.contains g
  { dev with plans := dev.plans.map fun p =>
      if p.whole.contains g then
        { p with whole := p.whole.filter (· != g), freed := if u == some p.unit then s :: p.freed else p.freed }
      else p }

/-- The seat a resident wave has. -/
def waveSeat (x : Wave) : Seat := { core := x.core, slots := [x.slot], regs := [x.regs], base := 0, size := 0, split := 0 }

/-- The range a workgroup has. -/
def rangeSeat (x : Wg) : Seat := { core := x.core, slots := [], regs := [], base := x.base, size := round64 x.scratch, split := 0 }

/-- A workgroup that a plan evicts whole, or whose neighbourhood goes, is out after its last wave, with its Kiln between steps:
its scratchpad, tiles and Kiln are saved (R89, R91, R282, R327, R385). -/
def leaveWhole (dev : Device) (g : Nat) : Device :=
  let x := wg dev g
  if !x.resident || !(partOut dev g || dev.plans.any fun p => p.whole.contains g) || (x.kiln.map Kiln.midStep).getD false ||
      (liveWaves dev g).any (fun w => (wave dev w).resident) then dev
  else
    let n := wgFrame dev g
    match touchFrame dev x.ctx n true with
    | none => saveAreaLoss dev x.ctx
    | some d => noteWhole (modWg d g fun x => { x with resident := false, frame := n }) g (rangeSeat x)

/-- A wave is chosen for eviction: it stops issuing; so is one whose neighbourhood goes; so is a deterministic one that a plan
takes without a yield request, or whose safe-point request stands after a demotion: it goes at its next safe point (R89, R366,
R386). -/
def chosen (dev : Device) (w : Nat) : Bool :=
  let x := wave dev w
  x.leaving.isSome || partOut dev x.wg ||
  ((launch dev x.launch).hdr.det && dev.plans.any fun p =>
    p.victims.contains w && (if p.safe then x.safeReq == some none else x.yieldReq.isNone))

/-- The wave has performed all it has issued: no atomic of it is in flight, no instruction half done (R225, R366). -/
def quiet (dev : Device) (w : Nat) : Bool :=
  !(dev.svc.any fun p => p.2.wave == w && p.2.live) && (wave dev w).threads.all fun q => !q.2.wait.midway

/-- A chosen wave is saved and freed, once it is quiet; a deterministic one only at a safe point, up to which it runs on
(R225, R366, R386). Where a workgroup evicted whole still waits for its Kiln, it goes with a later attempt. -/
def evictWave (dev : Device) (w : Nat) : Device :=
  let x := wave dev w
  if !x.live then dev
  else if !x.resident then leaveWhole dev x.wg
  else if !chosen dev w then dev
  else if (launch dev x.launch).hdr.det && !atSafePoint dev w then modWave dev w fun x => { x with leaving := none }
  else if !quiet dev w then modWave dev w fun x => { x with leaving := x.leaving.or (some false) }
  else match touchFrame dev x.ctx (waveFrame x) true with
    | none => saveAreaLoss dev x.ctx
    | some d => leaveWhole (noteFreed (modWave d w leaveSlot) w (waveSeat x)) x.wg

def execWaveEviction (w : Nat) (s : State) : Host.Outcome State Fault Refusal := onDev s fun dev => evictWave dev w

/-- Past their deadline the planned victims still resident are evicted; no deterministic wave is forced (R371, R372). -/
def execYieldDeadlineExpiry (s : State) : Host.Outcome State Fault Refusal :=
  onDev s fun dev => { dev with waves := dev.waves.map fun p =>
    match p.2.yieldReq with
    | some dl =>
      if p.2.live && p.2.resident && decide (dl < dev.ticks) &&
          (!(launch dev p.2.launch).hdr.det || atSafePoint dev p.1) then
        (p.1, { p.2 with leaving := p.2.leaving.or (some false) })
      else p
    | none => p }

/-- A safe-point deadline has passed with the wave not at a safe point: its context is demoted, once for its requests
(R386). -/
def passSafe (dev : Device) (w : Nat) : Device :=
  let x := wave dev w
  match x.safeReq with
  | some (some dl) =>
    if x.live && x.resident && decide (dl < dev.ticks) && !atSafePoint dev w then
      let d := demote dev x.ctx
      { d with waves := d.waves.map fun p =>
          if p.2.ctx == x.ctx && p.2.safeReq.isSome then (p.1, { p.2 with safeReq := some none }) else p }
    else dev
  | _ => dev

def execSafePointDeadline (s : State) : Host.Outcome State Fault Refusal :=
  onDev s fun dev => (NMap.keys dev.waves).foldl passSafe dev

end Sys2Proof.Machine
end

