-- ==== Sys2Proof/Machine/Power.lean ====
section
/-!
DEFINITION. Clocks, rails and power: measurement and levers (R114, R115, R425, R426), droop (R424), bisque runs (R427,
R428), retention (R429, R430).
-/

namespace Sys2Proof.Machine

/-- Change the power state of a cluster there is. -/
def onCluster (s : State) (n : Nat) (f : ClusterPower → ClusterPower) : Host.Outcome State Fault Refusal :=
  if n < Config.clusters then .next { s with power := setCluster s.power n (f (cluster s.power n)) } else .next s

/-! ### Measurement (R425) -/

/-- The rank of a cluster's most urgent resident wave; none where none is resident. -/
def clusterRank (dev : Device) (n : Nat) : Option (Nat × Option Nat) :=
  minBy rankLt ((clusterWaves dev n).map (waveRank dev))

/-- The clusters that hold waves, least urgent first. -/
def leverOrder (dev : Device) : List Nat :=
  let rs := (List.range Config.clusters).filterMap fun n => (clusterRank dev n).map fun r => (n, r)
  (rs.foldr (fun x r => ins x r) []).map Prod.fst
where
  /-- Insert a cluster before those that are more urgent. -/
  ins (x : Nat × (Nat × Option Nat)) : List (Nat × (Nat × Option Nat)) → List (Nat × (Nat × Option Nat))
    | [] => [x]
    | y :: r => if rankLt x.2 y.2 then y :: ins x r else x :: y :: r

/-- One step of one lever: N down to 2 on the first cluster of the order that allows it, else the ratio down to 1:2. -/
def applyLever (p : Power) (order : List Nat) : Power :=
  match order.find? fun n => decide (2 < (cluster p n).grants) with
  | some n => setCluster p n { cluster p n with grants := (cluster p n).grants - 1 }
  | none =>
    match order.find? fun n => decide (0 < (cluster p n).ratio) with
    | some n => setCluster p n { cluster p n with ratio := (cluster p n).ratio - 1 }
    | none => p

/-- One step of release, in the reverse order. -/
def releaseLever (p : Power) (order : List Nat) : Power :=
  match order.reverse.find? fun n => (cluster p n).ratio == 0 with
  | some n => setCluster p n { cluster p n with ratio := 1 }
  | none =>
    match order.reverse.find? fun n => decide ((cluster p n).grants < 6) with
    | some n => setCluster p n { cluster p n with grants := (cluster p n).grants + 1 }
    | none => p

/-- PNOW is measured, and one step of a lever applied or released against PLIMIT (R425). -/
def execPowerMeasurement (watts : Nat) (s : State) : Host.Outcome State Fault Refusal :=
  let order := leverOrder s.dev
  let p := idleSettings s.dev { s.power with pnow := watts % 65536 }
  .next { s with power := if p.plimit < p.pnow then applyLever p order else releaseLever p order }

/-! ### Registers (R426, R434) -/

/-- A node may write the management range: the one whose write set FBBASE, or any before that write (R434). -/
def manages (m : Mgmt) (node : Nat) : Bool := m.boot != 0 && (m.mnode.isNone || m.mnode == some node)

/-- A write of PLIMIT outside 600 to 2,200 is ignored (R426). -/
def writePlimit (node : Nat) (val : BitVec 16) (s : State) : State :=
  if manages s.mgmt node ∧ 600 ≤ val.toNat ∧ val.toNat ≤ 2200 then
    { s with power := { s.power with plimit := val.toNat } }
  else s

def execPlimitWrite (node : Nat) (val : BitVec 16) (s : State) : Host.Outcome State Fault Refusal :=
  .next (writePlimit node val s)

/-! ### Droop (R424): the clocks slow together, which no instruction sees but by TICKS -/

def execVoltageDroop (n : Nat) (s : State) : Host.Outcome State Fault Refusal := onCluster s n fun x => { x with droop := true }
def execVoltageDroopEnd (n : Nat) (s : State) : Host.Outcome State Fault Refusal := onCluster s n fun x => { x with droop := false }

/-! ### Bisque runs (R427, R428) -/

/-- Engine work stands on a cluster: a Slip job that is not saved with its workgroup, a Kiln command, a chunk. -/
def engineWork (dev : Device) (n : Nat) : Bool :=
  dev.jobs.any (fun p => jobLive p.2 && jobRuns dev p.2 && clusterOf p.2.core == n) ||
  dev.chunks.any (fun p => p.2.live && clusterOf p.2.core == n) ||
  dev.wgs.any fun p => p.2.live && p.2.resident && clusterOf p.2.core == n &&
    match p.2.kiln with
    | some k => !k.cmds.isEmpty
    | none => false

/-- A cluster may start a bisque run (R427). -/
def mayBisque (s : State) (n : Nat) : Bool :=
  (clusterWaves s.dev n).isEmpty && (clusterCores n).all (fun c => (core s.dev c).pins.isEmpty) &&
  !engineWork s.dev n && !s.power.nobisque.getLsbD n && !sealedCluster s.dev n && !(detWaits s.dev (awaiting s.dev)).contains n

def execBisqueRunStart (n : Nat) (s : State) : Host.Outcome State Fault Refusal :=
  onCluster s n fun x => if mayBisque s n then { x with bisque := true } else x

/-- A run ends: one that was not cut short and did not fail sets the rails, and CAL (R427, R428). -/
def execBisqueRunEnd (n : Nat) (ok : Bool) (s : State) : Host.Outcome State Fault Refusal :=
  onCluster s n fun x =>
    if x.bisque then { x with bisque := false, cut := false, cal := x.cal || (ok && !x.cut) } else x

/-! ### Retention (R429, R430) -/

/-- Glaze has work on a cluster: a sequence of a tile there may retire. -/
def glazeWork (dev : Device) (n : Nat) : Bool :=
  dev.wgs.any fun p => p.2.live && p.2.resident && clusterOf p.2.core == n &&
    p.2.dests.any fun q => match q.2.seqs with
      | (_, es) :: _ => es.all fun e => e.2.fill.isSome
      | [] => false

/-- The instruction that a thread is within, as it issued, with its group, or one that would go on with it. -/
def instrWithin (x : Wave) (l : Nat) : Option (Group × Instr) :=
  let t := thread x l
  let y := match groupOf x l with
    | some g => some (group x g)
    | none => t.inst.map fun i => resumedGroup x t.pc i [l] false
  y.bind fun y => y.iw.bind fun iw =>
    match wordInstr x y.hdr y.index iw with
    | .ok i => some (y, i)
    | .error _ => none

/-- The hold of Glaze or the Kiln in which the lowest of a group's waiting members stands has ended (R239, R259, R328). -/
def holdOver (s : State) (w l : Nat) : Bool :=
  let x := wave s.dev w
  match instrWithin x l with
  | none => true
  | some (y, i) =>
    let dv := { s.dev with cur := (w, s.dev.cur.2), cut := none }
    (y.lanes.find? fun m => (thread x m).wait.acts) == some l &&
      !(glazeHolds (coreRetained s) dv (operandsOf x y) (thread x l) l i || kilnHolds dv (operandsOf x y) (thread x l) l i)

/-- A GBLEND of any wave waits for a tile on the cluster: work for its Glaze (R275, R429). -/
def blendWork (dev : Device) (n : Nat) : Bool :=
  dev.waves.any fun p => p.2.live && p.2.resident && p.2.threads.any fun q => q.2.wait == .engine &&
    match instrWithin p.2 q.1 with
    | some (y, .gblend _ _ _ a _) =>
      match entryOf dev p.2.ctx (rd64 (operandsOf p.2 y) q.2 a) with
      | some (g, _) => (wg dev g).resident && clusterOf (wg dev g).core == n
      | none => false
    | _ => false

/-- What thread `l` of a wave waits for has come: it becomes ready (R94, R429). -/
def waitDue (s : State) (w l : Nat) : Bool :=
  let dev := s.dev
  let x := wave dev w
  let t := thread x l
  match t.wait with
  | .sleep til => decide (til ≤ dev.ticks)
  | .waitv _ _ _ _ q => waitvDue dev x q
  | .bar sl _ _ =>
    match NMap.find? (wg dev x.wg).bslots sl.val with
    | none => true
    | some b => (barWaitOver dev t sl b).isSome
  | .ring put sl _ _ =>
    match NMap.find? (wg dev x.wg).rslots sl.val with
    | none => true
    | some b =>
      let r := readRing dev b.loc
      r.broken || r.closed || decide (0 < if put then r.free else r.filled)
  | .token _ => holdsToken dev w
  | .engine => holdOver s w l
  | wt => !wt.stops

/-- A wave is ready, or becomes so with its handler's entry or return, or with an answer to a page fault (R94, R429). -/
def waveWakes (s : State) (w : Nat) : Bool :=
  let x := wave s.dev w
  x.threads.any (fun q => (q.2.run == .run && waitDue s w q.1) || (q.2.run == .page && q.2.pgKind == 0)) ||
  (x.first.isSome && !inHandler x && allStopped s.dev w) || allAtRte x

/-- What ends a cluster's retention: a wave that becomes ready, or work for an engine (R429); a placement there ends it with
the Wheel's turn. -/
def wakes (s : State) (n : Nat) : Bool :=
  engineWork s.dev n || glazeWork s.dev n || blendWork s.dev n ||
  s.dev.waves.any fun p => p.2.live && p.2.resident && clusterOf p.2.core == n && waveWakes s p.1

/-- The cluster has been idle for 20,000 front-end clocks: no thread of its resident waves has been ready (R94), a thread
that a header wait holds back being ready, and none of its engines works; and nothing is there that would end its retention
(R429). -/
def mayRetain (s : State) (n : Nat) : Bool :=
  !wakes s n && (clusterCores n).all fun co => (List.range 4).all fun q =>
    let ws := (quarterWaves s.dev co q).map fun w => (w, ([] : List Cand))
    ws.isEmpty || (!anyReady s.dev ws && decide (20000 ≤ (NMap.get {} (core s.dev co).quarters q).idle))

def execRetentionEntry (n : Nat) (s : State) : Host.Outcome State Fault Refusal :=
  onCluster s n fun x => if mayRetain s n then { x with ret := true } else x

/-- The cluster leaves retention, for what wakes it to take effect (R429, R430). -/
def execRetentionExit (n : Nat) (s : State) : Host.Outcome State Fault Refusal :=
  .next (if wakes s n then leaveRetention s n else s)

end Sys2Proof.Machine
end

