-- ==== Sys2Proof/Machine/Boot.lean ====
section
/-!
DEFINITION. Bring-up and firmware: reset and boot (R432, R433), the management block (R434), live hand-over (R436,
R437), attestation (R435, R438).
-/

namespace Sys2Proof.Machine

/-! ### Reset and boot (R432, R433) -/

/-- Power-on or module reset: what flash and fuses hold, the certificate and the host's memory stay (R432, R433). -/
def execPowerOnReset (s : State) : Host.Outcome State Fault Refusal :=
  .next { State.reset with
    dev := { State.reset.dev with host := s.dev.host, free := s.dev.free }
    mgmt := { State.reset.mgmt with flash := s.mgmt.flash, fwfloor := s.mgmt.fwfloor, cert := s.mgmt.cert
                                    certlen := s.mgmt.certlen }
    agenda := s.agenda, turns := s.turns }

/-- The measurement of an image: the SHA-256 digest of the whole signed image (R433). -/
def measure (img : List Byte) : BitVec 256 := BitVec.ofNat 256 (leNat (sha256 img))

/-- An image becomes authoritative: its version and measurement (R433, R434). -/
def adopt (m : Mgmt) (img : List Byte) : Mgmt :=
  { m with auth := true, fwver := Config.imageVersion img % 2 ^ 32, fwmeas := measure img }

/-- What changes the state that a report bears falls after the TICK of the latest report: at each T the reports and the
state agree (R438). -/
def afterReport (s : State) : State :=
  if s.mgmt.repAt = some s.dev.ticks then { s with dev := timePasses s.dev 1 } else s

/-- The end of stage 0: the image of the flash is loaded, or the device brings up the fabric only (R432, R433). -/
def loadFirmware (s : State) : State :=
  let m := s.mgmt
  let bad (e : Nat) : State := { s with mgmt := { m with boot := 0xFF, booterr := e } }
  if !imageVerifies m.flash then bad 1
  else if Config.imageVersion m.flash % 2 ^ 32 < m.fwfloor then bad 4
  else { s with saggar := { s.saggar with on := true }, mgmt := { adopt m m.flash with boot := 1 } }

/-- The dies are initialised and zeroed, the rails nominal (R60, R427, R432). -/
def initDies (s : State) : State :=
  { s with dev := { s.dev with mem := [] }
           power := { s.power with clusters := s.power.clusters.map fun c => (c.1, { c.2 with cal := false }) } }

/-- A boot stage completes and BOOT advances: from 1 once NODEID and FBBASE are written (R432). -/
def execBootStage (s : State) : Host.Outcome State Fault Refusal :=
  match s.mgmt.boot with
  | 0 => .next (loadFirmware s)
  | 1 => .next (if s.mgmt.nodeSet && s.mgmt.mnode.isSome then { s with mgmt := { s.mgmt with boot := 2 } } else s)
  | 2 => .next { initDies s with mgmt := { s.mgmt with boot := 3 } }
  | _ => .next s

/-! ### The management block (R434) -/

/-- NODEID and FBBASE are writable at BOOT 1, and at BOOT 0xFF until FBBASE has been written (R432, R434). -/
def idsOpen (m : Mgmt) : Bool := m.boot == 1 || (m.boot == 0xFF && m.mnode.isNone)

/-- A write of FBBASE, a multiple of 2^39, makes its writer the management node (R434). -/
def writeFbbase (node : Nat) (val : DWord) (s : State) : State :=
  if manages s.mgmt node ∧ idsOpen s.mgmt ∧ val.toNat % 2 ^ 39 = 0 then
    { s with mgmt := { s.mgmt with fbbase := val, mnode := some node } }
  else s

def execFbbaseWrite (node : Nat) (val : DWord) (s : State) : Host.Outcome State Fault Refusal :=
  .next (writeFbbase node val s)

/-- The plain registers of the management block. -/
def writeMgmt (m : Mgmt) (off len val : Nat) : Mgmt :=
  let ids := idsOpen m && decide (off < 4 ∧ 2 < off + len)
  { m with nodeid := if ids then mergeReg 0x002 2 m.nodeid off len val else m.nodeid
           nodeSet := m.nodeSet || ids
           hoimg := BitVec.ofNat 64 (mergeReg 0x040 8 m.hoimg.toNat off len val)
           holen := BitVec.ofNat 32 (mergeReg 0x048 4 m.holen.toNat off len val)
           attbuf := BitVec.ofNat 64 (mergeReg 0x080 8 m.attbuf.toNat off len val)
           nonce := (List.range len).foldl (fun n i =>
             if 0xA0 ≤ off + i ∧ off + i < 0xC0 then NMap.set 0 n (off + i - 0xA0) (BitVec.ofNat 8 (bitsOf val (8 * i) 8))
             else n) m.nonce }

/-! ### Live hand-over (R436, R437) -/

/-- A command that the state does not allow sets HOERR 5 and changes nothing else (R436). -/
def hoCommand (s : State) (node : Nat) (valid : Bool) (f : State → State) : State :=
  if !manages s.mgmt node then s
  else if valid then f (afterReport s)
  else { s with mgmt := { s.mgmt with hoerr := 5 } }

def handoverStart (node : Nat) (s : State) : State :=
  hoCommand s node ((s.mgmt.hostate == 0 || s.mgmt.hostate == 4) && (s.mgmt.boot == 3 || s.mgmt.boot == 0xFF))
    fun s => { s with mgmt := { s.mgmt with hostate := 1 } }

def execHandoverStart (node : Nat) (s : State) : Host.Outcome State Fault Refusal := .next (handoverStart node s)

/-- What the check of an incoming image answers: the code of R437, 0 where it is accepted (R433). -/
def imageError (m : Mgmt) (img : List Byte) : Nat :=
  if !imageVerifies img then 1
  else
    let v := Config.imageVersion img % 2 ^ 32
    if (if m.auth then decide (m.fwver < v) else decide (m.fwfloor ≤ v)) then 0 else 4

/-- The fetch and check of the incoming image complete; whether the fetch faults is the fabric's (R433, R436). -/
def execHandoverVerified (s0 : State) : Host.Outcome State Fault Refusal :=
  let s := afterReport s0
  let m := s.mgmt
  if m.hostate ≠ 1 then .next s0
  else
    let (err, d) := freeBit s.dev
    let n := m.holen.toNat
    let rejected (e : Nat) : State := { s with dev := d, mgmt := { m with hostate := 4, hoerr := e } }
    if err ∨ n = 0 ∨ 2 ^ 26 < n then .next (rejected 2)
    else
      let img := Memory.bytes d.host m.hoimg.toNat n
      match imageError m img with
      | 0 => .next { s with dev := d, mgmt := { m with hostate := 2, inImg := img } }
      | e => .next (rejected e)

/-- The commit point: HOSTATE 3, FWVER and FWMEAS change in one event; from BOOT 0xFF the boot goes on at 2 (R432,
R436). -/
def handoverCommit (node : Nat) (s : State) : State :=
  hoCommand s node (s.mgmt.hostate == 2) fun s =>
    let m := s.mgmt
    let m1 := { adopt m m.inImg with
      hostate := 3, outVer := if m.auth then m.fwver else 0, outMeas := if m.auth then m.fwmeas else 0
      boot := if m.boot = 0xFF then 2 else m.boot }
    { s with mgmt := m1, saggar := { s.saggar with on := true } }

def execHandoverCommit (node : Nat) (s : State) : Host.Outcome State Fault Refusal := .next (handoverCommit node s)

def handoverAbort (node : Nat) (s : State) : State :=
  hoCommand s node (s.mgmt.hostate == 1 || s.mgmt.hostate == 2) fun s =>
    { s with mgmt := { s.mgmt with hostate := 4, hoerr := 3, inImg := [] } }

def execHandoverAbort (node : Nat) (s : State) : Host.Outcome State Fault Refusal := .next (handoverAbort node s)

/-- The outgoing image retires: the flash switches and FWFLOOR rises in one step (R433, R436). -/
def execHandoverRetire (s0 : State) : Host.Outcome State Fault Refusal :=
  let s := afterReport s0
  let m := s.mgmt
  if m.hostate = 3 then
    .next { s with mgmt := { m with hostate := 0, flash := m.inImg, fwfloor := max m.fwfloor m.fwver, inImg := [] } }
  else .next s0

/-! ### Attestation (R438) -/

def attestationRequest (node : Nat) (s : State) : State :=
  if manages s.mgmt node ∧ s.mgmt.attstate ≠ 1 then { s with mgmt := { s.mgmt with attstate := 1 } } else s

def execAttestationRequest (node : Nat) (s : State) : Host.Outcome State Fault Refusal := .next (attestationRequest node s)

/-- The first 128 bytes of a report at TICKS `now` (R438). -/
def reportBody (m : Mgmt) (now : Nat) : List Byte :=
  let out3 := m.hostate == 3
  let outV := if out3 then m.outVer else if m.auth then m.fwver else 0
  let outM := if outV = 0 then 0 else if out3 then m.outMeas else m.fwmeas
  let inn := m.hostate == 2 || out3
  leBytes 2 1 ++ leBytes 2 m.nodeid ++ leBytes 1 m.hostate ++ leBytes 1 (nb out3 1) ++ leBytes 2 0 ++
  leBytes 8 now ++ Memory.bytes m.nonce 0 32 ++ leBytes 4 outV ++
  leBytes 4 (if inn then Config.imageVersion m.inImg % 2 ^ 32 else 0) ++ leBytes 8 0 ++
  leBytes 32 outM.toNat ++ leBytes 32 (if inn then measure m.inImg else 0).toNat

/-- The report of the state at the present TICKS, signed with a salt of the device's choice, is written to ATTBUF; whether the
write fails is the fabric's (R433, R438). -/
def execAttestationReport (s : State) : Host.Outcome State Fault Refusal :=
  let m := s.mgmt
  if m.attstate ≠ 1 then .next s
  else
    let (err, d) := freeBit s.dev
    if err then .next { s with dev := d, mgmt := { m with attstate := 3 } }
    else
      let (salt, d1) := freeBytes d
      let b := reportBody m s.dev.ticks
      let h := Memory.putBytes d1.host m.attbuf.toNat (b ++ attestSign b (padTo 32 salt))
      .next { s with dev := { d1 with host := h }, mgmt := { m with attstate := 2, repAt := some s.dev.ticks } }

end Sys2Proof.Machine
end

