-- ==== Sys2Proof/Machine/Encoders.lean ====
section
/-!
DEFINITION. The frame encoders: session packets (R417, R418), coding of frames and the output ring (R419 to R422). The
units of a coded frame are an opaque function of its session's block, frames and settings (log entry 61).
-/

namespace Sys2Proof.Machine

/-! ### The session block (R416, R417) -/

/-- Profile, level and depth of a codec that the encoders produce (R416, R417). -/
def codecOk (codec profile level : Nat) (d10 : Bool) : Bool :=
  if codec = 1 then profile == 0 && decide (level ≤ 13)
  else codec == 2 && (profile == 1 || profile == 2) && decide (level ≤ 153) && (!d10 || profile == 2)

/-- Bytes 0x10–0x27 of a block keep to their table: RC, MAXRATE, the quantisers and reserved fields (R417). -/
def ratesOk (codec : Nat) (r : List Byte) : Bool :=
  let rc := leAt r 0 4
  decide (rc ≤ 2) && (rc != 2 || decide (leAt r 4 4 ≤ leAt r 8 4)) &&
  (codec != 2 || decide (leAt r 0x10 1 ≤ 51 ∧ leAt r 0x11 1 ≤ 51)) && leAt r 0x12 2 == 0

/-- Bytes 0x10–0x27 of a block. -/
def ratePart (b : List Byte) : List Byte := (b.drop 0x10).take 24

/-- Geometry, rates and reserved fields of a session block (R417). -/
def blockFieldsOk (b : List Byte) : Bool :=
  let w := leAt b 4 2
  let h := leAt b 6 2
  leAt b 3 1 / 16 == 0 && w % 16 == 0 && decide (64 ≤ w ∧ w ≤ 4096) && h % 16 == 0 && decide (64 ≤ h ∧ h ≤ 2304) &&
  decide (w * h ≤ 8912896) && leAt b 8 4 / 8 == 0 && leAt b 0xC 2 != 0 && leAt b 0xE 2 != 0 &&
  ratesOk (leAt b 0 1) (ratePart b) && leAt b 0x30 4 / 32 == 0 && zeroAt b 0x48 0x38

/-- The output ring of a session block (R417). -/
def blockRingOk (b : List Byte) : Bool := leAt b 0x28 8 % 4096 == 0 && decide (16 ≤ leAt b 0x30 1 ∧ leAt b 0x30 1 ≤ 28)

/-- The session a block opens. -/
def Session.parse (block : Nat) (b : List Byte) : Session :=
  { opened := true, block := block, codec := leAt b 0 1, profile := leAt b 1 1, level := leAt b 2 1
    width := leAt b 4 2, height := leAt b 6 2, d10 := bitsOf (leAt b 8 1) 0 1 == 1, full := bitsOf (leAt b 8 1) 1 1 == 1
    lowDelay := bitsOf (leAt b 8 1) 2 1 == 1, head := b.take 16, rate := ratePart b
    outBase := leAt b 0x28 8, outLog := leAt b 0x30 1 }

/-- A store to a session block; where it faults nothing is written. -/
def blockStore (dev : Device) (c va : Nat) (bs : List Byte) : Device :=
  match saggarStore dev c va bs with
  | .ok d => d
  | .error _ => dev

/-! ### Session packets (R418) -/

/-- The session packet at issue, of operation `op`. -/
def readyOp (dev : Device) (c q op : Nat) : Option (List Byte) :=
  match ready dev c q 6 with
  | some b => if leAt b 8 1 = op then some b else none
  | none => none

/-- The error of an open, 0 for none; whether an encoder has capacity is the device's (R418). -/
def openError (dev : Device) (c n : Nat) (block : Nat) (b : List Byte) (room : Bool) : Nat :=
  if (NMap.find? (ctx dev c).sessions n).isSome then 1
  else if !codecOk (leAt b 0 1) (leAt b 1 1) (leAt b 2 1) (bitsOf (leAt b 8 1) 0 1 == 1) then 2
  else if !blockFieldsOk b || block % 128 != 0 then 3
  else if !blockRingOk b then 4
  else if !room then 5 else 0

/-- A closing session with no frame left encoding: STATE is 0 and its packets complete (R418). -/
def settleClose (dev : Device) (c n : Nat) : Device :=
  match NMap.find? (ctx dev c).sessions n with
  | none => dev
  | some x =>
    match x.closing with
    | none => dev
    | some ps =>
      if !x.coding.isEmpty || x.held.isSome then dev
      else
        let d1 := blockStore dev c (x.block + 0x40) (leBytes 1 0)
        ps.foldl (fun d p => completePacket d c p.1 p.2)
          (modCtx d1 c fun y => { y with sessions := NMap.erase y.sessions n })

/-- A session closes: its assembling frames are discarded, those encoding are finished (R418). -/
def beginClose (dev : Device) (c n : Nat) (ps : List (Nat × Nat)) : Device :=
  match NMap.find? (ctx dev c).sessions n with
  | none => dev
  | some x => settleClose (setSession dev c n { x with asm := [], closing := some (x.closing.getD [] ++ ps) }) c n

/-- Open a session on a block (R418). DEDUCED (log entry 62): an open that fails on an open session closes that, also where the
block cannot be read. -/
def openSession (dev : Device) (c n block : Nat) : Device :=
  match saggarLoad dev c block 128 with
  | none => beginClose dev c n []
  | some (b, d0) =>
    let (room, d1) := freeBit d0
    match openError dev c n block b room with
    | 0 =>
      let d2 := setSession d1 c n (Session.parse block b)
      blockStore (blockStore (blockStore d2 c (block + 0x38) (leBytes 8 0)) c (block + 0x44) (leBytes 4 0))
        c (block + 0x40) (leBytes 2 1)
    | e => blockStore (beginClose d1 c n []) c (block + 0x40) (leBytes 2 (3 + 256 * e))

def execSessionOpen (c q : Nat) (s : State) : Host.Outcome State Fault Refusal :=
  onDev s fun dev =>
    match readyOp dev c q 0 with
    | none => dev
    | some b => issuePacket (openSession dev c (leAt b 9 1) (leAt b 0x10 8)) c q b true

/-- A close completes with the last record and STATE; one of a session that is closing already, with that (R418). -/
def closeSession (dev : Device) (c q : Nat) (b : List Byte) : Device :=
  let n := leAt b 9 1
  match NMap.find? (ctx dev c).sessions n with
  | none => issuePacket dev c q b true
  | some _ => beginClose (issuePacket dev c q b false) c n [(q, (queue dev c q).pktNo)]

def execSessionClose (c q : Nat) (s : State) : Host.Outcome State Fault Refusal :=
  onDev s fun dev =>
    match readyOp dev c q 1 with
    | none => dev
    | some b => closeSession dev c q b

/-- Change an open session. -/
def modSession (dev : Device) (c n : Nat) (f : Session → Session) : Device :=
  match sessionAt dev c n with
  | some x => setSession dev c n (f x)
  | none => dev

def execSessionKey (c q : Nat) (s : State) : Host.Outcome State Fault Refusal :=
  onDev s fun dev =>
    match readyOp dev c q 2 with
    | none => dev
    | some b => issuePacket (modSession dev c (leAt b 9 1) fun x => { x with keyNext := true }) c q b true

/-- Reread 0x10–0x27 of the block, for the next frame to start assembling (R418). DEDUCED (log entry 37): fields that an open
would refuse leave the former in force (R417). -/
def rereadRate (dev : Device) (c n : Nat) : Device :=
  match sessionAt dev c n with
  | none => dev
  | some x =>
    match saggarLoad dev c (x.block + 0x10) 24 with
    | some (b, d) => if ratesOk x.codec b then setSession d c n { x with newRate := some b } else d
    | none => dev

def execSessionRate (c q : Nat) (s : State) : Host.Outcome State Fault Refusal :=
  onDev s fun dev =>
    match readyOp dev c q 3 with
    | none => dev
    | some b => issuePacket (rereadRate dev c (leAt b 9 1)) c q b true

/-! ### Coding (R419 to R422) -/

/-- The record of a frame in the output ring (R420). -/
def frameRecord (num : Nat) (key oversize : Bool) (data : List Byte) : List Byte :=
  let n := data.length
  leBytes 4 n ++ leBytes 4 num ++ leBytes 1 (nb key 1 + nb oversize 2) ++ leBytes 7 0 ++
  data ++ List.replicate ((16 - n % 16) % 16) 0

/-- The record, or that of a discarded frame where it could never fit (R421). -/
def fitRecord (x : Session) (num : Nat) (key : Bool) (data : List Byte) : Bool × List Byte :=
  let r := frameRecord num key false data
  if 2 ^ x.outLog < r.length then (true, frameRecord num key true []) else (false, r)

/-- Bytes free in a session's output ring, by the host's OUTRD; none where it cannot be read (R420). -/
def ringRoom (dev : Device) (c : Nat) (x : Session) : Nat × Device :=
  match saggarLoad dev c (x.block + 0x34) 4 with
  | some (b, d) => (2 ^ x.outLog - (x.outWr + 2 ^ 32 - leNat b) % 2 ^ 32, d)
  | none => (0, dev)

/-- Write a record at OUTWR, wrapping within the ring; then OUTWR, then FRAMES, advance (R420). -/
def putRecord (dev : Device) (c n : Nat) (x : Session) (r : List Byte) : Device :=
  let at0 := x.outWr % 2 ^ x.outLog
  let k := min r.length (2 ^ x.outLog - at0)
  let d1 := blockStore dev c (x.outBase + at0) (r.take k)
  let d2 := if k < r.length then blockStore d1 c x.outBase (r.drop k) else d1
  let wr := (x.outWr + r.length) % 2 ^ 32
  let fr := (x.frames + 1) % 2 ^ 32
  let d3 := blockStore (blockStore d2 c (x.block + 0x38) (leBytes 4 wr)) c (x.block + 0x3C) (leBytes 4 fr)
  settleClose (setSession d3 c n { x with outWr := wr, frames := fr, stalled := false, held := none }) c n

/-! ### The stream (R416) -/

/-- A number as leb128, at most `fuel` bytes. -/
def leb128 (n : Nat) : Nat → List Byte
  | 0 => []
  | fuel + 1 => if n < 128 then [BitVec.ofNat 8 n] else BitVec.ofNat 8 (128 + n % 128) :: leb128 (n / 128) fuel

/-- A payload with its emulation prevention bytes; `z` zero bytes precede it. -/
def escaped (z : Nat) : List Byte → List Byte
  | [] => []
  | b :: r =>
    if 2 ≤ z && decide (b.toNat ≤ 3) then 3 :: b :: escaped (if b = 0 then 1 else 0) r
    else b :: escaped (if b = 0 then z + 1 else 0) r

/-- A unit of the stream: an OBU with its size field, or an Annex B NAL unit. -/
def unitBytes (codec : Nat) (u : Nat × List Byte) : List Byte :=
  if codec = 1 then BitVec.ofNat 8 (8 * (u.1 % 16) + 2) :: (leb128 u.2.length 8 ++ u.2)
  else [0, 0, 0, 1, BitVec.ofNat 8 (2 * (u.1 % 64)), 1] ++ escaped 0 u.2

/-- A temporal unit, which a temporal delimiter opens, or an access unit. -/
def frameBytes (codec : Nat) (us : List (Nat × List Byte)) : List Byte :=
  (if codec = 1 then [0x12, 0x00] else []) ++ us.flatMap (unitBytes codec)

/-- A unit that carries no picture, of a type by the choice made: a sequence header or metadata of AV1; a parameter set or a
supplemental message of HEVC. -/
def paramUnit (codec : Nat) (u : Nat × List Byte) : Nat × List Byte :=
  (if codec = 1 then [1, 5].getD (u.1 % 2) 1 else [32, 33, 34, 39].getD (u.1 % 4) 32, u.2)

/-- The unit of a frame's one slice and tile, of a type by the choice made: an OBU of a whole frame; a NAL unit of a key picture,
or of another, which without reordering is a trailing one. -/
def pictureUnit (codec : Nat) (key lowDelay : Bool) (type : Nat) (bs : List Byte) : Nat × List Byte :=
  (if codec = 1 then 6 else if key then 19 + type % 2 else if lowDelay then type % 2 else [0, 1, 6, 7, 8, 9].getD (type % 6) 1, bs)

/-- A unit of filler data with `n` bytes of payload. -/
def fillerUnit (codec n : Nat) : Nat × List Byte := if codec = 1 then (15, List.replicate n 0x80) else (38, List.replicate n 0xFF ++ [0x80])

/-! ### The rates of a session (R417) -/

/-- A field of bytes 0x10–0x27 of a block, by its offset in the block. -/
def rateField (rate : List Byte) (off : Nat) : Nat := leAt rate (off - 0x10) 4

/-- FPS of a session: numerator and denominator (R417). -/
def Session.fps (x : Session) : Nat × Nat := (max (leAt x.head 0xE 2) 1, leAt x.head 0xC 2)

/-- RC of bytes 0x10–0x27 of a block. -/
def rateMode (rate : List Byte) : Nat := rateField rate 0x10 % 4

/-- Bytes 0x10–0x27 of a block as they apply: at constant QP, BITRATE, MAXRATE and VBV are ignored (R417). -/
def ratesUsed (rate : List Byte) : List Byte :=
  if rateMode rate = 0 then rate.take 4 ++ List.replicate 12 0 ++ rate.drop 16 else rate

/-! ### How a picture is coded (R416, R421, R422) -/

/-- The frames that one coded after `fs` may reference: those from the last key frame on, so that none references a discarded
frame, whose next is a key frame (R421). -/
def mayReference (fs : List CodedFrame) : List CodedFrame :=
  fs.foldl (fun rs f => if f.key then [f] else rs ++ [f]) []

/-- A choice of how a frame is coded, held to what the encoders produce: a key frame is intra; others have up to three
references among the frames coded before them; blocks are of 64×64; a low-delay session has no B frames and no hidden ones. -/
def heldCoding (x : Session) (key : Bool) (h : PictureCoding) : PictureCoding :=
  let rs := if key then [] else mayReference x.coded
  let intra := h.kind == .intra || rs.isEmpty
  { h with
    kind := if intra then .intra else if x.lowDelay then .inter else h.kind
    refs := if intra then [] else ((h.refs.headD 0 :: h.refs.tail).take 3).filterMap fun i => (rs[i % rs.length]?).map (·.num)
    hidden := h.hidden && !key && !x.lowDelay
    block := 64 }

/-- A frame as its coding sees it. -/
def Frame.coded (f : Frame) (key : Bool) : CodedFrame := { num := f.num, key := key, rate := ratesUsed f.rate, tiles := f.tiles }

/-- The same, with how it is coded next in a session. -/
def Session.codedNow (x : Session) (f : CodedFrame) : CodedFrame :=
  { f with how := heldCoding x f.key (Config.codedHow x.head (x.coded ++ [f])) }

/-! ### Rate control (R422) -/

/-- The bits, times the numerator of FPS, that capped VBR allows the frames `fs` by their BITRATE. -/
def averageBits (x : Session) (fs : List CodedFrame) : Nat :=
  ((fs.filter fun f => rateMode f.rate == 2).map fun f => rateField f.rate 0x14 * 1000 * x.fps.2).sum

/-- The bits that a frame of a session may take, times the numerator of FPS: what the buffer model has room for under CBR;
what the peak and the running average leave under capped VBR; any number at constant QP. -/
def bitLimit (x : Session) (f : CodedFrame) : Option Nat :=
  let vbv := rateField f.rate 0x1C * 1000 * x.fps.1
  match rateMode f.rate with
  | 1 => some (vbv - x.bucket)
  | 2 => some (min (vbv - x.bucket) (averageBits x (x.coded ++ [f]) + vbv - x.spent))
  | _ => none

/-- The bits that leave the buffer model in the time of a frame, times the numerator of FPS; there is none at constant QP. -/
def bitDrain (x : Session) (rate : List Byte) : Nat :=
  1000 * x.fps.2 * (match rateMode rate with
    | 1 => rateField rate 0x14
    | 2 => rateField rate 0x18
    | _ => 0)

/-- The bits of units, times the numerator of FPS. -/
def unitBits (x : Session) (us : List (Nat × List Byte)) : Nat := 8 * (frameBytes x.codec us).length * x.fps.1

/-- The units stay within a limit. -/
def within (x : Session) (m : Option Nat) (us : List (Nat × List Byte)) : Bool :=
  match m with
  | none => true
  | some m => decide (unitBits x us ≤ m)

/-- The bits that a frame of a session takes at least, times the numerator of FPS: what the running average lacks under capped
VBR. -/
def bitFloor (x : Session) (f : CodedFrame) : Nat :=
  if rateMode f.rate = 2 then averageBits x (x.coded ++ [f]) - rateField f.rate 0x1C * 1000 * x.fps.1 - x.spent else 0

/-- The picture of a frame, coded to a payload of `n` bytes. -/
def codedPicture (x : Session) (f : CodedFrame) (n : Nat) : Nat × List Byte :=
  pictureUnit x.codec f.key x.lowDelay f.how.type ((List.range n).map (Config.codedByte x.head (x.coded ++ [f]) n))

/-- The lengths of a picture's payload that keep the frame, with the units `ps` before the picture, within its limit. -/
def pictureLengths (x : Session) (f : CodedFrame) (m : Nat) (ps : List (Nat × List Byte)) : List Nat :=
  ((List.range (m / (8 * x.fps.1))).map (· + 1)).filter fun n => decide (unitBits x (ps ++ [codedPicture x f n]) ≤ m)

/-- The units `ps` and the picture of a frame, which has at least a byte of payload: of any length at constant QP; else of one
within the limit and, where there is one, not below the floor; none where the limit has no room. -/
def pictureAfter (x : Session) (f : CodedFrame) (ps : List (Nat × List Byte)) : Option (List (Nat × List Byte)) :=
  let k := Config.codedLength x.head (x.coded ++ [f])
  match bitLimit x f with
  | none => some (ps ++ [codedPicture x f (k + 1)])
  | some m =>
    let ns := pictureLengths x f m ps
    let hs := ns.filter fun n => decide (bitFloor x f ≤ unitBits x (ps ++ [codedPicture x f n]))
    let n := if hs.isEmpty then ns.getLast? else hs[k % hs.length]?
    n.map fun n => ps ++ [codedPicture x f n]

/-- The units of a frame within its limit, its picture always among them; under CBR, filler where the buffer model would
underflow, of the least length that mends it within the limit. DESIGN CHOICE (log entry 61): a kbit is 1,000 bits; VBV is the
slack of the running average; units without a picture go only where they leave the picture room, and where not even a picture
of one byte has room, it goes all the same. -/
def rateUnits (x : Session) (f : CodedFrame) (ps : List (Nat × List Byte)) : List (Nat × List Byte) :=
  let us := ((pictureAfter x f ps).or (pictureAfter x f [])).getD [codedPicture x f 1]
  let drain := bitDrain x f.rate
  let reaches (vs : List (Nat × List Byte)) : Bool := decide (drain ≤ x.bucket + unitBits x vs)
  if rateMode f.rate != 1 || reaches us then us
  else
    let fill (n : Nat) : List (Nat × List Byte) := us ++ [fillerUnit x.codec n]
    let ns := (List.range (drain / (8 * x.fps.1) + 2)).filter fun n => within x (bitLimit x f) (fill n)
    match (ns.find? fun n => reaches (fill n)).or ns.getLast? with
    | some n => fill n
    | none => us

/-- The session after a frame of `n` bytes has been coded. -/
def Session.account (x : Session) (f : CodedFrame) (n : Nat) : Session :=
  let b := 8 * n * x.fps.1
  { x with coded := x.coded ++ [f], spent := if rateMode f.rate = 2 then x.spent + b else x.spent
           bucket := if rateMode f.rate = 0 then 0 else x.bucket + b - bitDrain x f.rate }

/-- The units of the frame that is coded next in a session (R416, R422). -/
def frameUnits (x : Session) (f : CodedFrame) : List (Nat × List Byte) :=
  rateUnits x f ((Config.codedParams x.head (x.coded ++ [f])).map (paramUnit x.codec))

/-- Code one frame and write its record, or stall on the ring (R418, R420, R421). -/
def codeFrame (dev : Device) (c n : Nat) (x : Session) (f : Frame) : Device :=
  let gop := rateField f.rate 0x24
  let key := f.key || x.keyCode || f.num == 0 || (gop != 0 && f.num % gop == 0)
  let cf := x.codedNow (f.coded key)
  let data := frameBytes x.codec (frameUnits x cf)
  let (big, r) := fitRecord x (f.num % 2 ^ 32) key data
  let x1 := { x.account cf data.length with coding := x.coding.filter fun g => g.num != f.num, keyCode := big }
  let (room, d1) := ringRoom dev c x1
  if r.length ≤ room then putRecord d1 c n x1 r
  else blockStore (setSession d1 c n { x1 with stalled := true, held := some r }) c (x.block + 0x40) (leBytes 1 2)

/-- Every position of a frame is filled (R419). -/
def Frame.full (f : Frame) (x : Session) : Bool := f.tiles.length == (x.width / 16) * (x.height / 16)

/-- Which of the held frames is coded next: with LOWDELAY the first; else the one that the first frames held, at most four,
decide, which they do by the fourth; a closing session waits for no more (R422). -/
def pickFrame (x : Session) : Option Frame :=
  if x.lowDelay then x.coding.head?
  else
    let look (j : Nat) : Option Frame :=
      let hs := x.coding.take (j + 1)
      (Config.codedNext x.head x.coded (hs.map fun f => f.coded f.key)).bind fun m => hs[m % (j + 1)]?
    let some_ := (List.range (min 4 x.coding.length)).findSome? look
    if some_.isNone && (decide (4 ≤ x.coding.length) || x.closing.isSome) then x.coding.head? else some_

/-- The oldest assembling frame, once full, leaves assembly, and the next frame is coded: what is coded depends on the
session's block, its packets and its frames alone (R419, R422). -/
def frameAct (dev : Device) (c n : Nat) : Device :=
  match NMap.find? (ctx dev c).sessions n with
  | none => dev
  | some x =>
    if !x.opened || x.stalled then dev
    else
      let x1 := match x.asm with
        | f :: r => if f.full x then { x with asm := r, coding := x.coding ++ [f] } else x
        | [] => x
      match pickFrame x1 with
      | none => setSession dev c n x1
      | some f => codeFrame dev c n x1 f

def execFrameCode (c n : Nat) (s : State) : Host.Outcome State Fault Refusal := onDev s fun dev => frameAct dev c n

/-- A session stalled on its ring goes on once the record fits (R420). -/
def resumeRing (dev : Device) (c n : Nat) : Device :=
  match NMap.find? (ctx dev c).sessions n with
  | none => dev
  | some x =>
    match x.held with
    | none => dev
    | some r =>
      let (room, d) := ringRoom dev c x
      if r.length ≤ room then putRecord (blockStore d c (x.block + 0x40) (leBytes 1 1)) c n x r else d

def execOutputRingResume (c n : Nat) (s : State) : Host.Outcome State Fault Refusal :=
  onDev s fun dev => resumeRing dev c n

end Sys2Proof.Machine
end

