-- ==== Sys2Proof/Machine/Log.lean ====
section
/-!
DEFINITION. The log's own steps: records written, RDIDX, truncation, mismatch (R391 to R394).
-/

namespace Sys2Proof.Machine

/-- The host's write of RDIDX: plain while no launch is active; it releases records in record mode; without effect in
replay mode (R391, R393). An advance within LOGWAIT lets recording continue. -/
def writeRdidx (dev : Device) (node c : Nat) (v : Word) : Device :=
  let b := (ctx dev c).logb
  if !owns dev node c || (b.active && !(launch dev b.launch).hdr.rec_) then dev
  else modLog dev c fun b => { b with rd := v, since := if v = b.rd then b.since else 0 }

def execRdidxWrite (node c : Nat) (val : Word) (s : State) : Host.Outcome State Fault Refusal :=
  onDev s fun dev => writeRdidx dev node c val

/-- The oldest waiting record is written at WRIDX (R392). -/
def writeLogRecord (dev : Device) (c : Nat) : Device :=
  let b := (ctx dev c).logb
  match b.waiting with
  | [] => dev
  | r :: rs =>
    let l := launch dev b.launch
    let d1 := match saggarStore dev c (l.logBase + 32 * (b.wr.toNat % 2 ^ l.logLog)) r with
      | .ok d => d
      | .error _ => dev
    modLog d1 c fun b => { b with waiting := rs, wr := b.wr + 1 }

def execLogRecord (c : Nat) (s : State) : Host.Outcome State Fault Refusal := onDev s fun dev => writeLogRecord dev c

/-- LOGWAIT has passed with the log full: recording stops and every waiting agent proceeds (R393). -/
def truncateLog (dev : Device) (c : Nat) : Device :=
  let b := (ctx dev c).logb
  let l := launch dev b.launch
  if b.active && l.hdr.rec_ && !l.truncated && b.waiting.isEmpty && b.since != 0 &&
      decide (b.since - 1 + l.logWait < dev.ticks) then
    modLog (modLaunch dev b.launch fun l => { l with truncated := true }) c fun b =>
      { b with status := cTRUNCATED, since := 0 }
  else dev

def execLogTruncated (c : Nat) (s : State) : Host.Outcome State Fault Refusal := onDev s fun dev => truncateLog dev c

/-- A mismatch found: MISMATCH and STATUS tell it, and the context is killed and discarded (R394). -/
def endReplay (dev : Device) (c : Nat) : Device :=
  match (ctx dev c).logb.bad with
  | none => dev
  | some r =>
    discardContext (modLog dev c fun b => { b with mismatch := r, status := cMISMATCH, bad := none }) c 7 none
      { kind := 3, code := cKILLED }

def execReplayMismatch (c : Nat) (s : State) : Host.Outcome State Fault Refusal := onDev s fun dev => endReplay dev c

end Sys2Proof.Machine
end

