-- ==== Sys2Proof/Machine/SaggarCore.lean ====
section
/-!
DEFINITION. A Saggar core's registers, local memory and trap entry (R74).
-/

namespace Sys2Proof.Machine

/-! ### Saggar's cores (R74) -/

def Saggar.core (g : Saggar) (c : Nat) : SCore := NMap.get {} g.cores c
def Saggar.setCore (g : Saggar) (c : Nat) (x : SCore) : Saggar := { g with cores := NMap.put g.cores c x }

/-- A Saggar register; x0 reads as zero. -/
def SCore.rd (c : SCore) (r : XReg) : DWord := if r.val = 0 then 0 else NMap.get 0 c.x r.val
/-- Write a Saggar register; a write of x0 is discarded. -/
def SCore.wr (c : SCore) (r : XReg) (v : DWord) : SCore :=
  if r.val = 0 then c else { c with x := NMap.set 0 c.x r.val v }

/-- An address of `n` bytes lies in a Saggar core's local memory (R74). -/
def inLocal (a n : Nat) : Bool := decide (0x08000000 ≤ a ∧ a + n ≤ 0x08040000)

/-- A Saggar core takes an exception into machine mode (R74; the entry is that of the privileged architecture the rule
names, PRESUMED, log entry 5). -/
def SCore.trap (c : SCore) (cause tval : DWord) : SCore :=
  { c with mepc := c.pc, mcause := cause, mtval := tval, mpp := c.machine, mpie := c.mie, mie := false
           machine := true, pc := c.mtvec &&& ~~~(3 : DWord) }

/-- The word at a Saggar core's pc. -/
def SCore.word (c : SCore) : Word := BitVec.ofNat 32 (leNat (Memory.bytes c.mem c.pc.toNat 4))

end Sys2Proof.Machine
end

