-- ==== Sys2Proof/Machine/Saggar.lean ====
section
/-!
DEFINITION. Saggar's four custom instructions and the end of SWAIT (R74).
-/

namespace Sys2Proof.Machine

/-- The core whose instruction executes. -/
def sCore (s : State) : SCore := s.saggar.core s.saggar.cur

/-- The instruction writes `rd` and goes on. -/
def sDone (s : State) (rd : XReg) (v : DWord) : State :=
  let c := (sCore s).wr rd v
  { s with saggar := s.saggar.setCore s.saggar.cur { c with pc := c.pc + 4, instret := c.instret + 1 } }

/-- A fault of a custom instruction; the spec names its cause and leaves mtval open. -/
def sFault (s : State) (cause : DWord) : State :=
  let (v, d) := freeNat s.dev
  { s with dev := d, saggar := s.saggar.setCore s.saggar.cur ((sCore s).trap cause (BitVec.ofNat 64 v)) }

/-- RFETCH copies the packet at HEAD of queue rs1 into local memory at rs2. DESIGN CHOICE (log entry 52): it does so
whatever QEN of the queue is. -/
def execRfetch (rd rs1 rs2 : XReg) (s : State) : Host.Outcome State Fault Refusal :=
  let n := ((sCore s).rd rs1).toNat
  let a := ((sCore s).rd rs2).toNat
  if 511 < n ∨ a % 128 ≠ 0 ∨ !inLocal a 128 then .next (sFault s 24)
  else
    let y := queue s.dev (n / 8) (n % 8)
    if y.halt ≠ 0 then .next (sDone s rd 2)
    else if y.head = y.tail then .next (sDone s rd 0)
    else
      let (err, d) := freeBit s.dev
      if err then .next (sDone { s with dev := haltQueue d (n / 8) (n % 8) 4 } rd 3)
      else
        let c := sCore s
        let m := Memory.putBytes c.mem a (Memory.bytes d.host (headAddr y) 128)
        .next (sDone { s with dev := d, saggar := s.saggar.setCore s.saggar.cur { c with mem := m } } rd 1)

/-- BFEXT extracts rs2[13:8] bits from bit rs2[5:0] of rs1. -/
def execBfext (rd rs1 rs2 : XReg) (s : State) : Host.Outcome State Fault Refusal :=
  let b := ((sCore s).rd rs2).toNat
  let lo := bitsOf b 0 6
  let n := bitsOf b 8 6
  if n = 0 ∨ 64 < lo + n then .next (sFault s 25)
  else .next (sDone s rd (BitVec.ofNat 64 (bitsOf ((sCore s).rd rs1).toNat lo n)))

/-- Signals that match end a wait: rd receives them and they are cleared. -/
def takeSignals (s : State) (rd : XReg) (mask : DWord) : State :=
  let c := sCore s
  let got := c.sig &&& mask
  sDone { s with saggar := s.saggar.setCore s.saggar.cur { c with sig := c.sig &&& ~~~got, wait := none } } rd got

/-- SWAIT waits for a signal of rs1, at most rs2 TICKS. -/
def execSwait (rd rs1 rs2 : XReg) (s : State) : Host.Outcome State Fault Refusal :=
  let c := sCore s
  let mask := c.rd rs1
  let n := (c.rd rs2).toNat
  if mask = 0 then .next (sFault s 26)
  else if c.sig &&& mask ≠ 0 then .next (takeSignals s rd mask)
  else
    let w : SWait := { rd := rd.val, mask := mask, til := if n = 0 then none else some (s.dev.ticks + n) }
    .next { s with saggar := s.saggar.setCore s.saggar.cur { c with wait := some w } }

/-- A waiting SWAIT returns on a signal, or with 0 once its time has passed. -/
def execSwaitWake (core : Nat) (s0 : State) : Host.Outcome State Fault Refusal :=
  let s := { s0 with saggar := { s0.saggar with cur := core } }
  let c := sCore s
  match c.wait with
  | none => .next s0
  | some w =>
    let rd : XReg := ⟨w.rd % 32, Nat.mod_lt _ (by decide)⟩
    if 8 ≤ core then .next s0
    else if c.sig &&& w.mask ≠ 0 then .next (takeSignals s rd w.mask)
    else match w.til with
      | some t =>
        if t ≤ s.dev.ticks then
          .next (sDone { s with saggar := s.saggar.setCore core { c with wait := none } } rd 0)
        else .next s0
      | none => .next s0

/-- WDISP hands the launch whose header stands at local address rs1 to the Wheel for context rs2 (R74). An intake that is full
does not accept it: rd := 1. DESIGN CHOICE (log entry 38): so does one whose header fails R11, or whose 256 bytes do not all
lie in local memory, for which R74 lists no fault; a context with an invalidation under way counts as active. -/
def execWdisp (rd rs1 rs2 : XReg) (s : State) : Host.Outcome State Fault Refusal :=
  let c := sCore s
  let a := (c.rd rs1).toNat
  let n := (c.rd rs2).toNat
  if a % 64 ≠ 0 ∨ 63 < n ∨ !(ctx s.dev n).runs then .next (sFault s 27)
  else
    let (full, d) := freeBit s.dev
    let b := Memory.bytes c.mem a 256
    let x := ctx d n
    if full || !inLocal a 256 || !headerOk b x.cls x.logb.base x.logb.log then .next (sDone { s with dev := d } rd 1)
    else
      let l : Launch := { ctx := n, hdr := LaunchHdr.parse b, logBase := x.logb.base, logLog := x.logb.log
                          logWait := x.logb.wait }
      .next (sDone { s with dev := enterLaunch d l } rd 0)

end Sys2Proof.Machine
end

