-- ==== Sys2Proof/Machine/Windows.lean ====
section
/-!
DEFINITION. The device's fabric range as nodes read and write it (R403 to R405): the management block (R434), the power
block (R426), the context windows, the apertures. A write that covers registers which act has their effects, in
ascending address, after those of the plain ones. DESIGN CHOICE (log entry 63): a register that acts takes only a write
that covers all of it.
-/

namespace Sys2Proof.Machine

/-! ### Reads of the management range (R426, R434) -/

/-- The management block's first 256 bytes; WO fields read as zero. -/
def mgmtBlock (m : Mgmt) : List Byte :=
  leBytes 1 m.boot ++ leBytes 1 m.booterr ++ leBytes 2 m.nodeid ++ zeros 4 ++ leBytes 8 m.fbbase.toNat ++
  leBytes 4 m.fwver ++ leBytes 4 m.fwfloor ++ zeros 8 ++ leBytes 32 m.fwmeas.toNat ++
  leBytes 8 m.hoimg.toNat ++ leBytes 4 m.holen.toNat ++ zeros 1 ++ leBytes 1 m.hostate ++ leBytes 1 m.hoerr ++ zeros 49 ++
  leBytes 8 m.attbuf.toNat ++ zeros 1 ++ leBytes 1 m.attstate ++ zeros 22 ++ Memory.bytes m.nonce 0 32 ++ zeros 64

/-- A cluster's word of the power block (R426); without a resident wave it is at N = 6 and 1:1 (R425). -/
def clusterWord (dev : Device) (p : Power) (n : Nat) : Nat :=
  let x := cluster (idleSettings dev p) n
  nb x.cal 128 + nb x.ret 64 + nb x.bisque 32 + 4 * x.grants + x.ratio

/-- The power block (R426). -/
def powerBlock (s : State) : List Byte :=
  leBytes 2 s.power.plimit ++ leBytes 2 s.power.pnow ++ leBytes 4 s.power.nobisque.toNat ++ zeros 56 ++
  (List.range Config.clusters).flatMap fun n => leBytes 4 (clusterWord s.dev s.power n)

/-- A byte of the management range; every node may read it (R434). -/
def mgmtByte (s : State) (off : Nat) : Byte :=
  if off < 0x100 then (mgmtBlock s.mgmt).getD off 0
  else if off < 0x102 then (leBytes 2 s.mgmt.certlen).getD (off - 0x100) 0
  else if 0x1000 ≤ off ∧ off < 0x2000 then NMap.get 0 s.mgmt.cert (off - 0x1000)
  else if 0x10000 ≤ off then (powerBlock s).getD (off - 0x10000) 0
  else 0

/-! ### Reads of a context window (R62, R391, R405, R406, R408, R410) -/

def LogBlock.bytes (b : LogBlock) : List Byte :=
  leBytes 8 b.base ++ leBytes 4 b.log ++ leBytes 4 b.wait ++ leBytes 4 b.wr.toNat ++ leBytes 4 b.rd.toNat ++
  leBytes 4 b.end_.toNat ++ leBytes 1 b.status ++ leBytes 1 (nb b.active 1) ++ zeros 2 ++ padTo 32 b.mismatch

def PfBlock.bytes (b : PfBlock) : List Byte :=
  leBytes 8 b.base.toNat ++ leBytes 4 b.log ++ leBytes 4 b.wr.toNat ++ leBytes 4 b.rd.toNat ++
  leBytes 4 b.pending.length ++ leBytes 8 b.note.toNat ++ leBytes 8 b.ansva.toNat ++ zeros 24

/-- The command register: CMD reads as zero (R406). -/
def commandBytes (x : Ctx) : List Byte :=
  zeros 8 ++ leBytes 8 x.invBase.toNat ++ leBytes 8 x.invLen.toNat ++ leBytes 1 x.cstate ++ zeros 7

/-- A queue's register block. TAIL is WO and reads as zero (R6, R62). DEDUCED (log entry 66): but for a discarded context, whose
blocks keep returning it (R406). -/
def Queue.bytes (y : Queue) (discarded : Bool) : List Byte :=
  leBytes 8 y.qbase.toNat ++ leBytes 4 y.qlog ++ leBytes 4 (nb y.qen 1) ++ leBytes 4 (if discarded then y.tail.toNat else 0) ++
  leBytes 4 y.head.toNat ++ leBytes 8 y.halt ++ leBytes 1 y.kinds.toNat ++ zeros 31 ++
  (List.range 8).flatMap fun i => leBytes 8 (NMap.get 0 y.ranges i).toNat

/-- A cone counter's place: core n, slice s, kind k at 96n + 8(4s + k) (R405). -/
def coneBytes (x : Ctx) (off : Nat) : Byte :=
  let i := off % 96 / 8
  BitVec.ofNat 8 (NMap.get 0 x.cones (coneKey (off / 96) (i % 4) (i / 4)) / 256 ^ (off % 8))

/-- A byte of the group table: LIVE as it reads, 1 where the row has not failed (R410). -/
def groupRead (x : Ctx) (off : Nat) : Byte :=
  let b : Byte := NMap.get 0 x.groups off
  if 16 ≤ off % 256 ∧ off % 8 = 0 then b ^^^ 2 else b

/-- A byte of a window as its owner reads it. -/
def windowByte (x : Ctx) (off : Nat) : Byte :=
  if off < 0x80 then NMap.get 0 x.desc off
  else if 0x100 ≤ off ∧ off < 0x140 then x.logb.bytes.getD (off - 0x100) 0
  else if 0x200 ≤ off ∧ off < 0x220 then (commandBytes x).getD (off - 0x200) 0
  else if 0x300 ≤ off ∧ off < 0x340 then x.pf.bytes.getD (off - 0x300) 0
  else if 0x1000 ≤ off ∧ off < 0x7000 then coneBytes x (off - 0x1000)
  else if 0x7000 ≤ off ∧ off < 0x8000 then groupRead x (off - 0x7000)
  else if 0x8000 ≤ off ∧ off < 0x8400 then
    let q := (off - 0x8000) / 128
    if q < x.qcount then ((NMap.get {} x.queues q).bytes (x.cstate == 4)).getD (off % 128) 0 else 0
  else 0

/-- What a node reads of window `c`: its owner everything; any node the descriptor and the command register while the
context is free; others zero (R404). -/
def readWindow (dev : Device) (node c off : Nat) : Byte :=
  let x := ctx dev c
  let free := x.cstate == 0 || x.cstate == 3
  let open_ := free && (decide (off < 0x80) || decide (0x200 ≤ off ∧ off < 0x220))
  if decide (c < 64) && (open_ || (!free && owns dev node c)) then windowByte x off else 0

/-! ### Writes (R404, R405, R434) -/

/-- A write of `len` bytes at `off` covers the `n` bytes at `o`. -/
def covers (off len o n : Nat) : Bool := decide (off ≤ o ∧ o + n ≤ off + len)

/-- The value that a write gives a register of `n` bytes at `o` that it covers. -/
def fieldOf (off val o n : Nat) : Nat := bitsOf val (8 * (o - off)) (8 * n)

/-- An effect on the device at BOOT 3. -/
def onState (s : State) (f : Device → Device) : State := { s with dev := f s.dev }

/-- The command register's CMD (R406). -/
def writeCmd (s : State) (node c v : Nat) : State :=
  match v with
  | 1 =>
    let d := createContext s.dev node c
    { s with dev := d, power := endOwnedRuns d c s.power }
  | 2 => onState s fun d => destroyContext d node c
  | 3 => onState s fun d => invalidate d node c
  | _ => s

/-- The registers of a window that act, which a write covers (R62, R391, R406, R408, R409). -/
def actWindow (s : State) (node c off len val : Nat) : State :=
  let f (o n : Nat) := fieldOf off val o n
  let q := (off - 0x8000) / 128
  let qb := 0x8000 + 128 * q
  if covers off len 0x200 1 then writeCmd s node c (f 0x200 1)
  else if covers off len 0x114 4 then onState s fun d => writeRdidx d node c (BitVec.ofNat 32 (f 0x114 4))
  else if covers off len 0x310 4 then onState s fun d => writeFrrd d node c (BitVec.ofNat 32 (f 0x310 4))
  else if covers off len 0x328 1 then onState s fun d => writeAnscmd d node c (f 0x328 1)
  else if 0x8000 ≤ off ∧ off < 0x8400 then
    let s1 := if covers off len (qb + 0xC) 4 then onState s fun d => writeQen d node c q (BitVec.ofNat 32 (f (qb + 0xC) 4)) else s
    if covers off len (qb + 0x10) 4 then onState s1 fun d => ringDoorbell d node c q (BitVec.ofNat 32 (f (qb + 0x10) 4)) else s1
  else s

/-- A node writes up to 8 bytes of a context window; before BOOT 3 the device has only its management range (R432). -/
def hostWindow (s : State) (node c off len val : Nat) : State :=
  if s.mgmt.boot ≠ 3 ∨ 64 ≤ c ∨ 8 < len then s
  else actWindow { s with dev := writeWindow s.dev node c off len (BitVec.ofNat 64 val) } node c off len val

def execQueueRegisterWrite (node c off len : Nat) (val : DWord) (s : State) : Host.Outcome State Fault Refusal :=
  .next (hostWindow s node c off len val.toNat)

/-- The registers of the management range that act, which a write covers (R426, R434, R436, R438). -/
def actMgmt (s : State) (node off len val : Nat) : State :=
  let f (o n : Nat) := fieldOf off val o n
  if covers off len 0x8 8 then writeFbbase node (BitVec.ofNat 64 (f 0x8 8)) s
  else if covers off len 0x4C 1 then
    match f 0x4C 1 with
    | 1 => handoverStart node s
    | 2 => handoverCommit node s
    | 3 => handoverAbort node s
    | _ => s
  else if covers off len 0x88 1 then (if f 0x88 1 = 1 then attestationRequest node s else s)
  else if covers off len 0x10000 2 then writePlimit node (BitVec.ofNat 16 (f 0x10000 2)) s
  else s

/-- A node writes up to 8 bytes of the management range (R426, R434). -/
def hostMgmt (s0 : State) (node off len val : Nat) : State :=
  if !manages s0.mgmt node ∨ 8 < len then s0
  else
    let s := afterReport s0
    actMgmt { s with
      mgmt := writeMgmt s.mgmt off len val
      power := { s.power with nobisque := BitVec.ofNat 32 (mergeReg 0x10004 4 s.power.nobisque.toNat off len val) } }
      node off len val

def execManagementRegisterWrite (node off len : Nat) (val : DWord) (s : State) : Host.Outcome State Fault Refusal :=
  .next (hostMgmt s node off len val.toNat)

/-! ### The fabric range (R403) -/

/-- What lies at an offset from FB. -/
inductive FabricPlace
  | mgmt (off : Nat)
  | window (c off : Nat)
  | aperture (c off : Nat)
  | reserved
  | outside
deriving DecidableEq, Repr

def fabricPlace (off : Nat) : FabricPlace :=
  if off < 0x1000000 then .mgmt off
  else if off < 0x1400000 then .window ((off - 0x1000000) / 0x10000) (off % 0x10000)
  else if off < 0x1000000000 then .reserved
  else if off < 0x5000000000 then .aperture ((off - 0x1000000000) / 2 ^ 32) (off % 2 ^ 32)
  else .outside

/-- A node reads `data.length` bytes, or writes `data`, at a fabric address of the device. A read's bytes stand in `resp`;
where nothing of the device answers, the response is an error. -/
def fabricAccess (s : State) (node a : Nat) (write : Bool) (data : List Byte) : State :=
  let n := data.length
  let v := leNat data
  let answer (bs : List Byte) (s : State) : State := { s with dev := { s.dev with resp := some bs } }
  let read (f : Nat → Byte) : List Byte := (List.range n).map f
  let nothing := if write then [] else zeros n
  if s.mgmt.boot = 0 ∨ a < s.mgmt.fbbase.toNat then { s with dev := { s.dev with resp := none } }
  else match fabricPlace (a - s.mgmt.fbbase.toNat) with
    | .mgmt off => if write then answer [] (hostMgmt s node off n v) else answer (read fun i => mgmtByte s (off + i)) s
    | .window c off =>
      if s.mgmt.boot ≠ 3 then answer nothing s
      else if write then answer [] (hostWindow s node c off n v)
      else answer (read fun i => readWindow s.dev node c (off + i)) s
    | .aperture c off =>
      if s.mgmt.boot ≠ 3 then answer nothing s
      else { s with dev := accessAperture s.dev node c (BitVec.ofNat 64 off) write data }
    | .reserved => answer nothing s
    | .outside => { s with dev := { s.dev with resp := none } }

end Sys2Proof.Machine
end

