-- ==== Sys2Proof/Machine/Dispatch.lean ====
section
/-!
DEFINITION. The meaning of every step: one arm per constructor of Instr, each one call of a meaning.
-/

namespace Sys2Proof.Machine

def exec (i : Instr) (s : State) : Host.Outcome State Fault Refusal :=
  match i with
  | .iadd t sat p d a b => Sys2Proof.Machine.execIadd t sat p d a b s
  | .isub t sat p d a b => Sys2Proof.Machine.execIsub t sat p d a b s
  | .imul t sat p d a b => Sys2Proof.Machine.execImul t sat p d a b s
  | .imulh signed p d a b => Sys2Proof.Machine.execImulh signed p d a b s
  | .imad t sat p d a b c => Sys2Proof.Machine.execImad t sat p d a b c s
  | .imin t p d a b => Sys2Proof.Machine.execImin t p d a b s
  | .imax t p d a b => Sys2Proof.Machine.execImax t p d a b s
  | .iabs w64 sat p d a => Sys2Proof.Machine.execIabs w64 sat p d a s
  | .ineg w64 sat p d a => Sys2Proof.Machine.execIneg w64 sat p d a s
  | .and w64 p d a b => Sys2Proof.Machine.execAnd w64 p d a b s
  | .or w64 p d a b => Sys2Proof.Machine.execOr w64 p d a b s
  | .xor w64 p d a b => Sys2Proof.Machine.execXor w64 p d a b s
  | .andn w64 p d a b => Sys2Proof.Machine.execAndn w64 p d a b s
  | .not w64 p d a => Sys2Proof.Machine.execNot w64 p d a s
  | .shl w64 p d a b => Sys2Proof.Machine.execShl w64 p d a b s
  | .shr w64 p d a b => Sys2Proof.Machine.execShr w64 p d a b s
  | .sar w64 p d a b => Sys2Proof.Machine.execSar w64 p d a b s
  | .rotl w64 p d a b => Sys2Proof.Machine.execRotl w64 p d a b s
  | .bfx t p d a b => Sys2Proof.Machine.execBfx t p d a b s
  | .bfi w64 p d a b c => Sys2Proof.Machine.execBfi w64 p d a b c s
  | .popc w64 p d a => Sys2Proof.Machine.execPopc w64 p d a s
  | .clz w64 p d a => Sys2Proof.Machine.execClz w64 p d a s
  | .ctz w64 p d a => Sys2Proof.Machine.execCtz w64 p d a s
  | .brev w64 p d a => Sys2Proof.Machine.execBrev w64 p d a s
  | .permb p d a b c => Sys2Proof.Machine.execPermb p d a b c s
  | .icmp t rel p c a b => Sys2Proof.Machine.execIcmp t rel p c a b s
  | .sel w64 q p d a b => Sys2Proof.Machine.execSel w64 q p d a b s
  | .mov w p d a => Sys2Proof.Machine.execMov w p d a s
  | .movi w64 d x => Sys2Proof.Machine.execMovi w64 d x s
  | .movw d a x => Sys2Proof.Machine.execMovw d a x s
  | .clog l p c a b => Sys2Proof.Machine.execClog l p c a b s
  | .ctov hi q p d => Sys2Proof.Machine.execCtov hi q p d s
  | .vtoc hi p c a => Sys2Proof.Machine.execVtoc hi p c a s
  | .t3pk p d a => Sys2Proof.Machine.execT3pk p d a s
  | .t3un q p d a => Sys2Proof.Machine.execT3un q p d a s
  | .wshfl m p d a b mask => Sys2Proof.Machine.execWshfl m p d a b mask s
  | .wbcast w64 p d a b mask => Sys2Proof.Machine.execWbcast w64 p d a b mask s
  | .wred op t rm p d a mask => Sys2Proof.Machine.execWred op t rm p d a mask s
  | .wscan op t rm excl p d a mask => Sys2Proof.Machine.execWscan op t rm excl p d a mask s
  | .wvote v q p mask => Sys2Proof.Machine.execWvote v q p mask s
  | .wmatch w64 p d a mask => Sys2Proof.Machine.execWmatch w64 p d a mask s
  | .fadd t rm sat ma mb p d a b => Sys2Proof.Machine.execFadd t rm sat ma mb p d a b s
  | .fsub t rm sat ma mb p d a b => Sys2Proof.Machine.execFsub t rm sat ma mb p d a b s
  | .fmul t rm sat ma mb p d a b => Sys2Proof.Machine.execFmul t rm sat ma mb p d a b s
  | .ffma t rm sat ma mb mc p d a b c => Sys2Proof.Machine.execFfma t rm sat ma mb mc p d a b c s
  | .fmin t ma mb p d a b => Sys2Proof.Machine.execFmin t ma mb p d a b s
  | .fmax t ma mb p d a b => Sys2Proof.Machine.execFmax t ma mb p d a b s
  | .fminn t ma mb p d a b => Sys2Proof.Machine.execFminn t ma mb p d a b s
  | .fmaxn t ma mb p d a b => Sys2Proof.Machine.execFmaxn t ma mb p d a b s
  | .fcmp t rel ma mb p c a b => Sys2Proof.Machine.execFcmp t rel ma mb p c a b s
  | .fclass t ma p d a => Sys2Proof.Machine.execFclass t ma p d a s
  | .frnd t rm ma p d a => Sys2Proof.Machine.execFrnd t rm ma p d a s
  | .frcp rm ma p d a => Sys2Proof.Machine.execFrcp rm ma p d a s
  | .frsq rm ma p d a => Sys2Proof.Machine.execFrsq rm ma p d a s
  | .fsqrt rm ma p d a => Sys2Proof.Machine.execFsqrt rm ma p d a s
  | .fexp2 ma p d a => Sys2Proof.Machine.execFexp2 ma p d a s
  | .flog2 ma p d a => Sys2Proof.Machine.execFlog2 ma p d a s
  | .fsin ma p d a => Sys2Proof.Machine.execFsin ma p d a s
  | .fcos ma p d a => Sys2Proof.Machine.execFcos ma p d a s
  | .hadd2 rm sat ma mb p d a b => Sys2Proof.Machine.execHadd2 rm sat ma mb p d a b s
  | .hmul2 rm sat ma mb p d a b => Sys2Proof.Machine.execHmul2 rm sat ma mb p d a b s
  | .hfma2 rm sat ma mb mc p d a b c => Sys2Proof.Machine.execHfma2 rm sat ma mb mc p d a b c s
  | .hmin2 ma mb p d a b => Sys2Proof.Machine.execHmin2 ma mb p d a b s
  | .hmax2 ma mb p d a b => Sys2Proof.Machine.execHmax2 ma mb p d a b s
  | .badd2 rm sat ma mb p d a b => Sys2Proof.Machine.execBadd2 rm sat ma mb p d a b s
  | .bfma2 rm sat ma mb mc p d a b c => Sys2Proof.Machine.execBfma2 rm sat ma mb mc p d a b c s
  | .vdot8 rm ma mb mc p d a b c => Sys2Proof.Machine.execVdot8 rm ma mb mc p d a b c s
  | .cvt dst src rm sat p d a => Sys2Proof.Machine.execCvt dst src rm sat p d a s
  | .pack2 bf rm sat ma mb p d a b => Sys2Proof.Machine.execPack2 bf rm sat ma mb p d a b s
  | .okey f16 nanhi p d a b => Sys2Proof.Machine.execOkey f16 nanhi p d a b s
  | .ld w p d r ix j => Sys2Proof.Machine.execLd w p d r ix j s
  | .st w p c r ix j => Sys2Proof.Machine.execSt w p c r ix j s
  | .pref l p r ix j => Sys2Proof.Machine.execPref l p r ix j s
  | .lock k p d r ix j => Sys2Proof.Machine.execLock k p d r ix j s
  | .unlock p r ix j => Sys2Proof.Machine.execUnlock p r ix j s
  | .dld p d a => Sys2Proof.Machine.execDld p d a s
  | .dmk p d a b => Sys2Proof.Machine.execDmk p d a b s
  | .dget w p d r => Sys2Proof.Machine.execDget w p d r s
  | .dset w p d a => Sys2Proof.Machine.execDset w p d a s
  | .atom op t p d r ix c => Sys2Proof.Machine.execAtom op t p d r ix c s
  | .atomn op t p r ix c => Sys2Proof.Machine.execAtomn op t p r ix c s
  | .satom op t p d r ix c => Sys2Proof.Machine.execSatom op t p d r ix c s
  | .bra off => Sys2Proof.Machine.execBra off s
  | .brc c sense off => Sys2Proof.Machine.execBrc c sense off s
  | .jmpi p a => Sys2Proof.Machine.execJmpi p a s
  | .call d off => Sys2Proof.Machine.execCall d off s
  | .calli p d a => Sys2Proof.Machine.execCalli p d a s
  | .ret p a => Sys2Proof.Machine.execRet p a s
  | .conv p mask => Sys2Proof.Machine.execConv p mask s
  | .exit p => Sys2Proof.Machine.execExit p s
  | .nop p => Sys2Proof.Machine.execNop p s
  | .yield p => Sys2Proof.Machine.execYield p s
  | .sleep p a => Sys2Proof.Machine.execSleep p a s
  | .waitv p d r ix c => Sys2Proof.Machine.execWaitv p d r ix c s
  | .binit k sl p d r ix j => Sys2Proof.Machine.execBinit k sl p d r ix j s
  | .barrive k sl p d => Sys2Proof.Machine.execBarrive k sl p d s
  | .bwait k sl p d => Sys2Proof.Machine.execBwait k sl p d s
  | .bsync k sl p d => Sys2Proof.Machine.execBsync k sl p d s
  | .bdrop k sl p d => Sys2Proof.Machine.execBdrop k sl p d s
  | .bquery st k sl p d => Sys2Proof.Machine.execBquery st k sl p d s
  | .bexpect k sl p d a => Sys2Proof.Machine.execBexpect k sl p d a s
  | .rinit get k sl p d r ix j => Sys2Proof.Machine.execRinit get k sl p d r ix j s
  | .rputAcq k sl p d => Sys2Proof.Machine.execRputAcq k sl p d s
  | .rputPub k sl p d a => Sys2Proof.Machine.execRputPub k sl p d a s
  | .rgetAcq k sl p d => Sys2Proof.Machine.execRgetAcq k sl p d s
  | .rgetRel k sl p d a => Sys2Proof.Machine.execRgetRel k sl p d a s
  | .rclose k sl p d => Sys2Proof.Machine.execRclose k sl p d s
  | .tkwait p k => Sys2Proof.Machine.execTkwait p k s
  | .tkpass p => Sys2Proof.Machine.execTkpass p s
  | .spawn p k a b c => Sys2Proof.Machine.execSpawn p k a b c s
  | .bflush p a => Sys2Proof.Machine.execBflush p a s
  | .evsig p a => Sys2Proof.Machine.execEvsig p a s
  | .evtest p d a => Sys2Proof.Machine.execEvtest p d a s
  | .krsv k p d a b => Sys2Proof.Machine.execKrsv k p d a b s
  | .krel k p d => Sys2Proof.Machine.execKrel k p d s
  | .kload k p d a b => Sys2Proof.Machine.execKload k p d a b s
  | .kswap k p d a => Sys2Proof.Machine.execKswap k p d a s
  | .kloop split k p d a b => Sys2Proof.Machine.execKloop split k p d a b s
  | .kdrainReg split clr k p d a => Sys2Proof.Machine.execKdrainReg split clr k p d a s
  | .kdrainMem split clr k p d a => Sys2Proof.Machine.execKdrainMem split clr k p d a s
  | .kzero split k p d a b => Sys2Proof.Machine.execKzero split k p d a b s
  | .kfid k p d a => Sys2Proof.Machine.execKfid k p d a s
  | .kstat slice kind k p d => Sys2Proof.Machine.execKstat slice kind k p d s
  | .skick k p d r ix j => Sys2Proof.Machine.execSkick k p d r ix j s
  | .squery k p d a => Sys2Proof.Machine.execSquery k p d a s
  | .scancel k p d a => Sys2Proof.Machine.execScancel k p d a s
  | .gseq k p d a b c => Sys2Proof.Machine.execGseq k p d a b c s
  | .gflat cubic fine k p d a b c => Sys2Proof.Machine.execGflat cubic fine k p d a b c s
  | .gdep k p d a b => Sys2Proof.Machine.execGdep k p d a b s
  | .gclrPath k p d a b => Sys2Proof.Machine.execGclrPath k p d a b s
  | .gclrDest t k p d a b c => Sys2Proof.Machine.execGclrDest t k p d a b c s
  | .gclrPathFree k p d b => Sys2Proof.Machine.execGclrPathFree k p d b s
  | .gclrDestFree t k p d => Sys2Proof.Machine.execGclrDestFree t k p d s
  | .gscan t k p d b => Sys2Proof.Machine.execGscan t k p d b s
  | .gclipPop t k p d => Sys2Proof.Machine.execGclipPop t k p d s
  | .gclipReset t k p d => Sys2Proof.Machine.execGclipReset t k p d s
  | .gcov path k p d a => Sys2Proof.Machine.execGcov path k p d a s
  | .gblend k p d a b => Sys2Proof.Machine.execGblend k p d a b s
  | .gemit e t k p d => Sys2Proof.Machine.execGemit e t k p d s
  | .movs n p d => Sys2Proof.Machine.execMovs n p d s
  | .sets n p a => Sys2Proof.Machine.execSets n p a s
  | .trap p code a => Sys2Proof.Machine.execTrap p code a s
  | .rte p => Sys2Proof.Machine.execRte p s
  | .dbrk p code => Sys2Proof.Machine.execDbrk p code s
  | .pmc n clr p d => Sys2Proof.Machine.execPmc n clr p d s
  | .cred k p d a b => Sys2Proof.Machine.execCred k p d a b s
  | .cbcast k p d a b => Sys2Proof.Machine.execCbcast k p d a b s
  | .rfetch rd rs1 rs2 => Sys2Proof.Machine.execRfetch rd rs1 rs2 s
  | .bfext rd rs1 rs2 => Sys2Proof.Machine.execBfext rd rs1 rs2 s
  | .swait rd rs1 rs2 => Sys2Proof.Machine.execSwait rd rs1 rs2 s
  | .wdisp rd rs1 rs2 => Sys2Proof.Machine.execWdisp rd rs1 rs2 s
  | .gatheringComplete wave gathering => Sys2Proof.Machine.execGatheringComplete wave gathering s
  | .serviceWaveAtomic req => Sys2Proof.Machine.execServiceWaveAtomic req s
  | .atomicReplyWrite req => Sys2Proof.Machine.execAtomicReplyWrite req s
  | .sleepExpiry wave lane => Sys2Proof.Machine.execSleepExpiry wave lane s
  | .waitvRecheck wave lane => Sys2Proof.Machine.execWaitvRecheck wave lane s
  | .barrierWaitWake wave lane => Sys2Proof.Machine.execBarrierWaitWake wave lane s
  | .ringWaitWake wave lane => Sys2Proof.Machine.execRingWaitWake wave lane s
  | .tokenArrival wave => Sys2Proof.Machine.execTokenArrival wave s
  | .binTimerExpiry cluster ctx entry => Sys2Proof.Machine.execBinTimerExpiry cluster ctx entry s
  | .binDrain cluster ctx entry => Sys2Proof.Machine.execBinDrain cluster ctx entry s
  | .kilnKloadRun wg => Sys2Proof.Machine.execKilnKloadRun wg s
  | .kilnKswapRun wg => Sys2Proof.Machine.execKilnKswapRun wg s
  | .kilnStep wg => Sys2Proof.Machine.execKilnStep wg s
  | .kilnDrainRun wg => Sys2Proof.Machine.execKilnDrainRun wg s
  | .kilnKzeroRun wg => Sys2Proof.Machine.execKilnKzeroRun wg s
  | .slipJobIssue job => Sys2Proof.Machine.execSlipJobIssue job s
  | .slipUnit job => Sys2Proof.Machine.execSlipUnit job s
  | .slipJobEnd job => Sys2Proof.Machine.execSlipJobEnd job s
  | .sequenceRetire wg t => Sys2Proof.Machine.execSequenceRetire wg t s
  | .handlerReturn wave => Sys2Proof.Machine.execHandlerReturn wave s
  | .chunkDelivery chunk data agree => Sys2Proof.Machine.execChunkDelivery chunk data agree s
  | .rowFailure ctx group row => Sys2Proof.Machine.execRowFailure ctx group row s
  | .issueGroupForm wave pc => Sys2Proof.Machine.execIssueGroupForm wave pc s
  | .ptsAdvance wave lane => Sys2Proof.Machine.execPtsAdvance wave lane s
  | .handlerEntry wave => Sys2Proof.Machine.execHandlerEntry wave s
  | .runOnLimit wave => Sys2Proof.Machine.execRunOnLimit wave s
  | .kill wg => Sys2Proof.Machine.execKill wg s
  | .pageRetry wave lane => Sys2Proof.Machine.execPageRetry wave lane s
  | .unitPlacement => Sys2Proof.Machine.execUnitPlacement s
  | .neighbourhoodPlacement => Sys2Proof.Machine.execNeighbourhoodPlacement s
  | .waveEviction wave => Sys2Proof.Machine.execWaveEviction wave s
  | .unitResumption => Sys2Proof.Machine.execUnitResumption s
  | .holdExpiry wave => Sys2Proof.Machine.execHoldExpiry wave s
  | .yieldDeadlineExpiry => Sys2Proof.Machine.execYieldDeadlineExpiry s
  | .safePointDeadline => Sys2Proof.Machine.execSafePointDeadline s
  | .doorbell node ctx q tail => Sys2Proof.Machine.execDoorbell node ctx q tail s
  | .qenWrite node ctx q val => Sys2Proof.Machine.execQenWrite node ctx q val s
  | .queueRegisterWrite node ctx off len val => Sys2Proof.Machine.execQueueRegisterWrite node ctx off len val s
  | .packetFetch ctx q => Sys2Proof.Machine.execPacketFetch ctx q s
  | .noOperation ctx q => Sys2Proof.Machine.execNoOperation ctx q s
  | .launch ctx q => Sys2Proof.Machine.execLaunch ctx q s
  | .launchRelease l => Sys2Proof.Machine.execLaunchRelease l s
  | .launchComplete l => Sys2Proof.Machine.execLaunchComplete l s
  | .eventSet ctx q => Sys2Proof.Machine.execEventSet ctx q s
  | .eventClear ctx q => Sys2Proof.Machine.execEventClear ctx q s
  | .recordTableUpdate ctx q => Sys2Proof.Machine.execRecordTableUpdate ctx q s
  | .barrierPacket ctx q => Sys2Proof.Machine.execBarrierPacket ctx q s
  | .nvalWrite ctx q pkt => Sys2Proof.Machine.execNvalWrite ctx q pkt s
  | .sessionOpen ctx q => Sys2Proof.Machine.execSessionOpen ctx q s
  | .sessionClose ctx q => Sys2Proof.Machine.execSessionClose ctx q s
  | .sessionKey ctx q => Sys2Proof.Machine.execSessionKey ctx q s
  | .sessionRate ctx q => Sys2Proof.Machine.execSessionRate ctx q s
  | .frameCode ctx session => Sys2Proof.Machine.execFrameCode ctx session s
  | .outputRingResume ctx session => Sys2Proof.Machine.execOutputRingResume ctx session s
  | .contextCreate node ctx => Sys2Proof.Machine.execContextCreate node ctx s
  | .contextDestroy node ctx => Sys2Proof.Machine.execContextDestroy node ctx s
  | .translationInvalidate node ctx => Sys2Proof.Machine.execTranslationInvalidate node ctx s
  | .apertureAccess node ctx off write data => Sys2Proof.Machine.execApertureAccess node ctx off write data s
  | .faultRecordWrite ctx => Sys2Proof.Machine.execFaultRecordWrite ctx s
  | .frrdWrite node ctx val => Sys2Proof.Machine.execFrrdWrite node ctx val s
  | .answerMapped node ctx => Sys2Proof.Machine.execAnswerMapped node ctx s
  | .answerDeclined node ctx => Sys2Proof.Machine.execAnswerDeclined node ctx s
  | .rdidxWrite node ctx val => Sys2Proof.Machine.execRdidxWrite node ctx val s
  | .logRecord ctx => Sys2Proof.Machine.execLogRecord ctx s
  | .logTruncated ctx => Sys2Proof.Machine.execLogTruncated ctx s
  | .replayMismatch ctx => Sys2Proof.Machine.execReplayMismatch ctx s
  | .swaitWake core => Sys2Proof.Machine.execSwaitWake core s
  | .powerMeasurement watts => Sys2Proof.Machine.execPowerMeasurement watts s
  | .plimitWrite node val => Sys2Proof.Machine.execPlimitWrite node val s
  | .voltageDroop cluster => Sys2Proof.Machine.execVoltageDroop cluster s
  | .bisqueRunStart cluster => Sys2Proof.Machine.execBisqueRunStart cluster s
  | .bisqueRunEnd cluster ok => Sys2Proof.Machine.execBisqueRunEnd cluster ok s
  | .retentionEntry cluster => Sys2Proof.Machine.execRetentionEntry cluster s
  | .retentionExit cluster => Sys2Proof.Machine.execRetentionExit cluster s
  | .powerOnReset => Sys2Proof.Machine.execPowerOnReset s
  | .bootStage => Sys2Proof.Machine.execBootStage s
  | .fbbaseWrite node val => Sys2Proof.Machine.execFbbaseWrite node val s
  | .handoverStart node => Sys2Proof.Machine.execHandoverStart node s
  | .handoverVerified => Sys2Proof.Machine.execHandoverVerified s
  | .handoverCommit node => Sys2Proof.Machine.execHandoverCommit node s
  | .handoverAbort node => Sys2Proof.Machine.execHandoverAbort node s
  | .handoverRetire => Sys2Proof.Machine.execHandoverRetire s
  | .attestationRequest node => Sys2Proof.Machine.execAttestationRequest node s
  | .attestationReport => Sys2Proof.Machine.execAttestationReport s
  | .managementRegisterWrite node off len val => Sys2Proof.Machine.execManagementRegisterWrite node off len val s
  | .invalidationComplete ctx => Sys2Proof.Machine.execInvalidationComplete ctx s
  | .voltageDroopEnd cluster => Sys2Proof.Machine.execVoltageDroopEnd cluster s

end Sys2Proof.Machine
end

