-- ==== Sys2Proof/Machine/RvCompressed.lean ====
section
/-!
DEFINITION. The C extension of a Saggar core's RV64IMAC (R74): a 16-bit instruction as the 32-bit instruction it stands
for. R74 names the base and does not describe it: its encodings are those of the RISC-V unprivileged architecture
(PRESUMED, log entry 5).
-/

namespace Sys2Proof.Machine

/-! ### The formats of a 32-bit instruction -/

def rvR (f7 rs2 rs1 f3 rd op : Nat) : Nat :=
  f7 * 2 ^ 25 + rs2 * 2 ^ 20 + rs1 * 2 ^ 15 + f3 * 2 ^ 12 + rd * 2 ^ 7 + op
def rvI (imm rs1 f3 rd op : Nat) : Nat := imm % 2 ^ 12 * 2 ^ 20 + rs1 * 2 ^ 15 + f3 * 2 ^ 12 + rd * 2 ^ 7 + op
def rvS (imm rs2 rs1 f3 op : Nat) : Nat := rvR (bitsOf imm 5 7) rs2 rs1 f3 (bitsOf imm 0 5) op
def rvB (imm rs2 rs1 f3 op : Nat) : Nat :=
  rvR (bitsOf imm 12 1 * 64 + bitsOf imm 5 6) rs2 rs1 f3 (bitsOf imm 1 4 * 2 + bitsOf imm 11 1) op
def rvU (imm20 rd op : Nat) : Nat := imm20 % 2 ^ 20 * 2 ^ 12 + rd * 2 ^ 7 + op
def rvJ (imm rd op : Nat) : Nat :=
  bitsOf imm 20 1 * 2 ^ 31 + bitsOf imm 1 10 * 2 ^ 21 + bitsOf imm 11 1 * 2 ^ 20 + bitsOf imm 12 8 * 2 ^ 12 +
    rd * 2 ^ 7 + op

/-- The low `n` bits of a number, sign-extended to 21 bits. -/
def sext21 (v n : Nat) : Nat := ((BitVec.ofNat n v).signExtend 21).toNat

/-! ### The quadrants -/

/-- Quadrant 0: loads and stores of the eight compressed registers. -/
def expand0 (h : Nat) : Option Nat :=
  let r1 := 8 + bitsOf h 7 3
  let r2 := 8 + bitsOf h 2 3
  let offW := bitsOf h 10 3 * 8 + bitsOf h 6 1 * 4 + bitsOf h 5 1 * 64
  let offD := bitsOf h 10 3 * 8 + bitsOf h 5 2 * 64
  match bitsOf h 13 3 with
  | 0 =>
    let imm := bitsOf h 11 2 * 16 + bitsOf h 7 4 * 64 + bitsOf h 6 1 * 4 + bitsOf h 5 1 * 8
    if imm = 0 then none else some (rvI imm 2 0 r2 0x13)
  | 2 => some (rvI offW r1 2 r2 0x03)
  | 3 => some (rvI offD r1 3 r2 0x03)
  | 6 => some (rvS offW r2 r1 2 0x23)
  | 7 => some (rvS offD r2 r1 3 0x23)
  | _ => none

/-- The arithmetic of quadrant 1 on the compressed registers. -/
def expandAlu (h : Nat) : Option Nat :=
  let r1 := 8 + bitsOf h 7 3
  let r2 := 8 + bitsOf h 2 3
  let six := bitsOf h 12 1 * 32 + bitsOf h 2 5
  match bitsOf h 10 2 with
  | 0 => some (rvI six r1 5 r1 0x13)
  | 1 => some (rvI (six + 0x400) r1 5 r1 0x13)
  | 2 => some (rvI (sext21 six 6) r1 7 r1 0x13)
  | _ =>
    match bitsOf h 12 1 * 4 + bitsOf h 5 2 with
    | 0 => some (rvR 0x20 r2 r1 0 r1 0x33)
    | 1 => some (rvR 0 r2 r1 4 r1 0x33)
    | 2 => some (rvR 0 r2 r1 6 r1 0x33)
    | 3 => some (rvR 0 r2 r1 7 r1 0x33)
    | 4 => some (rvR 0x20 r2 r1 0 r1 0x3B)
    | 5 => some (rvR 0 r2 r1 0 r1 0x3B)
    | _ => none

/-- Quadrant 1: immediates, arithmetic, jumps and branches. -/
def expand1 (h : Nat) : Option Nat :=
  let rd := bitsOf h 7 5
  let r1 := 8 + bitsOf h 7 3
  let six := bitsOf h 12 1 * 32 + bitsOf h 2 5
  let jOff := bitsOf h 12 1 * 2048 + bitsOf h 11 1 * 16 + bitsOf h 9 2 * 256 + bitsOf h 8 1 * 1024 +
    bitsOf h 7 1 * 64 + bitsOf h 6 1 * 128 + bitsOf h 3 3 * 2 + bitsOf h 2 1 * 32
  let bOff := bitsOf h 12 1 * 256 + bitsOf h 10 2 * 8 + bitsOf h 5 2 * 64 + bitsOf h 3 2 * 2 + bitsOf h 2 1 * 32
  match bitsOf h 13 3 with
  | 0 => some (rvI (sext21 six 6) rd 0 rd 0x13)
  | 1 => if rd = 0 then none else some (rvI (sext21 six 6) rd 0 rd 0x1B)
  | 2 => some (rvI (sext21 six 6) 0 0 rd 0x13)
  | 3 =>
    if rd = 2 then
      let imm := bitsOf h 12 1 * 512 + bitsOf h 6 1 * 16 + bitsOf h 5 1 * 64 + bitsOf h 3 2 * 128 + bitsOf h 2 1 * 32
      if imm = 0 then none else some (rvI (sext21 imm 10) 2 0 2 0x13)
    else if six = 0 then none else some (rvU (sext21 six 6) rd 0x37)
  | 4 => expandAlu h
  | 5 => some (rvJ (sext21 jOff 12) 0 0x6F)
  | 6 => some (rvB (sext21 bOff 9) 0 r1 0 0x63)
  | _ => some (rvB (sext21 bOff 9) 0 r1 1 0x63)

/-- Quadrant 2: the stack pointer's loads and stores, moves and register jumps. -/
def expand2 (h : Nat) : Option Nat :=
  let rd := bitsOf h 7 5
  let r2 := bitsOf h 2 5
  match bitsOf h 13 3 with
  | 0 => some (rvI (bitsOf h 12 1 * 32 + r2) rd 1 rd 0x13)
  | 2 =>
    if rd = 0 then none
    else some (rvI (bitsOf h 12 1 * 32 + bitsOf h 4 3 * 4 + bitsOf h 2 2 * 64) 2 2 rd 0x03)
  | 3 =>
    if rd = 0 then none
    else some (rvI (bitsOf h 12 1 * 32 + bitsOf h 5 2 * 8 + bitsOf h 2 3 * 64) 2 3 rd 0x03)
  | 4 =>
    if bitsOf h 12 1 = 0 then
      if r2 = 0 then (if rd = 0 then none else some (rvI 0 rd 0 0 0x67)) else some (rvR 0 r2 0 0 rd 0x33)
    else if r2 = 0 then (if rd = 0 then some (rvI 1 0 0 0 0x73) else some (rvI 0 rd 0 1 0x67))
    else some (rvR 0 r2 rd 0 rd 0x33)
  | 6 => some (rvS (bitsOf h 9 4 * 4 + bitsOf h 7 2 * 64) r2 2 2 0x23)
  | 7 => some (rvS (bitsOf h 10 3 * 8 + bitsOf h 7 3 * 64) r2 2 3 0x23)
  | _ => none

/-- The 32-bit instruction a 16-bit one stands for; none where it is illegal. -/
def expandC (h : Nat) : Option Word :=
  (match h % 4 with
    | 0 => expand0 h
    | 1 => expand1 h
    | 2 => expand2 h
    | _ => none).map (BitVec.ofNat 32)

end Sys2Proof.Machine
end

