-- ==== Sys2Proof/Machine/Rv64.lean ====
section
/-!
DEFINITION. The base of a Saggar core (R74): RV64I, M and A, the control and status registers, and machine and user mode.
R74 names them and does not describe them: their meaning is that of the RISC-V unprivileged architecture and of version
1.12 of the privileged one, with machine and user mode, no translation, no protection entry and no interrupt pending
(PRESUMED, log entry 5).
-/

namespace Sys2Proof.Machine

/-- What an instruction of the base does: the core's next state, an exception, or an access to what the spec does not
describe. -/
inductive RvRes
  | ok (c : SCore)
  | exc (cause tval : DWord)
  | outside (addr : Nat)

/-! ### Fields and immediates -/

def rvRd (iw : Word) : XReg := ⟨bitsOf iw.toNat 7 5, Nat.mod_lt _ (by decide)⟩
def rvRs1 (iw : Word) : XReg := ⟨bitsOf iw.toNat 15 5, Nat.mod_lt _ (by decide)⟩
def rvRs2 (iw : Word) : XReg := ⟨bitsOf iw.toNat 20 5, Nat.mod_lt _ (by decide)⟩
def rvF3 (iw : Word) : Nat := bitsOf iw.toNat 12 3
def rvF7 (iw : Word) : Nat := bitsOf iw.toNat 25 7

def immI (iw : Word) : DWord := (iw.extractLsb' 20 12).signExtend 64
def immS (iw : Word) : DWord := (iw.extractLsb' 25 7 ++ iw.extractLsb' 7 5).signExtend 64
def immB (iw : Word) : DWord :=
  (iw.extractLsb' 31 1 ++ iw.extractLsb' 7 1 ++ iw.extractLsb' 25 6 ++ iw.extractLsb' 8 4 ++ 0#1).signExtend 64
def immU (iw : Word) : DWord := (iw.extractLsb' 12 20 ++ 0#12).signExtend 64
def immJ (iw : Word) : DWord :=
  (iw.extractLsb' 31 1 ++ iw.extractLsb' 12 8 ++ iw.extractLsb' 20 1 ++ iw.extractLsb' 21 10 ++ 0#1).signExtend 64

/-! ### Arithmetic -/

/-- The operations of OP and OP-IMM; `alt` is bit 30 of the instruction. -/
def rvAlu (f3 : Nat) (alt : Bool) (a b : DWord) : DWord :=
  match f3 with
  | 0 => if alt then a - b else a + b
  | 1 => a <<< (b.toNat % 64)
  | 2 => if a.slt b then 1 else 0
  | 3 => if a.ult b then 1 else 0
  | 4 => a ^^^ b
  | 5 => if alt then a.sshiftRight (b.toNat % 64) else a >>> (b.toNat % 64)
  | 6 => a ||| b
  | _ => a &&& b

/-- The operations on 32 bits; the result is sign-extended. -/
def rvAluW (f3 : Nat) (alt : Bool) (a b : Word) : Option DWord :=
  match f3 with
  | 0 => some ((if alt then a - b else a + b).signExtend 64)
  | 1 => some ((a <<< (b.toNat % 32)).signExtend 64)
  | 5 => some ((if alt then a.sshiftRight (b.toNat % 32) else a >>> (b.toNat % 32)).signExtend 64)
  | _ => none

/-- Quotient and remainder of signed and of unsigned values: a divisor of zero gives minus one and the dividend. -/
def rvDivRem {n : Nat} (f3 : Nat) (a b : BitVec n) : BitVec n :=
  match f3 with
  | 4 => if b = 0 then BitVec.allOnes n else BitVec.ofInt n (a.toInt.tdiv b.toInt)
  | 5 => if b = 0 then BitVec.allOnes n else a / b
  | 6 => if b = 0 then a else BitVec.ofInt n (a.toInt.tmod b.toInt)
  | _ => if b = 0 then a else a % b

/-- The M extension's operations. -/
def rvMul (f3 : Nat) (a b : DWord) : DWord :=
  match f3 with
  | 0 => a * b
  | 1 => BitVec.ofInt 64 (a.toInt * b.toInt / 2 ^ 64)
  | 2 => BitVec.ofInt 64 (a.toInt * b.toNat / 2 ^ 64)
  | 3 => BitVec.ofNat 64 (a.toNat * b.toNat / 2 ^ 64)
  | f => rvDivRem f a b

/-- The M extension's operations on 32 bits. -/
def rvMulW (f3 : Nat) (a b : Word) : Option DWord :=
  match f3 with
  | 0 => some ((a * b).signExtend 64)
  | 1 => none
  | 2 => none
  | 3 => none
  | f => some ((rvDivRem f a b).signExtend 64)

/-- The condition of a branch; none for an encoding that names none. -/
def rvCond (f3 : Nat) (a b : DWord) : Option Bool :=
  match f3 with
  | 0 => some (a == b)
  | 1 => some (a != b)
  | 4 => some (a.slt b)
  | 5 => some (!a.slt b)
  | 6 => some (a.ult b)
  | 7 => some (!a.ult b)
  | _ => none

/-! ### Local memory -/

/-- The little-endian number at an address of local memory. -/
def SCore.load (c : SCore) (a n : Nat) : Nat := leNat (Memory.bytes c.mem a n)
/-- Store the low `n` bytes of a value. -/
def SCore.store (c : SCore) (a n : Nat) (v : DWord) : SCore :=
  { c with mem := Memory.putBytes c.mem a (leBytes n v.toNat) }

/-- A loaded number of `n` bytes as a register holds it: zero-extended, or sign-extended. -/
def rvExtend (n : Nat) (unsigned : Bool) (v : Nat) : DWord :=
  if unsigned then BitVec.ofNat 64 v else (BitVec.ofNat (8 * n) v).signExtend 64

/-! ### Control and status registers -/

def rvBit (b : Bool) (n : Nat) : DWord := if b then BitVec.ofNat 64 (2 ^ n) else 0

/-- mstatus: MIE, MPIE, MPP, MPRV, TW, and UXL of 2. -/
def SCore.mstatus (c : SCore) : DWord :=
  rvBit c.mie 3 ||| rvBit c.mpie 7 ||| rvBit c.mpp 11 ||| rvBit c.mpp 12 ||| rvBit c.mprv 17 ||| rvBit c.tw 21 |||
    rvBit true 33

/-- A write of mstatus; an MPP that names no mode of the core leaves MPP as it was. -/
def SCore.setMstatus (c : SCore) (v : DWord) : SCore :=
  let mpp := match bitsOf v.toNat 11 2 with
    | 0 => false
    | 3 => true
    | _ => c.mpp
  { c with mie := v.getLsbD 3, mpie := v.getLsbD 7, mpp := mpp, mprv := v.getLsbD 17, tw := v.getLsbD 21 }

/-- RV64, with A, C, I, M and U. -/
def misaValue : DWord := rvBit true 63 ||| rvBit true 0 ||| rvBit true 2 ||| rvBit true 8 ||| rvBit true 12 ||| rvBit true 20

/-- The value of a register, by its number; none where the core has no such register. `free` is a number the spec leaves
open: the clock cycles and the time. -/
def SCore.readCsr (c : SCore) (hart free n : Nat) : Option DWord :=
  match n with
  | 0x300 => some c.mstatus
  | 0x301 => some misaValue
  | 0x304 => some c.mieBits
  | 0x305 => some c.mtvec
  | 0x306 => some (c.mcounteren.setWidth 64)
  | 0x30A => some (rvBit c.fiom 0)
  | 0x320 => some 0
  | 0x340 => some c.mscratch
  | 0x341 => some c.mepc
  | 0x342 => some c.mcause
  | 0x343 => some c.mtval
  | 0x344 => some 0
  | 0xB00 => some (BitVec.ofNat 64 free)
  | 0xB02 => some c.instret
  | 0xC00 => some (BitVec.ofNat 64 free)
  | 0xC01 => some (BitVec.ofNat 64 free)
  | 0xC02 => some c.instret
  | 0xF14 => some (BitVec.ofNat 64 hart)
  | n =>
    let zero := (0x323 ≤ n ∧ n ≤ 0x33F) ∨ (0x3A0 ≤ n ∧ n ≤ 0x3AF ∧ n % 2 = 0) ∨ (0x3B0 ≤ n ∧ n ≤ 0x3EF) ∨
      (0xB03 ≤ n ∧ n ≤ 0xB1F) ∨ (0xC03 ≤ n ∧ n ≤ 0xC1F) ∨ (0xF11 ≤ n ∧ n ≤ 0xF15)
    if zero then some 0 else none

/-- A write of a register: the fields that hold what is written; the others stay as they read. -/
def SCore.writeCsr (c : SCore) (n : Nat) (v : DWord) : SCore :=
  match n with
  | 0x300 => c.setMstatus v
  | 0x304 => { c with mieBits := v &&& 0x888 }
  | 0x305 => { c with mtvec := v &&& ~~~(2 : DWord) }
  | 0x306 => { c with mcounteren := v.setWidth 32 }
  | 0x30A => { c with fiom := v.getLsbD 0 }
  | 0x340 => { c with mscratch := v }
  | 0x341 => { c with mepc := v &&& ~~~(1 : DWord) }
  | 0x342 => { c with mcause := v }
  | 0x343 => { c with mtval := v }
  | 0xB02 => { c with instret := v - 1 }
  | _ => c

/-- The mode may access the register: user mode only the counters mcounteren enables. -/
def SCore.mayCsr (c : SCore) (n : Nat) : Bool :=
  c.machine || (decide (0xC00 ≤ n ∧ n ≤ 0xC1F) && c.mcounteren.getLsbD (n - 0xC00))

/-! ### Execution -/

/-- The instruction writes `rd` and goes on behind its `len` bytes. -/
def SCore.advance (c : SCore) (rd : XReg) (v : DWord) (len : Nat) : RvRes :=
  let y := c.wr rd v
  .ok { y with pc := y.pc + BitVec.ofNat 64 len }

/-- CSRRW, CSRRS, CSRRC and their immediate forms. -/
def rvCsr (c : SCore) (hart free : Nat) (iw : Word) (len : Nat) (ill : RvRes) : RvRes :=
  let n := bitsOf iw.toNat 20 12
  let f3 := rvF3 iw
  let src : DWord := if 4 ≤ f3 then BitVec.ofNat 64 (rvRs1 iw).val else c.rd (rvRs1 iw)
  let writes := f3 % 4 == 1 || (rvRs1 iw).val != 0
  if f3 % 4 = 0 ∨ !c.mayCsr n ∨ (writes && decide (0xC00 ≤ n)) then ill
  else
    match c.readCsr hart free n with
    | none => ill
    | some old =>
      let v := match f3 % 4 with
        | 1 => src
        | 2 => old ||| src
        | _ => old &&& ~~~src
      (if writes then c.writeCsr n v else c).advance (rvRd iw) old len

/-- ECALL, EBREAK, MRET and WFI. -/
def rvSystem (c : SCore) (free : Nat) (iw : Word) (len : Nat) (ill : RvRes) : RvRes :=
  match iw.toNat with
  | 0x00000073 => .exc (if c.machine then 11 else 8) 0
  | 0x00100073 => .exc 3 (if free % 2 = 0 then 0 else c.pc)
  | 0x30200073 =>
    if !c.machine then ill
    else .ok { c with pc := c.mepc, machine := c.mpp, mie := c.mpie, mpie := true, mpp := false
                      mprv := c.mprv && c.mpp }
  | 0x10500073 => if !c.machine && c.tw then ill else c.advance 0 0 len
  | _ => ill

/-- The value an AMO stores, of `n` bits. -/
def rvAmo {n : Nat} (f5 : Nat) (old b : BitVec n) : Option (BitVec n) :=
  match f5 with
  | 0x01 => some b
  | 0x00 => some (old + b)
  | 0x04 => some (old ^^^ b)
  | 0x08 => some (old ||| b)
  | 0x0C => some (old &&& b)
  | 0x10 => some (if old.slt b then old else b)
  | 0x14 => some (if old.slt b then b else old)
  | 0x18 => some (if old.ult b then old else b)
  | 0x1C => some (if old.ult b then b else old)
  | _ => none

/-- The A extension on `n` bytes: LR, SC and the AMOs. An SC whose bytes are reserved may still fail: which it does is
open. -/
def rvAtomic (c : SCore) (free : Nat) (iw : Word) (len n : Nat) (ill : RvRes) : RvRes :=
  let a := (c.rd (rvRs1 iw)).toNat
  let f5 := rvF7 iw / 4
  let b := c.rd (rvRs2 iw)
  let lr := f5 == 2
  if lr && (rvRs2 iw).val != 0 then ill
  else if !lr && f5 != 3 && (rvAmo f5 b b).isNone then ill
  else if a % n ≠ 0 then .exc (if lr then 4 else 6) (BitVec.ofNat 64 a)
  else if !inLocal a n then .outside a
  else
    let old := rvExtend n false (c.load a n)
    if lr then SCore.advance { c with resv := some (a, n) } (rvRd iw) old len
    else if f5 = 3 then
      let holds := match c.resv with
        | some (r, m) => decide (r ≤ a ∧ a + n ≤ r + m) && free % 2 == 0
        | none => false
      let y := { c with resv := none }
      if holds then (y.store a n b).advance (rvRd iw) 0 len else y.advance (rvRd iw) 1 len
    else
      let v := if n = 4 then (rvAmo f5 (old.setWidth 32) (b.setWidth 32)).map (BitVec.setWidth 64) else rvAmo f5 old b
      match v with
      | some v => (c.store a n v).advance (rvRd iw) old len
      | none => ill

/-- OP-IMM and OP-IMM-32: a shift names its amount in the immediate. -/
def rvOpImm (c : SCore) (iw : Word) (len : Nat) (ill : RvRes) : RvRes :=
  let f3 := rvF3 iw
  let shift := f3 = 1 ∨ f3 = 5
  let top := bitsOf iw.toNat 26 6
  if shift ∧ !(top == 0 || (top == 16 && f3 == 5)) then ill
  else c.advance (rvRd iw) (rvAlu f3 (shift && top == 16) (c.rd (rvRs1 iw)) (immI iw)) len

def rvOpImmW (c : SCore) (iw : Word) (len : Nat) (ill : RvRes) : RvRes :=
  let f3 := rvF3 iw
  let shift := f3 = 1 ∨ f3 = 5
  let f7 := rvF7 iw
  if shift ∧ !(f7 == 0 || (f7 == 32 && f3 == 5)) then ill
  else
    match rvAluW f3 (shift && f7 == 32) ((c.rd (rvRs1 iw)).setWidth 32) ((immI iw).setWidth 32) with
    | some v => c.advance (rvRd iw) v len
    | none => ill

/-- OP and OP-32. -/
def rvOp (c : SCore) (iw : Word) (len : Nat) (ill : RvRes) : RvRes :=
  let f3 := rvF3 iw
  let a := c.rd (rvRs1 iw)
  let b := c.rd (rvRs2 iw)
  match rvF7 iw with
  | 0 => c.advance (rvRd iw) (rvAlu f3 false a b) len
  | 32 => if f3 = 0 ∨ f3 = 5 then c.advance (rvRd iw) (rvAlu f3 true a b) len else ill
  | 1 => c.advance (rvRd iw) (rvMul f3 a b) len
  | _ => ill

def rvOpW (c : SCore) (iw : Word) (len : Nat) (ill : RvRes) : RvRes :=
  let f3 := rvF3 iw
  let a := (c.rd (rvRs1 iw)).setWidth 32
  let b := (c.rd (rvRs2 iw)).setWidth 32
  let r := match rvF7 iw with
    | 0 => rvAluW f3 false a b
    | 32 => if f3 = 0 ∨ f3 = 5 then rvAluW f3 true a b else none
    | 1 => rvMulW f3 a b
    | _ => none
  match r with
  | some v => c.advance (rvRd iw) v len
  | none => ill

def rvLoad (c : SCore) (iw : Word) (len : Nat) (ill : RvRes) : RvRes :=
  let f3 := rvF3 iw
  let a := (c.rd (rvRs1 iw) + immI iw).toNat
  let n := 2 ^ (f3 % 4)
  if f3 = 7 then ill
  else if !inLocal a n then .outside a
  else c.advance (rvRd iw) (rvExtend n (decide (4 ≤ f3)) (c.load a n)) len

def rvStore (c : SCore) (iw : Word) (len : Nat) (ill : RvRes) : RvRes :=
  let f3 := rvF3 iw
  let a := (c.rd (rvRs1 iw) + immS iw).toNat
  let n := 2 ^ f3
  if 4 ≤ f3 then ill
  else if !inLocal a n then .outside a
  else (c.store a n (c.rd (rvRs2 iw))).advance 0 0 len

/-- A jump to `target` that leaves the address behind it in `rd`. -/
def rvJump (c : SCore) (rd : XReg) (target : DWord) (len : Nat) : RvRes :=
  .ok { c.wr rd (c.pc + BitVec.ofNat 64 len) with pc := target }

/-- An instruction of the base, of `len` bytes; `raw` is what mtval receives where it is illegal, and `free` a number the
spec leaves open. -/
def rvExec (c : SCore) (hart free : Nat) (iw : Word) (len : Nat) (raw : DWord) : RvRes :=
  let ill : RvRes := .exc 2 raw
  match bitsOf iw.toNat 0 7 with
  | 0x37 => c.advance (rvRd iw) (immU iw) len
  | 0x17 => c.advance (rvRd iw) (c.pc + immU iw) len
  | 0x6F => rvJump c (rvRd iw) (c.pc + immJ iw) len
  | 0x67 => if rvF3 iw = 0 then rvJump c (rvRd iw) ((c.rd (rvRs1 iw) + immI iw) &&& ~~~(1 : DWord)) len else ill
  | 0x63 =>
    match rvCond (rvF3 iw) (c.rd (rvRs1 iw)) (c.rd (rvRs2 iw)) with
    | some true => .ok { c with pc := c.pc + immB iw }
    | some false => c.advance 0 0 len
    | none => ill
  | 0x03 => rvLoad c iw len ill
  | 0x23 => rvStore c iw len ill
  | 0x13 => rvOpImm c iw len ill
  | 0x1B => rvOpImmW c iw len ill
  | 0x33 => rvOp c iw len ill
  | 0x3B => rvOpW c iw len ill
  | 0x0F => if rvF3 iw ≤ 1 then c.advance 0 0 len else ill
  | 0x2F =>
    match rvF3 iw with
    | 2 => rvAtomic c free iw len 4 ill
    | 3 => rvAtomic c free iw len 8 ill
    | _ => ill
  | 0x73 => if rvF3 iw = 0 then rvSystem c free iw len ill else rvCsr c hart free iw len ill
  | _ => ill

/-- Core `co` executes the instruction of the base at its pc. -/
def saggarBase (s : State) (co : Nat) (iw : Word) (len : Nat) (raw : DWord) : State ⊕ Nat :=
  let c := s.saggar.core co
  let (free, d) := freeNat s.dev
  let put (x : SCore) : State ⊕ Nat := .inl { s with dev := d, saggar := s.saggar.setCore co x }
  match rvExec c co free iw len raw with
  | .ok x => put { x with instret := x.instret + 1 }
  | .exc cause tval => put (c.trap cause tval)
  | .outside a => .inr a

end Sys2Proof.Machine
end

