-- ==== Sys2Proof/Machine/Fetch.lean ====
section
/-!
DEFINITION. From an action to the instruction it brings to execution: an event, an issued word (R111, R112), a Saggar
core's word (R74); and laying out an instruction where the next step fetches it.
-/

namespace Sys2Proof.Machine

/-! ### Actions -/

/-- What an action brings: an instruction with the state it executes in, a state, or a stop. -/
inductive Brought
  | run (i : Instr) (s : State)
  | done (s : State)
  | fault (f : Fault)
  | refuse (r : Refusal)

/-- A step of the device's agents: not an instruction of a thread or of a Saggar core, nor the forming of a group, which
its quarter selects (R112). -/
def isEvent (i : Instr) : Bool :=
  match i with
  | .rfetch .. | .bfext .. | .swait .. | .wdisp .. | .issueGroupForm .. => false
  | i => i.cls.isNone

/-- One instruction of a Saggar core: a custom-0 word executes in machine mode and raises the illegal-instruction
exception otherwise (R74); any other is of the base. -/
def bringSaggar (s : State) (co : Nat) : Brought :=
  let c := s.saggar.core co
  let iw := c.word
  let len := if iw.toNat % 4 = 3 then 4 else 2
  let base (iw : Word) (len : Nat) (raw : DWord) : Brought :=
    match saggarBase s co iw len raw with
    | .inl t => .done t
    | .inr a => .fault (.saggarAccess a)
  if !s.saggar.on || decide (8 ≤ co) || c.wait.isSome then .done s
  else if !inLocal c.pc.toNat len then .fault (.saggarFetch c.pc)
  else if len = 2 then
    let h := iw.toNat % 2 ^ 16
    match expandC h with
    | some x => base x 2 (BitVec.ofNat 64 h)
    | none => .done { s with saggar := s.saggar.setCore co (c.trap 2 (BitVec.ofNat 64 h)) }
  else if iw.extractLsb' 0 7 != 0x0B#7 then base iw 4 (iw.setWidth 64)
  else
    match if c.machine then decodeSaggar iw else none with
    | some i => .run i { s with saggar := { s.saggar with cur := co } }
    | none => .done { s with saggar := s.saggar.setCore co (c.trap 2 (iw.setWidth 64)) }

/-- The state in which an instruction executes whose accesses end after `n` sectors, or are all done (R200). -/
def cutAt (s : State) (n : Option Nat) : State := { s with dev := { s.dev with cut := n } }

/-- A quarter's front-end clock: issue on a cluster in retention does not happen (R424, R430). -/
def bringIssue (s : State) (co q : Nat) (cut : Option Nat) : Brought :=
  if Config.cores ≤ co ∨ 4 ≤ q ∨ (NMap.get {} s.power.clusters (clusterOf co)).ret then .done s
  else
    match issueQuarter s.dev co q with
    | (d, some i) => .run i (cutAt { s with dev := d } cut)
    | (d, none) => .done { s with dev := d }

/-- The accesses of one node take effect in their order of arrival: an event that is a node's access does not happen while an
earlier one of its own is under way (R404, R409). -/
def arrived (dev : Device) : Instr → Bool
  | .apertureAccess node c off write data => !behindAperture dev node fun p => p.goesOn node c off write data
  | .doorbell node .. | .qenWrite node .. | .queueRegisterWrite node .. | .contextCreate node _ | .contextDestroy node _
  | .translationInvalidate node _ | .frrdWrite node .. | .answerMapped node _ | .answerDeclined node _ | .rdidxWrite node ..
  | .plimitWrite node _ | .fbbaseWrite node _ | .handoverStart node | .handoverCommit node | .handoverAbort node
  | .attestationRequest node | .managementRegisterWrite node .. => !behindAperture dev node fun _ => false
  | _ => true

/-- The same of an access of the fabric range. -/
def fabricArrived (s : State) (node a : Nat) (write : Bool) (data : List Byte) : Bool :=
  !behindAperture s.dev node fun p =>
    match fabricPlace (a - s.mgmt.fbbase.toNat) with
    | .aperture c off => decide (s.mgmt.fbbase.toNat ≤ a) && p.goesOn node c (BitVec.ofNat 64 off) write data
    | _ => false

/-- An event of the device's agents or of a node, whole or up to its `n`th sector. -/
def bringEvent (s : State) (i : Instr) (n : Option Nat) : Brought :=
  if isEvent i && arrived s.dev i then .run i (cutAt s n) else .done s

/-- What an action brings. -/
def bring (s : State) : Action → Brought
  | .event i => bringEvent s i none
  | .eventCut i n => bringEvent s i (some n)
  | .issue co q => bringIssue s co q none
  | .issueCut co q n => bringIssue s co q (some n)
  | .saggar co => bringSaggar s co
  | .time n => .done { s with dev := timePasses s.dev n }
  | .clocks cl n =>
    if Config.clusters ≤ cl then .done s else .done { s with dev := clusterClocks s.dev cl n }
  | .host a bs => .done { s with dev := { s.dev with host := Memory.putBytes s.dev.host a bs } }
  | .signal co m =>
    if 8 ≤ co then .done s
    else
      let c := s.saggar.core co
      .done { s with saggar := s.saggar.setCore co { c with sig := c.sig ||| m } }
  | .fabric node a write data =>
    .done (if fabricArrived s node a write data then fabricAccess (cutAt s none) node a write data else s)

/-! ### Placing an instruction -/

/-- A table with an identity leaf of 1 GiB, writable and executable, at virtual and physical address 0 (R190). -/
def placePages (mem : Memory) : Memory :=
  Memory.putBytes (Memory.putBytes mem 0x200000 (leBytes 8 (0x400000 + 1))) 0x400000 (leBytes 8 0x1D)

/-- A device with one wave of 128 registers on core 0, whose one thread stands at a clause of the two words at 0x1000,
formed into a group. -/
def placeDevice (dev : Device) (h w : DWord) : Device :=
  let mem := Memory.putBytes (placePages dev.mem) 0x1000 (leBytes 8 h.toNat ++ leBytes 8 w.toNat)
  let t : Thread := { pc := mkPc 0x1000 0 }
  let g : Group := { clause := 0x1000, hdr := Header.of h, index := 0, lanes := [0] }
  let x : Wave := { wg := 1, ctx := 0, launch := 1, live := true, resident := true, core := 0, slot := 0, regs := 128
                    threads := [(0, t)], groups := [(0, g)], nextGroup := 1 }
  { dev with
    mem := mem
    ctxs := [(0, { cstate := 1, qcount := 1, ptroot := 0x200000, cls := 3 })]
    launches := [(1, { state := .released, cls := 3, nextWg := 1, liveWgs := 1, hdr := { regs := 128, extents := [1, 1, 1, 1, 1, 1] } })]
    wgs := [(1, { launch := 1, live := true, resident := true, waves := [1] })]
    waves := [(1, x)]
    cores := []
    nextId := max dev.nextId 2 }

/-- Lay out an instruction so that the next step runs it: a Saggar word in core 0's local memory at its pc; a longer
one as a clause that a thread stands at. -/
def placeWord (s : State) (nbits w : Nat) : State :=
  if nbits ≤ 32 then
    let c := s.saggar.core 0
    let c1 := { c with machine := true, wait := none, mem := Memory.putBytes c.mem c.pc.toNat (leBytes 4 w) }
    { s with saggar := { (s.saggar.setCore 0 c1) with on := true }, agenda := [.saggar 0] }
  else
    { s with dev := placeDevice s.dev (BitVec.ofNat 64 w) (BitVec.ofNat 64 (w / 2 ^ 64)), agenda := [.issue 0 0] }

end Sys2Proof.Machine
end

