-- ==== Sys2Proof/Machine/Step.lean ====
section
/-!
DEFINITION. One step of the machine: the next action of the agenda, or a free one (R4, R113, R194), brings an
instruction, which executes.
-/

namespace Sys2Proof.Machine

/-- What was brought executes. -/
def finish : Brought → Host.Outcome State Fault Refusal
  | .run i s => exec i s
  | .done s => .next s
  | .fault f => .fault f
  | .refuse r => .refused r

/-- The action a step takes, and the state without it. -/
def nextAction (s : State) : Action × State :=
  match s.agenda with
  | a :: r => (a, { s with agenda := r })
  | [] => (Config.freeAction s.turns, { s with turns := s.turns + 1 })

def step (s : State) : Host.Outcome State Fault Refusal :=
  let (a, t) := nextAction s
  finish (bring t a)

/-- The state with an instruction laid out for the next step. -/
def State.withFetchWord (s : State) (nbits w : Nat) : State := placeWord s nbits w

end Sys2Proof.Machine
end

