-- ==== Sys2Proof/Safety.lean ====
section
/-!
DEFINITION. The terms in which claims about the machine are made: when a group stands at an instruction, what its having
finished one means, what registers hold, what a step leaves alone, and the invariants of runs.
-/

namespace Sys2Proof.Machine

/-! ### A group at an instruction -/

/-- The wave and the issue group whose instruction is issuing (R94, R95): `x` and `y`, the instruction new to the group,
its members present and running. -/
structure Issues (s : State) (x : Wave) (y : Group) : Prop where
  wave : NMap.find? s.dev.waves s.dev.cur.1 = some x
  group : NMap.find? x.groups s.dev.cur.2 = some y
  fresh : y.began = false
  nodup : y.lanes.Nodup
  here : ∀ l ∈ y.lanes, (NMap.find? x.threads l).isSome

/-- The wave whose instruction was issuing at `s`, as it is in `s'`. -/
def after (s s' : State) : Wave := wave s'.dev s.dev.cur.1

/-- Registers `d`, `d + 1`, … of a thread, `n` of them. -/
def regsOf (x : Wave) (l : Nat) (d : Reg) (n : Nat) : List Word := (List.range n).map fun i => rdReg x (thread x l) d i

/-- A group at the next instruction of its clause, which is new to it. -/
def Group.next (y : Group) : Group :=
  { y with index := y.index + 1, began := false, lead := none, iw := none, s0 := [], d0 := [], mask := 0, ord := 0
           after := none, asked := [] }

/-- The group has passed its instruction: it stands at the next one of the clause, or its members at the next clause,
waiting for nothing (R93, R95). -/
def Passed (s s' : State) (y : Group) : Prop :=
  if y.index < y.hdr.count then
    NMap.find? (after s s').groups s.dev.cur.2 = some y.next
  else
    NMap.find? (after s s').groups s.dev.cur.2 = none ∧
    ∀ l ∈ y.lanes, (thread (after s s') l).pc = nextClause y ∧ (thread (after s s') l).wait = .none

/-- Instruction `i` executes, in every group, as one whose members only compute: the group passes it, and a member whose
predicate holds has in `d` (an s destination: the lowest such member) the words that `f` gives of the state before (R104,
R108, R111). -/
def Gives (i : Instr) (p : Pred) (d : Reg) (f : Wave → Thread → List Word) : Prop :=
  ∀ s x y l t, Issues s x y → l ∈ y.lanes → NMap.find? x.threads l = some t → performs p t = true →
    ((∃ k, d = .v k) ∨ (performers x y p).head? = some l) →
    ∃ s', exec i s = .next s' ∧ Passed s s' y ∧ regsOf (after s s') l d (f x t).length = f x t

/-- The same, the `n` words in `d` being related by `R` to the state before. -/
def GivesSuch (i : Instr) (p : Pred) (d : Reg) (n : Nat) (R : Wave → Thread → List Word → Prop) : Prop :=
  ∀ s x y l t, Issues s x y → l ∈ y.lanes → NMap.find? x.threads l = some t → performs p t = true →
    ((∃ k, d = .v k) ∨ (performers x y p).head? = some l) →
    ∃ s', exec i s = .next s' ∧ Passed s s' y ∧ R x t (regsOf (after s s') l d n)

/-- The same of an instruction that writes condition bit `c`. -/
def GivesBit (i : Instr) (p : Pred) (c : CBit) (f : Wave → Thread → Bool) : Prop :=
  ∀ s x y l t, Issues s x y → l ∈ y.lanes → NMap.find? x.threads l = some t → performs p t = true →
    ∃ s', exec i s = .next s' ∧ Passed s s' y ∧ cbit (thread (after s s') l) c = f x t

/-- The same of an instruction that gives a word and raises flags: each raised flag stands in FPFLAGS, and no flag that
stood there falls (R38). -/
def GivesFloat (i : Instr) (p : Pred) (d : Reg) (f : Wave → Thread → Word × BitVec 6) : Prop :=
  ∀ s x y l t, Issues s x y → l ∈ y.lanes → NMap.find? x.threads l = some t → performs p t = true →
    ((∃ k, d = .v k) ∨ (performers x y p).head? = some l) →
    ∃ s', exec i s = .next s' ∧ Passed s s' y ∧ regsOf (after s s') l d 1 = [(f x t).1] ∧
      (after s s').fpflags ||| (f x t).2.setWidth 32 ||| x.fpflags = (after s s').fpflags

/-- One thread `t`, lane `l` of wave `x`, is alone in the wave's only group, at its instruction, which is executed whole
(R200), none of its events behind it; no other thread stands within that instruction, no gathering of the wave is open, no
fault of it is unsettled. -/
structure Alone (s : State) (x : Wave) (y : Group) (l : Nat) (t : Thread) : Prop where
  wave : NMap.find? s.dev.waves s.dev.cur.1 = some x
  groups : x.groups = [(s.dev.cur.2, y)]
  fresh : y.began = false
  lanes : y.lanes = [l]
  thread : NMap.find? x.threads l = some t
  running : t.run = .run ∧ t.wait = .none
  lane : l < 64
  index : y.index < 16
  quiet : x.gathers = [] ∧ x.first = none ∧ x.fatal = none
  whole : s.dev.cut = none ∧ y.after = none
  own : ∀ m u, (m, u) ∈ x.threads → m ≠ l → u.inst.map Issued.ord ≠ some y.ord

/-- Every member of the group stands at the next clause, waiting for nothing, outside every group of the wave that was
its own (R95, R153). -/
def Left (s s' : State) (y : Group) (tgt : Nat → DWord) : Prop :=
  NMap.find? (after s s').groups s.dev.cur.2 = none ∧
  ∀ l ∈ y.lanes, (thread (after s s') l).pc = tgt l ∧ (thread (after s s') l).wait = .none

/-! ### What an instruction may change -/

/-- The destination of an instruction that changes nothing but its members' registers, their place and their waiting: a
register with how many words it takes, and a condition bit; none for every other instruction. -/
def computes : Instr → Option (Option (Reg × Nat) × Option CBit)
  | .iadd t _ _ d _ _ | .isub t _ _ d _ _ | .imul t _ _ d _ _ => some (some (d, ITy.n t), none)
  | .imulh _ _ d _ _ => some (some (d, 1), none)
  | .imad t _ _ d _ _ _ => some (some (d, ITy.n t), none)
  | .imin t _ d _ _ | .imax t _ d _ _ => some (some (d, ITy.n t), none)
  | .iabs w _ _ d _ | .ineg w _ _ d _ => some (some (d, wn w), none)
  | .and w _ d _ _ | .or w _ d _ _ | .xor w _ d _ _ | .andn w _ d _ _ => some (some (d, wn w), none)
  | .not w _ d _ | .brev w _ d _ => some (some (d, wn w), none)
  | .shl w _ d _ _ | .shr w _ d _ _ | .sar w _ d _ _ | .rotl w _ d _ _ => some (some (d, wn w), none)
  | .bfx t _ d _ _ => some (some (d, ITy.n t), none)
  | .bfi w _ d _ _ _ => some (some (d, wn w), none)
  | .popc _ _ d _ | .clz _ _ d _ | .ctz _ _ d _ | .permb _ d _ _ _ => some (some (d, 1), none)
  | .icmp _ _ _ c _ _ | .clog _ _ c _ _ | .vtoc _ _ c _ | .fcmp _ _ _ _ _ c _ _ => some (none, some c)
  | .sel w _ _ d _ _ => some (some (d, wn w), none)
  | .mov w _ d _ => some (some (d, MovW.n w), none)
  | .movi w d _ => some (some (d, wn w), none)
  | .movw d _ _ | .ctov _ _ _ d => some (some (d, 2), none)
  | .t3pk _ d _ => some (some (d, 1), none)
  | .t3un q _ d _ => some (some (d, 2), some q)
  | .fadd _ _ _ _ _ _ d _ _ | .fsub _ _ _ _ _ _ d _ _ | .fmul _ _ _ _ _ _ d _ _ | .ffma _ _ _ _ _ _ _ d _ _ _ =>
    some (some (d, 1), none)
  | .fmin _ _ _ _ d _ _ | .fmax _ _ _ _ d _ _ | .fminn _ _ _ _ d _ _ | .fmaxn _ _ _ _ d _ _ => some (some (d, 1), none)
  | .fclass _ _ _ d _ | .frnd _ _ _ _ d _ => some (some (d, 1), none)
  | .frcp _ _ _ d _ | .frsq _ _ _ d _ | .fsqrt _ _ _ d _ => some (some (d, 1), none)
  | .fexp2 _ _ d _ | .flog2 _ _ d _ | .fsin _ _ d _ | .fcos _ _ d _ => some (some (d, 1), none)
  | .hadd2 _ _ _ _ _ d _ _ | .hmul2 _ _ _ _ _ d _ _ | .badd2 _ _ _ _ _ d _ _ => some (some (d, 1), none)
  | .hfma2 _ _ _ _ _ _ d _ _ _ | .bfma2 _ _ _ _ _ _ d _ _ _ => some (some (d, 1), none)
  | .hmin2 _ _ _ d _ _ | .hmax2 _ _ _ d _ _ | .vdot8 _ _ _ _ _ d _ _ _ => some (some (d, 1), none)
  | .cvt td _ _ _ _ d _ => some (some (d, CTy.n td), none)
  | .pack2 _ _ _ _ _ _ d _ _ => some (some (d, 1), none)
  | .okey _ _ _ d _ _ => some (some (d, 2), none)
  | .dget _ _ d _ => some (some (d, 1), none)
  | .bra _ | .brc _ _ _ | .jmpi _ _ | .ret _ _ | .nop _ | .sleep _ _ | .pref _ _ _ _ _ => some (none, none)
  | .call d _ | .calli _ d _ => some (some (d, 2), none)
  | .evtest _ (.bit c) _ => some (none, some c)
  | .evtest _ (.word d) _ => some (some (d, 1), none)
  | .movs n _ d => if n = .ticks then none else some (some (d, SReg.n n), none)
  | _ => none

/-- Register `r` at place `i` is none of the registers written. -/
def untouched (D : Option (Reg × Nat)) (r : Reg) : Bool :=
  match D, r with
  | some (.v n, k), .v m => decide (m.val < n.val ∨ n.val + k ≤ m.val)
  | some (.s n, k), .s m => decide (m.val < n.val ∨ n.val + k ≤ m.val)
  | _, _ => true

/-- Barrier slot and ring slot of an instruction on an object, and its destination. -/
def onBarrier : Instr → Option (Slot × Reg × Nat)
  | .barrive _ sl _ d | .bwait _ sl _ d | .bsync _ sl _ d | .bdrop _ sl _ d | .bexpect _ sl _ d _ => some (sl, d, 1)
  | .bquery _ _ sl _ d => some (sl, d, 4)
  | _ => none

def onRing : Instr → Option (Slot × Reg × Nat)
  | .rputAcq _ sl _ d | .rgetAcq _ sl _ d | .rputPub _ sl _ d _ | .rgetRel _ sl _ d _ | .rclose _ sl _ d => some (sl, d, 1)
  | _ => none

/-! ### Where an access goes -/

/-- An access of `n` bytes through a record lies at `a` of the workgroup's scratchpad, inside it (R16, R186, R208). The
model numbers workgroups from 1. -/
structure InScratch (s : State) (x : Wave) (g : Wg) (r : Rec) (i j : Word) (n a : Nat) : Prop where
  wg : NMap.find? s.dev.wgs x.wg = some g
  numbered : x.wg ≠ 0
  valid : r.valid = true
  space : r.space = 1
  form : r.form n i.toNat j.toNat = .at a
  fits : a + n ≤ g.scratch

/-- An access of `n` bytes through a record lies at `a` of the neighbourhood's window, within one sector: at `o` of the
scratchpad of its workgroup `h`, which has not ended (R16, R81, R209). -/
structure InWindow (s : State) (x : Wave) (g : Wg) (r : Rec) (i j : Word) (n a h o : Nat) : Prop where
  wg : NMap.find? s.dev.wgs x.wg = some g
  valid : r.valid = true
  space : r.space = 2
  form : r.form n i.toNat j.toNat = .at a
  inside : g.nbhd ≠ 0 ∧ a + n ≤ (launch s.dev g.launch).hdr.e1 * g.scratch
  sector : 0 < n ∧ a % 32 + n ≤ 32
  part : windowWg s.dev g (a / g.scratch) = h ∧ h ≠ 0 ∧ a % g.scratch = o

/-- The translation of a granule that the core or its cluster holds (R193). -/
def heldTr (s : State) (x : Wave) (a : Nat) : Option Tr :=
  let key := 2 ^ 41 * x.ctx + a / 65536
  (NMap.find? (core s.dev x.core).tlb key).or (NMap.find? (NMap.get [] s.dev.ctlb (clusterOf x.core)) key)

/-- An access of `n` bytes through a record lies at virtual address `a`, within one sector; its page is mapped to `pa`
with the rights it needs, and neither the core nor its cluster holds another translation of it (R189 to R193, R208). -/
structure InGlobal (s : State) (x : Wave) (r : Rec) (i j : Word) (need : Need) (n a pa : Nat) : Prop where
  valid : r.valid = true
  space : r.space = 0
  form : r.form n i.toNat j.toNat = .at a
  low : a < 2 ^ 57
  sector : 0 < n ∧ a % 32 + n ≤ 32
  leaf : ∃ tr, walkVa s.dev x.ctx a = .leaf tr ∧ (need = .store → tr.wr = true) ∧ pa = tr.pa + a % 65536 ∧
    (heldTr s x a = none ∨ heldTr s x a = some tr)

/-- The same of an access of `n` bytes that crosses a sector: its first part lies at `pa`, the other, from the next sector's
start on, at `pb` (R189 to R193, R200, R208). -/
structure InTwoSectors (s : State) (x : Wave) (r : Rec) (i j : Word) (need : Need) (n a pa pb : Nat) : Prop where
  valid : r.valid = true
  space : r.space = 0
  form : r.form n i.toNat j.toNat = .at a
  low : a + n ≤ 2 ^ 57
  crosses : 32 < a % 32 + n ∧ n ≤ 32
  first : ∃ tr, walkVa s.dev x.ctx a = .leaf tr ∧ (need = .store → tr.wr = true) ∧ pa = tr.pa + a % 65536 ∧
    (heldTr s x a = none ∨ heldTr s x a = some tr)
  second : ∃ tr, walkVa s.dev x.ctx (a / 32 * 32 + 32) = .leaf tr ∧ (need = .store → tr.wr = true) ∧
    pb = tr.pa + (a / 32 * 32 + 32) % 65536 ∧
    (heldTr s x (a / 32 * 32 + 32) = none ∨ heldTr s x (a / 32 * 32 + 32) = some tr)

/-- A wave may make an ordered access: its launch is not deterministic, or it holds the commit token (R212, R250). -/
def MayOrder (s : State) (x : Wave) : Prop :=
  (launch s.dev x.launch).hdr.det = false ∨ holdsToken s.dev s.dev.cur.1 = true

/-- One byte of a workgroup's scratchpad. -/
def scratchByte (dev : Device) (g a : Nat) : Byte := NMap.get 0 (wg dev g).mem a

/-- One byte of main memory, by physical address. -/
def memByte (dev : Device) (a : Nat) : Byte := NMap.get 0 dev.mem a

/-- The words an LD gives of the bytes it reads (R213). -/
def loaded (k : LdW) (bs : List Byte) : List Word :=
  match k with
  | .n8 | .n16 | .b32 => [BitVec.ofNat 32 (leNat bs)]
  | .i8 => [(BitVec.ofNat 8 (leNat bs)).signExtend 32]
  | .i16 => [(BitVec.ofNat 16 (leNat bs)).signExtend 32]
  | .b64 => words64 (BitVec.ofNat 64 (leNat bs))
  | .b128 => [BitVec.ofNat 32 (leNat (bs.take 4)), BitVec.ofNat 32 (leNat ((bs.drop 4).take 4)),
      BitVec.ofNat 32 (leNat ((bs.drop 8).take 4)), BitVec.ofNat 32 (leNat ((bs.drop 12).take 4))]

/-- Byte `i` of what an ST writes: of its operand, low byte first (R214). -/
def storedByte (k : StW) (x : Wave) (t : Thread) (c : Src) (i : Nat) : Byte :=
  match k with
  | .b8 | .b16 | .b32 => (rd32 x t c).extractLsb' (8 * i) 8
  | .b64 => (rd64 x t c).extractLsb' (8 * i) 8
  | .b128 => (rdQuad x t c (i / 4)).extractLsb' (8 * (i % 4)) 8

/-- Nothing of the wave but its PMC changes of registers: s, d and trap registers, flags. -/
def sameRegs (x x' : Wave) : Prop :=
  x'.s = x.s ∧ x'.d = x.d ∧ x'.fpflags = x.fpflags ∧ x'.tcause = x.tcause ∧ x'.tformer = x.tformer ∧
  x'.tfault = x.tfault ∧ x'.hold = x.hold ∧ x'.fid = x.fid

/-- Nothing of the wave's s, record and trap registers, flags and HOLD changes but an s destination; no other thread of it
and no other wave changes. -/
def OthersKept (s s' : State) (x : Wave) (l : Nat) (D : Option (Reg × Nat)) : Prop :=
  sameRegs { x with s := (after s s').s } (after s s') ∧
  (∀ q : Fin 64, untouched D (.s q) = true → NMap.get 0 (after s s').s q.val = NMap.get 0 x.s q.val) ∧
  (∀ m, m ≠ l → NMap.find? (after s s').threads m = NMap.find? x.threads m) ∧
  ∀ w, w ≠ s.dev.cur.1 → NMap.find? s'.dev.waves w = NMap.find? s.dev.waves w

/-- The thread's v registers but for a destination, and its condition bits, stay. -/
def ThreadKept (s s' : State) (t : Thread) (l : Nat) (D : Option (Reg × Nat)) : Prop :=
  (∀ q : Fin 128, untouched D (.v q) = true → NMap.get 0 (thread (after s s') l).v q.val = NMap.get 0 t.v q.val) ∧
  (thread (after s s') l).c = t.c

/-! ### The checks of an access (R210) -/

/-- An access through a record, as R210 to R214 and R223 give it: its predicate, its record, its indices, its bytes, and
whether it stores, is an atomic, needs the commit token in deterministic mode, and in which spaces it is legal. -/
structure Access where
  p : Pred
  r : DReg
  i : Src
  j : Option Src
  n : Nat
  stores : Bool
  atomic : Bool
  token : Rec → Bool
  spaces : List Nat

def accessOf : Instr → Option Access
  | .ld k p _ r i j =>
    some { p := p, r := r, i := i, j := some j, n := LdW.bytes k, stores := false, atomic := false
           token := fun _ => false, spaces := [0, 1, 2] }
  | .st k p _ r i j =>
    some { p := p, r := r, i := i, j := some j, n := StW.bytes k, stores := true, atomic := false
           token := fun r => r.order == 1, spaces := [0, 1, 2] }
  | .satom _ ty p _ r i _ =>
    some { p := p, r := r, i := i, j := none, n := ATy.bytes ty, stores := true, atomic := true
           token := fun r => r.order == 1, spaces := [1, 2] }
  | .atom _ ty p _ r i _ | .atomn _ ty p r i _ =>
    some { p := p, r := r, i := i, j := none, n := ATy.bytes ty, stores := true, atomic := true
           token := fun _ => true, spaces := [0] }
  | _ => none

/-- The record and the indices of an access of a thread. -/
def Access.rec_ (q : Access) (x : Wave) : Rec := recOf (rdRec x q.r)
def Access.i1 (q : Access) (x : Wave) (t : Thread) : Nat := (rd32 x t q.i).toNat
def Access.i2 (q : Access) (x : Wave) (t : Thread) : Nat :=
  match q.j with
  | some j => (rd32 x t j).toNat
  | none => 0

/-- In main memory the access lies within one sector, and nothing holds a translation of it. -/
def Access.plain (q : Access) (s : State) (x : Wave) (t : Thread) : Prop :=
  ∀ a, (q.rec_ x).space = 0 → (q.rec_ x).form q.n (q.i1 x t) (q.i2 x t) = .at a →
    a % 32 + q.n ≤ 32 ∧ heldTr s x a = none

/-- The wave holds no token that the access needs (R212). -/
def Access.tokenAbsent (q : Access) (s : State) (x : Wave) : Bool :=
  (launch s.dev x.launch).hdr.det && q.token (q.rec_ x) && !holdsToken s.dev s.dev.cur.1

/-- The fault of the first check that fails (R210); none where none does, or where the page is missing. -/
def Access.fault (q : Access) (s : State) (x : Wave) (t : Thread) : Option Nat :=
  let rc := q.rec_ x
  if rc.valid = false then some 0x03
  else if q.tokenAbsent s x then some 0x60
  else match rc.form q.n (q.i1 x t) (q.i2 x t) with
    | .bounds => some 0x22
    | .drop => none
    | .at a =>
      if q.atomic && a % q.n != 0 then some 0x21
      else if rc.space ∉ q.spaces then some 0x21
      else if rc.space = 0 then
        if 2 ^ 57 ≤ a then some 0x21
        else match walkVa s.dev x.ctx a with
          | .page _ => none
          | .protection => some 0x21
          | .leaf tr =>
            if q.stores && !tr.wr then some 0x21
            else if q.stores && registered s.dev (.glob (tr.pa + a % 65536)) then some 0x24 else none
      else match spaceLoc s.dev x.wg rc.space a q.n with
        | none => some 0x21
        | some ls => if q.stores && ls.any (fun p => registered s.dev p.1) then some 0x24 else none

/-- The access finds no page at level `lv` for its address `a` (R190, R210). -/
structure Access.Pages (q : Access) (s : State) (x : Wave) (t : Thread) (a lv : Nat) : Prop where
  valid : (q.rec_ x).valid = true
  token : q.tokenAbsent s x = false
  form : (q.rec_ x).form q.n (q.i1 x t) (q.i2 x t) = .at a
  aligned : q.atomic = true → a % q.n = 0
  space : (q.rec_ x).space = 0 ∧ 0 ∈ q.spaces
  walk : a < 2 ^ 57 ∧ walkVa s.dev x.ctx a = .page lv

/-- Thread `l` of wave `w` waits at the instruction of the wave's only group `g`, which it alone makes up, for `wt`; no other
thread stands within that instruction. -/
structure WaitsAlone (s : State) (w g : Nat) (x : Wave) (y : Group) (l : Nat) (t : Thread) (wt : Wait) : Prop where
  wave : NMap.find? s.dev.waves w = some x
  groups : x.groups = [(g, y)]
  began : y.began = true
  lanes : y.lanes = [l]
  thread : NMap.find? x.threads l = some t
  waits : t.run = .run ∧ t.wait = wt
  quiet : x.fatal = none
  own : ∀ m u, (m, u) ∈ x.threads → m ≠ l → u.inst.map Issued.ord ≠ some y.ord

/-- No instruction issued after place `ord` has written the `n` registers of an s destination (R111). -/
def NotLater (x : Wave) (ord : Nat) (d : Reg) (n : Nat) : Prop :=
  ∀ k, d = .s k → ∀ r, k.val ≤ r → r < k.val + n → NMap.get 0 x.wrote r ≤ ord

/-- The group `g` of wave `w` has passed its instruction. -/
def PassedAt (s' : State) (w g : Nat) (y : Group) : Prop :=
  if y.index < y.hdr.count then
    NMap.find? (wave s'.dev w).groups g = some y.next
  else
    NMap.find? (wave s'.dev w).groups g = none ∧
    ∀ l ∈ y.lanes, (threadAt s'.dev w l).pc = nextClause y ∧ (threadAt s'.dev w l).wait = .none

/-! ### Objects -/

/-- Barrier slot `sl` of the wave's workgroup is bound to a sector of a scratchpad there is (R229). -/
structure BarrierHere (s : State) (x : Wave) (sl : Slot) (h o : Nat) : Prop where
  slot : ∃ b, NMap.find? (wg s.dev x.wg).bslots sl.val = some b ∧ b.loc = .scr h o
  sector : o % 32 = 0
  wg : (NMap.find? s.dev.wgs h).isSome

/-- The same of a ring slot. -/
structure RingHere (s : State) (x : Wave) (sl : Slot) (h o : Nat) : Prop where
  slot : ∃ b, NMap.find? (wg s.dev x.wg).rslots sl.val = some b ∧ b.loc = .scr h o
  sector : o % 32 = 0
  wg : (NMap.find? s.dev.wgs h).isSome
  obj : ∃ q, objAt s.dev (.scr h o) = some q ∧ q.pubs = [] ∧ q.rels = []

/-- A status and its condition bit, as an object instruction leaves them (R237). -/
def Status (s s' : State) (l : Nat) (d : Reg) (k : CBit) (st : Nat) : Prop :=
  regsOf (after s s') l d 1 = [BitVec.ofNat 32 st] ∧ cbit (thread (after s s') l) k = (st == 0)

/-- The wave's workgroup holds the Kiln `kn` (R319). -/
structure KilnHere (s : State) (x : Wave) (g : Wg) (kn : Kiln) : Prop where
  wg : NMap.find? s.dev.wgs x.wg = some g
  kiln : g.kiln = some kn

/-- No Glaze instruction is under way on a tile of the workgroup (R200, R259). -/
def TilesIdle (g : Wg) : Prop := ∀ tn o, NMap.find? g.dests tn = some o → o.busy = false

/-! ### The platform's registers -/

/-- The management and power registers hold values their rules allow (R425 to R427, R432 to R438): an image is
authoritative exactly in the BOOT states that have one, its version not below FWFLOOR; an image that a hand-over has
verified is not below FWFLOOR either; a hand-over is in progress only where one may start. -/
structure Platform (s : State) : Prop where
  limit : 600 ≤ s.power.plimit ∧ s.power.plimit ≤ 2200
  now : s.power.pnow < 65536
  levers : ∀ c ∈ s.power.clusters, 2 ≤ c.2.grants ∧ c.2.grants ≤ 6 ∧ c.2.ratio ≤ 1
  boot : s.mgmt.boot = 0 ∨ s.mgmt.boot = 1 ∨ s.mgmt.boot = 2 ∨ s.mgmt.boot = 3 ∨ s.mgmt.boot = 0xFF
  base : s.mgmt.fbbase.toNat % 2 ^ 39 = 0
  codes : s.mgmt.hostate ≤ 4 ∧ s.mgmt.hoerr ≤ 5 ∧ s.mgmt.attstate ≤ 3
  image : s.mgmt.auth = true ↔ s.mgmt.boot = 1 ∨ s.mgmt.boot = 2 ∨ s.mgmt.boot = 3
  version : s.mgmt.auth = false → s.mgmt.fwver = 0
  floor : s.mgmt.auth = true → s.mgmt.fwfloor ≤ s.mgmt.fwver
  start : s.mgmt.hostate = 1 ∨ s.mgmt.hostate = 2 → s.mgmt.boot = 3 ∨ s.mgmt.boot = 0xFF
  verified : s.mgmt.hostate = 2 → s.mgmt.fwfloor ≤ Config.imageVersion s.mgmt.inImg % 2 ^ 32
  committed : s.mgmt.hostate = 3 → s.mgmt.auth = true

/-! ### Operands and results, as the rules name them -/

/-- Operand b of 64 bits: an immediate is extended by sign for .i64, by zero for .n64 (R121). -/
def opb64 (t : ITy) (x : Wave) (th : Thread) : Opb → DWord
  | .src r => rd64 x th r
  | .imm n => if t = .i64 then n.signExtend 64 else n.setWidth 64

/-- The words of an exact result clamped to the least and the greatest value of its type (R128). -/
def clamped (t : ITy) (r : Int) : List Word :=
  let c := max (ITy.lo t) (min r (ITy.hi t))
  if t = .i32 ∨ t = .n32 then [BitVec.ofInt 32 c] else words64 (BitVec.ofInt 64 c)

/-- Width in bits of a raw operand. -/
def width (w64 : Bool) : Nat := if w64 then 64 else 32

/-- The field descriptor of R133: bits [7:0] and bits [15:8]. -/
def fieldLo (x : Word) : Nat := (x.extractLsb' 0 8).toNat
def fieldLen (x : Word) : Nat := (x.extractLsb' 8 8).toNat

/-- Bit `i` of a field of `a`, extended by sign (R133). -/
def signedFieldBit (a : Int) (desc : Word) (i : Nat) : Bool :=
  fieldLen desc != 0 && decide (a / 2 ^ (fieldLo desc + min i (fieldLen desc - 1)) % 2 = 1)

/-- The base-3 digit of two-bit code `j` (R141): 0b01 is 1, 0b11 is 2, and the others are 0. -/
def ternOf (a : DWord) (j : Nat) : Nat :=
  if a.extractLsb' (2 * j) 2 = 1#2 then 1 else if a.extractLsb' (2 * j) 2 = 3#2 then 2 else 0

/-- A scalar result in a register, with its flags. -/
def word (r : Nat × BitVec 6) : Word × BitVec 6 := (BitVec.ofNat 32 r.1, r.2)

/-- Two 16-bit results in a register, with the flags of both (R176). -/
def halves (lo hi : Nat × BitVec 6) : Word × BitVec 6 := (BitVec.ofNat 32 (lo.1 + 65536 * hi.1), lo.2 ||| hi.2)

/-- An integer result of CVT: reduced to its width, extended by its own signedness (R178). -/
def extended (t : CTy) (r : Int) : List Word :=
  let n := CTy.width t
  let x : DWord := if CTy.signed t then BitVec.ofInt 64 (sgn n (wrapN n r)) else BitVec.ofNat 64 (wrapN n r)
  if n = 64 then words64 x else [x.setWidth 32]

/-! ### Exact values (R35, R167) -/

/-- (−1)^neg × m × 2^e. -/
def ratOf (neg : Bool) (m : Nat) (e : Int) : ℚ := (if neg then -1 else 1) * m * 2 ^ e

/-- The number a finite value stands for. -/
def FVal.rat : FVal → ℚ
  | .fin n m e => ratOf n m e
  | _ => 0

def FVal.isFinite (v : FVal) : Prop := v.isNan = false ∧ v.isInf = false

/-- A bit pattern of a finite number of the format. -/
def Fmt.isFinite (f : Fmt) (r : Nat) : Prop := r < 2 ^ f.bits ∧ (f.val r).isFinite

/-- The number of a bit pattern. -/
def Fmt.rat (f : Fmt) (r : Nat) : ℚ := (f.val r).rat

/-- The largest finite value, and the distance of its neighbours. -/
def Fmt.max (f : Fmt) : ℚ := f.rat f.largest
def Fmt.gap (f : Fmt) : ℚ := f.max - f.rat (f.largest - 1)

/-- The smallest normal value. -/
def Fmt.least (f : Fmt) : ℚ := 2 ^ (f.qmin + f.mb)

/-- `r` is the finite pattern that a mode gives for `v`: the nearest, a tie going to the even one; or the nearest on the
mode's side (R35). -/
def NearestIn (f : Fmt) (rm : Rm) (v : ℚ) (r : Nat) : Prop :=
  f.isFinite r ∧
  match rm with
  | .rn => ∀ z, f.isFinite z → |f.rat r - v| ≤ |f.rat z - v| ∧
      (|f.rat z - v| = |f.rat r - v| → f.rat z = f.rat r ∨ r % 2 = 0)
  | .rz => |f.rat r| ≤ |v| ∧ ∀ z, f.isFinite z → |f.rat z| ≤ |v| → |f.rat z| ≤ |f.rat r|
  | .ru => v ≤ f.rat r ∧ ∀ z, f.isFinite z → v ≤ f.rat z → f.rat r ≤ f.rat z
  | .rd => f.rat r ≤ v ∧ ∀ z, f.isFinite z → f.rat z ≤ v → f.rat z ≤ f.rat r

/-- The mode rounds away from zero. -/
def awayFromZero (rm : Rm) (neg : Bool) : Bool :=
  match rm with
  | .ru => !neg
  | .rd => neg
  | _ => false

/-- Rounded to the format's precision with any exponent, `v` stays below the smallest normal value (R167). -/
def isTiny (f : Fmt) (rm : Rm) (neg : Bool) (v : ℚ) : Prop :=
  let step : ℚ := 2 ^ (f.qmin - 1)
  if rm = .rn then |v| < f.least - step / 2
  else if awayFromZero rm neg = true then |v| ≤ f.least - step
  else |v| < f.least

/-- A value above the largest finite one rounds beyond it (R35, R167). The largest E4M3 value is even, every other is odd. -/
def roundsBeyond (f : Fmt) (rm : Rm) (neg : Bool) (v : ℚ) : Prop :=
  if rm = .rn then (if f = .e4m3 then f.max + f.gap / 2 < |v| else f.max + f.gap / 2 ≤ |v|)
  else if awayFromZero rm neg = true then f.max < |v|
  else f.max + f.gap ≤ |v|

/-- What an overflow gives (R35, R36): the largest finite value under .sat or toward zero, else an infinity, or the NaN
of E4M3. -/
def overflowed (f : Fmt) (rm : Rm) (sat neg : Bool) : Nat × BitVec 6 :=
  if sat then (f.sgnBit neg + f.largest, fOF ||| fNX ||| fSAT)
  else if f = .e4m3 then (0x7F, fOF ||| fNX ||| fIV)
  else if rm = .rn ∨ awayFromZero rm neg = true then (f.sgnBit neg + f.infinity, fOF ||| fNX)
  else (f.sgnBit neg + f.largest, fOF ||| fNX)

/-- `r` is the result and the flags of `v`, nonzero and of sign `neg`, rounded once (R35, R36, R167): the nearest finite
number of the format by the mode, with its sign; NX where it differs from `v`, UF as well where `v` is tiny; beyond the
largest finite value what an overflow gives. -/
def Rounded (f : Fmt) (rm : Rm) (sat neg : Bool) (v : ℚ) (r : Nat × BitVec 6) : Prop :=
  (|v| ≤ f.max →
    NearestIn f rm v r.1 ∧ r.1 / f.sb = (if neg then 1 else 0) ∧
    (f.rat r.1 = v → r.2 = 0) ∧
    (f.rat r.1 ≠ v → isTiny f rm neg v → r.2 = fNX ||| fUF) ∧
    (f.rat r.1 ≠ v → ¬ isTiny f rm neg v → r.2 = fNX)) ∧
  (f.max < |v| → roundsBeyond f rm neg v → r = overflowed f rm sat neg) ∧
  (f.max < |v| → ¬ roundsBeyond f rm neg v → r = (f.sgnBit neg + f.largest, fNX))

/-- The same of a positive real value: a rational one is rounded; around any other, every rational number near enough to it
rounds to `r`. -/
def RoundedReal (f : Fmt) (rm : Rm) (v : ℝ) (r : Nat × BitVec 6) : Prop :=
  (∃ q : ℚ, (q : ℝ) = v ∧ Rounded f rm false false q r) ∨
  (Irrational v ∧ ∃ ε : ℝ, 0 < ε ∧ ∀ q : ℚ, |(q : ℝ) - v| < ε → Rounded f rm false false q r)

/-- Every rational number within 2^−200 of `v`, relative to the larger of its magnitude and 1, rounds to `r` under .rn, but
for the FP32 number `r` itself. -/
def RoundsNear (neg : Bool) (v : ℝ) (r : Nat × BitVec 6) : Prop :=
  ∀ q : ℚ, |(q : ℝ) - v| < 2 ^ (-200 : ℤ) * Max.max 1 |v| → Fmt.f32.rat r.1 ≠ q → Rounded .f32 .rn false neg q r

/-- `z` is the integer that a mode gives for `v`: the nearest, a tie going to the even one, or the nearest on the mode's side
(R35, R173). -/
def NearestInt (rm : Rm) (v : ℚ) (z : ℤ) : Prop :=
  match rm with
  | .rn => |(z : ℚ) - v| ≤ 1 / 2 ∧ (|(z : ℚ) - v| = 1 / 2 → z % 2 = 0)
  | .rz => |(z : ℚ)| ≤ |v| ∧ |(z : ℚ) - v| < 1
  | .ru => v ≤ z ∧ z < v + 1
  | .rd => z ≤ v ∧ v < z + 1

end Sys2Proof.Machine
end

