-- ==== Sys2Proof/Certificates/Slice0/Obligations.lean ====
section
/-!
DEFINITION. The statements for the provers.
-/

open Sys2Proof Sys2Proof.Machine

/-! ### Class 0: integers -/

/-- R128, R129, R130: without .sat the result is exact and reduced modulo 2^n, so two's complement bits add, subtract
and multiply; an I form's immediate is extended by sign for .i64 and by zero for .n64 (R121).

R128, R129, R130: under .sat the exact result is clamped to the least and the greatest value of the type.

R129: IMULH gives bits [63:32] of the exact 64-bit product, its operands signed or unsigned by type. R128: IMIN and
IMAX give the lesser and the greater operand by the type's order. -/
def Obligations.IntegerResults : Prop :=
  (
    (∀ t p d a b, (t = .i32 ∨ t = .n32) →
      Gives (.iadd t false p d a b) p d (fun x th => [rd32 x th a + rdOpb32 x th b]) ∧
      Gives (.isub t false p d a b) p d (fun x th => [rd32 x th a - rdOpb32 x th b]) ∧
      Gives (.imul t false p d a b) p d (fun x th => [rd32 x th a * rdOpb32 x th b])) ∧
    (∀ t p d a b, (t = .i64 ∨ t = .n64) →
      Gives (.iadd t false p d a b) p d (fun x th => words64 (rd64 x th a + opb64 t x th b)) ∧
      Gives (.isub t false p d a b) p d (fun x th => words64 (rd64 x th a - opb64 t x th b)) ∧
      Gives (.imul t false p d a b) p d (fun x th => words64 (rd64 x th a * opb64 t x th b))) ∧
    (∀ t p d a b c, (t = .i32 ∨ t = .n32) →
      Gives (.imad t false p d a b c) p d (fun x th => [rd32 x th a * rd32 x th b + rd32 x th c])) ∧
    (∀ t p d a b c, (t = .i64 ∨ t = .n64) →
      Gives (.imad t false p d a b c) p d (fun x th => words64 (rd64 x th a * rd64 x th b + rd64 x th c))) ∧
    (∀ p d a,
      Gives (.ineg false false p d a) p d (fun x th => [-rd32 x th a]) ∧
      Gives (.ineg true false p d a) p d (fun x th => words64 (-rd64 x th a)) ∧
      Gives (.iabs false false p d a) p d (fun x th => [(rd32 x th a).abs]) ∧
      Gives (.iabs true false p d a) p d (fun x th => words64 (rd64 x th a).abs))) ∧
  (
    (∀ t p d a b,
      Gives (.iadd t true p d a b) p d (fun x th => clamped t (rdInt x th t a + rdOpbInt x th t b)) ∧
      Gives (.isub t true p d a b) p d (fun x th => clamped t (rdInt x th t a - rdOpbInt x th t b)) ∧
      Gives (.imul t true p d a b) p d (fun x th => clamped t (rdInt x th t a * rdOpbInt x th t b))) ∧
    (∀ t p d a b c,
      Gives (.imad t true p d a b c) p d (fun x th => clamped t (rdInt x th t a * rdInt x th t b + rdInt x th t c))) ∧
    (∀ p d a,
      Gives (.ineg false true p d a) p d (fun x th => clamped .i32 (-(rd32 x th a).toInt)) ∧
      Gives (.ineg true true p d a) p d (fun x th => clamped .i64 (-(rd64 x th a).toInt)) ∧
      Gives (.iabs false true p d a) p d (fun x th => clamped .i32 |(rd32 x th a).toInt|) ∧
      Gives (.iabs true true p d a) p d (fun x th => clamped .i64 |(rd64 x th a).toInt|))) ∧
  (
    (∀ p d a b,
      Gives (.imulh true p d a b) p d
        (fun x th => [(((rd32 x th a).signExtend 64 * (rd32 x th b).signExtend 64) >>> 32).setWidth 32]) ∧
      Gives (.imulh false p d a b) p d
        (fun x th => [(((rd32 x th a).setWidth 64 * (rd32 x th b).setWidth 64) >>> 32).setWidth 32])) ∧
    (∀ t p d a b, (t = .i32 ∨ t = .n32) →
      Gives (.imin t p d a b) p d
        (fun x th => [if rdInt x th t a ≤ rdOpbInt x th t b then rd32 x th a else rdOpb32 x th b]) ∧
      Gives (.imax t p d a b) p d
        (fun x th => [if rdInt x th t a ≤ rdOpbInt x th t b then rdOpb32 x th b else rd32 x th a])) ∧
    (∀ t p d a b, (t = .i64 ∨ t = .n64) →
      Gives (.imin t p d a b) p d
        (fun x th => words64 (if rdInt x th t a ≤ rdOpbInt x th t b then rd64 x th a else opb64 t x th b)) ∧
      Gives (.imax t p d a b) p d
        (fun x th => words64 (if rdInt x th t a ≤ rdOpbInt x th t b then opb64 t x th b else rd64 x th a))))

/-- R131: bitwise logic over 32 or 64 bits; in the .b64 I form the immediate is extended by zero.

R132: the amount is an unsigned 32-bit value; SHL and SHR by the width or more give 0, SAR the sign in every bit,
ROTL rotates by the amount modulo the width. -/
def Obligations.BitwiseLogicAndShifts : Prop :=
  (
    (∀ p d a b,
      Gives (.and false p d a b) p d (fun x th => [rd32 x th a &&& rdOpb32 x th b]) ∧
      Gives (.or false p d a b) p d (fun x th => [rd32 x th a ||| rdOpb32 x th b]) ∧
      Gives (.xor false p d a b) p d (fun x th => [rd32 x th a ^^^ rdOpb32 x th b]) ∧
      Gives (.andn false p d a b) p d (fun x th => [rd32 x th a &&& ~~~rdOpb32 x th b]) ∧
      Gives (.and true p d a b) p d (fun x th => words64 (rd64 x th a &&& opb64 .n64 x th b)) ∧
      Gives (.or true p d a b) p d (fun x th => words64 (rd64 x th a ||| opb64 .n64 x th b)) ∧
      Gives (.xor true p d a b) p d (fun x th => words64 (rd64 x th a ^^^ opb64 .n64 x th b)) ∧
      Gives (.andn true p d a b) p d (fun x th => words64 (rd64 x th a &&& ~~~opb64 .n64 x th b))) ∧
    (∀ p d a,
      Gives (.not false p d a) p d (fun x th => [~~~rd32 x th a]) ∧
      Gives (.not true p d a) p d (fun x th => words64 (~~~rd64 x th a)))) ∧
  (
    ∀ p d a b,
      Gives (.shl false p d a b) p d (fun x th => [rd32 x th a <<< (rdOpb32 x th b).toNat]) ∧
      Gives (.shr false p d a b) p d (fun x th => [rd32 x th a >>> (rdOpb32 x th b).toNat]) ∧
      Gives (.sar false p d a b) p d (fun x th => [(rd32 x th a).sshiftRight (rdOpb32 x th b).toNat]) ∧
      Gives (.rotl false p d a b) p d (fun x th => [(rd32 x th a).rotateLeft (rdOpb32 x th b).toNat]) ∧
      Gives (.shl true p d a b) p d (fun x th => words64 (rd64 x th a <<< (rdOpb32 x th b).toNat)) ∧
      Gives (.shr true p d a b) p d (fun x th => words64 (rd64 x th a >>> (rdOpb32 x th b).toNat)) ∧
      Gives (.sar true p d a b) p d (fun x th => words64 ((rd64 x th a).sshiftRight (rdOpb32 x th b).toNat)) ∧
      Gives (.rotl true p d a b) p d (fun x th => words64 ((rd64 x th a).rotateLeft (rdOpb32 x th b).toNat)))

/-- R133: BFX gives the field of its descriptor, extended by the type; R133: BFI replaces the bits of the field that lie
below the width, one by one, and leaves every other bit. -/
def Obligations.BitFields : Prop :=
  (∀ p d a b,
    GivesSuch (.bfx .n32 p d a b) p d 1 (fun x th ws => ws.map BitVec.toNat =
      [(rd32 x th a).toNat / 2 ^ fieldLo (rd32 x th b) % 2 ^ fieldLen (rd32 x th b) % 2 ^ 32]) ∧
    GivesSuch (.bfx .i32 p d a b) p d 1 (fun x th ws => ∀ i < 32, (ws.getD 0 0).getLsbD i =
      signedFieldBit (rd32 x th a).toInt (rd32 x th b) i) ∧
    GivesSuch (.bfx .n64 p d a b) p d 2 (fun x th ws => (ws.getD 1 0 ++ ws.getD 0 0 : DWord).toNat =
      (rd64 x th a).toNat / 2 ^ fieldLo (rd32 x th b) % 2 ^ fieldLen (rd32 x th b) % 2 ^ 64) ∧
    GivesSuch (.bfx .i64 p d a b) p d 2 (fun x th ws => ∀ i < 64, (ws.getD 1 0 ++ ws.getD 0 0 : DWord).getLsbD i =
      signedFieldBit (rd64 x th a).toInt (rd32 x th b) i)) ∧
  (∀ p d a b c,
    GivesSuch (.bfi false p d a b c) p d 1 (fun x th ws => ∀ i < 32, (ws.getD 0 0).getLsbD i =
      if fieldLo (rd32 x th c) ≤ i ∧ i < fieldLo (rd32 x th c) + fieldLen (rd32 x th c)
      then (rd32 x th b).getLsbD (i - fieldLo (rd32 x th c)) else (rd32 x th a).getLsbD i) ∧
    GivesSuch (.bfi true p d a b c) p d 2 (fun x th ws => ∀ i < 64, (ws.getD 1 0 ++ ws.getD 0 0 : DWord).getLsbD i =
      if fieldLo (rd32 x th c) ≤ i ∧ i < fieldLo (rd32 x th c) + fieldLen (rd32 x th c)
      then (rd64 x th b).getLsbD (i - fieldLo (rd32 x th c)) else (rd64 x th a).getLsbD i))

/-- R134: POPC counts ones; CLZ and CTZ count the zeros above and below the outermost ones and give n for zero; BREV
places bit i at n − 1 − i. R135: PERMB selects source bytes by the nibbles of c, or their signs.

R141: byte i of T3PK's word is the base-3 number of codes 5i to 5i + 4; T3UN gives back the codes of a byte below
243 and zeros for any other, and its status bit says whether there was one. -/
def Obligations.BitCountsAndPacking : Prop :=
  (
    (∀ w64 p d a,
      GivesSuch (.popc w64 p d a) p d 1 (fun x th ws => ws.map BitVec.toNat =
        [((List.range (width w64)).filter fun i => (rdRaw w64 x th a).getLsbD i).length]) ∧
      GivesSuch (.clz w64 p d a) p d 1 (fun x th ws => ∃ k, ws.map BitVec.toNat = [k] ∧ k ≤ width w64 ∧
        (∀ i < width w64, width w64 ≤ i + k → (rdRaw w64 x th a).getLsbD i = false) ∧
        (k < width w64 → (rdRaw w64 x th a).getLsbD (width w64 - 1 - k) = true)) ∧
      GivesSuch (.ctz w64 p d a) p d 1 (fun x th ws => ∃ k, ws.map BitVec.toNat = [k] ∧ k ≤ width w64 ∧
        (∀ i < k, (rdRaw w64 x th a).getLsbD i = false) ∧
        (k < width w64 → (rdRaw w64 x th a).getLsbD k = true))) ∧
    (∀ p d a,
      Gives (.brev false p d a) p d (fun x th => [(rd32 x th a).reverse]) ∧
      Gives (.brev true p d a) p d (fun x th => words64 (rd64 x th a).reverse)) ∧
    (∀ p d a b c,
      GivesSuch (.permb p d a b c) p d 1 (fun x th ws => ∀ i < 4,
        (ws.getD 0 0).extractLsb' (8 * i) 8 =
          let n := (rd32 x th c).extractLsb' (4 * i) 4
          let y : Byte := (rd32 x th b ++ rd32 x th a : DWord).extractLsb' (8 * (n.extractLsb' 0 3).toNat) 8
          if n.getLsbD 3 then (if y.getLsbD 7 then 0xFF else 0) else y))) ∧
  (
    (∀ p d a, GivesSuch (.t3pk p d a) p d 1 (fun x th ws => ∀ i < 4,
      ((ws.getD 0 0).extractLsb' (8 * i) 8).toNat =
        ternOf (rd64 x th a) (5 * i) + 3 * ternOf (rd64 x th a) (5 * i + 1) + 9 * ternOf (rd64 x th a) (5 * i + 2) +
        27 * ternOf (rd64 x th a) (5 * i + 3) + 81 * ternOf (rd64 x th a) (5 * i + 4))) ∧
    (∀ q p d a, GivesSuch (.t3un q p d a) p d 2 (fun x th ws =>
      let z : DWord := ws.getD 1 0 ++ ws.getD 0 0
      z.extractLsb' 40 24 = 0 ∧
      ∀ i < 4, ∀ m < 5,
        let v := ((rd32 x th a).extractLsb' (8 * i) 8).toNat
        z.extractLsb' (2 * (5 * i + m)) 2 =
          if 243 ≤ v then 0#2 else if v / 3 ^ m % 3 = 0 then 0#2 else if v / 3 ^ m % 3 = 1 then 1#2 else 3#2)) ∧
    (∀ q p d a, GivesBit (.t3un q p d a) p q (fun x th =>
      (List.range 4).any fun i => decide (243 ≤ ((rd32 x th a).extractLsb' (8 * i) 8).toNat))))

/-- R136: ICMP writes whether the relation holds, by the type's order. R137: SEL copies a or b by the selecting bit.
R138: the moves.

R139: CLOG writes bit 2 × cA + cB of its table. R140: CTOV gathers a condition bit of every member into a lane mask,
and VTOC takes lane t's bit of a mask. -/
def Obligations.CompareSelectMove : Prop :=
  (
    (∀ t rel p c a b, GivesBit (.icmp t rel p c a b) p c (fun x th =>
      let m := rdInt x th t a
      let n := rdOpbInt x th t b
      match rel with
      | .eq => decide (m = n)
      | .ne => decide (m ≠ n)
      | .lt => decide (m < n)
      | .le => decide (m ≤ n)
      | .gt => decide (n < m)
      | .ge => decide (n ≤ m))) ∧
    (∀ q p d a b,
      Gives (.sel false q p d a b) p d (fun x th => [if cbit th q then rd32 x th a else rd32 x th b]) ∧
      Gives (.sel true q p d a b) p d (fun x th => words64 (if cbit th q then rd64 x th a else rd64 x th b))) ∧
    (∀ p d a,
      Gives (.mov .b32 p d a) p d (fun x th => [rd32 x th a]) ∧
      Gives (.mov .b64 p d a) p d (fun x th => words64 (rd64 x th a)) ∧
      Gives (.mov .b128 p d a) p d (fun x th => [rdQuad x th a 0, rdQuad x th a 1, rdQuad x th a 2, rdQuad x th a 3])) ∧
    (∀ d n,
      Gives (.movi false d n) .always d (fun _ _ => [n]) ∧
      Gives (.movi true d n) .always d (fun _ _ => [n, 0])) ∧
    (∀ d a n, Gives (.movw d a n) .always d (fun x th => [rd32 x th a, n]))) ∧
  (
    (∀ tab p c a b, GivesBit (.clog tab p c a b) p c (fun _ th =>
      (BitVec.ofNat 16 tab.val).getLsbD ((if cbit th a then 2 else 0) + (if cbit th b then 1 else 0)))) ∧
    (∀ q p d s x y l t, Issues s x y → l ∈ y.lanes → NMap.find? x.threads l = some t → performs p t = true →
      (∀ m ∈ y.lanes, m < 64) → ((∃ k, d = .v k) ∨ (performers x y p).head? = some l) →
      ∃ s', exec (.ctov false q p d) s = .next s' ∧ Passed s s' y ∧
        ∀ m < 64, ((regsOf (after s s') l d 2).getD 1 0 ++ (regsOf (after s s') l d 2).getD 0 0 : DWord).getLsbD m =
          (decide (m ∈ y.lanes) && cbit (thread x m) q)) ∧
    (∀ q p d, Gives (.ctov true q p d) p d (fun _ _ => [0, 0])) ∧
    (∀ p c a s x y l t, Issues s x y → l ∈ y.lanes → NMap.find? x.threads l = some t → performs p t = true →
      (∃ s', exec (.vtoc false p c a) s = .next s' ∧ Passed s s' y ∧
        cbit (thread (after s s') l) c = (rd64 x t a).getLsbD l) ∧
      (∃ s', exec (.vtoc true p c a) s = .next s' ∧ Passed s s' y ∧ (thread (after s s') l).c = t.c)))

/-! ### Class 0: floating point -/

/-- R168, R169: each member's result is the exact sum, difference, product or multiply-add of its operands after their
modifiers, rounded once in the variant's format, then clamped under .sat (R166); its flags reach FPFLAGS (R38). The
sign of a zero sum follows R35 word for word (log entry 10). -/
def Obligations.FloatArithmetic : Prop :=
  (∀ t rm sat ma mb p d a b,
    GivesFloat (.fadd t rm sat ma mb p d a b) p d (fun x th =>
      word (satIf (FTy.fmt t) sat (fAddV (FTy.fmt t) rm (fv (FTy.fmt t) ma (rdF (FTy.fmt t) x th a))
        (fv (FTy.fmt t) mb (rdOpbF (FTy.fmt t) x th b))))) ∧
    GivesFloat (.fsub t rm sat ma mb p d a b) p d (fun x th =>
      word (satIf (FTy.fmt t) sat (fAddV (FTy.fmt t) rm (fv (FTy.fmt t) ma (rdF (FTy.fmt t) x th a))
        (fv (FTy.fmt t) mb (rdOpbF (FTy.fmt t) x th b)).flip))) ∧
    GivesFloat (.fmul t rm sat ma mb p d a b) p d (fun x th =>
      word (satIf (FTy.fmt t) sat (fMulV (FTy.fmt t) rm (fv (FTy.fmt t) ma (rdF (FTy.fmt t) x th a))
        (fv (FTy.fmt t) mb (rdOpbF (FTy.fmt t) x th b)))))) ∧
  (∀ t rm sat ma mb mc p d a b c,
    GivesFloat (.ffma t rm sat ma mb mc p d a b c) p d (fun x th =>
      word (satIf (FTy.fmt t) sat (fFmaV (FTy.fmt t) rm (fv (FTy.fmt t) ma (rdF (FTy.fmt t) x th a))
        (fv (FTy.fmt t) mb (rdF (FTy.fmt t) x th b)) (fv (FTy.fmt t) mc (rdF (FTy.fmt t) x th c))))))

/-- R170 to R173: FMIN, FMAX and their N forms return one operand's bits after modifiers, or the canonical NaN; FCMP,
FCLASS and FRND raise no flag. A class is one bit of nine, and an integral result rounds once in the MOD mode.

R174, R175: the reciprocal, the roots and the transcendental functions of one FP32 operand after its modifiers. -/
def Obligations.FloatOrderAndFunctions : Prop :=
  (
    (∀ t ma mb p d a b,
      let f := FTy.fmt t
      let u (x : Wave) (th : Thread) : Nat := modBits f ma (rdF f x th a)
      let v (x : Wave) (th : Thread) : Nat := modBits f mb (rdOpbF f x th b)
      let nan (n : Nat) : Bool := (f.val n).isNan
      let best (num big : Bool) (m n r : Nat) : Prop :=
        if nan m && nan n then r = f.nan
        else if nan m then r = (if num then n else f.nan)
        else if nan n then r = (if num then m else f.nan)
        else (r = m ∨ r = n) ∧
          (if big then f.key m ≤ f.key r ∧ f.key n ≤ f.key r else f.key r ≤ f.key m ∧ f.key r ≤ f.key n)
      let R (num big : Bool) (x : Wave) (th : Thread) (ws : List Word) : Prop :=
        ∃ r, ws = [BitVec.ofNat 32 r] ∧ best num big (u x th) (v x th) r
      GivesSuch (.fmin t ma mb p d a b) p d 1 (R false false) ∧
      GivesSuch (.fmax t ma mb p d a b) p d 1 (R false true) ∧
      GivesSuch (.fminn t ma mb p d a b) p d 1 (R true false) ∧
      GivesSuch (.fmaxn t ma mb p d a b) p d 1 (R true true)) ∧
    (∀ t rel ma mb p c a b, GivesBit (.fcmp t rel ma mb p c a b) p c (fun x th =>
      let f := FTy.fmt t
      FRel.holds f rel (modBits f ma (rdF f x th a)) (modBits f mb (rdF f x th b)))) ∧
    (∀ t ma p d a, GivesFloat (.fclass t ma p d a) p d (fun x th =>
      word (2 ^ fClass (FTy.fmt t) (modBits (FTy.fmt t) ma (rdF (FTy.fmt t) x th a)), 0))) ∧
    (∀ t rm ma p d a, GivesFloat (.frnd t rm ma p d a) p d (fun x th =>
      word (fRnd (FTy.fmt t) rm (modBits (FTy.fmt t) ma (rdF (FTy.fmt t) x th a)), 0)))) ∧
  (
    ∀ rm ma p d a,
      let u (x : Wave) (th : Thread) : Nat := modBits .f32 ma (rdF .f32 x th a)
      GivesFloat (.frcp rm ma p d a) p d (fun x th => word (fRcp rm (u x th))) ∧
      GivesFloat (.frsq rm ma p d a) p d (fun x th => word (fRsq rm (u x th))) ∧
      GivesFloat (.fsqrt rm ma p d a) p d (fun x th => word (fSqrt rm (u x th))) ∧
      GivesFloat (.fexp2 ma p d a) p d (fun x th => word (fExp2 (u x th))) ∧
      GivesFloat (.flog2 ma p d a) p d (fun x th => word (fLog2 (u x th))) ∧
      GivesFloat (.fsin ma p d a) p d (fun x th => word (fSin (u x th))) ∧
      GivesFloat (.fcos ma p d a) p d (fun x th => word (fCos (u x th))))

/-- R176, R177: each half of a packed result comes from the halves at its place, rounded once by the rules of FADD,
FMUL, FFMA, FMIN and FMAX; VDOT8 sums four E4M3 products and an FP32 addend, rounded once. -/
def Obligations.PackedFloat : Prop :=
  (∀ rm sat ma mb p d a b,
    let h (f : Fmt) (op : Fmt → Rm → FVal → FVal → Nat × BitVec 6) (x : Wave) (th : Thread) (i : Nat) :=
      satIf f sat (op f rm (fv f ma (rdPart f x th a i)) (fv f mb (rdPart f x th b i)))
    GivesFloat (.hadd2 rm sat ma mb p d a b) p d (fun x th => halves (h .f16 fAddV x th 0) (h .f16 fAddV x th 1)) ∧
    GivesFloat (.hmul2 rm sat ma mb p d a b) p d (fun x th => halves (h .f16 fMulV x th 0) (h .f16 fMulV x th 1)) ∧
    GivesFloat (.badd2 rm sat ma mb p d a b) p d (fun x th => halves (h .bf16 fAddV x th 0) (h .bf16 fAddV x th 1))) ∧
  (∀ rm sat ma mb mc p d a b c,
    let h (f : Fmt) (x : Wave) (th : Thread) (i : Nat) := satIf f sat
      (fFmaV f rm (fv f ma (rdPart f x th a i)) (fv f mb (rdPart f x th b i)) (fv f mc (rdPart f x th c i)))
    GivesFloat (.hfma2 rm sat ma mb mc p d a b c) p d (fun x th => halves (h .f16 x th 0) (h .f16 x th 1)) ∧
    GivesFloat (.bfma2 rm sat ma mb mc p d a b c) p d (fun x th => halves (h .bf16 x th 0) (h .bf16 x th 1))) ∧
  (∀ ma mb p d a b,
    let h (big : Bool) (x : Wave) (th : Thread) (i : Nat) : Nat × BitVec 6 :=
      (fMinMax .f16 big false (modBits .f16 ma (rdPart .f16 x th a i)) (modBits .f16 mb (rdPart .f16 x th b i)), 0)
    GivesFloat (.hmin2 ma mb p d a b) p d (fun x th => halves (h false x th 0) (h false x th 1)) ∧
    GivesFloat (.hmax2 ma mb p d a b) p d (fun x th => halves (h true x th 0) (h true x th 1))) ∧
  (∀ rm ma mb mc p d a b c,
    let q (x : Wave) (th : Thread) (i : Nat) := (fv .e4m3 ma (rdPart .e4m3 x th a i), fv .e4m3 mb (rdPart .e4m3 x th b i))
    GivesFloat (.vdot8 rm ma mb mc p d a b c) p d (fun x th =>
      word (fDotV rm (fv .f32 mc (rdF .f32 x th c)) [q x th 0, q x th 1, q x th 2, q x th 3])))

/-- R36, R178 to R182: conversions between the float formats, from and to integers, between integers; PACK2 converts two
FP32 values into halves; OKEY builds a key word above b. -/
def Obligations.Conversions : Prop :=
  (∀ td ts fd fs rm sat p d a, CTy.fmt td = some fd → CTy.fmt ts = some fs →
    GivesFloat (.cvt td ts rm sat p d a) p d (fun x th => word (cvtFF fs fd rm sat (rdF fs x th a)))) ∧
  (∀ td ts fd rm sat p d a, CTy.fmt td = some fd → CTy.fmt ts = none →
    GivesFloat (.cvt td ts rm sat p d a) p d (fun x th => word (cvtIF fd rm sat (rdCInt ts x th a)))) ∧
  (∀ td ts fs rm sat p d a, CTy.fmt td = none → CTy.fmt ts = some fs →
    Gives (.cvt td ts rm sat p d a) p d (fun x th =>
      extended td (cvtFI fs rm (CTy.lo td) (CTy.hi td) (rdF fs x th a)).1)) ∧
  (∀ td ts rm p d a, CTy.fmt td = none → CTy.fmt ts = none →
    Gives (.cvt td ts rm false p d a) p d (fun x th => extended td (rdCInt ts x th a)) ∧
    Gives (.cvt td ts rm true p d a) p d (fun x th =>
      extended td (max (CTy.lo td) (min (rdCInt ts x th a) (CTy.hi td))))) ∧
  (∀ bf rm sat ma mb p d a b,
    let f : Fmt := if bf then .bf16 else .f16
    GivesFloat (.pack2 bf rm sat ma mb p d a b) p d (fun x th =>
      halves (cvtFF .f32 f rm sat (modBits .f32 ma (rdF .f32 x th a)))
        (cvtFF .f32 f rm sat (modBits .f32 mb (rdF .f32 x th b))))) ∧
  (∀ h nh p d a b, Gives (.okey h nh p d a b) p d (fun x th =>
    [rd32 x th b, BitVec.ofNat 32 (okeyOf nh (if h then toF32 .f16 (rdF .f16 x th a) else rdF .f32 x th a))]))

/-- R182: the unsigned order of OKEY's key words is the numeric order of the values, −0 below +0; a NaN's key is above
or below every other, as the instruction says. -/
def Obligations.KeysOrderAsNumbers : Prop :=
  (∀ nh x y, x < 2 ^ 32 → y < 2 ^ 32 → (Fmt.f32.val x).isNan = false → (Fmt.f32.val y).isNan = false →
    (okeyOf nh x < okeyOf nh y ↔ Fmt.f32.key x < Fmt.f32.key y)) ∧
  (∀ x y, x < 2 ^ 32 → y < 2 ^ 32 → (Fmt.f32.val x).isNan = true → (Fmt.f32.val y).isNan = false →
    okeyOf true y < okeyOf true x ∧ okeyOf false x < okeyOf false y)

/-- R35: rounding at 2^k gives the nearest multiple, ties to even, in mode rn, and the nearest not beyond the exact
value in the direction of zero, +∞ or −∞ in the others; an exact value is unchanged.

R31, R167: a NaN operand yields the canonical NaN of the result format and raises no flag.

R35, R36, R167: a nonzero exact value is rounded once to the nearest finite number of the format by the mode, with
its sign; NX says that the result differs from it, UF that it is tiny as well; beyond the largest finite value OF
comes with NX.

R35, R168, R169, R177: sums, products, multiply-adds and dot products of finite values are the exact number, rounded
once; a sum of zero is +0, or −0 under .rd and where every term is −0, and a product of zero has the product's sign. -/
def Obligations.RoundingIsCorrect : Prop :=
  (
    ∀ neg m k,
      let q (rm : Rm) : Nat := roundShift rm neg m k
      let gap (rm : Rm) : Int := (q rm * 2 ^ k : Nat) - (m : Int)
      (2 * |gap .rn| ≤ 2 ^ k ∧ (2 * |gap .rn| = 2 ^ k → q .rn % 2 = 0)) ∧
      (gap .rz ≤ 0 ∧ -gap .rz < 2 ^ k) ∧
      (|gap .ru| < 2 ^ k ∧ (if neg then gap .ru ≤ 0 else 0 ≤ gap .ru)) ∧
      (|gap .rd| < 2 ^ k ∧ (if neg then 0 ≤ gap .rd else gap .rd ≤ 0))) ∧
  (
    (∀ f rm y, fAddV f rm .nan y = (f.nan, 0) ∧ fAddV f rm y .nan = (f.nan, 0) ∧
      fMulV f rm .nan y = (f.nan, 0) ∧ fMulV f rm y .nan = (f.nan, 0)) ∧
    (∀ f rm x y, fFmaV f rm .nan x y = (f.nan, 0) ∧ fFmaV f rm x .nan y = (f.nan, 0) ∧ fFmaV f rm x y .nan = (f.nan, 0)) ∧
    (∀ src dst rm sat x, (Fmt.val src x).isNan = true → cvtFF src dst rm sat x = (dst.nan, 0))) ∧
  (
    ∀ f rm sat neg m e, 0 < m → Rounded f rm sat neg (ratOf neg m e) (roundTo f rm sat neg m e)) ∧
  (
    let rounds (f : Fmt) (rm : Rm) (z : Bool) (q : ℚ) (r : Nat × BitVec 6) : Prop :=
      (q = 0 → r = (f.sgnBit z, 0)) ∧
      (q ≠ 0 → ∃ n m e, 0 < m ∧ ratOf n m e = q ∧ r = roundTo f rm false n m e)
    let minusZero (x : FVal) : Bool := x.isZero && x.neg
    (∀ f rm x y, FVal.isFinite x → FVal.isFinite y →
      rounds f rm (minusZero x && minusZero y || rm == .rd) (x.rat + y.rat) (fAddV f rm x y) ∧
      rounds f rm (x.neg != y.neg) (x.rat * y.rat) (fMulV f rm x y)) ∧
    (∀ f rm x y z, FVal.isFinite x → FVal.isFinite y → FVal.isFinite z →
      rounds f rm ((x.isZero || y.isZero) && (x.neg != y.neg) && minusZero z || rm == .rd) (x.rat * y.rat + z.rat)
        (fFmaV f rm x y z)) ∧
    (∀ rm c ps, FVal.isFinite c → (∀ p ∈ ps, FVal.isFinite p.1 ∧ FVal.isFinite p.2) →
      rounds .f32 rm (minusZero c && ps.all (fun p => (p.1.isZero || p.2.isZero) && (p.1.neg != p.2.neg)) || rm == .rd)
        (c.rat + (ps.map fun p => p.1.rat * p.2.rat).sum) (fDotV rm c ps)))

/-- R174: FRCP, FRSQ and FSQRT give the exact real value of 1/x, 1/√x and √x rounded once, with its flags, and their
table's results for special inputs. R173: FRND gives the nearest integer by the mode, with the operand's sign. R172:
FCLASS names the operand's class. R178: an integer becomes the float it rounds to; a float becomes the integer it
rounds to, clamped, IV and NX as the rule says.

R175: FEXP2, FLOG2, FSIN and FCOS give the exact results of their table, without a flag, and its results for special
inputs. -/
def Obligations.FunctionsAreExact : Prop :=
  let nan : Nat := 0x7FC00000
  (∀ rm x, (Fmt.f32.val x).isNan = true →
    fRcp rm x = (nan, 0) ∧ fRsq rm x = (nan, 0) ∧ fSqrt rm x = (nan, 0) ∧
    fExp2 x = (nan, 0) ∧ fLog2 x = (nan, 0) ∧ fSin x = (nan, 0) ∧ fCos x = (nan, 0)) ∧
  (∀ rm,
    fRcp rm 0 = (0x7F800000, fDZ) ∧ fRcp rm 0x80000000 = (0xFF800000, fDZ) ∧
    fRcp rm 0x7F800000 = (0, 0) ∧ fRcp rm 0xFF800000 = (0x80000000, 0) ∧
    fRsq rm 0 = (0x7F800000, fDZ) ∧ fRsq rm 0x80000000 = (0xFF800000, fDZ) ∧
    fRsq rm 0x7F800000 = (0, 0) ∧ fRsq rm 0xFF800000 = (nan, fIV) ∧
    fSqrt rm 0 = (0, 0) ∧ fSqrt rm 0x80000000 = (0x80000000, 0) ∧
    fSqrt rm 0x7F800000 = (0x7F800000, 0) ∧ fSqrt rm 0xFF800000 = (nan, fIV)) ∧
  (∀ rm x, Fmt.f32.isFinite x →
    let v := Fmt.f32.rat x
    (v ≠ 0 → Rounded .f32 rm false (decide (v < 0)) (1 / v) (fRcp rm x)) ∧
    (v < 0 → fRsq rm x = (nan, fIV) ∧ fSqrt rm x = (nan, fIV)) ∧
    (0 < v → RoundedReal .f32 rm (1 / √(v : ℝ)) (fRsq rm x) ∧ RoundedReal .f32 rm (√(v : ℝ)) (fSqrt rm x))) ∧
  (∀ t rm x,
    let f := FTy.fmt t
    x < 2 ^ f.bits →
    ((f.val x).isNan = true → fRnd f rm x = f.nan ∧ fClass f x = 8) ∧
    ((f.val x).isInf = true → fRnd f rm x = x ∧ fClass f x = if x / f.sb = 1 then 0 else 7) ∧
    (f.isFinite x →
      (∃ z : ℤ, NearestInt rm (f.rat x) z ∧ f.isFinite (fRnd f rm x) ∧ f.rat (fRnd f rm x) = z ∧
        fRnd f rm x / f.sb = x / f.sb) ∧
      fClass f x =
        if f.rat x = 0 then (if x / f.sb = 1 then 3 else 4)
        else if |f.rat x| < f.least then (if f.rat x < 0 then 2 else 5)
        else if f.rat x < 0 then 1 else 6)) ∧
  (∀ f rm sat (n : ℤ),
    (n = 0 → cvtIF f rm sat n = (0, 0)) ∧ (n ≠ 0 → Rounded f rm sat (decide (n < 0)) n (cvtIF f rm sat n))) ∧
  (∀ f rm lo hi x, x < 2 ^ Fmt.bits f →
    ((f.val x).isNan = true → cvtFI f rm lo hi x = (0, fIV)) ∧
    ((f.val x).isInf = true → cvtFI f rm lo hi x = (if x / f.sb = 1 then lo else hi, fIV)) ∧
    (f.isFinite x → ∃ z : ℤ, NearestInt rm (f.rat x) z ∧
      cvtFI f rm lo hi x =
        if z < lo then (lo, fIV) else if hi < z then (hi, fIV) else (z, if (z : ℚ) = f.rat x then 0 else fNX))) ∧
  (fExp2 0x7F800000 = (0x7F800000, 0) ∧ fExp2 0xFF800000 = (0, 0) ∧
    fLog2 0x7F800000 = (0x7F800000, 0) ∧ fLog2 0xFF800000 = (nan, fIV) ∧
    fSin 0x7F800000 = (nan, fIV) ∧ fSin 0xFF800000 = (nan, fIV) ∧
    fCos 0x7F800000 = (nan, fIV) ∧ fCos 0xFF800000 = (nan, fIV)) ∧
  (∀ x, Fmt.f32.isFinite x →
    let v := Fmt.f32.rat x
    (128 ≤ v → fExp2 x = (0x7F800000, fOF ||| fNX)) ∧
    (v < -150 → fExp2 x = (0, fUF ||| fNX)) ∧
    (∀ n : ℤ, v = n → -150 ≤ n → n < 128 → Rounded .f32 .rn false false (2 ^ n) (fExp2 x)) ∧
    (v = 0 → fLog2 x = (0xFF800000, fDZ)) ∧
    (v < 0 → fLog2 x = (nan, fIV)) ∧
    (∀ k : ℤ, v = 2 ^ k → ∃ b, fLog2 x = (b, 0) ∧ Fmt.f32.isFinite b ∧ Fmt.f32.rat b = k) ∧
    (∀ n : ℤ, v = n →
      fSin x = (if n = 0 then x else if 0 < n then 0 else 0x80000000, 0) ∧
      fCos x = (if n % 2 = 0 then 0x3F800000 else 0xBF800000, 0)) ∧
    (∀ n : ℤ, v = n + 1 / 2 →
      fSin x = (if n % 2 = 0 then 0x3F800000 else 0xBF800000, 0) ∧ fCos x = (0, 0)))

/-- R175: where the exact value of 2^x, log2 x, sin(πx) or cos(πx) is no rational number and every number near it,
within 2^−200 of the larger of its magnitude and 1, rounds to one and the same FP32 number with the same flags, the
function gives that number and those flags, NX among them. Which rounding a value nearer than that to a midpoint
takes is not verified (log entry 19). -/
def Obligations.TranscendentalsAreNearest : Prop :=
  ∀ x r, Fmt.f32.isFinite x →
    let v : ℝ := (Fmt.f32.rat x : ℚ)
    (v < 128 → Irrational ((2 : ℝ) ^ v) → RoundsNear false ((2 : ℝ) ^ v) r → fExp2 x = r) ∧
    (∀ neg, 0 < v → (neg = true ↔ Real.logb 2 v < 0) → Irrational (Real.logb 2 v) →
      RoundsNear neg (Real.logb 2 v) r → fLog2 x = r) ∧
    (∀ neg, (neg = true ↔ Real.sin (Real.pi * v) < 0) → Irrational (Real.sin (Real.pi * v)) →
      RoundsNear neg (Real.sin (Real.pi * v)) r → fSin x = r) ∧
    (∀ neg, (neg = true ↔ Real.cos (Real.pi * v) < 0) → Irrational (Real.cos (Real.pi * v)) →
      RoundsNear neg (Real.cos (Real.pi * v)) r → fCos x = r)

/-! ### The frame of class 0, lanes, control -/

/-- The frame of every instruction that only computes, moves or transfers control (R101, R104, R107, R108, R153): when a
group executes one, all of memory and of the scratchpads, every other wave and every thread outside the group stay
as they are, as do the s registers, record registers and trap registers, but for an s destination; FPFLAGS loses no
bit and gains none above bit 5; of a member only the destination's registers, the destination's condition bit, its
PC, its wait and the instruction it stands in change. -/
def Obligations.ComputeFrame : Prop :=
  ∀ i D C s s' x y, computes i = some (D, C) → Issues s x y → exec i s = .next s' →
    s' = { s with dev := { s.dev with waves := s'.dev.waves } } ∧
    (∀ w, w ≠ s.dev.cur.1 → NMap.find? s'.dev.waves w = NMap.find? s.dev.waves w) ∧
    ∃ x', NMap.find? s'.dev.waves s.dev.cur.1 = some x' ∧
      x' = { x with threads := x'.threads, groups := x'.groups, s := x'.s, wrote := x'.wrote, fpflags := x'.fpflags } ∧
      (∀ r : Fin 64, untouched D (.s r) = true → NMap.get 0 x'.s r.val = NMap.get 0 x.s r.val) ∧
      x.fpflags &&& x'.fpflags = x.fpflags ∧ x'.fpflags &&& ~~~0x3F = x.fpflags &&& ~~~0x3F ∧
      (∀ l, l ∉ y.lanes → NMap.find? x'.threads l = NMap.find? x.threads l) ∧
      ∀ l t, NMap.find? x.threads l = some t → ∃ t', NMap.find? x'.threads l = some t' ∧
        t' = { t with v := t'.v, c := t'.c, pc := t'.pc, wait := t'.wait, lead := t'.lead, inst := t'.inst } ∧
        (∀ r : Fin 128, untouched D (.v r) = true → NMap.get 0 t'.v r.val = NMap.get 0 t.v r.val) ∧
        (∀ c : CBit, C ≠ some c → cbit t' c = cbit t c)

/-- R142, R143, R146 to R152, R156: a thread that names only its own lane completes its gathering by itself. The moves
and reductions give its own operand, an exclusive scan the identity, the votes its own bit, and CONV sends it to the
next clause. That the last arrival completes the gathering is the model's reading (log entry 11). -/
def Obligations.LoneGatherings : Prop :=
  ∀ s x y l t p m, Alone s x y l t → performs p t = true → rd64 x t m = 1#64 <<< l →
    (∀ md k d a b,
      (∃ s', exec (.wshfl md p d a b m) s = .next s' ∧ Passed s s' y ∧ regsOf (after s s') l d 1 = [rd32 x t a]) ∧
      (∃ s', exec (.wbcast false p d a b m) s = .next s' ∧ Passed s s' y ∧ regsOf (after s s') l d 1 = [rd32 x t a]) ∧
      (∃ s', exec (.wbcast true p d a b m) s = .next s' ∧ Passed s s' y ∧
        regsOf (after s s') l d 2 = words64 (rd64 x t a)) ∧
      (∃ s', exec (.wmatch k p d a m) s = .next s' ∧ Passed s s' y ∧
        regsOf (after s s') l d 2 = words64 (1#64 <<< l))) ∧
    (∀ op ty rm d a, LOp.legal op ty = true →
      (∃ s', exec (.wred op ty rm p d a m) s = .next s' ∧ Passed s s' y ∧
        regsOf (after s s') l d (LTy.n ty) = wordsRaw (LTy.n ty == 2) (rdLane ty x t a)) ∧
      (∃ s', exec (.wscan op ty rm false p d a m) s = .next s' ∧ Passed s s' y ∧
        regsOf (after s s') l d (LTy.n ty) = wordsRaw (LTy.n ty == 2) (rdLane ty x t a)) ∧
      (∃ s', exec (.wscan op ty rm true p d a m) s = .next s' ∧ Passed s s' y ∧
        regsOf (after s s') l d (LTy.n ty) = wordsRaw (LTy.n ty == 2) (laneId op ty))) ∧
    (∀ q c,
      (∃ s', exec (.wvote (.all c) q p m) s = .next s' ∧ Passed s s' y ∧ cbit (thread (after s s') l) c = cbit t q) ∧
      (∃ s', exec (.wvote (.any c) q p m) s = .next s' ∧ Passed s s' y ∧ cbit (thread (after s s') l) c = cbit t q) ∧
      (∃ s', exec (.wvote (.uni c) q p m) s = .next s' ∧ Passed s s' y ∧ cbit (thread (after s s') l) c = true)) ∧
    (∀ q d, ∃ s', exec (.wvote (.ballot d) q p m) s = .next s' ∧ Passed s s' y ∧
      regsOf (after s s') l d 2 = words64 (if cbit t q then 1#64 <<< l else 0)) ∧
    (y.index = y.hdr.count → ∃ s', exec (.conv p m) s = .next s' ∧ Left s s' y fun _ => nextClause y)

/-- R143, R145: a complete gathering whose threads have no group delivers: it is gone, each of its threads stands at the
next word, and a v destination holds its member's result. That it delivers in one step is the model's reading (log
entry 11). -/
def Obligations.GatheringDelivers : Prop :=
  ∀ s w k x z, NMap.find? s.dev.waves w = some x → x.groups = [] → NMap.find? x.gathers k = some z →
    gatherFull z = true → isConv z.instr = false → (z.arr.map Arrival.lane).Nodup →
    (∀ a ∈ z.arr, (NMap.find? x.threads a.lane).isSome) →
    ∃ s' x', exec (.gatheringComplete w k) s = .next s' ∧ NMap.find? s'.dev.waves w = some x' ∧
      NMap.find? x'.gathers k = none ∧
      (∀ a ∈ z.arr, (thread x' a.lane).pc = nextPc (thread x a.lane).inst (thread x a.lane).pc ∧ (thread x' a.lane).wait = .none) ∧
      ∀ o ∈ (gatherOuts z.instr (valued z)).2, ∀ r, (gatherOuts z.instr (valued z)).1 = some (.v r) →
        regsOf x' o.1 (.v r) o.2.ws.length = o.2.ws

/-- R153 to R155, R158: after a control transfer every member stands at INDEX 0 of its target or, where its predicate is
false, of the next clause; the target of BRA, BRC and CALL is CLAUSE + sext(IMM) × 8, and one that leaves the 57
bits of an address wraps; BRC goes by its bit; CALL and CALLI leave the next clause's address in the link, the
target being read first; NOP as the last word passes every member on. A target that wraps is the model's choice (log
entry 57). -/
def Obligations.ControlTransfers : Prop :=
  ∀ s x y, Issues s x y →
    let target (off : Word) : DWord := (y.clause + 8 * off.signExtend 64) &&& 0x01FFFFFFFFFFFFFF
    (∀ off, ∃ s', exec (.bra off) s = .next s' ∧ Left s s' y fun _ => target off) ∧
    (∀ c sense off, ∃ s', exec (.brc c sense off) s = .next s' ∧
      Left s s' y fun l => if cbit (thread x l) c != sense then target off else nextClause y) ∧
    (∀ p a, (∃ s', exec (.jmpi p a) s = .next s' ∧
        Left s s' y fun l => if performs p (thread x l) then rd64 x (thread x l) a &&& 0x01FFFFFFFFFFFFF8 else nextClause y) ∧
      (∃ s', exec (.ret p a) s = .next s' ∧
        Left s s' y fun l => if performs p (thread x l) then rd64 x (thread x l) a &&& 0x01FFFFFFFFFFFFF8 else nextClause y)) ∧
    (∀ d off, ∃ s', exec (.call d off) s = .next s' ∧ (Left s s' y fun _ => target off) ∧
      ∀ l ∈ y.lanes, ((∃ k, d = .v k) ∨ y.lanes.head? = some l) →
        regsOf (after s s') l d 2 = words64 (nextClause y)) ∧
    (∀ p d a, ∃ s', exec (.calli p d a) s = .next s' ∧
      (Left s s' y fun l => if performs p (thread x l) then rd64 x (thread x l) a &&& 0x01FFFFFFFFFFFFF8 else nextClause y) ∧
      ∀ l ∈ performers x y p, ((∃ k, d = .v k) ∨ (performers x y p).head? = some l) →
        regsOf (after s s') l d 2 = words64 (nextClause y)) ∧
    (∀ p, ∃ s', exec (.nop p) s = .next s' ∧ Passed s s' y)

/-- R159, R371: a YIELD that a member performs while a request stands chooses the wave for a cooperative eviction;
otherwise it acts as NOP. Either way its group goes to the next clause.

R160: SLEEP puts a member to wait until TICKS has advanced by its operand, in no group; SLEEP 0 has no effect; a
thread whose time has come becomes ready at the next clause.

R161: WAITV loads a word. A word that differs from operand c goes to the destination and the thread goes on at the
next clause; an equal one makes it wait, with the instruction's operands, in no group. A thread whose sleep is over,
there having been a store event to a sector of the word or 1,024 clocks of its quarter, loads again, to the same
effect; one whose sleep is not over does not. A load that is cut between its sectors goes on with the other, to the
same effect (R200). That SLEEP and WAITV wait in no group, and that a cut load watches both its sectors, are the
model's readings (log entry 13). -/
def Obligations.TimedWaits : Prop :=
  (
    ∀ s x y p, Issues s x y →
      ∃ s', exec (.yield p) s = .next s' ∧ (Left s s' y fun _ => nextClause y) ∧
        (after s s').leaving =
          if (∃ l ∈ y.lanes, performs p (thread x l) = true) ∧ (∃ dl, x.yieldReq = some dl ∧ s.dev.ticks ≤ dl)
          then some true else x.leaving) ∧
  (
    (∀ s x y l t p a, Alone s x y l t → performs p t = true →
      ∃ s', exec (.sleep p a) s = .next s' ∧ NMap.find? (after s s').groups s.dev.cur.2 = none ∧
        (if rd32 x t a = 0 then
          (thread (after s s') l).pc = nextClause y ∧ (thread (after s s') l).wait = .none
        else
          (thread (after s s') l).pc = groupPc y ∧
          (thread (after s s') l).wait = .sleep (s.dev.ticks + (rd32 x t a).toNat))) ∧
    (∀ s w l x t til, NMap.find? s.dev.waves w = some x → x.groups = [] → NMap.find? x.threads l = some t →
      t.wait = .sleep til → til ≤ s.dev.ticks → retained s w = false →
      ∃ s', exec (.sleepExpiry w l) s = .next s' ∧ (threadAt s'.dev w l).wait = .none ∧
        (threadAt s'.dev w l).pc = clauseAfter t.pc)) ∧
  (
    (∀ s x y l t p d r i c g a, Alone s x y l t → performs p t = true →
      InScratch s x g (recOf (rdRec x r)) (rd32 x t i) 0 4 a →
      let w := BitVec.ofNat 32 (leNat (Memory.bytes g.mem a 4))
      ∃ s', exec (.waitv p d r i c) s = .next s' ∧ s'.dev.mem = s.dev.mem ∧ s'.dev.wgs = s.dev.wgs ∧
        if w = rd32 x t c then
          NMap.find? (after s s').groups s.dev.cur.2 = none ∧ (thread (after s s') l).pc = groupPc y ∧
          (∃ wt : Watch, (thread (after s s') l).wait = .waitv d (rdRec x r) (rd32 x t i) (rd32 x t c) wt ∧
            Loc.scr x.wg (a / 32 * 32) ∈ wt.locs ∧ wt.writes = writesOf s'.dev wt.locs ∧ wt.clk = some (clockOf s.dev x)) ∧
          (thread (after s s') l).v = t.v
        else Passed s s' y ∧ regsOf (after s s') l d 1 = [w]) ∧
    (∀ s w l x t d r i c wt, NMap.find? s.dev.waves w = some x → NMap.find? x.threads l = some t →
      t.wait = .waitv d r i c wt → wt.rest = [] → writesOf s.dev wt.locs = wt.writes →
      (∃ n, wt.clk = some n ∧ clockOf s.dev x < n + 1024) → exec (.waitvRecheck w l) s = .next s) ∧
    (∀ s w l x t d r i c wt g a, NMap.find? s.dev.waves w = some x → x.groups = [] → x.resident = true →
      retained s w = false → NMap.find? x.threads l = some t → t.run = .run → t.wait = .waitv d r i c wt →
      wt.rest = [] → s.dev.cut = none → (writesOf s.dev wt.locs ≠ wt.writes ∨ ∃ n, wt.clk = some n ∧ n + 1024 ≤ clockOf s.dev x) →
      InScratch s x g (recOf r) i 0 4 a → (∃ n, d = .v n) ∨ t.lead = true → NotLater x (issueOrd x l) d 1 →
      let u := BitVec.ofNat 32 (leNat (Memory.bytes g.mem a 4))
      ∃ s', exec (.waitvRecheck w l) s = .next s' ∧ s'.dev.mem = s.dev.mem ∧ s'.dev.wgs = s.dev.wgs ∧
        if u = c then (∃ wt' : Watch, (threadAt s'.dev w l).wait = .waitv d r i c wt' ∧ wt'.clk = some (clockOf s.dev x)) ∧
          (threadAt s'.dev w l).pc = t.pc
        else (threadAt s'.dev w l).wait = .none ∧ (threadAt s'.dev w l).pc = clauseAfter t.pc ∧
          regsOf (wave s'.dev w) l d 1 = [u]) ∧
    (∀ s w l x t d r i c wt h o n, NMap.find? s.dev.waves w = some x → x.groups = [] → x.resident = true →
      retained s w = false → NMap.find? x.threads l = some t → t.run = .run → t.wait = .waitv d r i c wt →
      wt.rest = [(.scr h o, n)] → h ≠ 0 → s.dev.cut = none → (∃ q, d = .v q) ∨ t.lead = true → NotLater x (issueOrd x l) d 1 →
      let u := BitVec.ofNat 32 (leNat (wt.got ++ Memory.bytes (wg s.dev h).mem o n))
      ∃ s', exec (.waitvRecheck w l) s = .next s' ∧ s'.dev.mem = s.dev.mem ∧ s'.dev.wgs = s.dev.wgs ∧
        if u = c then (∃ wt' : Watch, (threadAt s'.dev w l).wait = .waitv d r i c wt' ∧ wt'.rest = [] ∧
            (Loc.scr h o).sector ∈ wt'.locs ∧ wt'.clk = some (clockOf s.dev x)) ∧
          (threadAt s'.dev w l).pc = t.pc
        else (threadAt s'.dev w l).wait = .none ∧ (threadAt s'.dev w l).pc = clauseAfter t.pc ∧
          regsOf (wave s'.dev w) l d 1 = [u]))

/-- R157, R373: EXIT completes in every group whose members run: each thread whose predicate holds runs no more, and
while a thread outside the group runs the wave records it as exited. For a thread without registrations, while
another thread of its wave runs, nothing else changes: no other thread, wave, context or object, and of the wave no
register. -/
def Obligations.ExitEndsThread : Prop :=
  (∀ s x y p, Issues s x y → (∀ l ∈ y.lanes, (thread x l).run = .run ∧ (thread x l).wait = .none) →
    (∀ q ∈ x.gathers, ∀ a ∈ q.2.arr, a.lane ∉ y.lanes) → (s.dev.waves.map Prod.fst).Nodup →
    ∃ s', exec (.exit p) s = .next s' ∧
      (∀ l ∈ performers x y p, ∀ u, NMap.find? (after s s').threads l = some u → alive u = false) ∧
      (x.gathers = [] → x.fatal = none → (∃ m u, m ∉ y.lanes ∧ (m, u) ∈ x.threads ∧ alive u = true) →
        ∀ l ∈ performers x y p, (thread (after s s') l).run = .exited)) ∧
  (∀ s x y l t p, Alone s x y l t → performs p t = true → t.breg = 0 → t.rings = [] → t.paint = none →
    (launch s.dev t.launch).hdr.rep = false → (∃ m u, m ≠ l ∧ (m, u) ∈ x.threads ∧ alive u = true) →
    ∃ s' x', exec (.exit p) s = .next s' ∧
      s' = { s with dev := { s.dev with waves := s'.dev.waves } } ∧
      (∀ w, w ≠ s.dev.cur.1 → NMap.find? s'.dev.waves w = NMap.find? s.dev.waves w) ∧
      NMap.find? s'.dev.waves s.dev.cur.1 = some x' ∧ x' = { x with threads := x'.threads, groups := [] } ∧
      (∀ m, m ≠ l → NMap.find? x'.threads m = NMap.find? x.threads m) ∧
      NMap.find? x'.threads l =
        some { t with run := .exited, pc := groupPc y, wait := .none, lead := false, mark := .none })

/-! ### Class 1: memory -/

/-- R213, R214, R186: in the scratchpad an LD gives the bytes it reads, extended as its size says; an ST changes exactly
its bytes, low byte first. R209: the same in a neighbourhood's window, in the scratchpad of the workgroup whose
slice it is. Every other byte of storage, every other register and every other thread stays. R208: a dropped access,
in any space, loads zero and stores nothing. -/
def Obligations.ScratchpadAccess : Prop :=
  (∀ s x y l t p r i j, Alone s x y l t → performs p t = true → (recOf (rdRec x r)).valid = true →
    let dropped (n : Nat) : Prop :=
      let q := recOf (rdRec x r)
      let e := (fmtSize q.fmt).getD 1
      let m := max 1 ((n + e - 1) / e)
      q.bounds = 2 ∧ (q.ext0 < (rd32 x t i).toNat + m ∨ q.ext1 ≤ (rd32 x t j).toNat) ∨
      q.bounds = 1 ∧ (q.ext0 < m ∨ q.ext1 = 0)
    (∀ k d, dropped (LdW.bytes k) →
      ∃ s', exec (.ld k p d r i j) s = .next s' ∧ Passed s s' y ∧
        regsOf (after s s') l d (LdW.n k) = List.replicate (LdW.n k) 0 ∧
        s'.dev.mem = s.dev.mem ∧ s'.dev.wgs = s.dev.wgs ∧
        ThreadKept s s' t l (some (d, LdW.n k)) ∧ OthersKept s s' x l (some (d, LdW.n k))) ∧
    (∀ k c, dropped (StW.bytes k) → (MayOrder s x ∨ (recOf (rdRec x r)).order = 0) →
      ∃ s', exec (.st k p c r i j) s = .next s' ∧ Passed s s' y ∧
        s'.dev.mem = s.dev.mem ∧ s'.dev.wgs = s.dev.wgs ∧
        ThreadKept s s' t l none ∧ OthersKept s s' x l none)) ∧
  (∀ s x y l t p k d r i j g a, Alone s x y l t → performs p t = true →
    InScratch s x g (recOf (rdRec x r)) (rd32 x t i) (rd32 x t j) (LdW.bytes k) a →
    ∃ s', exec (.ld k p d r i j) s = .next s' ∧ Passed s s' y ∧
      regsOf (after s s') l d (LdW.n k) = loaded k (Memory.bytes g.mem a (LdW.bytes k)) ∧
      s'.dev.mem = s.dev.mem ∧ s'.dev.wgs = s.dev.wgs ∧
      ThreadKept s s' t l (some (d, LdW.n k)) ∧ OthersKept s s' x l (some (d, LdW.n k))) ∧
  (∀ s x y l t p k c r i j g a, Alone s x y l t → performs p t = true →
    InScratch s x g (recOf (rdRec x r)) (rd32 x t i) (rd32 x t j) (StW.bytes k) a →
    (MayOrder s x ∨ (recOf (rdRec x r)).order = 0) →
    (∀ q ∈ sectorSpans a (StW.bytes k), registered s.dev (.scr x.wg q.1) = false) →
    ∃ s', exec (.st k p c r i j) s = .next s' ∧ Passed s s' y ∧
      (∀ b < StW.bytes k, scratchByte s'.dev x.wg (a + b) = storedByte k x t c b) ∧
      (∀ b, (b < a ∨ a + StW.bytes k ≤ b) → scratchByte s'.dev x.wg b = scratchByte s.dev x.wg b) ∧
      (∀ h b, h ≠ x.wg → scratchByte s'.dev h b = scratchByte s.dev h b) ∧ s'.dev.mem = s.dev.mem ∧
      ThreadKept s s' t l none ∧ OthersKept s s' x l none) ∧
  (∀ s x y l t p k d r i j g a h o, Alone s x y l t → performs p t = true →
    InWindow s x g (recOf (rdRec x r)) (rd32 x t i) (rd32 x t j) (LdW.bytes k) a h o →
    ∃ s', exec (.ld k p d r i j) s = .next s' ∧ Passed s s' y ∧
      regsOf (after s s') l d (LdW.n k) = loaded k (Memory.bytes (wg s.dev h).mem o (LdW.bytes k)) ∧
      s'.dev.mem = s.dev.mem ∧ s'.dev.wgs = s.dev.wgs ∧
      ThreadKept s s' t l (some (d, LdW.n k)) ∧ OthersKept s s' x l (some (d, LdW.n k))) ∧
  (∀ s x y l t p k c r i j g a h o, Alone s x y l t → performs p t = true →
    InWindow s x g (recOf (rdRec x r)) (rd32 x t i) (rd32 x t j) (StW.bytes k) a h o →
    (MayOrder s x ∨ (recOf (rdRec x r)).order = 0) → registered s.dev (.scr h o) = false →
    ∃ s', exec (.st k p c r i j) s = .next s' ∧ Passed s s' y ∧
      (∀ b < StW.bytes k, scratchByte s'.dev h (o + b) = storedByte k x t c b) ∧
      (∀ b, (b < o ∨ o + StW.bytes k ≤ b) → scratchByte s'.dev h b = scratchByte s.dev h b) ∧
      (∀ u b, u ≠ h → scratchByte s'.dev u b = scratchByte s.dev u b) ∧ s'.dev.mem = s.dev.mem ∧
      ThreadKept s s' t l none ∧ OthersKept s s' x l none)

/-- R213, R214, R189 to R191: the same in main memory, at the physical address of a mapped page. A load of a sector of
which its core holds no copy reads what the latest write left there (log entry 7). An access that crosses a sector
does so in two parts, each at the physical address of its own page (R200).

R197, R206: a load of a sector of which its core's L1 holds a pinned copy, at a timestamp within the copy's lease,
returns the copy's bytes, whatever stands at home, and moves the thread's timestamp as R197 says. Which timestamp a
reader of a lower agent number takes is the model's reading (log entry 7). -/
def Obligations.GlobalAccess : Prop :=
  (
    (∀ s x y l t p k d r i j a pa, Alone s x y l t → performs p t = true →
      InGlobal s x (recOf (rdRec x r)) (rd32 x t i) (rd32 x t j) .load (LdW.bytes k) a pa →
      l1Copy (core s.dev x.core) pa = none →
      ∃ s', exec (.ld k p d r i j) s = .next s' ∧ Passed s s' y ∧
        regsOf (after s s') l d (LdW.n k) = loaded k (Memory.bytes s.dev.mem pa (LdW.bytes k)) ∧
        s'.dev.mem = s.dev.mem ∧ s'.dev.wgs = s.dev.wgs ∧
        ThreadKept s s' t l (some (d, LdW.n k)) ∧ OthersKept s s' x l (some (d, LdW.n k))) ∧
    (∀ s x y l t p k c r i j a pa, Alone s x y l t → performs p t = true →
      InGlobal s x (recOf (rdRec x r)) (rd32 x t i) (rd32 x t j) .store (StW.bytes k) a pa →
      (MayOrder s x ∨ (recOf (rdRec x r)).order = 0) → registered s.dev (.glob pa) = false →
      ∃ s', exec (.st k p c r i j) s = .next s' ∧ Passed s s' y ∧
        (∀ b < StW.bytes k, memByte s'.dev (pa + b) = storedByte k x t c b) ∧
        (∀ b, (b < pa ∨ pa + StW.bytes k ≤ b) → memByte s'.dev b = memByte s.dev b) ∧ s'.dev.wgs = s.dev.wgs ∧
        ThreadKept s s' t l none ∧ OthersKept s s' x l none) ∧
    (∀ s x y l t p k d r i j a pa pb, Alone s x y l t → performs p t = true →
      InTwoSectors s x (recOf (rdRec x r)) (rd32 x t i) (rd32 x t j) .load (LdW.bytes k) a pa pb →
      l1Copy (core s.dev x.core) pa = none → l1Copy (core s.dev x.core) pb = none →
      let n := 32 - a % 32
      ∃ s', exec (.ld k p d r i j) s = .next s' ∧ Passed s s' y ∧
        regsOf (after s s') l d (LdW.n k) =
          loaded k (Memory.bytes s.dev.mem pa n ++ Memory.bytes s.dev.mem pb (LdW.bytes k - n)) ∧
        s'.dev.mem = s.dev.mem ∧ s'.dev.wgs = s.dev.wgs ∧
        ThreadKept s s' t l (some (d, LdW.n k)) ∧ OthersKept s s' x l (some (d, LdW.n k))) ∧
    (∀ s x y l t p k c r i j a pa pb, Alone s x y l t → performs p t = true →
      InTwoSectors s x (recOf (rdRec x r)) (rd32 x t i) (rd32 x t j) .store (StW.bytes k) a pa pb →
      (MayOrder s x ∨ (recOf (rdRec x r)).order = 0) → registered s.dev (.glob pa) = false →
      registered s.dev (.glob pb) = false →
      let n := 32 - a % 32
      ∃ s', exec (.st k p c r i j) s = .next s' ∧ Passed s s' y ∧
        (∀ b < StW.bytes k, memByte s'.dev (if b < n then pa + b else pb + (b - n)) = storedByte k x t c b) ∧
        (∀ b, (b < pa ∨ pa + n ≤ b) → (b < pb ∨ pb + (StW.bytes k - n) ≤ b) → memByte s'.dev b = memByte s.dev b) ∧
        s'.dev.wgs = s.dev.wgs ∧ ThreadKept s s' t l none ∧ OthersKept s s' x l none)) ∧
  (
    ∀ s x y l t p k d r i j a pa c, Alone s x y l t → performs p t = true →
      InGlobal s x (recOf (rdRec x r)) (rd32 x t i) (rd32 x t j) .load (LdW.bytes k) a pa →
      l1Copy (core s.dev x.core) pa = some c → pinned (core s.dev x.core) (pa / 128) = true → c.bytes.length = 32 →
      let ts := max t.pts.toNat (if (Who.lane s.dev.cur.1 l).num < c.ag then c.wts.toNat + 1 else c.wts.toNat)
      ts ≤ c.lr.toNat →
      ∃ s', exec (.ld k p d r i j) s = .next s' ∧ Passed s s' y ∧
        regsOf (after s s') l d (LdW.n k) = loaded k ((c.bytes.drop (pa % 32)).take (LdW.bytes k)) ∧
        s'.dev.mem = s.dev.mem ∧ s'.dev.wgs = s.dev.wgs ∧ s'.dev.home = s.dev.home ∧
        (thread (after s s') l).pts = BitVec.ofNat 64 ts)

/-- R210 to R212: LD, ST, SATOM, ATOM and ATOMN make their checks in order, and the first that fails raises its fault,
with nothing else done to storage: RESERVED-FIELD for the record, TOKEN-ABSENT in deterministic mode, BOUNDS,
PROTECTION for alignment, space or page, BARRIER-OVERWRITE for a registered sector. The thread parks with TPC at the
instruction and TADDR at the address. R192: where a page is missing it parks on PAGE so, with the address, the kind
and the level. That a cas counts as a store for BARRIER-OVERWRITE whatever its compare is the model's reading (log
entry 46). -/
def Obligations.AccessFaults : Prop :=
  ∀ i q s x y l t, accessOf i = some q → Alone s x y l t → performs q.p t = true → inHandler x = false → q.plain s x t →
    let ta := BitVec.ofNat 64 ((q.rec_ x).addr (q.i1 x t) (q.i2 x t))
    (∀ c, q.fault s x t = some c →
      ∃ s', exec i s = .next s' ∧ (thread (after s s') l).run = .fault c ∧
        (thread (after s s') l).tpc = groupPc y ∧ (thread (after s s') l).taddr = ta ∧
        (after s s').first = some { code := c, lane := l, mask := 1#64 <<< l, user := 0, ord := y.ord } ∧
        s'.dev.mem = s.dev.mem ∧ s'.dev.wgs = s.dev.wgs ∧ (thread (after s s') l).v = t.v ∧
        (∀ k < s.dev.nextId, NMap.find? s'.dev.svc k = NMap.find? s.dev.svc k)) ∧
    (∀ a lv, q.Pages s x t a lv →
      ∃ s', exec i s = .next s' ∧ (thread (after s s') l).run = .page ∧
        (thread (after s s') l).tpc = groupPc y ∧ (thread (after s s') l).taddr = ta ∧
        (thread (after s s') l).pgVa = a ∧ (thread (after s s') l).pgLevel = lv ∧
        (thread (after s s') l).pgKind = (if q.atomic then 3 else if q.stores then 2 else 1) ∧
        (after s s').first = none ∧
        s'.dev.mem = s.dev.mem ∧ s'.dev.wgs = s.dev.wgs ∧ (thread (after s s') l).v = t.v)

/-- R222 to R227: SATOM performs its operation on the scratchpad at once and gives the old value; ATOM and ATOMN send a
request to the service wave, and the thread waits for it.

R223 to R225: the service wave reads the location, applies the operation and writes it, in one event; an ATOMN's
thread then goes on; the reply of an ATOM gives its thread the value that stood there. R211: where the sector has
been registered since the checks, nothing is written and the thread takes BARRIER-OVERWRITE. That the thread waits
(log entry 16), and which agent the event belongs to (log entry 3), are the model's; a cas counts as a store for
BARRIER-OVERWRITE whatever its compare (log entry 46); that a sector registered since the checks is not written is
the model's reading (log entry 6). -/
def Obligations.Atomics : Prop :=
  (
    (∀ s x y l t p op ty d r i c g a, Alone s x y l t → performs p t = true →
      InScratch s x g (recOf (rdRec x r)) (rd32 x t i) 0 (ATy.bytes ty) a → a % ATy.bytes ty = 0 →
      (MayOrder s x ∨ (recOf (rdRec x r)).order = 0) → registered s.dev (.scr x.wg a) = false →
      let old : DWord := BitVec.ofNat 64 (leNat (Memory.bytes g.mem a (ATy.bytes ty)))
      ∃ s', exec (.satom op ty p d r i c) s = .next s' ∧ Passed s s' y ∧
        regsOf (after s s') l d (ATy.n ty) = ATy.words ty old ∧
        leNat (Memory.bytes (wg s'.dev x.wg).mem a (ATy.bytes ty)) =
          (atomNew op ty old (atomData op ty x t c)).toNat % 2 ^ (8 * ATy.bytes ty) ∧
        (∀ b, (b < a ∨ a + ATy.bytes ty ≤ b) → scratchByte s'.dev x.wg b = scratchByte s.dev x.wg b) ∧
        s'.dev.mem = s.dev.mem) ∧
    (∀ s x y l t p op ty d r i c a pa, Alone s x y l t → performs p t = true →
      InGlobal s x (recOf (rdRec x r)) (rd32 x t i) 0 .store (ATy.bytes ty) a pa → a % ATy.bytes ty = 0 → MayOrder s x →
      registered s.dev (.glob pa) = false →
      let ops : List AtomOp := [{ lane := l, launch := t.launch, workid := t.workid, ord := t.nAtom, addr := a, pa := pa
                                  data := atomData op ty x t c }]
      (∃ s', exec (.atom op ty p d r i c) s = .next s' ∧ (thread (after s s') l).wait = .atom s.dev.nextId ∧
        s'.dev.mem = s.dev.mem ∧
        NMap.find? s'.dev.svc s.dev.nextId =
          some { wave := s.dev.cur.1, op := op, ty := ty, ret := true, d := d, ops := ops, live := true }) ∧
      (∃ s', exec (.atomn op ty p r i c) s = .next s' ∧ (thread (after s s') l).wait = .atom s.dev.nextId ∧
        s'.dev.mem = s.dev.mem ∧
        NMap.find? s'.dev.svc s.dev.nextId =
          some { wave := s.dev.cur.1, op := op, ty := ty, ret := false, d := .v 0, ops := ops, live := true }))) ∧
  (
    (∀ s k q w g x y l t o, WaitsAlone s w g x y l t (.atom k) → NMap.find? s.dev.svc k = some q → q.wave = w →
      q.live = true → q.ops = [o] → o.lane = l → o.old = none →
      (launch s.dev o.launch).hdr.rep = false → (launch s.dev o.launch).hdr.rec_ = false →
      let n := ATy.bytes q.ty
      let old : DWord := BitVec.ofNat 64 (leNat (Memory.bytes s.dev.mem o.pa n))
      (registered s.dev (.glob o.pa) = true → inHandler x = false →
        ∃ s', exec (.serviceWaveAtomic k) s = .next s' ∧ s'.dev.mem = s.dev.mem ∧ s'.dev.wgs = s.dev.wgs ∧
          NMap.find? s'.dev.svc k = none ∧ (threadAt s'.dev w l).run = .fault 0x24 ∧
          (threadAt s'.dev w l).taddr = BitVec.ofNat 64 o.addr) ∧
      (registered s.dev (.glob o.pa) = false → ∃ s', exec (.serviceWaveAtomic k) s = .next s' ∧
        leNat (Memory.bytes s'.dev.mem o.pa n) = (atomNew q.op q.ty old o.data).toNat % 2 ^ (8 * n) ∧
        (∀ b, (b < o.pa ∨ o.pa + n ≤ b) → memByte s'.dev b = memByte s.dev b) ∧ s'.dev.wgs = s.dev.wgs ∧
        (if q.ret then NMap.find? s'.dev.svc k = some { q with ops := [{ o with old := some old }] }
        else NMap.find? s'.dev.svc k = none ∧ PassedAt s' w g y))) ∧
    (∀ s k q w g x y l t o old, WaitsAlone s w g x y l t (.atom k) → NMap.find? s.dev.svc k = some q →
      q.wave = w → q.live = true → q.ops = [o] → o.lane = l → o.old = some old →
      (∃ n, q.d = .v n) ∨ t.lead = true → NotLater x y.ord q.d (ATy.n q.ty) → retained s w = false →
      ∃ s', exec (.atomicReplyWrite k) s = .next s' ∧ NMap.find? s'.dev.svc k = none ∧ PassedAt s' w g y ∧
        regsOf (wave s'.dev w) l q.d (ATy.n q.ty) = ATy.words q.ty old ∧ s'.dev.mem = s.dev.mem))

/-- R219 to R221: DLD loads the record a handle names, DMK makes one of two quads, DGET and DSET read and write one
word; a handle that names none raises GENERATION. R215: PREF has no effect.

R205, R206, R216, R217: LOCK pins the line of a global byte while the context holds fewer than LOCKQ lines there and
the pinned lines are fewer than half of the L1, with status 0; UNLOCK ends the wave's hold of it. -/
def Obligations.RecordRegistersAndLocks : Prop :=
  (
    (∀ s x y l t p d a v, Alone s x y l t → performs p t = true → handleRec (ctx s.dev x.ctx) (rd32 x t a) = some v →
      ∃ s', exec (.dld p d a) s = .next s' ∧ Passed s s' y ∧ rdRec (after s s') d = v ∧
        ∀ e, e ≠ d → rdRec (after s s') e = rdRec x e) ∧
    (∀ s x y l t p d a, Alone s x y l t → performs p t = true → handleRec (ctx s.dev x.ctx) (rd32 x t a) = none →
      inHandler x = false →
      ∃ s', exec (.dld p d a) s = .next s' ∧ (thread (after s s') l).run = .fault 0x23 ∧ (after s s').d = x.d) ∧
    (∀ s x y l t p d, Issues s x y → (performers x y p).head? = some l → NMap.find? x.threads l = some t →
      (∀ a b, ∃ s', exec (.dmk p d a b) s = .next s' ∧ Passed s s' y ∧ rdRec (after s s') d = rd128 x t b ++ rd128 x t a ∧
        ∀ e, e ≠ d → rdRec (after s s') e = rdRec x e) ∧
      (∀ k a, ∃ s', exec (.dset k p d a) s = .next s' ∧ Passed s s' y ∧
        (∀ n : Fin 8, (rdRec (after s s') d).extractLsb' (32 * n.val) 32 =
          if n = k then rd32 x t a else (rdRec x d).extractLsb' (32 * n.val) 32) ∧
        ∀ e, e ≠ d → rdRec (after s s') e = rdRec x e)) ∧
    (∀ k p d r, Gives (.dget k p d r) p d (fun x _ => [(rdRec x r).extractLsb' (32 * k.val) 32])) ∧
    (∀ s x y lv p r i j, Issues s x y → ∃ s', exec (.pref lv p r i j) s = .next s' ∧ Passed s s' y ∧
      s'.dev.mem = s.dev.mem ∧ s'.dev.wgs = s.dev.wgs ∧ sameRegs x (after s s'))) ∧
  (
    (∀ s x y l t p k d r i j a pa, Alone s x y l t → performs p t = true →
      InGlobal s x (recOf (rdRec x r)) (rd32 x t i) (rd32 x t j) .load 1 a pa →
      let ps := (core s.dev x.core).pins
      (∀ q ∈ ps, (q.ctx == x.ctx && q.line == a / 128) = false) →
      (ps.filter fun q => q.ctx == x.ctx).length < (ctx s.dev x.ctx).lockq →
      ps.length < (10 - (core s.dev x.core).split) * 4096 →
      ∃ s', exec (.lock k p d r i j) s = .next s' ∧ Passed s s' y ∧ regsOf (after s s') l d 1 = [0] ∧
        cbit (thread (after s s') l) k = true ∧
        (core s'.dev x.core).pins = ps ++ [{ ctx := x.ctx, line := a / 128, pa := pa / 128, holders := [s.dev.cur.1] }]) ∧
    (∀ s x y l t p r i j a, Alone s x y l t → performs p t = true → (recOf (rdRec x r)).valid = true →
      (recOf (rdRec x r)).space = 0 → (recOf (rdRec x r)).form 1 (rd32 x t i).toNat (rd32 x t j).toNat = .at a →
      ∃ s', exec (.unlock p r i j) s = .next s' ∧ Passed s s' y ∧
        ∀ q ∈ (core s'.dev x.core).pins, q.ctx = x.ctx → q.line = a / 128 → s.dev.cur.1 ∉ q.holders))

/-! ### Class 3: synchronisation -/

/-- R233, R234, R240, R241, R243: on a barrier of a scratchpad. BARRIVE counts the thread and arms the barrier; BDROP
takes it off EXPECTED; BEXPECT adds to COUNTDOWN and arms; each is followed by the completion check.

R241, R242: BWAIT passes where the phase of the thread's arrival is complete and waits where it is not; BSYNC
arrives first; BQUERY gives half of the sector, its .st form clearing STATUS and DONE; a waiting thread wakes with
the phase. -/
def Obligations.Barriers : Prop :=
  (
    ∀ s x y l t p k sl d h o, Alone s x y l t → performs p t = true → BarrierHere s x sl h o →
      let b := readBar s.dev (.scr h o)
      b.broken = false →
      (t.breg.getLsbD sl.val = true → NMap.find? t.arr sl.val ≠ some b.phase →
        ∃ s', exec (.barrive k sl p d) s = .next s' ∧ Passed s s' y ∧ Status s s' l d k 0 ∧
          readBar s'.dev (.scr h o) = Bar.check { b with arrived := b.arrived + 1, armed := true } ∧
          NMap.find? (thread (after s s') l).arr sl.val = some b.phase) ∧
      (t.breg.getLsbD sl.val = true → NMap.find? t.arr sl.val = some b.phase →
        ∃ s', exec (.barrive k sl p d) s = .next s' ∧ Passed s s' y ∧ Status s s' l d k 3 ∧
          readBar s'.dev (.scr h o) = b) ∧
      (t.breg.getLsbD sl.val = true →
        ∃ s', exec (.bdrop k sl p d) s = .next s' ∧ Passed s s' y ∧ Status s s' l d k 0 ∧
          readBar s'.dev (.scr h o) =
            Bar.check { b with arrived := if NMap.find? t.arr sl.val = some b.phase then b.arrived - 1 else b.arrived
                               expected := b.expected - 1 } ∧
          (thread (after s s') l).breg.getLsbD sl.val = false) ∧
      (∀ a, ∃ s', exec (.bexpect k sl p d a) s = .next s' ∧ Passed s s' y ∧ Status s s' l d k 0 ∧
        readBar s'.dev (.scr h o) = Bar.check { b with countdown := b.countdown + rd32 x t a, armed := true })) ∧
  (
    (∀ s x y l t p k sl d h o, Alone s x y l t → performs p t = true → BarrierHere s x sl h o →
      t.breg.getLsbD sl.val = true → holdsToken s.dev s.dev.cur.1 = false →
      let b := readBar s.dev (.scr h o)
      b.broken = false → b.status = 0 →
      (NMap.find? t.arr sl.val ≠ some b.phase →
        ∃ s', exec (.bwait k sl p d) s = .next s' ∧ Passed s s' y ∧ Status s s' l d k 0) ∧
      (NMap.find? t.arr sl.val = some b.phase →
        ∃ s', exec (.bwait k sl p d) s = .next s' ∧ (thread (after s s') l).wait = .bar sl d k ∧
          readBar s'.dev (.scr h o) = b) ∧
      (NMap.find? t.arr sl.val ≠ some b.phase → b.arrived + 1 = b.expected → b.countdown.toInt ≤ 0 →
        ∃ s', exec (.bsync k sl p d) s = .next s' ∧ Passed s s' y ∧ Status s s' l d k 0 ∧
          readBar s'.dev (.scr h o) = { b with phase := b.phase + 1, arrived := 0, countdown := 0, armed := false }) ∧
      (NMap.find? t.arr sl.val ≠ some b.phase → b.arrived + 1 ≠ b.expected →
        ∃ s', exec (.bsync k sl p d) s = .next s' ∧ (thread (after s s') l).wait = .bar sl d k ∧
          readBar s'.dev (.scr h o) = { b with arrived := b.arrived + 1, armed := true })) ∧
    (∀ s x y l t p k sl d h o, Alone s x y l t → performs p t = true → BarrierHere s x sl h o →
      let b := readBar s.dev (.scr h o)
      let half (at0 : Nat) : List Word := (List.range 4).map fun i => BitVec.ofNat 32 (leNat (Memory.bytes (wg s.dev h).mem (o + at0 + 4 * i) 4))
      (∃ s', exec (.bquery false k sl p d) s = .next s' ∧ Passed s s' y ∧ regsOf (after s s') l d 4 = half 0 ∧
        cbit (thread (after s s') l) k = !b.broken ∧ readBar s'.dev (.scr h o) = b) ∧
      (∃ s', exec (.bquery true k sl p d) s = .next s' ∧ Passed s s' y ∧ regsOf (after s s') l d 4 = half 16 ∧
        cbit (thread (after s s') l) k = !b.broken ∧ readBar s'.dev (.scr h o) = { b with status := 0, done := 0 })) ∧
    (∀ s w g x y l t sl d k h o, WaitsAlone s w g x y l t (.bar sl d k) → x.resident = true → retained s w = false →
      BarrierHere s x sl h o → (∃ r, d = .v r) → (readBar s.dev (.scr h o)).broken = false → (readBar s.dev (.scr h o)).status = 0 →
      NMap.find? t.arr sl.val ≠ some (readBar s.dev (.scr h o)).phase →
      ∃ s', exec (.barrierWaitWake w l) s = .next s' ∧ PassedAt s' w g y ∧ regsOf (wave s'.dev w) l d 1 = [0] ∧
        cbit (threadAt s'.dev w l) k = true))

/-- R230, R240, R247: BINIT registers a barrier in an aligned sector of the scratchpad where none is, with the thread
the only one expected; RINIT registers a ring whose geometry is legal, with every slot free. While a store under way
has the sector still to write, both wait. That both wait while a store under way has the sector to write is the
model's reading (log entry 6). -/
def Obligations.ObjectsBegin : Prop :=
  ∀ s x y l t p k sl d r i j g a, Alone s x y l t → performs p t = true →
    InScratch s x g (recOf (rdRec x r)) (rd32 x t i) (rd32 x t j) 32 a → a % 32 = 0 →
    objAt s.dev (.scr x.wg a) = none → inKilnArea s.dev (.scr x.wg a) = false →
    (storeDue s.dev (.scr x.wg a) = true →
      (∃ s', exec (.binit k sl p d r i j) s = .next s' ∧ (thread (after s s') l).wait = .again ∧ s'.dev.objs = s.dev.objs ∧
        s'.dev.wgs = s.dev.wgs) ∧
      ∀ get, ∃ s', exec (.rinit get k sl p d r i j) s = .next s' ∧ (thread (after s s') l).wait = .again ∧
        s'.dev.objs = s.dev.objs ∧ s'.dev.wgs = s.dev.wgs) ∧
    (storeDue s.dev (.scr x.wg a) = false → NMap.find? g.bslots sl.val = none → t.breg.getLsbD sl.val = false →
      ∃ s', exec (.binit k sl p d r i j) s = .next s' ∧ Passed s s' y ∧ Status s s' l d k 0 ∧
        readBar s'.dev (.scr x.wg a) = { expected := 1 } ∧ (thread (after s s') l).breg = t.breg ||| (1#32 <<< sl.val) ∧
        (objAt s'.dev (.scr x.wg a)).isSome ∧
        NMap.find? (wg s'.dev x.wg).bslots sl.val = some { loc := .scr x.wg a, va := a }) ∧
    (∀ get, storeDue s.dev (.scr x.wg a) = false → NMap.find? g.rslots sl.val = none → NMap.find? t.rings sl.val = none →
      (readRing s.dev (.scr x.wg a)).geometryOk a g.scratch = true →
      ∃ s', exec (.rinit get k sl p d r i j) s = .next s' ∧ Passed s s' y ∧ Status s s' l d k 0 ∧
        (let q := readRing s.dev (.scr x.wg a)
         readRing s'.dev (.scr x.wg a) =
          { base := q.base, nslots := q.nslots, slotsz := q.slotsz, free := q.nslots
            getters := if get then 1 else 0, putters := if get then 0 else 1 }) ∧
        NMap.find? (wg s'.dev x.wg).rslots sl.val = some { loc := .scr x.wg a, va := a })

/-- R245, R248, R249: on a ring of a scratchpad. A putter reserves the slot at TAIL while FREE is not 0 and publishes it
into FILLED; a getter takes the slot at HEAD while FILLED is not 0, of a closed ring too, and releases it into FREE;
without a slot the thread waits, and wakes when there is one. On a closed ring a putter, and a getter that finds
nothing filled, receive CLOSED, waiting or not; a thread without the role receives UNBOUND, and on a broken ring
BROKEN. RCLOSE leaves the role, the last putter closing the ring. -/
def Obligations.Rings : Prop :=
  (∀ s x y l t p k sl d h o, Alone s x y l t → performs p t = true → RingHere s x sl h o →
    let r := readRing s.dev (.scr h o)
    let m := NMap.get {} t.rings sl.val
    (m.put = false → ∃ s', exec (.rputAcq k sl p d) s = .next s' ∧ Passed s s' y ∧ Status s s' l d k 4) ∧
    (m.get = false → ∃ s', exec (.rgetAcq k sl p d) s = .next s' ∧ Passed s s' y ∧ Status s s' l d k 4) ∧
    (r.broken = true →
      (m.put = true → ∃ s', exec (.rputAcq k sl p d) s = .next s' ∧ Passed s s' y ∧ Status s s' l d k 1) ∧
      (m.get = true → ∃ s', exec (.rgetAcq k sl p d) s = .next s' ∧ Passed s s' y ∧ Status s s' l d k 1)) ∧
    (r.broken = false →
      (m.put = true → r.closed = false → 0 < r.free →
        ∃ s', exec (.rputAcq k sl p d) s = .next s' ∧ Passed s s' y ∧
          regsOf (after s s') l d 1 = [BitVec.ofNat 32 (r.offset r.tail.toNat)] ∧ cbit (thread (after s s') l) k = true ∧
          readRing s'.dev (.scr h o) = { r with free := r.free - 1, tail := r.tail + 1 } ∧
          (NMap.get {} (thread (after s s') l).rings sl.val).reserved = m.reserved ++ [r.tail.toNat]) ∧
      (m.put = true → r.closed = false → r.free = 0 →
        ∃ s', exec (.rputAcq k sl p d) s = .next s' ∧ (thread (after s s') l).wait = .ring true sl d k ∧
          readRing s'.dev (.scr h o) = r) ∧
      (m.put = true → r.closed = true →
        ∃ s', exec (.rputAcq k sl p d) s = .next s' ∧ Passed s s' y ∧ Status s s' l d k 2 ∧
          readRing s'.dev (.scr h o) = r) ∧
      (m.get = true → 0 < r.filled →
        ∃ s', exec (.rgetAcq k sl p d) s = .next s' ∧ Passed s s' y ∧
          regsOf (after s s') l d 1 = [BitVec.ofNat 32 (r.offset r.head.toNat)] ∧ cbit (thread (after s s') l) k = true ∧
          readRing s'.dev (.scr h o) = { r with filled := r.filled - 1, head := r.head + 1 } ∧
          (NMap.get {} (thread (after s s') l).rings sl.val).taken = m.taken ++ [r.head.toNat]) ∧
      (m.get = true → r.filled = 0 → r.closed = false →
        ∃ s', exec (.rgetAcq k sl p d) s = .next s' ∧ (thread (after s s') l).wait = .ring false sl d k ∧
          readRing s'.dev (.scr h o) = r) ∧
      (m.get = true → r.filled = 0 → r.closed = true →
        ∃ s', exec (.rgetAcq k sl p d) s = .next s' ∧ Passed s s' y ∧ Status s s' l d k 2 ∧
          readRing s'.dev (.scr h o) = r) ∧
      (∀ a n q, m.put = true → m.reserved = [n] → r.offset n = (rd32 x t a).toNat → r.filled + 1 < 2 ^ 32 →
        objAt s.dev (.scr h o) = some q → q.pubNext = n →
        ∃ s', exec (.rputPub k sl p d a) s = .next s' ∧ Passed s s' y ∧ Status s s' l d k 0 ∧
          readRing s'.dev (.scr h o) = { r with filled := r.filled + 1 }) ∧
      (∀ a n q, m.get = true → m.taken = [n] → r.offset n = (rd32 x t a).toNat → r.free + 1 < 2 ^ 32 →
        objAt s.dev (.scr h o) = some q → q.relNext = n →
        ∃ s', exec (.rgetRel k sl p d a) s = .next s' ∧ Passed s s' y ∧ Status s s' l d k 0 ∧
          readRing s'.dev (.scr h o) = { r with free := r.free + 1 }) ∧
      (m.put = true → m.get = false → m.reserved = [] → 0 < r.putters →
        ∃ s', exec (.rclose k sl p d) s = .next s' ∧ Passed s s' y ∧ Status s s' l d k 0 ∧
          readRing s'.dev (.scr h o) = { r with putters := r.putters - 1, closed := r.closed || r.putters == 1 } ∧
          NMap.find? (thread (after s s') l).rings sl.val = none) ∧
      (m.put = false → m.get = true → m.taken = [] → 0 < r.getters →
        ∃ s', exec (.rclose k sl p d) s = .next s' ∧ Passed s s' y ∧ Status s s' l d k 0 ∧
          readRing s'.dev (.scr h o) = { r with getters := r.getters - 1 } ∧
          NMap.find? (thread (after s s') l).rings sl.val = none))) ∧
  (∀ s w g x y l t put sl d k h o, WaitsAlone s w g x y l t (.ring put sl d k) → x.resident = true →
    retained s w = false → x.threads = [(l, t)] → RingHere s x sl h o → (∃ q, d = .v q) →
    let r := readRing s.dev (.scr h o)
    let wakes (v : Nat) (ok : Bool) : Prop :=
      ∃ s', exec (.ringWaitWake w l) s = .next s' ∧ PassedAt s' w g y ∧
        regsOf (wave s'.dev w) l d 1 = [BitVec.ofNat 32 v] ∧ cbit (threadAt s'.dev w l) k = ok
    r.broken = false →
    (put = true → r.closed = false → 0 < r.free → wakes (r.offset r.tail.toNat) true) ∧
    (put = true → r.closed = true → wakes 2 false) ∧
    (put = false → 0 < r.filled → wakes (r.offset r.head.toNat) true) ∧
    (put = false → r.filled = 0 → r.closed = true → wakes 2 false) ∧
    ((if put then r.free else r.filled) = 0 → r.closed = false → exec (.ringWaitWake w l) s = .next s))

/-- The frame of the barrier and ring instructions on an object of a scratchpad (R229, R241, R242, R248, R249): main
memory stays, and every byte of every scratchpad outside the object's sector; so do every other wave and every other
thread of the wave, and of registers all but the destination and the thread's condition bits. -/
def Obligations.ObjectFrame : Prop :=
  ∀ i sl d n s s' x y l t h o, Alone s x y l t →
    (onBarrier i = some (sl, d, n) ∧ BarrierHere s x sl h o ∧ holdsToken s.dev s.dev.cur.1 = false ∨
      onRing i = some (sl, d, n) ∧ RingHere s x sl h o) → exec i s = .next s' →
    s' = { s with dev := s'.dev } ∧ s'.dev.mem = s.dev.mem ∧ s'.dev.host = s.dev.host ∧ s'.dev.ctxs = s.dev.ctxs ∧
    (∀ k b, (k ≠ h ∨ b < o ∨ o + 32 ≤ b) → scratchByte s'.dev k b = scratchByte s.dev k b) ∧
    (∀ w, w ≠ s.dev.cur.1 → NMap.find? s'.dev.waves w = NMap.find? s.dev.waves w) ∧
    (∀ m, m ≠ l → NMap.find? (after s s').threads m = NMap.find? x.threads m) ∧
    sameRegs { x with s := (after s s').s } (after s s') ∧
    (∀ q : Fin 64, untouched (some (d, n)) (.s q) = true → NMap.get 0 (after s s').s q.val = NMap.get 0 x.s q.val) ∧
    ∀ q : Fin 128, untouched (some (d, n)) (.v q) = true →
      NMap.get 0 (thread (after s s') l).v q.val = NMap.get 0 t.v q.val

/-- R250, R251: outside deterministic mode TKWAIT clears its bit and passes; the token's holder passes with the bit set;
any other thread waits until the token stands at its wave. TKPASS sends the holder's token to the next wave in
logical order that has not ended.

R71, R72, R254, R255: EVSIG sets the event of its operand, EVTEST reads one event or one word of the vector; a
waiting launch whose wait mask the vector then satisfies is due. -/
def Obligations.TokenAndEvents : Prop :=
  (
    (∀ s x y l t p k, Alone s x y l t → performs p t = true →
      ((launch s.dev x.launch).hdr.det = false →
        ∃ s', exec (.tkwait p k) s = .next s' ∧ Passed s s' y ∧ cbit (thread (after s s') l) k = false) ∧
      (holdsToken s.dev s.dev.cur.1 = true →
        ∃ s', exec (.tkwait p k) s = .next s' ∧ Passed s s' y ∧ cbit (thread (after s s') l) k = true) ∧
      ((launch s.dev x.launch).hdr.det = true → holdsToken s.dev s.dev.cur.1 = false →
        ∃ s', exec (.tkwait p k) s = .next s' ∧ (thread (after s s') l).wait = .token k)) ∧
    (∀ s x y l t p n, Alone s x y l t → performs p t = true → holdsToken s.dev s.dev.cur.1 = true →
      NMap.find? s.dev.launches x.launch = some n → n.hdr.waveCount = 1 → n.endedWaves = [] → x.idx = 0 →
      ∃ s', exec (.tkpass p) s = .next s' ∧ Passed s s' y ∧
        (launch s'.dev x.launch).token =
          some (if (wg s.dev x.wg).num + 1 < n.hdr.wgCount then 16 * ((wg s.dev x.wg).num + 1) else 0)) ∧
    (∀ s w g x y l t k, WaitsAlone s w g x y l t (.token k) → x.resident = true → retained s w = false →
      x.threads = [(l, t)] → holdsToken s.dev w = true →
      ∃ s', exec (.tokenArrival w) s = .next s' ∧ PassedAt s' w g y ∧ cbit (threadAt s'.dev w l) k = true)) ∧
  (
    (∀ s x y l t p a, Alone s x y l t → performs p t = true →
      ∃ s', exec (.evsig p a) s = .next s' ∧ Passed s s' y ∧
        (ctx s'.dev x.ctx).events = (ctx s.dev x.ctx).events ||| (1#256 <<< ((rd32 x t a).toNat % 256)) ∧
        (∀ c, c ≠ x.ctx → ctx s'.dev c = ctx s.dev c) ∧
        ∀ n u, NMap.find? s.dev.launches n = some u → u.ctx = x.ctx → u.state = .waiting → s.dev.launches = [(n, u)] →
          (launch s'.dev n).state = if u.hdr.waitMask &&& (ctx s'.dev x.ctx).events = u.hdr.waitMask then .due else .waiting) ∧
    (∀ s x y l t p a, Issues s x y → l ∈ y.lanes → NMap.find? x.threads l = some t → performs p t = true →
      (∀ c, ∃ s', exec (.evtest p (.bit c) a) s = .next s' ∧ Passed s s' y ∧
        cbit (thread (after s s') l) c = (ctx s.dev x.ctx).events.getLsbD ((rd32 x t a).toNat % 256)) ∧
      (∀ d, ((∃ k, d = .v k) ∨ (performers x y p).head? = some l) → ∃ s', exec (.evtest p (.word d) a) s = .next s' ∧ Passed s s' y ∧
        regsOf (after s s') l d 1 = [(ctx s.dev x.ctx).events.extractLsb' (32 * ((rd32 x t a).toNat % 8)) 32])))

/-- R252: SPAWN enters a new thread with its payload into the bin of the entry; R253: BFLUSH launches the bin; R85,
R439: its timer and its draining do so too. A launched bin is a unit that awaits placement. -/
def Obligations.SpawnBins : Prop :=
  (∀ s x y l t p k a b c h d b0, Alone s x y l t → performs p t = true →
    spawnCheck s.dev x t (rd64 x t a) = (.ok h, d) →
    binAt s.dev (clusterOf x.core) x.ctx (rd64 x t a) = some b0 → b0.threads.length < 63 → b0.threads ≠ [] →
    (launch s.dev b0.launch).hdr.rep = false →
    ∃ s' b1, exec (.spawn p k a b c) s = .next s' ∧ Passed s s' y ∧ cbit (thread (after s s') l) k = true ∧
      binAt s'.dev (clusterOf x.core) x.ctx (rd64 x t a) = some b1 ∧
      b1.threads = b0.threads ++ [{ workid := rd64 x t c, pay := [rdQuad x t b 0, rdQuad x t b 1, rdQuad x t b 2]
                                    depth := t.depth + 1, launch := t.launch, paint := none, pts := t.pts }]) ∧
  (∀ s x y l t p a b0, Alone s x y l t → performs p t = true → s.dev.bins = [b0] → b0.threads ≠ [] →
    b0.is (clusterOf x.core) x.ctx (rd64 x t a) = true → (launch s.dev b0.launch).hdr.rep = false →
    (∃ s', exec (.bflush p (some a)) s = .next s' ∧ Passed s s' y ∧ s'.dev.bins = [] ∧
      s'.dev.binUnits = s.dev.binUnits ++ [{ b0 with order := s.dev.binSeq }]) ∧
    (∃ s', exec (.bflush p none) s = .next s' ∧ Passed s s' y ∧ s'.dev.bins = [] ∧
      s'.dev.binUnits = s.dev.binUnits ++ [{ b0 with order := s.dev.binSeq }])) ∧
  (∀ s cl c e b0, s.dev.bins = [b0] → b0.is cl c e = true → b0.threads ≠ [] → b0.timer ≠ 0 →
    (launch s.dev b0.launch).hdr.det = false → (launch s.dev b0.launch).hdr.rep = false →
    (launch s.dev b0.launch).hdr.rec_ = false → b0.since + 100 * b0.timer ≤ s.dev.ticks →
    ∃ s', exec (.binTimerExpiry cl c e) s = .next s' ∧ s'.dev.bins = [] ∧
      s'.dev.binUnits = s.dev.binUnits ++ [{ b0 with order := s.dev.binSeq }]) ∧
  (∀ s cl c e b0, s.dev.bins = [b0] → b0.is cl c e = true → b0.threads ≠ [] →
    (∀ t ∈ b0.threads, launchOutside s.dev t.launch = false) → (launch s.dev b0.launch).hdr.rep = false →
    ∃ s', exec (.binDrain cl c e) s = .next s' ∧ s'.dev.bins = [] ∧
      s'.dev.binUnits = s.dev.binUnits ++ [{ b0 with order := s.dev.binSeq }])

/-- R319, R321, R325, R331, R337: KRSV answers the first of its checks that fails, in their order, and reserves a zeroed
region where none does, its command area zero and STATUS and POISON clear, once no store under way has a sector of
it to write; KREL ends a reservation with no command left, STATUS and POISON staying, waits while one is, and
answers NOTHELD without one.

R321, R328 to R335: KLOAD, KSWAP, KLOOP, KZERO and KDRAIN to scratchpad answer the status of their checks; at OK
they append one command, at the next sequence number, and write its slot; with all 64 slots occupied, or another's
slot half written, they wait; without a reservation they raise KILN-NOT-RESERVED.

R334: KDRAIN to registers waits for the commands before it, then gives the accumulator's words and under .clr zeroes
it; a number outside the region gives zeros and a clear bit. R336: KFID sets a level R315 permits and answers LEVEL
for another; KSTAT gives a cone counter. That a command waits while all 64 slots are occupied before its checks are
made is the model's reading of R328 (log entry 23), and so is that one waits for a slot half written, and KRSV for a
store under way (log entry 6). -/
def Obligations.KilnReservationAndRegisters : Prop :=
  (
    (∀ s x y l t p k d a b g, Alone s x y l t → performs p t = true → NMap.find? s.dev.wgs x.wg = some g →
      g.kiln = none →
      let area := (rd32 x t a).toNat
      let size := (rd32 x t b).toNat
      let st := if area % 256 ≠ 0 ∨ g.scratch < area + 4096 ∨ rangeRegistered s.dev x.wg area 4096 = true then 3
        else if size % 65536 ≠ 0 ∨ size = 0 ∨ 2 ^ 23 < size then 4
        else if kilnHeld s.dev x.core x.wg = true then 1
        else if 2 ^ 23 < storeUsed s.dev x.core + size then 2 else 0
      (st = 0 → rangeDue s.dev x.wg area 4096 = true →
        ∃ s', exec (.krsv k p d a b) s = .next s' ∧ (thread (after s s') l).wait = .engine ∧ s'.dev.wgs = s.dev.wgs) ∧
      (st ≠ 0 ∨ rangeDue s.dev x.wg area 4096 = false → ∃ s', exec (.krsv k p d a b) s = .next s' ∧ Passed s s' y ∧
        Status s s' l d k st ∧
        ((wg s'.dev x.wg).kiln = if st = 0 then some { area := area, bytes := size } else none) ∧
        if st = 0 then
          (∀ n, scratchByte s'.dev x.wg n = if area ≤ n ∧ n < area + 4096 then 0 else scratchByte s.dev x.wg n) ∧
          (wg s'.dev x.wg).kstatus = 0 ∧ (wg s'.dev x.wg).kpoison = false
        else s'.dev.wgs = s.dev.wgs)) ∧
    (∀ s x y l t p k d a b g kn, Alone s x y l t → performs p t = true → KilnHere s x g kn →
      ∃ s', exec (.krsv k p d a b) s = .next s' ∧ Passed s s' y ∧ Status s s' l d k 0 ∧ (wg s'.dev x.wg).kiln = some kn) ∧
    (∀ s x y l t p k d, Alone s x y l t → performs p t = true →
      ((wg s.dev x.wg).kiln = none →
        ∃ s', exec (.krel k p d) s = .next s' ∧ Passed s s' y ∧ Status s s' l d k 5) ∧
      (∀ g kn, KilnHere s x g kn → kn.cmds = [] → kn.busy = false →
        ∃ s', exec (.krel k p d) s = .next s' ∧ Passed s s' y ∧ Status s s' l d k 0 ∧ (wg s'.dev x.wg).kiln = none ∧
          (wg s'.dev x.wg).kstatus = kn.status ∧ (wg s'.dev x.wg).kpoison = kn.poison) ∧
      (∀ g kn, KilnHere s x g kn → kn.cmds ≠ [] ∨ kn.busy = true →
        ∃ s', exec (.krel k p d) s = .next s' ∧ (thread (after s s') l).wait = .engine ∧
          (wg s'.dev x.wg).kiln = some kn))) ∧
  (
    ∀ s x y l t p k d, Alone s x y l t → performs p t = true → inHandler x = false →
      let appends (i : Instr) (c : KCmd) (check : Device → Nat → Kiln → KCmd → Nat) : Prop :=
        (∀ g kn, KilnHere s x g kn →
          let c1 := { c with level := x.fid }
          let st := check s.dev x.wg kn c1
          let c2 := { c1 with seq := kn.seq, order := s.dev.nextId }
          if 64 ≤ kn.cmds.length ∨ kn.busy = true then
            ∃ s', exec i s = .next s' ∧ (thread (after s s') l).wait = .engine ∧ (wg s'.dev x.wg).kiln = some kn
          else
            ∃ s', exec i s = .next s' ∧ Passed s s' y ∧ Status s s' l d k st ∧
              if st = 0 then
                (wg s'.dev x.wg).kiln = some { kn with seq := kn.seq + 1, cmds := kn.cmds ++ [c2], busy := false, pend := none } ∧
                Memory.bytes (wg s'.dev x.wg).mem (kn.area + 64 * (kn.seq % 64)) 64 = c2.bytes
              else (wg s'.dev x.wg).kiln = some kn) ∧
        ((wg s.dev x.wg).kiln = none →
          ∃ s', exec i s = .next s' ∧ (thread (after s s') l).run = .fault 0x50 ∧ (wg s'.dev x.wg).kiln = none)
      (∀ a b, appends (.kload k p d a b)
        { op := 1, clr := false, split := false, level := 0, seq := 0, a := [rd32 x t a], b := [rd32 x t b] } checkKload) ∧
      (∀ a, appends (.kswap k p d a)
        { op := 2, clr := false, split := false, level := 0, seq := 0, a := [rd32 x t a], b := [] } checkKswap) ∧
      (∀ f a b, appends (.kloop f k p d a b)
        { op := 3, clr := false, split := f, level := 0, seq := 0, a := rdQuads x t a, b := rdQuads x t b } checkKloop) ∧
      (∀ f clr a, appends (.kdrainMem f clr k p d a)
        { op := 4, clr := clr, split := f, level := 0, seq := 0, a := rdQuads x t a, b := [] } checkKdrain) ∧
      (∀ f a b, appends (.kzero f k p d a b)
        { op := 5, clr := false, split := f, level := 0, seq := 0, a := [rd32 x t a], b := [rd32 x t b] } checkKzero)) ∧
  (
    ∀ s x y l t p k d, Alone s x y l t → performs p t = true →
      (∀ f clr a g kn, KilnHere s x g kn →
        let n := if f then 4 else 1
        let i := (rd32 x t a).toNat
        (kn.cmds = [] → n * 4 * (i + 1) ≤ kn.bytes →
          ∃ s', exec (.kdrainReg f clr k p d a) s = .next s' ∧ Passed s s' y ∧
            regsOf (after s s') l d n =
              (List.range n).map (fun j => BitVec.ofNat 32 (leNat (Memory.bytes kn.acc (4 * (n * i + j)) 4))) ∧
            cbit (thread (after s s') l) k = true ∧
            ∃ acc, (wg s'.dev x.wg).kiln = some { kn with acc := acc } ∧
              ∀ j, NMap.get 0 acc j =
                if clr = true ∧ 4 * n * i ≤ j ∧ j < 4 * n * (i + 1) then 0 else NMap.get 0 kn.acc j) ∧
        (kn.cmds = [] → kn.bytes / (4 * n) ≤ i →
          ∃ s', exec (.kdrainReg f clr k p d a) s = .next s' ∧ Passed s s' y ∧
            regsOf (after s s') l d n = List.replicate n 0 ∧ cbit (thread (after s s') l) k = false ∧
            (wg s'.dev x.wg).kiln = some kn) ∧
        (kn.cmds ≠ [] → (∀ c ∈ kn.cmds, c.order < s.dev.nextId) →
          ∃ s', exec (.kdrainReg f clr k p d a) s = .next s' ∧ (thread (after s s') l).wait = .engine ∧
            (wg s'.dev x.wg).kiln = some kn)) ∧
      (∀ a,
        let h := (launch s.dev x.launch).hdr
        let v := rd32 x t a
        let ok := v.toNat ≤ h.fid ∧ (h.det = true → v = 0 ∨ v = 4)
        ∃ s', exec (.kfid k p d a) s = .next s' ∧ Passed s s' y ∧ Status s s' l d k (if ok then 0 else 6) ∧
          (after s s').fid = if ok then v.toNat else x.fid) ∧
      (∀ sl kind, ∃ s', exec (.kstat sl kind k p d) s = .next s' ∧ Passed s s' y ∧
        regsOf (after s s') l d 2 =
          words64 (BitVec.ofNat 64 (NMap.get 0 (ctx s.dev x.ctx).cones (coneKey x.core kind.val (KSlice.num sl)))) ∧
        cbit (thread (after s s') l) k = true))

/-- R322, R332, R334, R335: the Kiln runs its oldest command: KLOAD fills the banks its masks name from the scratchpad,
KSWAP flips active-bank bits, KZERO zeroes accumulators, and a drain without a barrier copies them to the
scratchpad. Each then leaves the command area, the later commands as they were. (A run that other events interrupt
is not covered here.)

R309 to R311, R48, R326: at level F0 a step of a KLOOP in direct mode, on one group and one macro, adds to the fused
accumulator of each row its exact sum over the planes, promoted in FP32; the other accumulators stay. The signs of
the vector fields are the model's reading (log entry 23). -/
def Obligations.KilnCommandsRun : Prop :=
  (
    ∀ s g G kn c r, NMap.find? s.dev.wgs g = some G → G.live = true → G.resident = true → G.ended = false →
      G.kiln = some kn → kn.cmds = c :: r → g ≠ 0 → s.dev.cut = none → kn.posS = 0 →
      let left (kn' : Kiln) : Prop := kn'.cmds = r ∧ kn'.started = false ∧ kn'.status = kn.status ∧ kn'.area = kn.area ∧
        kn'.seq = kn.seq ∧ kn'.poison = kn.poison
      (c.op = 1 → heldBack s.dev G.ctx c.order (cmdReads g 0 c) [] = false →
        ∃ s' kn', exec (.kilnKloadRun g) s = .next s' ∧ (wg s'.dev g).kiln = some kn' ∧ left kn' ∧
          kn'.acc = kn.acc ∧ kn'.active = kn.active ∧
          let ms := maskList 8 (bitsOf (c.bn 0) 8 8)
          ∀ j, NMap.get 0 kn'.banks j =
            match (List.range ms.length).find? fun i =>
                decide (bankAt (bitsOf (c.bn 0) 0 3) (ms.getD i 0) (bitsOf (c.bn 0) 3 1) ≤ j) &&
                decide (j < bankAt (bitsOf (c.bn 0) 0 3) (ms.getD i 0) (bitsOf (c.bn 0) 3 1) + 4096) with
            | some i => NMap.get 0 G.mem (c.an 0 + 4096 * i + j % 4096)
            | none => NMap.get 0 kn.banks j) ∧
      (c.op = 2 →
        ∃ s' kn', exec (.kilnKswapRun g) s = .next s' ∧ (wg s'.dev g).kiln = some kn' ∧ left kn' ∧
          kn'.acc = kn.acc ∧ kn'.banks = kn.banks ∧
          ∀ i, i < 6 → kn'.active.getLsbD i = (kn.active.getLsbD i != (bitsOf (c.an 0) i 1 == 1))) ∧
      (c.op = 5 →
        ∃ s' kn', exec (.kilnKzeroRun g) s = .next s' ∧ (wg s'.dev g).kiln = some kn' ∧ left kn' ∧
          kn'.banks = kn.banks ∧ kn'.active = kn.active ∧
          ∀ j, NMap.get 0 kn'.acc j =
            if c.size * c.an 0 ≤ j ∧ j < c.size * (c.an 0 + c.bn 0) then 0 else NMap.get 0 kn.acc j) ∧
      (c.op = 4 → bitsOf (c.an 3) 0 1 = 0 → heldBack s.dev G.ctx c.order [] (cmdWrites g c) = false →
        rangeRegistered s.dev g (c.an 2) (c.size * c.an 1) = false →
        ∃ s' kn', exec (.kilnDrainRun g) s = .next s' ∧ (wg s'.dev g).kiln = some kn' ∧ left kn' ∧
          kn'.banks = kn.banks ∧ kn'.active = kn.active ∧
          (∀ j, NMap.get 0 (wg s'.dev g).mem j =
            if c.an 2 ≤ j ∧ j < c.an 2 + c.size * c.an 1 then NMap.get 0 kn.acc (c.size * c.an 0 + (j - c.an 2))
            else NMap.get 0 G.mem j) ∧
          ∀ j, NMap.get 0 kn'.acc j =
            if c.clr = true ∧ c.size * c.an 0 ≤ j ∧ j < c.size * (c.an 0 + c.an 1) then 0 else NMap.get 0 kn.acc j)) ∧
  (
    ∀ s g G kn c r gr m, NMap.find? s.dev.wgs g = some G → G.live = true → G.resident = true → G.ended = false →
      G.kiln = some kn → kn.cmds = c :: r → c.op = 3 → c.split = false → c.level = 0 → c.ringMode = false →
      kn.started = true → kn.cancel = false → kn.ring = none → kn.rd = 0 → kn.buf = [] → g ≠ 0 → s.dev.cut = none → kn.posQ = 0 → kn.posS < c.steps → c.groups = [gr] → c.macros = [m] →
      (∀ n, n < 128 → 0 ≤ c.accAt kn.posS gr m n) → 0 ≤ c.scaleAt kn.posS gr m →
      heldBack s.dev G.ctx c.order
        (scrSectors g (c.vecAt kn.posS 0) 320 ++ scrSectors g (c.scaleAt kn.posS gr m).toNat 4) [] = false →
      let v := Vec.parse (Memory.bytes G.mem (c.vecAt kn.posS 0) 320)
      let ws := leNat (Memory.bytes G.mem (c.scaleAt kn.posS gr m).toNat 4)
      let sum (n : Nat) : Int := ((List.range 18).filter fun j => bitsOf v.occ j 1 == 1).foldl
        (fun (a : Int) j => a + planeSum v (rowSigns v (bankRow kn gr m n)) j * ((2 ^ j : Nat) : Int)) 0
      let word (acc : Memory) (a : Nat) : Word := BitVec.ofNat 32 (leNat (Memory.bytes acc (4 * a) 4))
      v.poisoned = false →
      ∃ s' kn', exec (.kilnStep g) s = .next s' ∧ (wg s'.dev g).kiln = some kn' ∧
        (∀ n, n < 128 → word kn'.acc (c.accAt kn.posS gr m n).toNat =
          BitVec.ofNat 32 (fAddV .f32 .rn (Fmt.val .f32 (word kn.acc (c.accAt kn.posS gr m n).toNat).toNat)
            (Fmt.val .f32 (stepTerm v ws (sum n)))).1) ∧
        (∀ a, (∀ n, n < 128 → a ≠ (c.accAt kn.posS gr m n).toNat) → word kn'.acc a = word kn.acc a) ∧
        (if kn.posS + 1 < c.steps then kn'.cmds = kn.cmds ∧ kn'.posS = kn.posS + 1 ∧ kn'.posQ = 0 else kn'.cmds = r))

/-- R303 to R305: SKICK reads a card of 128 bytes and kicks a job under the core's next job ID, which the kick register
then holds; with 64 jobs on the core it waits, with the card it has read. SQUERY gives what the job's record holds;
SCANCEL ends a job that lives with CANCELLED at its sector, one that has paused (R302) once it has resumed; an
unknown job gives zeros and a clear bit.

R293, R297 to R299: a job that may issue runs, or ends with the code of the first check that fails, or, where it has
no units, is done; a unit of a copy reads its element sector by sector and writes it sector by sector, with the last
of which the count of R293 grows by the element's bytes; the job goes on to its next unit, where a count is full
having closed that; a decided end leaves the job DONE, or ENDED with its code. The order of a job's checks and the
end of a cancelled job are the model's readings (log entry 22). -/
def Obligations.SlipEngine : Prop :=
  (
    (∀ s x y l t p k d r i j g a, Alone s x y l t → performs p t = true →
      InScratch s x g (recOf (rdRec x r)) (rd32 x t i) (rd32 x t j) 128 a → a % 32 = 0 →
      let id := 2 ^ 24 * x.core + (core s.dev x.core).kicks % 2 ^ 24
      ((coreJobs s.dev x.core).length < 64 →
        ∃ s', exec (.skick k p d r i j) s = .next s' ∧ Passed s s' y ∧
          regsOf (after s s') l d 1 = [BitVec.ofNat 32 id] ∧ cbit (thread (after s s') l) k = true ∧
          (core s'.dev x.core).kicks = (core s.dev x.core).kicks + 1 ∧
          (core s'.dev x.core).kick = BitVec.ofNat 64 (2 ^ 32 * id + x.ctx) ∧
          let b := job s'.dev id
          b.state = 1 ∧ b.ctx = x.ctx ∧ b.wg = x.wg ∧ b.core = x.core ∧
          ∀ n, n < 128 → NMap.get 0 b.card n = scratchByte s.dev x.wg (a + n)) ∧
      (64 ≤ (coreJobs s.dev x.core).length →
        ∃ s', exec (.skick k p d r i j) s = .next s' ∧ (thread (after s s') l).wait = .kick (Memory.bytes g.mem a 128) ∧
          s'.dev.jobs = s.dev.jobs)) ∧
    (∀ s x y l t p k d a, Alone s x y l t → performs p t = true →
      (findJob s.dev x.ctx (rd32 x t a).toNat = none →
        (∃ s', exec (.squery k p d a) s = .next s' ∧ Passed s s' y ∧ regsOf (after s s') l d 4 = [0, 0, 0, 0] ∧
          cbit (thread (after s s') l) k = false) ∧
        ∃ s', exec (.scancel k p d a) s = .next s' ∧ Passed s s' y ∧ regsOf (after s s') l d 1 = [0] ∧
          cbit (thread (after s s') l) k = false) ∧
      (∀ b, findJob s.dev x.ctx (rd32 x t a).toNat = some b → b.id = (rd32 x t a).toNat →
        (wg s.dev b.wg).ended = false →
        (∃ s', exec (.squery k p d a) s = .next s' ∧ Passed s s' y ∧
          regsOf (after s s') l d 4 = [BitVec.ofNat 32 (if jobLive b then 0 else b.status), BitVec.ofNat 32 b.state,
            BitVec.ofNat 32 b.done, BitVec.ofNat 32 b.stop] ∧ cbit (thread (after s s') l) k = true) ∧
        ∃ s', exec (.scancel k p d a) s = .next s' ∧ Passed s s' y ∧
          regsOf (after s s') l d 1 = [BitVec.ofNat 32 b.state] ∧
          if jobLive b = true then
            cbit (thread (after s s') l) k = true ∧ (job s'.dev b.id).stop = (if b.state = 1 then b.stop else b.src) ∧
            if jobRuns s.dev b = true then (job s'.dev b.id).state = 6 ∧ (job s'.dev b.id).status = 0x54
            else (job s'.dev b.id).state = b.state ∧ (job s'.dev b.id).ending = some 0x54
          else cbit (thread (after s s') l) k = false ∧ s'.dev.jobs = s.dev.jobs))) ∧
  (
    (∀ s id b, NMap.find? s.dev.jobs id = some b → mayIssue s.dev b = true →
      let c := b.parse
      let code := issueCheck s.dev b
      (wg s.dev b.wg).ended = false →
      ∃ s', exec (.slipJobIssue id) s = .next s' ∧ (job s'.dev id).ending = none ∧
        if code ≠ 0 then (job s'.dev id).state = 6 ∧ (job s'.dev id).status = code
        else if c.c0 = 0 ∨ c.c1 = 0 then (job s'.dev id).state = 5 ∧ (job s'.dev id).status = 0
        else (job s'.dev id).state = 2 ∧ (job s'.dev id).total = c.total ∧ (job s'.dev id).got = [] ∧
          (job s'.dev id).rd = 0 ∧ (job s'.dev id).wr = 0 ∧ (job s'.dev id).i = b.i ∧ (job s'.dev id).j = b.j) ∧
    (∀ s id b g, NMap.find? s.dev.jobs id = some b → NMap.find? s.dev.wgs b.wg = some g → b.wg ≠ 0 →
      b.state = 2 → b.ending = none → jobRuns s.dev b = true → amongEight s.dev b = true →
      let c := b.parse
      c.kind = 0 → c.dring = false → c.bar = false → c.srec.fmt = c.drec.fmt → b.i < c.c0 → b.j < c.c1 →
      let goesTo (b' : Job) (i j : Nat) : Job :=
        { b' with i := i, j := j, word := none, got := [], buf := [], rd := 0, wr := 0, full := false
                  src := (c.si0 + i) % 2 ^ 32 }
      (∀ a sp, b.full = false → handlesOk s.dev b = true → c.srec.space = 1 →
        c.srec.form c.se (c.si0 + b.i) (c.si1 + b.j) = .at a → a + c.se ≤ g.scratch →
        b.got = [] → (sectorSpans a c.se)[b.rd]? = some sp →
        heldBack s.dev b.ctx b.order [(Loc.scr b.wg sp.1).sector] [] = false →
        let bs := b.buf ++ Memory.bytes g.mem sp.1 sp.2
        let k := (c.si0 + b.i) % 2 ^ 32
        ∃ s', exec (.slipUnit id) s = .next s' ∧ s'.dev.wgs = s.dev.wgs ∧ s'.dev.mem = s.dev.mem ∧
          job s'.dev id = if b.rd + 1 < (sectorSpans a c.se).length then { b with buf := bs, rd := b.rd + 1, src := k }
            else { b with got := [(c.si0 + b.i, some bs)], buf := [], rd := 0, src := k }) ∧
      (∀ e bs sp, b.full = false → handlesOk s.dev b = true → c.drec.space = 1 →
        c.drec.form c.de (c.di0 + b.i) (c.di1 + b.j) = .at e → e + c.de ≤ g.scratch →
        b.got = [(c.si0 + b.i, some bs)] → bs.length = c.de →
        (sectorSpans e c.de)[b.wr]? = some sp → registered s.dev (.scr b.wg sp.1) = false →
        heldBack s.dev b.ctx b.order [] [(Loc.scr b.wg sp.1).sector] = false →
        ∃ s', exec (.slipUnit id) s = .next s' ∧
          (job s'.dev id = if b.wr + 1 < (sectorSpans e c.de).length then { b with wr := b.wr + 1 }
            else if b.i + 1 < c.c0 then goesTo { b with part := b.part + c.de } (b.i + 1) b.j
            else { b with part := b.part + c.de, full := true }) ∧
          ∀ n, scratchByte s'.dev b.wg n =
            if sp.1 ≤ n ∧ n < sp.1 + sp.2 then bs.getD (n - e) 0 else scratchByte s.dev b.wg n) ∧
      (b.full = true → b.i + 1 = c.c0 →
        ∃ s', exec (.slipUnit id) s = .next s' ∧ s'.dev.wgs = s.dev.wgs ∧ s'.dev.mem = s.dev.mem ∧
          let b' : Job := { b with slot := none, done := b.done + b.part, part := 0 }
          job s'.dev id = if b.j + 1 < c.c1 then goesTo b' 0 (b.j + 1)
            else { b' with i := 0, j := b.j + 1, full := false, ending := some b.status })) ∧
    (∀ s id b code, NMap.find? s.dev.jobs id = some b → b.ending = some code → jobLive b = true → jobRuns s.dev b = true →
      (wg s.dev b.wg).ended = false →
      ∃ s', exec (.slipJobEnd id) s = .next s' ∧ (job s'.dev id).state = (if code = 0 then 5 else 6) ∧
        (job s'.dev id).status = code ∧ (job s'.dev id).done = b.done + b.part ∧ (job s'.dev id).ending = none))

/-- R258, R262: GCLR of a path-tile binds it cleared, in order of its checks; GCLR of a destination tile binds it under
the lowest free ID, or the one it has, with the next generation, every pixel at the colour; .free unbinds a tile, or
answers BUSY where it has an open sequence. An instruction that names a tile on which another has sectors to go
waits.

R263 to R268: an unbound path-tile answers UNBOUND. GSEQ sets the descriptor, or answers FLAGS; GFLAT deposits the
flattened curve and gives its count of segments; GDEP deposits a segment. That no other instruction comes between on
a tile that has sectors to go is the model's choice (log entry 6). -/
def Obligations.GlazeTilesAndPaths : Prop :=
  (
    ∀ s x y l t p k d g, Alone s x y l t → performs p t = true → NMap.find? s.dev.wgs x.wg = some g →
      (∀ (tn : Fin 16) o, NMap.find? g.dests tn.val = some o → o.busy = true →
        let waits (i : Instr) : Prop :=
          ∃ s', exec i s = .next s' ∧ (thread (after s s') l).wait = .engine ∧ s'.dev.wgs = s.dev.wgs
        (∀ a b c, waits (.gclrDest tn k p d a b c)) ∧ waits (.gclrDestFree tn k p d) ∧ (∀ b, waits (.gscan tn k p d b)) ∧
          waits (.gclipPop tn k p d) ∧ waits (.gclipReset tn k p d) ∧ ∀ e, waits (.gemit e tn k p d)) ∧
      (∀ a b,
        let n := (rd32 x t b).toNat
        let st := if 63 < n then 1 else if NMap.find? g.paths n = none ∧ roomPath s.dev x.core = false then 2 else 0
        ∃ s', exec (.gclrPath k p d a b) s = .next s' ∧ Passed s s' y ∧ Status s s' l d k st ∧
          ∀ m, pathAt s'.dev x.wg m = if st = 0 ∧ m = n then some { origin := rd32 x t a } else NMap.find? g.paths m) ∧
      (∀ b,
        let n := (rd32 x t b).toNat
        ∃ s', exec (.gclrPathFree k p d b) s = .next s' ∧ Passed s s' y ∧
          Status s s' l d k (if NMap.find? g.paths n = none then 1 else 0) ∧
          ∀ m, pathAt s'.dev x.wg m = if m = n then none else NMap.find? g.paths m) ∧
      (∀ (tn : Fin 16) a b c, TilesIdle g →
        let blk := (rd32 x t b).toNat
        (∀ o, NMap.find? g.dests tn.val = some o → o.seqs ≠ [] →
          ∃ s', exec (.gclrDest tn k p d a b c) s = .next s' ∧ Passed s s' y ∧ Status s s' l d k 3) ∧
        ((∀ o, NMap.find? g.dests tn.val = some o → o.seqs = []) → blk % 256 = 0 → blk + 10240 ≤ g.scratch →
          (blockOverlaps s.dev x.wg tn.val blk = true →
            ∃ s', exec (.gclrDest tn k p d a b c) s = .next s' ∧ Passed s s' y ∧ Status s s' l d k 12) ∧
          (blockOverlaps s.dev x.wg tn.val blk = false → NMap.find? g.dests tn.val = none → roomDest s.dev x.core = false →
            ∃ s', exec (.gclrDest tn k p d a b c) s = .next s' ∧ Passed s s' y ∧ Status s s' l d k 2) ∧
          (∀ id, blockOverlaps s.dev x.wg tn.val blk = false → NMap.find? g.dests tn.val = none →
            roomDest s.dev x.core = true → freeTileId s.dev x.ctx = some id →
            ∃ s', exec (.gclrDest tn k p d a b c) s = .next s' ∧ Passed s s' y ∧ Status s s' l d k 0 ∧
              destAt s'.dev x.wg tn.val = some { origin := rd32 x t a, block := blk, id := id
                                                 gen := (NMap.get 0 (ctx s.dev x.ctx).tileGen id + 1) % 16 } ∧
              ∀ px, px < 256 → Memory.bytes (wg s'.dev x.wg).mem (blk + 8 * px) 8 = leBytes 8 (rd64 x t c).toNat) ∧
          (∀ o, blockOverlaps s.dev x.wg tn.val blk = false → NMap.find? g.dests tn.val = some o →
            ∃ s', exec (.gclrDest tn k p d a b c) s = .next s' ∧ Passed s s' y ∧ Status s s' l d k 0 ∧
              destAt s'.dev x.wg tn.val = some { origin := rd32 x t a, block := blk, id := o.id
                                                 gen := (NMap.get 0 (ctx s.dev x.ctx).tileGen o.id + 1) % 16 } ∧
              ∀ px, px < 256 → Memory.bytes (wg s'.dev x.wg).mem (blk + 8 * px) 8 = leBytes 8 (rd64 x t c).toNat))) ∧
      (∀ (tn : Fin 16), TilesIdle g →
        (NMap.find? g.dests tn.val = none →
          ∃ s', exec (.gclrDestFree tn k p d) s = .next s' ∧ Passed s s' y ∧ Status s s' l d k 1) ∧
        (∀ o, NMap.find? g.dests tn.val = some o →
          ∃ s', exec (.gclrDestFree tn k p d) s = .next s' ∧ Passed s s' y ∧
            Status s s' l d k (if o.seqs = [] then 0 else 3) ∧
            destAt s'.dev x.wg tn.val = if o.seqs = [] then none else some o))) ∧
  (
    ∀ s x y l t p k d g, Alone s x y l t → performs p t = true → NMap.find? s.dev.wgs x.wg = some g →
      (∀ a b c,
        let n := (rd32 x t b).toNat
        let fl := rdQuad x t a 1
        (NMap.find? g.paths n = none →
          ∃ s', exec (.gseq k p d a b c) s = .next s' ∧ Passed s s' y ∧ Status s s' l d k 1) ∧
        (∀ q, NMap.find? g.paths n = some q →
          (fl.extractLsb' 4 28 ≠ 0 ∨ fl.getLsbD 1 = true ∨ fl.extractLsb' 2 2 = 3 →
            ∃ s', exec (.gseq k p d a b c) s = .next s' ∧ Passed s s' y ∧ Status s s' l d k 9 ∧
              pathAt s'.dev x.wg n = some q) ∧
          (fl.extractLsb' 4 28 = 0 ∧ fl.getLsbD 1 = false ∧ fl.extractLsb' 2 2 ≠ 3 →
            ∃ s', exec (.gseq k p d a b c) s = .next s' ∧ Passed s s' y ∧ Status s s' l d k 0 ∧
              pathAt s'.dev x.wg n = some { q with
                desc := { seq := rdQuad x t a 0, evenOdd := fl.getLsbD 0, clip := (fl.extractLsb' 2 2).toNat
                          pay0 := rdQuad x t a 2, pay1 := rdQuad x t a 3, pay2 := rdQuad x t c 2
                          entry := rdQuad x t c 1 ++ rdQuad x t c 0 } }))) ∧
      (∀ cubic fine a b c,
        let n := (rd32 x t c).toNat
        let tau := if fine then 4 else 16
        let pts := if cubic then flatCubic tau (rdPoint x t a 0) (rdPoint x t a 2) (rdPoint x t b 0) (rdPoint x t b 2)
          else flatQuad tau (rdPoint x t a 0) (rdPoint x t a 2) (rdPoint x t b 0)
        (NMap.find? g.paths n = none →
          ∃ s', exec (.gflat cubic fine k p d a b c) s = .next s' ∧ Passed s s' y ∧ Status s s' l d k 1) ∧
        (∀ q, NMap.find? g.paths n = some q →
          ∃ s', exec (.gflat cubic fine k p d a b c) s = .next s' ∧ Passed s s' y ∧
            regsOf (after s s') l d 1 = [BitVec.ofNat 32 (pts.length - 1)] ∧ cbit (thread (after s s') l) k = true ∧
            pathAt s'.dev x.wg n = some (depositCurve q pts))) ∧
      (∀ a b,
        let n := (rd32 x t b).toNat
        (NMap.find? g.paths n = none →
          ∃ s', exec (.gdep k p d a b) s = .next s' ∧ Passed s s' y ∧ Status s s' l d k 1) ∧
        (∀ q, NMap.find? g.paths n = some q →
          ∃ s', exec (.gdep k p d a b) s = .next s' ∧ Passed s s' y ∧ Status s s' l d k 0 ∧
            pathAt s'.dev x.wg n = some (depositSegment q (rdPoint x t a 0) (rdPoint x t a 2)))))

/-- R49, R264, R267: a segment within one cell of a tile adds its height to C of the cell and its area term to A, and
touches no other cell; a curve's flattened points begin and end at its end points, and their number never exceeds
the cap. -/
def Obligations.CoverageNumbers : Prop :=
  (∀ (q : PathTile) (a b : Pt) (col row : Nat), col < 16 → row < 16 →
    let x0 := 256 * (16 * signed16 (bitsOf q.origin.toNat 0 16) + (col : Int))
    let y0 := 256 * (16 * signed16 (bitsOf q.origin.toNat 16 16) + (row : Int))
    x0 ≤ a.1 → a.1 < x0 + 256 → x0 ≤ b.1 → b.1 < x0 + 256 →
    y0 ≤ a.2 → a.2 < y0 + 256 → y0 ≤ b.2 → b.2 < y0 + 256 →
    let q' := depositSegment q a b
    let i := 16 * row + col
    NMap.get 0 q'.cellC i = NMap.get 0 q.cellC i + BitVec.ofInt 24 (b.2 - a.2) ∧
    NMap.get 0 q'.cellA i = NMap.get 0 q.cellA i + BitVec.ofInt 40 ((b.2 - a.2) * ((a.1 - x0) + (b.1 - x0))) ∧
    ∀ j, j ≠ i → NMap.get 0 q'.cellC j = NMap.get 0 q.cellC j ∧ NMap.get 0 q'.cellA j = NMap.get 0 q.cellA j) ∧
  (∀ tau p0 p1 p2 p3,
    ((flatQuad tau p0 p1 p2).head? = some p0 ∧ (flatQuad tau p0 p1 p2).getLast? = some p2 ∧
      2 ≤ (flatQuad tau p0 p1 p2).length ∧ (flatQuad tau p0 p1 p2).length ≤ 129) ∧
    (flatCubic tau p0 p1 p2 p3).head? = some p0 ∧ (flatCubic tau p0 p1 p2 p3).getLast? = some p3 ∧
      2 ≤ (flatCubic tau p0 p1 p2 p3).length ∧ (flatCubic tau p0 p1 p2 p3).length ≤ 257)

/-- R269 to R273: GSCAN answers UNBOUND, ORIGIN, and WINDOW for a path that paints on a tile of 16 open sequences; a
clip path becomes a plane; a painted path opens its sequence with an entry for each covered pixel and gives their
number. GCLIP pops one plane or all. -/
def Obligations.GlazeScan : Prop :=
  ∀ s x y l t p k d g, Alone s x y l t → performs p t = true → NMap.find? s.dev.wgs x.wg = some g → TilesIdle g →
    (∀ (tn : Fin 16) b,
      let n := (rd32 x t b).toNat
      let i := Instr.gscan tn k p d b
      (NMap.find? g.paths n = none ∨ NMap.find? g.dests tn.val = none →
        ∃ s', exec i s = .next s' ∧ Passed s s' y ∧ Status s s' l d k 1) ∧
      (∀ q o, NMap.find? g.paths n = some q → NMap.find? g.dests tn.val = some o →
        (q.origin ≠ o.origin → ∃ s', exec i s = .next s' ∧ Passed s s' y ∧ Status s s' l d k 10) ∧
        (q.origin = o.origin → q.desc.clip = 0 → inHandler x = false →
          (∃ m, o.last = some m ∧ q.desc.seq.toNat ≤ m) →
          ∃ s', exec i s = .next s' ∧ (thread (after s s') l).run = .fault 0x53) ∧
        (q.origin = o.origin → q.desc.clip = 0 → (∀ m, o.last = some m → m < q.desc.seq.toNat) →
          16 ≤ o.seqs.length → ∃ s', exec i s = .next s' ∧ Passed s s' y ∧ Status s s' l d k 4) ∧
        (∀ h dv, q.origin = o.origin → q.desc.clip = 0 → (∀ m, o.last = some m → m < q.desc.seq.toNat) →
          o.seqs.length < 16 → o.depth = 0 → spawnCheck s.dev x t q.desc.entry = (.ok h, dv) →
          needsBin s.dev (clusterOf x.core) x.ctx q.desc.entry = false →
          (∀ m u, NMap.find? s.dev.launches m = some u → u.hdr.rep = false) →
          let px := ((List.range 256).zip (scanTile q)).filter fun e => e.2 != 0
          ∃ s', exec i s = .next s' ∧ Passed s s' y ∧ regsOf (after s s') l d 1 = [BitVec.ofNat 32 px.length] ∧
            cbit (thread (after s s') l) k = true ∧
            ∃ es : NMap BufEntry, (es.map fun e => (e.1, e.2.k, e.2.fill)) = px.map (fun e => (e.1, e.2, none)) ∧
              (es.map fun e => e.2.uid).Nodup ∧
              destAt s'.dev x.wg tn.val = some { o with
                last := some q.desc.seq.toNat
                seqs := if px.isEmpty then o.seqs else o.seqs ++ [(q.desc.seq.toNat, es)] }) ∧
        (q.origin = o.origin → q.desc.clip = 1 → o.depth = 8 →
          ∃ s', exec i s = .next s' ∧ Passed s s' y ∧ Status s s' l d k 7) ∧
        (q.origin = o.origin → q.desc.clip = 1 → o.depth = 0 →
          rangeRegistered s.dev x.wg (o.block + 2048) 1024 = false →
          ∃ s', exec i s = .next s' ∧ Passed s s' y ∧ regsOf (after s s') l d 1 = [0] ∧
            cbit (thread (after s s') l) k = true ∧ destAt s'.dev x.wg tn.val = some { o with depth := 1 } ∧
            ∀ j, j < 256 → leNat (Memory.bytes (wg s'.dev x.wg).mem (o.block + 2048 + 4 * j) 4) =
              (scanTile q).getD j 0))) ∧
    (∀ (tn : Fin 16),
      (NMap.find? g.dests tn.val = none →
        (∃ s', exec (.gclipPop tn k p d) s = .next s' ∧ Passed s s' y ∧ Status s s' l d k 1) ∧
        ∃ s', exec (.gclipReset tn k p d) s = .next s' ∧ Passed s s' y ∧ Status s s' l d k 1) ∧
      (∀ o, NMap.find? g.dests tn.val = some o →
        (∃ s', exec (.gclipPop tn k p d) s = .next s' ∧ Passed s s' y ∧
          Status s s' l d k (if o.depth = 0 then 7 else 0) ∧
          destAt s'.dev x.wg tn.val = some { o with depth := o.depth - 1 }) ∧
        ∃ s', exec (.gclipReset tn k p d) s = .next s' ∧ Passed s s' y ∧ Status s s' l d k 0 ∧
          destAt s'.dev x.wg tn.val = some { o with depth := 0 }))

/-- R274, R275, R277, R278: GBLEND fills the pending entry its ticket names, answers STALE for a ticket that names none
and FILLED for a filled one, and waits while its workgroup's core cannot act; GCOV gives the coverage of an entry or
of a path-tile's pixel; the oldest sequence of a tile retires once no entry of it is pending, blending each filled
entry into its pixel, but for a pixel in a registered sector (R230).

R279 to R281, R419: GEMIT of an unbound tile answers UNBOUND, of one with an open sequence BUSY. To memory it writes
each pixel through the record, as FP16 or as RGBA8; to an encoder it answers SESSION for a session that is not open,
counts a tile outside the frame as dropped, and gives the session the tile's samples, or waits where both frames
have them. The byte order of RGBA8 is the model's reading (log entry 24). -/
def Obligations.GlazeBlendAndEmit : Prop :=
  (
    (∀ s x y l t p k d a b, Alone s x y l t → performs p t = true →
      (entryOf s.dev x.ctx (rd64 x t a) = none →
        (∃ s', exec (.gblend k p d a b) s = .next s' ∧ Passed s s' y ∧ Status s s' l d k 5) ∧
        ∃ s', exec (.gcov none k p d a) s = .next s' ∧ Passed s s' y ∧ Status s s' l d k 5) ∧
      (∀ g tn seq px e o, entryOf s.dev x.ctx (rd64 x t a) = some (g, tn, seq, px, e) →
        destAt s.dev g tn = some o →
        (∃ s', exec (.gcov none k p d a) s = .next s' ∧ Passed s s' y ∧
          regsOf (after s s') l d 1 = [BitVec.ofNat 32 e.k] ∧ cbit (thread (after s s') l) k = true) ∧
        ((wg s.dev g).resident = true → coreRetained s (wg s.dev g).core = false → e.fill.isSome = true →
          ∃ s', exec (.gblend k p d a b) s = .next s' ∧ Passed s s' y ∧ Status s s' l d k 6) ∧
        ((wg s.dev g).resident = true → coreRetained s (wg s.dev g).core = false → e.fill = none →
          ∃ s', exec (.gblend k p d a b) s = .next s' ∧ Passed s s' y ∧ Status s s' l d k 0 ∧
            destAt s'.dev g tn = some (o.setEntry seq px { e with fill := some (some (rd64 x t b)) })) ∧
        ((wg s.dev g).resident = false ∨ coreRetained s (wg s.dev g).core = true →
          ∃ s', exec (.gblend k p d a b) s = .next s' ∧ (thread (after s s') l).wait = .engine)) ∧
      (∀ g, NMap.find? s.dev.wgs x.wg = some g →
        (NMap.find? g.paths (rd32 x t b).toNat = none →
          ∃ s', exec (.gcov (some b) k p d a) s = .next s' ∧ Passed s s' y ∧ Status s s' l d k 1) ∧
        (∀ q, NMap.find? g.paths (rd32 x t b).toNat = some q →
          ∃ s', exec (.gcov (some b) k p d a) s = .next s' ∧ Passed s s' y ∧
            regsOf (after s s') l d 1 = [BitVec.ofNat 32 ((scanTile q).getD ((rd32 x t a).toNat % 256) 0)] ∧
            cbit (thread (after s s') l) k = true))) ∧
    (∀ s g G (tn : Fin 16) o n es rest, NMap.find? s.dev.wgs g = some G → G.live = true → G.resident = true →
      g ≠ 0 → coreRetained s G.core = false → s.dev.cut = none → NMap.find? G.dests tn.val = some o →
      o.seqs = (n, es) :: rest →
      ((∃ e ∈ es, e.2.fill = none) → exec (.sequenceRetire g tn) s = .next s) ∧
      ((∀ e ∈ es, e.2.fill ≠ none ∧ e.1 < 256) → (es.map Prod.fst).Nodup →
        ∃ s', exec (.sequenceRetire g tn) s = .next s' ∧ destAt s'.dev g tn.val = some { o with seqs := rest } ∧
          ∀ px, px < 256 → leNat (Memory.bytes (wg s'.dev g).mem (o.block + 8 * px) 8) =
            match if registered s.dev (.scr g (o.block + 8 * px)) = true then none
              else (es.find? fun e => e.1 == px).bind fun e => e.2.fill.join.map fun c => (e.2.k, c) with
            | some (k, c) => blendPixel (leNat (Memory.bytes G.mem (o.block + 8 * px) 8)) c.toNat k % 2 ^ 64
            | none => leNat (Memory.bytes G.mem (o.block + 8 * px) 8)))) ∧
  (
    ∀ s x y l t p k d g (tn : Fin 16), Alone s x y l t → performs p t = true → NMap.find? s.dev.wgs x.wg = some g → TilesIdle g →
      (∀ e, NMap.find? g.dests tn.val = none →
        ∃ s', exec (.gemit e tn k p d) s = .next s' ∧ Passed s s' y ∧ Status s s' l d k 1) ∧
      (∀ e o, NMap.find? g.dests tn.val = some o → o.seqs ≠ [] →
        ∃ s', exec (.gemit e tn k p d) s = .next s' ∧ Passed s s' y ∧ Status s s' l d k 3) ∧
      (∀ fp16 r i j o (A : Nat → Nat), NMap.find? g.dests tn.val = some o → o.seqs = [] →
        let n := if fp16 then 8 else 4
        let rc := recOf (rdRec x r)
        x.wg ≠ 0 → rc.valid = true → rc.space = 1 →
        (∀ px, px < 256 → rc.form n ((rd32 x t i).toNat + px % 16) ((rd32 x t j).toNat + px / 16) = .at (A px) ∧
          A px + n ≤ g.scratch ∧ rangeRegistered s.dev x.wg (A px) n = false ∧
          ∀ qx, qx < 256 → px ≠ qx → A px + n ≤ A qx ∨ A qx + n ≤ A px) →
        ∃ s', exec (.gemit (.mem fp16 r i j) tn k p d) s = .next s' ∧ Passed s s' y ∧ Status s s' l d k 0 ∧
          ∀ px, px < 256 →
            let v := leNat (Memory.bytes g.mem (o.block + 8 * px) 8)
            Memory.bytes (wg s'.dev x.wg).mem (A px) n = if fp16 then leBytes 8 v else rgba8 v) ∧
      (∀ a o, x.wg ≠ 0 → NMap.find? g.dests tn.val = some o → o.seqs = [] →
        let n := (rd32 x t a).toNat
        let tx := signed16 (bitsOf o.origin.toNat 0 16)
        let ty := signed16 (bitsOf o.origin.toNat 16 16)
        (sessionAt s.dev x.ctx n = none →
          ∃ s', exec (.gemit (.enc a) tn k p d) s = .next s' ∧ Passed s s' y ∧ Status s s' l d k 11) ∧
        (∀ q, sessionAt s.dev x.ctx n = some q →
          let outside := tx < 0 ∨ ty < 0 ∨ (q.width : Int) ≤ 16 * tx ∨ (q.height : Int) ≤ 16 * ty
          let px := (List.range 256).map fun i => leNat (Memory.bytes g.mem (o.block + 8 * i) 8)
          let to1 := ingest q (ty.toNat * (q.width / 16) + tx.toNat) (yuvTile (if q.d10 then 10 else 8) q.full px)
          (outside →
            ∃ s', exec (.gemit (.enc a) tn k p d) s = .next s' ∧ Passed s s' y ∧ Status s s' l d k 0 ∧
              sessionAt s'.dev x.ctx n = some { q with dropped := (q.dropped + 1) % 2 ^ 32 }) ∧
          (∀ q1, ¬ outside → to1 = some q1 →
            ∃ s', exec (.gemit (.enc a) tn k p d) s = .next s' ∧ Passed s s' y ∧ Status s s' l d k 0 ∧
              NMap.find? (ctx s'.dev x.ctx).sessions n = some q1) ∧
          (¬ outside → to1 = none →
            ∃ s', exec (.gemit (.enc a) tn k p d) s = .next s' ∧ (thread (after s s') l).wait = .engine))))

/-- R109, R360: MOVS gives each special register's value. A read of TICKS gives the counter where its launch neither
records nor replays.

R37, R90, R93, R360: SETS of FPFLAGS writes its six bits and SETS of HOLD a budget, from the lowest performing
member; SETS of TPC inside the handler writes each member's TPC and clears its resume mark. R360, R116: SETS of TPC
outside the handler and of a read-only register raises PRIVILEGE for every member, whatever its predicate, and so
does RTE outside.

R364: PMC gives a counter of the wave, and under .clr leaves it zero. -/
def Obligations.SpecialRegisters : Prop :=
  (
    (∀ s x y l t p d n, Issues s x y → l ∈ y.lanes → NMap.find? x.threads l = some t → performs p t = true →
      ((∃ k, d = .v k) ∨ (performers x y p).head? = some l) → n ≠ .ticks →
      let value : List Word := match n with
        | .width => [64]
        | .workid => words64 t.workid
        | .lane => [BitVec.ofNat 32 l]
        | .waveslot => [BitVec.ofNat 32 x.slot]
        | .groupmask => words64 (laneMask y.lanes)
        | .ticks => []
        | .breg => [t.breg]
        | .hold => [BitVec.ofNat 32 x.hold]
        | .tpc => words64 t.tpc
        | .tformer => words64 x.tformer
        | .tfault => words64 x.tfault
        | .tcause => [x.tcause]
        | .taddr => words64 t.taddr
        | .kstatus => [match (wg s.dev x.wg).kiln with
          | none => BitVec.ofNat 32 (2 * (if (wg s.dev x.wg).kpoison then 1 else 0) + 2 ^ 16 * ((wg s.dev x.wg).kstatus % 256))
          | some kn => BitVec.ofNat 32 (1 + 2 * (if kn.poison then 1 else 0) + 2 ^ 8 * kn.cmds.length +
              2 ^ 16 * (kn.status % 256))]
        | .fidelity => [BitVec.ofNat 32 x.fid]
        | .fpflags => [x.fpflags]
      ∃ s', exec (.movs n p d) s = .next s' ∧ Passed s s' y ∧ regsOf (after s s') l d value.length = value) ∧
    (∀ s x y l t p d, Alone s x y l t → performs p t = true → (launch s.dev t.launch).hdr.rep = false →
      (launch s.dev t.launch).hdr.rec_ = false →
      ∃ s', exec (.movs .ticks p d) s = .next s' ∧ Passed s s' y ∧
        regsOf (after s s') l d 2 = words64 (BitVec.ofNat 64 s.dev.ticks))) ∧
  (
    (∀ s x y l t p a, Issues s x y → (performers x y p).head? = some l → NMap.find? x.threads l = some t →
      (∃ s', exec (.sets .fpflags p a) s = .next s' ∧ Passed s s' y ∧ (after s s').fpflags = rd32 x t a &&& 0x3F) ∧
      let n := (rd32 x t a).toNat
      ∃ s', exec (.sets .hold p a) s = .next s' ∧ Passed s s' y ∧
        (after s s').hold =
          if n = 0 then 0
          else if x.hold = 0 ∧ (∀ b, x.holdBegan = some b → b + 50000 ≤ s.dev.ticks) then min n 5000 else x.hold) ∧
    (∀ s x y l t p a, Issues s x y → l ∈ y.lanes → NMap.find? x.threads l = some t → performs p t = true →
      inHandler x = true →
      ∃ s', exec (.sets .tpc p a) s = .next s' ∧ Passed s s' y ∧ (thread (after s s') l).mark = .none ∧
        ∀ i, i < 64 → (thread (after s s') l).tpc.getLsbD i = ((rd64 x t a).getLsbD i && !(decide (57 ≤ i ∧ i ≤ 59)))) ∧
    (∀ s x y l t p a n, Alone s x y l t → inHandler x = false → n ≠ .hold → n ≠ .fpflags →
      ∃ s', exec (.sets n p a) s = .next s' ∧ (thread (after s s') l).run = .fault 0x05 ∧
        (thread (after s s') l).tpc = groupPc y ∧ sameRegs x (after s s')) ∧
    (∀ s x y l t p, Alone s x y l t → inHandler x = false →
      ∃ s', exec (.rte p) s = .next s' ∧ (thread (after s s') l).run = .fault 0x05 ∧
        (thread (after s s') l).tpc = groupPc y ∧ sameRegs x (after s s'))) ∧
  (
    ∀ s x y l t p d n clr, Issues s x y → l ∈ y.lanes → NMap.find? x.threads l = some t → performs p t = true →
      ((∃ k, d = .v k) ∨ (performers x y p).head? = some l) →
      ∃ s', exec (.pmc n clr p d) s = .next s' ∧ Passed s s' y ∧
        regsOf (after s s') l d 2 = words64 (NMap.get 0 x.pmc n.val) ∧
        ∀ m, NMap.get 0 (after s s').pmc m = if clr = true ∧ m = n.val then 0 else NMap.get 0 x.pmc m)

/-- R354, R361: TRAP and DBRK park the thread with SOFTWARE-TRAP or BREAKPOINT, its PC and TPC at the instruction, TADDR
the operand or the PC, and the wave's first fault takes the user code; its registers stay. A thread whose predicate
is false goes on.

R358, R362: inside the handler RTE stops a performing thread and passes another to the next clause. When every
thread not exited has stopped so, the wave returns: INHANDLER, TFORMER, TFAULT and TCAUSE are cleared and each
thread resumes at its TPC, inside its wait where it carries a resume mark; one that had its result goes on behind
its instruction. That a thread which had its result goes on behind its instruction is the model's reading (log entry
11). -/
def Obligations.TrapsAndReturns : Prop :=
  (
    ∀ s x y l t p code a, Alone s x y l t → inHandler x = false →
      let parked (i : Instr) (c : Nat) (addr : DWord) : Prop :=
        ∃ s', exec i s = .next s' ∧
          NMap.find? (after s s').threads l = some { t with run := .fault c, pc := groupPc y, tpc := groupPc y, taddr := addr
                                                            wait := .none, lead := false, mark := .none, inst := none
                                                            issued := s.dev.ticks } ∧
          NMap.find? (after s s').groups s.dev.cur.2 = none ∧
          (after s s').first = some { code := c, lane := l, mask := 1#64 <<< l, user := code.toNat, ord := y.ord } ∧ sameRegs x (after s s')
      (performs p t = true → parked (.trap p code a) 0x06 (rd64 x t a) ∧ parked (.dbrk p code) 0x07 (groupPc y)) ∧
      (performs p t = false →
        (∃ s', exec (.trap p code a) s = .next s' ∧ Passed s s' y) ∧ ∃ s', exec (.dbrk p code) s = .next s' ∧ Passed s s' y)) ∧
  (
    (∀ s x y l t p, Issues s x y → l ∈ y.lanes → NMap.find? x.threads l = some t → inHandler x = true →
      ∃ s', exec (.rte p) s = .next s' ∧ NMap.find? (after s s').groups s.dev.cur.2 = none ∧
        if performs p t then (thread (after s s') l).run = .rte ∧ (thread (after s s') l).pc = groupPc y
        else (thread (after s s') l).run = t.run ∧ (thread (after s s') l).pc = nextClause y) ∧
    (∀ s w x, NMap.find? s.dev.waves w = some x → x.live = true → x.resident = true → coreRetained s x.core = false →
      allAtRte x = true →
      ∃ s', exec (.handlerReturn w) s = .next s' ∧
        let z := wave s'.dev w
        z.tformer = 0 ∧ z.tfault = 0 ∧ z.tcause = 0 ∧
        ∀ l t, NMap.find? x.threads l = some t → alive t = true →
          let u := thread z l
          u.run = .run ∧ u.v = t.v ∧ u.c = t.c ∧
          if t.mark = .hold then u.pc = nextPc t.markInst t.tpc ∧ u.wait = .none ∧ u.inst = none
          else u.pc = t.tpc ∧ u.wait = t.mark ∧ u.lead = t.markLead ∧
            u.inst = if t.mark = .none then none else t.markInst))

/-- R353, R356 to R358: once every thread of a wave with a handler fault has stopped, the wave enters its handler:
TFORMER, TFAULT and TCAUSE tell of the first fault, every thread not exited stands at the handler clause with the PC
it left in TPC and its wait, with the instruction it waits in and whether it leads that (R108, R111), kept as a
resume mark, and every other register of a thread stays.

R353, R374: a wave whose vector is zero has no handler: its workgroup is killed. -/
def Obligations.HandlerEntry : Prop :=
  (
    ∀ s w x f, NMap.find? s.dev.waves w = some x → x.live = true → x.resident = true → coreRetained s x.core = false →
      inHandler x = false → x.first = some f → allStopped s.dev w = true → handlerVector x ≠ 0 → f.code < 256 → f.user < 256 →
      (x.threads.map Prod.fst).Nodup →
      ∃ s', exec (.handlerEntry w) s = .next s' ∧
        let z := wave s'.dev w
        z.tformer = f.mask ∧
        (∀ l, l < 64 → (z.tfault.getLsbD l = true ↔ ∃ t c, NMap.find? x.threads l = some t ∧ t.run = .fault c)) ∧
        z.tcause.getLsbD 31 = true ∧ z.tcause.extractLsb' 0 8 = BitVec.ofNat 8 f.code ∧
        z.tcause.extractLsb' 16 8 = BitVec.ofNat 8 f.user ∧ z.tcause.extractLsb' 24 7 = 0 ∧ z.tcause.extractLsb' 9 7 = 0 ∧
        (z.tcause.getLsbD 8 = true ↔ ∃ l t c, NMap.find? x.threads l = some t ∧ t.run = .fault c ∧ c ≠ f.code) ∧
        z.s = x.s ∧ z.d = x.d ∧ z.fpflags = x.fpflags ∧ z.hold = x.hold ∧ z.groups = [] ∧ z.gathers = [] ∧
        ∀ l t, NMap.find? x.threads l = some t →
          let parked : Bool := match t.run with
            | .fault _ | .page => true
            | _ => false
          NMap.find? z.threads l = some (if alive t = false then t else
            { t with run := .run, pc := handlerVector x, wait := .none
                     tpc := if parked then t.tpc else pcOf x l, taddr := if parked then t.taddr else 0
                     mark := if parked then .none else Wait.marks t.wait, markLead := !parked && t.lead, lead := false
                     markInst := if parked then none else instOf x l, inst := none })) ∧
  (
    ∀ s w x f g, NMap.find? s.dev.waves w = some x → x.live = true → x.resident = true → coreRetained s x.core = false →
      inHandler x = false → x.first = some f → allStopped s.dev w = true → handlerVector x = 0 → NMap.find? s.dev.wgs x.wg = some g →
      g.waves = [w] → g.nbhd = 0 → (s.dev.waves.map Prod.fst).Nodup →
      ∃ s', exec (.handlerEntry w) s = .next s' ∧ (wave s'.dev w).live = false ∧ NMap.find? s'.dev.wgs x.wg = none)

/-- R94 to R100: a group forms of the threads that stand ready at a clause and pass its header's waits, in ascending
WORKID, at the clause's first instruction.

R192, R198, R355: the pts of a resident thread rises; at the run-on limit the wave's groups stop, in deterministic
mode each thread that reached it; a lane whose page fault is answered makes up a group for itself alone at its
instruction, with the operands of its issue (R111), or stands ready again at the header it could not fetch. R375,
R406: a workgroup of a context in destruction is killed, and with the last one the context is free. When a page
retry forms its group is the model's reading (log entries 6, 12), as is that the last workgroup frees its context at
once (log entry 29); that a timestamp of 2^64 - 1 wraps to 0 is the model's choice (log entry 64). -/
def Obligations.IssueForms : Prop :=
  (
    ∀ s w x clause hw dv, NMap.find? s.dev.waves w = some x → x.live = true → x.resident = true → x.limited = false →
      x.leaving = none → (x.threads.map Prod.fst).Nodup →
      (NMap.get {} s.power.clusters (clusterOf x.core)).ret = false → runOnReached s.dev x = false →
      fetchWord s.dev x.core x.ctx (pcClause (mkPc clause 0)).toNat = (.word hw, dv) → (Header.of hw).check = .ok () →
      NMap.find? x.groups x.nextGroup = none →
      let member (l : Nat) : Prop := (NMap.find? x.threads l).isSome ∧ readyAt x l = true ∧ spent s.dev x l = false ∧
        (thread x l).pc = mkPc clause 0 ∧ waitsOk dv w (Header.of hw) l = true
      (holdsToken dv w = true → (Header.of hw).wak ≠ 1 ∧ (Header.of hw).wbk ≠ 1) → (∃ l, member l) →
      ∃ s' y, exec (.issueGroupForm w (mkPc clause 0)) s = .next s' ∧
        NMap.find? (wave s'.dev w).groups x.nextGroup = some y ∧ y.hdr = Header.of hw ∧ y.index = 0 ∧ y.began = false ∧
        y.clause = pcClause (mkPc clause 0) ∧ (∀ l, l ∈ y.lanes ↔ member l) ∧
        y.lanes.Pairwise fun a b => (thread x a).workid.toNat ≤ (thread x b).workid.toNat) ∧
  (
    (∀ s w x l t, NMap.find? s.dev.waves w = some x → x.resident = true → NMap.find? x.threads l = some t →
      ∃ s', exec (.ptsAdvance w l) s = .next s' ∧
        NMap.find? (wave s'.dev w).threads l = some (if alive t then { t with pts := t.pts + 1 } else t)) ∧
    (∀ s w x, NMap.find? s.dev.waves w = some x → retained s w = false →
      (runOnReached s.dev x = true →
        ∃ s', exec (.runOnLimit w) s = .next s' ∧ (wave s'.dev w).limited = true ∧
          ∀ g y, x.groups = [(g, y)] → y.lanes.Nodup → (∀ l ∈ y.lanes, ∃ t, NMap.find? x.threads l = some t ∧ t.wait = .none) →
            (wave s'.dev w).groups = [] ∧ ∀ l ∈ y.lanes, (thread (wave s'.dev w) l).pc = groupPc y) ∧
      (x.first.isSome = true → (launch s.dev x.launch).hdr.det = true → ∀ l t, x.threads = [(l, t)] → x.groups = [] →
        spent s.dev x l = true → t.wait = .none → t.run = .run →
        ∃ s', exec (.runOnLimit w) s = .next s' ∧ (thread (wave s'.dev w) l).run = .stopped ∧
          (thread (wave s'.dev w) l).pc = t.pc)) ∧
    (∀ s w x l t, NMap.find? s.dev.waves w = some x → NMap.find? x.threads l = some t → mayRetry s.dev x l = true →
      coreRetained s x.core = false →
      ∃ s', exec (.pageRetry w l) s = .next s' ∧ (thread (wave s'.dev w) l).run = .run ∧
        (∀ h, t.inst = some h →
          let word : Bool := h.iw.isNone
          (thread (wave s'.dev w) l).wait = (if word then .none else .retry) ∧
          ∃ y, NMap.find? (wave s'.dev w).groups x.nextGroup = some y ∧ y.lanes = [l] ∧ y.hdr = h.hdr ∧
            y.clause = pcClause t.pc ∧ y.index = pcIndex t.pc ∧ y.began = !word ∧
            y.lead = (if t.lead = true ∧ word = false then some l else none) ∧
            (word = false → y.iw = h.iw ∧ y.s0 = h.s0 ∧ y.d0 = h.d0)) ∧
        (t.inst = none →
          (thread (wave s'.dev w) l).wait = .none ∧ (wave s'.dev w).groups = x.groups)) ∧
    (∀ s g G, NMap.find? s.dev.wgs g = some G → G.live = true → (ctx s.dev G.ctx).busy = 2 →
      ∃ s', exec (.kill g) s = .next s' ∧ NMap.find? s'.dev.wgs g = none ∧
        (s.dev.wgs = [(g, G)] → (NMap.find? s.dev.ctxs G.ctx).isSome → (ctx s'.dev G.ctx).cstate = 0)))

/-- R410, R413: CRED and CBCAST answer the first of their checks that fails; else they begin one chunk, with the next
chunk number of the group and die, or wait while the core has eight in flight. R411, R412, R414: a delivery writes
the result at each member and ends the chunk; on disagreement nothing is written; a failed row is replaced in the
tree by its children. When a source is read and a delivery may come is the model's reading (log entry 33). -/
def Obligations.Collectives : Prop :=
  (∀ s x y l t p k d (bcast : Bool) a b, Alone s x y l t → performs p t = true → inHandler x = false →
    let i := if bcast then Instr.cbcast k p d a b else .cred k p d a b
    let a0 := (rdQuad x t a 0).toNat
    let n := (rdQuad x t a 1).toNat
    let a2 := (rdQuad x t a 2).toNat
    let a3 := (rdQuad x t a 3).toNat
    let bw := (rd32 x t b).toNat
    let g := a0 % 256
    let gr := grpOf (ctx s.dev x.ctx) g
    let die := dieOf x.core
    let e := (fmtSize gr.pfmt).getD 1
    let dl := if bcast then e else (fmtSize gr.dfmt).getD 1
    let st := if 15 < g ∨ gr.usable = false ∨ bitsOf gr.dies die 1 = 0 then 1
      else if n = 0 ∨ 65536 < n then 3
      else if chunkArea s.dev x.wg a2 (n * e) = false ∨ chunkArea s.dev x.wg a3 (n * dl) = false ∨
        (bw % 2 = 1 ∧ objNamed s.dev x.wg (bw / 32 * 32) false = false) then 2 else 0
    let reads := bcast = false ∨ a0 / 256 % 256 = gr.self
    (bw / 2 % 16 ≠ 0 → ∃ s', exec i s = .next s' ∧ (thread (after s s') l).run = .fault 0x03) ∧
    (bw / 2 % 16 = 0 → st ≠ 0 →
      ∃ s', exec i s = .next s' ∧ Passed s s' y ∧ Status s s' l d k st ∧ s'.dev.chunks = s.dev.chunks) ∧
    (bw / 2 % 16 = 0 → st = 0 → 8 ≤ coreChunks s.dev x.core →
      ∃ s', exec i s = .next s' ∧ (thread (after s s') l).wait = .again ∧ s'.dev.chunks = s.dev.chunks) ∧
    (bw / 2 % 16 = 0 → st = 0 → coreChunks s.dev x.core < 8 → x.wg ≠ 0 →
      heldBack s.dev x.ctx s.dev.nextId (scrSectors x.wg a2 (n * e)) [] = false →
      ∃ s' c, exec i s = .next s' ∧ Passed s s' y ∧ Status s s' l d k 0 ∧
        NMap.find? s'.dev.chunks s.dev.nextId = some c ∧ c.live = true ∧ c.wg = x.wg ∧ c.group = g ∧ c.bcast = bcast ∧
        c.n = n ∧ c.dst = a3 ∧ c.seq = NMap.get 0 (ctx s.dev x.ctx).chunkSeq (16 * die + g) ∧
        NMap.get 0 (ctx s'.dev x.ctx).chunkSeq (16 * die + g) = c.seq + 1 ∧
        c.src = if reads then Memory.bytes (wg s.dev x.wg).mem a2 (n * e) else [])) ∧
  (∀ s id k data G, NMap.find? s.dev.chunks id = some k → k.live = true → k.gone = false → k.bar = none →
    k.out = none → k.pos = 0 → s.dev.cut = none →
    NMap.find? s.dev.wgs k.wg = some G → G.ended = false →
    let gr := grpOf (ctx s.dev k.ctx) k.group
    chunkReady s.dev gr [(id, k)] = true → chunkPeers s.dev k = [(id, k)] →
    let bs := chunkResult gr k [(id, k)] data
    (rangeRegistered s.dev k.wg k.dst bs.length = false →
      ∃ s', exec (.chunkDelivery id data true) s = .next s' ∧ NMap.find? s'.dev.chunks id = none ∧
      ∀ j, scratchByte s'.dev k.wg j =
        if k.dst ≤ j ∧ j < k.dst + bs.length then bs.getD (j - k.dst) 0 else NMap.get 0 G.mem j) ∧
    ∃ s', exec (.chunkDelivery id data false) s = .next s' ∧ NMap.find? s'.dev.chunks id = none ∧
      ∀ j, scratchByte s'.dev k.wg j = NMap.get 0 G.mem j) ∧
  (∀ s c g r, g ≤ 15 → r < (grpOf (ctx s.dev c) g).rows.length →
    let gr := grpOf (ctx s.dev c) g
    gr.usable = true → (gr.row r).live = true → (gr.row r).parent ≠ 0xFF → (gr.row r).parent ≠ r →
    ∃ s', exec (.rowFailure c g r) s = .next s' ∧
      let gr' := grpOf (ctx s'.dev c) g
      gr'.rows.length = gr.rows.length ∧ gr'.rebuilt = true ∧ (gr'.row r).live = false ∧
      ∀ q, q < gr.rows.length → q ≠ r →
        (gr'.row q).live = (gr.row q).live ∧ (gr'.row q).dev = (gr.row q).dev ∧ (gr'.row q).node = (gr.row q).node ∧
        (gr'.row q).parent =
          if (gr.row q).live = true ∧ (gr.row q).parent = r then (gr.row r).parent else (gr.row q).parent)

/-- R74: the four custom instructions. RFETCH copies the packet at HEAD into local memory and answers 1; it answers 0
for an empty queue, 2 for a halted one, and 3 where the read meets a fabric error, which halts the queue. BFEXT
extracts a field. SWAIT takes the signals of its mask or waits. WDISP hands a launch to the Wheel or answers 1. An
illegal operand raises the exception of its cause; x0 is never written. A waiting core returns on a signal, and with
0 once its time has passed.

R74: a Saggar core executes RV64: ADDI and ADD give a sum, LD a doubleword of local memory, BEQ goes to its target
or on, and ECALL takes the environment-call exception of its mode. The entry of the exception, what a base
instruction does, the form of the launch WDISP reads, and that RFETCH reads a packet whatever QEN is, are the
model's (log entries 5, 38, 52). -/
def Obligations.SaggarInstructions : Prop :=
  (
    ∀ (s : State) (rd r1 r2 : XReg),
      let c := sCore s
      let done (s' : State) (v : DWord) : Prop :=
        (sCore s').pc = c.pc + 4 ∧ (sCore s').rd rd = (if rd.val = 0 then 0 else v) ∧
        ∀ r : XReg, r ≠ rd → (sCore s').rd r = c.rd r
      let trapped (i : Instr) (cause : DWord) : Prop :=
        ∃ s', exec i s = .next s' ∧ (sCore s').mcause = cause ∧ (sCore s').mepc = c.pc ∧ (sCore s').machine = true ∧
          (sCore s').pc = c.mtvec &&& ~~~(3 : DWord) ∧ ∀ r, (sCore s').rd r = c.rd r
      let a := (c.rd r1).toNat
      let b := (c.rd r2).toNat
      (511 < a ∨ b % 128 ≠ 0 ∨ inLocal b 128 = false → trapped (.rfetch rd r1 r2) 24) ∧
      (a ≤ 511 → b % 128 = 0 → inLocal b 128 = true →
        let q := queue s.dev (a / 8) (a % 8)
        ∃ s', exec (.rfetch rd r1 r2) s = .next s' ∧
          if q.halt ≠ 0 then done s' 2 ∧ s'.dev = s.dev
          else if q.head = q.tail then done s' 0 ∧ s'.dev = s.dev
          else if Config.freeBit s.dev.free = true then done s' 3 ∧ (queue s'.dev (a / 8) (a % 8)).halt = 4
          else done s' 1 ∧ Memory.bytes (sCore s').mem b 128 = Memory.bytes s.dev.host (headAddr q) 128) ∧
      (b / 256 % 64 = 0 ∨ 64 < b % 64 + b / 256 % 64 → trapped (.bfext rd r1 r2) 25) ∧
      (b / 256 % 64 ≠ 0 → b % 64 + b / 256 % 64 ≤ 64 →
        ∃ s', exec (.bfext rd r1 r2) s = .next s' ∧
          done s' (BitVec.ofNat 64 (a / 2 ^ (b % 64) % 2 ^ (b / 256 % 64)))) ∧
      (c.rd r1 = 0 → trapped (.swait rd r1 r2) 26) ∧
      (c.rd r1 ≠ 0 → c.sig &&& c.rd r1 ≠ 0 →
        ∃ s', exec (.swait rd r1 r2) s = .next s' ∧ done s' (c.sig &&& c.rd r1) ∧ (sCore s').sig = c.sig &&& ~~~(c.rd r1)) ∧
      (c.rd r1 ≠ 0 → c.sig &&& c.rd r1 = 0 →
        ∃ s', exec (.swait rd r1 r2) s = .next s' ∧ (sCore s').pc = c.pc ∧
          (sCore s').wait = some { rd := rd.val, mask := c.rd r1, til := if b = 0 then none else some (s.dev.ticks + b) }) ∧
      (a % 64 ≠ 0 ∨ 63 < b ∨ (ctx s.dev b).runs = false → trapped (.wdisp rd r1 r2) 27) ∧
      (a % 64 = 0 → b ≤ 63 → (ctx s.dev b).runs = true →
        let h := Memory.bytes c.mem a 256
        let x := ctx s.dev b
        ∃ s', exec (.wdisp rd r1 r2) s = .next s' ∧
          if Config.freeBit s.dev.free = false ∧ inLocal a 256 = true ∧ headerOk h x.cls x.logb.base x.logb.log = true then
            done s' 0 ∧ (launch s'.dev s.dev.nextId).ctx = b ∧ (launch s'.dev s.dev.nextId).hdr = LaunchHdr.parse h
          else done s' 1 ∧ s'.dev.launches = s.dev.launches) ∧
      (∀ w, s.saggar.cur < 8 → c.wait = some w → w.rd = rd.val →
        (c.sig &&& w.mask ≠ 0 →
          ∃ s', exec (.swaitWake s.saggar.cur) s = .next s' ∧ done s' (c.sig &&& w.mask) ∧ (sCore s').wait = none) ∧
        (c.sig &&& w.mask = 0 → (∃ n, w.til = some n ∧ n ≤ s.dev.ticks) →
          ∃ s', exec (.swaitWake s.saggar.cur) s = .next s' ∧ done s' 0 ∧ (sCore s').wait = none))) ∧
  (
    ∀ (s : State) co r, s.agenda = .saggar co :: r → s.saggar.on = true → co < 8 → (s.saggar.core co).wait = none →
      inLocal (s.saggar.core co).pc.toNat 4 = true →
      let c := s.saggar.core co
      let w := c.word
      let rd := rvRd w
      let a := c.rd (rvRs1 w)
      let b := c.rd (rvRs2 w)
      let imm : DWord := (w.extractLsb' 20 12).signExtend 64
      let gives (v : DWord) : Prop :=
        ∃ s', step s = .next s' ∧ (s'.saggar.core co).pc = c.pc + 4 ∧ (s'.saggar.core co).mem = c.mem ∧
          (s'.saggar.core co).rd rd = (if rd.val = 0 then 0 else v) ∧
          ∀ q : XReg, q ≠ rd → (s'.saggar.core co).rd q = c.rd q
      (w.extractLsb' 0 7 = 0x13#7 → rvF3 w = 0 → gives (a + imm)) ∧
      (w.extractLsb' 0 7 = 0x33#7 → rvF3 w = 0 → rvF7 w = 0 → gives (a + b)) ∧
      (w.extractLsb' 0 7 = 0x03#7 → rvF3 w = 3 → inLocal (a + imm).toNat 8 = true →
        gives (BitVec.ofNat 64 (leNat (Memory.bytes c.mem (a + imm).toNat 8)))) ∧
      (w.extractLsb' 0 7 = 0x63#7 → rvF3 w = 0 →
        ∃ s', step s = .next s' ∧ (s'.saggar.core co).pc = c.pc + (if a = b then immB w else 4) ∧
          (s'.saggar.core co).mem = c.mem ∧ ∀ q : XReg, (s'.saggar.core co).rd q = c.rd q) ∧
      (w = 0x73#32 →
        ∃ s', step s = .next s' ∧ (s'.saggar.core co).mcause = (if c.machine then 11 else 8) ∧
          (s'.saggar.core co).mepc = c.pc ∧ (s'.saggar.core co).machine = true ∧
          (s'.saggar.core co).pc = c.mtvec &&& ~~~(3 : DWord) ∧ ∀ q : XReg, (s'.saggar.core co).rd q = c.rd q))

/-- R62, R63, R404: the owner's doorbell moves TAIL, or on overrun halts the queue with code 1 and discards the context;
QEN becomes 1 only with a legal QLOG and QBASE; QBASE, QLOG, KINDS and RANGE0 to RANGE3 take a write while QEN is 0,
and a write that covers QEN and TAIL changes both; another node's doorbell and QEN write change nothing.

R72, R73, R66, R71, R250, R439: a due launch is released with its class and absolute deadline, the token of a
deterministic one at its first wave; a launch of which nothing remains completes, its set mask applied. That an
overrun halts a halted queue too is the model's reading (log entry 30). -/
def Obligations.QueuesAndLaunches : Prop :=
  (
    ∀ s node c q,
      (owns s.dev node c = false → ∀ v, exec (.doorbell node c q v) s = .next s ∧ exec (.qenWrite node c q v) s = .next s) ∧
      (owns s.dev node c = true → queueLives s.dev c q = true →
        let y := queue s.dev c q
        (∀ t, (t - y.tail).toNat + (y.tail - y.head).toNat ≤ 2 ^ y.qlog →
          ∃ s', exec (.doorbell node c q t) s = .next s' ∧ queue s'.dev c q = { y with tail := t }) ∧
        (∀ t, 2 ^ y.qlog < (t - y.tail).toNat + (y.tail - y.head).toNat →
          ∃ s', exec (.doorbell node c q t) s = .next s' ∧ (queue s'.dev c q).halt = 1 ∧ (ctx s'.dev c).cstate = 4) ∧
        (∀ v, ∃ s', exec (.qenWrite node c q v) s = .next s' ∧
          ((queue s'.dev c q).qen = true ↔ v.getLsbD 0 = true ∧ 6 ≤ y.qlog ∧ y.qlog ≤ 16 ∧ y.qbase.toNat % 128 = 0)) ∧
        (q < 8 → s.mgmt.boot = 3 → y.qlog < 32 →
          let range (z : Queue) (i : Nat) : DWord := NMap.get 0 z.ranges i
          let ranges (z : Queue) : List DWord := (List.range 8).map (range z)
          let wrote (off len : Nat) (v : DWord) (f : Queue → Prop) : Prop :=
            ∃ s', exec (.queueRegisterWrite node c (0x8000 + 128 * q + off) len v) s = .next s' ∧
              let z := queue s'.dev c q
              if y.qen then z = y
              else f z ∧ z.qen = false ∧ z.tail = y.tail ∧ z.head = y.head ∧ z.halt = y.halt
          (∀ v, wrote 0 8 v fun z => z.qbase = v ∧ z.qlog = y.qlog ∧ z.kinds = y.kinds ∧ ranges z = ranges y) ∧
          (∀ v, wrote 8 4 v fun z =>
            z.qbase = y.qbase ∧ z.qlog = v.toNat % 32 ∧ z.kinds = y.kinds ∧ ranges z = ranges y) ∧
          (∀ v, wrote 0x20 1 v fun z =>
            z.qbase = y.qbase ∧ z.qlog = y.qlog ∧ z.kinds = v.setWidth 8 ∧ ranges z = ranges y) ∧
          (∀ v i, i < 8 → wrote (0x40 + 8 * i) 8 v fun z =>
            z.qbase = y.qbase ∧ z.qlog = y.qlog ∧ z.kinds = y.kinds ∧
            ∀ j < 8, range z j = if j = i then v else range y j) ∧
          ∀ v : DWord, (v.extractLsb' 32 32 - y.tail).toNat + (y.tail - y.head).toNat ≤ 2 ^ y.qlog →
            ∃ s', exec (.queueRegisterWrite node c (0x8000 + 128 * q + 0xC) 8 v) s = .next s' ∧
              (queue s'.dev c q).tail = v.extractLsb' 32 32 ∧
              ((queue s'.dev c q).qen = true ↔ v.getLsbD 0 = true ∧ 6 ≤ y.qlog ∧ y.qlog ≤ 16 ∧ y.qbase.toNat % 128 = 0)))) ∧
  (
    (∀ s n l, NMap.find? s.dev.launches n = some l → l.state = .due → l.hdr.rec_ = false → l.hdr.rep = false →
      let x := ctx s.dev l.ctx
      let cls := if l.hdr.cls = 0 then x.cls else l.hdr.cls
      let d := l.hdr.deadline
      ∃ s', exec (.launchRelease n) s = .next s' ∧
        let l' := launch s'.dev n
        l'.state = .released ∧ l'.cls = cls ∧ l'.token = (if l.hdr.det then some 0 else none) ∧
        (cls = 1 → 0 < x.period → x.created ≤ l.dueAt →
          ∃ k, l'.deadline = some (x.created + k * x.period + (if d = 0 then x.deadline else d)) ∧
            x.created + k * x.period ≤ l.dueAt ∧ l.dueAt < x.created + (k + 1) * x.period) ∧
        (cls = 2 → l'.deadline = some (l.dueAt + (if d = 0 then x.deadline else d))) ∧
        (cls = 3 → l'.deadline = if d = 0 then none else some (l.dueAt + d))) ∧
    (∀ s n l q pkt o, NMap.find? s.dev.launches n = some l → launchOver s.dev n = true → l.hdr.rec_ = false →
      l.hdr.rep = false → l.via = some (q, pkt) → (queue s.dev l.ctx q).outs = [o] → o.pkt = pkt → o.notify = true →
      (s.dev.launches.map Prod.fst).Nodup →
      ∃ s', exec (.launchComplete n) s = .next s' ∧ (launch s'.dev n).state = .complete ∧
        (ctx s'.dev l.ctx).events = (ctx s.dev l.ctx).events ||| l.hdr.setMask ∧
        (queue s'.dev l.ctx q).outs = [{ o with complete := true }]))

/-- R64 to R68, R21: a fetch takes the packet at HEAD, or halts the queue with the code of the check that fails, or with
4 where the read meets a fabric error. A packet issues with its effect, HEAD passing it: NOP, EVENT_SET,
EVENT_CLEAR, RECORD and BARRIER complete then or when every earlier packet has, LAUNCH when its launch does. A
RECORD packet increments its slot's generation, 1 following 0xFFFF, and stores the record with the slot's own
handle, or empties the slot. NVAL is written once the packet has completed. The order of the checks, and that NVAL
is written over the bytes of a registered object, are the model's (log entry 30). -/
def Obligations.Packets : Prop :=
  (∀ s c q, queueLives s.dev c q = true →
    let y := queue s.dev c q
    y.qen = true → y.halt = 0 → y.head ≠ y.tail → y.pend = none →
    (Config.freeBit s.dev.free = true → ∃ s', exec (.packetFetch c q) s = .next s' ∧ (queue s'.dev c q).halt = 4) ∧
    (Config.freeBit s.dev.free = false →
      let raw := Memory.bytes s.dev.host (headAddr y) 128
      (∀ b, (checkPacket s.dev c y raw).1 = .ok b →
        ∃ s', exec (.packetFetch c q) s = .next s' ∧ queue s'.dev c q = { y with pend := some b }) ∧
      (∀ code, (checkPacket s.dev c y raw).1 = .error code →
        ∃ s', exec (.packetFetch c q) s = .next s' ∧ (queue s'.dev c q).halt = code))) ∧
  (∀ s c q k b, ready s.dev c q k = some b →
    let y := queue s.dev c q
    let issued (s' : State) (complete : Bool) : Prop :=
      let y' := queue s'.dev c q
      let o : Out := { pkt := y.pktNo, kind := pktKind b, notify := pktNotify b, naddr := pktNaddr b, nval := pktNval b
                       complete := complete }
      y'.head = y.head + 1 ∧ y'.pend = none ∧ y'.pktNo = y.pktNo + 1 ∧
      y'.outs = (y.outs ++ [o]).filter fun o => !o.complete || o.notify
    (k = 0 → ∃ s', exec (.noOperation c q) s = .next s' ∧ issued s' true ∧ (ctx s'.dev c).events = (ctx s.dev c).events) ∧
    (k = 2 → ∃ s', exec (.eventSet c q) s = .next s' ∧ issued s' true ∧
      (ctx s'.dev c).events = (ctx s.dev c).events ||| pktMask b) ∧
    (k = 3 → ∃ s', exec (.eventClear c q) s = .next s' ∧ issued s' true ∧
      (ctx s'.dev c).events = (ctx s.dev c).events &&& ~~~(pktMask b)) ∧
    (k = 4 → ∃ s', exec (.recordTableUpdate c q) s = .next s' ∧ issued s' true ∧
      let slot := leAt b 8 2
      let old := NMap.get (0, 0, false) (ctx s.dev c).recs slot
      let gen := if old.2.1 = 0xFFFF then 1 else old.2.1 + 1
      NMap.get (0, 0, false) (ctx s'.dev c).recs slot =
        if leAt b 0x0A 1 = 0 then (ownHandle (BitVec.ofNat 256 (leAt b 0x20 32)) slot gen, gen, true) else (0, gen, false)) ∧
    (k = 5 → y.outs = [] → pktKind b = 5 → ∃ s', exec (.barrierPacket c q) s = .next s' ∧ issued s' true) ∧
    (k = 1 → NMap.find? s.dev.launches s.dev.nextId = none → ∃ s', exec (.launch c q) s = .next s' ∧ issued s' false ∧
      let l := launch s'.dev s.dev.nextId
      l.ctx = c ∧ l.via = some (q, y.pktNo) ∧
      l.state = if l.hdr.waitMask &&& (ctx s.dev c).events = l.hdr.waitMask then .due else .waiting)) ∧
  (∀ s c q o pa, queueLives s.dev c q = true → (queue s.dev c q).outs = [o] → o.complete = true → o.notify = true →
    o.paged = none → o.naddr % 8 = 0 →
    (translateDirect s.dev c o.naddr .store = .ok pa →
      ∃ s', exec (.nvalWrite c q o.pkt) s = .next s' ∧ (queue s'.dev c q).outs = [] ∧
        ∀ a, memByte s'.dev a = if pa ≤ a ∧ a < pa + 8 then o.nval.extractLsb' (8 * (a - pa)) 8 else memByte s.dev a) ∧
    (translateDirect s.dev c o.naddr .store = .protection →
      ∃ s', exec (.nvalWrite c q o.pkt) s = .next s' ∧ (queue s'.dev c q).halt = 4))

/-- R417 to R422: a session packet issues with its effect. An open that passes its checks opens the session of its
block, and one that fails, also where the block cannot be read, leaves the sessions as they are, or closes the
session that was open; a close with no frame encoding frees it; KEY and RATE, where an open would take the rates it
rereads, mark the next frame to start assembling. A frame of a session with LOWDELAY is coded from at most three
frames coded before it, as no B frame and not hidden, and a key frame from none; its record enters the output ring,
or the session stalls until it fits. The error of each check, that a failed open closes, and that rates which an
open would refuse are not taken, are the model's readings (log entries 37, 62); how a frame is coded, and its units,
are opaque (log entry 61). -/
def Obligations.EncoderSessions : Prop :=
  (∀ s c q op b, readyOp s.dev c q op = some b →
    let n := leAt b 9 1
    let issued (s' : State) : Prop := (queue s'.dev c q).head = (queue s.dev c q).head + 1
    (op = 0 → ∀ blk d, saggarLoad s.dev c (leAt b 0x10 8) 128 = some (blk, d) →
      let e := openError s.dev c n (leAt b 0x10 8) blk (Config.freeBit s.dev.free)
      ∃ s', exec (.sessionOpen c q) s = .next s' ∧ issued s' ∧
        (e = 0 → NMap.find? (ctx s'.dev c).sessions n = some (Session.parse (leAt b 0x10 8) blk)) ∧
        (e ≠ 0 → NMap.find? (ctx s.dev c).sessions n = none → (ctx s'.dev c).sessions = (ctx s.dev c).sessions) ∧
        (∀ x, NMap.find? (ctx s.dev c).sessions n = some x → x.coding = [] → x.held = none →
          NMap.find? (ctx s'.dev c).sessions n = none)) ∧
    (op = 0 → saggarLoad s.dev c (leAt b 0x10 8) 128 = none →
      ∃ s', exec (.sessionOpen c q) s = .next s' ∧ issued s' ∧
        (NMap.find? (ctx s.dev c).sessions n = none → (ctx s'.dev c).sessions = (ctx s.dev c).sessions) ∧
        (∀ x, NMap.find? (ctx s.dev c).sessions n = some x → x.coding = [] → x.held = none →
          NMap.find? (ctx s'.dev c).sessions n = none)) ∧
    (op = 1 → ∀ x, NMap.find? (ctx s.dev c).sessions n = some x →
      ∃ s', exec (.sessionClose c q) s = .next s' ∧ issued s' ∧
        if x.coding = [] ∧ x.held = none then NMap.find? (ctx s'.dev c).sessions n = none
        else ∃ x', NMap.find? (ctx s'.dev c).sessions n = some x' ∧ x'.asm = [] ∧ x'.coding = x.coding ∧ x'.closing.isSome) ∧
    (op = 2 → ∀ x, sessionAt s.dev c n = some x →
      ∃ s', exec (.sessionKey c q) s = .next s' ∧ issued s' ∧ sessionAt s'.dev c n = some { x with keyNext := true }) ∧
    (op = 3 → ∀ x r d, sessionAt s.dev c n = some x → saggarLoad s.dev c (x.block + 0x10) 24 = some (r, d) →
      ∃ s', exec (.sessionRate c q) s = .next s' ∧ issued s' ∧
        sessionAt s'.dev c n = some (if ratesOk x.codec r then { x with newRate := some r } else x))) ∧
  (∀ s c n x f, NMap.find? (ctx s.dev c).sessions n = some x → x.opened = true → x.stalled = false → x.asm = [] →
    x.coding = [f] → x.lowDelay = true → x.closing = none →
    let gop := rateField f.rate 0x24
    let key := f.key || x.keyCode || f.num == 0 || (gop != 0 && f.num % gop == 0)
    let cf := x.codedNow (f.coded key)
    let r := (fitRecord x (f.num % 2 ^ 32) key (frameBytes x.codec (frameUnits x cf))).2
    ∃ s' x', exec (.frameCode c n) s = .next s' ∧ NMap.find? (ctx s'.dev c).sessions n = some x' ∧ x'.coding = [] ∧
      x'.coded = x.coded ++ [cf] ∧ cf.how.refs.length ≤ 3 ∧ cf.how.kind ≠ .bi ∧ cf.how.hidden = false ∧
      (key = true → cf.how.kind = .intra ∧ cf.how.refs = []) ∧ (∀ m ∈ cf.how.refs, ∃ h ∈ x.coded, h.num = m) ∧
      if r.length ≤ (ringRoom s.dev c x).1 then
        x'.outWr = (x.outWr + r.length) % 2 ^ 32 ∧ x'.frames = (x.frames + 1) % 2 ^ 32 ∧ x'.stalled = false
      else x'.stalled = true ∧ x'.held = some r ∧ x'.frames = x.frames) ∧
  (∀ s c n x r, NMap.find? (ctx s.dev c).sessions n = some x → x.held = some r → x.closing = none →
    ((ringRoom s.dev c x).1 < r.length →
      ∃ s', exec (.outputRingResume c n) s = .next s' ∧ ctx s'.dev c = ctx s.dev c) ∧
    (r.length ≤ (ringRoom s.dev c x).1 →
      ∃ s' x', exec (.outputRingResume c n) s = .next s' ∧ NMap.find? (ctx s'.dev c).sessions n = some x' ∧
        x'.held = none ∧ x'.stalled = false ∧ x'.outWr = (x.outWr + r.length) % 2 ^ 32))

/-- R57 to R60, R193, R404 to R407: at BOOT 3 a create of a free context makes it active for its node, or rejects its
descriptor; a destroy halts its queues and frees it once no workgroup is left; an invalidation, when complete,
leaves no translation of its range. The aperture reads and writes the context's memory for its owner; for another
node reads give zero and writes nothing.

R403 to R405: a node's read at FB + an offset of window `c` gives the owner the descriptor and the cone counters,
byte by byte, and zero at TAIL, which is WO (R6, R62); it gives another node zero while the context runs; while an
earlier access of the node is under way it has no effect yet (R404); the reserved range reads as zero, and before
BOOT 3 every window does. What an aperture write leaves where its second part faults, when its parts are performed,
and that a node's access waits for an earlier one of its own, are the model's readings (log entry 34); TAIL reads as
zero but in CSTATE 4 (log entry 66); that a destroy frees at once a context without workgroups is the model's
reading (log entry 29). -/
def Obligations.Contexts : Prop :=
  (
    (∀ s node c, s.mgmt.boot = 3 → c < 64 → (ctx s.dev c).cstate = 0 ∨ (ctx s.dev c).cstate = 3 →
      let x := ctx s.dev c
      ∃ s', exec (.contextCreate node c) s = .next s' ∧
        let z := ctx s'.dev c
        if descriptorOk s.dev c x then
          z.cstate = 1 ∧ z.owner = some node ∧ z.desc = x.desc ∧ z.created = s.dev.ticks ∧ z.procId = x.d 0 2 ∧
          z.qcount = x.d 2 1 ∧ z.ptroot = x.d 0x10 8 ∧ z.save = x.d 0x18 8 ∧ z.saveSize = x.d 0x20 4 ∧ z.period = x.d 4 4 ∧
          z.events = 0 ∧ z.recs = [] ∧ z.queues = [] ∧ z.cones = []
        else z = { x with cstate := 3, owner := none }) ∧
    (∀ s node c, owns s.dev node c = true → (ctx s.dev c).cstate = 1 →
      ((∀ p ∈ s.dev.wgs, p.2.ctx ≠ c) →
        ∃ s', exec (.contextDestroy node c) s = .next s' ∧ (ctx s'.dev c).cstate = 0 ∧ (ctx s'.dev c).owner = none) ∧
      ((∃ p ∈ s.dev.wgs, p.2.ctx = c) →
        ∃ s', exec (.contextDestroy node c) s = .next s' ∧ (ctx s'.dev c).cstate = 2 ∧
          ∀ q, q < (ctx s.dev c).qcount → (queue s'.dev c q).halt = 7) ∧
      (∃ s', exec (.translationInvalidate node c) s = .next s' ∧ (ctx s'.dev c).cstate = 2 ∧ (ctx s'.dev c).busy = 3 ∧
        ∀ va, (ctx s'.dev c).invalidates va =
          decide ((ctx s.dev c).invBase.toNat ≤ va ∧ va < (ctx s.dev c).invBase.toNat + (ctx s.dev c).invLen.toNat))) ∧
    (∀ s c, (ctx s.dev c).busy = 3 → accessUnderWay s.dev c = false →
      ∃ s', exec (.invalidationComplete c) s = .next s' ∧ (ctx s'.dev c).cstate = 1 ∧ (ctx s'.dev c).busy = 0 ∧
        ∀ n t, t ∈ (core s'.dev n).tlb ∨ t ∈ NMap.get [] s'.dev.ctlb n → t.1 / 2 ^ 41 = c →
          (ctx s.dev c).invalidates (t.1 % 2 ^ 41 * 65536) = false) ∧
    (∀ s node c off data, owns s.dev node c = false → (∀ w, apertOf s.dev node c off w data = none) →
      (∃ s', exec (.apertureAccess node c off false data) s = .next s' ∧ s'.dev.resp = some (List.replicate data.length 0)) ∧
      ∃ s', exec (.apertureAccess node c off true data) s = .next s' ∧ s'.dev.mem = s.dev.mem) ∧
    (∀ s node c (off : DWord) data pa, owns s.dev node c = true → (ctx s.dev c).cstate = 1 → data ≠ [] →
      off.toNat % 32 + data.length ≤ 32 → off.toNat + data.length ≤ 2 ^ 32 →
      s.dev.cut = none → (∀ w, apertOf s.dev node c off w data = none) →
      (translateDirect s.dev c off.toNat .load = .ok pa →
        ∃ s', exec (.apertureAccess node c off false data) s = .next s' ∧
          s'.dev.resp = some (Memory.bytes s.dev.mem pa data.length) ∧ s'.dev.mem = s.dev.mem) ∧
      (translateDirect s.dev c off.toNat .store = .ok pa → registered s.dev (.glob pa) = false →
        ∃ s', exec (.apertureAccess node c off true data) s = .next s' ∧ s'.dev.resp = some [] ∧
          ∀ a, memByte s'.dev a = if pa ≤ a ∧ a < pa + data.length then data.getD (a - pa) 0 else memByte s.dev a))) ∧
  (
    ∀ (s : State) node off r, s.agenda = .fabric node (s.mgmt.fbbase.toNat + off) false [0] :: r →
      ((∃ p ∈ s.dev.aps, p.node = node) → off < 0x1000000000 → step s = .next { s with agenda := r }) ∧
      ((∀ p ∈ s.dev.aps, p.node ≠ node) →
      let gives (b : Byte) : Prop := step s = .next { s with agenda := r, dev := { s.dev with resp := some [b], cut := none } }
      (s.mgmt.boot ≠ 0 → 0x1400000 ≤ off → off < 0x1000000000 → gives 0) ∧
      ∀ c o, c < 64 → o < 0x10000 → off = 0x1000000 + 0x10000 * c + o →
        (s.mgmt.boot ≠ 0 → s.mgmt.boot ≠ 3 → gives 0) ∧
        (s.mgmt.boot = 3 → (ctx s.dev c).cstate = 0 ∨ (ctx s.dev c).cstate = 3 → o < 0x80 → gives (NMap.get 0 (ctx s.dev c).desc o)) ∧
        (s.mgmt.boot = 3 → (ctx s.dev c).cstate = 1 ∨ (ctx s.dev c).cstate = 2 ∨ (ctx s.dev c).cstate = 4 →
          (owns s.dev node c = false → gives 0) ∧
          (owns s.dev node c = true →
            (o < 0x80 → gives (NMap.get 0 (ctx s.dev c).desc o)) ∧
            (∀ q i, q < 8 → i < 4 → o = 0x8010 + 128 * q + i → (ctx s.dev c).cstate ≠ 4 → gives 0) ∧
            ∀ n k sl i, n < 256 → k < 4 → sl < 3 → i < 8 → o = 0x1000 + 96 * n + 8 * (4 * sl + k) + i →
              gives (BitVec.ofNat 8 (NMap.get 0 (ctx s.dev c).cones (coneKey n k sl) / 256 ^ i))))))

/-- R192, R408, R409: a fault without a record gets one in the host's ring, where there is room; the host releases
records by FRRD. An answer MAPPED lets the parked lanes of its granule retry; DECLINED gives them PROTECTION. Which
pending fault comes first is free (log entry 14). -/
def Obligations.PageFaults : Prop :=
  (∀ s c f, newFaults s.dev c = [f] → (ctx s.dev c).runs = true → 4 ≤ (ctx s.dev c).pf.log → (ctx s.dev c).pf.log ≤ 12 →
    (ctx s.dev c).pf.base.toNat % 64 = 0 → (ctx s.dev c).pf.note = 0 →
    ((ctx s.dev c).pf.wr - (ctx s.dev c).pf.rd).toNat ≠ 2 ^ (ctx s.dev c).pf.log →
    let b := (ctx s.dev c).pf
    ∃ s', exec (.faultRecordWrite c) s = .next s' ∧
      (ctx s'.dev c).pf = { b with wr := b.wr + 1, pending := b.pending ++ [f.va / 65536] } ∧
      Memory.bytes s'.dev.host (b.base.toNat + 32 * (b.wr.toNat % 2 ^ b.log)) 32 =
        leBytes 8 f.va ++ leBytes 1 f.kind ++ leBytes 1 f.level ++ leBytes 2 f.core ++ leBytes 4 b.wr.toNat ++
        leBytes 8 f.workid ++ leBytes 8 0) ∧
  (∀ s node c v, owns s.dev node c = true →
    ∃ s', exec (.frrdWrite node c v) s = .next s' ∧ (ctx s'.dev c).pf = { (ctx s.dev c).pf with rd := v }) ∧
  (∀ s node c, owns s.dev node c = true →
    let gr := (ctx s.dev c).pf.ansva.toNat / 65536
    gr ∈ (ctx s.dev c).pf.pending →
    (∃ s', exec (.answerMapped node c) s = .next s' ∧ gr ∉ (ctx s'.dev c).pf.pending ∧
      ∀ w x l t, NMap.find? s.dev.waves w = some x → x.ctx = c → NMap.find? x.threads l = some t → parkedOn t = true →
        t.pgVa / 65536 = gr → threadAt s'.dev w l = { t with pgKind := 0 }) ∧
    (∀ w x l t, s.dev.waves = [(w, x)] → x.ctx = c → x.threads = [(l, t)] → x.groups = [] → x.fatal = none →
      inHandler x = false → (ctx s.dev c).queues = [] → parkedOn t = true → t.pgVa / 65536 = gr →
      ∃ s', exec (.answerDeclined node c) s = .next s' ∧ gr ∉ (ctx s'.dev c).pf.pending ∧
        (threadAt s'.dev w l).run = .fault 0x21 ∧ (threadAt s'.dev w l).tpc = t.tpc ∧
        (threadAt s'.dev w l).taddr = t.taddr))

/-- R391 to R394: the host's write of RDIDX releases records of a recording launch; the oldest waiting record is written
at WRIDX; a log full for longer than LOGWAIT is truncated; a mismatch discards the context and tells the record.
When WRIDX is cleared, and what a replay's end finds, are the model's readings (log entry 31). -/
def Obligations.RecordAndReplayLogs : Prop :=
  (∀ s node c v, owns s.dev node c = true →
    let b := (ctx s.dev c).logb
    b.active = false ∨ (launch s.dev b.launch).hdr.rec_ = true →
    ∃ s', exec (.rdidxWrite node c v) s = .next s' ∧ (ctx s'.dev c).logb = { b with rd := v, since := if v = b.rd then b.since else 0 }) ∧
  (∀ s c r rs pa, (ctx s.dev c).logb.waiting = r :: rs → r.length = 32 →
    let b := (ctx s.dev c).logb
    let l := launch s.dev b.launch
    let va := l.logBase + 32 * (b.wr.toNat % 2 ^ l.logLog)
    va % 32 = 0 → translateDirect s.dev c va .store = .ok pa →
    ∃ s', exec (.logRecord c) s = .next s' ∧ (ctx s'.dev c).logb = { b with waiting := rs, wr := b.wr + 1 } ∧
      ∀ a, memByte s'.dev a = if pa ≤ a ∧ a < pa + 32 then r.getD (a - pa) 0 else memByte s.dev a) ∧
  (∀ s c l, (ctx s.dev c).logb.active = true → NMap.find? s.dev.launches (ctx s.dev c).logb.launch = some l →
    let b := (ctx s.dev c).logb
    l.hdr.rec_ = true → l.truncated = false → b.waiting = [] → b.since ≠ 0 →
    if b.since - 1 + l.logWait < s.dev.ticks then
      ∃ s', exec (.logTruncated c) s = .next s' ∧ (ctx s'.dev c).logb.status = 0x63 ∧ (launch s'.dev b.launch).truncated = true
    else exec (.logTruncated c) s = .next s) ∧
  (∀ s c r, (ctx s.dev c).logb.bad = some r →
    ∃ s', exec (.replayMismatch c) s = .next s' ∧ (ctx s'.dev c).cstate = 4 ∧ (ctx s'.dev c).logb.status = 0x62 ∧
      (ctx s'.dev c).logb.mismatch = r)

/-- R424 to R430: PNOW is measured, and the levers stay within their ranges; PLIMIT takes 600 to 2,200 W from the
management node; droop slows a cluster and ends; a bisque run starts on a cluster that may have one, and its success
sets CAL; an idle cluster enters retention and leaves it once a wave of it is ready, a unit is to be placed on it or
an engine of it has work, where no parity check fails with the device as it was. One lever step a measurement is the
model's reading (log entry 36). -/
def Obligations.PowerEvents : Prop :=
  (∀ s watts, ∃ s', exec (.powerMeasurement watts) s = .next s' ∧ s'.power.pnow = watts % 65536 ∧
    s'.power.plimit = s.power.plimit ∧ s'.dev = s.dev ∧
    ∀ n, (cluster s.power n).grants ≤ 6 → 2 ≤ (cluster s.power n).grants → (cluster s.power n).ratio ≤ 1 →
      2 ≤ (cluster s'.power n).grants ∧ (cluster s'.power n).grants ≤ 6 ∧ (cluster s'.power n).ratio ≤ 1) ∧
  (∀ s node v, ∃ s', exec (.plimitWrite node v) s = .next s' ∧
    s'.power.plimit = if manages s.mgmt node ∧ 600 ≤ v.toNat ∧ v.toNat ≤ 2200 then v.toNat else s.power.plimit) ∧
  (∀ s n, n < 32 →
    (∃ s', exec (.voltageDroop n) s = .next s' ∧ cluster s'.power n = { cluster s.power n with droop := true }) ∧
    (∃ s', exec (.voltageDroopEnd n) s = .next s' ∧ cluster s'.power n = { cluster s.power n with droop := false }) ∧
    (∃ s', exec (.bisqueRunStart n) s = .next s' ∧
      (cluster s'.power n).bisque = ((cluster s.power n).bisque || mayBisque s n)) ∧
    (∀ ok, (cluster s.power n).bisque = true →
      ∃ s', exec (.bisqueRunEnd n ok) s = .next s' ∧ (cluster s'.power n).bisque = false ∧
        (cluster s'.power n).cal = ((cluster s.power n).cal || (ok && !(cluster s.power n).cut))) ∧
    (∃ s', exec (.retentionEntry n) s = .next s' ∧
      (cluster s'.power n).ret = ((cluster s.power n).ret || mayRetain s n)) ∧
    (wakes s n = false → exec (.retentionExit n) s = .next s) ∧
    ((cluster s.power n).ret = true → wakes s n = true →
      ∃ s', exec (.retentionExit n) s = .next s' ∧ (cluster s'.power n).ret = false ∧
        (Config.freeBit s.dev.free = false → s'.dev = { s.dev with free := s.dev.free + 1 }) ∧
        (Config.freeBit s.dev.free = true → ∀ g G, NMap.find? s.dev.wgs g = some G → G.live = true → G.resident = true →
          clusterOf G.core = n → NMap.find? s'.dev.wgs g = none)))

/-- R432 to R438: a reset keeps flash, FWFLOOR and the certificate; the boot stages; FBBASE, NODEID and the registers of
hand-over and attestation, which take a write of the management node and of no other; live hand-over, its commit,
abort and retirement; a command that HOSTATE does not allow sets HOERR 5; attestation. What a reset keeps, and that
HOERR is kept, are the model's readings (log entries 4, 35); that main memory, and Saggar's registers and local
memory, are zero after reset is the model's choice (log entries 2, 5). -/
def Obligations.BringUp : Prop :=
  (∀ s, ∃ s', exec .powerOnReset s = .next s' ∧ s'.mgmt.boot = 0 ∧ s'.mgmt.flash = s.mgmt.flash ∧
    s'.mgmt.fwfloor = s.mgmt.fwfloor ∧ s'.mgmt.cert = s.mgmt.cert ∧ s'.mgmt.certlen = s.mgmt.certlen ∧ s'.dev.host = s.dev.host ∧ s'.dev.mem = [] ∧ s'.dev.ctxs = [] ∧ s'.dev.waves = [] ∧
    s'.saggar = {} ∧ s'.power = {}) ∧
  (∀ s, ∃ s', exec .bootStage s = .next s' ∧
    let m := s.mgmt
    s'.mgmt.boot =
      if m.boot = 0 then
        (if imageVerifies m.flash = true ∧ m.fwfloor ≤ Config.imageVersion m.flash % 2 ^ 32 then 1 else 0xFF)
      else if m.boot = 1 then (if m.nodeSet = true ∧ m.mnode.isSome then 2 else 1)
      else if m.boot = 2 then 3 else m.boot) ∧
  (∀ s node off len v, manages s.mgmt node = false → exec (.managementRegisterWrite node off len v) s = .next s) ∧
  (∀ s node, manages s.mgmt node = true →
    (∀ v, (s.mgmt.boot = 1 ∨ s.mgmt.boot = 0xFF ∧ s.mgmt.mnode = none) → v.toNat % 2 ^ 39 = 0 →
      ∃ s', exec (.fbbaseWrite node v) s = .next s' ∧ s'.mgmt.fbbase = v ∧ s'.mgmt.mnode = some node) ∧
    (∀ v, ∃ s', exec (.managementRegisterWrite node 0x040 8 v) s = .next s' ∧ s'.mgmt.hoimg = v) ∧
    (∀ v, ∃ s', exec (.managementRegisterWrite node 0x048 4 v) s = .next s' ∧ s'.mgmt.holen = v.setWidth 32) ∧
    (∀ v, ∃ s', exec (.managementRegisterWrite node 0x080 8 v) s = .next s' ∧ s'.mgmt.attbuf = v) ∧
    (∀ v i, i < 4 → ∃ s', exec (.managementRegisterWrite node (0x0A0 + 8 * i) 8 v) s = .next s' ∧
      ∀ j < 32, NMap.get 0 s'.mgmt.nonce j =
        if 8 * i ≤ j ∧ j < 8 * i + 8 then v.extractLsb' (8 * (j - 8 * i)) 8 else NMap.get 0 s.mgmt.nonce j) ∧
    (∀ v, ∃ s', exec (.managementRegisterWrite node 0x002 2 v) s = .next s' ∧
      s'.mgmt.nodeid =
        if s.mgmt.boot = 1 ∨ s.mgmt.boot = 0xFF ∧ s.mgmt.mnode = none then v.toNat % 65536 else s.mgmt.nodeid) ∧
    (∃ s', exec (.handoverStart node) s = .next s' ∧
      if (s.mgmt.hostate = 0 ∨ s.mgmt.hostate = 4) ∧ (s.mgmt.boot = 3 ∨ s.mgmt.boot = 0xFF) then
        s'.mgmt = { s.mgmt with hostate := 1 } else s'.mgmt = { s.mgmt with hoerr := 5 }) ∧
    (∃ s', exec (.handoverAbort node) s = .next s' ∧
      if s.mgmt.hostate = 1 ∨ s.mgmt.hostate = 2 then s'.mgmt.hostate = 4 ∧ s'.mgmt.hoerr = 3
      else s'.mgmt = { s.mgmt with hoerr := 5 }) ∧
    (∃ s', exec (.handoverCommit node) s = .next s' ∧
      if s.mgmt.hostate = 2 then
        s'.mgmt.hostate = 3 ∧ s'.mgmt.fwver = Config.imageVersion s.mgmt.inImg % 2 ^ 32 ∧
        s'.mgmt.fwmeas = measure s.mgmt.inImg ∧ s'.mgmt.boot = (if s.mgmt.boot = 0xFF then 2 else s.mgmt.boot)
      else s'.mgmt = { s.mgmt with hoerr := 5 }) ∧
    (s.mgmt.attstate ≠ 1 → ∃ s', exec (.attestationRequest node) s = .next s' ∧ s'.mgmt.attstate = 1)) ∧
  (∀ s, s.mgmt.hostate = 1 →
    let m := s.mgmt
    let n := m.holen.toNat
    let img := Memory.bytes s.dev.host m.hoimg.toNat n
    let v := Config.imageVersion img % 2 ^ 32
    let code := if Config.freeBit s.dev.free = true ∨ n = 0 ∨ 2 ^ 26 < n then 2
      else if imageVerifies img = false then 1
      else if (if m.auth then m.fwver < v else m.fwfloor ≤ v) then 0 else 4
    ∃ s', exec .handoverVerified s = .next s' ∧
      if code = 0 then s'.mgmt = { m with hostate := 2, inImg := img } else s'.mgmt = { m with hostate := 4, hoerr := code }) ∧
  (∀ s, s.mgmt.hostate = 3 →
    ∃ s', exec .handoverRetire s = .next s' ∧ s'.mgmt.hostate = 0 ∧ s'.mgmt.flash = s.mgmt.inImg ∧
      s'.mgmt.fwfloor = max s.mgmt.fwfloor s.mgmt.fwver) ∧
  (∀ s, s.mgmt.attstate = 1 →
    ∃ s', exec .attestationReport s = .next s' ∧
      if Config.freeBit s.dev.free = true then s'.mgmt.attstate = 3
      else s'.mgmt.attstate = 2 ∧
        Memory.bytes s'.dev.host s.mgmt.attbuf.toNat 128 = reportBody s.mgmt s.dev.ticks)

/-- R12 to R14, R26, R79, R80, R84: where the Wheel's next turn is a placement on clusters out of retention (R429), it
seats a new workgroup with its waves, their threads at the entry with their WORKIDs, the arguments in s0 and s1 and
the records of the launch's handles in d registers, every other register zero; a launched bin's threads with their
payload; or every workgroup of a neighbourhood. Where a handle fails every thread has RECORD-GENERATION, with the
trap registers that R14 gives; else, where ENTRY lies at 2^57 or above, every thread has PROTECTION. The Wheel's
order where the rules leave it is the model's reading (log entry 39), as is the PROTECTION of a wave whose ENTRY is
at or above 2^57 (log entry 51). -/
def Obligations.Placement : Prop :=
  (∀ s lid n l seat, s.dev.plans = [] → NMap.find? s.dev.launches lid = some l → l.hdr.nbhd = false →
    nextTurn s.dev (blockedIn s.power) (awaiting s.dev) = .place (.new lid n) [seat] →
    (cluster s.power (clusterOf seat.core)).ret = false →
    ∃ s' G, exec .unitPlacement s = .next s' ∧ NMap.find? s'.dev.wgs s.dev.nextId = some G ∧
      G.live = true ∧ G.resident = true ∧ G.launch = lid ∧ G.num = n ∧ G.core = seat.core ∧ G.base = seat.base ∧
      G.scratch = l.hdr.scratch ∧ G.idx = l.hdr.wgIndex n ∧ G.mem = [] ∧ (launch s'.dev lid).liveWgs = l.liveWgs + 1 ∧
      let rec_ (h : Word) : Option (BitVec 256) := handleRec (ctx s.dev l.ctx) h
      let bad := l.hdr.handles.find? fun h => (rec_ h).isNone
      ∀ i, i < seat.slots.length →
        let x := wave s'.dev (s.dev.nextId + 1 + i)
        let n := min 64 (l.hdr.extents.getD 0 1 - 64 * i)
        let m := laneMask (List.range n)
        x.live = true ∧ x.resident = true ∧ x.wg = s.dev.nextId ∧ x.core = seat.core ∧ x.slot = seat.slots.getD i 0 ∧
        x.regs = l.hdr.regs ∧ x.fid = l.hdr.fid ∧ x.fpflags = 0 ∧ x.hold = 0 ∧
        rdReg x {} (.s 0) 0 = l.hdr.args.setWidth 32 ∧ rdReg x {} (.s 0) 1 = (l.hdr.args >>> 32).setWidth 32 ∧
        (∀ j : Fin 64, 2 ≤ j.val → rdReg x {} (.s j) 0 = 0) ∧
        (∀ r : DReg, rdRec x r = (l.hdr.handles[r.val]?.bind rec_).getD 0) ∧
        (x.tformer = if bad.isSome then m else 0) ∧ (x.tfault = if bad.isSome then m else 0) ∧
        (x.tcause = if bad.isSome then 0x23 else 0) ∧
        ∀ k, k < n →
          let t := thread x k
          (match bad with
            | some b => t.run = .fault 0x23 ∧ t.tpc = mkPc l.hdr.entry 0 ∧ t.taddr = b.setWidth 64
            | none =>
              if l.hdr.entry.toNat < 2 ^ 57 then t.run = .run
              else t.run = .fault 0x21 ∧ t.tpc = mkPc l.hdr.entry 0 ∧ t.taddr = l.hdr.entry) ∧
          t.workid = BitVec.ofNat 64 (2 ^ l.hdr.widths.getD 0 0 * l.hdr.wgIndex n + 64 * i + k) ∧
          t.pc = mkPc l.hdr.entry 0 ∧ t.wait = .none ∧ t.v = [] ∧ t.c = 0 ∧ t.breg = 0) ∧
  (∀ s o b seat, s.dev.plans = [] → s.dev.binUnits = [b] → b.order = o →
    nextTurn s.dev (blockedIn s.power) (awaiting s.dev) = .place (.bin o) [seat] →
    (cluster s.power (clusterOf seat.core)).ret = false →
    ∃ s', exec .unitPlacement s = .next s' ∧ s'.dev.binUnits = [] ∧
      let x := wave s'.dev (s.dev.nextId + 1)
      x.live = true ∧ x.resident = true ∧ x.isBin = true ∧ x.core = seat.core ∧ x.regs = b.regs ∧
      ∀ k u, b.threads[k]? = some u →
        let t := thread x k
        t.workid = u.workid ∧ t.depth = u.depth ∧ t.pc = mkPc b.entry 0 ∧ t.v = putWords [] 0 u.pay ∧
        t.run = if b.entry.toNat < 2 ^ 57 then .run else .fault 0x21) ∧
  (∀ s lid n l ss, s.dev.plans = [] → NMap.find? s.dev.launches lid = some l → l.hdr.nbhd = true →
    nextTurn s.dev (blockedIn s.power) (awaiting s.dev) = .place (.new lid n) ss →
    (∀ seat, seat ∈ ss → (cluster s.power (clusterOf seat.core)).ret = false) →
    ∃ s', exec .neighbourhoodPlacement s = .next s' ∧
      ∀ j seat, ss[j]? = some seat → ∃ g G, NMap.find? s'.dev.wgs g = some G ∧ G.launch = lid ∧ G.num = n + j ∧
        G.core = seat.core ∧ G.nbhd = (n + j) / max l.hdr.e1 1 + 1 ∧ G.resident = true)

/-- R89 to R91, R366, R369 to R372, R386: a chosen wave leaves its slot with its registers kept, and takes a slot again
when the Wheel resumes it; a save area that does not take its frame costs the context. An expired HOLD lets the
Wheel plan: the victims leave, or are asked to yield. Past a yield deadline they leave; past a safe-point deadline
their context is demoted, and the launches of one that was Batch lose their absolute deadlines. What the save area
holds is free (log entry 20). That a context in destruction is freed with CSTATE 0 where a frame of it is lost is
the model's reading (log entry 21). -/
def Obligations.EvictionAndYield : Prop :=
  (∀ s w x, NMap.find? s.dev.waves w = some x → x.live = true → x.resident = true → x.leaving.isSome = true →
    s.dev.svc = [] → (∀ p, p ∈ x.threads → p.2.wait.midway = false) → s.dev.plans = [] → (launch s.dev x.launch).hdr.det = false →
    ((touchFrame s.dev x.ctx (waveFrame x) true).isSome →
      ∃ s', exec (.waveEviction w) s = .next s' ∧
        let z := wave s'.dev w
        z.live = true ∧ z.resident = false ∧ z.groups = [] ∧ z.s = x.s ∧ z.d = x.d ∧ z.fpflags = x.fpflags ∧
        z.tcause = x.tcause ∧ ∀ l t, NMap.find? x.threads l = some t →
          (thread z l).v = t.v ∧ (thread z l).c = t.c ∧ (thread z l).workid = t.workid ∧ (thread z l).run = t.run) ∧
    (touchFrame s.dev x.ctx (waveFrame x) true = none →
      ∃ s', exec (.waveEviction w) s = .next s' ∧
        (ctx s'.dev x.ctx).cstate = if (ctx s.dev x.ctx).busy = 2 then 0 else 4)) ∧
  (∀ s w x seat, NMap.find? s.dev.waves w = some x → s.dev.plans = [] →
    nextTurn s.dev (blockedIn s.power) (awaiting s.dev) = .place (.wave w) [seat] →
    (cluster s.power (clusterOf seat.core)).ret = false →
    ((touchFrame s.dev x.ctx (waveFrame x) false).isSome →
      ∃ s', exec .unitResumption s = .next s' ∧
        let z := wave s'.dev w
        z.resident = true ∧ z.core = seat.core ∧ z.slot = seat.slots.getD 0 0 ∧ z.s = x.s ∧ z.d = x.d ∧
        ∀ l t, NMap.find? x.threads l = some t → thread z l = { t with wait := resumeSleep t.wait, mark := resumeSleep t.mark }) ∧
    (touchFrame s.dev x.ctx (waveFrame x) false = none →
      ∃ s', exec .unitResumption s = .next s' ∧
        (ctx s'.dev x.ctx).cstate = if (ctx s.dev x.ctx).busy = 2 then 0 else 4)) ∧
  (∀ s w x, NMap.find? s.dev.waves w = some x →
    (x.hold ≠ 0 → exec (.holdExpiry w) s = .next s) ∧
    (∀ p, x.hold = 0 → x.live = true → s.dev.plans = [] →
      nextTurn s.dev (blockedIn s.power) (awaiting s.dev) = .plan p →
      (∀ seat, seat ∈ p.seats → (cluster s.power (clusterOf seat.core)).ret = false) →
      ∃ s', exec (.holdExpiry w) s = .next s' ∧ s'.dev.plans = [{ p with freed := [] }] ∧
        ∀ v u, v ∈ p.victims → NMap.find? s.dev.waves v = some u →
          if (ctx s.dev u.ctx).yield_ = 0 ∨ u.safeReq = some none then (wave s'.dev v).leaving.isSome else (wave s'.dev v).yieldReq.isSome)) ∧
  (∀ s, ∃ s', exec .yieldDeadlineExpiry s = .next s' ∧
    ∀ w x dl, NMap.find? s.dev.waves w = some x → x.yieldReq = some dl → (launch s.dev x.launch).hdr.det = false →
      if x.live = true ∧ x.resident = true ∧ dl < s.dev.ticks then (wave s'.dev w).leaving.isSome
      else wave s'.dev w = x) ∧
  (∀ s w x dl, s.dev.waves = [(w, x)] → x.safeReq = some (some dl) → x.live = true → x.resident = true →
    (s.dev.ticks ≤ dl → exec .safePointDeadline s = .next s) ∧
    (dl < s.dev.ticks → atSafePoint s.dev w = false →
      ∃ s', exec .safePointDeadline s = .next s' ∧ (wave s'.dev w).safeReq = some none ∧
        ∀ n l, NMap.find? s.dev.launches n = some l → l.ctx = x.ctx → l.state = .released →
          (launch s'.dev n).cls = min (l.cls + 1) 3 ∧
          (launch s'.dev n).deadline = if l.cls = 3 then none else l.deadline))

/-! ### The machine -/

/-- A step runs what its action brings. An event is executed, whole or up to its `n`th sector (R200); one that is a
node's access has no effect while an earlier access of that node is under way (R404, R409). A Saggar core's custom-0
word in machine mode is decoded and executed on that core (R74). On a quarter with one candidate, a group, the word
at the group's place is decoded for its clause and executed by that group (R95, R111, R112, R116), whole or up to
its `n`th sector; around it only the wave's counters, its threads' run-on counts and timestamps, and the word,
GROUPMASK and place in the order of issue kept with the group change. What holds an instruction of another group,
and which of two tied candidates issues, are the model's (log entry 65), as is that a node's access waits for an
earlier one of its own (log entry 34). -/
def Obligations.StepRunsDecoded : Prop :=
  (∀ s i r, isEvent i = true →
    (s.agenda = .event i :: r →
      step s = if arrived s.dev i then exec i (cutAt { s with agenda := r } none) else .next { s with agenda := r }) ∧
    ∀ n, s.agenda = .eventCut i n :: r →
      step s = if arrived s.dev i then exec i (cutAt { s with agenda := r } (some n)) else .next { s with agenda := r }) ∧
  (∀ dev i, isEvent i = true → dev.aps = [] → arrived dev i = true) ∧
  (∀ s co r i, s.agenda = .saggar co :: r → s.saggar.on = true → co < 8 → (s.saggar.core co).wait = none →
    (s.saggar.core co).machine = true → inLocal (s.saggar.core co).pc.toNat 4 = true →
    (s.saggar.core co).word.extractLsb' 0 7 = 0x0B#7 →
    decodeSaggar (s.saggar.core co).word = some i →
    step s = exec i { s with agenda := r, saggar := { s.saggar with cur := co } }) ∧
  (∀ s co q r w c g x y iw i k, (s.agenda = .issue co q :: r ∧ k = none ∨ ∃ n, s.agenda = .issueCut co q n :: r ∧ k = some n) →
    co < Config.cores → q < 4 →
    (cluster s.power (clusterOf co)).ret = false → quarterWaves s.dev co q = [w] → waveCands s.dev w = [c] →
    c.group = some g → NMap.find? s.dev.waves w = some x → NMap.find? x.groups g = some y →
    y.began = false → y.iw = none → (fetchWord s.dev x.core x.ctx (wordAddr y.clause y.index).toNat).1 = .word iw →
    decodeWord y.hdr.cls x.regs (y.index == y.hdr.count) y.hdr.tail iw = .ok i →
    ∃ d, step s = exec i { s with agenda := r, dev := d } ∧ d.cur = (w, g) ∧ d.cut = k ∧ d.mem = s.dev.mem ∧
      d.wgs = s.dev.wgs ∧
      let z := wave d w
      z = { x with pmc := z.pmc, runOn := z.runOn, issues := x.issues + 1, threads := z.threads, groups := z.groups } ∧
      NMap.find? z.groups g = some { y with iw := some iw, ord := x.issues + 1, mask := laneMask y.lanes } ∧
      (∀ h, h ≠ g → NMap.find? z.groups h = NMap.find? x.groups h) ∧
      ∀ l, thread z l = { thread x l with runOn := (thread z l).runOn, pts := (thread z l).pts })

/-- Words written out from the encoding tables stand for their instructions (R101 to R105, R121 to R127, R74). -/
def Obligations.DecodesWords : Prop :=
  decodeClass 0 128 0x0000401D70000000#64 = .ok (.iadd .i32 false .always (.v 4) (.v 1) (.src (.k 7))) ∧
  decodeClass 0 128 0x2080003200000064#64 = .ok (.icmp .i32 .lt .always 0 (.v 3) (.imm 100)) ∧
  decodeClass 0 128 0x4300502030590000#64 =
    .ok (.ffma .f32 .rn false .none .none .none (.on false 1) (.v 5) (.v 2) (.v 3) (.v 5)) ∧
  decodeClass 2 128 0x00800000FFFFFFF8#64 = .ok (.bra 0xFFFFFFF8) ∧
  decodeSaggar 0x0073128B#32 = some (.bfext 5 6 7)

/-- Decoding the encoding of a well-formed instruction gives it back, with every operand at every value, in the engine
class that has it (R101 to R106, R121 to R127); the same of Saggar's four instructions (R74). -/
def Obligations.EncodedDecode : Prop :=
  (∀ R i cls, i.wf R = true → i.cls = some cls → decodeClass cls R (encode i) = .ok i) ∧
  (∀ rd r1 r2, decodeSaggar (encodeSaggar (.rfetch rd r1 r2)) = some (.rfetch rd r1 r2) ∧
    decodeSaggar (encodeSaggar (.bfext rd r1 r2)) = some (.bfext rd r1 r2) ∧
    decodeSaggar (encodeSaggar (.swait rd r1 r2)) = some (.swait rd r1 r2) ∧
    decodeSaggar (encodeSaggar (.wdisp rd r1 r2)) = some (.wdisp rd r1 r2))

/-- A word that decodes is the one encoding of what it stands for, which is well-formed: no bit of a word is ignored
(R103, R116). -/
def Obligations.DecodedEncode : Prop :=
  (∀ cls R w i, decodeClass cls R w = .ok i → i.wf R = true ∧ i.cls = some cls ∧ encode i = w) ∧
  (∀ w i, decodeSaggar w = some i → encodeSaggar i = w)

/-- R425 to R427, R432 to R438: every step keeps the platform's registers legal: PLIMIT in 600 to 2,200, N in 2 to 6 and
the ratio at most 1:1, BOOT and HOSTATE among their values, FBBASE a multiple of 2^39, and an authoritative image in
exactly the states that have one, never below FWFLOOR. That the ratio never exceeds 1:1 is the model's reading (log
entry 36). -/
def Obligations.StepKeepsPlatform : Prop := ∀ s s', Platform s → step s = .next s' → Platform s'

/-- R433: FWFLOOR only rises; it rises only when a committed hand-over retires its outgoing image, to the committed
version, and the flash switches to the committed image in that same step. -/
def Obligations.FloorOnlyRises : Prop :=
  ∀ s s', step s = .next s' → s.mgmt.fwfloor ≤ s'.mgmt.fwfloor ∧
    (s'.mgmt.fwfloor ≠ s.mgmt.fwfloor → s.mgmt.hostate = 3 ∧ s'.mgmt.hostate = 0 ∧
      s'.mgmt.fwfloor = s.mgmt.fwver ∧ s'.mgmt.flash = s.mgmt.inImg) ∧
    (s'.mgmt.flash ≠ s.mgmt.flash → s.mgmt.hostate = 3)

/-- R432, R434, R426, R62: the state after reset: BOOT 0, every context free, nothing resident, and the management,
power and queue registers at the resets of their field maps. The platform's registers are legal in it. -/
def Obligations.ResetState : Prop :=
  let m := State.reset.mgmt
  let p := State.reset.power
  Platform State.reset ∧
  m.boot = 0 ∧ m.booterr = 0 ∧ m.nodeid = 0 ∧ m.fbbase = 0 ∧ m.hoimg = 0 ∧ m.holen = 0 ∧ m.hostate = 0 ∧ m.hoerr = 0 ∧
  m.attbuf = 0 ∧ m.attstate = 0 ∧ m.nonce = [] ∧ m.auth = false ∧
  p.plimit = 2200 ∧ p.pnow = 0 ∧ p.nobisque = 0 ∧
  (∀ n, (cluster p n).cal = false ∧ (cluster p n).ret = false ∧ (cluster p n).bisque = false ∧
    (cluster p n).grants = 6 ∧ (cluster p n).ratio = 1) ∧
  State.reset.dev.waves = [] ∧ State.reset.dev.wgs = [] ∧ State.reset.dev.launches = [] ∧
  (∀ c, (ctx State.reset.dev c).cstate = 0) ∧
  ∀ c q, NMap.get {} (ctx State.reset.dev c).queues q =
    { qbase := 0, qlog := 0, qen := false, tail := 0, head := 0, halt := 0, kinds := 0 }
end

