-- ==== Sys2Proof/Laws/Map.lean ====
section
/-!
SUPPORT. What reading and writing a sparse map gives, for any list of pairs, and that writes keep the canonical form.
-/

namespace Sys2Proof.Machine
set_option Elab.async false

variable {α : Type}

@[simp] theorem NMap.find?_nil (k : Nat) : NMap.find? ([] : NMap α) k = none := rfl

theorem NMap.find?_put (m : NMap α) (k j : Nat) (v : α) :
    NMap.find? (NMap.put m k v) j = if j = k then some v else NMap.find? m j := by
  induction m with
  | nil => by_cases h : k = j <;> simp [NMap.put, NMap.find?, h, eq_comm]
  | cons p r ih =>
    obtain ⟨i, u⟩ := p
    unfold NMap.put
    split
    · by_cases h : k = j <;> simp [NMap.find?, h, eq_comm]
    · split
      · rename_i h1 h2
        subst h2
        by_cases h : j = k
        · simp [NMap.find?, h]
        · simp [NMap.find?, h, Ne.symm h]
      · simp only [NMap.find?, ih]
        split <;> split <;> simp_all

@[simp] theorem NMap.find?_put_self (m : NMap α) (k : Nat) (v : α) : NMap.find? (NMap.put m k v) k = some v := by
  simp [NMap.find?_put]

/-- The later of two values put at a key stands. -/
theorem NMap.put_put (m : NMap α) (k : Nat) (u v : α) : NMap.put (NMap.put m k u) k v = NMap.put m k v := by
  induction m with
  | nil => simp [NMap.put]
  | cons p r ih =>
    obtain ⟨i, w⟩ := p
    by_cases h1 : k < i
    · simp [NMap.put, h1]
    · by_cases h2 : k = i
      · simp [NMap.put, h2]
      · simp [NMap.put, h1, h2, ih]

theorem NMap.erase_put (m : NMap α) (k : Nat) (v : α) : NMap.erase (NMap.put m k v) k = NMap.erase m k := by
  induction m with
  | nil => simp [NMap.put, NMap.erase]
  | cons p r ih =>
    obtain ⟨i, w⟩ := p
    by_cases h1 : k < i
    · simp [NMap.put, NMap.erase, h1]
    · by_cases h2 : k = i
      · simp [NMap.put, NMap.erase, h2]
      · simp [NMap.put, NMap.erase, h1, h2, Ne.symm h2, ih]

theorem NMap.find?_put_ne (m : NMap α) {k j : Nat} (v : α) (h : j ≠ k) :
    NMap.find? (NMap.put m k v) j = NMap.find? m j := by simp [NMap.find?_put, h]

theorem NMap.find?_erase (m : NMap α) (k j : Nat) :
    NMap.find? (NMap.erase m k) j = if j = k then none else NMap.find? m j := by
  induction m with
  | nil => simp [NMap.erase]
  | cons p r ih =>
    obtain ⟨i, u⟩ := p
    unfold NMap.erase
    split
    · subst_vars
      rw [ih]
      by_cases h : j = i
      · simp [h]
      · simp [NMap.find?, h, Ne.symm h]
    · simp only [NMap.find?, ih]
      split <;> split <;> simp_all

@[simp] theorem NMap.find?_erase_self (m : NMap α) (k : Nat) : NMap.find? (NMap.erase m k) k = none := by
  simp [NMap.find?_erase]

theorem NMap.find?_erase_ne (m : NMap α) {k j : Nat} (h : j ≠ k) :
    NMap.find? (NMap.erase m k) j = NMap.find? m j := by simp [NMap.find?_erase, h]

theorem NMap.get_put (d : α) (m : NMap α) (k j : Nat) (v : α) :
    NMap.get d (NMap.put m k v) j = if j = k then v else NMap.get d m j := by
  unfold NMap.get; rw [NMap.find?_put]; split <;> simp

@[simp] theorem NMap.get_put_self (d : α) (m : NMap α) (k : Nat) (v : α) : NMap.get d (NMap.put m k v) k = v := by
  simp [NMap.get_put]

theorem NMap.get_of_find? {d : α} {m : NMap α} {k : Nat} {v : α} (h : NMap.find? m k = some v) :
    NMap.get d m k = v := by simp [NMap.get, h]

theorem NMap.get_erase (d : α) (m : NMap α) (k j : Nat) :
    NMap.get d (NMap.erase m k) j = if j = k then d else NMap.get d m j := by
  unfold NMap.get; rw [NMap.find?_erase]; split <;> simp

/-- Read after write: at the written key the value, elsewhere what was there. -/
theorem NMap.get_set [DecidableEq α] (d : α) (m : NMap α) (k j : Nat) (v : α) :
    NMap.get d (NMap.set d m k v) j = if j = k then v else NMap.get d m j := by
  unfold NMap.set
  split
  · rename_i h; rw [NMap.get_erase, h]
  · exact NMap.get_put d m k j v

@[simp] theorem NMap.get_set_self [DecidableEq α] (d : α) (m : NMap α) (k : Nat) (v : α) :
    NMap.get d (NMap.set d m k v) k = v := by simp [NMap.get_set]

theorem NMap.get_set_ne [DecidableEq α] (d : α) (m : NMap α) {k j : Nat} (v : α) (h : j ≠ k) :
    NMap.get d (NMap.set d m k v) j = NMap.get d m j := by simp [NMap.get_set, h]

/-! ### The canonical form -/

theorem NMap.wfFrom_mono [DecidableEq α] {d : α} {lo lo' : Nat} {m : NMap α} (h : lo ≤ lo')
    (w : NMap.wfFrom d lo' m = true) : NMap.wfFrom d lo m = true := by
  cases m with
  | nil => rfl
  | cons p r =>
    simp only [NMap.wfFrom, Bool.and_eq_true, decide_eq_true_eq] at w ⊢
    exact ⟨⟨h.trans w.1.1, w.1.2⟩, w.2⟩

theorem NMap.wfFrom_put [DecidableEq α] {d : α} {lo k : Nat} {v : α} {m : NMap α} (hk : lo ≤ k) (hv : v ≠ d)
    (w : NMap.wfFrom d lo m = true) : NMap.wfFrom d lo (NMap.put m k v) = true := by
  induction m generalizing lo with
  | nil => simp [NMap.put, NMap.wfFrom, hk, hv]
  | cons p r ih =>
    obtain ⟨i, u⟩ := p
    simp only [NMap.wfFrom, Bool.and_eq_true, decide_eq_true_eq] at w
    unfold NMap.put
    split
    · rename_i h
      simp only [NMap.wfFrom, Bool.and_eq_true, decide_eq_true_eq]
      exact ⟨⟨hk, hv⟩, ⟨h, w.1.2⟩, w.2⟩
    · split
      · subst_vars
        simp only [NMap.wfFrom, Bool.and_eq_true, decide_eq_true_eq]
        exact ⟨⟨hk, hv⟩, w.2⟩
      · simp only [NMap.wfFrom, Bool.and_eq_true, decide_eq_true_eq]
        exact ⟨w.1, ih (by omega) w.2⟩

theorem NMap.wfFrom_erase [DecidableEq α] {d : α} {lo k : Nat} {m : NMap α} (w : NMap.wfFrom d lo m = true) :
    NMap.wfFrom d lo (NMap.erase m k) = true := by
  induction m generalizing lo with
  | nil => rfl
  | cons p r ih =>
    obtain ⟨i, u⟩ := p
    simp only [NMap.wfFrom, Bool.and_eq_true, decide_eq_true_eq] at w
    unfold NMap.erase
    split
    · exact ih (NMap.wfFrom_mono (by omega) w.2)
    · simp only [NMap.wfFrom, Bool.and_eq_true, decide_eq_true_eq]
      exact ⟨w.1, ih w.2⟩

/-- A write keeps the canonical form. -/
theorem NMap.wf_set [DecidableEq α] {d : α} {m : NMap α} (k : Nat) (v : α) (w : NMap.wf d m = true) :
    NMap.wf d (NMap.set d m k v) = true := by
  unfold NMap.wf NMap.set at *
  split
  · exact NMap.wfFrom_erase w
  · exact NMap.wfFrom_put (Nat.zero_le _) ‹_› w

@[simp] theorem NMap.wf_nil [DecidableEq α] (d : α) : NMap.wf d ([] : NMap α) = true := rfl

/-- Writing bytes keeps the canonical form of a memory. -/
theorem Memory.wf_putBytes {m : NMap Byte} (a : Nat) (bs : List Byte) (w : Memory.wf m = true) :
    Memory.wf (Memory.putBytes m a bs) = true := by
  induction bs generalizing m a with
  | nil => exact w
  | cons b bs ih => exact ih (a + 1) (NMap.wf_set a b w)

/-- What one byte reads as after bytes are written at `a`. -/
theorem Memory.get_putBytes (m : NMap Byte) (a : Nat) (bs : List Byte) (j : Nat) :
    NMap.get 0 (Memory.putBytes m a bs) j =
      if a ≤ j ∧ j < a + bs.length then bs.getD (j - a) 0 else NMap.get 0 m j := by
  induction bs generalizing m a with
  | nil => simp [Memory.putBytes]
  | cons b bs ih =>
    rw [Memory.putBytes, ih, NMap.get_set]
    by_cases h : j = a
    · subst h; simp
    · by_cases h1 : a + 1 ≤ j ∧ j < a + 1 + bs.length
      · have h2 : a ≤ j ∧ j < a + (b :: bs).length := by simp; omega
        have h3 : j - a = (j - (a + 1)) + 1 := by omega
        simp only [h1, h2, and_self, if_true, h3, List.getD_cons_succ]
      · have h2 : ¬(a ≤ j ∧ j < a + (b :: bs).length) := by simp; omega
        rw [if_neg h1, if_neg h2, if_neg h]

/-- Bytes read back where they were written. -/
theorem Memory.bytes_putBytes (m : NMap Byte) (a : Nat) (bs : List Byte) :
    Memory.bytes (Memory.putBytes m a bs) a bs.length = bs := by
  apply List.ext_getElem
  · simp [Memory.bytes]
  · intro i h1 h2
    simp only [Memory.bytes, List.getElem_map, List.getElem_range, Memory.get_putBytes]
    simp [h2]

/-! ### Little-endian numbers -/

@[simp] theorem leBytes_length (n x : Nat) : (leBytes n x).length = n := by
  induction n generalizing x with
  | zero => rfl
  | succ n ih => simp [leBytes, ih]

theorem leNat_leBytes (n x : Nat) : leNat (leBytes n x) = x % 2 ^ (8 * n) := by
  induction n generalizing x with
  | zero => simp [leBytes, leNat, Nat.mod_one]
  | succ n ih =>
    have h : (2 : Nat) ^ (8 * (n + 1)) = 256 * 2 ^ (8 * n) := by rw [Nat.mul_add, Nat.pow_add]; omega
    rw [leBytes, leNat, ih, h, Nat.mod_mul]
    simp

/-! ### Register files -/

/-- A register after consecutive registers are written. -/
theorem get_putWords (m : NMap Word) (n : Nat) (ws : List Word) (j : Nat) :
    NMap.get 0 (putWords m n ws) j = if n ≤ j ∧ j < n + ws.length then ws.getD (j - n) 0 else NMap.get 0 m j := by
  induction ws generalizing m n with
  | nil => simp [putWords]
  | cons b bs ih =>
    rw [putWords, ih, NMap.get_set]
    by_cases h : j = n
    · subst h; simp
    · by_cases h1 : n + 1 ≤ j ∧ j < n + 1 + bs.length
      · have h2 : n ≤ j ∧ j < n + (b :: bs).length := by simp; omega
        have h3 : j - n = (j - (n + 1)) + 1 := by omega
        simp only [h1, h2, and_self, if_true, h3, List.getD_cons_succ]
      · have h2 : ¬(n ≤ j ∧ j < n + (b :: bs).length) := by simp; omega
        rw [if_neg h1, if_neg h2, if_neg h]

end Sys2Proof.Machine
end

