-- ==== Sys2Proof/Laws/Wave.lean ====
section
/-!
SUPPORT. What the operations over waves, threads and groups do: each field's reading after each of them.
-/

namespace Sys2Proof.Machine
set_option Elab.async false

/-! ### Access -/

theorem wave_modWave (dev : Device) (w v : Nat) (f : Wave → Wave) :
    NMap.find? (modWave dev w f).waves v = if v = w then (NMap.find? dev.waves w).map f else NMap.find? dev.waves v := by
  unfold modWave
  split
  · rename_i x h; simp only [setWave, NMap.find?_put, h]; split <;> simp
  · rename_i h; split <;> simp_all

theorem find_modWave_self {dev : Device} {w : Nat} {x : Wave} (f : Wave → Wave) (h : NMap.find? dev.waves w = some x) :
    NMap.find? (modWave dev w f).waves w = some (f x) := by simp [wave_modWave, h]

theorem wave_of_find {dev : Device} {w : Nat} {x : Wave} (h : NMap.find? dev.waves w = some x) : wave dev w = x :=
  NMap.get_of_find? h

/-- A change of one wave changes nothing else of the device. -/
theorem modWave_eq (dev : Device) (w : Nat) (f : Wave → Wave) :
    modWave dev w f = { dev with waves := (modWave dev w f).waves } := by
  unfold modWave; split <;> rfl

@[simp] theorem modWave_cur (dev : Device) (w : Nat) (f : Wave → Wave) : (modWave dev w f).cur = dev.cur := by
  rw [modWave_eq]
@[simp] theorem modWave_mem (dev : Device) (w : Nat) (f : Wave → Wave) : (modWave dev w f).mem = dev.mem := by
  rw [modWave_eq]
@[simp] theorem modWave_wgs (dev : Device) (w : Nat) (f : Wave → Wave) : (modWave dev w f).wgs = dev.wgs := by
  rw [modWave_eq]
@[simp] theorem modWave_ctxs (dev : Device) (w : Nat) (f : Wave → Wave) : (modWave dev w f).ctxs = dev.ctxs := by
  rw [modWave_eq]
@[simp] theorem modWave_launches (dev : Device) (w : Nat) (f : Wave → Wave) : (modWave dev w f).launches = dev.launches := by
  rw [modWave_eq]
@[simp] theorem modWave_free (dev : Device) (w : Nat) (f : Wave → Wave) : (modWave dev w f).free = dev.free := by
  rw [modWave_eq]
@[simp] theorem modWave_objs (dev : Device) (w : Nat) (f : Wave → Wave) : (modWave dev w f).objs = dev.objs := by
  rw [modWave_eq]
@[simp] theorem modWave_cores (dev : Device) (w : Nat) (f : Wave → Wave) : (modWave dev w f).cores = dev.cores := by
  rw [modWave_eq]

theorem thread_of_find {x : Wave} {l : Nat} {t : Thread} (h : NMap.find? x.threads l = some t) : thread x l = t :=
  NMap.get_of_find? h
theorem group_of_find {x : Wave} {g : Nat} {y : Group} (h : NMap.find? x.groups g = some y) : group x g = y :=
  NMap.get_of_find? h

theorem find_modThread (x : Wave) (l j : Nat) (f : Thread → Thread) :
    NMap.find? (modThread x l f).threads j = if j = l then (NMap.find? x.threads l).map f else NMap.find? x.threads j := by
  unfold modThread
  split
  · rename_i t h; simp only [setThread, NMap.find?_put, h]; split <;> simp
  · rename_i h; split <;> simp_all

/-- A change of one thread changes nothing else of its wave. -/
theorem modThread_eq (x : Wave) (l : Nat) (f : Thread → Thread) :
    modThread x l f = { x with threads := (modThread x l f).threads } := by
  unfold modThread; split <;> rfl

@[simp] theorem modThread_groups (x : Wave) (l : Nat) (f : Thread → Thread) : (modThread x l f).groups = x.groups := by
  rw [modThread_eq]
@[simp] theorem modThread_s (x : Wave) (l : Nat) (f : Thread → Thread) : (modThread x l f).s = x.s := by
  rw [modThread_eq]
@[simp] theorem modThread_d (x : Wave) (l : Nat) (f : Thread → Thread) : (modThread x l f).d = x.d := by
  rw [modThread_eq]
@[simp] theorem modThread_fpflags (x : Wave) (l : Nat) (f : Thread → Thread) : (modThread x l f).fpflags = x.fpflags := by
  rw [modThread_eq]

/-- A change of each thread of a list of lanes. -/
def eachThread (x : Wave) (ls : List Nat) (f : Nat → Thread → Thread) : Wave :=
  ls.foldl (fun z l => modThread z l (f l)) x

theorem eachThread_eq (x : Wave) (ls : List Nat) (f : Nat → Thread → Thread) :
    eachThread x ls f = { x with threads := (eachThread x ls f).threads } := by
  induction ls generalizing x with
  | nil => rfl
  | cons l ls ih =>
    unfold eachThread at *
    rw [List.foldl_cons, ih, modThread_eq]

theorem find_eachThread {x : Wave} {ls : List Nat} (f : Nat → Thread → Thread) (nd : ls.Nodup) (j : Nat) :
    NMap.find? (eachThread x ls f).threads j =
      if j ∈ ls then (NMap.find? x.threads j).map (f j) else NMap.find? x.threads j := by
  induction ls generalizing x with
  | nil => simp [eachThread]
  | cons l ls ih =>
    have nd' := List.nodup_cons.mp nd
    have h : eachThread x (l :: ls) f = eachThread (modThread x l (f l)) ls f := rfl
    rw [h, ih nd'.2, find_modThread]
    by_cases h1 : j = l
    · subst h1; simp [nd'.1]
    · simp [h1]

@[simp] theorem eachThread_groups (x : Wave) (ls : List Nat) (f : Nat → Thread → Thread) :
    (eachThread x ls f).groups = x.groups := by rw [eachThread_eq]
@[simp] theorem eachThread_s (x : Wave) (ls : List Nat) (f : Nat → Thread → Thread) :
    (eachThread x ls f).s = x.s := by rw [eachThread_eq]
@[simp] theorem eachThread_fpflags (x : Wave) (ls : List Nat) (f : Nat → Thread → Thread) :
    (eachThread x ls f).fpflags = x.fpflags := by rw [eachThread_eq]

theorem eachThread_setGroup (x : Wave) (g : Nat) (y : Group) (ls : List Nat) (f : Nat → Thread → Thread) :
    eachThread (setGroup x g y) ls f = setGroup (eachThread x ls f) g y := by
  induction ls generalizing x with
  | nil => rfl
  | cons l ls ih =>
    have h : modThread (setGroup x g y) l (f l) = setGroup (modThread x l (f l)) g y := by
      cases h : NMap.find? x.threads l <;> simp [modThread, setGroup, setThread, h]
    show eachThread (modThread (setGroup x g y) l (f l)) ls f = _
    rw [h, ih]; rfl

/-! ### The end of an instruction -/

/-- Everything `leaveGroup` does: the group is gone, each member is at its target, waiting for nothing. -/
theorem leaveGroup_eq (x : Wave) (g : Nat) (tgt : Nat → DWord) :
    leaveGroup x g tgt = dropGroup (eachThread x (group x g).lanes fun l t => goTo t (tgt l)) g := rfl

theorem leaveGroup_frame (x : Wave) (g : Nat) (tgt : Nat → DWord) :
    leaveGroup x g tgt =
      { x with threads := (leaveGroup x g tgt).threads, groups := NMap.erase x.groups g } := by
  rw [leaveGroup_eq, eachThread_eq]; rfl

theorem find_leaveGroup {x : Wave} {g : Nat} {y : Group} (tgt : Nat → DWord) (hg : NMap.find? x.groups g = some y)
    (nd : y.lanes.Nodup) (j : Nat) :
    NMap.find? (leaveGroup x g tgt).threads j =
      if j ∈ y.lanes then (NMap.find? x.threads j).map (fun t => goTo t (tgt j)) else NMap.find? x.threads j := by
  rw [leaveGroup_eq, dropGroup, group_of_find hg, find_eachThread _ nd]

/-- The threads' view of `advance`: a member's PC, wait and lead may change, nothing else of it. -/
theorem find_advance {x : Wave} {g : Nat} {y : Group} (hg : NMap.find? x.groups g = some y) (nd : y.lanes.Nodup) (j : Nat) :
    NMap.find? (advance x g).threads j =
      if j ∈ y.lanes then (NMap.find? x.threads j).map (fun t =>
        if y.index < y.hdr.count then { t with wait := .none, lead := false } else goTo t (nextClause y))
      else NMap.find? x.threads j := by
  unfold advance
  rw [group_of_find hg]
  dsimp only
  split
  · exact find_eachThread (fun _ t => { t with wait := .none, lead := false }) nd j
  · exact find_leaveGroup _ hg nd j

/-- The groups' view of `advance`. -/
theorem group_advance {x : Wave} {g : Nat} {y : Group} (hg : NMap.find? x.groups g = some y) :
    NMap.find? (advance x g).groups g =
      if y.index < y.hdr.count then
        some { y with index := y.index + 1, began := false, lead := none, iw := none, s0 := [], d0 := [], mask := 0, ord := 0
                      after := none, asked := [] }
      else none := by
  unfold advance
  rw [group_of_find hg]
  dsimp only
  split
  · simp [setGroup]
  · rw [leaveGroup_frame]; simp

/-- `advance` changes threads and groups only. -/
theorem advance_frame (x : Wave) (g : Nat) :
    advance x g = { x with threads := (advance x g).threads, groups := (advance x g).groups } := by
  unfold advance
  dsimp only
  split
  · have h := eachThread_eq x (group x g).lanes fun _ t => { t with wait := .none, lead := false }
    unfold eachThread at h
    rw [h]; rfl
  · rw [leaveGroup_frame]

/-- Which member's event was the latest counts for nothing once the group goes on. -/
theorem advance_setGroup {x : Wave} {g : Nat} {y : Group} (k : Option Nat) (hg : NMap.find? x.groups g = some y) :
    advance (setGroup x g { y with after := k }) g = advance x g := by
  have h1 : group (setGroup x g { y with after := k }) g = { y with after := k } := group_of_find (by simp [setGroup])
  unfold advance
  rw [h1, group_of_find hg]
  dsimp only
  split
  · have h := eachThread_setGroup x g { y with after := k } y.lanes fun _ t => { t with wait := .none, lead := false }
    unfold eachThread at h
    rw [h]; simp [setGroup, NMap.put_put]
  · rw [leaveGroup_eq, leaveGroup_eq, h1, group_of_find hg]
    dsimp only
    rw [eachThread_setGroup]
    simp only [dropGroup, setGroup, NMap.erase_put]
    rfl

@[simp] theorem advance_s (x : Wave) (g : Nat) : (advance x g).s = x.s := by rw [advance_frame]
@[simp] theorem advance_d (x : Wave) (g : Nat) : (advance x g).d = x.d := by rw [advance_frame]
@[simp] theorem advance_fpflags (x : Wave) (g : Nat) : (advance x g).fpflags = x.fpflags := by rw [advance_frame]
@[simp] theorem advance_pmc (x : Wave) (g : Nat) : (advance x g).pmc = x.pmc := by rw [advance_frame]

/-! ### Results -/

/-- What a member's results do to its thread. -/
def outThread (d : Option Reg) (o : LaneOut) (t : Thread) : Thread :=
  o.ks.foldl (fun t k => setCbit t k.1 k.2)
    (match d with
     | some (.v n) => { t with v := putWords t.v n.val o.ws }
     | _ => t)

/-- What they do to the wave's s registers. -/
def outS (d : Option Reg) (lead : Bool) (o : LaneOut) (m : NMap Word) : NMap Word :=
  match d with
  | some (.s n) => if lead then putWords m n.val o.ws else m
  | _ => m

/-- The note of an s destination that the lane led (R111). -/
def outW (x : Wave) (l : Nat) (d : Option Reg) (lead : Bool) (o : LaneOut) : NMap Nat :=
  match d with
  | some (.s n) => if lead then noteWrites x.wrote n.val o.ws.length (issueOrd x l) else x.wrote
  | _ => x.wrote

theorem setBits_eq (ks : List (CBit × Bool)) (t : Thread) :
    ks.foldl (fun t k => setCbit t k.1 k.2) t =
      { t with c := (ks.foldl (fun t k => setCbit t k.1 k.2) t).c } := by
  induction ks generalizing t with
  | nil => rfl
  | cons k ks ih => rw [List.foldl_cons, ih]; simp [setCbit]

theorem outThread_eq (d : Option Reg) (o : LaneOut) (t : Thread) :
    outThread d o t = { t with v := (outThread d o t).v, c := (outThread d o t).c } := by
  unfold outThread; rw [setBits_eq]; split <;> rfl

@[simp] theorem outThread_v_v (n : Fin 128) (o : LaneOut) (t : Thread) :
    (outThread (some (.v n)) o t).v = putWords t.v n.val o.ws := by unfold outThread; rw [setBits_eq]
@[simp] theorem outThread_s_v (n : Fin 64) (o : LaneOut) (t : Thread) : (outThread (some (.s n)) o t).v = t.v := by
  unfold outThread; rw [setBits_eq]
@[simp] theorem outThread_none_v (o : LaneOut) (t : Thread) : (outThread none o t).v = t.v := by
  unfold outThread; rw [setBits_eq]
@[simp] theorem outThread_pc (d : Option Reg) (o : LaneOut) (t : Thread) : (outThread d o t).pc = t.pc := by
  rw [outThread_eq]

theorem modThread_modThread (x : Wave) (l : Nat) (f g : Thread → Thread) :
    modThread (modThread x l f) l g = modThread x l (g ∘ f) := by
  cases h : NMap.find? x.threads l with
  | none => simp [modThread, h]
  | some t =>
    have h1 : modThread x l f = setThread x l (f t) := by unfold modThread; rw [h]
    have h2 : modThread x l (g ∘ f) = setThread x l (g (f t)) := by unfold modThread; rw [h]; rfl
    rw [h1, h2]
    unfold modThread
    have h3 : NMap.find? (setThread x l (f t)).threads l = some (f t) := by simp [setThread]
    rw [h3]
    simp only [setThread, NMap.put_put]

theorem writeOut_eq (x : Wave) (l : Nat) (lead : Bool) (d : Option Reg) (o : LaneOut) :
    writeOut x l lead d o = modThread { x with s := outS d lead o x.s, wrote := outW x l d lead o } l (outThread d o) := by
  unfold writeOut
  rcases d with _ | (n | n)
  · rfl
  · simp only [outS, outW]
    rw [modThread_modThread]; rfl
  · simp only [outS, outW]
    by_cases h : lead <;> simp [h] <;> rfl

/-- What later instructions have written stands: the s registers, and nothing else, show it (R111). -/
theorem keepLater_eq (x z : Wave) (ord : Nat) :
    keepLater x z ord = { z with s := (keepLater x z ord).s, wrote := (keepLater x z ord).wrote } := rfl

@[simp] theorem keepLater_threads (x z : Wave) (ord : Nat) : (keepLater x z ord).threads = z.threads := rfl
@[simp] theorem keepLater_groups (x z : Wave) (ord : Nat) : (keepLater x z ord).groups = z.groups := rfl

/-- A register that a later instruction has written keeps its value; every other has the result (R111). -/
theorem get_keepLater_s (x z : Wave) (ord r : Nat) :
    NMap.get 0 (keepLater x z ord).s r =
      if r < 64 ∧ ord < NMap.get 0 x.wrote r then NMap.get 0 x.s r else NMap.get 0 z.s r := by
  have key : ∀ (rs : List Nat) (m : NMap Word),
      NMap.get 0 (rs.foldl (fun m r => NMap.set 0 m r (NMap.get 0 x.s r)) m) r =
        if r ∈ rs then NMap.get 0 x.s r else NMap.get 0 m r := by
    intro rs
    induction rs with
    | nil => intro m; simp
    | cons a rs ih =>
      intro m
      rw [List.foldl_cons, ih, NMap.get_set]
      by_cases h : r = a
      · subst h; simp
      · simp [h]
  unfold keepLater
  dsimp only
  rw [key]
  simp

/-- Where no later instruction has written one, the registers have the results (R111). -/
theorem keepLater_id {x : Wave} {ord : Nat} (z : Wave) (h : ∀ r, r < 64 → NMap.get 0 x.wrote r ≤ ord) :
    keepLater x z ord = z := by
  have : ((List.range 64).filter fun r => decide (ord < NMap.get 0 x.wrote r)) = [] := by
    rw [List.filter_eq_nil_iff]; intro r hr; have := h r (List.mem_range.1 hr); simp; omega
  unfold keepLater
  rw [this]; rfl

/-- What an instruction whose members only compute does to the threads: each performing member has its results. -/
theorem find_compute {x : Wave} {g : Nat} {y : Group} (p : Pred) (d : Option Reg) (f : Wave → Thread → Nat → LaneOut)
    (hg : NMap.find? x.groups g = some y) (nd : y.lanes.Nodup) (j : Nat) :
    NMap.find? (compute x g p d f).threads j =
      if j ∈ performers x y p then (NMap.find? x.threads j).map (outThread d (f x (thread x j) j))
      else NMap.find? x.threads j := by
  have key : ∀ (ls : List Nat) (ld : Nat → Bool) (z : Wave), ls.Nodup →
      NMap.find? ((ls.map fun l => (l, f x (thread x l) l)).foldl (fun y o => writeOut y o.1 (ld o.1) d o.2) z).threads j =
        if j ∈ ls then (NMap.find? z.threads j).map (outThread d (f x (thread x j) j)) else NMap.find? z.threads j := by
    intro ls
    induction ls with
    | nil => intros; simp
    | cons l ls ih =>
      intro ld z nd
      have nd' := List.nodup_cons.mp nd
      rw [List.map_cons, List.foldl_cons, ih _ _ nd'.2, writeOut_eq, find_modThread]
      by_cases h1 : j = l
      · subst h1; simp [nd'.1]
      · simp [h1]
  unfold compute
  rw [group_of_find hg]
  exact key (performers x y p) (fun l => (performers x y p).head? == some l) x (nd.filter _)

/-- What it does to the s registers: the lowest performing member's words (R108). -/
theorem s_compute {x : Wave} {g : Nat} {y : Group} (p : Pred) (d : Option Reg) (f : Wave → Thread → Nat → LaneOut)
    (hg : NMap.find? x.groups g = some y) (nd : y.lanes.Nodup) :
    (compute x g p d f).s =
      match (performers x y p).head? with
      | some l => outS d true (f x (thread x l) l) x.s
      | none => x.s := by
  have rest : ∀ (ls : List Nat) (h : Option Nat) (z : Wave), (∀ l ∈ ls, h ≠ some l) →
      ((ls.map fun l => (l, f x (thread x l) l)).foldl (fun y o => writeOut y o.1 (h == some o.1) d o.2) z).s = z.s := by
    intro ls h
    induction ls with
    | nil => intros; rfl
    | cons l ls ih =>
      intro z hl
      rw [List.map_cons, List.foldl_cons, ih _ fun m hm => hl m (List.mem_cons_of_mem _ hm), writeOut_eq]
      have : (h == some l) = false := by simpa using hl l List.mem_cons_self
      rw [this, modThread_s]
      rcases d with _ | (n | n) <;> rfl
  unfold compute
  rw [group_of_find hg]
  show (List.foldl _ x _).s = _
  have nd' : (performers x y p).Nodup := nd.filter _
  cases hp : performers x y p with
  | nil => rfl
  | cons l ls =>
    rw [hp] at nd'
    rw [List.map_cons, List.foldl_cons, List.head?_cons,
      rest ls (some l) _ (by rintro m hm ⟨⟩; exact (List.nodup_cons.mp nd').1 hm), writeOut_eq]
    simp

/-- `compute` changes threads, s registers with their notes, and flags only. -/
theorem compute_frame (x : Wave) (g : Nat) (p : Pred) (d : Option Reg) (f : Wave → Thread → Nat → LaneOut) :
    compute x g p d f = { x with threads := (compute x g p d f).threads, s := (compute x g p d f).s
                                 wrote := (compute x g p d f).wrote
                                 fpflags := (compute x g p d f).fpflags } := by
  have key : ∀ (os : List (Nat × LaneOut)) (ld : Nat → Bool) (z : Wave),
      os.foldl (fun y o => writeOut y o.1 (ld o.1) d o.2) z =
        { z with threads := (os.foldl (fun y o => writeOut y o.1 (ld o.1) d o.2) z).threads
                 s := (os.foldl (fun y o => writeOut y o.1 (ld o.1) d o.2) z).s
                 wrote := (os.foldl (fun y o => writeOut y o.1 (ld o.1) d o.2) z).wrote } := by
    intro os ld
    induction os with
    | nil => intro z; rfl
    | cons o os ih => intro z; rw [List.foldl_cons, ih, writeOut_eq, modThread_eq]
  unfold compute
  dsimp only [raiseFlags]
  rw [key _ fun l => (performers x (group x g) p).head? == some l]

@[simp] theorem compute_groups (x : Wave) (g : Nat) (p : Pred) (d : Option Reg) (f : Wave → Thread → Nat → LaneOut) :
    (compute x g p d f).groups = x.groups := by rw [compute_frame]

theorem fold_or (os : List (Nat × LaneOut)) (z : BitVec 6) :
    os.foldl (fun fl o => fl ||| o.2.fl) z = z ||| os.foldl (fun fl o => fl ||| o.2.fl) 0 := by
  induction os generalizing z with
  | nil => simp
  | cons o os ih => rw [List.foldl_cons, List.foldl_cons, ih, ih (0 ||| o.2.fl)]; simp [BitVec.or_assoc]

/-- The flags after: what stood, and what each performing member raised (R38). -/
theorem flags_compute {x : Wave} {g : Nat} {y : Group} (p : Pred) (d : Option Reg) (f : Wave → Thread → Nat → LaneOut)
    (hg : NMap.find? x.groups g = some y) {l : Nat} (hl : l ∈ performers x y p) :
    (compute x g p d f).fpflags ||| (f x (thread x l) l).fl.setWidth 32 ||| x.fpflags = (compute x g p d f).fpflags := by
  have hs : ∀ (os : List (Nat × LaneOut)) (ld : Nat → Bool) (z : Wave),
      (os.foldl (fun y o => writeOut y o.1 (ld o.1) d o.2) z).fpflags = z.fpflags := by
    intro os ld
    induction os with
    | nil => intro z; rfl
    | cons o os ih => intro z; rw [List.foldl_cons, ih, writeOut_eq, modThread_fpflags]
  have hm : ∀ (ls : List Nat), l ∈ ls → ∀ z : BitVec 6,
      (ls.map fun l => (l, f x (thread x l) l)).foldl (fun fl o => fl ||| o.2.fl) z ||| (f x (thread x l) l).fl =
      (ls.map fun l => (l, f x (thread x l) l)).foldl (fun fl o => fl ||| o.2.fl) z := by
    intro ls
    induction ls with
    | nil => intro h; cases h
    | cons a ls ih =>
      intro h z
      rw [List.map_cons, List.foldl_cons]
      rcases List.mem_cons.mp h with h | h
      · subst h
        rw [fold_or]
        generalize List.foldl _ _ _ = e
        ext i hi; simp; tauto
      · exact ih h _
  unfold compute
  rw [group_of_find hg]
  dsimp only [raiseFlags]
  rw [hs _ fun l => (performers x y p).head? == some l]
  have h := hm _ hl 0
  generalize List.foldl (fun fl (o : Nat × LaneOut) => fl ||| o.2.fl) 0 _ = e at h ⊢
  rw [← h]
  ext i hi
  simp only [BitVec.getElem_or, BitVec.getElem_setWidth, BitVec.getLsbD_or]
  cases x.fpflags[i] <;> cases e.getLsbD i <;> cases (f x (thread x l) l).fl.getLsbD i <;> rfl

end Sys2Proof.Machine
end

