-- ==== Sys2Proof/Laws/Alu.lean ====
section
/-!
SUPPORT. Everything an instruction whose members only compute does.
-/

namespace Sys2Proof.Machine
set_option Elab.async false

theorem after_modWave {s : State} {x : Wave} (f : Wave → Wave) (h : NMap.find? s.dev.waves s.dev.cur.1 = some x) :
    after s { s with dev := modWave s.dev s.dev.cur.1 f } = f x :=
  NMap.get_of_find? (find_modWave_self f h)

/-- The instruction executes: the state it answers. -/
theorem aluStep_next (s : State) (p : Pred) (d : Option Reg) (f : Wave → Thread → Nat → LaneOut) :
    aluStep s p d f = .next { s with dev := alu s.dev p d f } := rfl

theorem after_alu {s : State} {x : Wave} {y : Group} (h : Issues s x y) (p : Pred) (d : Option Reg)
    (f : Wave → Thread → Nat → LaneOut) :
    after s { s with dev := alu s.dev p d f } = advance (compute x s.dev.cur.2 p d f) s.dev.cur.2 :=
  after_modWave _ h.wave

theorem Issues.group' {s : State} {x : Wave} {y : Group} (h : Issues s x y) (p : Pred) (d : Option Reg)
    (f : Wave → Thread → Nat → LaneOut) : NMap.find? (compute x s.dev.cur.2 p d f).groups s.dev.cur.2 = some y := by
  rw [compute_groups]; exact h.group

/-- A wave whose group advances has passed the instruction. -/
theorem passed_of_advance {s s' : State} {y : Group} {z : Wave} (ha : after s s' = advance z s.dev.cur.2)
    (hg : NMap.find? z.groups s.dev.cur.2 = some y) (nd : y.lanes.Nodup)
    (hh : ∀ l ∈ y.lanes, (NMap.find? z.threads l).isSome) : Passed s s' y := by
  unfold Passed
  rw [ha, group_advance hg]
  split
  · rfl
  · refine ⟨rfl, fun l hl => ?_⟩
    obtain ⟨t, ht⟩ := Option.isSome_iff_exists.mp (hh l hl)
    have h1 : NMap.find? (advance z s.dev.cur.2).threads l = some (goTo t (nextClause y)) := by
      rw [find_advance hg nd]; simp [*]
    rw [thread_of_find h1]
    exact ⟨rfl, rfl⟩

/-- The group passes the instruction. -/
theorem alu_passed {s : State} {x : Wave} {y : Group} (h : Issues s x y) (p : Pred) (d : Option Reg)
    (f : Wave → Thread → Nat → LaneOut) : Passed s { s with dev := alu s.dev p d f } y := by
  refine passed_of_advance (after_alu h p d f) (h.group' p d f) h.nodup fun l hl => ?_
  rw [find_compute p d f h.group h.nodup]
  split <;> simp [h.here l hl]

theorem mem_performers {x : Wave} {y : Group} {p : Pred} {l : Nat} {t : Thread} (hl : l ∈ y.lanes)
    (ht : NMap.find? x.threads l = some t) (hp : performs p t = true) : l ∈ performers x y p := by
  simp [performers, hl, thread_of_find ht, hp]

/-- A performing member's thread after the instruction. -/
theorem alu_thread {s : State} {x : Wave} {y : Group} {l : Nat} {t : Thread} (h : Issues s x y) (p : Pred)
    (d : Option Reg) (f : Wave → Thread → Nat → LaneOut) (hl : l ∈ y.lanes) (ht : NMap.find? x.threads l = some t)
    (hp : performs p t = true) :
    (thread (after s { s with dev := alu s.dev p d f }) l).v = (outThread d (f x t l) t).v ∧
    (thread (after s { s with dev := alu s.dev p d f }) l).c = (outThread d (f x t l) t).c := by
  have hc : NMap.find? (compute x s.dev.cur.2 p d f).threads l = some (outThread d (f x t l) t) := by
    rw [find_compute p d f h.group h.nodup]
    simp [mem_performers hl ht hp, ht, thread_of_find ht]
  have ha := find_advance (h.group' p d f) h.nodup l
  simp only [hl, if_true, hc, Option.map_some] at ha
  rw [after_alu h, thread_of_find ha]
  split <;> exact ⟨rfl, rfl⟩

theorem regsOf_of_words {x : Wave} {l : Nat} {d : Reg} {ws : List Word}
    (h : ∀ i (_ : i < ws.length), rdReg x (thread x l) d i = ws.getD i 0) : regsOf x l d ws.length = ws := by
  apply List.ext_getElem
  · simp [regsOf]
  · intro i h1 h2
    simp only [regsOf, List.getElem_map, List.getElem_range]
    rw [h i h2]; simp [h2]

/-- A performing member's destination holds its words; an s destination, the lowest performing member's (R108). -/
theorem alu_regs {s : State} {x : Wave} {y : Group} {l : Nat} {t : Thread} (h : Issues s x y) (p : Pred) (d : Reg)
    (f : Wave → Thread → Nat → LaneOut) (hl : l ∈ y.lanes) (ht : NMap.find? x.threads l = some t)
    (hp : performs p t = true) (hd : (∃ k, d = .v k) ∨ (performers x y p).head? = some l) :
    regsOf (after s { s with dev := alu s.dev p (some d) f }) l d (f x t l).ws.length = (f x t l).ws := by
  apply regsOf_of_words
  intro i hi
  rcases d with n | n
  · show NMap.get 0 (thread _ l).v (n.val + i) = _
    rw [(alu_thread h p _ f hl ht hp).1, outThread_v_v, get_putWords]
    simp [hi]
  · have hh : (performers x y p).head? = some l := by simpa using hd
    show NMap.get 0 (after s _).s (n.val + i) = _
    rw [after_alu h, advance_s, s_compute p _ f h.group h.nodup, hh]
    show NMap.get 0 (putWords x.s n.val (f x (thread x l) l).ws) (n.val + i) = _
    rw [thread_of_find ht, get_putWords]
    simp [hi]

/-- What an instruction whose members only compute gives. -/
theorem aluStep_gives {i : Instr} {p : Pred} {d : Reg} {f : Wave → Thread → List Word}
    {g : State → Wave → Thread → Nat → LaneOut} (hi : ∀ s, exec i s = aluStep s p (some d) (g s))
    (hf : ∀ s x y t l, Issues s x y → NMap.find? x.threads l = some t → (g s x t l).ws = f x t) : Gives i p d f := by
  intro s x y l t h hl ht hp hd
  refine ⟨_, hi s, alu_passed h p _ _, ?_⟩
  rw [← hf s x y t l h ht]
  exact alu_regs h p d _ hl ht hp hd

theorem aluStep_givesSuch {i : Instr} {p : Pred} {d : Reg} {n : Nat} {R : Wave → Thread → List Word → Prop}
    {g : State → Wave → Thread → Nat → LaneOut} (hi : ∀ s, exec i s = aluStep s p (some d) (g s))
    (hf : ∀ s x y t l, Issues s x y → NMap.find? x.threads l = some t →
      (g s x t l).ws.length = n ∧ R x t (g s x t l).ws) : GivesSuch i p d n R := by
  intro s x y l t h hl ht hp hd
  obtain ⟨h1, h2⟩ := hf s x y t l h ht
  refine ⟨_, hi s, alu_passed h p _ _, ?_⟩
  rw [← h1, alu_regs h p d _ hl ht hp hd]
  exact h2

theorem cbit_setCbit (t : Thread) (c : CBit) (b : Bool) : cbit (setCbit t c b) c = b := by
  have hc := c.isLt
  unfold cbit setCbit
  cases b <;> simp [hc]

theorem aluStep_givesBit {i : Instr} {p : Pred} {c : CBit} {f : Wave → Thread → Bool}
    {g : State → Wave → Thread → Nat → LaneOut} (hi : ∀ s, exec i s = aluStep s p none (g s))
    (hf : ∀ s x y t l, Issues s x y → NMap.find? x.threads l = some t → g s x t l = outC c (f x t)) :
    GivesBit i p c f := by
  intro s x y l t h hl ht hp
  refine ⟨_, hi s, alu_passed h p _ _, ?_⟩
  unfold cbit
  rw [(alu_thread h p _ _ hl ht hp).2, hf s x y t l h ht]
  exact cbit_setCbit t c _

theorem aluStep_givesFloat {i : Instr} {p : Pred} {d : Reg} {f : Wave → Thread → Word × BitVec 6}
    {g : State → Wave → Thread → Nat → LaneOut} (hi : ∀ s, exec i s = aluStep s p (some d) (g s))
    (hf : ∀ s x y t l, Issues s x y → NMap.find? x.threads l = some t →
      (g s x t l).ws = [(f x t).1] ∧ (g s x t l).fl = (f x t).2) : GivesFloat i p d f := by
  intro s x y l t h hl ht hp hd
  refine ⟨_, hi s, alu_passed h p _ _, ?_, ?_⟩
  · have h1 := (hf s x y t l h ht).1
    have h2 := alu_regs h p d (g s) hl ht hp hd
    rw [h1] at h2
    exact h2
  · have h3 := flags_compute p (some d) (g s) h.group (mem_performers hl ht hp)
    rw [thread_of_find ht, (hf s x y t l h ht).2] at h3
    rw [after_alu h, advance_fpflags]
    exact h3

end Sys2Proof.Machine
end

