-- ==== Sys2Proof/Laws/Encoders.lean ====
section
/-!
SUPPORT. What an encoder may choose for a frame (R416, R421, R422).
-/

namespace Sys2Proof.Laws
open Sys2Proof.Machine

/-- A frame that may be referenced has been coded. -/
theorem mem_of_mayReference {fs : List CodedFrame} {h : CodedFrame} (hm : h ∈ mayReference fs) : h ∈ fs := by
  have key (fs : List CodedFrame) : ∀ rs, h ∈ fs.foldl (fun rs f => if f.key then [f] else rs ++ [f]) rs → h ∈ fs ∨ h ∈ rs := by
    induction fs with
    | nil => exact fun _ => .inr
    | cons f fs ih =>
      intro rs hm
      rcases ih _ hm with hm | hm
      · exact .inl (List.mem_cons_of_mem _ hm)
      · cases hk : f.key <;> simp [hk] at hm ⊢ <;> tauto
  exact (key fs [] hm).resolve_right (List.not_mem_nil)

/-- The references are at most three, each the number of a frame coded before. -/
theorem heldCoding_refs (x : Session) (key : Bool) (h : PictureCoding) :
    (heldCoding x key h).refs.length ≤ 3 ∧ ∀ n ∈ (heldCoding x key h).refs, ∃ f ∈ x.coded, f.num = n := by
  have some_ (rs : List CodedFrame) (hr : ∀ f ∈ rs, f ∈ x.coded) (is : List Nat) :
      ((is.take 3).filterMap fun i => (rs[i % rs.length]?).map (·.num)).length ≤ 3 ∧
        ∀ n ∈ (is.take 3).filterMap fun i => (rs[i % rs.length]?).map (·.num), ∃ f ∈ x.coded, f.num = n := by
    refine ⟨(List.length_filterMap_le _ _).trans (List.length_take_le _ _), fun n hn => ?_⟩
    obtain ⟨i, -, hi⟩ := List.mem_filterMap.mp hn
    obtain ⟨f, hf, rfl⟩ := Option.map_eq_some_iff.mp hi
    exact ⟨f, hr f (List.mem_of_getElem? hf), rfl⟩
  have hr : ∀ f ∈ (if key then [] else mayReference x.coded), f ∈ x.coded := by
    cases key
    · exact fun f => mem_of_mayReference
    · exact fun f hf => absurd hf List.not_mem_nil
  show (ite _ [] _ : List Nat).length ≤ 3 ∧ ∀ n ∈ (ite _ [] _ : List Nat), _
  generalize (if key then [] else mayReference x.coded) = rs at hr
  by_cases hi : (h.kind == .intra || rs.isEmpty) = true
  · simp [hi]
  · rw [if_neg hi]; exact some_ rs hr _

/-- A key frame refers to none. -/
theorem heldCoding_key (x : Session) (h : PictureCoding) :
    (heldCoding x true h).kind = .intra ∧ (heldCoding x true h).refs = [] ∧ (heldCoding x true h).hidden = false := by
  simp [heldCoding]

/-- With LOWDELAY there is no B frame and no hidden one. -/
theorem heldCoding_lowDelay {x : Session} (hl : x.lowDelay = true) (key : Bool) (h : PictureCoding) :
    (heldCoding x key h).kind ≠ .bi ∧ (heldCoding x key h).hidden = false := by
  refine ⟨?_, by simp [heldCoding, hl]⟩
  show (ite _ _ (ite _ _ _) : PictureKind) ≠ .bi
  rw [if_pos hl]
  generalize (h.kind == .intra || _) = b
  cases b <;> decide

end Sys2Proof.Laws
end

