-- ==== Sys2Proof/Laws/State.lean ====
section
/-!
SUPPORT. Each field of the device, of a wave and of the state after each of their updates.
-/

namespace Sys2Proof.Machine

/-! ### The device -/

@[simp] theorem setWave_ticks (dev : Device) (k : Nat) (x : Wave) : (setWave dev k x).ticks = dev.ticks := rfl
@[simp] theorem setWave_mem (dev : Device) (k : Nat) (x : Wave) : (setWave dev k x).mem = dev.mem := rfl
@[simp] theorem setWave_host (dev : Device) (k : Nat) (x : Wave) : (setWave dev k x).host = dev.host := rfl
@[simp] theorem setWave_home (dev : Device) (k : Nat) (x : Wave) : (setWave dev k x).home = dev.home := rfl
@[simp] theorem setWave_ctlb (dev : Device) (k : Nat) (x : Wave) : (setWave dev k x).ctlb = dev.ctlb := rfl
@[simp] theorem setWave_codeLog (dev : Device) (k : Nat) (x : Wave) : (setWave dev k x).codeLog = dev.codeLog := rfl
@[simp] theorem setWave_codeSeq (dev : Device) (k : Nat) (x : Wave) : (setWave dev k x).codeSeq = dev.codeSeq := rfl
@[simp] theorem setWave_ctxs (dev : Device) (k : Nat) (x : Wave) : (setWave dev k x).ctxs = dev.ctxs := rfl
@[simp] theorem setWave_cores (dev : Device) (k : Nat) (x : Wave) : (setWave dev k x).cores = dev.cores := rfl
@[simp] theorem setWave_launches (dev : Device) (k : Nat) (x : Wave) : (setWave dev k x).launches = dev.launches := rfl
@[simp] theorem setWave_wgs (dev : Device) (k : Nat) (x : Wave) : (setWave dev k x).wgs = dev.wgs := rfl
@[simp] theorem setWave_bins (dev : Device) (k : Nat) (x : Wave) : (setWave dev k x).bins = dev.bins := rfl
@[simp] theorem setWave_binUnits (dev : Device) (k : Nat) (x : Wave) : (setWave dev k x).binUnits = dev.binUnits := rfl
@[simp] theorem setWave_plans (dev : Device) (k : Nat) (x : Wave) : (setWave dev k x).plans = dev.plans := rfl
@[simp] theorem setWave_objs (dev : Device) (k : Nat) (x : Wave) : (setWave dev k x).objs = dev.objs := rfl
@[simp] theorem setWave_jobs (dev : Device) (k : Nat) (x : Wave) : (setWave dev k x).jobs = dev.jobs := rfl
@[simp] theorem setWave_svc (dev : Device) (k : Nat) (x : Wave) : (setWave dev k x).svc = dev.svc := rfl
@[simp] theorem setWave_chunks (dev : Device) (k : Nat) (x : Wave) : (setWave dev k x).chunks = dev.chunks := rfl
@[simp] theorem setWave_nextId (dev : Device) (k : Nat) (x : Wave) : (setWave dev k x).nextId = dev.nextId := rfl
@[simp] theorem setWave_relSeq (dev : Device) (k : Nat) (x : Wave) : (setWave dev k x).relSeq = dev.relSeq := rfl
@[simp] theorem setWave_binSeq (dev : Device) (k : Nat) (x : Wave) : (setWave dev k x).binSeq = dev.binSeq := rfl
@[simp] theorem setWave_agents (dev : Device) (k : Nat) (x : Wave) : (setWave dev k x).agents = dev.agents := rfl
@[simp] theorem setWave_topTs (dev : Device) (k : Nat) (x : Wave) : (setWave dev k x).topTs = dev.topTs := rfl
@[simp] theorem setWave_parkSeq (dev : Device) (k : Nat) (x : Wave) : (setWave dev k x).parkSeq = dev.parkSeq := rfl
@[simp] theorem setWave_resp (dev : Device) (k : Nat) (x : Wave) : (setWave dev k x).resp = dev.resp := rfl
@[simp] theorem setWave_aps (dev : Device) (k : Nat) (x : Wave) : (setWave dev k x).aps = dev.aps := rfl
@[simp] theorem setWave_kicks (dev : Device) (k : Nat) (x : Wave) : (setWave dev k x).kicks = dev.kicks := rfl
@[simp] theorem setWave_cur (dev : Device) (k : Nat) (x : Wave) : (setWave dev k x).cur = dev.cur := rfl
@[simp] theorem setWave_cut (dev : Device) (k : Nat) (x : Wave) : (setWave dev k x).cut = dev.cut := rfl
@[simp] theorem setWave_free (dev : Device) (k : Nat) (x : Wave) : (setWave dev k x).free = dev.free := rfl
theorem setWave_waves (dev : Device) (k : Nat) (x : Wave) : (setWave dev k x).waves = NMap.put dev.waves k x := rfl
@[simp] theorem modWave_ticks (dev : Device) (k : Nat) (f : Wave → Wave) :
    (modWave dev k f).ticks = dev.ticks := by unfold modWave; split <;> rfl
@[simp] theorem modWave_host (dev : Device) (k : Nat) (f : Wave → Wave) :
    (modWave dev k f).host = dev.host := by unfold modWave; split <;> rfl
@[simp] theorem modWave_home (dev : Device) (k : Nat) (f : Wave → Wave) :
    (modWave dev k f).home = dev.home := by unfold modWave; split <;> rfl
@[simp] theorem modWave_ctlb (dev : Device) (k : Nat) (f : Wave → Wave) :
    (modWave dev k f).ctlb = dev.ctlb := by unfold modWave; split <;> rfl
@[simp] theorem modWave_codeLog (dev : Device) (k : Nat) (f : Wave → Wave) :
    (modWave dev k f).codeLog = dev.codeLog := by unfold modWave; split <;> rfl
@[simp] theorem modWave_codeSeq (dev : Device) (k : Nat) (f : Wave → Wave) :
    (modWave dev k f).codeSeq = dev.codeSeq := by unfold modWave; split <;> rfl
@[simp] theorem modWave_bins (dev : Device) (k : Nat) (f : Wave → Wave) :
    (modWave dev k f).bins = dev.bins := by unfold modWave; split <;> rfl
@[simp] theorem modWave_binUnits (dev : Device) (k : Nat) (f : Wave → Wave) :
    (modWave dev k f).binUnits = dev.binUnits := by unfold modWave; split <;> rfl
@[simp] theorem modWave_plans (dev : Device) (k : Nat) (f : Wave → Wave) :
    (modWave dev k f).plans = dev.plans := by unfold modWave; split <;> rfl
@[simp] theorem modWave_jobs (dev : Device) (k : Nat) (f : Wave → Wave) :
    (modWave dev k f).jobs = dev.jobs := by unfold modWave; split <;> rfl
@[simp] theorem modWave_svc (dev : Device) (k : Nat) (f : Wave → Wave) :
    (modWave dev k f).svc = dev.svc := by unfold modWave; split <;> rfl
@[simp] theorem modWave_chunks (dev : Device) (k : Nat) (f : Wave → Wave) :
    (modWave dev k f).chunks = dev.chunks := by unfold modWave; split <;> rfl
@[simp] theorem modWave_nextId (dev : Device) (k : Nat) (f : Wave → Wave) :
    (modWave dev k f).nextId = dev.nextId := by unfold modWave; split <;> rfl
@[simp] theorem modWave_relSeq (dev : Device) (k : Nat) (f : Wave → Wave) :
    (modWave dev k f).relSeq = dev.relSeq := by unfold modWave; split <;> rfl
@[simp] theorem modWave_binSeq (dev : Device) (k : Nat) (f : Wave → Wave) :
    (modWave dev k f).binSeq = dev.binSeq := by unfold modWave; split <;> rfl
@[simp] theorem modWave_agents (dev : Device) (k : Nat) (f : Wave → Wave) :
    (modWave dev k f).agents = dev.agents := by unfold modWave; split <;> rfl
@[simp] theorem modWave_topTs (dev : Device) (k : Nat) (f : Wave → Wave) :
    (modWave dev k f).topTs = dev.topTs := by unfold modWave; split <;> rfl
@[simp] theorem modWave_parkSeq (dev : Device) (k : Nat) (f : Wave → Wave) :
    (modWave dev k f).parkSeq = dev.parkSeq := by unfold modWave; split <;> rfl
@[simp] theorem modWave_resp (dev : Device) (k : Nat) (f : Wave → Wave) :
    (modWave dev k f).resp = dev.resp := by unfold modWave; split <;> rfl
@[simp] theorem modWave_aps (dev : Device) (k : Nat) (f : Wave → Wave) :
    (modWave dev k f).aps = dev.aps := by unfold modWave; split <;> rfl
@[simp] theorem modWave_kicks (dev : Device) (k : Nat) (f : Wave → Wave) :
    (modWave dev k f).kicks = dev.kicks := by unfold modWave; split <;> rfl
@[simp] theorem modWave_cut (dev : Device) (k : Nat) (f : Wave → Wave) :
    (modWave dev k f).cut = dev.cut := by unfold modWave; split <;> rfl
@[simp] theorem wave_setWave_self (dev : Device) (k : Nat) (x : Wave) : wave (setWave dev k x) k = x := by
  simp [wave, setWave]
theorem wave_setWave_ne (dev : Device) {k j : Nat} (x : Wave) (h : j ≠ k) : wave (setWave dev k x) j = wave dev j := by
  simp [wave, setWave, NMap.get, NMap.find?_put_ne _ _ h]
@[simp] theorem setWg_ticks (dev : Device) (k : Nat) (x : Wg) : (setWg dev k x).ticks = dev.ticks := rfl
@[simp] theorem setWg_mem (dev : Device) (k : Nat) (x : Wg) : (setWg dev k x).mem = dev.mem := rfl
@[simp] theorem setWg_host (dev : Device) (k : Nat) (x : Wg) : (setWg dev k x).host = dev.host := rfl
@[simp] theorem setWg_home (dev : Device) (k : Nat) (x : Wg) : (setWg dev k x).home = dev.home := rfl
@[simp] theorem setWg_ctlb (dev : Device) (k : Nat) (x : Wg) : (setWg dev k x).ctlb = dev.ctlb := rfl
@[simp] theorem setWg_codeLog (dev : Device) (k : Nat) (x : Wg) : (setWg dev k x).codeLog = dev.codeLog := rfl
@[simp] theorem setWg_codeSeq (dev : Device) (k : Nat) (x : Wg) : (setWg dev k x).codeSeq = dev.codeSeq := rfl
@[simp] theorem setWg_ctxs (dev : Device) (k : Nat) (x : Wg) : (setWg dev k x).ctxs = dev.ctxs := rfl
@[simp] theorem setWg_cores (dev : Device) (k : Nat) (x : Wg) : (setWg dev k x).cores = dev.cores := rfl
@[simp] theorem setWg_launches (dev : Device) (k : Nat) (x : Wg) : (setWg dev k x).launches = dev.launches := rfl
@[simp] theorem setWg_waves (dev : Device) (k : Nat) (x : Wg) : (setWg dev k x).waves = dev.waves := rfl
@[simp] theorem setWg_bins (dev : Device) (k : Nat) (x : Wg) : (setWg dev k x).bins = dev.bins := rfl
@[simp] theorem setWg_binUnits (dev : Device) (k : Nat) (x : Wg) : (setWg dev k x).binUnits = dev.binUnits := rfl
@[simp] theorem setWg_plans (dev : Device) (k : Nat) (x : Wg) : (setWg dev k x).plans = dev.plans := rfl
@[simp] theorem setWg_objs (dev : Device) (k : Nat) (x : Wg) : (setWg dev k x).objs = dev.objs := rfl
@[simp] theorem setWg_jobs (dev : Device) (k : Nat) (x : Wg) : (setWg dev k x).jobs = dev.jobs := rfl
@[simp] theorem setWg_svc (dev : Device) (k : Nat) (x : Wg) : (setWg dev k x).svc = dev.svc := rfl
@[simp] theorem setWg_chunks (dev : Device) (k : Nat) (x : Wg) : (setWg dev k x).chunks = dev.chunks := rfl
@[simp] theorem setWg_nextId (dev : Device) (k : Nat) (x : Wg) : (setWg dev k x).nextId = dev.nextId := rfl
@[simp] theorem setWg_relSeq (dev : Device) (k : Nat) (x : Wg) : (setWg dev k x).relSeq = dev.relSeq := rfl
@[simp] theorem setWg_binSeq (dev : Device) (k : Nat) (x : Wg) : (setWg dev k x).binSeq = dev.binSeq := rfl
@[simp] theorem setWg_agents (dev : Device) (k : Nat) (x : Wg) : (setWg dev k x).agents = dev.agents := rfl
@[simp] theorem setWg_topTs (dev : Device) (k : Nat) (x : Wg) : (setWg dev k x).topTs = dev.topTs := rfl
@[simp] theorem setWg_parkSeq (dev : Device) (k : Nat) (x : Wg) : (setWg dev k x).parkSeq = dev.parkSeq := rfl
@[simp] theorem setWg_resp (dev : Device) (k : Nat) (x : Wg) : (setWg dev k x).resp = dev.resp := rfl
@[simp] theorem setWg_aps (dev : Device) (k : Nat) (x : Wg) : (setWg dev k x).aps = dev.aps := rfl
@[simp] theorem setWg_kicks (dev : Device) (k : Nat) (x : Wg) : (setWg dev k x).kicks = dev.kicks := rfl
@[simp] theorem setWg_cur (dev : Device) (k : Nat) (x : Wg) : (setWg dev k x).cur = dev.cur := rfl
@[simp] theorem setWg_cut (dev : Device) (k : Nat) (x : Wg) : (setWg dev k x).cut = dev.cut := rfl
@[simp] theorem setWg_free (dev : Device) (k : Nat) (x : Wg) : (setWg dev k x).free = dev.free := rfl
theorem setWg_wgs (dev : Device) (k : Nat) (x : Wg) : (setWg dev k x).wgs = NMap.put dev.wgs k x := rfl
@[simp] theorem modWg_ticks (dev : Device) (k : Nat) (f : Wg → Wg) :
    (modWg dev k f).ticks = dev.ticks := by unfold modWg; split <;> rfl
@[simp] theorem modWg_mem (dev : Device) (k : Nat) (f : Wg → Wg) :
    (modWg dev k f).mem = dev.mem := by unfold modWg; split <;> rfl
@[simp] theorem modWg_host (dev : Device) (k : Nat) (f : Wg → Wg) :
    (modWg dev k f).host = dev.host := by unfold modWg; split <;> rfl
@[simp] theorem modWg_home (dev : Device) (k : Nat) (f : Wg → Wg) :
    (modWg dev k f).home = dev.home := by unfold modWg; split <;> rfl
@[simp] theorem modWg_ctlb (dev : Device) (k : Nat) (f : Wg → Wg) :
    (modWg dev k f).ctlb = dev.ctlb := by unfold modWg; split <;> rfl
@[simp] theorem modWg_codeLog (dev : Device) (k : Nat) (f : Wg → Wg) :
    (modWg dev k f).codeLog = dev.codeLog := by unfold modWg; split <;> rfl
@[simp] theorem modWg_codeSeq (dev : Device) (k : Nat) (f : Wg → Wg) :
    (modWg dev k f).codeSeq = dev.codeSeq := by unfold modWg; split <;> rfl
@[simp] theorem modWg_ctxs (dev : Device) (k : Nat) (f : Wg → Wg) :
    (modWg dev k f).ctxs = dev.ctxs := by unfold modWg; split <;> rfl
@[simp] theorem modWg_cores (dev : Device) (k : Nat) (f : Wg → Wg) :
    (modWg dev k f).cores = dev.cores := by unfold modWg; split <;> rfl
@[simp] theorem modWg_launches (dev : Device) (k : Nat) (f : Wg → Wg) :
    (modWg dev k f).launches = dev.launches := by unfold modWg; split <;> rfl
@[simp] theorem modWg_waves (dev : Device) (k : Nat) (f : Wg → Wg) :
    (modWg dev k f).waves = dev.waves := by unfold modWg; split <;> rfl
@[simp] theorem modWg_bins (dev : Device) (k : Nat) (f : Wg → Wg) :
    (modWg dev k f).bins = dev.bins := by unfold modWg; split <;> rfl
@[simp] theorem modWg_binUnits (dev : Device) (k : Nat) (f : Wg → Wg) :
    (modWg dev k f).binUnits = dev.binUnits := by unfold modWg; split <;> rfl
@[simp] theorem modWg_plans (dev : Device) (k : Nat) (f : Wg → Wg) :
    (modWg dev k f).plans = dev.plans := by unfold modWg; split <;> rfl
@[simp] theorem modWg_objs (dev : Device) (k : Nat) (f : Wg → Wg) :
    (modWg dev k f).objs = dev.objs := by unfold modWg; split <;> rfl
@[simp] theorem modWg_jobs (dev : Device) (k : Nat) (f : Wg → Wg) :
    (modWg dev k f).jobs = dev.jobs := by unfold modWg; split <;> rfl
@[simp] theorem modWg_svc (dev : Device) (k : Nat) (f : Wg → Wg) :
    (modWg dev k f).svc = dev.svc := by unfold modWg; split <;> rfl
@[simp] theorem modWg_chunks (dev : Device) (k : Nat) (f : Wg → Wg) :
    (modWg dev k f).chunks = dev.chunks := by unfold modWg; split <;> rfl
@[simp] theorem modWg_nextId (dev : Device) (k : Nat) (f : Wg → Wg) :
    (modWg dev k f).nextId = dev.nextId := by unfold modWg; split <;> rfl
@[simp] theorem modWg_relSeq (dev : Device) (k : Nat) (f : Wg → Wg) :
    (modWg dev k f).relSeq = dev.relSeq := by unfold modWg; split <;> rfl
@[simp] theorem modWg_binSeq (dev : Device) (k : Nat) (f : Wg → Wg) :
    (modWg dev k f).binSeq = dev.binSeq := by unfold modWg; split <;> rfl
@[simp] theorem modWg_agents (dev : Device) (k : Nat) (f : Wg → Wg) :
    (modWg dev k f).agents = dev.agents := by unfold modWg; split <;> rfl
@[simp] theorem modWg_topTs (dev : Device) (k : Nat) (f : Wg → Wg) :
    (modWg dev k f).topTs = dev.topTs := by unfold modWg; split <;> rfl
@[simp] theorem modWg_parkSeq (dev : Device) (k : Nat) (f : Wg → Wg) :
    (modWg dev k f).parkSeq = dev.parkSeq := by unfold modWg; split <;> rfl
@[simp] theorem modWg_resp (dev : Device) (k : Nat) (f : Wg → Wg) :
    (modWg dev k f).resp = dev.resp := by unfold modWg; split <;> rfl
@[simp] theorem modWg_aps (dev : Device) (k : Nat) (f : Wg → Wg) :
    (modWg dev k f).aps = dev.aps := by unfold modWg; split <;> rfl
@[simp] theorem modWg_kicks (dev : Device) (k : Nat) (f : Wg → Wg) :
    (modWg dev k f).kicks = dev.kicks := by unfold modWg; split <;> rfl
@[simp] theorem modWg_cur (dev : Device) (k : Nat) (f : Wg → Wg) :
    (modWg dev k f).cur = dev.cur := by unfold modWg; split <;> rfl
@[simp] theorem modWg_cut (dev : Device) (k : Nat) (f : Wg → Wg) :
    (modWg dev k f).cut = dev.cut := by unfold modWg; split <;> rfl
@[simp] theorem modWg_free (dev : Device) (k : Nat) (f : Wg → Wg) :
    (modWg dev k f).free = dev.free := by unfold modWg; split <;> rfl
@[simp] theorem wg_setWg_self (dev : Device) (k : Nat) (x : Wg) : wg (setWg dev k x) k = x := by
  simp [wg, setWg]
theorem wg_setWg_ne (dev : Device) {k j : Nat} (x : Wg) (h : j ≠ k) : wg (setWg dev k x) j = wg dev j := by
  simp [wg, setWg, NMap.get, NMap.find?_put_ne _ _ h]
theorem find_modWg (dev : Device) (k j : Nat) (f : Wg → Wg) :
    NMap.find? (modWg dev k f).wgs j = if j = k then (NMap.find? dev.wgs k).map f else NMap.find? dev.wgs j := by
  unfold modWg
  split
  · rename_i x h; simp only [setWg, NMap.find?_put, h]; split <;> simp
  · rename_i h; split <;> simp_all
@[simp] theorem setCtx_ticks (dev : Device) (k : Nat) (x : Ctx) : (setCtx dev k x).ticks = dev.ticks := rfl
@[simp] theorem setCtx_mem (dev : Device) (k : Nat) (x : Ctx) : (setCtx dev k x).mem = dev.mem := rfl
@[simp] theorem setCtx_host (dev : Device) (k : Nat) (x : Ctx) : (setCtx dev k x).host = dev.host := rfl
@[simp] theorem setCtx_home (dev : Device) (k : Nat) (x : Ctx) : (setCtx dev k x).home = dev.home := rfl
@[simp] theorem setCtx_ctlb (dev : Device) (k : Nat) (x : Ctx) : (setCtx dev k x).ctlb = dev.ctlb := rfl
@[simp] theorem setCtx_codeLog (dev : Device) (k : Nat) (x : Ctx) : (setCtx dev k x).codeLog = dev.codeLog := rfl
@[simp] theorem setCtx_codeSeq (dev : Device) (k : Nat) (x : Ctx) : (setCtx dev k x).codeSeq = dev.codeSeq := rfl
@[simp] theorem setCtx_cores (dev : Device) (k : Nat) (x : Ctx) : (setCtx dev k x).cores = dev.cores := rfl
@[simp] theorem setCtx_launches (dev : Device) (k : Nat) (x : Ctx) : (setCtx dev k x).launches = dev.launches := rfl
@[simp] theorem setCtx_wgs (dev : Device) (k : Nat) (x : Ctx) : (setCtx dev k x).wgs = dev.wgs := rfl
@[simp] theorem setCtx_waves (dev : Device) (k : Nat) (x : Ctx) : (setCtx dev k x).waves = dev.waves := rfl
@[simp] theorem setCtx_bins (dev : Device) (k : Nat) (x : Ctx) : (setCtx dev k x).bins = dev.bins := rfl
@[simp] theorem setCtx_binUnits (dev : Device) (k : Nat) (x : Ctx) : (setCtx dev k x).binUnits = dev.binUnits := rfl
@[simp] theorem setCtx_plans (dev : Device) (k : Nat) (x : Ctx) : (setCtx dev k x).plans = dev.plans := rfl
@[simp] theorem setCtx_objs (dev : Device) (k : Nat) (x : Ctx) : (setCtx dev k x).objs = dev.objs := rfl
@[simp] theorem setCtx_jobs (dev : Device) (k : Nat) (x : Ctx) : (setCtx dev k x).jobs = dev.jobs := rfl
@[simp] theorem setCtx_svc (dev : Device) (k : Nat) (x : Ctx) : (setCtx dev k x).svc = dev.svc := rfl
@[simp] theorem setCtx_chunks (dev : Device) (k : Nat) (x : Ctx) : (setCtx dev k x).chunks = dev.chunks := rfl
@[simp] theorem setCtx_nextId (dev : Device) (k : Nat) (x : Ctx) : (setCtx dev k x).nextId = dev.nextId := rfl
@[simp] theorem setCtx_relSeq (dev : Device) (k : Nat) (x : Ctx) : (setCtx dev k x).relSeq = dev.relSeq := rfl
@[simp] theorem setCtx_binSeq (dev : Device) (k : Nat) (x : Ctx) : (setCtx dev k x).binSeq = dev.binSeq := rfl
@[simp] theorem setCtx_agents (dev : Device) (k : Nat) (x : Ctx) : (setCtx dev k x).agents = dev.agents := rfl
@[simp] theorem setCtx_topTs (dev : Device) (k : Nat) (x : Ctx) : (setCtx dev k x).topTs = dev.topTs := rfl
@[simp] theorem setCtx_parkSeq (dev : Device) (k : Nat) (x : Ctx) : (setCtx dev k x).parkSeq = dev.parkSeq := rfl
@[simp] theorem setCtx_resp (dev : Device) (k : Nat) (x : Ctx) : (setCtx dev k x).resp = dev.resp := rfl
@[simp] theorem setCtx_aps (dev : Device) (k : Nat) (x : Ctx) : (setCtx dev k x).aps = dev.aps := rfl
@[simp] theorem setCtx_kicks (dev : Device) (k : Nat) (x : Ctx) : (setCtx dev k x).kicks = dev.kicks := rfl
@[simp] theorem setCtx_cur (dev : Device) (k : Nat) (x : Ctx) : (setCtx dev k x).cur = dev.cur := rfl
@[simp] theorem setCtx_cut (dev : Device) (k : Nat) (x : Ctx) : (setCtx dev k x).cut = dev.cut := rfl
@[simp] theorem setCtx_free (dev : Device) (k : Nat) (x : Ctx) : (setCtx dev k x).free = dev.free := rfl
theorem setCtx_ctxs (dev : Device) (k : Nat) (x : Ctx) : (setCtx dev k x).ctxs = NMap.put dev.ctxs k x := rfl
@[simp] theorem modCtx_ticks (dev : Device) (k : Nat) (f : Ctx → Ctx) : (modCtx dev k f).ticks = dev.ticks := rfl
@[simp] theorem modCtx_mem (dev : Device) (k : Nat) (f : Ctx → Ctx) : (modCtx dev k f).mem = dev.mem := rfl
@[simp] theorem modCtx_host (dev : Device) (k : Nat) (f : Ctx → Ctx) : (modCtx dev k f).host = dev.host := rfl
@[simp] theorem modCtx_home (dev : Device) (k : Nat) (f : Ctx → Ctx) : (modCtx dev k f).home = dev.home := rfl
@[simp] theorem modCtx_ctlb (dev : Device) (k : Nat) (f : Ctx → Ctx) : (modCtx dev k f).ctlb = dev.ctlb := rfl
@[simp] theorem modCtx_codeLog (dev : Device) (k : Nat) (f : Ctx → Ctx) : (modCtx dev k f).codeLog = dev.codeLog := rfl
@[simp] theorem modCtx_codeSeq (dev : Device) (k : Nat) (f : Ctx → Ctx) : (modCtx dev k f).codeSeq = dev.codeSeq := rfl
@[simp] theorem modCtx_cores (dev : Device) (k : Nat) (f : Ctx → Ctx) : (modCtx dev k f).cores = dev.cores := rfl
@[simp] theorem modCtx_launches (dev : Device) (k : Nat) (f : Ctx → Ctx) :
    (modCtx dev k f).launches = dev.launches := rfl
@[simp] theorem modCtx_wgs (dev : Device) (k : Nat) (f : Ctx → Ctx) : (modCtx dev k f).wgs = dev.wgs := rfl
@[simp] theorem modCtx_waves (dev : Device) (k : Nat) (f : Ctx → Ctx) : (modCtx dev k f).waves = dev.waves := rfl
@[simp] theorem modCtx_bins (dev : Device) (k : Nat) (f : Ctx → Ctx) : (modCtx dev k f).bins = dev.bins := rfl
@[simp] theorem modCtx_binUnits (dev : Device) (k : Nat) (f : Ctx → Ctx) :
    (modCtx dev k f).binUnits = dev.binUnits := rfl
@[simp] theorem modCtx_plans (dev : Device) (k : Nat) (f : Ctx → Ctx) : (modCtx dev k f).plans = dev.plans := rfl
@[simp] theorem modCtx_objs (dev : Device) (k : Nat) (f : Ctx → Ctx) : (modCtx dev k f).objs = dev.objs := rfl
@[simp] theorem modCtx_jobs (dev : Device) (k : Nat) (f : Ctx → Ctx) : (modCtx dev k f).jobs = dev.jobs := rfl
@[simp] theorem modCtx_svc (dev : Device) (k : Nat) (f : Ctx → Ctx) : (modCtx dev k f).svc = dev.svc := rfl
@[simp] theorem modCtx_chunks (dev : Device) (k : Nat) (f : Ctx → Ctx) : (modCtx dev k f).chunks = dev.chunks := rfl
@[simp] theorem modCtx_nextId (dev : Device) (k : Nat) (f : Ctx → Ctx) : (modCtx dev k f).nextId = dev.nextId := rfl
@[simp] theorem modCtx_relSeq (dev : Device) (k : Nat) (f : Ctx → Ctx) : (modCtx dev k f).relSeq = dev.relSeq := rfl
@[simp] theorem modCtx_binSeq (dev : Device) (k : Nat) (f : Ctx → Ctx) : (modCtx dev k f).binSeq = dev.binSeq := rfl
@[simp] theorem modCtx_agents (dev : Device) (k : Nat) (f : Ctx → Ctx) : (modCtx dev k f).agents = dev.agents := rfl
@[simp] theorem modCtx_topTs (dev : Device) (k : Nat) (f : Ctx → Ctx) : (modCtx dev k f).topTs = dev.topTs := rfl
@[simp] theorem modCtx_parkSeq (dev : Device) (k : Nat) (f : Ctx → Ctx) : (modCtx dev k f).parkSeq = dev.parkSeq := rfl
@[simp] theorem modCtx_resp (dev : Device) (k : Nat) (f : Ctx → Ctx) : (modCtx dev k f).resp = dev.resp := rfl
@[simp] theorem modCtx_aps (dev : Device) (k : Nat) (f : Ctx → Ctx) : (modCtx dev k f).aps = dev.aps := rfl
@[simp] theorem modCtx_kicks (dev : Device) (k : Nat) (f : Ctx → Ctx) : (modCtx dev k f).kicks = dev.kicks := rfl
@[simp] theorem modCtx_cur (dev : Device) (k : Nat) (f : Ctx → Ctx) : (modCtx dev k f).cur = dev.cur := rfl
@[simp] theorem modCtx_cut (dev : Device) (k : Nat) (f : Ctx → Ctx) : (modCtx dev k f).cut = dev.cut := rfl
@[simp] theorem modCtx_free (dev : Device) (k : Nat) (f : Ctx → Ctx) : (modCtx dev k f).free = dev.free := rfl
@[simp] theorem ctx_setCtx_self (dev : Device) (k : Nat) (x : Ctx) : ctx (setCtx dev k x) k = x := by
  simp [ctx, setCtx]
theorem ctx_setCtx_ne (dev : Device) {k j : Nat} (x : Ctx) (h : j ≠ k) : ctx (setCtx dev k x) j = ctx dev j := by
  simp [ctx, setCtx, NMap.get, NMap.find?_put_ne _ _ h]
@[simp] theorem ctx_modCtx_self (dev : Device) (k : Nat) (f : Ctx → Ctx) : ctx (modCtx dev k f) k = f (ctx dev k) := by
  simp [modCtx]
theorem ctx_modCtx_ne (dev : Device) {k j : Nat} (f : Ctx → Ctx) (h : j ≠ k) : ctx (modCtx dev k f) j = ctx dev j :=
  ctx_setCtx_ne _ _ h
@[simp] theorem setCore_ticks (dev : Device) (k : Nat) (x : Core) : (setCore dev k x).ticks = dev.ticks := rfl
@[simp] theorem setCore_mem (dev : Device) (k : Nat) (x : Core) : (setCore dev k x).mem = dev.mem := rfl
@[simp] theorem setCore_host (dev : Device) (k : Nat) (x : Core) : (setCore dev k x).host = dev.host := rfl
@[simp] theorem setCore_home (dev : Device) (k : Nat) (x : Core) : (setCore dev k x).home = dev.home := rfl
@[simp] theorem setCore_ctlb (dev : Device) (k : Nat) (x : Core) : (setCore dev k x).ctlb = dev.ctlb := rfl
@[simp] theorem setCore_codeLog (dev : Device) (k : Nat) (x : Core) : (setCore dev k x).codeLog = dev.codeLog := rfl
@[simp] theorem setCore_codeSeq (dev : Device) (k : Nat) (x : Core) : (setCore dev k x).codeSeq = dev.codeSeq := rfl
@[simp] theorem setCore_ctxs (dev : Device) (k : Nat) (x : Core) : (setCore dev k x).ctxs = dev.ctxs := rfl
@[simp] theorem setCore_launches (dev : Device) (k : Nat) (x : Core) : (setCore dev k x).launches = dev.launches := rfl
@[simp] theorem setCore_wgs (dev : Device) (k : Nat) (x : Core) : (setCore dev k x).wgs = dev.wgs := rfl
@[simp] theorem setCore_waves (dev : Device) (k : Nat) (x : Core) : (setCore dev k x).waves = dev.waves := rfl
@[simp] theorem setCore_bins (dev : Device) (k : Nat) (x : Core) : (setCore dev k x).bins = dev.bins := rfl
@[simp] theorem setCore_binUnits (dev : Device) (k : Nat) (x : Core) : (setCore dev k x).binUnits = dev.binUnits := rfl
@[simp] theorem setCore_plans (dev : Device) (k : Nat) (x : Core) : (setCore dev k x).plans = dev.plans := rfl
@[simp] theorem setCore_objs (dev : Device) (k : Nat) (x : Core) : (setCore dev k x).objs = dev.objs := rfl
@[simp] theorem setCore_jobs (dev : Device) (k : Nat) (x : Core) : (setCore dev k x).jobs = dev.jobs := rfl
@[simp] theorem setCore_svc (dev : Device) (k : Nat) (x : Core) : (setCore dev k x).svc = dev.svc := rfl
@[simp] theorem setCore_chunks (dev : Device) (k : Nat) (x : Core) : (setCore dev k x).chunks = dev.chunks := rfl
@[simp] theorem setCore_nextId (dev : Device) (k : Nat) (x : Core) : (setCore dev k x).nextId = dev.nextId := rfl
@[simp] theorem setCore_relSeq (dev : Device) (k : Nat) (x : Core) : (setCore dev k x).relSeq = dev.relSeq := rfl
@[simp] theorem setCore_binSeq (dev : Device) (k : Nat) (x : Core) : (setCore dev k x).binSeq = dev.binSeq := rfl
@[simp] theorem setCore_agents (dev : Device) (k : Nat) (x : Core) : (setCore dev k x).agents = dev.agents := rfl
@[simp] theorem setCore_topTs (dev : Device) (k : Nat) (x : Core) : (setCore dev k x).topTs = dev.topTs := rfl
@[simp] theorem setCore_parkSeq (dev : Device) (k : Nat) (x : Core) : (setCore dev k x).parkSeq = dev.parkSeq := rfl
@[simp] theorem setCore_resp (dev : Device) (k : Nat) (x : Core) : (setCore dev k x).resp = dev.resp := rfl
@[simp] theorem setCore_aps (dev : Device) (k : Nat) (x : Core) : (setCore dev k x).aps = dev.aps := rfl
@[simp] theorem setCore_kicks (dev : Device) (k : Nat) (x : Core) : (setCore dev k x).kicks = dev.kicks := rfl
@[simp] theorem setCore_cur (dev : Device) (k : Nat) (x : Core) : (setCore dev k x).cur = dev.cur := rfl
@[simp] theorem setCore_cut (dev : Device) (k : Nat) (x : Core) : (setCore dev k x).cut = dev.cut := rfl
@[simp] theorem setCore_free (dev : Device) (k : Nat) (x : Core) : (setCore dev k x).free = dev.free := rfl
theorem setCore_cores (dev : Device) (k : Nat) (x : Core) : (setCore dev k x).cores = NMap.put dev.cores k x := rfl
@[simp] theorem modCore_ticks (dev : Device) (k : Nat) (f : Core → Core) : (modCore dev k f).ticks = dev.ticks := rfl
@[simp] theorem modCore_mem (dev : Device) (k : Nat) (f : Core → Core) : (modCore dev k f).mem = dev.mem := rfl
@[simp] theorem modCore_host (dev : Device) (k : Nat) (f : Core → Core) : (modCore dev k f).host = dev.host := rfl
@[simp] theorem modCore_home (dev : Device) (k : Nat) (f : Core → Core) : (modCore dev k f).home = dev.home := rfl
@[simp] theorem modCore_ctlb (dev : Device) (k : Nat) (f : Core → Core) : (modCore dev k f).ctlb = dev.ctlb := rfl
@[simp] theorem modCore_codeLog (dev : Device) (k : Nat) (f : Core → Core) :
    (modCore dev k f).codeLog = dev.codeLog := rfl
@[simp] theorem modCore_codeSeq (dev : Device) (k : Nat) (f : Core → Core) :
    (modCore dev k f).codeSeq = dev.codeSeq := rfl
@[simp] theorem modCore_ctxs (dev : Device) (k : Nat) (f : Core → Core) : (modCore dev k f).ctxs = dev.ctxs := rfl
@[simp] theorem modCore_launches (dev : Device) (k : Nat) (f : Core → Core) :
    (modCore dev k f).launches = dev.launches := rfl
@[simp] theorem modCore_wgs (dev : Device) (k : Nat) (f : Core → Core) : (modCore dev k f).wgs = dev.wgs := rfl
@[simp] theorem modCore_waves (dev : Device) (k : Nat) (f : Core → Core) : (modCore dev k f).waves = dev.waves := rfl
@[simp] theorem modCore_bins (dev : Device) (k : Nat) (f : Core → Core) : (modCore dev k f).bins = dev.bins := rfl
@[simp] theorem modCore_binUnits (dev : Device) (k : Nat) (f : Core → Core) :
    (modCore dev k f).binUnits = dev.binUnits := rfl
@[simp] theorem modCore_plans (dev : Device) (k : Nat) (f : Core → Core) : (modCore dev k f).plans = dev.plans := rfl
@[simp] theorem modCore_objs (dev : Device) (k : Nat) (f : Core → Core) : (modCore dev k f).objs = dev.objs := rfl
@[simp] theorem modCore_jobs (dev : Device) (k : Nat) (f : Core → Core) : (modCore dev k f).jobs = dev.jobs := rfl
@[simp] theorem modCore_svc (dev : Device) (k : Nat) (f : Core → Core) : (modCore dev k f).svc = dev.svc := rfl
@[simp] theorem modCore_chunks (dev : Device) (k : Nat) (f : Core → Core) : (modCore dev k f).chunks = dev.chunks := rfl
@[simp] theorem modCore_nextId (dev : Device) (k : Nat) (f : Core → Core) : (modCore dev k f).nextId = dev.nextId := rfl
@[simp] theorem modCore_relSeq (dev : Device) (k : Nat) (f : Core → Core) : (modCore dev k f).relSeq = dev.relSeq := rfl
@[simp] theorem modCore_binSeq (dev : Device) (k : Nat) (f : Core → Core) : (modCore dev k f).binSeq = dev.binSeq := rfl
@[simp] theorem modCore_agents (dev : Device) (k : Nat) (f : Core → Core) : (modCore dev k f).agents = dev.agents := rfl
@[simp] theorem modCore_topTs (dev : Device) (k : Nat) (f : Core → Core) : (modCore dev k f).topTs = dev.topTs := rfl
@[simp] theorem modCore_parkSeq (dev : Device) (k : Nat) (f : Core → Core) :
    (modCore dev k f).parkSeq = dev.parkSeq := rfl
@[simp] theorem modCore_resp (dev : Device) (k : Nat) (f : Core → Core) : (modCore dev k f).resp = dev.resp := rfl
@[simp] theorem modCore_aps (dev : Device) (k : Nat) (f : Core → Core) : (modCore dev k f).aps = dev.aps := rfl
@[simp] theorem modCore_kicks (dev : Device) (k : Nat) (f : Core → Core) : (modCore dev k f).kicks = dev.kicks := rfl
@[simp] theorem modCore_cur (dev : Device) (k : Nat) (f : Core → Core) : (modCore dev k f).cur = dev.cur := rfl
@[simp] theorem modCore_cut (dev : Device) (k : Nat) (f : Core → Core) : (modCore dev k f).cut = dev.cut := rfl
@[simp] theorem modCore_free (dev : Device) (k : Nat) (f : Core → Core) : (modCore dev k f).free = dev.free := rfl
@[simp] theorem core_setCore_self (dev : Device) (k : Nat) (x : Core) : core (setCore dev k x) k = x := by
  simp [core, setCore]
theorem core_setCore_ne (dev : Device) {k j : Nat} (x : Core) (h : j ≠ k) : core (setCore dev k x) j = core dev j := by
  simp [core, setCore, NMap.get, NMap.find?_put_ne _ _ h]
@[simp] theorem core_modCore_self (dev : Device) (k : Nat) (f : Core → Core) : core (modCore dev k f) k = f (core dev k) := by
  simp [modCore]
theorem core_modCore_ne (dev : Device) {k j : Nat} (f : Core → Core) (h : j ≠ k) : core (modCore dev k f) j = core dev j :=
  core_setCore_ne _ _ h
@[simp] theorem setLaunch_ticks (dev : Device) (k : Nat) (x : Launch) : (setLaunch dev k x).ticks = dev.ticks := rfl
@[simp] theorem setLaunch_mem (dev : Device) (k : Nat) (x : Launch) : (setLaunch dev k x).mem = dev.mem := rfl
@[simp] theorem setLaunch_host (dev : Device) (k : Nat) (x : Launch) : (setLaunch dev k x).host = dev.host := rfl
@[simp] theorem setLaunch_home (dev : Device) (k : Nat) (x : Launch) : (setLaunch dev k x).home = dev.home := rfl
@[simp] theorem setLaunch_ctlb (dev : Device) (k : Nat) (x : Launch) : (setLaunch dev k x).ctlb = dev.ctlb := rfl
@[simp] theorem setLaunch_codeLog (dev : Device) (k : Nat) (x : Launch) :
    (setLaunch dev k x).codeLog = dev.codeLog := rfl
@[simp] theorem setLaunch_codeSeq (dev : Device) (k : Nat) (x : Launch) :
    (setLaunch dev k x).codeSeq = dev.codeSeq := rfl
@[simp] theorem setLaunch_ctxs (dev : Device) (k : Nat) (x : Launch) : (setLaunch dev k x).ctxs = dev.ctxs := rfl
@[simp] theorem setLaunch_cores (dev : Device) (k : Nat) (x : Launch) : (setLaunch dev k x).cores = dev.cores := rfl
@[simp] theorem setLaunch_wgs (dev : Device) (k : Nat) (x : Launch) : (setLaunch dev k x).wgs = dev.wgs := rfl
@[simp] theorem setLaunch_waves (dev : Device) (k : Nat) (x : Launch) : (setLaunch dev k x).waves = dev.waves := rfl
@[simp] theorem setLaunch_bins (dev : Device) (k : Nat) (x : Launch) : (setLaunch dev k x).bins = dev.bins := rfl
@[simp] theorem setLaunch_binUnits (dev : Device) (k : Nat) (x : Launch) :
    (setLaunch dev k x).binUnits = dev.binUnits := rfl
@[simp] theorem setLaunch_plans (dev : Device) (k : Nat) (x : Launch) : (setLaunch dev k x).plans = dev.plans := rfl
@[simp] theorem setLaunch_objs (dev : Device) (k : Nat) (x : Launch) : (setLaunch dev k x).objs = dev.objs := rfl
@[simp] theorem setLaunch_jobs (dev : Device) (k : Nat) (x : Launch) : (setLaunch dev k x).jobs = dev.jobs := rfl
@[simp] theorem setLaunch_svc (dev : Device) (k : Nat) (x : Launch) : (setLaunch dev k x).svc = dev.svc := rfl
@[simp] theorem setLaunch_chunks (dev : Device) (k : Nat) (x : Launch) : (setLaunch dev k x).chunks = dev.chunks := rfl
@[simp] theorem setLaunch_nextId (dev : Device) (k : Nat) (x : Launch) : (setLaunch dev k x).nextId = dev.nextId := rfl
@[simp] theorem setLaunch_relSeq (dev : Device) (k : Nat) (x : Launch) : (setLaunch dev k x).relSeq = dev.relSeq := rfl
@[simp] theorem setLaunch_binSeq (dev : Device) (k : Nat) (x : Launch) : (setLaunch dev k x).binSeq = dev.binSeq := rfl
@[simp] theorem setLaunch_agents (dev : Device) (k : Nat) (x : Launch) : (setLaunch dev k x).agents = dev.agents := rfl
@[simp] theorem setLaunch_topTs (dev : Device) (k : Nat) (x : Launch) : (setLaunch dev k x).topTs = dev.topTs := rfl
@[simp] theorem setLaunch_parkSeq (dev : Device) (k : Nat) (x : Launch) :
    (setLaunch dev k x).parkSeq = dev.parkSeq := rfl
@[simp] theorem setLaunch_resp (dev : Device) (k : Nat) (x : Launch) : (setLaunch dev k x).resp = dev.resp := rfl
@[simp] theorem setLaunch_aps (dev : Device) (k : Nat) (x : Launch) : (setLaunch dev k x).aps = dev.aps := rfl
@[simp] theorem setLaunch_kicks (dev : Device) (k : Nat) (x : Launch) : (setLaunch dev k x).kicks = dev.kicks := rfl
@[simp] theorem setLaunch_cur (dev : Device) (k : Nat) (x : Launch) : (setLaunch dev k x).cur = dev.cur := rfl
@[simp] theorem setLaunch_cut (dev : Device) (k : Nat) (x : Launch) : (setLaunch dev k x).cut = dev.cut := rfl
@[simp] theorem setLaunch_free (dev : Device) (k : Nat) (x : Launch) : (setLaunch dev k x).free = dev.free := rfl
theorem setLaunch_launches (dev : Device) (k : Nat) (x : Launch) : (setLaunch dev k x).launches = NMap.put dev.launches k x := rfl
@[simp] theorem modLaunch_ticks (dev : Device) (k : Nat) (f : Launch → Launch) :
    (modLaunch dev k f).ticks = dev.ticks := by unfold modLaunch; split <;> rfl
@[simp] theorem modLaunch_mem (dev : Device) (k : Nat) (f : Launch → Launch) :
    (modLaunch dev k f).mem = dev.mem := by unfold modLaunch; split <;> rfl
@[simp] theorem modLaunch_host (dev : Device) (k : Nat) (f : Launch → Launch) :
    (modLaunch dev k f).host = dev.host := by unfold modLaunch; split <;> rfl
@[simp] theorem modLaunch_home (dev : Device) (k : Nat) (f : Launch → Launch) :
    (modLaunch dev k f).home = dev.home := by unfold modLaunch; split <;> rfl
@[simp] theorem modLaunch_ctlb (dev : Device) (k : Nat) (f : Launch → Launch) :
    (modLaunch dev k f).ctlb = dev.ctlb := by unfold modLaunch; split <;> rfl
@[simp] theorem modLaunch_codeLog (dev : Device) (k : Nat) (f : Launch → Launch) :
    (modLaunch dev k f).codeLog = dev.codeLog := by unfold modLaunch; split <;> rfl
@[simp] theorem modLaunch_codeSeq (dev : Device) (k : Nat) (f : Launch → Launch) :
    (modLaunch dev k f).codeSeq = dev.codeSeq := by unfold modLaunch; split <;> rfl
@[simp] theorem modLaunch_ctxs (dev : Device) (k : Nat) (f : Launch → Launch) :
    (modLaunch dev k f).ctxs = dev.ctxs := by unfold modLaunch; split <;> rfl
@[simp] theorem modLaunch_cores (dev : Device) (k : Nat) (f : Launch → Launch) :
    (modLaunch dev k f).cores = dev.cores := by unfold modLaunch; split <;> rfl
@[simp] theorem modLaunch_wgs (dev : Device) (k : Nat) (f : Launch → Launch) :
    (modLaunch dev k f).wgs = dev.wgs := by unfold modLaunch; split <;> rfl
@[simp] theorem modLaunch_waves (dev : Device) (k : Nat) (f : Launch → Launch) :
    (modLaunch dev k f).waves = dev.waves := by unfold modLaunch; split <;> rfl
@[simp] theorem modLaunch_bins (dev : Device) (k : Nat) (f : Launch → Launch) :
    (modLaunch dev k f).bins = dev.bins := by unfold modLaunch; split <;> rfl
@[simp] theorem modLaunch_binUnits (dev : Device) (k : Nat) (f : Launch → Launch) :
    (modLaunch dev k f).binUnits = dev.binUnits := by unfold modLaunch; split <;> rfl
@[simp] theorem modLaunch_plans (dev : Device) (k : Nat) (f : Launch → Launch) :
    (modLaunch dev k f).plans = dev.plans := by unfold modLaunch; split <;> rfl
@[simp] theorem modLaunch_objs (dev : Device) (k : Nat) (f : Launch → Launch) :
    (modLaunch dev k f).objs = dev.objs := by unfold modLaunch; split <;> rfl
@[simp] theorem modLaunch_jobs (dev : Device) (k : Nat) (f : Launch → Launch) :
    (modLaunch dev k f).jobs = dev.jobs := by unfold modLaunch; split <;> rfl
@[simp] theorem modLaunch_svc (dev : Device) (k : Nat) (f : Launch → Launch) :
    (modLaunch dev k f).svc = dev.svc := by unfold modLaunch; split <;> rfl
@[simp] theorem modLaunch_chunks (dev : Device) (k : Nat) (f : Launch → Launch) :
    (modLaunch dev k f).chunks = dev.chunks := by unfold modLaunch; split <;> rfl
@[simp] theorem modLaunch_nextId (dev : Device) (k : Nat) (f : Launch → Launch) :
    (modLaunch dev k f).nextId = dev.nextId := by unfold modLaunch; split <;> rfl
@[simp] theorem modLaunch_relSeq (dev : Device) (k : Nat) (f : Launch → Launch) :
    (modLaunch dev k f).relSeq = dev.relSeq := by unfold modLaunch; split <;> rfl
@[simp] theorem modLaunch_binSeq (dev : Device) (k : Nat) (f : Launch → Launch) :
    (modLaunch dev k f).binSeq = dev.binSeq := by unfold modLaunch; split <;> rfl
@[simp] theorem modLaunch_agents (dev : Device) (k : Nat) (f : Launch → Launch) :
    (modLaunch dev k f).agents = dev.agents := by unfold modLaunch; split <;> rfl
@[simp] theorem modLaunch_topTs (dev : Device) (k : Nat) (f : Launch → Launch) :
    (modLaunch dev k f).topTs = dev.topTs := by unfold modLaunch; split <;> rfl
@[simp] theorem modLaunch_parkSeq (dev : Device) (k : Nat) (f : Launch → Launch) :
    (modLaunch dev k f).parkSeq = dev.parkSeq := by unfold modLaunch; split <;> rfl
@[simp] theorem modLaunch_resp (dev : Device) (k : Nat) (f : Launch → Launch) :
    (modLaunch dev k f).resp = dev.resp := by unfold modLaunch; split <;> rfl
@[simp] theorem modLaunch_aps (dev : Device) (k : Nat) (f : Launch → Launch) :
    (modLaunch dev k f).aps = dev.aps := by unfold modLaunch; split <;> rfl
@[simp] theorem modLaunch_kicks (dev : Device) (k : Nat) (f : Launch → Launch) :
    (modLaunch dev k f).kicks = dev.kicks := by unfold modLaunch; split <;> rfl
@[simp] theorem modLaunch_cur (dev : Device) (k : Nat) (f : Launch → Launch) :
    (modLaunch dev k f).cur = dev.cur := by unfold modLaunch; split <;> rfl
@[simp] theorem modLaunch_cut (dev : Device) (k : Nat) (f : Launch → Launch) :
    (modLaunch dev k f).cut = dev.cut := by unfold modLaunch; split <;> rfl
@[simp] theorem modLaunch_free (dev : Device) (k : Nat) (f : Launch → Launch) :
    (modLaunch dev k f).free = dev.free := by unfold modLaunch; split <;> rfl
@[simp] theorem launch_setLaunch_self (dev : Device) (k : Nat) (x : Launch) : launch (setLaunch dev k x) k = x := by
  simp [launch, setLaunch]
theorem launch_setLaunch_ne (dev : Device) {k j : Nat} (x : Launch) (h : j ≠ k) : launch (setLaunch dev k x) j = launch dev j := by
  simp [launch, setLaunch, NMap.get, NMap.find?_put_ne _ _ h]
theorem find_modLaunch (dev : Device) (k j : Nat) (f : Launch → Launch) :
    NMap.find? (modLaunch dev k f).launches j = if j = k then (NMap.find? dev.launches k).map f else NMap.find? dev.launches j := by
  unfold modLaunch
  split
  · rename_i x h; simp only [setLaunch, NMap.find?_put, h]; split <;> simp
  · rename_i h; split <;> simp_all

/-! ### A wave -/

@[simp] theorem setThread_wg (x : Wave) (l : Nat) (t : Thread) : (setThread x l t).wg = x.wg := rfl
@[simp] theorem modThread_wg (x : Wave) (l : Nat) (f : Thread → Thread) :
    (modThread x l f).wg = x.wg := by unfold modThread; split <;> rfl
@[simp] theorem setThread_idx (x : Wave) (l : Nat) (t : Thread) : (setThread x l t).idx = x.idx := rfl
@[simp] theorem modThread_idx (x : Wave) (l : Nat) (f : Thread → Thread) :
    (modThread x l f).idx = x.idx := by unfold modThread; split <;> rfl
@[simp] theorem setThread_ctx (x : Wave) (l : Nat) (t : Thread) : (setThread x l t).ctx = x.ctx := rfl
@[simp] theorem modThread_ctx (x : Wave) (l : Nat) (f : Thread → Thread) :
    (modThread x l f).ctx = x.ctx := by unfold modThread; split <;> rfl
@[simp] theorem setThread_launch (x : Wave) (l : Nat) (t : Thread) : (setThread x l t).launch = x.launch := rfl
@[simp] theorem modThread_launch (x : Wave) (l : Nat) (f : Thread → Thread) :
    (modThread x l f).launch = x.launch := by unfold modThread; split <;> rfl
@[simp] theorem setThread_live (x : Wave) (l : Nat) (t : Thread) : (setThread x l t).live = x.live := rfl
@[simp] theorem modThread_live (x : Wave) (l : Nat) (f : Thread → Thread) :
    (modThread x l f).live = x.live := by unfold modThread; split <;> rfl
@[simp] theorem setThread_resident (x : Wave) (l : Nat) (t : Thread) : (setThread x l t).resident = x.resident := rfl
@[simp] theorem modThread_resident (x : Wave) (l : Nat) (f : Thread → Thread) :
    (modThread x l f).resident = x.resident := by unfold modThread; split <;> rfl
@[simp] theorem setThread_core (x : Wave) (l : Nat) (t : Thread) : (setThread x l t).core = x.core := rfl
@[simp] theorem modThread_core (x : Wave) (l : Nat) (f : Thread → Thread) :
    (modThread x l f).core = x.core := by unfold modThread; split <;> rfl
@[simp] theorem setThread_slot (x : Wave) (l : Nat) (t : Thread) : (setThread x l t).slot = x.slot := rfl
@[simp] theorem modThread_slot (x : Wave) (l : Nat) (f : Thread → Thread) :
    (modThread x l f).slot = x.slot := by unfold modThread; split <;> rfl
@[simp] theorem setThread_regs (x : Wave) (l : Nat) (t : Thread) : (setThread x l t).regs = x.regs := rfl
@[simp] theorem modThread_regs (x : Wave) (l : Nat) (f : Thread → Thread) :
    (modThread x l f).regs = x.regs := by unfold modThread; split <;> rfl
@[simp] theorem setThread_s (x : Wave) (l : Nat) (t : Thread) : (setThread x l t).s = x.s := rfl
@[simp] theorem setThread_d (x : Wave) (l : Nat) (t : Thread) : (setThread x l t).d = x.d := rfl
@[simp] theorem setThread_fpflags (x : Wave) (l : Nat) (t : Thread) : (setThread x l t).fpflags = x.fpflags := rfl
@[simp] theorem setThread_hold (x : Wave) (l : Nat) (t : Thread) : (setThread x l t).hold = x.hold := rfl
@[simp] theorem modThread_hold (x : Wave) (l : Nat) (f : Thread → Thread) :
    (modThread x l f).hold = x.hold := by unfold modThread; split <;> rfl
@[simp] theorem setThread_holdBegan (x : Wave) (l : Nat) (t : Thread) : (setThread x l t).holdBegan = x.holdBegan := rfl
@[simp] theorem modThread_holdBegan (x : Wave) (l : Nat) (f : Thread → Thread) :
    (modThread x l f).holdBegan = x.holdBegan := by unfold modThread; split <;> rfl
@[simp] theorem setThread_tformer (x : Wave) (l : Nat) (t : Thread) : (setThread x l t).tformer = x.tformer := rfl
@[simp] theorem modThread_tformer (x : Wave) (l : Nat) (f : Thread → Thread) :
    (modThread x l f).tformer = x.tformer := by unfold modThread; split <;> rfl
@[simp] theorem setThread_tfault (x : Wave) (l : Nat) (t : Thread) : (setThread x l t).tfault = x.tfault := rfl
@[simp] theorem modThread_tfault (x : Wave) (l : Nat) (f : Thread → Thread) :
    (modThread x l f).tfault = x.tfault := by unfold modThread; split <;> rfl
@[simp] theorem setThread_tcause (x : Wave) (l : Nat) (t : Thread) : (setThread x l t).tcause = x.tcause := rfl
@[simp] theorem modThread_tcause (x : Wave) (l : Nat) (f : Thread → Thread) :
    (modThread x l f).tcause = x.tcause := by unfold modThread; split <;> rfl
@[simp] theorem setThread_fid (x : Wave) (l : Nat) (t : Thread) : (setThread x l t).fid = x.fid := rfl
@[simp] theorem modThread_fid (x : Wave) (l : Nat) (f : Thread → Thread) :
    (modThread x l f).fid = x.fid := by unfold modThread; split <;> rfl
@[simp] theorem setThread_pmc (x : Wave) (l : Nat) (t : Thread) : (setThread x l t).pmc = x.pmc := rfl
@[simp] theorem modThread_pmc (x : Wave) (l : Nat) (f : Thread → Thread) :
    (modThread x l f).pmc = x.pmc := by unfold modThread; split <;> rfl
@[simp] theorem setThread_groups (x : Wave) (l : Nat) (t : Thread) : (setThread x l t).groups = x.groups := rfl
@[simp] theorem setThread_nextGroup (x : Wave) (l : Nat) (t : Thread) : (setThread x l t).nextGroup = x.nextGroup := rfl
@[simp] theorem modThread_nextGroup (x : Wave) (l : Nat) (f : Thread → Thread) :
    (modThread x l f).nextGroup = x.nextGroup := by unfold modThread; split <;> rfl
@[simp] theorem setThread_gathers (x : Wave) (l : Nat) (t : Thread) : (setThread x l t).gathers = x.gathers := rfl
@[simp] theorem modThread_gathers (x : Wave) (l : Nat) (f : Thread → Thread) :
    (modThread x l f).gathers = x.gathers := by unfold modThread; split <;> rfl
@[simp] theorem setThread_nextGather (x : Wave) (l : Nat) (t : Thread) :
    (setThread x l t).nextGather = x.nextGather := rfl
@[simp] theorem setThread_issues (x : Wave) (l : Nat) (t : Thread) :
    (setThread x l t).issues = x.issues := rfl
@[simp] theorem setThread_wrote (x : Wave) (l : Nat) (t : Thread) :
    (setThread x l t).wrote = x.wrote := rfl
@[simp] theorem modThread_nextGather (x : Wave) (l : Nat) (f : Thread → Thread) :
    (modThread x l f).nextGather = x.nextGather := by unfold modThread; split <;> rfl
@[simp] theorem modThread_issues (x : Wave) (l : Nat) (f : Thread → Thread) :
    (modThread x l f).issues = x.issues := by unfold modThread; split <;> rfl
@[simp] theorem modThread_wrote (x : Wave) (l : Nat) (f : Thread → Thread) :
    (modThread x l f).wrote = x.wrote := by unfold modThread; split <;> rfl
@[simp] theorem setThread_first (x : Wave) (l : Nat) (t : Thread) : (setThread x l t).first = x.first := rfl
@[simp] theorem modThread_first (x : Wave) (l : Nat) (f : Thread → Thread) :
    (modThread x l f).first = x.first := by unfold modThread; split <;> rfl
@[simp] theorem setThread_fatal (x : Wave) (l : Nat) (t : Thread) : (setThread x l t).fatal = x.fatal := rfl
@[simp] theorem modThread_fatal (x : Wave) (l : Nat) (f : Thread → Thread) :
    (modThread x l f).fatal = x.fatal := by unfold modThread; split <;> rfl
@[simp] theorem setThread_runOn (x : Wave) (l : Nat) (t : Thread) : (setThread x l t).runOn = x.runOn := rfl
@[simp] theorem modThread_runOn (x : Wave) (l : Nat) (f : Thread → Thread) :
    (modThread x l f).runOn = x.runOn := by unfold modThread; split <;> rfl
@[simp] theorem setThread_limited (x : Wave) (l : Nat) (t : Thread) : (setThread x l t).limited = x.limited := rfl
@[simp] theorem modThread_limited (x : Wave) (l : Nat) (f : Thread → Thread) :
    (modThread x l f).limited = x.limited := by unfold modThread; split <;> rfl
@[simp] theorem setThread_yieldReq (x : Wave) (l : Nat) (t : Thread) : (setThread x l t).yieldReq = x.yieldReq := rfl
@[simp] theorem modThread_yieldReq (x : Wave) (l : Nat) (f : Thread → Thread) :
    (modThread x l f).yieldReq = x.yieldReq := by unfold modThread; split <;> rfl
@[simp] theorem setThread_safeReq (x : Wave) (l : Nat) (t : Thread) : (setThread x l t).safeReq = x.safeReq := rfl
@[simp] theorem modThread_safeReq (x : Wave) (l : Nat) (f : Thread → Thread) :
    (modThread x l f).safeReq = x.safeReq := by unfold modThread; split <;> rfl
@[simp] theorem setThread_leaving (x : Wave) (l : Nat) (t : Thread) : (setThread x l t).leaving = x.leaving := rfl
@[simp] theorem modThread_leaving (x : Wave) (l : Nat) (f : Thread → Thread) :
    (modThread x l f).leaving = x.leaving := by unfold modThread; split <;> rfl
@[simp] theorem setThread_isBin (x : Wave) (l : Nat) (t : Thread) : (setThread x l t).isBin = x.isBin := rfl
@[simp] theorem modThread_isBin (x : Wave) (l : Nat) (f : Thread → Thread) :
    (modThread x l f).isBin = x.isBin := by unfold modThread; split <;> rfl
@[simp] theorem setThread_jobs (x : Wave) (l : Nat) (t : Thread) : (setThread x l t).jobs = x.jobs := rfl
@[simp] theorem modThread_jobs (x : Wave) (l : Nat) (f : Thread → Thread) :
    (modThread x l f).jobs = x.jobs := by unfold modThread; split <;> rfl
@[simp] theorem setGroup_wg (x : Wave) (g : Nat) (y : Group) : (setGroup x g y).wg = x.wg := rfl
@[simp] theorem dropGroup_wg (x : Wave) (g : Nat) : (dropGroup x g).wg = x.wg := rfl
@[simp] theorem setGroup_idx (x : Wave) (g : Nat) (y : Group) : (setGroup x g y).idx = x.idx := rfl
@[simp] theorem dropGroup_idx (x : Wave) (g : Nat) : (dropGroup x g).idx = x.idx := rfl
@[simp] theorem setGroup_ctx (x : Wave) (g : Nat) (y : Group) : (setGroup x g y).ctx = x.ctx := rfl
@[simp] theorem dropGroup_ctx (x : Wave) (g : Nat) : (dropGroup x g).ctx = x.ctx := rfl
@[simp] theorem setGroup_launch (x : Wave) (g : Nat) (y : Group) : (setGroup x g y).launch = x.launch := rfl
@[simp] theorem dropGroup_launch (x : Wave) (g : Nat) : (dropGroup x g).launch = x.launch := rfl
@[simp] theorem setGroup_live (x : Wave) (g : Nat) (y : Group) : (setGroup x g y).live = x.live := rfl
@[simp] theorem dropGroup_live (x : Wave) (g : Nat) : (dropGroup x g).live = x.live := rfl
@[simp] theorem setGroup_resident (x : Wave) (g : Nat) (y : Group) : (setGroup x g y).resident = x.resident := rfl
@[simp] theorem dropGroup_resident (x : Wave) (g : Nat) : (dropGroup x g).resident = x.resident := rfl
@[simp] theorem setGroup_core (x : Wave) (g : Nat) (y : Group) : (setGroup x g y).core = x.core := rfl
@[simp] theorem dropGroup_core (x : Wave) (g : Nat) : (dropGroup x g).core = x.core := rfl
@[simp] theorem setGroup_slot (x : Wave) (g : Nat) (y : Group) : (setGroup x g y).slot = x.slot := rfl
@[simp] theorem dropGroup_slot (x : Wave) (g : Nat) : (dropGroup x g).slot = x.slot := rfl
@[simp] theorem setGroup_regs (x : Wave) (g : Nat) (y : Group) : (setGroup x g y).regs = x.regs := rfl
@[simp] theorem dropGroup_regs (x : Wave) (g : Nat) : (dropGroup x g).regs = x.regs := rfl
@[simp] theorem setGroup_s (x : Wave) (g : Nat) (y : Group) : (setGroup x g y).s = x.s := rfl
@[simp] theorem dropGroup_s (x : Wave) (g : Nat) : (dropGroup x g).s = x.s := rfl
@[simp] theorem setGroup_d (x : Wave) (g : Nat) (y : Group) : (setGroup x g y).d = x.d := rfl
@[simp] theorem dropGroup_d (x : Wave) (g : Nat) : (dropGroup x g).d = x.d := rfl
@[simp] theorem setGroup_fpflags (x : Wave) (g : Nat) (y : Group) : (setGroup x g y).fpflags = x.fpflags := rfl
@[simp] theorem dropGroup_fpflags (x : Wave) (g : Nat) : (dropGroup x g).fpflags = x.fpflags := rfl
@[simp] theorem setGroup_hold (x : Wave) (g : Nat) (y : Group) : (setGroup x g y).hold = x.hold := rfl
@[simp] theorem dropGroup_hold (x : Wave) (g : Nat) : (dropGroup x g).hold = x.hold := rfl
@[simp] theorem setGroup_holdBegan (x : Wave) (g : Nat) (y : Group) : (setGroup x g y).holdBegan = x.holdBegan := rfl
@[simp] theorem dropGroup_holdBegan (x : Wave) (g : Nat) : (dropGroup x g).holdBegan = x.holdBegan := rfl
@[simp] theorem setGroup_tformer (x : Wave) (g : Nat) (y : Group) : (setGroup x g y).tformer = x.tformer := rfl
@[simp] theorem dropGroup_tformer (x : Wave) (g : Nat) : (dropGroup x g).tformer = x.tformer := rfl
@[simp] theorem setGroup_tfault (x : Wave) (g : Nat) (y : Group) : (setGroup x g y).tfault = x.tfault := rfl
@[simp] theorem dropGroup_tfault (x : Wave) (g : Nat) : (dropGroup x g).tfault = x.tfault := rfl
@[simp] theorem setGroup_tcause (x : Wave) (g : Nat) (y : Group) : (setGroup x g y).tcause = x.tcause := rfl
@[simp] theorem dropGroup_tcause (x : Wave) (g : Nat) : (dropGroup x g).tcause = x.tcause := rfl
@[simp] theorem setGroup_fid (x : Wave) (g : Nat) (y : Group) : (setGroup x g y).fid = x.fid := rfl
@[simp] theorem dropGroup_fid (x : Wave) (g : Nat) : (dropGroup x g).fid = x.fid := rfl
@[simp] theorem setGroup_pmc (x : Wave) (g : Nat) (y : Group) : (setGroup x g y).pmc = x.pmc := rfl
@[simp] theorem dropGroup_pmc (x : Wave) (g : Nat) : (dropGroup x g).pmc = x.pmc := rfl
@[simp] theorem setGroup_threads (x : Wave) (g : Nat) (y : Group) : (setGroup x g y).threads = x.threads := rfl
@[simp] theorem dropGroup_threads (x : Wave) (g : Nat) : (dropGroup x g).threads = x.threads := rfl
@[simp] theorem setGroup_nextGroup (x : Wave) (g : Nat) (y : Group) : (setGroup x g y).nextGroup = x.nextGroup := rfl
@[simp] theorem dropGroup_nextGroup (x : Wave) (g : Nat) : (dropGroup x g).nextGroup = x.nextGroup := rfl
@[simp] theorem setGroup_gathers (x : Wave) (g : Nat) (y : Group) : (setGroup x g y).gathers = x.gathers := rfl
@[simp] theorem dropGroup_gathers (x : Wave) (g : Nat) : (dropGroup x g).gathers = x.gathers := rfl
@[simp] theorem setGroup_nextGather (x : Wave) (g : Nat) (y : Group) : (setGroup x g y).nextGather = x.nextGather := rfl
@[simp] theorem setGroup_issues (x : Wave) (g : Nat) (y : Group) : (setGroup x g y).issues = x.issues := rfl
@[simp] theorem setGroup_wrote (x : Wave) (g : Nat) (y : Group) : (setGroup x g y).wrote = x.wrote := rfl
@[simp] theorem dropGroup_nextGather (x : Wave) (g : Nat) : (dropGroup x g).nextGather = x.nextGather := rfl
@[simp] theorem dropGroup_issues (x : Wave) (g : Nat) : (dropGroup x g).issues = x.issues := rfl
@[simp] theorem dropGroup_wrote (x : Wave) (g : Nat) : (dropGroup x g).wrote = x.wrote := rfl
@[simp] theorem setGroup_first (x : Wave) (g : Nat) (y : Group) : (setGroup x g y).first = x.first := rfl
@[simp] theorem dropGroup_first (x : Wave) (g : Nat) : (dropGroup x g).first = x.first := rfl
@[simp] theorem setGroup_fatal (x : Wave) (g : Nat) (y : Group) : (setGroup x g y).fatal = x.fatal := rfl
@[simp] theorem dropGroup_fatal (x : Wave) (g : Nat) : (dropGroup x g).fatal = x.fatal := rfl
@[simp] theorem setGroup_runOn (x : Wave) (g : Nat) (y : Group) : (setGroup x g y).runOn = x.runOn := rfl
@[simp] theorem dropGroup_runOn (x : Wave) (g : Nat) : (dropGroup x g).runOn = x.runOn := rfl
@[simp] theorem setGroup_limited (x : Wave) (g : Nat) (y : Group) : (setGroup x g y).limited = x.limited := rfl
@[simp] theorem dropGroup_limited (x : Wave) (g : Nat) : (dropGroup x g).limited = x.limited := rfl
@[simp] theorem setGroup_yieldReq (x : Wave) (g : Nat) (y : Group) : (setGroup x g y).yieldReq = x.yieldReq := rfl
@[simp] theorem dropGroup_yieldReq (x : Wave) (g : Nat) : (dropGroup x g).yieldReq = x.yieldReq := rfl
@[simp] theorem setGroup_safeReq (x : Wave) (g : Nat) (y : Group) : (setGroup x g y).safeReq = x.safeReq := rfl
@[simp] theorem dropGroup_safeReq (x : Wave) (g : Nat) : (dropGroup x g).safeReq = x.safeReq := rfl
@[simp] theorem setGroup_leaving (x : Wave) (g : Nat) (y : Group) : (setGroup x g y).leaving = x.leaving := rfl
@[simp] theorem dropGroup_leaving (x : Wave) (g : Nat) : (dropGroup x g).leaving = x.leaving := rfl
@[simp] theorem setGroup_isBin (x : Wave) (g : Nat) (y : Group) : (setGroup x g y).isBin = x.isBin := rfl
@[simp] theorem dropGroup_isBin (x : Wave) (g : Nat) : (dropGroup x g).isBin = x.isBin := rfl
@[simp] theorem setGroup_jobs (x : Wave) (g : Nat) (y : Group) : (setGroup x g y).jobs = x.jobs := rfl
@[simp] theorem dropGroup_jobs (x : Wave) (g : Nat) : (dropGroup x g).jobs = x.jobs := rfl
@[simp] theorem thread_setThread_self (x : Wave) (l : Nat) (t : Thread) : thread (setThread x l t) l = t := by
  simp [thread, setThread]
@[simp] theorem group_setGroup_self (x : Wave) (g : Nat) (y : Group) : group (setGroup x g y) g = y := by
  simp [group, setGroup]

/-! ### A thread that takes up its run -/

@[simp] theorem goTo_workid (t : Thread) (pc : DWord) : (goTo t pc).workid = t.workid := rfl
@[simp] theorem goTo_depth (t : Thread) (pc : DWord) : (goTo t pc).depth = t.depth := rfl
@[simp] theorem goTo_launch (t : Thread) (pc : DWord) : (goTo t pc).launch = t.launch := rfl
@[simp] theorem goTo_paint (t : Thread) (pc : DWord) : (goTo t pc).paint = t.paint := rfl
@[simp] theorem goTo_v (t : Thread) (pc : DWord) : (goTo t pc).v = t.v := rfl
@[simp] theorem goTo_c (t : Thread) (pc : DWord) : (goTo t pc).c = t.c := rfl
@[simp] theorem goTo_tpc (t : Thread) (pc : DWord) : (goTo t pc).tpc = t.tpc := rfl
@[simp] theorem goTo_taddr (t : Thread) (pc : DWord) : (goTo t pc).taddr = t.taddr := rfl
@[simp] theorem goTo_breg (t : Thread) (pc : DWord) : (goTo t pc).breg = t.breg := rfl
@[simp] theorem goTo_arr (t : Thread) (pc : DWord) : (goTo t pc).arr = t.arr := rfl
@[simp] theorem goTo_rings (t : Thread) (pc : DWord) : (goTo t pc).rings = t.rings := rfl
@[simp] theorem goTo_run (t : Thread) (pc : DWord) : (goTo t pc).run = t.run := rfl
@[simp] theorem goTo_mark (t : Thread) (pc : DWord) : (goTo t pc).mark = t.mark := rfl
@[simp] theorem goTo_markLead (t : Thread) (pc : DWord) : (goTo t pc).markLead = t.markLead := rfl
@[simp] theorem goTo_markInst (t : Thread) (pc : DWord) : (goTo t pc).markInst = t.markInst := rfl
@[simp] theorem goTo_issued (t : Thread) (pc : DWord) : (goTo t pc).issued = t.issued := rfl
@[simp] theorem goTo_pgVa (t : Thread) (pc : DWord) : (goTo t pc).pgVa = t.pgVa := rfl
@[simp] theorem goTo_pgKind (t : Thread) (pc : DWord) : (goTo t pc).pgKind = t.pgKind := rfl
@[simp] theorem goTo_pgLevel (t : Thread) (pc : DWord) : (goTo t pc).pgLevel = t.pgLevel := rfl
@[simp] theorem goTo_pgMask (t : Thread) (pc : DWord) : (goTo t pc).pgMask = t.pgMask := rfl
@[simp] theorem goTo_pgReq (t : Thread) (pc : DWord) : (goTo t pc).pgReq = t.pgReq := rfl
@[simp] theorem goTo_pgOrd (t : Thread) (pc : DWord) : (goTo t pc).pgOrd = t.pgOrd := rfl
@[simp] theorem goTo_pts (t : Thread) (pc : DWord) : (goTo t pc).pts = t.pts := rfl
@[simp] theorem goTo_evSeq (t : Thread) (pc : DWord) : (goTo t pc).evSeq = t.evSeq := rfl
@[simp] theorem goTo_runOn (t : Thread) (pc : DWord) : (goTo t pc).runOn = t.runOn := rfl
@[simp] theorem goTo_kseq (t : Thread) (pc : DWord) : (goTo t pc).kseq = t.kseq := rfl
@[simp] theorem goTo_nAtom (t : Thread) (pc : DWord) : (goTo t pc).nAtom = t.nAtom := rfl
@[simp] theorem goTo_nTicks (t : Thread) (pc : DWord) : (goTo t pc).nTicks = t.nTicks := rfl
@[simp] theorem goTo_pc (t : Thread) (pc : DWord) : (goTo t pc).pc = pc := rfl
@[simp] theorem goTo_inst (t : Thread) (pc : DWord) : (goTo t pc).inst = none := rfl
@[simp] theorem goTo_wait (t : Thread) (pc : DWord) : (goTo t pc).wait = .none := rfl
@[simp] theorem goTo_lead (t : Thread) (pc : DWord) : (goTo t pc).lead = false := rfl

end Sys2Proof.Machine
end

