-- ==== Sys2Proof/Laws/Members.lean ====
section
/-!
SUPPORT. An instruction that runs member by member, for a thread alone in its group: what it does with each outcome of
that member, and what finishing a wait does.
-/

namespace Sys2Proof.Machine
set_option Elab.async false

variable {s : State} {x : Wave} {y : Group} {l : Nat} {t : Thread}

theorem modWave_modWave (dev : Device) (w : Nat) (f g : Wave → Wave) :
    modWave (modWave dev w f) w g = modWave dev w (g ∘ f) := by
  cases h : NMap.find? dev.waves w with
  | none => simp [modWave, h]
  | some z =>
    have h1 : ∀ k : Wave → Wave, modWave dev w k = setWave dev w (k z) := fun k => by unfold modWave; rw [h]
    rw [h1, h1]
    unfold modWave
    have h3 : NMap.find? (setWave dev w (f z)).waves w = some (f z) := by simp [setWave]
    rw [h3]
    simp only [setWave, NMap.put_put]
    rfl

theorem modWave_of_find {dev : Device} {w : Nat} {z : Wave} (f : Wave → Wave) (h : NMap.find? dev.waves w = some z) :
    modWave dev w f = setWave dev w (f z) := by unfold modWave; rw [h]

/-! ### A thread alone -/

theorem Alone.wave_eq (h : Alone s x y l t) : Machine.wave s.dev s.dev.cur.1 = x := wave_of_find h.wave

theorem Alone.find_group (h : Alone s x y l t) : NMap.find? x.groups s.dev.cur.2 = some y := by
  rw [h.groups]; simp [NMap.find?]

theorem Alone.group_eq (h : Alone s x y l t) : Machine.group x s.dev.cur.2 = y := group_of_find h.find_group

theorem Alone.thread_eq (h : Alone s x y l t) : Machine.thread x l = t := thread_of_find h.thread

theorem Alone.issues (h : Alone s x y l t) : Issues s x y where
  wave := h.wave
  group := h.find_group
  fresh := h.fresh
  nodup := by simp [h.lanes]
  here := by simp [h.lanes, h.thread]

theorem Alone.actors (h : Alone s x y l t) {p : Pred} (hp : performs p t = true) : actors x y p = [l] := by
  simp [Machine.actors, h.fresh, h.lanes, h.thread_eq, hp]

theorem Alone.performers (h : Alone s x y l t) {p : Pred} (hp : performs p t = true) : performers x y p = [l] := by
  simp [Machine.performers, h.lanes, h.thread_eq, hp]

/-- The wave once the instruction has begun, at TICKS `now`, for the thread alone (R108, R111, R239). -/
def begun (x : Wave) (g : Nat) (y : Group) (l now : Nat) : Wave :=
  setGroup (modThread x l fun t => { t with issued := now }) g
    { y with began := true, lead := some l, s0 := x.s, d0 := x.d, mask := laneMask [l] }

theorem Alone.begin (h : Alone s x y l t) {p : Pred} (hp : performs p t = true) (now : Nat) :
    beginGroup x s.dev.cur.2 p now = begun x s.dev.cur.2 y l now := by
  simp [beginGroup, begun, h.group_eq, h.fresh, h.actors hp, h.lanes]

/-- The device once the instruction has begun. -/
def begunDev (s : State) (x : Wave) (y : Group) (l : Nat) : Device :=
  setWave s.dev s.dev.cur.1 (begun x s.dev.cur.2 y l s.dev.ticks)

theorem spendCut_none {dev : Device} (h : dev.cut = none) : spendCut dev = (true, dev) := by unfold spendCut; rw [h]

/-- The member that acted alone, where it performed an event (R195). -/
def lastActor (dev : Device) (w l n : Nat) : Option Nat := if (threadAt dev w l).evSeq = n then none else some l

theorem Alone.find_begun (h : Alone s x y l t) (now : Nat) :
    NMap.find? (begun x s.dev.cur.2 y l now).threads l = some { t with issued := now } := by
  simp [begun, find_modThread, h.thread]

/-- Everything `members` does for a thread alone: its outcome is applied, and the group goes on where it has a result. -/
theorem members_alone (h : Alone s x y l t) {p : Pred} (hp : performs p t = true) (d : Option Reg)
    (f : Device → Wave → Thread → Nat → LaneRes × Device) :
    members s.dev p d f =
      settleFatal (modWave (applyTo (f (begunDev s x y l) x t l).2 s.dev.cur.1 l true d (laneMask [l])
          (f (begunDev s x y l) x t l).1) s.dev.cur.1 fun z =>
        settleGroup (members.noteAfter z s.dev.cur.2
          (lastActor (f (begunDev s x y l) x t l).2 s.dev.cur.1 l t.evSeq)) s.dev.cur.2) s.dev.cur.1 := by
  have h1 := h.wave; have h2 := h.wave_eq; have h3 := h.group_eq; have h4 := h.begin hp; have h5 := h.find_begun
  have h6 := h.whole.1; have h7 := h.whole.2
  unfold begunDev
  rcases hc : s.dev.cur with ⟨w, g⟩
  simp only [hc] at h1 h2 h3 h4 h5
  have h8 : operandsOf x y = x := by simp [operandsOf, h.fresh]
  have h11 : ∀ z, laterKept x y z = z := fun z => by simp [laterKept, h.fresh]
  have h9 : Machine.group (begun x g y l s.dev.ticks) g =
      { y with began := true, lead := some l, s0 := x.s, d0 := x.d, mask := laneMask [l] } :=
    group_of_find (by simp [begun, setGroup])
  have h0 : issueMask y = laneMask [l] := by simp [issueMask, h.fresh, h.lanes]
  have h10 : (threadAt (setWave s.dev w (begun x g y l s.dev.ticks)) w l).evSeq = t.evSeq := by
    simp [threadAt, thread_of_find (h5 _)]
  unfold members
  simp only [hc, h2, h3, h.actors hp, List.foldl_cons, List.foldl_nil, modWave_of_find _ h1, h4, wave_setWave_self,
    h.thread_eq, h0, h7, h8, h9, h11, walkOne, spendCut_none (show (setWave s.dev w _).cut = none from h6), h10,
    Bool.not_true, Bool.false_eq_true, if_false, beq_self_eq_true]
  rfl

/-- Everything `once` does for a thread alone. -/
theorem once_alone (h : Alone s x y l t) {p : Pred} (hp : performs p t = true) (d : Option Reg)
    (f : Device → Wave → Thread → Nat → LaneRes × Device) :
    once s.dev p d f =
      settleFatal (modWave (applyTo (f (begunDev s x y l) x t l).2 s.dev.cur.1 l true d (laneMask [l])
          (f (begunDev s x y l) x t l).1) s.dev.cur.1 fun z => settleGroup z s.dev.cur.2) s.dev.cur.1 := by
  have h1 := h.wave; have h2 := h.wave_eq; have h3 := h.group_eq; have h4 := h.begin hp
  have h6 := h.whole.1
  unfold begunDev
  rcases hc : s.dev.cur with ⟨w, g⟩
  simp only [hc] at h1 h2 h3 h4
  have h8 : operandsOf x y = x := by simp [operandsOf, h.fresh]
  have h11 : ∀ z, laterKept x y z = z := fun z => by simp [laterKept, h.fresh]
  have h9 : Machine.group (begun x g y l s.dev.ticks) g =
      { y with began := true, lead := some l, s0 := x.s, d0 := x.d, mask := laneMask [l] } :=
    group_of_find (by simp [begun, setGroup])
  have h0 : issueMask y = laneMask [l] := by simp [issueMask, h.fresh, h.lanes]
  unfold once
  simp only [hc, h2, h3, h.actors hp, List.foldl_cons, List.foldl_nil,
    modWave_of_find _ h1, h4, wave_setWave_self, h.thread_eq, h0, h8, h9, h11,
    spendCut_none (show (setWave s.dev w _).cut = none from h6), if_true, beq_self_eq_true]

theorem settleFatal_none {dev : Device} {w : Nat} (h : (wave dev w).fatal = none) : settleFatal dev w = dev := by
  unfold settleFatal; rw [h]

/-! ### What each outcome leaves -/

variable {z : Wave} {g : Nat} {y' : Group} {u : Thread}

theorem applyRes_done_eq (z : Wave) (l : Nat) (lead : Bool) (d : Option Reg) (m : DWord) (n : Nat) (o : LaneOut) :
    applyRes z l lead d m n (.done o) =
      modThread (raiseFlags (writeOut z l lead d o) o.fl) l fun t => { t with wait := .hold, lead := false } := rfl

@[simp] theorem raiseFlags_threads (z : Wave) (fl : BitVec 6) : (raiseFlags z fl).threads = z.threads := rfl
@[simp] theorem raiseFlags_groups (z : Wave) (fl : BitVec 6) : (raiseFlags z fl).groups = z.groups := rfl
@[simp] theorem raiseFlags_s (z : Wave) (fl : BitVec 6) : (raiseFlags z fl).s = z.s := rfl
@[simp] theorem raiseFlags_fatal (z : Wave) (fl : BitVec 6) : (raiseFlags z fl).fatal = z.fatal := rfl

@[simp] theorem applyRes_done_groups (z : Wave) (l : Nat) (lead : Bool) (d : Option Reg) (m : DWord) (n : Nat)
    (o : LaneOut) : (applyRes z l lead d m n (.done o)).groups = z.groups := by
  rw [applyRes_done_eq, modThread_groups, raiseFlags_groups, writeOut_eq, modThread_groups]

@[simp] theorem applyRes_done_s (z : Wave) (l : Nat) (lead : Bool) (d : Option Reg) (m : DWord) (n : Nat)
    (o : LaneOut) : (applyRes z l lead d m n (.done o)).s = outS d lead o z.s := by
  rw [applyRes_done_eq, modThread_s, raiseFlags_s, writeOut_eq, modThread_s]

@[simp] theorem applyRes_done_fatal (z : Wave) (l : Nat) (lead : Bool) (d : Option Reg) (m : DWord) (n : Nat)
    (o : LaneOut) : (applyRes z l lead d m n (.done o)).fatal = z.fatal := by
  rw [applyRes_done_eq, modThread_fatal, raiseFlags_fatal, writeOut_eq, modThread_fatal]

/-- The member with a result has it in its registers and condition bits, and holds (R239). -/
theorem find_applyRes_done (hu : NMap.find? z.threads l = some u) (lead : Bool) (d : Option Reg) (m : DWord) (n : Nat)
    (o : LaneOut) :
    NMap.find? (applyRes z l lead d m n (.done o)).threads l =
      some { outThread d o u with wait := .hold, lead := false } := by
  rw [applyRes_done_eq, find_modThread, raiseFlags_threads, writeOut_eq, find_modThread]
  simp [hu]

/-- What `applyTo` does to the device of a result or a wait: the wave is changed. -/
theorem applyTo_done (dev : Device) (w l : Nat) (lead : Bool) (d : Option Reg) (m : DWord) (o : LaneOut) :
    applyTo dev w l lead d m (.done o) = modWave dev w fun z => applyRes z l lead d m dev.parkSeq (.done o) := rfl

theorem applyTo_wait (dev : Device) (w l : Nat) (lead : Bool) (d : Option Reg) (m : DWord) (wt : Wait) :
    applyTo dev w l lead d m (.wait wt) =
      modWave dev w fun z => modThread z l fun t => { t with wait := wt, lead := lead } := rfl

/-- Keeping the member of the latest event changes nothing else. -/
theorem noteAfter_eq (hg : NMap.find? z.groups g = some y') (k : Option Nat) :
    members.noteAfter z g k = z ∨ members.noteAfter z g k = setGroup z g { y' with after := k } := by
  unfold members.noteAfter
  rw [hg]
  dsimp only
  split
  · exact .inl rfl
  · exact .inr rfl

@[simp] theorem noteAfter_threads (z : Wave) (g : Nat) (k : Option Nat) : (members.noteAfter z g k).threads = z.threads := by
  unfold members.noteAfter; split
  · split <;> rfl
  · rfl

@[simp] theorem noteAfter_fatal (z : Wave) (g : Nat) (k : Option Nat) : (members.noteAfter z g k).fatal = z.fatal := by
  unfold members.noteAfter; split
  · split <;> rfl
  · rfl

/-- A group of one member that holds goes on (R239). -/
theorem settleGroup_hold (hg : NMap.find? z.groups g = some y') (hl : y'.lanes = [l]) (hw : (thread z l).wait = .hold) :
    settleGroup z g = advance z g := by
  unfold settleGroup
  rw [hg]
  simp [hl, allHold, hw]

theorem settleGroup_noted (hg : NMap.find? z.groups g = some y') (hl : y'.lanes = [l]) (hw : (thread z l).wait = .hold)
    (k : Option Nat) : settleGroup (members.noteAfter z g k) g = advance z g := by
  rcases noteAfter_eq hg k with h | h <;> rw [h]
  · exact settleGroup_hold hg hl hw
  · have hw' : (thread (setGroup z g { y' with after := k }) l).wait = .hold := hw
    rw [settleGroup_hold (y' := { y' with after := k }) (by simp [setGroup]) hl hw', advance_setGroup k hg]

/-- A member that does not hold keeps the group where it is (R239). -/
theorem settleGroup_stays (hg : NMap.find? z.groups g = some y') (hl : y'.lanes = [l]) (hw : (thread z l).wait ≠ .hold) :
    settleGroup z g = z := by
  unfold settleGroup
  rw [hg]
  simp [hl, allHold, hw]

@[simp] theorem advance_fatal (x : Wave) (g : Nat) : (advance x g).fatal = x.fatal := by rw [advance_frame]

/-- A thread alone whose member completes: its wave has the results, and the group goes on; nothing else changes but
what the member's own execution changed. -/
theorem members_done (h : Alone s x y l t) {p : Pred} (hp : performs p t = true) (d : Option Reg)
    {f : Device → Wave → Thread → Nat → LaneRes × Device} {o : LaneOut} {dev1 : Device}
    (hf : f (begunDev s x y l) x t l = (.done o, dev1)) (hz : NMap.find? dev1.waves s.dev.cur.1 = some z)
    (hg : NMap.find? z.groups s.dev.cur.2 = some y') (hl : y'.lanes = [l]) (hu : NMap.find? z.threads l = some u)
    (hq : z.fatal = none) :
    members s.dev p d f =
      setWave dev1 s.dev.cur.1 (advance (applyRes z l true d (laneMask [l]) dev1.parkSeq (.done o)) s.dev.cur.2) := by
  rw [members_alone h hp, hf]
  dsimp only
  rw [applyTo_done, modWave_modWave, modWave_of_find _ hz, Function.comp,
    settleGroup_noted (by simpa using hg) hl (by rw [thread_of_find (find_applyRes_done hu ..)]), settleFatal_none]
  simp [hq]

/-- A thread alone whose member waits: it alone is changed, and the member of the latest event is kept. -/
theorem members_wait (h : Alone s x y l t) {p : Pred} (hp : performs p t = true) (d : Option Reg)
    {f : Device → Wave → Thread → Nat → LaneRes × Device} {wt : Wait} {dev1 : Device} (hw : wt ≠ .hold)
    (hf : f (begunDev s x y l) x t l = (.wait wt, dev1)) (hz : NMap.find? dev1.waves s.dev.cur.1 = some z)
    (hg : NMap.find? z.groups s.dev.cur.2 = some y') (hl : y'.lanes = [l]) (hu : NMap.find? z.threads l = some u)
    (hq : z.fatal = none) :
    members s.dev p d f =
      setWave dev1 s.dev.cur.1 (members.noteAfter (modThread z l fun t => { t with wait := wt, lead := true })
        s.dev.cur.2 (lastActor dev1 s.dev.cur.1 l t.evSeq)) := by
  have ht : NMap.find? (modThread z l fun t => { t with wait := wt, lead := true }).threads l =
      some { u with wait := wt, lead := true } := by rw [find_modThread]; simp [hu]
  rw [members_alone h hp, hf]
  dsimp only
  rw [applyTo_wait, modWave_modWave, modWave_of_find _ hz, Function.comp]
  have key : ∀ k, settleGroup (members.noteAfter (modThread z l fun t => { t with wait := wt, lead := true })
      s.dev.cur.2 k) s.dev.cur.2 =
      members.noteAfter (modThread z l fun t => { t with wait := wt, lead := true }) s.dev.cur.2 k := by
    intro k
    have hg' : NMap.find? (modThread z l fun t => { t with wait := wt, lead := true }).groups s.dev.cur.2 = some y' := by
      simpa using hg
    rcases noteAfter_eq hg' k with e | e <;> rw [e]
    · exact settleGroup_stays hg' hl (by rw [thread_of_find ht]; exact hw)
    · exact settleGroup_stays (y' := { y' with after := k }) (by simp [setGroup]) hl
        (by rw [thread, setGroup_threads]; exact fun c => hw (by rw [← c]; simp [NMap.get, ht]))
  rw [key, settleFatal_none]
  simp [hq]

/-- The same of an instruction that acts once for the group. -/
theorem once_done (h : Alone s x y l t) {p : Pred} (hp : performs p t = true) (d : Option Reg)
    {f : Device → Wave → Thread → Nat → LaneRes × Device} {o : LaneOut} {dev1 : Device}
    (hf : f (begunDev s x y l) x t l = (.done o, dev1)) (hz : NMap.find? dev1.waves s.dev.cur.1 = some z)
    (hg : NMap.find? z.groups s.dev.cur.2 = some y') (hl : y'.lanes = [l]) (hu : NMap.find? z.threads l = some u)
    (hq : z.fatal = none) :
    once s.dev p d f =
      setWave dev1 s.dev.cur.1 (advance (applyRes z l true d (laneMask [l]) dev1.parkSeq (.done o)) s.dev.cur.2) := by
  rw [once_alone h hp, hf]
  dsimp only
  rw [applyTo_done, modWave_modWave, modWave_of_find _ hz, Function.comp,
    settleGroup_hold (by simpa using hg) hl (by rw [thread_of_find (find_applyRes_done hu ..)]), settleFatal_none]
  simp [hq]

theorem once_wait (h : Alone s x y l t) {p : Pred} (hp : performs p t = true) (d : Option Reg)
    {f : Device → Wave → Thread → Nat → LaneRes × Device} {wt : Wait} {dev1 : Device} (hw : wt ≠ .hold)
    (hf : f (begunDev s x y l) x t l = (.wait wt, dev1)) (hz : NMap.find? dev1.waves s.dev.cur.1 = some z)
    (hg : NMap.find? z.groups s.dev.cur.2 = some y') (hl : y'.lanes = [l]) (hu : NMap.find? z.threads l = some u)
    (hq : z.fatal = none) :
    once s.dev p d f =
      setWave dev1 s.dev.cur.1 (modThread z l fun t => { t with wait := wt, lead := true }) := by
  have ht : NMap.find? (modThread z l fun t => { t with wait := wt, lead := true }).threads l =
      some { u with wait := wt, lead := true } := by rw [find_modThread]; simp [hu]
  rw [once_alone h hp, hf]
  dsimp only
  rw [applyTo_wait, modWave_modWave, modWave_of_find _ hz, Function.comp,
    settleGroup_stays (by simpa using hg) hl (by rw [thread_of_find ht]; exact hw), settleFatal_none]
  simp [hq]

/-- The wave as the instruction began, for a member that leaves its own wave alone. -/
theorem Alone.begun_facts (h : Alone s x y l t) :
    NMap.find? (begunDev s x y l).waves s.dev.cur.1 = some (begun x s.dev.cur.2 y l s.dev.ticks) ∧
    NMap.find? (begun x s.dev.cur.2 y l s.dev.ticks).groups s.dev.cur.2 =
      some { y with began := true, lead := some l, s0 := x.s, d0 := x.d, mask := laneMask [l] } ∧
    NMap.find? (begun x s.dev.cur.2 y l s.dev.ticks).threads l = some { t with issued := s.dev.ticks } ∧
    (begun x s.dev.cur.2 y l s.dev.ticks).fatal = none := by
  refine ⟨by simp [begunDev, setWave], by simp [begun, setGroup], h.find_begun _, ?_⟩
  simp [begun, h.quiet.2.2]

/-! ### Reading the result -/

/-- A wave whose group has gone on from its instruction. -/
theorem passed_advance {s' : State} (hw : NMap.find? s'.dev.waves s.dev.cur.1 = some (advance z s.dev.cur.2))
    (hg : NMap.find? z.groups s.dev.cur.2 = some { y with began := true, lead := some l, s0 := x.s, d0 := x.d, mask := laneMask [l] })
    (nd : y.lanes.Nodup)
    (here : ∀ j ∈ y.lanes, (NMap.find? z.threads j).isSome) : Passed s s' y := by
  have ha : after s s' = advance z s.dev.cur.2 := wave_of_find hw
  unfold Passed
  rw [ha, group_advance hg]
  dsimp only
  split
  · rfl
  · refine ⟨rfl, fun j hj => ?_⟩
    obtain ⟨v, hv⟩ := Option.isSome_iff_exists.1 (here j hj)
    have := find_advance hg nd j
    rw [if_pos hj, hv] at this
    rw [thread_of_find this]
    rename_i hi
    simp [hi, goTo, nextClause]

/-- Words written from a destination on read back from it. -/
theorem getD_putWords (m : NMap Word) (n : Nat) (ws : List Word) :
    (List.range ws.length).map (fun i => NMap.get 0 (putWords m n ws) (n + i)) = ws := by
  apply List.ext_getElem
  · simp
  · intro i h1 h2
    simp only [List.getElem_map, List.getElem_range, get_putWords]
    simp [h2]

/-- The destination of a member that led its group holds its words, once the group has gone on. -/
theorem regsOf_done {s' : State} {d : Reg} {o : LaneOut} (m : DWord) (n : Nat)
    (hw : NMap.find? s'.dev.waves s.dev.cur.1 =
      some (advance (applyRes z l true (some d) m n (.done o)) s.dev.cur.2))
    (hg : NMap.find? z.groups s.dev.cur.2 = some y') (hl : y'.lanes = [l]) (hu : NMap.find? z.threads l = some u) :
    regsOf (after s s') l d o.ws.length = o.ws := by
  have ha : after s s' = advance (applyRes z l true (some d) m n (.done o)) s.dev.cur.2 := wave_of_find hw
  have hg1 : NMap.find? (applyRes z l true (some d) m n (.done o)).groups s.dev.cur.2 = some y' := by simpa using hg
  have ht := find_advance hg1 (by simp [hl]) l
  rw [if_pos (by simp [hl]), find_applyRes_done hu] at ht
  unfold regsOf
  rw [ha]
  rcases d with k | k
  · have hv : (Machine.thread (advance (applyRes z l true (some (.v k)) m n (.done o)) s.dev.cur.2) l).v =
        putWords u.v k.val o.ws := by
      rw [thread_of_find ht]; split <;> simp [goTo]
    simp only [rdReg, hv, getD_putWords]
  · simp only [rdReg, advance_s, applyRes_done_s, outS, if_true]
    exact getD_putWords _ _ _

/-- Condition bits of the member after its result. -/
theorem cbit_done {s' : State} {d : Option Reg} {o : LaneOut} (m : DWord) (n : Nat)
    (hw : NMap.find? s'.dev.waves s.dev.cur.1 = some (advance (applyRes z l true d m n (.done o)) s.dev.cur.2))
    (hg : NMap.find? z.groups s.dev.cur.2 = some y') (hl : y'.lanes = [l]) (hu : NMap.find? z.threads l = some u)
    (k : CBit) :
    cbit (thread (after s s') l) k = cbit (outThread d o u) k := by
  have ha : after s s' = advance (applyRes z l true d m n (.done o)) s.dev.cur.2 := wave_of_find hw
  have hg1 : NMap.find? (applyRes z l true d m n (.done o)).groups s.dev.cur.2 = some y' := by simpa using hg
  have ht := find_advance hg1 (by simp [hl]) l
  rw [if_pos (by simp [hl]), find_applyRes_done hu] at ht
  rw [ha, thread_of_find ht]
  split <;> rfl

/-! ### Finishing a wait -/

theorem groupOf_alone {w g : Nat} {x : Wave} {wt : Wait} (h : WaitsAlone s w g x y l t wt) : groupOf x l = some g := by
  simp [groupOf, h.groups, h.lanes]

/-- Everything `finishWait` does for a thread that waits alone in its group: the results are in its registers, and the
group goes on. -/
theorem finishWait_alone {w g : Nat} {x : Wave} {wt : Wait} (h : WaitsAlone s w g x y l t wt) {dev : Device}
    (hw : NMap.find? dev.waves w = some x) (d : Option Reg) (o : LaneOut) :
    finishWait dev w l d o = setWave dev w (advance
      (modThread (writeLate x l d o) l fun t => { t with wait := .hold, lead := false }) g) := by
  unfold finishWait
  rw [modWave_of_find _ hw]
  simp only [groupOf_alone h]
  congr 1
  have ht : NMap.find? (modThread (writeLate x l d o) l
      fun t => { t with wait := .hold, lead := false }).threads l =
      some { outThread d o t with wait := .hold, lead := false } := by
    rw [find_modThread, writeLate, keepLater_threads, writeOut_eq, find_modThread]; simp [h.thread]
  have hg : NMap.find? (modThread (writeLate x l d o) l
      fun t => { t with wait := .hold, lead := false }).groups g = some y := by
    rw [modThread_groups, writeLate, keepLater_groups, writeOut_eq, modThread_groups]; simp [h.groups, NMap.find?]
  exact settleGroup_hold hg h.lanes (by rw [thread_of_find ht])

end Sys2Proof.Machine
end

