-- ==== Sys2Proof/Laws/Memory.lean ====
section
/-!
SUPPORT. Storage: every operation that writes memory or a scratchpad keeps its canonical form; reading a byte after
writing one; frames of a save area.
-/

namespace Sys2Proof.Machine
set_option Elab.async false

/-- Memory and every scratchpad are in canonical form. -/
def Device.memWf (dev : Device) : Prop := Memory.wf dev.mem = true ∧ ∀ p ∈ dev.wgs, Memory.wf p.2.mem = true

theorem mem_of_find? {α : Type} {m : NMap α} {k : Nat} {v : α} (h : NMap.find? m k = some v) : (k, v) ∈ m := by
  induction m with
  | nil => simp at h
  | cons p r ih =>
    obtain ⟨j, u⟩ := p
    rw [NMap.find?] at h
    split at h
    · next e => subst e; simp_all
    · exact List.mem_cons_of_mem _ (ih h)

/-- An entry of a map after a change is the new one or an old one. -/
theorem mem_put {α : Type} {m : NMap α} {k : Nat} {v : α} {p : Nat × α} (h : p ∈ NMap.put m k v) : p = (k, v) ∨ p ∈ m := by
  induction m with
  | nil => simpa [NMap.put] using h
  | cons q r ih =>
    obtain ⟨j, u⟩ := q
    rw [NMap.put] at h
    split at h
    · simpa using h
    · split at h
      · rcases List.mem_cons.1 h with e | e
        · exact .inl e
        · exact .inr (List.mem_cons_of_mem _ e)
      · rcases List.mem_cons.1 h with e | e
        · exact .inr (e ▸ List.mem_cons_self)
        · exact (ih e).imp id (List.mem_cons_of_mem _)

theorem modWg_memWf {dev : Device} (g : Nat) {f : Wg → Wg} (hf : ∀ x : Wg, Memory.wf x.mem = true → Memory.wf (f x).mem = true)
    (w : dev.memWf) : (modWg dev g f).memWf := by
  unfold modWg
  split
  · next x hx =>
    refine ⟨w.1, fun p hp => ?_⟩
    rcases mem_put hp with rfl | hp
    · exact hf x (w.2 _ (mem_of_find? hx))
    · exact w.2 p hp
  · exact w

theorem putByte_memWf {dev : Device} (l : Loc) (b : Byte) (w : dev.memWf) : (putByte dev l b).memWf := by
  cases l with
  | glob a => exact ⟨NMap.wf_set _ _ w.1, w.2⟩
  | scr g o => exact modWg_memWf g (fun _ h => NMap.wf_set _ _ h) w

/-- The log of former code words is no storage. -/
theorem logCode_storage (dev : Device) (a n : Nat) (m : Memory) :
    (logCode dev a n m).mem = dev.mem ∧ (logCode dev a n m).wgs = dev.wgs := by
  unfold logCode
  generalize List.map _ _ = ws
  suffices h : ∀ d : Device, d.mem = dev.mem ∧ d.wgs = dev.wgs →
      (ws.foldl (fun d w => if leNat (Memory.bytes dev.mem w 8) = leNat (Memory.bytes m w 8) then d
        else { d with codeLog := (d.codeSeq, w, BitVec.ofNat 64 (leNat (Memory.bytes dev.mem w 8))) :: d.codeLog
                      codeSeq := d.codeSeq + 1 }) d).mem = dev.mem ∧
      (ws.foldl (fun d w => if leNat (Memory.bytes dev.mem w 8) = leNat (Memory.bytes m w 8) then d
        else { d with codeLog := (d.codeSeq, w, BitVec.ofNat 64 (leNat (Memory.bytes dev.mem w 8))) :: d.codeLog
                      codeSeq := d.codeSeq + 1 }) d).wgs = dev.wgs from h dev ⟨rfl, rfl⟩
  induction ws with
  | nil => exact fun d h => h
  | cons w ws ih =>
    intro d h
    rw [List.foldl_cons]
    apply ih
    split
    · exact h
    · exact h

theorem putBytes_memWf {dev : Device} (l : Loc) (bs : List Byte) (w : dev.memWf) : (putBytes dev l bs).memWf := by
  cases l with
  | glob a => exact ⟨Memory.wf_putBytes _ _ w.1, (logCode_storage dev a bs.length _).2 ▸ w.2⟩
  | scr g o => exact modWg_memWf g (fun _ h => Memory.wf_putBytes _ _ h) w

theorem setPts_storage (dev : Device) (who : Who) (n : Nat) :
    (setPts dev who n).mem = dev.mem ∧ (setPts dev who n).wgs = dev.wgs := by
  cases who
  · simp only [setPts, modThreadAt, modWave]; split <;> exact ⟨rfl, rfl⟩
  all_goals exact ⟨rfl, rfl⟩

theorem stampRead_storage (dev : Device) (who : Who) (l : Loc) :
    (stampRead dev who l).mem = dev.mem ∧ (stampRead dev who l).wgs = dev.wgs := setPts_storage _ _ _

theorem stampWrite_storage (dev : Device) (who : Who) (l : Loc) :
    (stampWrite dev who l).mem = dev.mem ∧ (stampWrite dev who l).wgs = dev.wgs := setPts_storage _ _ _

theorem readAt_storage (dev : Device) (l : Loc) (n : Nat) :
    (readAt dev l n).2.mem = dev.mem ∧ (readAt dev l n).2.wgs = dev.wgs := by
  unfold readAt; split <;> exact ⟨rfl, rfl⟩

/-- Reading moves time stamps and nothing of storage. -/
theorem readSpans_storage (dev : Device) (who : Who) (ls : List (Loc × Nat)) :
    (readSpans dev who ls).2.mem = dev.mem ∧ (readSpans dev who ls).2.wgs = dev.wgs := by
  induction ls generalizing dev with
  | nil => exact ⟨rfl, rfl⟩
  | cons p r ih =>
    obtain ⟨l, n⟩ := p
    have h := ih (stampRead (readAt dev l n).2 who l)
    have k := stampRead_storage (readAt dev l n).2 who l
    have j := readAt_storage dev l n
    exact ⟨h.1.trans (k.1.trans j.1), h.2.trans (k.2.trans j.2)⟩

theorem writeSpans_memWf {dev : Device} (who : Who) (ls : List (Loc × Nat)) (bs : List Byte) (w : dev.memWf) :
    (writeSpans dev who ls bs).memWf := by
  induction ls generalizing dev bs with
  | nil => exact w
  | cons p r ih =>
    obtain ⟨l, n⟩ := p
    refine ih _ (putBytes_memWf _ _ ?_)
    have k := stampWrite_storage dev who l
    exact ⟨k.1 ▸ w.1, k.2 ▸ w.2⟩

theorem engWrite_memWf {dev : Device} (who : Who) (g a : Nat) (bs : List Byte) (w : dev.memWf) :
    (engWrite dev who g a bs).memWf :=
  writeSpans_memWf _ _ _ w

theorem saggarStore_memWf {dev d : Device} {c va : Nat} {bs : List Byte} (h : saggarStore dev c va bs = .ok d) (w : dev.memWf) :
    d.memWf := by
  unfold saggarStore at h
  cases hs : directSpans dev c .store (sectorSpans va bs.length) <;> rw [hs] at h
  · cases h
  · cases h; exact writeSpans_memWf _ _ _ w

/-- The state after reset is in canonical form. -/
theorem reset_memWf : State.reset.dev.memWf := ⟨rfl, by simp [State.reset]⟩

/-- A byte after bytes are written at a place of main memory. -/
theorem getByte_putBytes_glob (dev : Device) (a : Nat) (bs : List Byte) (j : Nat) :
    getByte (putBytes dev (.glob a) bs) (.glob j) =
      if a ≤ j ∧ j < a + bs.length then bs.getD (j - a) 0 else getByte dev (.glob j) :=
  Memory.get_putBytes _ _ _ _

/-! ### Frames -/

theorem padTo_length (n : Nat) (bs : List Byte) : (padTo n bs).length = n := by simp [padTo]

/-- Counting a free value changes no translation. -/
theorem directSpans_free (dev : Device) (k c : Nat) (need : Need) (ls : List (Nat × Nat)) :
    directSpans { dev with free := k } c need ls = directSpans dev c need ls := by
  induction ls with
  | nil => rfl
  | cons p r ih =>
    obtain ⟨a, n⟩ := p
    simp only [directSpans, ih]
    rfl

/-- Where a frame of `n` bytes lies in a save area. -/
def framePlace (dev : Device) (c n : Nat) : Nat :=
  (ctx dev c).save + 65536 + Config.freeNat dev.free % ((ctx dev c).saveSize - 65536 - n + 1)

/-- A frame is written exactly where its place translates for writes, and read where it translates for reads. -/
theorem touchFrame_isSome (dev : Device) (c n : Nat) (write : Bool) :
    (touchFrame dev c n write).isSome =
      (directSpans dev c (if write then .store else .load) (sectorSpans (framePlace dev c n) n)).isOk := by
  have h1 := directSpans_free dev (dev.free + 1) c .load (sectorSpans (framePlace dev c n) n)
  have h2 := directSpans_free dev (dev.free + 1 + 1) c .store (sectorSpans (framePlace dev c n) n)
  cases write
  · simp only [touchFrame, freeNat, Bool.false_eq_true, if_false]
    change (match directSpans { dev with free := dev.free + 1 } c .load (sectorSpans (framePlace dev c n) n) with
      | .ok _ => some _ | .error _ => none).isSome = _
    rw [h1]
    cases directSpans dev c .load (sectorSpans (framePlace dev c n) n) <;> rfl
  · simp only [touchFrame, freeNat, freeBytes, if_true, saggarStore, padTo_length]
    change (match (directSpans { dev with free := dev.free + 1 + 1 } c .store (sectorSpans (framePlace dev c n) n)).map
        (fun ls => writeSpans { dev with free := dev.free + 1 + 1 } .saggar ls (padTo n (Config.freeBytes (dev.free + 1)))) with
      | .ok d3 => some d3 | .error _ => none).isSome = _
    rw [h2]
    cases directSpans dev c .store (sectorSpans (framePlace dev c n) n) <;> rfl

end Sys2Proof.Machine
end

