-- ==== Sys2Proof/Tests/Slice0.lean ====
section
/-!
SUPPORT. Tests: ill-formed terms that the checks refuse, words written out from the encoding tables, the worked examples of
the spec, and for every statement with hypotheses a state and operands that meet them.
-/

namespace Sys2Proof.Tests
set_option Elab.async false
open Sys2Proof Sys2Proof.Machine

/-! ### Ill-formed terms (WellFormed) -/

theorem test_wf_register_above_regs : Instr.wf 64 (.iadd .i32 false .always (.v 64) (.v 1) (.src (.v 2))) = false := by decide
theorem test_wf_register_below_regs : Instr.wf 64 (.iadd .i32 false .always (.v 63) (.v 1) (.src (.v 2))) = true := by decide
theorem test_wf_odd_pair : Instr.wf 128 (.imad .i64 false .always (.v 2) (.s 3) (.s 4) (.s 6)) = false := by decide
theorem test_wf_odd_quad : Instr.wf 128 (.mov .b128 .always (.v 4) (.s 6)) = false := by decide
theorem test_wf_immediate_predicate : Instr.wf 128 (.and false (.on true 0) (.v 1) (.v 2) (.imm 3)) = false := by decide
theorem test_wf_immediate_sat : Instr.wf 128 (.iadd .i32 true .always (.v 1) (.v 2) (.imm 3)) = false := by decide
theorem test_wf_immediate_modifier :
    Instr.wf 128 (.fadd .f32 .rn false ⟨true, false⟩ ⟨false, false⟩ .always (.v 1) (.v 2) (.imm 3)) = false := by decide
theorem test_wf_reduction_pair : Instr.wf 128 (.wred .and .f32 .rn .always (.v 1) (.v 2) (.s 4)) = false := by decide
theorem test_wf_reduction_rounding : Instr.wf 128 (.wred .max .f32 .rz .always (.v 1) (.v 2) (.s 4)) = false := by decide
theorem test_wf_atomic_pair : Instr.wf 128 (.atomn .maxix .i32 .always 0 (.v 1) (.v 2)) = false := by decide
theorem test_wf_conversion_sat : Instr.wf 128 (.cvt .i32 .i16 .rn true .always (.v 1) (.v 2)) = false := by decide
theorem test_wf_special_pair : Instr.wf 128 (.movs .ticks .always (.v 3)) = false := by decide

/-! ### Words (R101 to R106, R121 to R127): each field from the tables -/

/-- R121's example: `iadd.i32 v4, v1, 7`, code 215 being 7. -/
theorem test_word_iadd : decodeClass 0 128 0x0000401D70000000 = .ok (.iadd .i32 false .always (.v 4) (.v 1) (.src (.k 7))) := by
  decide
/-- R136's example: `icmp.lt.i32 c0, v3, 100` is I form. -/
theorem test_word_icmp : decodeClass 0 128 0x2080003200000064 = .ok (.icmp .i32 .lt .always 0 (.v 3) (.imm 100)) := by decide
theorem test_word_fadd : decodeClass 0 128 0x400010203000400C =
    .ok (.fadd .f32 .rz false ⟨false, false⟩ ⟨true, true⟩ .always (.v 1) (.v 2) (.src (.v 3))) := by decide
theorem test_word_ffma : decodeClass 0 128 0x4300502030590000 =
    .ok (.ffma .f32 .rn false ⟨false, false⟩ ⟨false, false⟩ ⟨false, false⟩ (.on false 1) (.v 5) (.v 2) (.v 3) (.v 5)) := by
  decide
theorem test_word_ld : decodeClass 1 128 0x00204C3050600000 = .ok (.ld .b32 .always (.v 4) 3 (.v 5) (.v 6)) := by decide
theorem test_word_atom : decodeClass 1 128 0x10402C1030400000 = .ok (.atom .add .f32 .always (.v 2) 1 (.v 3) (.v 4)) := by
  decide
theorem test_word_bra : decodeClass 2 128 0x00800000FFFFFFF8 = .ok (.bra 0xFFFFFFF8) := by decide
theorem test_word_bsync : decodeClass 3 128 0x0300300000000025 = .ok (.bsync 1 5 .always (.v 3)) := by decide
theorem test_word_skick : decodeClass 5 128 0x00003C201D000000 = .ok (.skick 0 .always (.v 3) 2 (.v 1) (.k 0)) := by decide
theorem test_word_trap : decodeClass 7 128 0x0200002000000007 = .ok (.trap .always 7 (.v 2)) := by decide
theorem test_word_cred : decodeClass 7 128 0x08005080C0000000 = .ok (.cred 0 .always (.v 5) (.v 8) (.v 12)) := by decide
theorem test_word_movs_workid : decodeClass 7 128 0x0000400000000001 = .ok (.movs .workid .always (.v 4)) := by decide
theorem test_word_cvt : decodeClass 0 128 0x7030405000002000 = .ok (.cvt .e4m3 .f32 .rn true .always (.v 4) (.v 5)) := by decide
theorem test_word_kloop : decodeClass 4 128 0x04028080C0001000 = .ok (.kloop true 0 .always (.v 40) (.v 8) (.v 12)) := by decide
theorem test_word_gscan : decodeClass 6 128 0x0401E00050000803 = .ok (.gscan 3 2 .always (.v 30) (.v 5)) := by decide
theorem test_word_gemit : decodeClass 6 128 0x0801BC0D0D000400 = .ok (.gemit (.mem false 0 (.k 0) (.k 0)) 0 1 .always (.v 27)) := by
  decide
theorem test_word_gblend : decodeClass 6 128 0x0700604000000000 = .ok (.gblend 0 .always (.v 6) (.v 4) (.v 0)) := by decide
theorem test_word_cbcast : decodeClass 7 128 0x09005080C0000400 = .ok (.cbcast 1 .always (.v 5) (.v 8) (.v 12)) := by decide
theorem test_word_sets_tpc : decodeClass 7 128 0x0100004000000008 = .ok (.sets .tpc .always (.v 4)) := by decide
theorem test_word_header : Header.of 0x6170000080000000 = ⟨6, 1, 7, 0, 0, 0, true, 0⟩ := by decide
/-- R74's example: BFEXT x5, x6, x7. -/
theorem test_word_bfext : decodeSaggar 0x0073128B = some (.bfext 5 6 7) := by decide

/-- R116: an unknown opcode, a reserved bit, a pair at an odd register, a branch that is not last. -/
theorem test_illegal_opcode : decodeWord 0 128 true false 0xFF00000000000000 = .error .illegalOpcode := by decide
theorem test_reserved_bit : decodeWord 0 128 true false 0x0000401D70000001 = .error .reservedField := by decide
theorem test_odd_pair : decodeWord 0 128 true false 0x0020501D70000000 = .error .reservedField := by decide
theorem test_branch_not_last : decodeWord 2 128 false false 0x00800000FFFFFFF8 = .error .illegalClause := by decide

/-! ### A small machine: one context, one launch, one workgroup of 4 KiB, one wave, one thread at its instruction -/

/-- A thread of lane 0 whose registers v0, v1, … hold `vs`. -/
def thr (vs : List Word) : Thread :=
  { pc := mkPc 0x1000 0, v := ((List.range vs.length).zip vs).filter fun p => p.2 != 0 }
/-- Its group, the only word of the clause. -/
def grp : Group := { clause := 0x1000, hdr := ⟨0, 1, 0, 0, 0, 0, false, 0⟩, index := 0, lanes := [0] }
def wav (t : Thread) : Wave :=
  { wg := 1, ctx := 0, launch := 1, live := true, resident := true, regs := 128, threads := [(0, t)], groups := [(0, grp)]
    nextGroup := 1 }
def wgp : Wg := { launch := 1, live := true, resident := true, scratch := 4096, waves := [2] }
def lau : Launch := { state := .released, cls := 3, nextWg := 1, liveWgs := 1, hdr := { regs := 128, extents := [1, 1, 1, 1, 1, 1] } }
/-- The machine of a wave `x` and a workgroup `g`. -/
def mk (x : Wave) (g : Wg) : State :=
  { dev := { ctxs := [(0, { cstate := 1, qcount := 1, ptroot := 0x200000, cls := 3, lockq := 4 })]
             launches := [(1, lau)], wgs := [(1, g)], waves := [(2, x)], nextId := 10, cur := (2, 0)
             mem := placePages [] } }
/-- Word `r` of the thread after instruction `i`. -/
def res (i : Instr) (vs : List Word) (r : Fin 128) : Option Word :=
  let s := mk (wav (thr vs)) wgp
  match exec i s with
  | .next s' => some (rdReg (after s s') (thread (after s s') 0) (.v r) 0)
  | _ => none

/-! ### The spec's worked examples -/

/-- R128: `iadd.n32.sat`: 0xFFFF_FFF0 + 0x20 gives 0xFFFF_FFFF. -/
theorem test_iadd_sat : res (.iadd .n32 true .always (.v 2) (.v 0) (.src (.v 1))) [0xFFFFFFF0, 0x20] 2 = some 0xFFFFFFFF := by
  decide
theorem test_iadd_wraps : res (.iadd .n32 false .always (.v 2) (.v 0) (.src (.v 1))) [0xFFFFFFF0, 0x20] 2 = some 0x10 := by
  decide
/-- R129: `imulh.n32`: 0x8000_0000 × 4 gives 2. -/
theorem test_imulh : res (.imulh false .always (.v 2) (.v 0) (.v 1)) [0x80000000, 4] 2 = some 2 := by decide
/-- R130: the least value under .sat. -/
theorem test_iabs_sat : res (.iabs false true .always (.v 1) (.v 0)) [0x80000000] 1 = some 0x7FFFFFFF := by decide
theorem test_ineg_least : res (.ineg false false .always (.v 1) (.v 0)) [0x80000000] 1 = some 0x80000000 := by decide
/-- R132: `sar.i32 v2, v2, 31` gives all ones for a negative value, and so does any greater amount. -/
theorem test_sar : res (.sar false .always (.v 0) (.v 0) (.imm 33)) [0x80000001] 0 = some 0xFFFFFFFF := by decide
theorem test_shl_width : res (.shl false .always (.v 0) (.v 0) (.imm 32)) [1] 0 = some 0 := by decide
/-- R134: CLZ of a zero pair gives 64. -/
theorem test_clz_zero : res (.clz true .always (.v 2) (.v 0)) [0, 0] 2 = some 64 := by decide
/-- R135: selector 0x0123 reverses the bytes. -/
theorem test_permb : res (.permb .always (.v 1) (.v 0) (.v 0) (.v 2)) [0x11223344, 0, 0x0123] 1 = some 0x44332211 := by decide
/-- R141: the weights of R41's byte. -/
theorem test_t3pk : res (.t3pk .always (.v 2) (.v 0)) [0x14D, 0] 2 = some 0x73 := by decide
theorem test_t3un : res (.t3un 0 .always (.v 2) (.v 0)) [0x73] 2 = some 0x14D := by decide
/-- R182's table: −∞, −1.0, and NaN with .nanhi. -/
theorem test_okey_minus_infinity : res (.okey false false .always (.v 2) (.v 0) (.v 1)) [0xFF800000, 5] 3 = some 0x007FFFFF := by
  decide
theorem test_okey_minus_one : res (.okey false false .always (.v 2) (.v 0) (.v 1)) [0xBF800000, 5] 3 = some 0x407FFFFF := by
  decide
/-- R8's line of values: 1.0 + 1.0 in FP32 and in the low half. -/
theorem test_fadd : res (.fadd .f32 .rn false ⟨false, false⟩ ⟨false, false⟩ .always (.v 2) (.v 0) (.src (.v 1)))
    [0x3F800000, 0x3F800000] 2 = some 0x40000000 := by decide
/-- R31: a NaN operand gives 0x7FC0_0000. -/
theorem test_fadd_nan : res (.fadd .f32 .rn false ⟨false, false⟩ ⟨false, false⟩ .always (.v 2) (.v 0) (.src (.v 1)))
    [0x7F800001, 0x3F800000] 2 = some 0x7FC00000 := by decide

/-- R286: the segment from (341, 455) to (171, 284) meets x = 256 at 370. -/
theorem test_crossing : (256, 370) ∈ (crossings (341, 455) (171, 284)).map Prod.snd := by decide
/-- FIPS 180-4: the digest of "abc" (R433). -/
theorem test_sha256_abc : sha256 [0x61, 0x62, 0x63] = [0xba, 0x78, 0x16, 0xbf, 0x8f, 0x01, 0xcf, 0xea, 0x41, 0x41, 0x40, 0xde,
    0x5d, 0xae, 0x22, 0x23, 0xb0, 0x03, 0x61, 0xa3, 0x96, 0x17, 0x7a, 0x9c, 0xb4, 0x10, 0xff, 0x61, 0xf2, 0x00, 0x15, 0xad] := by
  decide +kernel

/-! ### Witnesses: states and operands that meet the hypotheses of the statements -/

/-- The machine after a change of its device. -/
def onD (s : State) (f : Device → Device) : State := { s with dev := f s.dev }
/-- A record of byte elements (.b8) over all of `space`, from `base`, in bounds mode fault. -/
def rcd (base space : Nat) : BitVec 256 := BitVec.ofNat 256 (base + 2 ^ 64 * 4096 + 2 ^ 96 * 4096 + 2 ^ 128 + 2 ^ 202 * space)
/-- A wave of thread `t` with d0 over the scratchpad and d1 over main memory from 0x8000. -/
def wavR (t : Thread) : Wave := { wav t with d := [(0, rcd 0 1), (1, rcd 0x8000 0)] }
/-- v0 = 1: the mask of lane 0; v4 = 64, an offset. -/
def tA : Thread := thr [1, 0, 0, 0, 64]
def sA : State := mk (wavR tA) wgp
def xA : Wave := wavR tA

/-- No thread but `l` stands within an instruction. -/
theorem ordNone {x : Wave} {l o : Nat} (h : (x.threads.all fun p => p.1 == l || p.2.inst.isNone) = true) :
    ∀ m u, (m, u) ∈ x.threads → m ≠ l → u.inst.map Issued.ord ≠ some o := by
  intro m u hm hl
  have := List.all_eq_true.1 h _ hm
  simp_all

/-- RoundingIsCorrect: FP16 at 1, at the least value that overflows, just below it, and below half of the smallest normal. -/
theorem witness_rounds : |ratOf false 1 0| ≤ Fmt.max .f16 ∧ Fmt.max .f16 < |ratOf false 65520 0| ∧
    Fmt.max .f16 < |ratOf false 65519 0| := by decide +kernel
theorem witness_beyond : roundsBeyond .f16 .rn false (ratOf false 65520 0) ∧ ¬ roundsBeyond .f16 .rn false (ratOf false 65519 0) ∧
    isTiny .f16 .rn false (ratOf false 1 (-25)) := by
  simp only [roundsBeyond, isTiny]; decide +kernel

/-- FunctionsAreExact: 1.0, −0.5, 128, a value below −150, the least integer of a 2^n that is no overflow, and a subnormal. -/
theorem witness_functions : Fmt.f32.rat 0x3F800000 = ((1 : ℤ) : ℚ) ∧ Fmt.f32.rat 0x3F800000 = 2 ^ (0 : ℤ) ∧
    Fmt.f32.rat 0xBF000000 = ((-1 : ℤ) : ℚ) + 1 / 2 ∧ 128 ≤ Fmt.f32.rat 0x43000000 ∧ Fmt.f32.rat 0xC3160001 < -150 ∧
    Fmt.f32.rat 0xC3160000 = ((-150 : ℤ) : ℚ) ∧ 0 < Fmt.f32.rat 1 ∧ |Fmt.f32.rat 1| < Fmt.f32.least ∧
    (Fmt.f32.val 0x7F800001).isNan = true ∧ (Fmt.f16.val 0xFC00).isInf = true := by decide +kernel
theorem witness_functions_finite : ∀ x ∈ [0x3F800000, 0xBF000000, 0x43000000, 0xC3160001, 0xC3160000, 1], Fmt.f32.isFinite x := by
  intro x hx
  refine ⟨?_, ?_, ?_⟩ <;> revert x <;> decide +kernel

/-- A finite FP32 number is an integer of at most 24 bits times a power of two from 2^−149 on. -/
theorem rat_finite {z : Nat} (h : Fmt.f32.isFinite z) : ∃ (k : ℤ) (e : ℕ), |k| < 2 ^ 24 ∧ Fmt.f32.rat z = k * 2 ^ ((e : ℤ) - 149) := by
  obtain ⟨-, h1, h2⟩ := h
  have hf : bitsOf z 0 23 < 2 ^ 23 := by simp only [bitsOf]; omega
  have key : ∀ (n : Bool) (m e : ℕ), m < 2 ^ 24 → ∃ (k : ℤ) (e' : ℕ), |k| < 2 ^ 24 ∧
      ratOf n m ((e : ℤ) - 149) = k * 2 ^ ((e' : ℤ) - 149) := by
    intro n m e hm
    refine ⟨(if n then -1 else 1) * m, e, ?_, ?_⟩
    · cases n <;> simp <;> exact_mod_cast hm
    · cases n <;> simp [ratOf]
  have hv : Fmt.f32.val z = if bitsOf z 23 8 == 255 then (if bitsOf z 0 23 = 0 then .inf (bitsOf z 31 1 == 1) else .nan)
      else if bitsOf z 23 8 = 0 then .fin (bitsOf z 31 1 == 1) (bitsOf z 0 23) ((0 : ℕ) - 149)
      else .fin (bitsOf z 31 1 == 1) (2 ^ 23 + bitsOf z 0 23) ((bitsOf z 23 8 - 1 : ℕ) - 149) := by
    simp [Fmt.val, Fmt.eb, Fmt.mb, Fmt.qmin, Fmt.bias]
    rw [neg_add_eq_sub]; rfl
  unfold Fmt.rat
  rw [hv] at h1 h2 ⊢
  split at h1
  · split at h1
    · simp_all [FVal.isInf]
    · simp [FVal.isNan] at h1
  · rw [if_neg ‹_›]
    split
    · exact key _ _ 0 (by omega)
    · exact key _ _ _ (by omega)

/-- A number within half a unit of the last place of an FP32 number M × 2^E is rounded to it. -/
theorem rounded_near {r M : Nat} {E : ℕ} (hr : Fmt.f32.rat r = M * 2 ^ ((E : ℤ) - 149)) (h1 : Fmt.f32.isFinite r) (h2 : r / Fmt.f32.sb = 0)
    (hM : 2 ^ 23 < M ∧ M < 2 ^ 24) (hE : 100 ≤ E ∧ E ≤ 149) {q : ℚ} (hq : |q - Fmt.f32.rat r| < 2 ^ ((E : ℤ) - 150)) (hn : Fmt.f32.rat r ≠ q) :
    Rounded .f32 .rn false false q (r, fNX) := by
  have hu : (2 : ℚ) ^ ((E : ℤ) - 149) = 2 * 2 ^ ((E : ℤ) - 150) := by
    rw [← zpow_one_add₀ (by norm_num)]; congr 1; ring
  obtain ⟨u, hu0⟩ : ∃ u : ℚ, u = 2 ^ ((E : ℤ) - 150) := ⟨_, rfl⟩
  have hup : 0 < u := by rw [hu0]; positivity
  have hu1 : u ≤ 1 := by rw [hu0]; exact zpow_le_one_of_nonpos₀ (by norm_num) (by omega)
  have hu2 : 2 ^ (-50 : ℤ) ≤ u := by rw [hu0]; exact zpow_le_zpow_right₀ (by norm_num) (by omega)
  rw [hu, ← hu0] at hr
  rw [← hu0, hr] at hq
  have hM1 : (2 ^ 23 + 1 : ℚ) ≤ M := by exact_mod_cast hM.1
  have hM2 : (M : ℚ) ≤ 2 ^ 24 - 1 := by
    have : M + 1 ≤ 2 ^ 24 := hM.2
    have : (M + 1 : ℚ) ≤ 2 ^ 24 := by exact_mod_cast this
    linarith
  obtain ⟨q1, q2⟩ := abs_lt.1 hq
  have far : ∀ z, Fmt.f32.isFinite z → Fmt.f32.rat z = M * (2 * u) ∨ 2 * u ≤ |Fmt.f32.rat z - M * (2 * u)| := by
    intro z hz
    obtain ⟨k, e, hk, he⟩ := rat_finite hz
    rw [he]
    rcases lt_or_ge e E with h | h
    · right
      have a1 : (2 : ℚ) ^ ((e : ℤ) - 149) ≤ u := by rw [hu0]; exact zpow_le_zpow_right₀ (by norm_num) (by omega)
      have a2 : (0 : ℚ) < 2 ^ ((e : ℤ) - 149) := by positivity
      have a3 : (k : ℚ) < 2 ^ 24 := by exact_mod_cast (abs_lt.1 hk).2
      have a4 : (k : ℚ) * 2 ^ ((e : ℤ) - 149) ≤ 2 ^ 24 * u := by nlinarith
      rw [abs_sub_comm]
      refine le_trans ?_ (le_abs_self _)
      nlinarith
    · obtain ⟨d, rfl⟩ := Nat.exists_eq_add_of_le h
      have b1 : (2 : ℚ) ^ (((E + d : ℕ) : ℤ) - 149) = 2 ^ d * (2 * u) := by
        rw [hu0, ← hu, ← zpow_natCast, ← zpow_add₀ (by norm_num)]; congr 1; push_cast; ring
      rw [b1]
      rcases eq_or_ne (k * 2 ^ d) (M : ℤ) with c | c
      · left
        have : (k : ℚ) * 2 ^ d = M := by exact_mod_cast c
        rw [← this]; ring
      · right
        have c1 : (1 : ℤ) ≤ |k * 2 ^ d - M| := Int.one_le_abs (by omega)
        have c2 : (1 : ℚ) ≤ |(k : ℚ) * 2 ^ d - M| := by exact_mod_cast c1
        have : (k : ℚ) * (2 ^ d * (2 * u)) - M * (2 * u) = (k * 2 ^ d - M) * (2 * u) := by ring
        rw [this, abs_mul, abs_of_pos (show 0 < 2 * u by linarith)]
        nlinarith
  have hqp : 0 < q := by nlinarith
  have hmax : Fmt.f32.max = 340282346638528859811704183484516925440 := by decide +kernel
  have hleast : Fmt.f32.least = 2 ^ (-126 : ℤ) := by decide +kernel
  have hle : |q| ≤ Fmt.f32.max := by rw [hmax, abs_of_pos hqp]; nlinarith
  have htiny : ¬ isTiny .f32 .rn false q := by
    simp only [isTiny, if_true, hleast, abs_of_pos hqp, not_lt]
    have : (2 : ℚ) ^ (-126 : ℤ) ≤ 2 ^ (-50 : ℤ) := zpow_le_zpow_right₀ (by norm_num) (by norm_num)
    have : u ≤ q := by nlinarith
    exact (sub_le_self _ (by positivity)).trans (this.trans' (hu2.trans' ‹_›))
  refine ⟨fun _ => ⟨⟨h1, ?_⟩, by simpa using h2, fun c => absurd c hn, fun _ c => absurd c htiny, fun _ _ => rfl⟩,
    fun c => absurd hle (not_le.2 c), fun c => absurd hle (not_le.2 c)⟩
  intro z hz
  have hl : |Fmt.f32.rat r - q| < u := by rw [abs_sub_comm, hr]; exact hq
  rcases far z hz with c | c
  · rw [c, ← hr]; exact ⟨le_refl _, fun _ => .inl rfl⟩
  · have : u < |Fmt.f32.rat z - q| := by
      have := abs_sub_abs_le_abs_sub (Fmt.f32.rat z - M * (2 * u)) (q - M * (2 * u))
      have e : Fmt.f32.rat z - M * (2 * u) - (q - M * (2 * u)) = Fmt.f32.rat z - q := by ring
      rw [e] at this; linarith
    exact ⟨by linarith, fun d => by linarith⟩

/-- The same around a positive real value that lies well within that half unit. -/
theorem roundsNear_of {r M : Nat} {E : ℕ} {v : ℝ} (hr : Fmt.f32.rat r = M * 2 ^ ((E : ℤ) - 149)) (h1 : Fmt.f32.isFinite r)
    (h2 : r / Fmt.f32.sb = 0) (hM : 2 ^ 23 < M ∧ M < 2 ^ 24) (hE : 100 ≤ E ∧ E ≤ 149) (hv : 0 < v ∧ v < 2)
    (hc : |v - (Fmt.f32.rat r : ℚ)| < 2 ^ ((E : ℤ) - 150) - 2 ^ (-190 : ℤ)) : RoundsNear false v (r, fNX) := by
  intro q hq hn
  refine rounded_near hr h1 h2 hM hE ?_ hn
  have hb : (2 : ℝ) ^ (-200 : ℤ) * Max.max 1 |v| ≤ 2 ^ (-190 : ℤ) := by
    have : Max.max 1 |v| ≤ 2 := max_le (by norm_num) (by rw [abs_of_pos hv.1]; exact hv.2.le)
    have e : (2 : ℝ) ^ (-190 : ℤ) = 1024 * 2 ^ (-200 : ℤ) := by norm_num
    have : (0 : ℝ) < 2 ^ (-200 : ℤ) := by positivity
    rw [e]; nlinarith
  have : |(q : ℝ) - (Fmt.f32.rat r : ℚ)| < 2 ^ ((E : ℤ) - 150) := by
    have := abs_sub_le (q : ℝ) v (Fmt.f32.rat r : ℚ)
    linarith
  have h : ((|q - Fmt.f32.rat r| : ℚ) : ℝ) < ((2 ^ ((E : ℤ) - 150) : ℚ) : ℝ) := by push_cast; exact this
  exact_mod_cast Rat.cast_lt.1 h

theorem sqrt_two_bits : |√2 - 11863283 / 2 ^ 23| < (1 : ℝ) / 2 ^ 25 := by
  have a : √2 * √2 = 2 := Real.mul_self_sqrt (by norm_num)
  have b := Real.sqrt_nonneg 2
  rw [abs_lt]; constructor <;> nlinarith

/-- TranscendentalsAreNearest: 2^(1/2). -/
theorem witness_exp2 : Fmt.f32.isFinite 0x3F000000 ∧ ((Fmt.f32.rat 0x3F000000 : ℚ) : ℝ) < 128 ∧
    Irrational ((2 : ℝ) ^ ((Fmt.f32.rat 0x3F000000 : ℚ) : ℝ)) ∧
    RoundsNear false ((2 : ℝ) ^ ((Fmt.f32.rat 0x3F000000 : ℚ) : ℝ)) (0x3FB504F3, fNX) := by
  have hx : Fmt.f32.rat 0x3F000000 = 1 / 2 := by decide +kernel
  have hr : Fmt.f32.rat 0x3FB504F3 = (11863283 : ℕ) * 2 ^ (((126 : ℕ) : ℤ) - 149) := by decide +kernel
  have hs : (2 : ℝ) ^ ((1 / 2 : ℚ) : ℝ) = √2 := by rw [Real.sqrt_eq_rpow]; norm_num
  rw [hx, hs]
  refine ⟨⟨by decide +kernel, by decide +kernel, by decide +kernel⟩, by norm_num, irrational_sqrt_two, ?_⟩
  have hb := sqrt_two_bits
  refine roundsNear_of hr ⟨by decide +kernel, by decide +kernel, by decide +kernel⟩ (by decide +kernel) (by norm_num) (by norm_num)
    ⟨by positivity, ?_⟩ ?_
  · nlinarith [Real.mul_self_sqrt (show (0 : ℝ) ≤ 2 by norm_num), Real.sqrt_nonneg 2]
  · rw [hr]; norm_num at hb ⊢
    exact lt_of_lt_of_le hb (by norm_num)

/-- sin(π/4) and cos(π/4). -/
theorem witness_sin_cos : let v : ℝ := (Fmt.f32.rat 0x3E800000 : ℚ)
    Fmt.f32.isFinite 0x3E800000 ∧ Real.sin (Real.pi * v) = √2 / 2 ∧ Real.cos (Real.pi * v) = √2 / 2 ∧
    (false = true ↔ √2 / 2 < 0) ∧ Irrational (√2 / 2) ∧ RoundsNear false (√2 / 2) (0x3F3504F3, fNX) := by
  have hx : Fmt.f32.rat 0x3E800000 = 1 / 4 := by decide +kernel
  have hr : Fmt.f32.rat 0x3F3504F3 = (11863283 : ℕ) * 2 ^ (((125 : ℕ) : ℤ) - 149) := by decide +kernel
  have hp : Real.pi * ((1 / 4 : ℚ) : ℝ) = Real.pi / 4 := by push_cast; ring
  have hb := sqrt_two_bits
  have h0 := Real.sqrt_nonneg 2
  intro v
  have hv : Real.pi * v = Real.pi / 4 := by simp only [v, hx]; exact hp
  rw [hv]
  refine ⟨⟨by decide +kernel, by decide +kernel, by decide +kernel⟩, Real.sin_pi_div_four, Real.cos_pi_div_four, ?_, ?_, ?_⟩
  · simp only [Bool.false_eq_true, false_iff, not_lt]; positivity
  · exact_mod_cast irrational_sqrt_two.div_natCast (m := 2) (by norm_num)
  · refine roundsNear_of hr ⟨by decide +kernel, by decide +kernel, by decide +kernel⟩ (by decide +kernel) (by norm_num) (by norm_num)
      ⟨by positivity, ?_⟩ ?_
    · nlinarith [Real.mul_self_sqrt (show (0 : ℝ) ≤ 2 by norm_num), Real.sqrt_nonneg 2]
    · rw [hr]; norm_num at hb ⊢
      rw [abs_lt] at hb ⊢
      constructor <;> linarith [hb.1, hb.2]

/-- The logarithm of an odd number above 1, over a power of two, is irrational. -/
theorem irrational_logb {n k : ℕ} (h1 : n % 2 = 1) (h2 : 1 < n) : Irrational (Real.logb 2 ((n : ℝ) / 2 ^ k)) := by
  rintro ⟨q, hq⟩
  have hn : (0 : ℝ) < n := by positivity
  have h3 : Real.logb 2 (n : ℝ) = ((q + k : ℚ) : ℝ) := by
    rw [Real.logb_div hn.ne' (by positivity), Real.logb_pow, Real.logb_self_eq_one (by norm_num)] at hq
    push_cast; linarith
  set p : ℚ := q + k with hp
  have h4 : (2 : ℝ) ^ (p : ℝ) = n := by rw [← h3]; exact Real.rpow_logb (by norm_num) (by norm_num) hn
  have h5 : (2 : ℝ) ^ p.num = (n : ℝ) ^ p.den := by
    rw [← h4, ← Real.rpow_natCast, ← Real.rpow_mul (by norm_num), ← Real.rpow_intCast]
    congr 1
    exact_mod_cast (Rat.mul_den_eq_num p).symm
  have h6 : (1 : ℝ) < (n : ℝ) ^ p.den := one_lt_pow₀ (by exact_mod_cast h2) p.den_nz
  have h7 : 0 < p.num := by
    by_contra c
    have := zpow_le_one_of_nonpos₀ (show (1 : ℝ) ≤ 2 by norm_num) (not_lt.1 c)
    linarith
  obtain ⟨m, hm⟩ := Int.eq_ofNat_of_zero_le h7.le
  rw [hm] at h5
  have h8 : 2 ^ m = n ^ p.den := by exact_mod_cast h5
  have h9 : m ≠ 0 := by omega
  have : Odd (n ^ p.den) := (Nat.odd_iff.2 h1).pow
  rw [← h8] at this
  exact (Nat.not_odd_iff_even.2 ((Nat.even_pow.2 ⟨by norm_num, h9⟩))) this

/-- log2 of the FP32 number nearest to √2. -/
theorem witness_log2 : let v : ℝ := (Fmt.f32.rat 0x3FB504F3 : ℚ)
    Fmt.f32.isFinite 0x3FB504F3 ∧ 0 < v ∧ (false = true ↔ Real.logb 2 v < 0) ∧ Irrational (Real.logb 2 v) ∧
    RoundsNear false (Real.logb 2 v) (0x3EFFFFFF, fNX) := by
  intro v
  have hx : Fmt.f32.rat 0x3FB504F3 = (11863283 : ℕ) / 2 ^ 23 := by decide +kernel
  have hr : Fmt.f32.rat 0x3EFFFFFF = (16777215 : ℕ) * 2 ^ (((124 : ℕ) : ℤ) - 149) := by decide +kernel
  have hv : v = (11863283 : ℕ) / 2 ^ 23 := by simp only [v, hx]; push_cast; rfl
  have hv0 : 0 < v := by rw [hv]; positivity
  have hl := Real.log_two_gt_d9
  have e : Real.logb 2 v = 1 / 2 + Real.log (v ^ 2 / 2) / (2 * Real.log 2) := by
    rw [Real.logb, Real.log_div (by positivity) (by norm_num), Real.log_pow]; field_simp; push_cast; ring
  have y : v ^ 2 / 2 = 140737483538089 / 2 ^ 47 := by rw [hv]; norm_num
  have up : Real.log (v ^ 2 / 2) ≤ v ^ 2 / 2 - 1 := Real.log_le_sub_one_of_pos (by positivity)
  have lo : 1 - (v ^ 2 / 2)⁻¹ ≤ Real.log (v ^ 2 / 2) := Real.one_sub_inv_le_log_of_pos (by positivity)
  have d : |Real.logb 2 v - (1 / 2 - 1 / 2 ^ 25)| < 1 / 2 ^ 27 := by
    have l2 : 0 < 2 * Real.log 2 := by linarith
    have hl' := Real.log_two_lt_d9
    rw [y] at up lo
    norm_num at up lo
    have a1 : -(5 / 4 : ℝ) / 2 ^ 25 < Real.log (v ^ 2 / 2) / (2 * Real.log 2) := by
      rw [lt_div_iff₀ l2, y]; norm_num; linarith
    have a2 : Real.log (v ^ 2 / 2) / (2 * Real.log 2) < -(3 / 4 : ℝ) / 2 ^ 25 := by
      rw [div_lt_iff₀ l2, y]; norm_num; linarith
    rw [e, abs_lt]
    norm_num at a1 a2 ⊢
    constructor <;> linarith
  obtain ⟨d1, d2⟩ := abs_lt.1 d
  norm_num at d1 d2
  refine ⟨⟨by decide +kernel, by decide +kernel, by decide +kernel⟩, hv0, ?_, by rw [hv]; exact irrational_logb (by norm_num) (by norm_num), ?_⟩
  · simp only [Bool.false_eq_true, false_iff, not_lt]; linarith
  · refine roundsNear_of hr ⟨by decide +kernel, by decide +kernel, by decide +kernel⟩ (by decide +kernel) (by norm_num) (by norm_num)
      ⟨by linarith, by linarith⟩ ?_
    rw [hr]; norm_num
    rw [abs_lt]
    constructor <;> linarith

/-- For every statement of class 0 and of control: a group at its instruction; its lowest performing member is lane 0. -/
theorem witness_issues : Issues sA xA grp ∧ 0 ∈ grp.lanes ∧ NMap.find? xA.threads 0 = some tA ∧ performs .always tA = true ∧
    (performers xA grp .always).head? = some 0 ∧ ∀ m ∈ grp.lanes, m < 64 :=
  ⟨⟨rfl, rfl, rfl, by decide, by decide⟩, by decide, rfl, rfl, by decide, by decide⟩
theorem alone_A : Alone sA xA grp 0 tA := ⟨rfl, rfl, rfl, rfl, rfl, ⟨rfl, rfl⟩, by decide, by decide, ⟨rfl, rfl, rfl⟩, ⟨rfl, rfl⟩, ordNone rfl⟩

/-- LoneGatherings. -/
theorem witness_lone : Alone sA xA grp 0 tA ∧ performs .always tA = true ∧ rd64 xA tA (.v 0) = 1#64 <<< 0 ∧
    LOp.legal .add .f32 = true ∧ grp.index < grp.hdr.count :=
  ⟨alone_A, rfl, by decide, rfl, by decide⟩

/-- GatheringDelivers: a complete vote of lane 0, which has no group. -/
def zG : Gather := { pc := mkPc 0x1000 0, instr := .wvote (.ballot (.v 2)) 0 .always (.v 0), mask := 1
                     arr := [⟨0, 0, some (0, 0, 1)⟩] }
def xG : Wave := { wav { tA with wait := .gather 0 } with groups := [], gathers := [(0, zG)] }
theorem witness_gathering : NMap.find? (mk xG wgp).dev.waves 2 = some xG ∧ xG.groups = [] ∧
    NMap.find? xG.gathers 0 = some zG ∧ gatherFull zG = true ∧ isConv zG.instr = false ∧
    (zG.arr.map Arrival.lane).Nodup ∧ ∀ a ∈ zG.arr, (NMap.find? xG.threads a.lane).isSome := by
  refine ⟨rfl, rfl, rfl, ?_, rfl, ?_, ?_⟩ <;> decide

/-- TimedWaits: a sleep that ends at TICKS; a word of the scratchpad; a waiting WAITV. -/
def xS : Wave := { wav { tA with wait := .sleep 5 } with groups := [] }
def sS : State := onD (mk xS wgp) fun d => { d with ticks := 5 }
theorem witness_sleep : NMap.find? sS.dev.waves 2 = some xS ∧ xS.groups = [] ∧
    NMap.find? xS.threads 0 = some { tA with wait := .sleep 5 } ∧ 5 ≤ sS.dev.ticks ∧ retained sS 2 = false :=
  ⟨rfl, rfl, rfl, by decide, rfl⟩
theorem witness_scratch : InScratch sA xA wgp (recOf (rdRec xA 0)) (rd32 xA tA (.v 4)) 0 4 64 :=
  ⟨rfl, by decide, by decide, by decide, by decide, by decide⟩
/-- The last word of the scratchpad. -/
theorem witness_scratch_end : InScratch sA xA wgp (recOf (rdRec xA 0)) 4092 0 4 4092 :=
  ⟨rfl, by decide, by decide, by decide, by decide, by decide⟩
/-- A WAITV asleep on its sector, with no store and no clock gone; after one store; after 1,024 clocks. -/
def tW (n : Nat) : Thread := { tA with wait := .waitv (.v 2) (rcd 0 1) 64 0 { locs := [.scr 1 64], writes := n, clk := some 0 } }
def xW (n : Nat) : Wave := { wav (tW n) with groups := [] }
def sW (n clk : Nat) : State := onD (mk (xW n) wgp) fun d => { d with cores := [(0, { quarters := [(0, { clk := clk })] })] }
theorem witness_waitv (n clk : Nat) : NMap.find? (sW n clk).dev.waves 2 = some (xW n) ∧ (xW n).groups = [] ∧
    (xW n).resident = true ∧ retained (sW n clk) 2 = false ∧ NMap.find? (xW n).threads 0 = some (tW n) ∧ (tW n).run = .run ∧
    InScratch (sW n clk) (xW n) wgp (recOf (rcd 0 1)) 64 0 4 64 :=
  ⟨rfl, rfl, rfl, rfl, rfl, rfl, ⟨rfl, Nat.one_ne_zero, by decide, by decide, by decide, by decide⟩⟩
theorem witness_waitv_last (n : Nat) : NotLater (xW n) (issueOrd (xW n) 0) (.v 2) 1 := nofun
theorem witness_waitv_due : writesOf (sW 0 1023).dev [.scr 1 64] = 0 ∧ clockOf (sW 0 1023).dev (xW 0) < 0 + 1024 ∧
    writesOf (sW 1 0).dev [.scr 1 64] ≠ 1 ∧ 0 + 1024 ≤ clockOf (sW 0 1024).dev (xW 0) := by decide

/-- A WAITV whose load was cut before the second sector's two bytes. -/
def xWc : Wave :=
  { wav { tA with wait := .waitv (.v 2) (rcd 0 1) 62 0 { locs := [.scr 1 32], rest := [(.scr 1 64, 2)], got := [1, 2] } } with
    groups := [] }
theorem witness_waitv_cut : NMap.find? (mk xWc wgp).dev.waves 2 = some xWc ∧ xWc.groups = [] ∧ xWc.resident = true ∧
    retained (mk xWc wgp) 2 = false ∧ (mk xWc wgp).dev.cut = none ∧ (1 : Nat) ≠ 0 := ⟨rfl, rfl, rfl, rfl, rfl, by decide⟩

/-- ExitEndsThread: another thread of the wave runs. -/
def xE : Wave := { wav tA with threads := [(0, tA), (1, tA)] }
theorem witness_exit_group : Issues (mk xE wgp) xE grp ∧ (∀ l ∈ grp.lanes, (thread xE l).run = .run ∧ (thread xE l).wait = .none) ∧
    xE.gathers = [] ∧ xE.fatal = none ∧ (∃ m u, m ∉ grp.lanes ∧ (m, u) ∈ xE.threads ∧ alive u = true) ∧
    0 ∈ performers xE grp .always ∧ ((mk xE wgp).dev.waves.map Prod.fst).Nodup :=
  ⟨⟨rfl, rfl, rfl, by decide, by decide⟩, by decide, rfl, rfl, ⟨1, tA, by decide, by decide, by decide⟩, by decide, by decide⟩
theorem witness_exit : Alone (mk xE wgp) xE grp 0 tA ∧ performs .always tA = true ∧ tA.breg = 0 ∧ tA.rings = [] ∧
    tA.paint = none ∧ (Machine.launch (mk xE wgp).dev tA.launch).hdr.rep = false ∧
    ∃ m u, m ≠ 0 ∧ (m, u) ∈ xE.threads ∧ alive u = true :=
  ⟨⟨rfl, rfl, rfl, rfl, rfl, ⟨rfl, rfl⟩, by decide, by decide, ⟨rfl, rfl, rfl⟩, ⟨rfl, rfl⟩, ordNone rfl⟩, rfl, rfl, rfl, rfl, by decide,
    1, tA, by decide, by decide, by decide⟩

/-- ScratchpadAccess, Atomics: nothing registered, no order to keep. -/
theorem witness_store : (MayOrder sA xA ∨ (recOf (rdRec xA 0)).order = 0) ∧
    (∀ q ∈ sectorSpans 64 16, registered sA.dev (.scr xA.wg q.1) = false) ∧ registered sA.dev (.scr xA.wg 64) = false := by
  refine ⟨.inl (.inl (by decide)), ?_, ?_⟩ <;> decide
/-- An access of one byte just beyond the row under BOUNDS 2, and of more bytes than the row has under BOUNDS 1. -/
def xDr (b e0 : Nat) : Wave :=
  { wav (thr [5, 0]) with d := [(0, BitVec.ofNat 256 (2 ^ 64 * e0 + 2 ^ 96 + 2 ^ 200 * b + 2 ^ 202))] }
theorem witness_dropped : ∀ c ∈ [(2, 5), (1, 0)],
    Alone (mk (xDr c.1 c.2) wgp) (xDr c.1 c.2) grp 0 (thr [5, 0]) ∧ (recOf (rdRec (xDr c.1 c.2) 0)).valid = true ∧
    (recOf (rdRec (xDr c.1 c.2) 0)).bounds = c.1 ∧ fmtSize (recOf (rdRec (xDr c.1 c.2) 0)).fmt = some 1 ∧
    (recOf (rdRec (xDr c.1 c.2) 0)).ext0 = c.2 ∧ (rd32 (xDr c.1 c.2) (thr [5, 0]) (.v 0)).toNat = 5 := by
  intro c hc
  refine ⟨⟨rfl, rfl, rfl, rfl, rfl, ⟨rfl, rfl⟩, by decide, by decide, ⟨rfl, rfl, rfl⟩, ⟨rfl, rfl⟩, ordNone rfl⟩, ?_⟩
  revert c; decide +kernel
/-- A neighbourhood of two workgroups: d2 over its window; the first bytes of the second slice. -/
def gN (f : Nat) : Wg := { wgp with nbhd := 1, num := f, f1 := f }
def xNb : Wave := { wav (thr [0, 0, 0, 0, 4096]) with d := [(2, BitVec.ofNat 256 (2 ^ 64 * 8192 + 2 ^ 96 * 8192 + 2 ^ 128 + 2 ^ 202 * 2))] }
def sNb : State := onD (mk xNb (gN 0)) fun d =>
  { d with wgs := [(1, gN 0), (3, gN 1)], launches := [(1, { lau with hdr := { lau.hdr with extents := [1, 2, 1, 1, 1, 1], nbhd := true } })] }
theorem witness_window : InWindow sNb xNb (gN 0) (recOf (rdRec xNb 2)) 4096 0 16 4096 3 0 ∧ registered sNb.dev (.scr 3 0) = false :=
  ⟨⟨rfl, by decide, by decide, by decide, by decide, by decide, by decide⟩, by decide⟩

/-- AccessFaults: for each check an access that it is the first to stop. -/
def xFa (d : BitVec 256) (i : Word) : Wave := { wav (thr [i]) with d := [(0, d)] }
def sFa (d : BitVec 256) (i : Word) (l : Launch) (os : List Obj) : State :=
  onD (mk (xFa d i) wgp) fun v => { v with launches := [(1, l)], objs := os }
theorem witness_faults : ∀ c ∈ ([
      (.st .b32 .always (.v 0) 0 (.v 0) (.v 1), rcd 0 3, 0, lau, [], 0x03),
      (.atomn .add .i32 .always 0 (.v 0) (.v 0), rcd 0 1, 0, { lau with hdr := { lau.hdr with det := true } }, [], 0x60),
      (.ld .b32 .always (.v 2) 0 (.v 0) (.v 1), rcd 0 1, 4093, lau, [], 0x22),
      (.satom .add .i32 .always (.v 2) 0 (.v 0) (.v 0), rcd 0 1, 2, lau, [], 0x21),
      (.atom .add .i32 .always (.v 2) 0 (.v 0) (.v 0), rcd 0 1, 4, lau, [], 0x21),
      (.ld .b32 .always (.v 2) 0 (.v 0) (.v 1), rcd 8 1, 4092 - 7, lau, [], 0x21),
      (.st .b32 .always (.v 0) 0 (.v 0) (.v 1), rcd 0 1, 64, lau, [{ loc := .scr 1 64, ring := false, ctx := 0, regs := [] }], 0x24)] :
      List (Instr × BitVec 256 × Word × Launch × List Obj × Nat)),
    (accessOf c.1).bind (fun q => q.fault (sFa c.2.1 c.2.2.1 c.2.2.2.1 c.2.2.2.2.1) (xFa c.2.1 c.2.2.1) (thr [c.2.2.1])) =
      some c.2.2.2.2.2 := by decide +kernel
theorem witness_plain (q : Access) (s : State) (x : Wave) (t : Thread) (h : (q.rec_ x).space ≠ 0) : q.plain s x t :=
  fun _ h0 _ => absurd h0 h
theorem witness_page : ∃ q : Access, accessOf (.ld .b32 .always (.v 2) 0 (.v 0) (.v 1)) = some q ∧
    q.Pages (sFa (rcd (2 ^ 50) 0) 64 lau []) (xFa (rcd (2 ^ 50) 0) 64) (thr [64]) (2 ^ 50 + 64) 0 ∧
    q.plain (sFa (rcd (2 ^ 50) 0) 64 lau []) (xFa (rcd (2 ^ 50) 0) 64) (thr [64]) := by
  refine ⟨_, rfl, ⟨by decide, by decide, by decide, by decide, by decide, by decide, by decide +kernel⟩, ?_⟩
  intro a _ h
  have e : a = 2 ^ 50 + 64 := by
    have k : ((recOf (rdRec (xFa (rcd (2 ^ 50) 0) 64) 0)).form 4 64 0) = .at (2 ^ 50 + 64) := by decide
    exact (BRes.at.inj (k.symm.trans h)).symm
  subst e; decide

/-- GlobalAccess, Atomics, RecordRegistersAndLocks: a sector of the identity-mapped page. -/
theorem witness_global : InGlobal sA xA (recOf (rdRec xA 1)) (rd32 xA tA (.v 4)) 0 .store 16 0x8040 0x8040 ∧
    InGlobal sA xA (recOf (rdRec xA 1)) (rd32 xA tA (.v 4)) 0 .load 1 0x8040 0x8040 ∧
    registered sA.dev (.glob 0x8040) = false :=
  ⟨⟨by decide, by decide, by decide, by decide, by decide, ⟨0, true, true⟩, by decide, by decide, by decide, .inl (by decide)⟩,
   ⟨by decide, by decide, by decide, by decide, by decide, ⟨0, true, true⟩, by decide, by decide, by decide, .inl (by decide)⟩, by decide⟩

/-- Four bytes of which two lie in the next sector. -/
def tX2 : Thread := thr [1, 0, 0, 0, 62]
def sX2 : State := mk (wavR tX2) wgp
theorem witness_two_sectors : Alone sX2 (wavR tX2) grp 0 tX2 ∧
    InTwoSectors sX2 (wavR tX2) (recOf (rdRec (wavR tX2) 1)) (rd32 (wavR tX2) tX2 (.v 4)) 0 .store 4 0x803E 0x803E 0x8040 ∧
    InTwoSectors sX2 (wavR tX2) (recOf (rdRec (wavR tX2) 1)) (rd32 (wavR tX2) tX2 (.v 4)) 0 .load 4 0x803E 0x803E 0x8040 ∧
    l1Copy (Machine.core sX2.dev (wavR tX2).core) 0x803E = none ∧ l1Copy (Machine.core sX2.dev (wavR tX2).core) 0x8040 = none ∧
    registered sX2.dev (.glob 0x803E) = false ∧ registered sX2.dev (.glob 0x8040) = false :=
  ⟨⟨rfl, rfl, rfl, rfl, rfl, ⟨rfl, rfl⟩, by decide, by decide, ⟨rfl, rfl, rfl⟩, ⟨rfl, rfl⟩, ordNone rfl⟩,
    ⟨by decide, by decide, by decide, by decide, by decide, ⟨⟨0, true, true⟩, by decide, by decide, by decide, .inl (by decide)⟩,
      ⟨0, true, true⟩, by decide, by decide, by decide, .inl (by decide)⟩,
    ⟨by decide, by decide, by decide, by decide, by decide, ⟨⟨0, true, true⟩, by decide, by decide, by decide, .inl (by decide)⟩,
      ⟨0, true, true⟩, by decide, by decide, by decide, .inl (by decide)⟩,
    by decide, by decide, by decide, by decide⟩

/-- GlobalAccess: no copy; a pinned copy whose lease holds. -/
def cpy : Copy := { bytes := List.replicate 32 7, wts := 4, lr := 9, ag := 0 }
def sLc : State := onD sA fun d => { d with cores := [(0, { l1 := [(0x100, { tag := 0, sectors := [(2, cpy)] })], pins := [{ ctx := 0, line := 0x100, pa := 0x100, holders := [2] }] })] }
theorem witness_copy : l1Copy (Machine.core sA.dev xA.core) 0x8040 = none ∧ Alone sLc xA grp 0 tA ∧
    InGlobal sLc xA (recOf (rdRec xA 1)) (rd32 xA tA (.v 4)) 0 .load 4 0x8040 0x8040 ∧
    l1Copy (Machine.core sLc.dev xA.core) 0x8040 = some cpy ∧ pinned (Machine.core sLc.dev xA.core) (0x8040 / 128) = true ∧
    cpy.bytes.length = 32 ∧
    max tA.pts.toNat (if (Who.lane sLc.dev.cur.1 0).num < cpy.ag then cpy.wts.toNat + 1 else cpy.wts.toNat) ≤ cpy.lr.toNat :=
  ⟨by decide, ⟨rfl, rfl, rfl, rfl, rfl, ⟨rfl, rfl⟩, by decide, by decide, ⟨rfl, rfl, rfl⟩, ⟨rfl, rfl⟩, ordNone rfl⟩,
    ⟨by decide, by decide, by decide, by decide, by decide, ⟨0, true, true⟩, by decide, by decide, by decide, .inl (by decide)⟩,
    by decide, by decide, by decide, by decide⟩

/-- Atomics: a request on its way to its service wave, and its reply. -/
def tQ : Thread := { tA with wait := .atom 9 }
def xQ : Wave := { wav tQ with groups := [(0, { grp with began := true, lead := some 0 })] }
def rq (r : Option DWord) : AtomReq :=
  { wave := 2, op := .add, ty := .n32, ret := true, d := .v 2
    ops := [{ lane := 0, launch := 1, addr := 0x8040, pa := 0x8040, data := [5], old := r }], live := true }
def sQ (r : Option DWord) : State := onD (mk xQ wgp) fun d => { d with svc := [(9, rq r)] }
theorem witness_request : WaitsAlone (sQ none) 2 0 xQ { grp with began := true, lead := some 0 } 0 tQ (.atom 9) ∧
    NMap.find? (sQ none).dev.svc 9 = some (rq none) ∧ (rq none).live = true ∧
    (Machine.launch (sQ none).dev 1).hdr.rep = false ∧ (Machine.launch (sQ none).dev 1).hdr.rec_ = false :=
  ⟨⟨rfl, rfl, rfl, rfl, rfl, ⟨rfl, rfl⟩, rfl, ordNone rfl⟩, rfl, rfl, by decide, by decide⟩
theorem witness_reply : WaitsAlone (sQ (some 7)) 2 0 xQ { grp with began := true, lead := some 0 } 0 tQ (.atom 9) ∧
    NMap.find? (sQ (some 7)).dev.svc 9 = some (rq (some 7)) ∧ (rq (some 7)).live = true ∧ retained (sQ (some 7)) 2 = false :=
  ⟨⟨rfl, rfl, rfl, rfl, rfl, ⟨rfl, rfl⟩, rfl, ordNone rfl⟩, rfl, rfl, rfl⟩

/-- The result goes to v2, or to an s register that nothing later has written; the sector has been registered since. -/
theorem witness_reply_last : NotLater xQ grp.ord (rq none).d 1 ∧ NotLater { xQ with wrote := [(5, 3)] } 3 (.s 4) 2 ∧
    registered (sQ none).dev (.glob 0x8040) = false ∧
    registered (onD (sQ none) fun d => { d with objs := [{ loc := .glob 0x8040, ring := false, ctx := 0, regs := [(7, 0)] }] }).dev
      (.glob 0x8040) = true ∧ inHandler xQ = false := by
  refine ⟨nofun, ?_, by decide, by decide, by decide⟩
  rintro k ⟨⟩ r h1 h2
  have : r = 4 ∨ r = 5 := by have : (4 : Fin 64).val = 4 := rfl; omega
  rcases this with rfl | rfl <;> decide

/-- RecordRegistersAndLocks: a handle that names a record, one that names none, room for a lock. -/
def sH : State := onD sA fun d => { d with ctxs := d.ctxs.map fun p => (p.1, { p.2 with recs := [(3, (rcd 0 1, 1, true))] }) }
theorem witness_handle : handleRec (ctx sH.dev xA.ctx) 0x00010003 = some (rcd 0 1) ∧ handleRec (ctx sA.dev xA.ctx) 0x00010003 = none :=
  ⟨by decide, by decide⟩
theorem witness_lock : (Machine.core sA.dev xA.core).pins = [] ∧
    ((Machine.core sA.dev xA.core).pins.filter fun q => q.ctx == xA.ctx).length < (ctx sA.dev xA.ctx).lockq ∧
    (Machine.core sA.dev xA.core).pins.length < (10 - (Machine.core sA.dev xA.core).split) * 4096 := by decide

/-- Barriers, ObjectFrame: a barrier of two threads at offset 64, phase 3, one thread arrived, on slot 0. -/
def bA : Bar := { expected := 2, phase := 3, arrived := 1, armed := true }
def gB (b : Bar) : Wg :=
  { wgp with mem := Memory.putBytes [] 64 b.bytes, bslots := [(0, { loc := .scr 1 64, va := 64 })] }
def tB (arr : NMap Word) : Thread := { tA with breg := 1, arr := arr }
def sB (b : Bar) (t : Thread) : State :=
  onD (mk (wavR t) (gB b)) fun d => { d with objs := [{ loc := .scr 1 64, ring := false, ctx := 0, regs := [(2, 0)] }] }
/-- The thread has not arrived in the phase, or has; the barrier is whole and the token is elsewhere. -/
theorem witness_barrier (arr : NMap Word) : Alone (sB bA (tB arr)) (wavR (tB arr)) grp 0 (tB arr) ∧
    BarrierHere (sB bA (tB arr)) (wavR (tB arr)) 0 1 64 :=
  ⟨⟨rfl, rfl, rfl, rfl, rfl, ⟨rfl, rfl⟩, by decide, by decide, ⟨rfl, rfl, rfl⟩, ⟨rfl, rfl⟩, ordNone rfl⟩, ⟨⟨_, rfl, rfl⟩, by decide, rfl⟩⟩
theorem witness_barrier_facts : ∀ arr ∈ ([[], [(0, 3)]] : List (NMap Word)),
    (readBar (sB bA (tB arr)).dev (.scr 1 64)).broken = false ∧ (readBar (sB bA (tB arr)).dev (.scr 1 64)).phase = 3 ∧
    (readBar (sB bA (tB arr)).dev (.scr 1 64)).status = 0 ∧ (tB arr).breg.getLsbD 0 = true ∧
    holdsToken (sB bA (tB arr)).dev 2 = false ∧ (readBar (sB bA (tB arr)).dev (.scr 1 64)).countdown.toInt ≤ 0 ∧
    (readBar (sB bA (tB arr)).dev (.scr 1 64)).arrived + 1 = (readBar (sB bA (tB arr)).dev (.scr 1 64)).expected := by decide
theorem witness_arrived : NMap.find? (tB []).arr 0 ≠ some 3 ∧ NMap.find? (tB [(0, 3)]).arr 0 = some 3 := by decide
/-- A thread that waits for a phase that is complete. -/
def tBW : Thread := { tB [(0, 2)] with wait := .bar 0 (.v 2) 1 }
def xBW : Wave := { wavR tBW with groups := [(0, { grp with began := true, lead := some 0 })] }
def sBW : State := { sB bA tBW with dev := { (sB bA tBW).dev with waves := [(2, xBW)] } }
theorem witness_barrier_wake : WaitsAlone sBW 2 0 xBW { grp with began := true, lead := some 0 } 0 tBW (.bar 0 (.v 2) 1) ∧
    xBW.resident = true ∧ retained sBW 2 = false ∧ BarrierHere sBW xBW 0 1 64 ∧ (readBar sBW.dev (.scr 1 64)).broken = false ∧
    (readBar sBW.dev (.scr 1 64)).status = 0 ∧ NMap.find? tBW.arr 0 ≠ some (readBar sBW.dev (.scr 1 64)).phase :=
  ⟨⟨rfl, rfl, rfl, rfl, rfl, ⟨rfl, rfl⟩, rfl, ordNone rfl⟩, rfl, rfl, ⟨⟨_, rfl, rfl⟩, by decide, rfl⟩, by decide, by decide, by decide⟩

/-- ObjectsBegin: a free sector; the bytes of a ring of two slots of 32 bytes at 128. -/
def rg : Ring := { base := 128, nslots := 2, slotsz := 32 }
def sO : State := mk xA { wgp with mem := Memory.putBytes [] 64 rg.bytes }
theorem witness_object_begins : Alone sO xA grp 0 tA ∧
    InScratch sO xA { wgp with mem := Memory.putBytes [] 64 rg.bytes } (recOf (rdRec xA 0)) (rd32 xA tA (.v 4)) 0 32 64 ∧
    objAt sO.dev (.scr 1 64) = none ∧ inKilnArea sO.dev (.scr 1 64) = false ∧ NMap.find? wgp.bslots 0 = none ∧
    NMap.find? wgp.rslots 0 = none ∧ tA.breg.getLsbD 0 = false ∧ NMap.find? tA.rings 0 = none ∧
    (readRing sO.dev (.scr 1 64)).geometryOk 64 4096 = true :=
  ⟨⟨rfl, rfl, rfl, rfl, rfl, ⟨rfl, rfl⟩, by decide, by decide, ⟨rfl, rfl, rfl⟩, ⟨rfl, rfl⟩, ordNone rfl⟩,
    ⟨rfl, by decide, by decide, by decide, by decide, by decide⟩, by decide, by decide, by decide, by decide, by decide,
    by decide, by decide⟩

/-- A store of another thread under way has its sector at `a` still to write. -/
def sRest (a : Nat) : State :=
  onD sO fun d => { d with waves := d.waves ++ [(3, wav { tA with wait := .rest true [(.scr 1 a, 4)] {} })] }
theorem witness_store_due : storeDue (sRest 64).dev (.scr 1 64) = true ∧ storeDue sO.dev (.scr 1 64) = false ∧
    Alone (sRest 64) xA grp 0 tA :=
  ⟨by decide, by decide, ⟨rfl, rfl, rfl, rfl, rfl, ⟨rfl, rfl⟩, by decide, by decide, ⟨rfl, rfl, rfl⟩, ⟨rfl, rfl⟩, ordNone rfl⟩⟩

/-- Rings, ObjectFrame: a registered ring, with a free slot, without one, with a published one. -/
def rA (free filled : Nat) : Ring := { rg with free := free, filled := filled, putters := 1, getters := 1 }
def tR (h : RingHold) : Thread := { tA with rings := [(0, h)] }
def sR (r : Ring) (t : Thread) : State :=
  onD (mk (wavR t) { wgp with mem := Memory.putBytes [] 64 r.bytes, rslots := [(0, { loc := .scr 1 64, va := 64 })] })
    fun d => { d with objs := [{ loc := .scr 1 64, ring := true, ctx := 0, regs := [(2, 0)] }] }
theorem witness_ring (r : Ring) (h : RingHold) : Alone (sR r (tR h)) (wavR (tR h)) grp 0 (tR h) ∧
    RingHere (sR r (tR h)) (wavR (tR h)) 0 1 64 ∧ NMap.get {} (tR h).rings 0 = h :=
  ⟨⟨rfl, rfl, rfl, rfl, rfl, ⟨rfl, rfl⟩, by decide, by decide, ⟨rfl, rfl, rfl⟩, ⟨rfl, rfl⟩, ordNone rfl⟩,
    ⟨⟨_, rfl, rfl⟩, by decide, rfl, _, rfl, rfl, rfl⟩, rfl⟩
/-- A putter and a getter without slots, and with slot 0. -/
theorem witness_ring_facts : ∀ h ∈ ([{ put := true }, { get := true }, { put := true, reserved := [0] },
      { get := true, taken := [0] }] : List RingHold),
    (readRing (sR (rA 1 1) (tR h)).dev (.scr 1 64)).broken = false ∧
    (readRing (sR (rA 1 1) (tR h)).dev (.scr 1 64)).closed = false ∧
    (readRing (sR (rA 1 1) (tR h)).dev (.scr 1 64)).free = 1 ∧ (readRing (sR (rA 1 1) (tR h)).dev (.scr 1 64)).filled = 1 ∧
    (readRing (sR (rA 1 1) (tR h)).dev (.scr 1 64)).putters = 1 ∧
    (readRing (sR (rA 1 1) (tR h)).dev (.scr 1 64)).offset 0 = 128 ∧
    (readRing (sR (rA 0 0) (tR h)).dev (.scr 1 64)).broken = false ∧
    (readRing (sR (rA 0 0) (tR h)).dev (.scr 1 64)).closed = false ∧
    (readRing (sR (rA 0 0) (tR h)).dev (.scr 1 64)).free = 0 := by decide
/-- A closed ring with a slot filled, and empty; a broken one; a getter of an empty one. -/
theorem witness_ring_closed : ∀ h ∈ ([{ put := true }, { get := true }] : List RingHold),
    (readRing (sR { rA 0 1 with closed := true } (tR h)).dev (.scr 1 64)).closed = true ∧
    (readRing (sR { rA 0 1 with closed := true } (tR h)).dev (.scr 1 64)).filled = 1 ∧
    (readRing (sR { rA 0 0 with closed := true } (tR h)).dev (.scr 1 64)).filled = 0 ∧
    (readRing (sR { rA 0 0 with closed := true } (tR h)).dev (.scr 1 64)).broken = false ∧
    (readRing (sR { rA 0 0 with broken := true } (tR h)).dev (.scr 1 64)).broken = true ∧
    (readRing (sR (rA 1 0) (tR h)).dev (.scr 1 64)).filled = 0 ∧
    (readRing (sR (rA 1 0) (tR h)).dev (.scr 1 64)).closed = false ∧
    (readRing (sR (rA 1 1) (tR h)).dev (.scr 1 64)).getters = 1 := by decide
/-- A putter or a getter that waits at a ring: with a slot, with none, closed with one filled, closed and empty. -/
def tRW (put : Bool) : Thread := { tR { put := put, get := !put } with wait := .ring put 0 (.v 2) 1 }
def xRW (put : Bool) : Wave := { wavR (tRW put) with groups := [(0, { grp with began := true, lead := some 0 })] }
def sRW (r : Ring) (put : Bool) : State := { sR r (tRW put) with dev := { (sR r (tRW put)).dev with waves := [(2, xRW put)] } }
theorem witness_ring_waits (r : Ring) (put : Bool) :
    WaitsAlone (sRW r put) 2 0 (xRW put) { grp with began := true, lead := some 0 } 0 (tRW put) (.ring put 0 (.v 2) 1) ∧
    (xRW put).resident = true ∧ retained (sRW r put) 2 = false ∧ (xRW put).threads = [(0, tRW put)] ∧
    RingHere (sRW r put) (xRW put) 0 1 64 :=
  ⟨⟨rfl, rfl, rfl, rfl, rfl, ⟨rfl, rfl⟩, rfl, ordNone rfl⟩, rfl, rfl, rfl, ⟨⟨_, rfl, rfl⟩, by decide, rfl, _, rfl, rfl, rfl⟩⟩
theorem witness_ring_wakes : ∀ put ∈ [true, false],
    (readRing (sRW (rA 1 1) put).dev (.scr 1 64)).broken = false ∧ (readRing (sRW (rA 1 1) put).dev (.scr 1 64)).closed = false ∧
    0 < (readRing (sRW (rA 1 1) put).dev (.scr 1 64)).free ∧ 0 < (readRing (sRW (rA 1 1) put).dev (.scr 1 64)).filled ∧
    (readRing (sRW { rA 1 0 with closed := true } put).dev (.scr 1 64)).broken = false ∧
    (readRing (sRW { rA 1 0 with closed := true } put).dev (.scr 1 64)).closed = true ∧
    (readRing (sRW { rA 1 0 with closed := true } put).dev (.scr 1 64)).filled = 0 ∧
    (readRing (sRW (rA 0 0) put).dev (.scr 1 64)).free = 0 ∧ (readRing (sRW (rA 0 0) put).dev (.scr 1 64)).filled = 0 ∧
    (readRing (sRW (rA 0 0) put).dev (.scr 1 64)).closed = false := by decide

/-- TokenAndEvents: outside deterministic mode; the holder of the token; a deterministic wave without it. -/
def det (tok : Option Nat) : Launch := { lau with hdr := { lau.hdr with det := true }, token := tok }
def sD (tok : Option Nat) (x : Wave) : State := onD (mk x wgp) fun d => { d with launches := [(1, det tok)] }
theorem witness_token : (Machine.launch sA.dev 1).hdr.det = false ∧ holdsToken (sD (some 0) xA).dev 2 = true ∧
    holdsToken (sD none xA).dev 2 = false ∧ (Machine.launch (sD none xA).dev 1).hdr.det = true ∧
    (det (some 0)).hdr.waveCount = 1 ∧ (det (some 0)).endedWaves = [] ∧ xA.idx = 0 := by
  refine ⟨?_, ?_, ?_, ?_, ?_, ?_, ?_⟩ <;> decide
def tT : Thread := { tA with wait := .token 1 }
def xT : Wave := { wavR tT with groups := [(0, { grp with began := true, lead := some 0 })] }
theorem witness_token_arrival : WaitsAlone (sD (some 0) xT) 2 0 xT { grp with began := true, lead := some 0 } 0 tT (.token 1) ∧
    xT.resident = true ∧ retained (sD (some 0) xT) 2 = false ∧ xT.threads = [(0, tT)] ∧ holdsToken (sD (some 0) xT).dev 2 = true :=
  ⟨⟨rfl, rfl, rfl, rfl, rfl, ⟨rfl, rfl⟩, rfl, ordNone rfl⟩, rfl, rfl, rfl, by decide⟩
/-- A waiting launch alone. -/
theorem witness_waiting : ∃ (s : State) (n : Nat) (u : Launch), NMap.find? s.dev.launches n = some u ∧ u.ctx = 0 ∧ u.state = .waiting ∧
    s.dev.launches = [(n, u)] := ⟨onD sA fun d => { d with launches := [(1, { lau with state := .waiting })] }, 1, _, rfl, rfl, rfl, rfl⟩

/-- SpawnBins: an entry at 0x2000 (v2:v3) with its header, a bin of it with one thread, alone. -/
def tP : Thread := thr [0, 0, 0x2000, 0, 5, 0]
def bn (det : Bool) : Bin :=
  { entry := 0x2000, regs := 8, timer := 1, since := 0
    threads := [{ workid := 7, pay := [1, 2, 3], depth := 1, launch := if det then 9 else 1, paint := none, pts := 0 }] }
def sP : State := onD (mk (wavR tP) wgp) fun d =>
  { d with mem := Memory.putBytes d.mem 0x1FE0 ([8, 0, 1, 0, 0, 0, 0, 0, 4, 0x5E])
           bins := [bn false], ticks := 100 }
theorem witness_spawn : Alone sP (wavR tP) grp 0 tP ∧
    (match (spawnCheck sP.dev (wavR tP) tP (rd64 (wavR tP) tP (.v 2))).1 with | .ok _ => true | .error _ => false) = true ∧
    binAt sP.dev (clusterOf (wavR tP).core) (wavR tP).ctx (rd64 (wavR tP) tP (.v 2)) = some (bn false) ∧
    (bn false).threads.length < 63 ∧ (bn false).threads ≠ [] ∧
    (Machine.launch sP.dev (Bin.launch (bn false))).hdr.rep = false :=
  ⟨⟨rfl, rfl, rfl, rfl, rfl, ⟨rfl, rfl⟩, by decide, by decide, ⟨rfl, rfl, rfl⟩, ⟨rfl, rfl⟩, ordNone rfl⟩, by decide, by decide, by decide, by decide,
    by decide⟩
theorem witness_bin : sP.dev.bins = [bn false] ∧ (bn false).is 0 0 0x2000 = true ∧ (bn false).timer ≠ 0 ∧
    (Machine.launch sP.dev (Bin.launch (bn false))).hdr.det = false ∧
    (Machine.launch sP.dev (Bin.launch (bn false))).hdr.rec_ = false ∧
    (bn false).since + 100 * (bn false).timer ≤ sP.dev.ticks :=
  ⟨rfl, by decide, by decide, by decide, by decide, by decide⟩
/-- A launch of which nothing remains but the bin. -/
theorem witness_drain : ∃ s : State, s.dev.bins = [bn false] ∧ ∀ t ∈ (bn false).threads, launchOutside s.dev t.launch = false :=
  ⟨onD sP fun d => { d with waves := [], wgs := [], launches := [(1, { lau with nextWg := 1 })] }, rfl, by decide⟩

/-- KilnReservationAndRegisters: no reservation; one without commands, with one, with 64. -/
def cmd (op : Nat) (a b : List Word) : KCmd := { op := op, clr := false, split := false, level := 0, seq := 0, a := a, b := b }
def kil (cs : List KCmd) : Kiln := { area := 1024, bytes := 65536, seq := 64, cmds := cs }
def wgK (cs : List KCmd) : Wg := { wgp with kiln := some (kil cs) }
theorem witness_kiln (cs : List KCmd) : Alone (mk xA (wgK cs)) xA grp 0 tA ∧ KilnHere (mk xA (wgK cs)) xA (wgK cs) (kil cs) :=
  ⟨⟨rfl, rfl, rfl, rfl, rfl, ⟨rfl, rfl⟩, by decide, by decide, ⟨rfl, rfl, rfl⟩, ⟨rfl, rfl⟩, ordNone rfl⟩, ⟨rfl, rfl⟩⟩
theorem witness_kiln_facts : (wg sA.dev xA.wg).kiln = none ∧ inHandler xA = false ∧
    (kil []).cmds = [] ∧ 4 * 4 * (4095 + 1) ≤ (kil []).bytes ∧ (kil []).bytes / (4 * 4) ≤ 4096 ∧
    (kil [cmd 2 [1] []]).cmds ≠ [] ∧ (∀ c ∈ (kil [cmd 2 [1] []]).cmds, c.order < (mk xA (wgK [cmd 2 [1] []])).dev.nextId) ∧
    64 ≤ (kil (List.replicate 64 (cmd 2 [1] []))).cmds.length ∧ (kil []).busy = false ∧
    rangeDue sA.dev 1 1024 4096 = false ∧ rangeDue (sRest 5088).dev 1 1024 4096 = true := by decide +kernel
/-- A reservation whose last append has a sector to go. -/
theorem witness_kiln_busy : Alone (mk xA { wgp with kiln := some { kil [] with busy := true } }) xA grp 0 tA ∧
    (({ kil [] with busy := true } : Kiln).cmds ≠ [] ∨ ({ kil [] with busy := true } : Kiln).busy = true) :=
  ⟨⟨rfl, rfl, rfl, rfl, rfl, ⟨rfl, rfl⟩, by decide, by decide, ⟨rfl, rfl, rfl⟩, ⟨rfl, rfl⟩, ordNone rfl⟩, .inr rfl⟩

/-- KilnCommandsRun: a resident workgroup whose Kiln has a command at its front. -/
def kA (c : KCmd) : State := mk xA { wgp with kiln := some (kil [c]) }
def cLoad : KCmd := cmd 1 [0] [0x0900]
def cDrain : KCmd := cmd 4 [3, 4, 512, 0] []
theorem witness_kiln_front (c : KCmd) : NMap.find? (kA c).dev.wgs 1 = some { wgp with kiln := some (kil [c]) } ∧
    (kil [c]).cmds = [c] ∧ wgp.live = true ∧ wgp.resident = true ∧ wgp.ended = false ∧ (kA c).dev.cut = none ∧
    (kil [c]).posS = 0 := ⟨rfl, rfl, rfl, rfl, rfl, rfl, rfl⟩
theorem witness_kiln_load : cLoad.op = 1 ∧ heldBack (kA cLoad).dev 0 0 (cmdReads 1 0 cLoad) [] = false := ⟨rfl, by decide⟩
theorem witness_kiln_drain : cDrain.op = 4 ∧ bitsOf (cDrain.an 3) 0 1 = 0 ∧
    heldBack (kA cDrain).dev 0 0 [] (cmdWrites 1 cDrain) = false ∧
    rangeRegistered (kA cDrain).dev 1 (cDrain.an 2) (cDrain.size * cDrain.an 1) = false :=
  ⟨rfl, by decide, by decide, by decide⟩
/-- A KLOOP of two steps on group 0, macro 0, whose first step is next. -/
def cLoop : KCmd := cmd 3 [0, 128, 0, 0x00020101] [0, 320, 2048, 4]
def sL : State := mk xA { wgp with kiln := some { kil [cLoop] with started := true } }
theorem witness_kiln_loop : cLoop.op = 3 ∧ cLoop.split = false ∧ cLoop.level = 0 ∧ cLoop.ringMode = false ∧ cLoop.steps = 2 ∧
    cLoop.groups = [0] ∧ cLoop.macros = [0] ∧ (kil []).cancel = false ∧ (kil []).ring = none ∧ (kil []).rd = 0 ∧ (kil []).buf = [] ∧ (∀ n, n < 128 → 0 ≤ cLoop.accAt 0 0 0 n) ∧ 0 ≤ cLoop.scaleAt 0 0 0 ∧
    heldBack sL.dev 0 0 (scrSectors 1 (cLoop.vecAt 0 0) 320 ++ scrSectors 1 (cLoop.scaleAt 0 0 0).toNat 4) [] = false ∧
    (Vec.parse (Memory.bytes [] (cLoop.vecAt 0 0) 320)).poisoned = false := by
  refine ⟨?_, ?_, ?_, ?_, ?_, ?_, ?_, ?_, ?_, ?_, ?_, ?_, ?_, ?_, ?_⟩ <;> decide

/-- SlipInstructions: a card at offset 64 of the scratchpad; a core whose 64 jobs live; a job of ID 64, and none. -/
def jobs64 : NMap Job := (List.range 64).map fun n => (n, { id := n, state := 1, ctx := 0 })
theorem witness_skick : InScratch sA xA wgp (recOf (rdRec xA 0)) (rd32 xA tA (.v 4)) 0 128 64 ∧
    (coreJobs sA.dev xA.core).length < 64 ∧
    Nat.ble 64 (coreJobs (onD sA fun d => { d with jobs := jobs64 }).dev xA.core).length = true :=
  ⟨⟨rfl, by decide +kernel, by decide +kernel, by decide +kernel, by decide +kernel, by decide +kernel⟩, by decide +kernel, rfl⟩
/-- The card of a copy of two rows of three bytes from offset 64 + 1 to offset 512 of the scratchpad. -/
def crd : Memory := Memory.putBytes [] 8 (leBytes 4 3 ++ leBytes 4 2 ++ leBytes 4 1 ++ leBytes 4 0 ++ leBytes 4 0 ++ leBytes 4 0 ++
  leBytes 32 (rcd 64 1).toNat ++ leBytes 32 (rcd 512 1).toNat)
def jb (st : Nat) (e : Option Nat) : Job :=
  { id := 64, ctx := 0, wg := 1, wave := 2, card := crd, order := 5, state := st, ending := e, total := 6 }
def sJ (b : Job) : State := onD sA fun d => { d with jobs := [(64, b)] }
theorem witness_squery : findJob sA.dev xA.ctx (rd32 xA tA (.v 4)).toNat = none ∧
    findJob (sJ (jb 2 none)).dev xA.ctx (rd32 xA tA (.v 4)).toNat = some (jb 2 none) ∧ (jb 2 none).id = (rd32 xA tA (.v 4)).toNat ∧
    (wg (sJ (jb 2 none)).dev (jb 2 none).wg).ended = false :=
  ⟨rfl, rfl, rfl, rfl⟩

/-- SlipEngine: a queued job; a running one that is to read its last element, to write it, or has written it; one whose end is
decided. -/
theorem witness_slip_issue : mayIssue (sJ (jb 1 none)).dev (jb 1 none) = true ∧ issueCheck (sJ (jb 1 none)).dev (jb 1 none) = 0 :=
  ⟨by decide +kernel, by decide +kernel⟩
def jU (got : List (Nat × Option (List Byte))) (wr : Nat) : Job := { jb 2 none with i := 2, j := 1, got := got, wr := wr }
theorem witness_slip_unit : (jU [] 0).parse.kind = 0 ∧ (jU [] 0).parse.dring = false ∧ (jU [] 0).parse.bar = false ∧
    (jU [] 0).parse.srec.fmt = (jU [] 0).parse.drec.fmt ∧ handlesOk (sJ (jU [] 0)).dev (jU [] 0) = true ∧
    jobRuns (sJ (jU [] 0)).dev (jU [] 0) = true ∧ amongEight (sJ (jU [] 0)).dev (jU [] 0) = true ∧
    (jU [] 0).parse.srec.space = 1 ∧
    (jU [] 0).parse.srec.form (jU [] 0).parse.se ((jU [] 0).parse.si0 + 2) ((jU [] 0).parse.si1 + 1) = .at 67 ∧
    (sectorSpans 67 (jU [] 0).parse.se)[0]? = some (67, 1) ∧
    heldBack (sJ (jU [] 0)).dev 0 5 [(Loc.scr 1 67).sector] [] = false ∧ (jU [] 0).parse.drec.space = 1 ∧
    (jU [] 0).parse.drec.form (jU [] 0).parse.de ((jU [] 0).parse.di0 + 2) ((jU [] 0).parse.di1 + 1) = .at 514 ∧
    (jU [] 0).parse.de = 1 := by
  refine ⟨?_, ?_, ?_, ?_, ?_, ?_, ?_, ?_, ?_, ?_, ?_, ?_, ?_, ?_⟩ <;> decide +kernel
theorem witness_slip_write : (jU [(3, some [9])] 0).parse.si0 + 2 = 3 ∧ (sectorSpans 514 1)[0]? = some (514, 1) ∧
    registered (sJ (jU [(3, some [9])] 0)).dev (.scr 1 514) = false ∧
    heldBack (sJ (jU [(3, some [9])] 0)).dev 0 5 [] [(Loc.scr 1 514).sector] = false ∧
    (jU [(3, some [9])] 1).wr = (sectorSpans 514 1).length := by
  refine ⟨?_, ?_, ?_, ?_, ?_⟩ <;> decide +kernel
/-- Its last unit's sectors are all written, of a row before the last and of the last; the kicker's workgroup is out. -/
theorem witness_slip_full : ∀ j ∈ [0, 1], { jU [] 0 with i := 2, j := j, full := true }.full = true ∧
    { jU [] 0 with i := 2, j := j, full := true }.i + 1 = { jU [] 0 with i := 2, j := j, full := true }.parse.c0 ∧
    { jU [] 0 with i := 2, j := j, full := true }.parse.c1 = 2 := by decide +kernel
theorem witness_slip_paused :
    jobRuns (onD (sJ (jb 2 none)) fun d => { d with wgs := [(1, { wgp with resident := false })] }).dev (jb 2 none) = false := by
  decide +kernel
theorem witness_slip_end : (jb 2 (some 0)).ending = some 0 ∧ jobLive (jb 2 (some 0)) = true ∧
    jobRuns (sJ (jb 2 (some 0))).dev (jb 2 (some 0)) = true ∧
    (wg (sJ (jb 2 (some 0))).dev (jb 2 (some 0)).wg).ended = false := by decide +kernel

/-- GlazeTilesAndPaths, GlazeScan: an unbound path-tile 4, a bound one 3 with a square cell at its last pixel; tile 2 unbound,
or bound at 2560 with its sequences. -/
def pT (clip : Nat) : PathTile :=
  { origin := 0x00010002, cellA := [(255, 300)], cellC := [(255, 256)], desc := { seq := 7, clip := clip, entry := 0x2000 } }
def dT (depth : Nat) (last : Option Nat) (seqs : List (Nat × NMap BufEntry)) : DestTile :=
  { origin := 0x00010002, block := 2560, id := 5, gen := 1, depth := depth, last := last, seqs := seqs }
def gG (clip : Nat) (o : DestTile) : Wg := { wgp with scratch := 24000, paths := [(3, pT clip)], dests := [(2, o)] }
def tG (b : Word) : Thread := thr [3, 4, 0x00010002, 0, 64, b, 2]
def sG (b : Word) (g : Wg) : State :=
  onD (mk (wav (tG b)) g) fun d => { d with mem := Memory.putBytes d.mem 0x1FE0 [8, 0, 1, 0, 0, 0, 0, 0, 4, 0x5E]
                                            bins := [{ bn false with threads := [] }], ticks := 100 }
theorem alone_G (b : Word) (g : Wg) : Alone (sG b g) (wav (tG b)) grp 0 (tG b) ∧ NMap.find? (sG b g).dev.wgs 1 = some g :=
  ⟨⟨rfl, rfl, rfl, rfl, rfl, ⟨rfl, rfl⟩, by decide +kernel, by decide +kernel, ⟨rfl, rfl, rfl⟩, ⟨rfl, rfl⟩, ordNone rfl⟩, rfl⟩
/-- GCLR binds tile 1 beyond tile 2's block, finds it overlapping, finds no room; tile 2 has a sequence, or none. -/
theorem witness_gclr : blockOverlaps (sG 12800 (gG 0 (dT 0 none []))).dev 1 1 12800 = false ∧
    blockOverlaps (sG 12800 (gG 0 (dT 0 none []))).dev 1 1 12544 = true ∧
    roomDest (sG 12800 (gG 0 (dT 0 none []))).dev 0 = true ∧ freeTileId (sG 12800 (gG 0 (dT 0 none []))).dev 0 = some 0 ∧
    12800 % 256 = 0 ∧ 12800 + 10240 ≤ (gG 0 (dT 0 none [])).scratch ∧
    (dT 0 (some 5) [(5, [])]).seqs ≠ [] :=
  ⟨by decide +kernel, by decide +kernel, by decide +kernel, by decide +kernel, by decide +kernel, by decide +kernel, by decide +kernel⟩
theorem witness_gclr_full : roomDest (onD (sG 12800 (gG 0 (dT 0 none []))) fun d =>
    { d with wgs := (9, { wgp with dests := (List.range 16).map fun n => (n, {}) }) :: d.wgs }).dev 0 = false := by decide +kernel
/-- A segment within the last cell of a tile at the origin. -/
theorem witness_cell : let x0 := 256 * (16 * signed16 (bitsOf (0 : Word).toNat 0 16) + ((15 : Nat) : Int))
    x0 ≤ 3840 ∧ 3840 < x0 + 256 ∧ x0 ≤ 4095 ∧ 4095 < x0 + 256 := by decide +kernel
/-- Tiles at rest; a tile on which an instruction has sectors to go. -/
theorem witness_tiles : TilesIdle (gG 0 (dT 0 none [])) ∧
    ∃ o, NMap.find? (gG 0 { dT 0 none [] with busy := true }).dests 2 = some o ∧ o.busy = true := by
  refine ⟨?_, _, rfl, rfl⟩
  intro tn o h
  have e : (tn, o) ∈ [(2, dT 0 none [])] := mem_of_find? h
  simp only [List.mem_singleton, Prod.mk.injEq] at e
  rw [e.2]; rfl
/-- A path that paints: sequences full, order kept or not, the check of its entry passes, its bin there. -/
theorem witness_gscan : (pT 0).origin = (dT 0 none []).origin ∧ (pT 0).desc.clip = 0 ∧
    (∃ m, (dT 0 (some 7) []).last = some m ∧ (pT 0).desc.seq.toNat ≤ m) ∧
    (∀ m, (dT 0 (some 6) []).last = some m → m < (pT 0).desc.seq.toNat) ∧
    16 ≤ (dT 0 (some 6) ((List.range 16).map fun n => (n, []))).seqs.length ∧
    (match (spawnCheck (sG 3 (gG 0 (dT 0 (some 6) []))).dev (wav (tG 3)) (tG 3) (pT 0).desc.entry).1 with
      | .ok _ => true | .error _ => false) = true ∧
    needsBin (sG 3 (gG 0 (dT 0 (some 6) []))).dev 0 0 (pT 0).desc.entry = false ∧
    rangeRegistered (sG 3 (gG 0 (dT 0 (some 6) []))).dev 1 ((dT 0 (some 6) []).block + 2048) 1024 = false ∧
    ∀ m u, NMap.find? (sG 3 (gG 0 (dT 0 (some 6) []))).dev.launches m = some u → u.hdr.rep = false := by
  refine ⟨rfl, rfl, ⟨7, rfl, by decide +kernel⟩, ?_, ?_, ?_, ?_, ?_, ?_⟩
  · rintro m ⟨⟩; decide
  rotate_right
  · intro m u h
    have e : (m, u) ∈ [(1, lau)] := mem_of_find? h
    simp only [List.mem_singleton, Prod.mk.injEq] at e
    rw [e.2]; rfl
  all_goals decide +kernel

/-- GlazeBlendAndEmit: tile 2 with one sequence of one entry, pending, filled or discarded; a ticket that names it, and one
that names none. -/
def gB2 (f : Option (Option DWord)) : Wg := gG 0 (dT 0 (some 7) [(7, [(255, { k := 0x8000, fill := f })])])
def tB2 (tk : DWord) : Thread := thr [tk.extractLsb' 0 32, tk.extractLsb' 32 32, 5, 6]
def tkt : DWord := 0x00000007005100FF
def sB2 (f : Option (Option DWord)) (tk : DWord) : State := mk (wav (tB2 tk)) (gB2 f)
theorem alone_B2 (f : Option (Option DWord)) (tk : DWord) : Alone (sB2 f tk) (wav (tB2 tk)) grp 0 (tB2 tk) ∧
    NMap.find? (sB2 f tk).dev.wgs 1 = some (gB2 f) :=
  ⟨⟨rfl, rfl, rfl, rfl, rfl, ⟨rfl, rfl⟩, by decide, by decide, ⟨rfl, rfl, rfl⟩, ⟨rfl, rfl⟩, ordNone rfl⟩, rfl⟩
theorem witness_ticket : entryOf (sB2 none tkt).dev 0 (rd64 (wav (tB2 tkt)) (tB2 tkt) (.v 0)) = some (1, 2, 7, 255, { k := 0x8000 }) ∧
    entryOf (sB2 none (tkt + 0x100)).dev 0 (rd64 (wav (tB2 (tkt + 0x100))) (tB2 (tkt + 0x100)) (.v 0)) = none ∧
    (destAt (sB2 none tkt).dev 1 2).isSome = true ∧ (wg (sB2 none tkt).dev 1).resident = true ∧
    coreRetained (sB2 none tkt) (wg (sB2 none tkt).dev 1).core = false := by
  refine ⟨?_, ?_, ?_, ?_, ?_⟩ <;> decide
/-- The sequence retires: an entry pending; an entry filled. -/
theorem witness_retire : (∃ e ∈ [(255, ({ k := 0x8000, fill := none } : BufEntry))], e.2.fill = none) ∧
    (∀ e ∈ [(255, ({ k := 0x8000, fill := some (some 5) } : BufEntry))], e.2.fill ≠ none ∧ e.1 < 256) ∧
    ([(255, ({ k := 0x8000, fill := some (some 5) } : BufEntry))].map Prod.fst).Nodup := by decide
/-- A tile without sequences, to pixels of 8 bytes at 512; to a session 3 of 32 by 32 pixels, where it lies outside; to one of
64 by 32, with room and without. -/
def rE : BitVec 256 := BitVec.ofNat 256 (512 + 2 ^ 64 * 16 + 2 ^ 96 * 16 + 2 ^ 128 * 8 + 2 ^ 160 * 128 + 2 ^ 192 * 3 + 2 ^ 202)
def sE (q : Session) : State :=
  onD (mk { wav (tB2 3) with d := [(0, rE)] } (gG 0 (dT 0 (some 7) []))) fun d =>
    { d with ctxs := d.ctxs.map fun p => (p.1, { p.2 with sessions := [(3, q)] }) }
def ses (w : Nat) (asm : List Frame) : Session := { opened := true, block := 0x3000, width := w, height := 32, asm := asm }
theorem witness_emit : (recOf rE).valid = true ∧ (recOf rE).space = 1 ∧
    ∀ px ∈ List.range 256, (recOf rE).form 8 (0 + px % 16) (0 + px / 16) = .at (512 + 8 * px) ∧
      512 + 8 * px + 8 ≤ 24000 ∧ rangeRegistered (sE {}).dev 1 (512 + 8 * px) 8 = false := by decide +kernel
theorem witness_session : sessionAt (sE {}).dev 0 3 = none ∧ sessionAt (sE (ses 32 [])).dev 0 3 = some (ses 32 []) ∧
    (32 : Int) ≤ 16 * signed16 (bitsOf (dT 0 (some 7) []).origin.toNat 0 16) := by decide +kernel

/-- SpecialRegisters, TrapsAndReturns: the wave inside its handler; outside, a thread whose predicate is false. -/
def xH (t : Thread) : Wave := { wav t with tcause := 0x80000006, tformer := 1, tfault := 1, s := [(62, 0x3000)] }
theorem issues_H : Issues (mk (xH tA) wgp) (xH tA) grp ∧ NMap.find? (xH tA).threads 0 = some tA ∧ inHandler (xH tA) = true :=
  ⟨⟨rfl, rfl, rfl, by decide, by decide⟩, rfl, by decide⟩
theorem witness_outside : inHandler xA = false ∧ performs .always tA = true ∧ performs (.on false 0) tA = false ∧
    (Machine.launch sA.dev tA.launch).hdr.rep = false ∧ (Machine.launch sA.dev tA.launch).hdr.rec_ = false := by decide
/-- Two threads, one faulted, one waiting at a barrier; a handler at 0x3000, or none. -/
def xF (vec : Word) : Wave :=
  { wav tA with s := if vec = 0 then [] else [(62, vec)], groups := []
                threads := [(0, { tA with run := .fault 6, tpc := 5, taddr := 9 }), (63, { tA with wait := .bar 0 (.v 2) 1 })]
                first := some { code := 6, lane := 0, mask := 1, user := 0x52 } }
theorem witness_handler_entry : NMap.find? (mk (xF 0x3000) wgp).dev.waves 2 = some (xF 0x3000) ∧ (xF 0x3000).live = true ∧
    (xF 0x3000).resident = true ∧ coreRetained (mk (xF 0x3000) wgp) 0 = false ∧ inHandler (xF 0x3000) = false ∧
    allStopped (mk (xF 0x3000) wgp).dev 2 = true ∧ handlerVector (xF 0x3000) ≠ 0 ∧ ((xF 0x3000).threads.map Prod.fst).Nodup := by
  refine ⟨rfl, rfl, rfl, rfl, ?_, ?_, ?_, ?_⟩ <;> decide
theorem witness_unhandled : allStopped (mk (xF 0) wgp).dev 2 = true ∧ handlerVector (xF 0) = 0 ∧ wgp.waves = [2] ∧ wgp.nbhd = 0 ∧
    ((mk (xF 0) wgp).dev.waves.map Prod.fst).Nodup := by decide
/-- Every thread stopped at RTE, one with a mark of HOLD, one with none. -/
def xRt : Wave :=
  { xH tA with groups := [], threads := [(0, { tA with run := .rte, tpc := 0x4000, mark := .hold }), (9, { tA with run := .rte, tpc := 5 })] }
theorem witness_return : NMap.find? (mk xRt wgp).dev.waves 2 = some xRt ∧ xRt.live = true ∧ xRt.resident = true ∧
    coreRetained (mk xRt wgp) xRt.core = false ∧ allAtRte xRt = true := ⟨rfl, rfl, rfl, rfl, by decide⟩

/-- IssueForms: a thread ready at the clause at 0x1000, whose header is there; a reached run-on limit; a lane whose page
fault is answered; a context in destruction. -/
def xN (t : Thread) : Wave := { wav t with groups := [], nextGroup := 0 }
def sN (t : Thread) : State :=
  onD (mk (xN t) wgp) fun d => { d with mem := Memory.putBytes d.mem 0x1000 [0, 0, 0, 0, 0, 0, 0x10, 0x01] }
theorem witness_forms : NMap.find? (sN tA).dev.waves 2 = some (xN tA) ∧ spent (sN tA).dev (xN tA) 0 = false ∧ runOnReached (sN tA).dev (xN tA) = false ∧
    fetchWord (sN tA).dev 0 0 (pcClause (mkPc 0x1000 0)).toNat =
      (.word 0x0110000000000000, (fetchWord (sN tA).dev 0 0 (pcClause (mkPc 0x1000 0)).toNat).2) ∧
    (Header.of 0x0110000000000000).check = .ok () ∧ readyAt (xN tA) 0 = true ∧ (thread (xN tA) 0).pc = mkPc 0x1000 0 ∧
    waitsOk (fetchWord (sN tA).dev 0 0 (pcClause (mkPc 0x1000 0)).toNat).2 2 (Header.of 0x0110000000000000) 0 = true ∧
    holdsToken (fetchWord (sN tA).dev 0 0 (pcClause (mkPc 0x1000 0)).toNat).2 2 = false := by
  refine ⟨rfl, ?_, ?_, ?_, rfl, ?_, rfl, ?_, ?_⟩ <;> decide +kernel
def xL (t : Thread) : Wave := { wav t with runOn := 4096, first := some { code := 6, lane := 0, mask := 1, user := 0 } }
def tL : Thread := { tA with runOn := 4096 }
theorem witness_run_on : runOnReached (mk (xL tL) wgp).dev (xL tL) = true ∧
    (Machine.launch (mk (xL tL) wgp).dev 1).hdr.det = false ∧ (xL tL).groups = [(0, grp)] ∧ grp.lanes.Nodup ∧
    retained (mk (xL tL) wgp) 2 = false ∧ spent (sD none { xL tL with groups := [] }).dev { xL tL with groups := [] } 0 = true ∧
    (Machine.launch (sD none { xL tL with groups := [] }).dev 1).hdr.det = true := by
  refine ⟨?_, ?_, rfl, ?_, rfl, ?_, ?_⟩ <;> decide +kernel
/-- A lane that is to retry inside its clause, at its instruction or at the fetch of the word; at the fetch of the header. -/
def tY (h : Option Issued) : Thread := { tA with run := .page, pc := mkPc 0x1000 1, pgVa := 0x1010, inst := h }
def inY (w : Option DWord) : Issued := { hdr := Header.of 0x0110000000000000, iw := w }
theorem witness_retry : ∀ c ∈ [some (inY (some 0x0000401D70000000)), some (inY none), none],
    mayRetry (mk (xN (tY c)) wgp).dev (xN (tY c)) 0 = true ∧
    coreRetained (mk (xN (tY c)) wgp) (xN (tY c)).core = false := by decide +kernel
theorem witness_kill : ∃ s : State, s.dev.wgs = [(1, wgp)] ∧ wgp.live = true ∧ (ctx s.dev wgp.ctx).busy = 2 ∧
    (NMap.find? s.dev.ctxs wgp.ctx).isSome = true :=
  ⟨onD sA fun d => { d with ctxs := [(0, { busy := 2, cstate := 2 })] }, rfl, rfl, rfl, rfl⟩

/-- Collectives: group 15 of three device rows, 0 the root, 2 below 1; a chunk of four FP32 elements at 512, its result to 768. -/
def grpM : Memory :=
  Memory.putBytes [] (256 * 15) ([3, 0, 0x10, 0x10, 1, 1] ++ List.replicate 10 0 ++ [1, 0, 0, 0, 0, 0xFF, 0, 0] ++
    [1, 0, 0, 0, 1, 0, 9, 0] ++ [1, 0, 0, 0, 2, 1, 9, 0])
def tC (g n : Word) (b : Word) : Thread := thr [g, n, 512, 768, b, 0, 7]
def onG (s : State) : State := onD s fun d => { d with ctxs := d.ctxs.map fun p => (p.1, { p.2 with groups := grpM }) }
def sC (g n : Word) (b : Word) : State := onG (mk (wav (tC g n b)) wgp)
theorem witness_cred : (grpOf (ctx (sC 15 4 0).dev 0) 15).usable = true ∧ bitsOf (grpOf (ctx (sC 15 4 0).dev 0) 15).dies 0 1 = 1 ∧
    chunkArea (sC 15 4 0).dev 1 512 16 = true ∧ chunkArea (sC 15 4 0).dev 1 768 16 = true ∧ coreChunks (sC 15 4 0).dev 0 = 0 ∧
    heldBack (sC 15 4 0).dev 0 10 (scrSectors 1 512 16) [] = false := by
  refine ⟨?_, ?_, ?_, ?_, ?_, ?_⟩ <;> decide +kernel
theorem witness_cred_full : coreChunks (onD (sC 15 4 0) fun d =>
    { d with chunks := (List.range 8).map fun n => (n, { live := true }) }).dev 0 = 8 := by decide
def chk : Chunk := { ctx := 0, wg := 1, group := 15, seq := 1, n := 4, pfmt := 0x10, dfmt := 0x10, dst := 768, live := true
                     src := List.replicate 16 1 }
def sDl : State := onG (onD sA fun d => { d with chunks := [(5, chk)] })
theorem witness_delivery : NMap.find? sDl.dev.chunks 5 = some chk ∧
    chk.out = none ∧ chk.pos = 0 ∧ sDl.dev.cut = none ∧
    chunkReady sDl.dev (grpOf (ctx sDl.dev 0) 15) [(5, chk)] = true ∧ chunkPeers sDl.dev chk = [(5, chk)] ∧
    wgp.ended = false := by
  refine ⟨rfl, rfl, rfl, rfl, ?_, ?_, ?_⟩ <;> decide +kernel
/-- The row that fails has a child and a parent. -/
theorem witness_row : (grpOf (ctx (sC 15 4 0).dev 0) 15).usable = true ∧ ((grpOf (ctx (sC 15 4 0).dev 0) 15).row 1).live = true ∧
    ((grpOf (ctx (sC 15 4 0).dev 0) 15).row 1).parent = 0 ∧ ((grpOf (ctx (sC 15 4 0).dev 0) 15).row 2).parent = 1 ∧
    1 < (grpOf (ctx (sC 15 4 0).dev 0) 15).rows.length := by
  refine ⟨?_, ?_, ?_, ?_, ?_⟩ <;> decide +kernel

/-- SaggarInstructions: core 3 with registers x6 and x7; a core that waits. -/
def sX (a b : DWord) (f : SCore → SCore) : State :=
  let s := onD sA fun d => { d with ctxs := [(63, { cstate := 1, cls := 1 })] }
  { s with saggar := { on := true, cur := 3
                       cores := [(3, f { x := [(6, a), (7, b)], mtvec := 0x08000101, sig := 6, machine := false })] } }
theorem witness_rfetch : inLocal (0x0803FF80) 128 = true ∧ 0x0803FF80 % 128 = 0 ∧ inLocal 0x08040000 128 = false ∧
    ((sCore (sX 511 0x0803FF80 id)).rd 6).toNat = 511 ∧ ((sCore (sX 511 0x0803FF80 id)).rd 7).toNat = 0x0803FF80 := by decide
/-- BFEXT of one bit at bit 63, and one bit more. -/
theorem witness_bfext : 0x013F / 256 % 64 ≠ 0 ∧ 0x013F % 64 + 0x013F / 256 % 64 ≤ 64 ∧ 64 < 0x023F % 64 + 0x023F / 256 % 64 := by
  decide
theorem witness_swait : (sCore (sX 4 0 id)).sig &&& (sCore (sX 4 0 id)).rd 6 ≠ 0 ∧ (sCore (sX 1 0 id)).sig &&& (sCore (sX 1 0 id)).rd 6 = 0 ∧
    (sCore (sX 1 0 id)).rd 6 ≠ 0 ∧ (sCore (sX 0 0 id)).rd 6 = 0 := by decide
theorem witness_wdisp : ((sCore (sX 0x08000040 63 id)).rd 6).toNat % 64 = 0 ∧ ((sCore (sX 0x08000040 63 id)).rd 7).toNat ≤ 63 ∧
    (ctx (sX 0x08000040 63 id).dev 63).runs = true := by decide
theorem witness_swait_wake : ∃ w, (sCore (sX 0 0 fun c => { c with wait := some { rd := 31, mask := 1, til := some 0 } })).wait = some w ∧
    w.rd = (31 : XReg).val ∧ (6 : DWord) &&& w.mask = 0 ∧ (6 : DWord) &&& 4 ≠ 0 ∧ w.til = some 0 := ⟨_, rfl, rfl, rfl, by decide, rfl⟩

/-- The base instructions: a word at the pc of core 0, x6 at local memory. -/
def sRv (w : Nat) : State :=
  let s := State.reset.withFetchWord 32 w
  { s with saggar := { s.saggar with cores := s.saggar.cores.map fun p => (p.1, { p.2 with x := [(6, 0x08000100)] }) } }
theorem witness_rv (w : Nat) : (sRv w).agenda = [.saggar 0] ∧ (sRv w).saggar.on = true ∧ ((sRv w).saggar.core 0).wait = none :=
  ⟨rfl, rfl, rfl⟩
/-- ADDI x5, x6, −1; ADD x5, x6, x7; LD x5, −8(x6); BEQ; ECALL. -/
theorem witness_rv_words : (∀ w ∈ [0xFFF30293, 0x007302B3, 0xFF833283, 0x00730463, 0x00000073],
      inLocal ((sRv w).saggar.core 0).pc.toNat 4 = true ∧ ((sRv w).saggar.core 0).word = BitVec.ofNat 32 w) ∧
    inLocal (((sRv 0xFF833283).saggar.core 0).rd 6 + (((0xFF833283 : BitVec 32).extractLsb' 20 12).signExtend 64)).toNat 8 = true ∧
    (0xFFF30293#32).extractLsb' 0 7 = 0x13#7 ∧ (0x007302B3#32).extractLsb' 0 7 = 0x33#7 ∧ rvF7 0x007302B3#32 = 0 ∧
    (0xFF833283#32).extractLsb' 0 7 = 0x03#7 ∧ rvF3 0xFF833283#32 = 3 ∧ (0x00730463#32).extractLsb' 0 7 = 0x63#7 ∧
    rvF3 0x00730463#32 = 0 := by decide +kernel

/-- QueuesAndLaunches, Packets: context 63 owned by node 7, its queue 5 of 64 slots enabled, with packets `b` at HEAD. -/
def que (f : Queue → Queue) : Queue :=
  f { qbase := 0x5000, qlog := 6, qen := true, tail := 3, head := 0xFFFFFFFF, pktNo := 4 }
def sQu (f : Queue → Queue) (b : List Byte) : State :=
  onD sA fun d => { d with ctxs := [(63, { cstate := 1, qcount := 6, owner := some 7, cls := 1, ptroot := 0x200000, period := 100
                                           created := 50, deadline := 30, queues := [(5, que f)] })]
                           host := Memory.putBytes [] (0x5000 + 128 * 63) b }
/-- A packet's bytes: kind, notify, then its words. -/
def pkt (kind : Nat) (body : Memory) : List Byte :=
  Memory.bytes (Memory.putBytes body 0 [BitVec.ofNat 8 kind]) 0 128
theorem witness_queue : owns (sQu id []).dev 7 63 = true ∧ owns (sQu id []).dev 6 63 = false ∧ queueLives (sQu id []).dev 63 5 = true ∧
    queue (sQu id []).dev 63 5 = que id := by
  refine ⟨?_, ?_, ?_, rfl⟩ <;> decide
theorem witness_queue_block : ∃ s : State, s.mgmt.boot = 3 ∧ queue s.dev 63 5 = que id ∧ queueLives s.dev 63 5 = true ∧
    owns s.dev 7 63 = true ∧
    ((0x0000003E00000001 : DWord).extractLsb' 32 32 - 3).toNat + ((3 : Word) - 0xFFFFFFFF).toNat ≤ 2 ^ 6 :=
  ⟨{ sQu id [] with mgmt := { (sQu id []).mgmt with boot := 3 } }, rfl, rfl, rfl, by decide, by decide⟩
/-- A tail that exactly fills the queue, and one more. -/
theorem witness_doorbell : ((63 : Word) - 3).toNat + ((3 : Word) - 0xFFFFFFFF).toNat = 2 ^ 6 ∧
    2 ^ 6 < ((64 : Word) - 3).toNat + ((3 : Word) - 0xFFFFFFFF).toNat := by decide
/-- EVENT_SET at the last slot is fetched; a reserved kind is not. -/
theorem witness_fetch : (queue (sQu id (pkt 2 [(0x10, 1)])).dev 63 5).head ≠ (queue (sQu id (pkt 2 [(0x10, 1)])).dev 63 5).tail ∧
    (checkPacket (sQu id (pkt 2 [(0x10, 1)])).dev 63 (que id)
      (Memory.bytes (sQu id (pkt 2 [(0x10, 1)])).dev.host (headAddr (que id)) 128)).1.toOption = some (pkt 2 [(0x10, 1)]) ∧
    (checkPacket (sQu id (pkt 7 [])).dev 63 (que id)
      (Memory.bytes (sQu id (pkt 7 [])).dev.host (headAddr (que id)) 128)).1.toOption = none := by
  refine ⟨?_, ?_, ?_⟩ <;> decide +kernel
theorem witness_ready : ∀ k ∈ [0, 1, 2, 3, 4, 5],
    ready (sQu (fun q => { q with pend := some (pkt k []) }) []).dev 63 5 k = some (pkt k []) ∧ pktKind (pkt k []) = k := by decide
def outN (naddr : Nat) : Out := { pkt := 4, kind := 2, notify := true, naddr := naddr, nval := 0x1122334455667788, complete := true }
def sNv (naddr : Nat) : State :=
  onD (sQu (fun q => { q with outs := [outN naddr] }) []) fun d => { d with mem := sA.dev.mem }
theorem witness_nval : (outN 0x8000).naddr % 8 = 0 ∧ translateDirect (sNv 0x8000).dev 63 0x8000 .store = .ok 0x8000 ∧
    translateDirect (sNv 0).dev 63 (2 ^ 63) .store = .protection := by
  refine ⟨?_, ?_, ?_⟩ <;> decide +kernel
/-- A due launch of each class; one of which nothing remains. -/
def sLr (cls : Nat) : State := onD (sQu id []) fun d => { d with wgs := [], waves := [], launches := [(1, { lau with ctx := 63, state := .due, hdr := { lau.hdr with cls := cls }, dueAt := 160 })] }
theorem witness_release : ∀ cls ∈ [1, 2, 3], (Machine.launch (sLr cls).dev 1).state = .due ∧ (Machine.launch (sLr cls).dev 1).hdr.cls = cls ∧
    0 < (ctx (sLr cls).dev 63).period ∧ (ctx (sLr cls).dev 63).created ≤ 160 := by decide
def sLo : State :=
  onD (sQu (fun q => { q with outs := [{ outN 0 with complete := false }] }) []) fun d =>
    { d with wgs := [], waves := [], launches := [(1, { lau with ctx := 63, via := some (5, 4), liveWgs := 0, hdr := { lau.hdr with setMask := 1 } })] }
theorem witness_over : launchOver sLo.dev 1 = true ∧ (Machine.launch sLo.dev 1).via = some (5, (outN 0).pkt) := by decide

/-- EncoderSessions: a session packet of operation `op` for session 3, whose block stands at 0x8000. -/
def blk0 : List Byte :=
  Memory.bytes (Memory.putBytes [] 0 ([1, 0, 13, 0] ++ leBytes 2 4096 ++ leBytes 2 64 ++ leBytes 4 4 ++ leBytes 2 30 ++ leBytes 2 1 ++
    List.replicate 24 0 ++ leBytes 8 0x9000 ++ [16, 0, 0, 0])) 0 128
def sOp (op : Nat) (xs : NMap Session) : State :=
  onD (sQu (fun q => { q with pend := some (pkt 6 [(8, BitVec.ofNat 8 op), (9, 3), (0x11, 0x80)]) }) []) fun d =>
    { d with mem := Memory.putBytes sA.dev.mem 0x8000 blk0
             ctxs := d.ctxs.map fun p => (p.1, { p.2 with sessions := xs }) }
theorem witness_session_packet : ∀ op ∈ [0, 1, 2, 3], (readyOp (sOp op []).dev 63 5 op).isSome = true := by decide
theorem witness_session_open : (saggarLoad (sOp 0 []).dev 63 0x8000 128).map Prod.fst = some blk0 ∧
    openError (sOp 0 []).dev 63 3 0x8000 blk0 true = 0 ∧ openError (sOp 0 []).dev 63 3 0x8000 blk0 false = 5 := by
  refine ⟨?_, ?_, ?_⟩ <;> decide +kernel
/-- A block that cannot be read, for a session open and idle, and for one that is not open. -/
theorem witness_session_unreadable : ∀ xs ∈ ([[(3, { opened := true, block := 0x8000 })], []] : List (NMap Session)),
    (saggarLoad (onD (sOp 0 xs) fun d => { d with ctxs := d.ctxs.map fun p => (p.1, { p.2 with ptroot := 0 }) }).dev 63 0x8000 128).isNone = true ∧
    (readyOp (onD (sOp 0 xs) fun d => { d with ctxs := d.ctxs.map fun p => (p.1, { p.2 with ptroot := 0 }) }).dev 63 5 0).isSome = true := by
  decide +kernel
def sesC (f : Session → Session) : Session := f { opened := true, block := 0x8000, width := 64, height := 64, lowDelay := true, outBase := 0x9000, outLog := 16 }
def frm : Frame := { num := 0 }
theorem witness_session_open_now : sessionAt (sOp 2 [(3, sesC id)]).dev 63 3 = some (sesC id) ∧
    (saggarLoad (sOp 3 [(3, sesC id)]).dev 63 (0x8000 + 0x10) 24).isSome = true ∧
    NMap.find? (ctx (sOp 1 [(3, sesC fun x => { x with coding := [frm] })]).dev 63).sessions 3 = some (sesC fun x => { x with coding := [frm] }) := by
  refine ⟨rfl, ?_, rfl⟩; decide +kernel
/-- Rates that an open takes, and rates with RC 3; a frame alone in the encoder. -/
theorem witness_rates : ratesOk 1 ([2] ++ List.replicate 23 0) = true ∧ ratesOk 1 ([3] ++ List.replicate 23 0) = false ∧
    (sesC fun x => { x with coding := [frm] }).stalled = false ∧ (sesC id).asm = [] ∧ (sesC id).closing = none := by decide
theorem witness_ring_room : (ringRoom (sOp 1 [(3, sesC id)]).dev 63 (sesC id)).1 = 65536 ∧
    (ringRoom (sOp 1 [(3, sesC id)]).dev 63 (sesC fun x => { x with outWr := 65536 })).1 = 0 := by
  refine ⟨?_, ?_⟩ <;> decide +kernel

/-- Contexts: a free context whose descriptor passes; an active one with a workgroup, and with none; one being invalidated. -/
def dsc : Memory :=
  Memory.putBytes [] 0 (leBytes 2 9 ++ [8, 3] ++ leBytes 12 0 ++ leBytes 8 0x200000 ++ leBytes 8 0x10000 ++ leBytes 4 131072)
def sCx (f : Ctx → Ctx) : State :=
  let s := onD sA fun d => { d with ctxs := (63, f { desc := dsc }) :: d.ctxs }
  { s with mgmt := { s.mgmt with boot := 3 } }
theorem witness_create : (ctx (sCx id).dev 63).cstate = 0 ∧ descriptorOk (sCx id).dev 63 (ctx (sCx id).dev 63) = true ∧
    descriptorOk (sCx fun x => { x with desc := [] }).dev 63 { (ctx (sCx id).dev 63) with desc := [] } = false := by
  refine ⟨rfl, ?_, ?_⟩ <;> decide +kernel
def own (x : Ctx) : Ctx := { x with cstate := 1, owner := some 7, qcount := 8, ptroot := 0x200000 }
theorem witness_owner : owns (sCx own).dev 7 63 = true ∧ (ctx (sCx own).dev 63).cstate = 1 ∧ owns (sCx own).dev 8 63 = false ∧
    (∀ p ∈ (sCx own).dev.wgs, p.2.ctx ≠ 63) ∧
    ∃ s : State, owns s.dev 7 0 = true ∧ (ctx s.dev 0).cstate = 1 ∧ ∃ p ∈ s.dev.wgs, p.2.ctx = 0 :=
  ⟨by decide, by decide, by decide, by decide,
    onD sA fun d => { d with ctxs := d.ctxs.map fun p => (p.1, { p.2 with owner := some 7 }) }, by decide, by decide,
    (1, wgp), by decide, rfl⟩
theorem witness_invalidation : (ctx (sCx fun x => { own x with cstate := 2, busy := 3 }).dev 63).busy = 3 ∧
    accessUnderWay (sCx fun x => { own x with cstate := 2, busy := 3 }).dev 63 = false := ⟨rfl, by decide +kernel⟩
/-- The last bytes of a sector of the aperture. -/
theorem witness_aperture : translateDirect (sCx own).dev 63 (0x801E : DWord).toNat .load = .ok 0x801E ∧
    translateDirect (sCx own).dev 63 (0x801E : DWord).toNat .store = .ok 0x801E ∧ (0x801E : DWord).toNat % 32 + 2 ≤ 32 ∧
    registered (sCx own).dev (.glob 0x801E) = false ∧ (sCx own).dev.cut = none ∧ (sCx own).dev.aps = [] := by
  refine ⟨?_, ?_, ?_, ?_, rfl, rfl⟩ <;> decide +kernel

/-- FabricRange: byte 1 of the last cone counter of core 255, read by the owner of window 63. -/
def sFb : State :=
  { (sCx fun x => { own x with cones := [(coneKey 255 3 2, 0x1234)] }) with
    agenda := [.fabric 7 (0x1000000 + 0x10000 * 63 + 0x1000 + 96 * 255 + 8 * (4 * 2 + 3) + 1) false [0]] }
theorem witness_fabric : sFb.mgmt.boot = 3 ∧ sFb.mgmt.fbbase = 0 ∧ owns sFb.dev 7 63 = true ∧
    0x1000 + 96 * 255 + 8 * (4 * 2 + 3) + 1 < 0x10000 ∧
    (match step sFb with | .next t => t.dev.resp | _ => none) = some [0x12] := by
  refine ⟨rfl, rfl, rfl, by decide, ?_⟩; decide +kernel

/-- No access of node 7 is under way; one is. -/
theorem witness_fabric_behind : (∀ p ∈ sFb.dev.aps, p.node ≠ 7) ∧
    ∃ s : State, s.agenda = [.fabric 7 (s.mgmt.fbbase.toNat + 0x1400000) false [0]] ∧ ∃ p ∈ s.dev.aps, p.node = 7 :=
  ⟨nofun, { onD sFb fun d => { d with aps := [{ node := 7, ctx := 63, off := 30, write := true, data := [1, 2, 3, 4], rest := [(.glob 0x8020, 2)] }] } with
    agenda := [.fabric 7 0x1400000 false [0]] }, rfl, _, List.mem_singleton.mpr rfl, rfl⟩

/-- TAIL of the context's last queue of the window, in CSTATE 1. -/
theorem witness_fabric_tail : ∃ s : State, s.mgmt.boot = 3 ∧ owns s.dev 7 63 = true ∧ (ctx s.dev 63).cstate = 1 ∧
    s.agenda = [.fabric 7 (s.mgmt.fbbase.toNat + (0x1000000 + 0x10000 * 63 + (0x8010 + 128 * 7 + 3))) false [0]] :=
  ⟨{ sFb with agenda := [.fabric 7 (0x1000000 + 0x10000 * 63 + (0x8010 + 128 * 7 + 3)) false [0]] }, rfl, by decide, by decide, by decide⟩

/-- PageFaults: one lane parked on a granule; its record pending. -/
def tPk : Thread := { tA with run := .page, pgVa := 0x1234567, pgKind := 1, pgLevel := 2, workid := 9, pc := 0x1001, tpc := 0x1001, taddr := 0x1234560 }
def sPf (pend : List Nat) : State :=
  onD (mk { wav tPk with groups := [] } wgp) fun d =>
    { d with ctxs := [(0, { cstate := 1, owner := some 7, pf := { base := 0x4000, log := 4, wr := 15, rd := 0, ansva := 0x1230000, pending := pend } })] }
theorem witness_fault : (newFaults (sPf []).dev 0).length = 1 ∧ (ctx (sPf []).dev 0).runs = true ∧ parkedOn tPk = true ∧
    tPk.pgVa / 65536 = (0x1230000 : DWord).toNat / 65536 ∧ owns (sPf [0x123]).dev 7 0 = true ∧
    (0x1230000 : DWord).toNat / 65536 ∈ [0x123] ∧ ((15 : Word) - 0).toNat ≠ 2 ^ 4 := by decide

/-- RecordAndReplayLogs: a recording launch of context 0, whose log of 256 records stands at 0x8000. -/
def sLg (b : LogBlock) : State :=
  onD sA fun d => { d with ticks := 20001, ctxs := d.ctxs.map fun p => (p.1, { p.2 with owner := some 7, logb := b })
                           launches := [(1, { lau with logBase := 0x8000, logLog := 8, logWait := 10000, hdr := { lau.hdr with rec_ := true } })] }
theorem witness_rdidx : owns (sLg {}).dev 7 0 = true ∧ (ctx (sLg {}).dev 0).logb.active = false ∧
    (Machine.launch (sLg { active := true, launch := 1 }).dev 1).hdr.rec_ = true := by
  refine ⟨?_, ?_, ?_⟩ <;> decide
theorem witness_log_record : (logRec 3 4 5 6 7).length = 32 ∧ (0x8000 + 32 * (255 % 2 ^ 8)) % 32 = 0 ∧
    translateDirect (sLg { launch := 1, wr := 255, waiting := [logRec 3 4 5 6 7] }).dev 0 (0x8000 + 32 * 255) .store = .ok 0x9FE0 := by
  refine ⟨?_, ?_, ?_⟩ <;> decide +kernel
/-- A full log, since one TICK too few and just long enough. -/
theorem witness_log_full : ∀ l : Launch, l.logLog = 8 → logRoom { active := true, launch := 1, wr := 255, rd := 0xFFFFFFFF, since := 10001 } l = false := by
  intro l h; simp only [logRoom, h]; decide
theorem witness_log_time : ¬ 10002 - 1 + 10000 < 20001 ∧ 10001 - 1 + 10000 < 20001 := by decide

/-- PowerEvents: a cluster in retention, one in a bisque run, one that may start each. -/
def sPw (f : ClusterPower → ClusterPower) : State := { State.reset with power := { clusters := [(31, f {})] } }
theorem witness_power : (cluster (sPw fun c => { c with ret := true }).power 31).ret = true ∧
    (cluster (sPw fun c => { c with bisque := true }).power 31).bisque = true ∧
    (cluster (sPw id).power 31).grants = 6 ∧ (cluster (sPw id).power 31).ratio = 1 := by decide

/-- A cluster in retention with a sleep that is over, and with none. -/
theorem witness_retention_exit : wakes sS 0 = true ∧ wakes (onD sS fun d => { d with ticks := 4 }) 0 = false := by decide +kernel

/-- BringUp: node 7 manages; each state of a hand-over. -/
def sBu (boot ho : Nat) : State := { State.reset with mgmt := { State.reset.mgmt with boot := boot, mnode := some 7, hostate := ho } }
theorem witness_manages : manages (sBu 1 0).mgmt 7 = true ∧ (sBu 1 0).mgmt.boot = 1 ∧ (2 ^ 39 : DWord).toNat % 2 ^ 39 = 0 ∧
    (sBu 3 1).mgmt.hostate = 1 ∧ (sBu 3 3).mgmt.hostate = 3 ∧ (sBu 1 0).mgmt.attstate ≠ 1 := by decide

/-- Placement: an empty device and one released launch; a launched bin; a neighbourhood of two workgroups. -/
def sPl (h : LaunchHdr → LaunchHdr) : State :=
  onD sA fun d => { d with wgs := [], waves := [], launches := [(1, { lau with nextWg := 0, liveWgs := 0, hdr := h { lau.hdr with widths := [6, 1, 0, 0, 0, 0], extents := [64, 2, 1, 1, 1, 1], waves := 1, scratch := 65536, entry := 0x2000 } })] }
theorem witness_place : sA.dev.plans = [] ∧ (cluster sA.power (clusterOf 0)).ret = false ∧
    (match nextTurn (sPl id).dev (blockedIn sA.power) (awaiting (sPl id).dev) with
      | .place (.new 1 0) [s] => s.slots == [0] && s.core == 0 | _ => false) = true := by
  refine ⟨rfl, rfl, ?_⟩; decide +kernel
/-- Its first handle names a record and its second names none; its entry lies beyond the addresses. -/
theorem witness_place_failing : ∀ h ∈ ([⟨[0x00010003, 0x00010004], 0x2000⟩, ⟨[], 2 ^ 57⟩] : List (List Word × DWord)),
    (match nextTurn (sPl fun x => { x with handles := h.1, entry := h.2 }).dev (blockedIn sA.power)
        (awaiting (sPl fun x => { x with handles := h.1, entry := h.2 }).dev) with
      | .place (.new 1 0) [_] => true | _ => false) = true := by decide +kernel
theorem witness_place_bin : (match nextTurn (onD (sPl id) fun d => { d with launches := [(1, lau)], binUnits := [bn false] }).dev (blockedIn sA.power)
      (awaiting (onD (sPl id) fun d => { d with launches := [(1, lau)], binUnits := [bn false] }).dev) with
      | .place (.bin 0) [_] => true | _ => false) = true := by decide +kernel
theorem witness_place_nbhd : (match nextTurn (sPl fun h => { h with nbhd := true, nrows := 2, ncols := 1 }).dev (blockedIn sA.power)
      (awaiting (sPl fun h => { h with nbhd := true, nrows := 2, ncols := 1 }).dev) with
      | .place (.new 1 0) [a, b] => a.core == 0 && b.core == 16 | _ => false) = true := by decide +kernel

/-- EvictionAndYield: a save area that takes a frame, or none; a chosen wave; one out of its slot; a plan. -/
def xEv (f : Wave → Wave) : Wave := f { wavR tA with regs := 8 }
def sEv (save : Nat) (f : Wave → Wave) : State :=
  onD (mk (xEv f) wgp) fun d => { d with ctxs := d.ctxs.map fun p => (p.1, { p.2 with save := save, saveSize := 75776, yield_ := 100 }) }
theorem witness_evict : (xEv fun x => { x with leaving := some false }).leaving.isSome = true ∧ (∀ p ∈ (xEv id).threads, p.2.wait.midway = false) ∧
    (ctx (sEv 0 id).dev 0).busy = 0 ∧ sA.dev.svc = [] ∧
    (Machine.launch (sEv 0 id).dev 1).hdr.det = false := by decide
theorem frame_place (save : Nat) (f : Wave → Wave) : framePlace (sEv save f).dev 0 10240 = save + 65536 := by
  show save + 65536 + Config.freeNat 0 % (75776 - 65536 - 10240 + 1) = _
  simp [Nat.mod_one]
theorem witness_frame : waveFrame (xEv id) = 10240 ∧ (touchFrame (sEv 0x10000 id).dev 0 10240 true).isSome = true ∧
    (touchFrame (sEv 0x10000 id).dev 0 10240 false).isSome = true := by
  refine ⟨rfl, ?_, ?_⟩ <;> rw [touchFrame_isSome, frame_place] <;> decide +kernel
theorem witness_no_frame (b : Bool) : touchFrame (sEv (2 ^ 60) id).dev 0 10240 b = none := by
  have h : (touchFrame (sEv (2 ^ 60) id).dev 0 10240 b).isSome = false := by
    rw [touchFrame_isSome, frame_place]; cases b <;> decide +kernel
  simpa using h
/-- A wave out of its slot is next; a wave of a lower class is planned out for a workgroup that fills the core's scratchpad. -/
def sRes : State := sEv 0x10000 fun x => { x with resident := false }
theorem witness_resume : (match nextTurn sRes.dev (blockedIn sRes.power) (awaiting sRes.dev) with
    | .place (.wave 2) [s] => s.slots == [0] | _ => false) = true := by decide +kernel
/-- A plan: a launch of class 1 that finds core 0 full of waves' scratchpads of class 3. -/
def sPn : State :=
  onD (sEv 0x10000 id) fun d => { d with
    ctxs := d.ctxs.map fun (p : Nat × Ctx) => (p.1, { p.2 with saveSize := 2 ^ 24, sealed_ := true, sealMask := 1 })
    wgs := (List.range 8).map fun c => (c + 1, { wgp with scratch := 8 * 2 ^ 20, core := 16 * (c / 8) + c, waves := [c + 2] })
    waves := (List.range 8).map fun c => (c + 2, { xEv id with wg := c + 1, core := 16 * (c / 8) + c })
    launches := [(1, { lau with cls := 3 }), (9, { lau with cls := 1, nextWg := 0, hdr := { lau.hdr with scratch := 65536, waves := 1, regs := 8 } })] }
theorem witness_plan : (match nextTurn sPn.dev (blockedIn sPn.power) (awaiting sPn.dev) with
    | .plan p => p.victims == [2] | _ => false) = true ∧ (wave sPn.dev 2).live = true ∧ (wave sPn.dev 2).hold = 0 := by
  refine ⟨?_, rfl, rfl⟩; decide +kernel
/-- A wave asked for a safe point, with a sequence open. -/
def sSp : State :=
  onD (sEv 0x10000 id) fun d => { d with ticks := 6, waves := [(2, { xEv id with safeReq := some (some 5) })]
                                         wgs := [(1, { wgp with dests := [(0, { seqs := [(1, [])] })] })] }
theorem witness_plan_forced : (ctx sPn.dev 0).yield_ = 100 ∧
    (wave (onD sPn fun d => { d with waves := d.waves.map fun p => (p.1, { p.2 with safeReq := some none }) }).dev 2).safeReq = some none :=
  ⟨rfl, rfl⟩
theorem witness_safe_point : sSp.dev.waves = [(2, { xEv id with safeReq := some (some 5) })] ∧ 5 < sSp.dev.ticks ∧
    atSafePoint sSp.dev 2 = false ∧ (∃ l, NMap.find? sSp.dev.launches 1 = some l ∧ l.ctx = 0 ∧ l.state = .released) :=
  ⟨rfl, by decide, by decide, lau, rfl, rfl, rfl⟩

/-! ### The machine -/

/-- A clause of one word, iadd.i32 v4, v1, 7, laid out from reset. -/
def sSt : State := State.reset.withFetchWord 128 (0x0100000000000000 + 2 ^ 64 * 0x0000401D70000000)
theorem witness_issue_step : sSt.agenda = [.issue 0 0] ∧ (cluster sSt.power (clusterOf 0)).ret = false ∧
    quarterWaves sSt.dev 0 0 = [1] ∧ (waveCands sSt.dev 1).map (fun c => c.group) = [some 0] ∧
    (fetchWord sSt.dev 0 0 (wordAddr 0x1000 0).toNat).1 = .word 0x0000401D70000000 := by
  refine ⟨rfl, ?_, ?_, ?_, ?_⟩ <;> decide +kernel
theorem test_step_iadd : (match step sSt with
    | .next s => rdReg (wave s.dev 1) (threadAt s.dev 1 0) (.v 4) 0 | _ => 0) = 7 := by decide +kernel
/-- BFEXT x5, x6, x7 at the pc of core 0. -/
def sSb : State := State.reset.withFetchWord 32 0x0073128B
theorem witness_saggar_step : sSb.agenda = [.saggar 0] ∧ sSb.saggar.on = true ∧ (sSb.saggar.core 0).wait = none ∧
    (sSb.saggar.core 0).machine = true ∧ inLocal (sSb.saggar.core 0).pc.toNat 4 = true ∧
    (sSb.saggar.core 0).pc.toNat % 2 = 0 ∧ (sSb.saggar.core 0).word.extractLsb' 0 7 = 0x0B#7 ∧
    decodeSaggar (sSb.saggar.core 0).word = some (.bfext 5 6 7) := by
  refine ⟨rfl, rfl, rfl, rfl, ?_, ?_, ?_, ?_⟩ <;> decide +kernel
theorem witness_event_step : isEvent (.kill 1) = true ∧ isEvent (.answerMapped 7 63) = true ∧
    arrived (onD sFb fun d => { d with aps := [{ node := 7, ctx := 63, off := 30, write := true, data := [1, 2, 3, 4], rest := [(.glob 0x8020, 2)] }] }).dev
      (.answerMapped 7 63) = false ∧ sFb.dev.aps = [] := by decide
/-- The word that follows is decoded for the clause; the same issue, cut at its first sector. -/
theorem witness_issue_word : (match NMap.find? sSt.dev.waves 1 with
      | some x => match NMap.find? x.groups 0 with
        | some y => y.iw == none && !y.began && decodeWord y.hdr.cls x.regs (y.index == y.hdr.count) y.hdr.tail 0x0000401D70000000 ==
            .ok (.iadd .i32 false .always (.v 4) (.v 1) (.src (.k 7)))
        | none => false
      | none => false) = true ∧ { sSt with agenda := [.issueCut 0 0 0] }.agenda = .issueCut 0 0 0 :: [] := by
  refine ⟨?_, rfl⟩; decide +kernel
/-- EncodedDecode, DecodedEncode: a well-formed instruction of the greatest registers of its class. -/
theorem witness_encodable : Instr.wf 128 (.ffma .f32 .rz true ⟨true, true⟩ ⟨false, true⟩ ⟨true, false⟩ (.on false 3) (.v 127) (.s 63) (.k 47) (.v 127)) = true ∧
    (Instr.ffma .f32 .rz true ⟨true, true⟩ ⟨false, true⟩ ⟨true, false⟩ (.on false 3) (.v 127) (.s 63) (.k 47) (.v 127)).cls = some 0 := by
  decide
/-- StepKeepsPlatform: the state after reset. -/
theorem reset_platform : Platform State.reset :=
  ⟨by decide, by decide, by decide, by decide, by decide, by decide, by decide, fun _ => rfl, by decide, by decide, by decide, by decide⟩

end Sys2Proof.Tests
end

section
/-!
SUPPORT. Contexts and the fabric range: what Saggar's own writes leave of the tables, the end and the freeing of a
context (R60, R406), aperture accesses (R407), and a node's reads of the context windows (R403 to R405).
-/

namespace Sys2Proof.Machine

/-! ### Saggar's writes of memory leave the tables -/

/-- A write of main memory touches no context and no workgroup. -/
theorem putBytes_glob_tables (dev : Device) (a : Nat) (bs : List Byte) :
    (putBytes dev (.glob a) bs).ctxs = dev.ctxs ∧ (putBytes dev (.glob a) bs).wgs = dev.wgs := by
  refine ⟨?_, (logCode_storage dev a bs.length _).2⟩
  show (logCode dev a bs.length _).ctxs = dev.ctxs
  unfold logCode
  refine List.foldlRecOn (motive := fun d : Device => d.ctxs = dev.ctxs) _ _ rfl fun d h w _ => ?_
  dsimp only
  split
  · exact h
  · exact h

theorem writeSpans_saggar_tables {ls : List (Loc × Nat)} (hl : ∀ p ∈ ls, ∃ a, p.1 = .glob a) (dev : Device)
    (bs : List Byte) :
    (writeSpans dev .saggar ls bs).ctxs = dev.ctxs ∧ (writeSpans dev .saggar ls bs).wgs = dev.wgs := by
  induction ls generalizing dev bs with
  | nil => exact ⟨rfl, rfl⟩
  | cons p r ih =>
    obtain ⟨l, n⟩ := p
    obtain ⟨a, rfl⟩ := hl _ List.mem_cons_self
    have hr := ih (fun q hq => hl q (List.mem_cons_of_mem _ hq))
      (putBytes (stampWrite dev .saggar (.glob a)) (.glob a) (bs.take n)) (bs.drop n)
    have hp := putBytes_glob_tables (stampWrite dev .saggar (.glob a)) a (bs.take n)
    exact ⟨hr.1.trans hp.1, hr.2.trans hp.2⟩

/-- What Saggar and the host translate to lies in main memory. -/
theorem directSpans_glob {dev : Device} {c : Nat} {need : Need} {ss : List (Nat × Nat)} {ls : List (Loc × Nat)}
    (h : directSpans dev c need ss = .ok ls) : ∀ p ∈ ls, ∃ a, p.1 = .glob a := by
  induction ss generalizing ls with
  | nil => cases h; simp
  | cons s r ih =>
    rw [directSpans] at h
    split at h
    · cases hr : directSpans dev c need r with
      | error e => rw [hr] at h; cases h
      | ok ks => rw [hr] at h; cases h; simpa using ih hr
    · cases h

theorem saggarStore_tables {dev d : Device} {c va : Nat} {bs : List Byte} (h : saggarStore dev c va bs = .ok d) :
    d.ctxs = dev.ctxs ∧ d.wgs = dev.wgs := by
  unfold saggarStore at h
  cases hs : directSpans dev c .store (sectorSpans va bs.length) <;> rw [hs] at h
  · cases h
  · cases h; exact writeSpans_saggar_tables (directSpans_glob hs) dev bs

theorem closeSessions_tables (dev : Device) (c : Nat) :
    (closeSessions dev c).ctxs = dev.ctxs ∧ (closeSessions dev c).wgs = dev.wgs := by
  refine List.foldlRecOn (motive := fun d : Device => d.ctxs = dev.ctxs ∧ d.wgs = dev.wgs) _ _ ⟨rfl, rfl⟩
    fun d h p _ => ?_
  split
  · split
    · rename_i hd
      have hs := saggarStore_tables hd
      exact ⟨hs.1.trans h.1, hs.2.trans h.2⟩
    · exact h
  · exact h

theorem zeroGranules_tables (dev : Device) (c va n : Nat) :
    (zeroGranules dev c va n).ctxs = dev.ctxs ∧ (zeroGranules dev c va n).wgs = dev.wgs := by
  refine List.foldlRecOn (motive := fun d : Device => d.ctxs = dev.ctxs ∧ d.wgs = dev.wgs) _ _ ⟨rfl, rfl⟩
    fun d h a _ => ?_
  have hp := putBytes_glob_tables (stampWrite d .saggar (.glob a)) a (List.replicate 32 0)
  exact ⟨hp.1.trans h.1, hp.2.trans h.2⟩

/-- A context reads as the table of contexts has it. -/
theorem ctx_of_ctxs {d dev : Device} (h : d.ctxs = dev.ctxs) (j : Nat) : ctx d j = ctx dev j := by
  unfold ctx; rw [h]

theorem ctx_zeroGranules (dev : Device) (c va n j : Nat) : ctx (zeroGranules dev c va n) j = ctx dev j :=
  ctx_of_ctxs (zeroGranules_tables dev c va n).1 j

/-! ### Creation (R57 to R59, R406) -/

/-- A create of a free context: the context of its descriptor, or the descriptor is rejected. -/
theorem ctx_createContext {dev : Device} {c : Nat} (node : Nat) (hc : c < 64)
    (hf : (ctx dev c).cstate = 0 ∨ (ctx dev c).cstate = 3) :
    ctx (createContext dev node c) c =
      if descriptorOk dev c (ctx dev c) then fromDescriptor (ctx dev c) node dev.ticks
      else { ctx dev c with cstate := 3, owner := none } := by
  unfold createContext
  rw [if_neg (by simp only [Bool.not_eq_true', Bool.or_eq_false_iff, beq_eq_false_iff_ne]; omega)]
  split
  · rw [ctx_zeroGranules, ctx_setCtx_self]
  · rw [ctx_setCtx_self]

/-! ### The end of a context (R60, R406) -/

section
variable {dev : Device} {c : Nat}

/-- With no workgroup of the context there is nothing to kill. -/
theorem killAll_idle (h : ∀ p ∈ dev.wgs, p.2.ctx ≠ c) (keep : Option Nat) (k : Cause) :
    killAll dev c keep k = dev := by
  have hgs : dev.wgs.foldr (fun p r => if p.2.ctx == c then p.1 :: r else r) [] = [] := by
    generalize dev.wgs = ws at h
    induction ws with
    | nil => rfl
    | cons p r ih =>
      rw [List.foldr_cons, ih fun q hq => h q (List.mem_cons_of_mem _ hq),
        if_neg (by simpa using h p List.mem_cons_self)]
  unfold killAll
  rw [hgs]
  rfl

theorem endContext_idle (h : ∀ p ∈ dev.wgs, p.2.ctx ≠ c) (keep : Option Nat) (k : Cause) :
    (endContext dev c keep k).wgs = dev.wgs ∧ ∀ j, j ≠ c → ctx (endContext dev c keep k) j = ctx dev j := by
  unfold endContext
  rw [killAll_idle h]
  have hs := closeSessions_tables dev c
  have hz := zeroGranules_tables (closeSessions dev c) c ((ctx (closeSessions dev c) c).save + 65536)
    ((ctx (closeSessions dev c) c).saveSize / 65536 - 1)
  exact ⟨hz.2.trans hs.2, fun j hj =>
    (ctx_modCtx_ne _ _ hj).trans (ctx_of_ctxs (hz.1.trans hs.1) j)⟩

theorem freeContext_wgs (dev : Device) (c : Nat) : (freeContext dev c).wgs = dev.wgs :=
  (zeroGranules_tables dev c _ _).2

theorem ctx_freeContext_self (dev : Device) (c : Nat) : ctx (freeContext dev c) c = { desc := (ctx dev c).desc } :=
  ctx_setCtx_self _ _ _

theorem ctx_freeContext_ne (dev : Device) {j : Nat} (hj : j ≠ c) : ctx (freeContext dev c) j = ctx dev j :=
  (ctx_setCtx_ne _ _ hj).trans (ctx_zeroGranules ..)

/-- The context is freed where it is in destruction and no workgroup of it is left: what `freeDestroyed` does for
each. -/
def freeIfEnded (d : Device) (c : Nat) : Device :=
  if (ctx d c).busy == 2 && !(d.wgs.any fun g => g.2.ctx == c) then
    freeContext (endContext d c none { kind := 3, code := cKILLED }) c
  else d

theorem freeDestroyed_eq (dev : Device) : freeDestroyed dev = dev.ctxs.foldl (fun d p => freeIfEnded d p.1) dev := rfl

theorem freeIfEnded_of_busy (h : (ctx dev c).busy ≠ 2) : freeIfEnded dev c = dev := by
  simp [freeIfEnded, h]

theorem freeIfEnded_of_wg (h : ∃ p ∈ dev.wgs, p.2.ctx = c) : freeIfEnded dev c = dev := by
  obtain ⟨p, hp, hc⟩ := h
  unfold freeIfEnded
  rw [if_neg]
  simp only [Bool.and_eq_true, Bool.not_eq_true', List.any_eq_false]
  exact fun hb => hb.2 p hp (by simpa using hc)

theorem freeIfEnded_idle (hb : (ctx dev c).busy = 2) (h : ∀ p ∈ dev.wgs, p.2.ctx ≠ c) :
    freeIfEnded dev c = freeContext (endContext dev c none { kind := 3, code := cKILLED }) c := by
  unfold freeIfEnded
  rw [if_pos]
  simpa [hb] using fun i g hg => h (i, g) hg

/-- Freeing contexts leaves the workgroups there are, and every other context. -/
theorem freeIfEnded_frame (dev : Device) (c : Nat) :
    (freeIfEnded dev c).wgs = dev.wgs ∧ ∀ j, j ≠ c → ctx (freeIfEnded dev c) j = ctx dev j := by
  by_cases hb : (ctx dev c).busy = 2
  · by_cases h : ∃ p ∈ dev.wgs, p.2.ctx = c
    · rw [freeIfEnded_of_wg h]; exact ⟨rfl, fun _ _ => rfl⟩
    · have hi : ∀ p ∈ dev.wgs, p.2.ctx ≠ c := fun p hp hc => h ⟨p, hp, hc⟩
      rw [freeIfEnded_idle hb hi]
      have he := endContext_idle hi none { kind := 3, code := cKILLED }
      exact ⟨(freeContext_wgs _ _).trans he.1, fun j hj => (ctx_freeContext_ne _ hj).trans (he.2 j hj)⟩
  · rw [freeIfEnded_of_busy hb]; exact ⟨rfl, fun _ _ => rfl⟩

/-- A context that has a workgroup, or is not in destruction, stays as it is. -/
theorem ctx_foldl_freeIfEnded (l : NMap Ctx) (d : Device) (h : (ctx d c).busy ≠ 2 ∨ ∃ p ∈ d.wgs, p.2.ctx = c) :
    ctx (l.foldl (fun d p => freeIfEnded d p.1) d) c = ctx d c := by
  refine (List.foldlRecOn (motive := fun e : Device => e.wgs = d.wgs ∧ ctx e c = ctx d c) _ _ ⟨rfl, rfl⟩
    fun e he p _ => ?_).2
  obtain ⟨hw, hx⟩ := he
  by_cases hp : p.1 = c
  · rcases h with hb | hg
    · rw [hp, freeIfEnded_of_busy (hx ▸ hb)]; exact ⟨hw, hx⟩
    · rw [hp, freeIfEnded_of_wg (hw ▸ hg)]; exact ⟨hw, hx⟩
  · have hf := freeIfEnded_frame e p.1
    exact ⟨hf.1.trans hw, (hf.2 c (Ne.symm hp)).trans hx⟩

/-- A listed context in destruction without a workgroup is freed. -/
theorem ctx_foldl_freeIfEnded_idle {l : NMap Ctx} {x : Ctx} (hl : (c, x) ∈ l) {d : Device} (hb : (ctx d c).busy = 2)
    (hw : ∀ p ∈ d.wgs, p.2.ctx ≠ c) :
    ∃ m, ctx (l.foldl (fun d p => freeIfEnded d p.1) d) c = { desc := m } := by
  induction l generalizing d with
  | nil => cases hl
  | cons p r ih =>
    rw [List.foldl_cons]
    by_cases hp : p.1 = c
    · rw [hp, freeIfEnded_idle hb hw]
      have hf := ctx_freeContext_self (endContext d c none { kind := 3, code := cKILLED }) c
      refine ⟨_, (ctx_foldl_freeIfEnded r _ (.inl ?_)).trans hf⟩
      rw [hf]
      exact Nat.zero_ne_add_one 1
    · have hf := freeIfEnded_frame d p.1
      have hr : (c, x) ∈ r := (List.mem_cons.1 hl).resolve_left fun e => hp (e ▸ rfl)
      exact ih hr (by rw [hf.2 c (Ne.symm hp)]; exact hb) (by rw [hf.1]; exact hw)

end

/-! ### Destruction and invalidation (R193, R406) -/

/-- What `haltQueues` does to one queue of a context. -/
def haltOne (code : Nat) (keep : Option Nat) (m : NMap Queue) (q : Nat) : NMap Queue :=
  let y := NMap.get {} m q
  NMap.put m q { y with halt := if keep = some q then y.halt else code, pend := none, outs := [] }

theorem ctx_haltQueues (dev : Device) (c code : Nat) (keep : Option Nat) :
    ctx (haltQueues dev c code keep) c = { ctx dev c with
      queues := (List.range (ctx dev c).qcount).foldl (haltOne code keep) (ctx dev c).queues } :=
  ctx_modCtx_self _ _ _

theorem halt_foldl_haltOne {code n q : Nat} {keep : Option Nat} (hk : keep ≠ some q) (hq : q < n) (m : NMap Queue) :
    (NMap.get {} ((List.range n).foldl (haltOne code keep) m) q).halt = code := by
  induction n with
  | zero => exact absurd hq (Nat.not_lt_zero q)
  | succ n ih =>
    rw [List.range_succ, List.foldl_append, List.foldl_cons, List.foldl_nil, haltOne, NMap.get_put]
    split
    · rename_i h; subst h; exact if_neg hk
    · exact ih (by omega)

/-- The device as a destroy of an active context marks it, before KILL and the freeing of what has ended. -/
def beginDestroy (dev : Device) (c : Nat) : Device :=
  modCtx (haltQueues dev c 7 none) c fun x => { x with cstate := 2, busy := 2 }

theorem destroyContext_active {dev : Device} {node c : Nat} (ho : owns dev node c = true)
    (h1 : (ctx dev c).cstate = 1) : destroyContext dev node c = freeDestroyed (beginDestroy dev c) := by
  simp [destroyContext, ho, h1, beginDestroy]

theorem ctx_beginDestroy (dev : Device) (c : Nat) :
    ctx (beginDestroy dev c) c = { ctx (haltQueues dev c 7 none) c with cstate := 2, busy := 2 } :=
  ctx_modCtx_self _ _ _

theorem destroyContext_idle {dev : Device} {node c : Nat} (ho : owns dev node c = true) (h1 : (ctx dev c).cstate = 1)
    (hw : ∀ p ∈ dev.wgs, p.2.ctx ≠ c) : ∃ m, ctx (destroyContext dev node c) c = { desc := m } := by
  rw [destroyContext_active ho h1, freeDestroyed_eq]
  exact ctx_foldl_freeIfEnded_idle (mem_of_find? (NMap.find?_put_self _ _ _)) (by rw [ctx_beginDestroy]) hw

theorem ctx_destroyContext_working {dev : Device} {node c : Nat} (ho : owns dev node c = true)
    (h1 : (ctx dev c).cstate = 1) (hw : ∃ p ∈ dev.wgs, p.2.ctx = c) :
    ctx (destroyContext dev node c) c = { ctx (haltQueues dev c 7 none) c with cstate := 2, busy := 2 } := by
  rw [destroyContext_active ho h1, freeDestroyed_eq, ← ctx_beginDestroy]
  exact ctx_foldl_freeIfEnded _ _ (.inr hw)

theorem halt_destroyContext {dev : Device} {node c q : Nat} (ho : owns dev node c = true)
    (h1 : (ctx dev c).cstate = 1) (hw : ∃ p ∈ dev.wgs, p.2.ctx = c) (hq : q < (ctx dev c).qcount) :
    (queue (destroyContext dev node c) c q).halt = 7 := by
  unfold queue
  rw [ctx_destroyContext_working ho h1 hw, ctx_haltQueues]
  exact halt_foldl_haltOne (Option.some_ne_none q).symm hq _

theorem ctx_invalidate {dev : Device} {node c : Nat} (ho : owns dev node c = true) (h1 : (ctx dev c).cstate = 1) :
    ctx (invalidate dev node c) c = { ctx dev c with
      cstate := 2, busy := 3, cmdBase := (ctx dev c).invBase, cmdLen := (ctx dev c).invLen } := by
  simp [invalidate, ho, h1]

/-- The translations of a TLB that lie outside the range context `c` invalidates. -/
def keptTr (x : Ctx) (c : Nat) (m : NMap Tr) : NMap Tr :=
  m.filter fun t => !(t.1 / 2 ^ 41 == c && x.invalidates (t.1 % 2 ^ 41 * 65536))

/-- A core whose translations and pins of that range have gone. -/
def keptCore (x : Ctx) (c : Nat) (y : Core) : Core :=
  { y with tlb := keptTr x c y.tlb
           pins := y.pins.filter fun q => !(q.ctx == c && x.invalidates (q.line * 128)) }

theorem invalidates_of_mem_keptTr {x : Ctx} {c : Nat} {m : NMap Tr} {t : Nat × Tr} (h : t ∈ keptTr x c m)
    (hc : t.1 / 2 ^ 41 = c) : x.invalidates (t.1 % 2 ^ 41 * 65536) = false := by
  have ht := (List.mem_filter.1 h).2
  rwa [hc, beq_self_eq_true, Bool.true_and, Bool.not_eq_true'] at ht

/-- Reading a map whose every value has been changed. -/
theorem NMap.find?_map {α β : Type} (m : NMap α) (f : α → β) (k : Nat) :
    NMap.find? (m.map fun p => (p.1, f p.2)) k = (NMap.find? m k).map f := by
  induction m with
  | nil => rfl
  | cons p r ih =>
    obtain ⟨j, v⟩ := p
    simp only [List.map_cons, NMap.find?]
    split
    · rfl
    · exact ih

theorem NMap.get_map {α β : Type} {m : NMap α} {f : α → β} {d : α} {e : β} (h : f d = e) (k : Nat) :
    NMap.get e (m.map fun p => (p.1, f p.2)) k = f (NMap.get d m k) := by
  unfold NMap.get
  rw [NMap.find?_map, ← h]
  cases NMap.find? m k <;> rfl

/-- A complete invalidation: the context is active again, and both levels of TLBs have dropped the range. -/
theorem completeInvalidation_effect {dev : Device} {c : Nat} (hb : (ctx dev c).busy = 3)
    (hu : accessUnderWay dev c = false) :
    ctx (completeInvalidation dev c) c = { ctx dev c with cstate := 1, busy := 0 } ∧
    (∀ n, (core (completeInvalidation dev c) n).tlb = keptTr (ctx dev c) c (core dev n).tlb) ∧
    ∀ n, NMap.get [] (completeInvalidation dev c).ctlb n = keptTr (ctx dev c) c (NMap.get [] dev.ctlb n) := by
  unfold completeInvalidation
  simp only [hb, hu, bne_self_eq_false, Bool.or_self, Bool.false_eq_true, if_false]
  refine ⟨ctx_modCtx_self _ _ _, fun n => ?_, fun n => ?_⟩
  · exact congrArg Core.tlb (NMap.get_map (m := dev.cores) (f := keptCore (ctx dev c) c) (d := {}) rfl n)
  · exact NMap.get_map (m := dev.ctlb) (f := keptTr (ctx dev c) c) (d := []) rfl n

/-! ### The aperture (R407) -/

/-- Bytes that one sector holds are one span. -/
theorem sectorSpans_one {a n : Nat} (h0 : n ≠ 0) (h : a % 32 + n ≤ 32) : sectorSpans a n = [(a, n)] := by
  have hq : (a + n - 1) / 32 = a / 32 := by omega
  have hm : min (a + n) ((a / 32 + 1) * 32) - a = n := by omega
  simp [sectorSpans, h0, hq, hm]

theorem directSpans_one {dev : Device} {c a n pa : Nat} {need : Need} (h : translateDirect dev c a need = .ok pa) :
    directSpans dev c need [(a, n)] = .ok [(.glob pa, n)] := by
  rw [directSpans, h]; rfl

theorem accessAperture_other {dev : Device} {node c : Nat} {off : DWord} {write : Bool} {data : List Byte}
    (hn : apertOf dev node c off write data = none) (ho : owns dev node c = false) :
    accessAperture dev node c off write data =
      { dev with resp := some (if write then [] else List.replicate data.length 0) } := by
  simp [accessAperture, hn, ho]

theorem apertRun_read_one {dev : Device} (hc : dev.cut = none) {p : Apert} (hw : p.write = false) (a n : Nat) :
    apertRun dev p [(.glob a, n)] [] =
      { stampRead dev .host (.glob a) with resp := some (Memory.bytes dev.mem a n) } := by
  simp [apertRun, spendCut_none hc, hw, readSpans, readAt, getBytes]

theorem apertRun_write_one {dev : Device} (hc : dev.cut = none) {p : Apert} (hw : p.write = true) {a : Nat}
    (hr : registered dev (.glob a) = false) :
    apertRun dev p [(.glob a, p.data.length)] [] =
      { putBytes (stampWrite dev .host (.glob a)) (.glob a) p.data with resp := some [] } := by
  simp [apertRun, spendCut_none hc, hw, hr, writeSpans]

section
variable {dev : Device} {node c pa : Nat} {off : DWord} {data : List Byte}

/-- The owner's access that lies in one sector, which translates to `pa`, goes to that sector. -/
theorem accessAperture_owner {write : Bool} (hn : apertOf dev node c off write data = none)
    (ho : owns dev node c = true) (h1 : (ctx dev c).cstate = 1) (hd : data ≠ [])
    (hs : off.toNat % 32 + data.length ≤ 32) (hl : off.toNat + data.length ≤ 2 ^ 32)
    (ht : translateDirect dev c off.toNat (if write then .store else .load) = .ok pa)
    (hr : write = true → registered dev (.glob pa) = false) :
    accessAperture dev node c off write data =
      apertRun dev { node := node, ctx := c, off := off, write := write, data := data, rest := [] }
        [(.glob pa, data.length)] [] := by
  have hsp := sectorSpans_one (by simpa using hd) hs
  have hx : ¬ 4294967296 < off.toNat + data.length := Nat.not_lt.2 hl
  unfold accessAperture
  rw [hn]
  simp only [ho, h1, hsp, directSpans_one ht]
  cases write
  · simp [hx]
  · simp [hx, hr]

/-- Its read gives the bytes of the sector. -/
theorem accessAperture_owner_read (hn : apertOf dev node c off false data = none) (ho : owns dev node c = true)
    (h1 : (ctx dev c).cstate = 1) (hd : data ≠ []) (hs : off.toNat % 32 + data.length ≤ 32)
    (hl : off.toNat + data.length ≤ 2 ^ 32) (hc : dev.cut = none)
    (ht : translateDirect dev c off.toNat .load = .ok pa) :
    (accessAperture dev node c off false data).resp = some (Memory.bytes dev.mem pa data.length) ∧
    (accessAperture dev node c off false data).mem = dev.mem := by
  rw [accessAperture_owner hn ho h1 hd hs hl ht nofun, apertRun_read_one hc rfl]
  exact ⟨rfl, (stampRead_storage _ _ _).1⟩

/-- Its write puts the bytes there. -/
theorem accessAperture_owner_write (hn : apertOf dev node c off true data = none) (ho : owns dev node c = true)
    (h1 : (ctx dev c).cstate = 1) (hd : data ≠ []) (hs : off.toNat % 32 + data.length ≤ 32)
    (hl : off.toNat + data.length ≤ 2 ^ 32) (hc : dev.cut = none)
    (ht : translateDirect dev c off.toNat .store = .ok pa) (hr : registered dev (.glob pa) = false) :
    (accessAperture dev node c off true data).resp = some [] ∧
    ∀ a, memByte (accessAperture dev node c off true data) a =
      if pa ≤ a ∧ a < pa + data.length then data.getD (a - pa) 0 else memByte dev a := by
  rw [accessAperture_owner hn ho h1 hd hs hl ht fun _ => hr, apertRun_write_one hc rfl hr]
  exact ⟨rfl, getByte_putBytes_glob (stampWrite dev .host (.glob pa)) pa data⟩

end

/-! ### Reads of the fabric range (R403 to R405) -/

theorem fabricPlace_below {off : Nat} (h : off < 0x1000000000) (c o : Nat) : fabricPlace off ≠ .aperture c o := by
  unfold fabricPlace
  split
  · nofun
  · split
    · nofun
    · nofun

theorem fabricPlace_reserved {off : Nat} (h0 : 0x1400000 ≤ off) (h1 : off < 0x1000000000) :
    fabricPlace off = .reserved := by
  unfold fabricPlace
  rw [if_neg (by omega), if_neg (by omega), if_pos h1]

theorem fabricPlace_window {c o : Nat} (hc : c < 64) (ho : o < 0x10000) :
    fabricPlace (0x1000000 + 0x10000 * c + o) = .window c o := by
  unfold fabricPlace
  rw [if_neg (by omega), if_pos (by omega)]
  congr 1 <;> omega

/-- The state after a node's read that gives one byte, `r` being what is left of the agenda. -/
def answered (s : State) (r : List Action) (b : Byte) : State :=
  { s with agenda := r, dev := { s.dev with resp := some [b], cut := none } }

section
variable {s : State} {node off : Nat} {r : List Action}

theorem step_fabric {a : Nat} {w : Bool} {bs : List Byte} (hs : s.agenda = .fabric node a w bs :: r) :
    step s = .next (if fabricArrived { s with agenda := r } node a w bs then
      fabricAccess (cutAt { s with agenda := r } none) node a w bs else { s with agenda := r }) := by
  simp only [step, nextAction, hs]
  rfl

/-- An access below the apertures waits for an access of the node that is under way (R404). -/
theorem step_fabric_behind (hs : s.agenda = .fabric node (s.mgmt.fbbase.toNat + off) false [0] :: r)
    (hb : ∃ p ∈ s.dev.aps, p.node = node) (ho : off < 0x1000000000) : step s = .next { s with agenda := r } := by
  obtain ⟨p, hp, hn⟩ := hb
  have ha : fabricArrived { s with agenda := r } node (s.mgmt.fbbase.toNat + off) false [0] = false := by
    simp only [fabricArrived, behindAperture, Bool.not_eq_false', List.any_eq_true, Nat.add_sub_cancel_left]
    refine ⟨p, hp, ?_⟩
    split
    · rename_i h; exact absurd h (fabricPlace_below ho _ _)
    · simp [hn]
  rw [step_fabric hs, ha]
  rfl

/-- A node that has no access under way has its read answered. -/
theorem step_fabric_read (hs : s.agenda = .fabric node (s.mgmt.fbbase.toNat + off) false [0] :: r)
    (hn : ∀ p ∈ s.dev.aps, p.node ≠ node) :
    step s = .next (fabricAccess (cutAt { s with agenda := r } none) node (s.mgmt.fbbase.toNat + off) false [0]) := by
  have ha : fabricArrived { s with agenda := r } node (s.mgmt.fbbase.toNat + off) false [0] = true := by
    simp only [fabricArrived, behindAperture, Bool.not_eq_true', List.any_eq_false]
    intro p hp
    simp [hn p hp]
  rw [step_fabric hs, ha]
  rfl

theorem step_read_reserved (hs : s.agenda = .fabric node (s.mgmt.fbbase.toNat + off) false [0] :: r)
    (hn : ∀ p ∈ s.dev.aps, p.node ≠ node) (hb : s.mgmt.boot ≠ 0) (hp : fabricPlace off = .reserved) :
    step s = .next (answered s r 0) := by
  rw [step_fabric_read hs hn]
  simp [fabricAccess, cutAt, hb, hp, answered, zeros]

/-- Before BOOT 3 every window reads as zero (R432). -/
theorem step_read_window_closed {c o : Nat} (hs : s.agenda = .fabric node (s.mgmt.fbbase.toNat + off) false [0] :: r)
    (hn : ∀ p ∈ s.dev.aps, p.node ≠ node) (hb : s.mgmt.boot ≠ 0) (h3 : s.mgmt.boot ≠ 3)
    (hp : fabricPlace off = .window c o) : step s = .next (answered s r 0) := by
  rw [step_fabric_read hs hn]
  simp [fabricAccess, cutAt, hb, h3, hp, answered, zeros]

theorem step_read_window {c o : Nat} (hs : s.agenda = .fabric node (s.mgmt.fbbase.toNat + off) false [0] :: r)
    (hn : ∀ p ∈ s.dev.aps, p.node ≠ node) (h3 : s.mgmt.boot = 3) (hp : fabricPlace off = .window c o) :
    step s = .next (answered s r (readWindow s.dev node c o)) := by
  rw [step_fabric_read hs hn]
  simp [fabricAccess, cutAt, h3, hp, answered]
  rfl

end

/-! ### What a window gives (R62, R404, R405) -/

section
variable {dev : Device} {node c o : Nat}

/-- While the context runs, its owner reads the window. -/
theorem readWindow_owner (h : (ctx dev c).cstate = 1 ∨ (ctx dev c).cstate = 2 ∨ (ctx dev c).cstate = 4)
    (ho : owns dev node c = true) : readWindow dev node c o = windowByte (ctx dev c) o := by
  have hc : c < 64 := by
    simp only [owns, Bool.and_eq_true, decide_eq_true_eq] at ho
    exact ho.1
  rcases h with h | h | h <;> simp [readWindow, h, ho, hc]

/-- While the context runs, another node reads zero. -/
theorem readWindow_other (h : (ctx dev c).cstate = 1 ∨ (ctx dev c).cstate = 2 ∨ (ctx dev c).cstate = 4)
    (ho : owns dev node c = false) : readWindow dev node c o = 0 := by
  rcases h with h | h | h <;> simp [readWindow, h, ho]

theorem windowByte_desc (x : Ctx) (h : o < 0x80) : windowByte x o = NMap.get 0 x.desc o := if_pos h

/-- While the context is free, any node reads its descriptor. -/
theorem readWindow_free (h : (ctx dev c).cstate = 0 ∨ (ctx dev c).cstate = 3) (hc : c < 64) (ho : o < 0x80) :
    readWindow dev node c o = NMap.get 0 (ctx dev c).desc o := by
  rw [← windowByte_desc _ ho]
  rcases h with h | h <;> simp [readWindow, h, hc, ho]

/-- TAIL of a queue block reads as zero (R6, R62). -/
theorem Queue.bytes_tail (y : Queue) {i : Nat} (hi : i < 4) : (y.bytes false).getD (0x10 + i) 0 = 0 := by
  obtain rfl | rfl | rfl | rfl : i = 0 ∨ i = 1 ∨ i = 2 ∨ i = 3 := by omega
  all_goals simp [Queue.bytes, leBytes]

theorem windowByte_tail {x : Ctx} {q i : Nat} (hq : q < 8) (hi : i < 4) (h4 : x.cstate ≠ 4) :
    windowByte x (0x8010 + 128 * q + i) = 0 := by
  have hd : (0x8010 + 128 * q + i - 0x8000) / 128 = q := by omega
  have hm : (0x8010 + 128 * q + i) % 128 = 0x10 + i := by omega
  have hb : (x.cstate == 4) = false := by simpa using h4
  unfold windowByte
  rw [if_neg (by omega), if_neg (by omega), if_neg (by omega), if_neg (by omega), if_neg (by omega), if_neg (by omega),
    if_pos (by omega)]
  simp only [hd, hm, hb, Queue.bytes_tail _ hi, ite_self]

/-- Byte `i` of the counter of core `n`, kind `k` and slice `sl` lies at 96n + 8(4sl + k) + i (R405). -/
theorem windowByte_cone (x : Ctx) {n k sl i : Nat} (hn : n < 256) (hk : k < 4) (hsl : sl < 3) (hi : i < 8) :
    windowByte x (0x1000 + 96 * n + 8 * (4 * sl + k) + i) =
      BitVec.ofNat 8 (NMap.get 0 x.cones (coneKey n k sl) / 256 ^ i) := by
  have he : 0x1000 + 96 * n + 8 * (4 * sl + k) + i - 0x1000 = 96 * n + 8 * (4 * sl + k) + i := by omega
  have hcore : (96 * n + 8 * (4 * sl + k) + i) / 96 = n := by omega
  have hword : (96 * n + 8 * (4 * sl + k) + i) % 96 / 8 = 4 * sl + k := by omega
  have hbyte : (96 * n + 8 * (4 * sl + k) + i) % 8 = i := by omega
  have hkind : (4 * sl + k) % 4 = k := by omega
  have hslice : (4 * sl + k) / 4 = sl := by omega
  unfold windowByte
  rw [if_neg (by omega), if_neg (by omega), if_neg (by omega), if_neg (by omega), if_pos (by omega), he]
  simp only [coneBytes, hcore, hword, hbyte, hkind, hslice]

end

/-! ### The obligation -/

/-- Settles O47: each command and access by its effect on the device; a node's reads by the place they reach. -/
theorem contexts : Obligations.Contexts := by
  unfold Obligations.Contexts
  refine ⟨⟨?create, ?destroy, ?complete, ?other, ?owner⟩, ?fabric⟩
  case create =>
    intro s node c hb hc hf
    have he : exec (.contextCreate node c) s = .next { s with
        dev := createContext s.dev node c, power := endOwnedRuns (createContext s.dev node c) c s.power } :=
      if_neg fun h => h hb
    refine ⟨_, he, ?_⟩
    dsimp only
    rw [ctx_createContext node hc hf]
    split
    · exact ⟨rfl, rfl, rfl, rfl, rfl, rfl, rfl, rfl, rfl, rfl, rfl, rfl, rfl, rfl⟩
    · rfl
  case destroy =>
    intro s node c ho h1
    refine ⟨fun hw => ?_, fun hw => ?_, ?_⟩
    · obtain ⟨m, hm⟩ := destroyContext_idle ho h1 hw
      exact ⟨_, rfl, congrArg Ctx.cstate hm, congrArg Ctx.owner hm⟩
    · have hx := ctx_destroyContext_working ho h1 hw
      exact ⟨_, rfl, congrArg Ctx.cstate hx, fun q hq => halt_destroyContext ho h1 hw hq⟩
    · have hx := ctx_invalidate ho h1
      exact ⟨_, rfl, congrArg Ctx.cstate hx, congrArg Ctx.busy hx, fun va => congrArg (Ctx.invalidates · va) hx⟩
  case complete =>
    intro s c hb hu
    obtain ⟨hx, hcore, hcl⟩ := completeInvalidation_effect hb hu
    refine ⟨_, rfl, congrArg Ctx.cstate hx, congrArg Ctx.busy hx, fun n t ht hc => ?_⟩
    rcases ht with ht | ht
    · exact invalidates_of_mem_keptTr (hcore n ▸ ht) hc
    · exact invalidates_of_mem_keptTr (hcl n ▸ ht) hc
  case other =>
    intro s node c off data ho hn
    exact ⟨⟨_, rfl, congrArg Device.resp (accessAperture_other (hn false) ho)⟩,
      ⟨_, rfl, (congrArg Device.mem (accessAperture_other (hn true) ho)).trans rfl⟩⟩
  case owner =>
    intro s node c off data pa ho h1 hd hs hl hcut hn
    exact ⟨fun ht => ⟨_, rfl, accessAperture_owner_read (hn false) ho h1 hd hs hl hcut ht⟩,
      fun ht hr => ⟨_, rfl, accessAperture_owner_write (hn true) ho h1 hd hs hl hcut ht hr⟩⟩
  case fabric =>
    intro s node off r hs
    refine ⟨fun hb ho => step_fabric_behind hs hb ho, fun hn => ?_⟩
    refine ⟨fun hb h0 h1 => step_read_reserved hs hn hb (fabricPlace_reserved h0 h1), ?_⟩
    rintro c o hc ho rfl
    have hp := fabricPlace_window hc ho
    refine ⟨fun hb h3 => step_read_window_closed hs hn hb h3 hp, fun h3 hf hd => ?_,
      fun h3 hx => ⟨fun hown => ?_, fun hown => ?_⟩⟩
    · rw [step_read_window hs hn h3 hp, readWindow_free hf hc hd]; rfl
    · rw [step_read_window hs hn h3 hp, readWindow_other hx hown]; rfl
    · rw [step_read_window hs hn h3 hp, readWindow_owner hx hown]
      refine ⟨fun hd => ?_, fun q i hq hi he h4 => ?_, fun n k sl i hn' hk hsl hi he => ?_⟩
      · rw [windowByte_desc _ hd]; rfl
      · rw [he, windowByte_tail hq hi h4]; rfl
      · rw [he, windowByte_cone _ hn' hk hsl hi]; rfl

end Sys2Proof.Machine
end

section
/-!
SUPPORT. The table of contexts through the end of a context's work (R69, R375): what kills workgroups, jobs, chunks and
the Kiln leaves it as it is, so that a halted queue keeps its own code.
-/

namespace Sys2Proof.Machine

/-! ### Operations that leave the contexts -/

theorem foldl_ctxs {α : Type} {f : Device → α → Device} (h : ∀ d a, (f d a).ctxs = d.ctxs) (l : List α) (d : Device) :
    (l.foldl f d).ctxs = d.ctxs :=
  List.foldlRecOn (motive := fun e : Device => e.ctxs = d.ctxs) l f rfl fun e he a _ => (h e a).trans he

/-- The same of a run that also keeps whether every step succeeded. -/
theorem foldl_pair_ctxs {α : Type} {f : Bool × Device → α → Bool × Device} (h : ∀ r a, (f r a).2.ctxs = r.2.ctxs)
    (l : List α) (r : Bool × Device) : (l.foldl f r).2.ctxs = r.2.ctxs :=
  List.foldlRecOn (motive := fun e : Bool × Device => e.2.ctxs = r.2.ctxs) l f rfl fun e he a _ => (h e a).trans he

@[simp] theorem setPts_ctxs (dev : Device) (who : Who) (n : DWord) : (setPts dev who n).ctxs = dev.ctxs := by
  cases who with
  | lane w l => exact modWave_ctxs ..
  | _ => rfl

@[simp] theorem raisePts_ctxs (dev : Device) (who : Who) (n : Nat) : (raisePts dev who n).ctxs = dev.ctxs := by
  cases who with
  | lane w l => exact modWave_ctxs ..
  | _ => rfl

@[simp] theorem stampRead_ctxs (dev : Device) (who : Who) (l : Loc) : (stampRead dev who l).ctxs = dev.ctxs :=
  setPts_ctxs ..

@[simp] theorem stampWrite_ctxs (dev : Device) (who : Who) (l : Loc) : (stampWrite dev who l).ctxs = dev.ctxs :=
  setPts_ctxs ..

@[simp] theorem putByte_ctxs (dev : Device) (l : Loc) (b : Byte) : (putByte dev l b).ctxs = dev.ctxs := by
  cases l with
  | glob a => rfl
  | scr g o => exact modWg_ctxs ..

@[simp] theorem putBytes_ctxs (dev : Device) (l : Loc) (bs : List Byte) : (putBytes dev l bs).ctxs = dev.ctxs := by
  cases l with
  | glob a => exact (putBytes_glob_tables dev a bs).1
  | scr g o => exact modWg_ctxs ..

@[simp] theorem modThreadAt_ctxs (dev : Device) (w l : Nat) (f : Thread → Thread) :
    (modThreadAt dev w l f).ctxs = dev.ctxs := modWave_ctxs ..

@[simp] theorem readAt_ctxs (dev : Device) (l : Loc) (n : Nat) : (readAt dev l n).2.ctxs = dev.ctxs := by
  unfold readAt; split <;> rfl

@[simp] theorem readSpans_ctxs (dev : Device) (who : Who) (ls : List (Loc × Nat)) :
    (readSpans dev who ls).2.ctxs = dev.ctxs := by
  induction ls generalizing dev with
  | nil => rfl
  | cons p r ih => simp [readSpans, ih]

theorem saggarLoad_ctxs {dev d : Device} {c va n : Nat} {bs : List Byte} (h : saggarLoad dev c va n = some (bs, d)) :
    d.ctxs = dev.ctxs := by
  unfold saggarLoad at h
  split at h
  · rename_i ls _
    have hd : (readSpans dev .saggar ls).2 = d := congrArg Prod.snd (Option.some.inj h)
    rw [← hd, readSpans_ctxs]
  · cases h

/-! ### Objects (R229 to R249) -/

@[simp] theorem modObj_ctxs (dev : Device) (l : Loc) (f : Obj → Obj) : (modObj dev l f).ctxs = dev.ctxs := rfl
@[simp] theorem sweepObjs_ctxs (dev : Device) : (sweepObjs dev).ctxs = dev.ctxs := rfl
@[simp] theorem unregister_ctxs (dev : Device) (l : Loc) (w t : Nat) : (unregister dev l w t).ctxs = dev.ctxs := rfl
@[simp] theorem engUnname_ctxs (dev : Device) (l : Loc) (e : Nat) : (engUnname dev l e).ctxs = dev.ctxs := rfl

@[simp] theorem writeRing_ctxs (dev : Device) (who : Who) (l : Loc) (r : Ring) :
    (writeRing dev who l r).ctxs = dev.ctxs := by
  simp [writeRing]

@[simp] theorem breakObj_ctxs (dev : Device) (who : Who) (l : Loc) : (breakObj dev who l).ctxs = dev.ctxs := by
  unfold breakObj
  split
  · rfl
  · simp

@[simp] theorem publish_ctxs (dev : Device) (who : Who) (l : Loc) (i : Nat) : (publish dev who l i).ctxs = dev.ctxs := by
  unfold publish
  split
  · rfl
  · simp

@[simp] theorem release_ctxs (dev : Device) (who : Who) (l : Loc) (i : Nat) : (release dev who l i).ctxs = dev.ctxs := by
  unfold release
  split
  · rfl
  · simp

@[simp] theorem leaveRole_ctxs (dev : Device) (who : Who) (l : Loc) (put : Bool) :
    (leaveRole dev who l put).ctxs = dev.ctxs := by
  cases put <;> simp [leaveRole]

@[simp] theorem breakObjects_ctxs (dev : Device) (w l : Nat) : (breakObjects dev w l).ctxs = dev.ctxs := by
  simp only [breakObjects, modThreadAt_ctxs]
  exact foldl_ctxs (by simp) _ _

/-! ### Waves (R250, R276, R368, R375) -/

@[simp] theorem discardEntry_ctxs (dev : Device) (c : Nat) (t : Thread) : (discardEntry dev c t).ctxs = dev.ctxs := by
  unfold discardEntry
  split
  · rfl
  · dsimp only
    split
    · rfl
    · split
      · split
        · exact modWg_ctxs ..
        · rfl
      · rfl

@[simp] theorem unpinWave_ctxs (dev : Device) (w : Nat) : (unpinWave dev w).ctxs = dev.ctxs := rfl
@[simp] theorem deliverToken_ctxs (dev : Device) (l : Nat) : (deliverToken dev l).ctxs = dev.ctxs := rfl

@[simp] theorem endWave_ctxs (dev : Device) (w : Nat) : (endWave dev w).ctxs = dev.ctxs := by
  simp only [endWave]
  split <;> simp

theorem writeLog_ctxs {dev d : Device} {c : Nat} {bs : List Byte} (h : writeLog dev c bs = some d) :
    d.ctxs = dev.ctxs := by
  simp only [writeLog] at h
  split at h
  · cases h
  · rename_i cnt d0 hl
    split at h
    · cases h
    · rename_i d1 h1
      split at h
      · cases h
      · rename_i d2 h2
        cases h
        exact (saggarStore_tables h2).1.trans ((saggarStore_tables h1).1.trans (saggarLoad_ctxs hl))

@[simp] theorem killWave_ctxs (dev : Device) (w : Nat) (k : Cause) : (killWave dev w k).2.ctxs = dev.ctxs := by
  unfold killWave
  dsimp only
  split
  · rfl
  · simp only [endWave_ctxs]
    refine (foldl_ctxs (by simp) _ _).trans ?_
    split
    · rename_i d hd; exact writeLog_ctxs hd
    · rfl

/-! ### Jobs, chunks and the Kiln (R302, R327, R414) -/

@[simp] theorem jobLeaveRing_ctxs (dev : Device) (id : Nat) : (jobLeaveRing dev id).ctxs = dev.ctxs := by
  unfold jobLeaveRing
  dsimp only
  split
  · dsimp only
    split
    · rfl
    · rw [leaveRole_ctxs]
      split
      · exact publish_ctxs ..
      · rfl
  · rfl

@[simp] theorem jobFinish_ctxs (dev : Device) (id state status : Nat) : (jobFinish dev id state status).ctxs = dev.ctxs :=
  (foldl_ctxs (by simp) _ _).trans (jobLeaveRing_ctxs dev id)

@[simp] theorem cancelJobs_ctxs (dev : Device) (g : Nat) : (cancelJobs dev g).ctxs = dev.ctxs := by
  refine foldl_ctxs (fun d p => ?_) _ _
  split
  · rw [jobFinish_ctxs]
    split <;> rfl
  · rfl

@[simp] theorem cancelChunks_ctxs (dev : Device) (g : Nat) : (cancelChunks dev g).ctxs = dev.ctxs := rfl

@[simp] theorem kilnLeaveRings_ctxs (dev : Device) (g : Nat) : (kilnLeaveRings dev g).ctxs = dev.ctxs := by
  refine foldl_ctxs (fun d o => ?_) _ _
  split
  · rw [engUnname_ctxs]
    split
    · rfl
    · rw [leaveRole_ctxs]
      exact foldl_ctxs (by simp) _ _
  · rfl

@[simp] theorem endKiln_ctxs (dev : Device) (g : Nat) : (endKiln dev g).ctxs = dev.ctxs := by
  simp [endKiln]

/-! ### Workgroups -/

@[simp] theorem removeWg_ctxs (dev : Device) (g : Nat) : (removeWg dev g).ctxs = dev.ctxs := by
  unfold removeWg
  dsimp only
  split <;> simp

@[simp] theorem killWg_ctxs (dev : Device) (g : Nat) (cause : Nat → Cause) : (killWg dev g cause).2.ctxs = dev.ctxs := by
  have hw := foldl_pair_ctxs
    (f := fun (r : Bool × Device) w => (r.1 && (killWave r.2 w (cause w)).1, (killWave r.2 w (cause w)).2))
    (fun r w => killWave_ctxs r.2 w (cause w)) (wg dev g).waves (true, dev)
  unfold killWg
  dsimp only
  split <;> simp [hw]

end Sys2Proof.Machine
end

section
/-!
SUPPORT. Queues: reading one after a change, halts and containment (R68 to R70), the fetch and issue of packets (R64 to
R66), the record table (R21), NVAL (R67).
-/

namespace Sys2Proof.Machine

/-! ### Reading a queue -/

theorem queue_of_ctxs {d dev : Device} (h : d.ctxs = dev.ctxs) (c q : Nat) : queue d c q = queue dev c q := by
  unfold queue; rw [ctx_of_ctxs h]

theorem queueLives_of_ctxs {d dev : Device} (h : d.ctxs = dev.ctxs) (c q : Nat) :
    queueLives d c q = queueLives dev c q := by
  unfold queueLives; rw [ctx_of_ctxs h]

@[simp] theorem queue_modQueue (dev : Device) (c q : Nat) (f : Queue → Queue) :
    queue (modQueue dev c q f) c q = f (queue dev c q) := by
  simp [queue, modQueue]

/-- A change of a queue leaves all else of its context. -/
theorem ctx_modQueue (dev : Device) (c q : Nat) (f : Queue → Queue) :
    ctx (modQueue dev c q f) c = { ctx dev c with queues := NMap.put (ctx dev c).queues q (f (queue dev c q)) } :=
  ctx_modCtx_self ..

@[simp] theorem queueLives_modQueue (dev : Device) (c q : Nat) (f : Queue → Queue) :
    queueLives (modQueue dev c q f) c q = queueLives dev c q := by
  simp [queueLives, ctx_modQueue, Ctx.runs]

/-! ### Halts (R68 to R70, R370) -/

section
variable {c q : Nat}

theorem halt_foldl_haltOne_keep (code n : Nat) (m : NMap Queue) :
    (NMap.get {} ((List.range n).foldl (haltOne code (some q)) m) q).halt = (NMap.get {} m q).halt := by
  refine List.foldlRecOn (motive := fun k : NMap Queue => (NMap.get {} k q).halt = (NMap.get {} m q).halt) _ _ rfl
    fun k hk i _ => ?_
  rw [haltOne, NMap.get_put]
  split
  · rename_i h; subst h; simpa using hk
  · exact hk

/-- The queues that halt with their context, and those of another, leave a queue that is kept its code. -/
theorem halt_haltQueues {j : Nat} {keep : Option Nat} (h : j = c → keep = some q) (dev : Device) (code : Nat) :
    (queue (haltQueues dev j code keep) c q).halt = (queue dev c q).halt := by
  by_cases hj : c = j
  · subst hj
    rw [h rfl, queue, ctx_haltQueues]
    exact halt_foldl_haltOne_keep ..
  · rw [queue, haltQueues, ctx_modCtx_ne _ _ hj, queue]

theorem halt_killAll {j : Nat} {keep : Option Nat} (h : j = c → keep = some q) (dev : Device) (k : Cause) :
    (queue (killAll dev j keep k) c q).halt = (queue dev c q).halt := by
  unfold killAll
  dsimp only
  rw [apply_ite (fun d => (queue d c q).halt), halt_haltQueues h, ite_self]
  refine congrArg Queue.halt (queue_of_ctxs (foldl_pair_ctxs (fun r g => ?_) _ _) c q)
  rw [apply_ite Device.ctxs]
  simp

/-- The queues of a context whose change leaves its queues. -/
theorem queue_modCtx {f : Ctx → Ctx} (h : ∀ x, (f x).queues = x.queues) (dev : Device) (j : Nat) :
    queue (modCtx dev j f) c q = queue dev c q := by
  by_cases hj : c = j
  · subst hj; rw [queue, ctx_modCtx_self, h, queue]
  · rw [queue, ctx_modCtx_ne _ _ hj, queue]

theorem halt_endContext {j : Nat} {keep : Option Nat} (h : j = c → keep = some q) (dev : Device) (k : Cause) :
    (queue (endContext dev j keep k) c q).halt = (queue dev c q).halt := by
  rw [endContext, queue_modCtx, ← halt_killAll h dev k]
  · exact congrArg Queue.halt (queue_of_ctxs ((zeroGranules_tables ..).1.trans (closeSessions_tables ..).1) c q)
  · exact fun _ => rfl

theorem halt_discardContext {j : Nat} {keep : Option Nat} (h : j = c → keep = some q) (dev : Device) (code : Nat)
    (k : Cause) : (queue (discardContext dev j code keep k) c q).halt = (queue dev c q).halt := by
  rw [discardContext, queue_modCtx, halt_endContext h, halt_haltQueues h]
  exact fun _ => rfl

/-- Containment leaves the offending queue the code it halted with (R69). -/
theorem halt_containProcess (dev : Device) : (queue (containProcess dev c q) c q).halt = (queue dev c q).halt := by
  refine List.foldlRecOn (motive := fun d : Device => (queue d c q).halt = (queue dev c q).halt) _ _ rfl
    fun d hd p _ => ?_
  split
  · rw [halt_discardContext (fun h => if_pos h), hd]
  · exact hd

/-- A queue that halts has the code of its halt, whatever the containment takes. -/
theorem halt_haltQueue (dev : Device) (c q code : Nat) : (queue (haltQueue dev c q code) c q).halt = code := by
  unfold haltQueue
  dsimp only
  split
  · simp
  · rw [halt_containProcess, queue_modQueue]

end

/-! ### The fetch (R64) -/

/-- What Saggar reads at virtual addresses does not depend on the free values drawn so far. -/
theorem readSpans_free {ls : List (Loc × Nat)} (hl : ∀ p ∈ ls, ∃ a, p.1 = .glob a) (dev d : Device)
    (h : d.mem = dev.mem) : (readSpans d .saggar ls).1 = (readSpans dev .saggar ls).1 := by
  induction ls generalizing dev d with
  | nil => rfl
  | cons p r ih =>
    obtain ⟨l, n⟩ := p
    obtain ⟨a, rfl⟩ := hl _ List.mem_cons_self
    have hr := ih (fun q hq => hl q (List.mem_cons_of_mem _ hq)) (stampRead dev .saggar (.glob a))
      (stampRead d .saggar (.glob a)) h
    simp only [readSpans, readAt, getBytes, hr, h]

theorem saggarLoad_free (dev : Device) (k c va n : Nat) :
    (saggarLoad { dev with free := k } c va n).map Prod.fst = (saggarLoad dev c va n).map Prod.fst := by
  unfold saggarLoad
  rw [directSpans_free]
  split
  · rename_i ls hs
    exact congrArg some (readSpans_free (directSpans_glob hs) dev { dev with free := k } rfl)
  · rfl

/-- The checks of a packet read memory and the context, and leave the contexts. -/
theorem checkPacket_ctxs (dev : Device) (c : Nat) (y : Queue) (b : List Byte) :
    (checkPacket dev c y b).2.ctxs = dev.ctxs := by
  unfold checkPacket
  dsimp only
  split
  · rfl
  split
  · rfl
  split
  · rfl
  split
  · rfl
  split
  · rfl
  · rename_i hl
    exact saggarLoad_ctxs hl

theorem checkPacket_free (dev : Device) (k c : Nat) (y : Queue) (b : List Byte) :
    (checkPacket { dev with free := k } c y b).1 = (checkPacket dev c y b).1 := by
  have hx : ctx { dev with free := k } c = ctx dev c := rfl
  have hl := saggarLoad_free dev k c (leAt b 8 8) 256
  unfold checkPacket
  simp only [hx]
  split_ifs
  any_goals rfl
  generalize saggarLoad { dev with free := k } c (leAt b 8 8) 256 = r at hl
  generalize saggarLoad dev c (leAt b 8 8) 256 = r' at hl
  match r, r', hl with
  | none, none, _ => rfl
  | some (h, _), some (h', _), hl =>
    obtain rfl : h = h' := Option.some.inj hl
    rfl

theorem checkPacket_freeBit (dev : Device) (c : Nat) (y : Queue) (b : List Byte) :
    (checkPacket (freeBit dev).2 c y b).1 = (checkPacket dev c y b).1 :=
  checkPacket_free dev (dev.free + 1) c y b

section
variable {dev : Device} {c q : Nat}

/-- The queue runs with a packet to fetch, so that the fetch reads it (R64). -/
def Fetches (dev : Device) (c q : Nat) : Prop :=
  queueLives dev c q = true ∧ (queue dev c q).qen = true ∧ (queue dev c q).halt = 0 ∧
    (queue dev c q).head ≠ (queue dev c q).tail ∧ (queue dev c q).pend = none

/-- The bytes of the packet at HEAD. -/
def headPacket (dev : Device) (c q : Nat) : List Byte := Memory.bytes dev.host (headAddr (queue dev c q)) 128

theorem fetchPacket_fabricError (h : Fetches dev c q) (hf : Config.freeBit dev.free = true) :
    fetchPacket dev c q = haltQueue (freeBit dev).2 c q 4 := by
  obtain ⟨hl, hq, hh, ht, hp⟩ := h
  simp [fetchPacket, freeBit, hl, hq, hh, ht, hp, hf]

theorem fetchPacket_ok (h : Fetches dev c q) (hf : Config.freeBit dev.free = false) {b : List Byte} {d : Device}
    (hc : checkPacket (freeBit dev).2 c (queue dev c q) (headPacket dev c q) = (.ok b, d)) :
    fetchPacket dev c q = modQueue d c q fun y => { y with pend := some b } := by
  obtain ⟨hl, hq, hh, ht, hp⟩ := h
  rw [freeBit, headPacket] at hc
  simp [fetchPacket, freeBit, hl, hq, hh, ht, hp, hf, hc]

theorem fetchPacket_error (h : Fetches dev c q) (hf : Config.freeBit dev.free = false) {code : Nat} {d : Device}
    (hc : checkPacket (freeBit dev).2 c (queue dev c q) (headPacket dev c q) = (.error code, d)) :
    fetchPacket dev c q = haltQueue d c q code := by
  obtain ⟨hl, hq, hh, ht, hp⟩ := h
  rw [freeBit, headPacket] at hc
  simp [fetchPacket, freeBit, hl, hq, hh, ht, hp, hf, hc]

/-- The fetch of a packet that passes its checks leaves it pending, and the queue otherwise as it is. -/
theorem queue_fetchPacket_ok (h : Fetches dev c q) (hf : Config.freeBit dev.free = false) {b : List Byte}
    (hc : (checkPacket dev c (queue dev c q) (headPacket dev c q)).1 = .ok b) :
    queue (fetchPacket dev c q) c q = { queue dev c q with pend := some b } := by
  rw [← checkPacket_freeBit] at hc
  have hd : (checkPacket (freeBit dev).2 c (queue dev c q) (headPacket dev c q)).2.ctxs = dev.ctxs := checkPacket_ctxs ..
  rcases hr : checkPacket (freeBit dev).2 c (queue dev c q) (headPacket dev c q) with ⟨e, d⟩
  rw [hr] at hc hd
  dsimp only at hc hd
  subst hc
  rw [fetchPacket_ok h hf hr, queue_modQueue, queue_of_ctxs hd]

theorem halt_fetchPacket_error (h : Fetches dev c q) (hf : Config.freeBit dev.free = false) {code : Nat}
    (hc : (checkPacket dev c (queue dev c q) (headPacket dev c q)).1 = .error code) :
    (queue (fetchPacket dev c q) c q).halt = code := by
  rw [← checkPacket_freeBit] at hc
  rcases hr : checkPacket (freeBit dev).2 c (queue dev c q) (headPacket dev c q) with ⟨e, d⟩
  rw [hr] at hc
  dsimp only at hc
  subst hc
  rw [fetchPacket_error h hf hr, halt_haltQueue]

/-! ### Issue (R64, R66) -/

/-- Packet `b` of a queue `y` has issued, the queue being `y'` after it: HEAD has passed it, and it is among the packets
that are out unless it is done with. -/
def PacketIssued (y y' : Queue) (b : List Byte) (complete : Bool) : Prop :=
  y'.head = y.head + 1 ∧ y'.pend = none ∧ y'.pktNo = y.pktNo + 1 ∧
  y'.outs = (y.outs ++ [({ pkt := y.pktNo, kind := pktKind b, notify := pktNotify b, naddr := pktNaddr b
                           nval := pktNval b, complete := complete } : Out)]).filter fun o => !o.complete || o.notify

theorem packetIssued_issuePacket {d : Device} (h : queue d c q = queue dev c q) (b : List Byte) (complete : Bool) :
    PacketIssued (queue dev c q) (queue (issuePacket d c q b complete) c q) b complete := by
  rw [issuePacket, queue_modQueue, h]
  exact ⟨rfl, rfl, rfl, rfl⟩

theorem queueLives_of_ready {k : Nat} {b : List Byte} (h : ready dev c q k = some b) : queueLives dev c q = true := by
  by_contra hl
  simp [ready, hl] at h

theorem atIssue_ready {k : Nat} {b : List Byte} (h : ready dev c q k = some b) (f : Device → List Byte → Device) :
    atIssue dev c q k f = issuePacket (f dev b) c q b true := by
  simp [atIssue, h]

theorem events_issuePacket (d : Device) (b : List Byte) (complete : Bool) :
    (ctx (issuePacket d c q b complete) c).events = (ctx d c).events := by
  rw [issuePacket, ctx_modQueue]

theorem recs_issuePacket (d : Device) (b : List Byte) (complete : Bool) :
    (ctx (issuePacket d c q b complete) c).recs = (ctx d c).recs := by
  rw [issuePacket, ctx_modQueue]

@[simp] theorem noteVector_ctxs (dev : Device) (c : Nat) : (noteVector dev c).ctxs = dev.ctxs := by
  refine foldl_ctxs (fun d p => ?_) _ _
  split
  · exact modLaunch_ctxs ..
  · rfl

/-- A change of the event vector leaves the queues; the vector is as changed. -/
theorem setEvents_effect (dev : Device) (c q : Nat) (m : BitVec 256) :
    queue (setEvents dev c m) c q = queue dev c q ∧
    (ctx (setEvents dev c m) c).events = (ctx dev c).events ||| m := by
  unfold setEvents
  rw [queue_of_ctxs (noteVector_ctxs ..), ctx_of_ctxs (noteVector_ctxs ..), queue_modCtx, ctx_modCtx_self]
  · exact ⟨rfl, rfl⟩
  · exact fun _ => rfl

theorem clearEvents_effect (dev : Device) (c q : Nat) (m : BitVec 256) :
    queue (clearEvents dev c m) c q = queue dev c q ∧
    (ctx (clearEvents dev c m) c).events = (ctx dev c).events &&& ~~~m := by
  unfold clearEvents
  rw [queue_of_ctxs (noteVector_ctxs ..), ctx_of_ctxs (noteVector_ctxs ..), queue_modCtx, ctx_modCtx_self]
  · exact ⟨rfl, rfl⟩
  · exact fun _ => rfl

/-- An update of the record table leaves the queues; the slot takes the next generation (R21). -/
theorem updateSlot_effect (dev : Device) (c q slot : Nat) (r : Option (BitVec 256)) :
    queue (updateSlot dev c slot r) c q = queue dev c q ∧
    NMap.get (0, 0, false) (ctx (updateSlot dev c slot r) c).recs slot =
      let g := nextGen (NMap.get (0, 0, false) (ctx dev c).recs slot).2.1
      match r with
      | some r => (ownHandle r slot g, g, true)
      | none => (0, g, false) := by
  unfold updateSlot
  have hx : ctx (stampWrite dev .saggar (slotLoc c slot)) c = ctx dev c := ctx_of_ctxs (stampWrite_ctxs ..) c
  rw [queue_modCtx, queue_of_ctxs (stampWrite_ctxs ..), ctx_modCtx_self, hx]
  · refine ⟨rfl, ?_⟩
    cases r with
    | none => exact NMap.get_put_self ..
    | some r => exact NMap.get_put_self ..
  · exact fun _ => rfl

/-- A barrier with no packet before it completes as it issues. -/
theorem queue_barrierAct {b : List Byte} (h : ready dev c q 5 = some b) (ho : (queue dev c q).outs = [])
    (hk : pktKind b = 5) (hl : queueLives dev c q = true) :
    queue (barrierAct dev c q) c q = queue (issuePacket dev c q b true) c q := by
  have ho1 : (queue (issuePacket dev c q b false) c q).outs =
      [{ pkt := (queue dev c q).pktNo, kind := 5, notify := pktNotify b, naddr := pktNaddr b, nval := pktNval b
         complete := false }] := by
    simp [issuePacket, Queue.sweep, ho, hk]
  have hl1 : queueLives (issuePacket dev c q b false) c q = true := (queueLives_modQueue ..).trans hl
  simp only [barrierAct, h, Queue.oldest, ho1, hl1]
  simp [completePacket, issuePacket, Queue.sweep, ho, hk]

end

/-! ### The event vector and a waiting launch (R72) -/

/-- The vector satisfies the wait mask of a launch of context `c`. -/
def satisfied (ev : BitVec 256) (c : Nat) (l : Launch) : Bool :=
  l.ctx == c && l.state == .waiting && l.hdr.waitMask &&& ev == l.hdr.waitMask

/-- What `noteVector` does for one entry of the table of launches. -/
def noteLaunch (ev : BitVec 256) (c : Nat) (d : Device) (p : Nat × Launch) : Device :=
  if satisfied ev c p.2 then
    let d1 := modLaunch d p.1 fun l => { l with state := .due, dueAt := d.ticks, relSeq := d.relSeq, relTs := d.topTs }
    { d1 with relSeq := d.relSeq + 1 }
  else d

theorem noteVector_eq (dev : Device) (c : Nat) :
    noteVector dev c = dev.launches.foldl (noteLaunch (ctx dev c).events c) dev := rfl

/-- `x` has of launch `l` what becoming due leaves: its context, its packet and its header. -/
def SameLaunch (l x : Launch) : Prop := x.ctx = l.ctx ∧ x.via = l.via ∧ x.hdr = l.hdr

section
variable {ev : BitVec 256} {c n : Nat} {l : Launch} {d : Device} {p : Nat × Launch}

theorem noteLaunch_of_not (h : satisfied ev c p.2 = false) : noteLaunch ev c d p = d := by
  simp [noteLaunch, h]

/-- An entry leaves a launch as it is, or makes it due; its own it makes due where the vector satisfies it. -/
theorem find_noteLaunch {x : Launch} (hx : NMap.find? d.launches n = some x) (hs : SameLaunch l x) :
    ∃ z, NMap.find? (noteLaunch ev c d p).launches n = some z ∧ SameLaunch l z ∧ (z = x ∨ z.state = .due) ∧
      (p.1 = n → satisfied ev c p.2 = true → z.state = .due) := by
  cases h : satisfied ev c p.2 with
  | false => exact ⟨x, by rw [noteLaunch_of_not h, hx], hs, .inl rfl, fun _ => nofun⟩
  | true =>
    by_cases hn : n = p.1
    · refine ⟨{ x with state := .due, dueAt := d.ticks, relSeq := d.relSeq, relTs := d.topTs }, ?_, hs, .inr rfl,
        fun _ _ => rfl⟩
      simp [noteLaunch, h, find_modLaunch, ← hn, hx]
    · exact ⟨x, by simp [noteLaunch, h, find_modLaunch, hn, hx], hs, .inl rfl, fun e => absurd e.symm hn⟩

/-- After all entries a launch is as it was or due; it is due where an entry of it is satisfied. -/
theorem find_foldl_noteLaunch (ps : List (Nat × Launch)) {x : Launch} (hx : NMap.find? d.launches n = some x)
    (hs : SameLaunch l x) :
    ∃ z, NMap.find? (ps.foldl (noteLaunch ev c) d).launches n = some z ∧ SameLaunch l z ∧ (z = x ∨ z.state = .due) ∧
      ((∃ p ∈ ps, p.1 = n ∧ satisfied ev c p.2 = true) → z.state = .due) := by
  induction ps generalizing d x with
  | nil => exact ⟨x, hx, hs, .inl rfl, by simp⟩
  | cons p ps ih =>
    obtain ⟨y, hy, hys, hyx, hyd⟩ := find_noteLaunch (ev := ev) (c := c) (p := p) hx hs
    obtain ⟨z, hz, hzs, hzy, hzd⟩ := ih hy hys
    have due (h : y.state = .due) : z.state = .due := hzy.elim (fun e => e ▸ h) id
    refine ⟨z, hz, hzs, ?_, ?_⟩
    · rcases hyx with rfl | h
      · exact hzy
      · exact .inr (due h)
    · rintro ⟨r, hr, hrn, hrs⟩
      rcases List.mem_cons.1 hr with rfl | hr
      · exact due (hyd hrn hrs)
      · exact hzd ⟨r, hr, hrn, hrs⟩

/-- Where no entry of a launch is satisfied it stays as it is. -/
theorem find_foldl_noteLaunch_none {ps : List (Nat × Launch)} (h : ∀ p ∈ ps, p.1 = n → satisfied ev c p.2 = false) :
    NMap.find? (ps.foldl (noteLaunch ev c) d).launches n = NMap.find? d.launches n := by
  refine List.foldlRecOn (motive := fun e : Device => NMap.find? e.launches n = NMap.find? d.launches n) _ _ rfl
    fun e he p hp => ?_
  rw [← he]
  by_cases hn : n = p.1
  · rw [noteLaunch_of_not (h p hp hn.symm)]
  · unfold noteLaunch
    split
    · exact (find_modLaunch ..).trans (if_neg hn)
    · rfl

theorem find?_ne_none_of_mem {α : Type} {m : NMap α} {v : α} (h : (n, v) ∈ m) : NMap.find? m n ≠ none := by
  induction m with
  | nil => cases h
  | cons q r ih =>
    obtain ⟨j, u⟩ := q
    rw [NMap.find?]
    split
    · exact Option.some_ne_none u
    · rename_i hj
      exact ih ((List.mem_cons.1 h).resolve_left fun e => hj (congrArg Prod.fst e).symm)

/-- A launch that enters under a new number waits, or is due where the vector satisfies its mask already (R72). -/
theorem launch_enterLaunch (hn : NMap.find? d.launches d.nextId = none) (hw : l.state = .waiting) :
    SameLaunch l (launch (enterLaunch d l) d.nextId) ∧ (launch (enterLaunch d l) d.nextId).state =
      if l.hdr.waitMask &&& (ctx d l.ctx).events = l.hdr.waitMask then .due else .waiting := by
  have hput := NMap.find?_put_self d.launches d.nextId l
  have hs : satisfied (ctx d l.ctx).events l.ctx l = decide (l.hdr.waitMask &&& (ctx d l.ctx).events = l.hdr.waitMask) := by
    simp [satisfied, hw, beq_eq_decide]
  have hent (p : Nat × Launch) (hp : p ∈ NMap.put d.launches d.nextId l) (e : p.1 = d.nextId) : p.2 = l := by
    rcases mem_put hp with rfl | hp
    · rfl
    · exact absurd hn (find?_ne_none_of_mem (v := p.2) (e ▸ hp))
  have he : enterLaunch d l = (NMap.put d.launches d.nextId l).foldl (noteLaunch (ctx d l.ctx).events l.ctx)
      (setLaunch { d with nextId := d.nextId + 1 } d.nextId l) := rfl
  rw [he]
  split
  · rename_i hm
    obtain ⟨z, hz, hzs, -, hzd⟩ := find_foldl_noteLaunch (ev := (ctx d l.ctx).events) (c := l.ctx)
      (d := setLaunch { d with nextId := d.nextId + 1 } d.nextId l) (NMap.put d.launches d.nextId l) hput
      (⟨rfl, rfl, rfl⟩ : SameLaunch l l)
    rw [launch, NMap.get_of_find? hz]
    exact ⟨hzs, hzd ⟨_, mem_of_find? hput, rfl, hs.trans (decide_eq_true hm)⟩⟩
  · rename_i hm
    have hz := (find_foldl_noteLaunch_none (ev := (ctx d l.ctx).events) (c := l.ctx)
      (d := setLaunch { d with nextId := d.nextId + 1 } d.nextId l)
      fun p hp e => by rw [hent p hp e, hs, decide_eq_false hm]).trans hput
    rw [launch, NMap.get_of_find? hz]
    exact ⟨⟨rfl, rfl, rfl⟩, hw⟩

theorem enterLaunch_ctxs (d : Device) (l : Launch) : (enterLaunch d l).ctxs = d.ctxs := noteVector_ctxs ..

end

/-- A launch packet that is ready issues, and its launch enters the Wheel. -/
theorem exec_launch_ready {s : State} {c q : Nat} {b : List Byte} (h : ready s.dev c q 1 = some b) :
    exec (.launch c q) s = .next { s with
      dev := enterLaunch (issuePacket s.dev c q b false) (launchOf c q (queue s.dev c q).pktNo b) } := by
  show execLaunch c q s = _
  simp [execLaunch, onDev, h]

/-! ### NVAL (R67) -/

/-- A byte of a number's low bytes. -/
theorem leBytes_getD {n i : Nat} (x : Nat) (h : i < n) : (leBytes n x).getD i 0 = BitVec.ofNat 8 (x / 256 ^ i) := by
  induction n generalizing x i with
  | zero => exact absurd h (Nat.not_lt_zero i)
  | succ n ih =>
    cases i with
    | zero => simp [leBytes]
    | succ i =>
      rw [leBytes, List.getD_cons_succ, ih _ (Nat.lt_of_succ_lt_succ h), Nat.div_div_eq_div_mul, ← Nat.pow_succ']

theorem leBytes_getD_toNat (v : DWord) {i : Nat} (h : i < 8) :
    (leBytes 8 v.toNat).getD i 0 = v.extractLsb' (8 * i) 8 := by
  rw [leBytes_getD _ h, BitVec.extractLsb', Nat.shiftRight_eq_div_pow, Nat.pow_mul]

section
variable {dev : Device} {c va : Nat} {bs : List Byte}

/-- A store by Saggar that one sector holds is one event, where the address translates. -/
theorem saggarStore_one {pa : Nat} (h0 : bs.length ≠ 0) (h : va % 32 + bs.length ≤ 32)
    (ht : translateDirect dev c va .store = .ok pa) :
    saggarStore dev c va bs = .ok (putBytes (stampWrite dev .saggar (.glob pa)) (.glob pa) bs) := by
  rw [saggarStore, sectorSpans_one h0 h, directSpans_one ht]
  simp [Except.map, writeSpans]

theorem saggarStore_protection (h0 : bs.length ≠ 0) (h : va % 32 + bs.length ≤ 32)
    (ht : translateDirect dev c va .store = .protection) :
    saggarStore dev c va bs = .error (va, .protection) := by
  rw [saggarStore, sectorSpans_one h0 h, directSpans, ht]
  rfl

theorem translateDirect_raisePts_saggar (dev : Device) (n c va : Nat) (need : Need) :
    translateDirect (raisePts dev .saggar n) c va need = translateDirect dev c va need := rfl

variable {q : Nat} {o : Out}

/-- The one packet of a queue that is out is done with. -/
theorem outs_modOut (ho : (queue dev c q).outs = [o]) :
    (queue (modOut dev c q o.pkt fun _ => none) c q).outs = [] := by
  simp [modOut, ho]

/-- The write of NVAL at a place that translates. -/
theorem writeNval_ok {pa : Nat} (hl : queueLives dev c q = true) (ho : (queue dev c q).outs = [o])
    (hc : o.complete = true) (hn : o.notify = true) (hp : o.paged = none) (ha : o.naddr % 8 = 0)
    (ht : translateDirect dev c o.naddr .store = .ok pa) :
    writeNval dev c q o.pkt = modOut (putBytes (stampWrite (raisePts dev .saggar dev.topTs.toNat) .saggar (.glob pa))
      (.glob pa) (leBytes 8 o.nval.toNat)) c q o.pkt fun _ => none := by
  have hs := saggarStore_one (dev := raisePts dev .saggar dev.topTs.toNat) (c := c) (va := o.naddr)
    (bs := leBytes 8 o.nval.toNat) (by simp) (by rw [leBytes_length]; omega) ht
  simp [writeNval, ho, hl, hc, hn, hp, hs]

theorem writeNval_protection (hl : queueLives dev c q = true) (ho : (queue dev c q).outs = [o])
    (hc : o.complete = true) (hn : o.notify = true) (hp : o.paged = none) (ha : o.naddr % 8 = 0)
    (ht : translateDirect dev c o.naddr .store = .protection) :
    writeNval dev c q o.pkt = haltQueue (modOut dev c q o.pkt fun _ => none) c q 4 := by
  have hs := saggarStore_protection (dev := raisePts dev .saggar dev.topTs.toNat) (c := c) (va := o.naddr)
    (bs := leBytes 8 o.nval.toNat) (by simp) (by rw [leBytes_length]; omega) ht
  simp [writeNval, ho, hl, hc, hn, hp, hs]

end

/-! ### The obligation -/

/-- Settles O45: the fetch by what its checks give, each kind of packet by the effect of its issue, and the write of
NVAL by its translation; containment leaves a queue that halts its own code. -/
theorem packets : Obligations.Packets := by
  unfold Obligations.Packets
  refine ⟨?fetch, ?issue, ?nval⟩
  case fetch =>
    intro s c q hl y hq hh ht hp
    have h : Fetches s.dev c q := ⟨hl, hq, hh, ht, hp⟩
    refine ⟨fun hf => ⟨_, rfl, ?_⟩, fun hf => ⟨fun b hc => ⟨_, rfl, queue_fetchPacket_ok h hf hc⟩,
      fun code hc => ⟨_, rfl, halt_fetchPacket_error h hf hc⟩⟩⟩
    show (queue (fetchPacket s.dev c q) c q).halt = 4
    rw [fetchPacket_fabricError h hf, halt_haltQueue]
  case issue =>
    intro s c q k b hr y issued
    have hissue {d : Device} (h : queue d c q = queue s.dev c q) (complete : Bool) {s' : State}
        (e : s'.dev = issuePacket d c q b complete) : issued s' complete := by
      have hi := packetIssued_issuePacket h b complete
      rwa [← e] at hi
    refine ⟨?nop, ?set, ?clear, ?record, ?barrier, ?launch⟩
    case nop =>
      rintro rfl
      have e := atIssue_ready hr fun d _ => d
      exact ⟨_, rfl, hissue rfl _ e, (congrArg (fun d => (ctx d c).events) e).trans (events_issuePacket ..)⟩
    case set =>
      rintro rfl
      have e := atIssue_ready hr fun d b => setEvents d c (pktMask b)
      obtain ⟨hq, hx⟩ := setEvents_effect s.dev c q (pktMask b)
      exact ⟨_, rfl, hissue hq _ e, (congrArg (fun d => (ctx d c).events) e).trans ((events_issuePacket ..).trans hx)⟩
    case clear =>
      rintro rfl
      have e := atIssue_ready hr fun d b => clearEvents d c (pktMask b)
      obtain ⟨hq, hx⟩ := clearEvents_effect s.dev c q (pktMask b)
      exact ⟨_, rfl, hissue hq _ e, (congrArg (fun d => (ctx d c).events) e).trans ((events_issuePacket ..).trans hx)⟩
    case record =>
      rintro rfl
      have e := atIssue_ready hr fun d b =>
        updateSlot d c (leAt b 8 2) (if leAt b 0x0A 1 = 0 then some (BitVec.ofNat 256 (leAt b 0x20 32)) else none)
      obtain ⟨hq, hx⟩ := updateSlot_effect s.dev c q (leAt b 8 2)
        (if leAt b 0x0A 1 = 0 then some (BitVec.ofNat 256 (leAt b 0x20 32)) else none)
      refine ⟨_, rfl, hissue hq _ e, (congrArg (fun d => NMap.get _ (ctx d c).recs _) e).trans ?_⟩
      rw [recs_issuePacket, hx]
      by_cases h0 : leAt b 0x0A 1 = 0
      · simp only [if_pos h0, nextGen]
      · simp only [if_neg h0, nextGen]
    case barrier =>
      rintro rfl ho hk
      have hi := packetIssued_issuePacket (dev := s.dev) (c := c) (q := q) rfl b true
      rw [← queue_barrierAct hr ho hk (queueLives_of_ready hr)] at hi
      exact ⟨_, rfl, hi⟩
    case launch =>
      rintro rfl hn
      have hi := packetIssued_issuePacket (dev := s.dev) (c := c) (q := q) rfl b false
      rw [← queue_of_ctxs (enterLaunch_ctxs (issuePacket s.dev c q b false) (launchOf c q (queue s.dev c q).pktNo b))] at hi
      obtain ⟨⟨hc, hv, hh⟩, hst⟩ := launch_enterLaunch (d := issuePacket s.dev c q b false)
        (l := launchOf c q (queue s.dev c q).pktNo b) hn rfl
      have hev : (ctx (issuePacket s.dev c q b false) (launchOf c q (queue s.dev c q).pktNo b).ctx).events =
        (ctx s.dev c).events := events_issuePacket ..
      rw [hev, ← hh] at hst
      exact ⟨_, exec_launch_ready hr, hi, hc, hv, hst⟩
  case nval =>
    intro s c q o pa hl ho hc hn hp ha
    refine ⟨fun ht => ⟨_, rfl, ?_⟩, fun ht => ⟨_, rfl, ?_⟩⟩
    · show (queue (writeNval s.dev c q o.pkt) c q).outs = [] ∧ ∀ a, memByte (writeNval s.dev c q o.pkt) a = _
      rw [writeNval_ok hl ho hc hn hp ha ht]
      refine ⟨outs_modOut ((congrArg Queue.outs (queue_of_ctxs (by simp) c q)).trans ho), fun a => ?_⟩
      have hb := getByte_putBytes_glob (stampWrite (raisePts s.dev .saggar s.dev.topTs.toNat) .saggar (.glob pa)) pa
        (leBytes 8 o.nval.toNat) a
      rw [leBytes_length] at hb
      refine hb.trans ?_
      split
      · exact leBytes_getD_toNat _ (by omega)
      · exact congrArg (NMap.get 0 · a) (stampWrite_storage ..).1
    · show (queue (writeNval s.dev c q o.pkt) c q).halt = 4
      rw [writeNval_protection hl ho hc hn hp ha ht, halt_haltQueue]

end Sys2Proof.Machine
end

section
/-!
SUPPORT. The Wheel's placement of a new workgroup (R79, R429) and the WORKIDs its threads start with (R12 to R14).
-/

namespace Sys2Proof.Machine

/-! ### A turn of the Wheel that places (R79, R429) -/

/-- With nothing planned there is nothing to withdraw. -/
theorem withdraw_of_no_plans {dev : Device} (h : dev.plans = []) (u : PUnit) (keep : List Nat) :
    withdraw dev u keep = dev := by
  obtain ⟨⟩ := dev
  dsimp only at h
  subst h
  simp [withdraw]

theorem prunePlans_of_no_plans {dev : Device} (h : dev.plans = []) : prunePlans dev = dev := by
  simp [prunePlans, h]

/-- Reading a map whose every value has been changed by a function of its key. -/
theorem NMap.find?_mapKey {α β : Type} (m : NMap α) (f : Nat → α → β) (k : Nat) :
    NMap.find? (m.map fun p => (p.1, f p.1 p.2)) k = (NMap.find? m k).map (f k) := by
  induction m with
  | nil => rfl
  | cons p r ih =>
    obtain ⟨j, v⟩ := p
    simp only [List.map_cons, NMap.find?]
    split
    · rename_i h; subst h; rfl
    · exact ih

/-- The settings of an idle cluster, as `idleSettings` gives them (R425). -/
def idleCluster (dev : Device) (n : Nat) (x : ClusterPower) : ClusterPower :=
  if (clusterWaves dev n).isEmpty then { x with grants := 6, ratio := 1 } else x

theorem cluster_idleSettings (dev : Device) (p : Power) (n : Nat) :
    cluster (idleSettings dev p) n = idleCluster dev n (cluster p n) := by
  have hm : (idleSettings dev p).clusters = p.clusters.map fun c => (c.1, idleCluster dev c.1 c.2) := by
    unfold idleSettings idleCluster
    refine List.map_congr_left fun c _ => ?_
    split <;> rfl
  unfold cluster NMap.get
  rw [hm, NMap.find?_mapKey]
  cases NMap.find? p.clusters n with
  | some x => rfl
  | none => simp [idleCluster]

theorem cluster_setCluster (p : Power) (n m : Nat) (x : ClusterPower) :
    cluster (setCluster p n x) m = if m = n then x else cluster p m := NMap.get_put ..

/-- A cut of bisque runs leaves which clusters are in one, and which are in retention. -/
theorem cluster_cutRuns (dev : Device) (p : Power) (us : List PUnit) (n : Nat) :
    (cluster (cutRuns dev p us) n).bisque = (cluster p n).bisque ∧
    (cluster (cutRuns dev p us) n).ret = (cluster p n).ret := by
  refine List.foldlRecOn (motive := fun z : Power => (cluster z n).bisque = (cluster p n).bisque ∧
    (cluster z n).ret = (cluster p n).ret) _ _ ⟨rfl, rfl⟩ fun z hz m _ => ?_
  split
  · rw [cluster_setCluster]
    split
    · rename_i h; subst h; exact hz
    · exact hz
  · exact hz

/-- What the Wheel sets before its turn leaves which clusters are in a bisque run, and which are in retention. -/
theorem cluster_turnPower (dev : Device) (p : Power) (us : List PUnit) (n : Nat) :
    (cluster (idleSettings dev (cutRuns dev p us)) n).bisque = (cluster p n).bisque ∧
    (cluster (idleSettings dev (cutRuns dev p us)) n).ret = (cluster p n).ret := by
  rw [cluster_idleSettings, ← (cluster_cutRuns dev p us n).1, ← (cluster_cutRuns dev p us n).2]
  unfold idleCluster
  split <;> exact ⟨rfl, rfl⟩

/-- Clusters that are out of retention wait for nothing. -/
theorem awake_of_no_ret {s : State} {ns : List Nat} (h : ∀ n ∈ ns, (cluster s.power n).ret = false) (f : State → State) :
    awake s ns f = f s := by
  unfold awake
  rw [List.filter_eq_nil_iff.2 fun n hn => by simp [h n hn]]

/-- A turn that places a unit, on clusters out of retention, places it. -/
theorem wheelTurn_place {s : State} {mine : Device → PUnit → Bool} {u : PUnit} {ss : List Seat} (hp : s.dev.plans = [])
    (ht : nextTurn s.dev (blockedIn s.power) (awaiting s.dev) = .place u ss) (hm : mine s.dev u = true)
    (hr : ∀ x ∈ ss, (cluster s.power (clusterOf x.core)).ret = false) :
    (wheelTurn s mine).dev = placeUnit s.dev u ss := by
  have hb : blockedIn (idleSettings s.dev (cutRuns s.dev s.power (awaiting s.dev))) = blockedIn s.power :=
    funext fun n => (cluster_turnPower ..).1
  unfold wheelTurn
  simp only [prunePlans_of_no_plans hp, hb, ht, hm, if_true]
  rw [awake_of_no_ret]
  intro n hn
  obtain ⟨x, hx, rfl⟩ := List.mem_map.1 hn
  exact (cluster_turnPower ..).2.trans (hr x hx)

theorem exec_unitPlacement (s : State) : exec .unitPlacement s = .next (wheelTurn s isNewUnit) := rfl

/-! ### The waves of a placed workgroup (R12, R13) -/

theorem placeUnit_new_one {dev : Device} (hp : dev.plans = []) (lid n : Nat) (x : Seat) :
    placeUnit dev (.new lid n) [x] = placeWg dev lid n x := by
  simp [placeUnit, withdraw_of_no_plans hp]

/-- Of waves entered under successive numbers each is there. -/
theorem wave_foldl_setWave (f : Nat → Wave) (g : Nat) {k i : Nat} (h : i < k) (dev : Device) :
    wave ((List.range k).foldl (fun d i => setWave d (g + i) (f i)) dev) (g + i) = f i := by
  induction k with
  | zero => exact absurd h (Nat.not_lt_zero i)
  | succ k ih =>
    rw [List.range_succ, List.foldl_append, List.foldl_cons, List.foldl_nil, wave, setWave, NMap.get_put]
    split
    · rename_i e; rw [Nat.add_left_cancel e]
    · exact ih (by omega)

theorem wave_placeWg (dev : Device) (lid n : Nat) (x : Seat) {i : Nat} (h : i < x.slots.length) :
    wave (placeWg dev lid n x) (dev.nextId + 1 + i) =
      startWave dev lid n dev.nextId i (dev.nextId + 1 + i) x.core (x.slots.getD i 0) := by
  unfold placeWg
  dsimp only
  rw [wave, modLaunch_waves]
  exact wave_foldl_setWave (fun i => startWave dev lid n dev.nextId i (dev.nextId + 1 + i) x.core (x.slots.getD i 0))
    (dev.nextId + 1) h _

/-! ### WORKID (R12) -/

theorem workid_startFault (x : Wave) (code : Nat) (addr : DWord) (k : Nat) :
    (thread (startFault x code addr) k).workid = (thread x k).workid := by
  simp only [thread, NMap.get, startFault, NMap.find?_map x.threads fun t =>
    { t with run := .fault code, tpc := t.pc, taddr := addr }]
  cases NMap.find? x.threads k <;> rfl

theorem workid_startAt (x : Wave) (entry : DWord) (k : Nat) :
    (thread (startAt x entry) k).workid = (thread x k).workid := by
  unfold startAt
  split
  · rfl
  · exact workid_startFault ..

/-- A table made of a list of keys. -/
theorem NMap.find?_map_of_mem {α : Type} (f : Nat → α) {ls : List Nat} {k : Nat} (h : k ∈ ls) :
    NMap.find? (ls.map fun j => (j, f j)) k = some (f k) := by
  induction ls with
  | nil => cases h
  | cons j r ih =>
    rw [List.map_cons, NMap.find?]
    split
    · rename_i e; rw [e]
    · rename_i e; exact ih ((List.mem_cons.1 h).resolve_left fun e' => e e'.symm)

/-- Thread `k` of wave `i` of workgroup number `n` has the WORKID whose fields above W0 are those of the workgroup. -/
theorem workid_startWave (dev : Device) (lid n g i w co slot : Nat) {k : Nat}
    (h : k < min Config.W ((launch dev lid).hdr.extents.getD 0 1 - Config.W * i)) :
    (thread (startWave dev lid n g i w co slot) k).workid =
      BitVec.ofNat 64 (2 ^ (launch dev lid).hdr.widths.getD 0 0 * (launch dev lid).hdr.wgIndex n + Config.W * i + k) := by
  unfold startWave
  dsimp only
  split
  · refine (workid_startFault ..).trans ?_
    rw [thread, NMap.get_of_find? (NMap.find?_map_of_mem _ (List.mem_range.2 h))]
  · rw [workid_startAt, thread, NMap.get_of_find? (NMap.find?_map_of_mem _ (List.mem_range.2 h))]

/-! ### The obligation -/

/-- A header that passes R11: two workgroups of one thread, numbered by field 2. -/
def twoWgHdr : LaunchHdr := { cls := 3, widths := [0, 0, 1, 0, 0, 0], extents := [1, 1, 2, 1, 1, 1] }

/-- The device after reset but for one active context and one launch of it, released to placement. -/
def twoWgState : State := { State.reset with
  dev := { ctxs := [(0, { cstate := 1, cls := 3 })]
           launches := [(1, { hdr := twoWgHdr, state := .released, cls := 3 })], nextId := 2 } }

def twoWgSeat : Seat := { core := 0, slots := [0], regs := [8], base := 0, size := 0, split := 8 }

theorem nextTurn_twoWgState : nextTurn twoWgState.dev (blockedIn twoWgState.power) (awaiting twoWgState.dev) =
    .place (.new 1 0) [twoWgSeat] := by decide +kernel

/-- The thread of its workgroup 0 has WORKID 0. -/
theorem workid_twoWgState : (thread (wave (wheelTurn twoWgState isNewUnit).dev 3) 0).workid = 0 := by
  rw [wheelTurn_place rfl nextTurn_twoWgState rfl (by decide), placeUnit_new_one rfl,
    show 3 = twoWgState.dev.nextId + 1 + 0 from rfl, wave_placeWg _ _ _ _ (by decide),
    workid_startWave _ _ _ _ _ _ _ _ (by decide)]
  decide

/-- Refutes O52: the WORKID of its first part is not the one of R12. The statement binds the lane count of a wave by
the name `n` that stood for the workgroup number, so that it gives the thread the fields of the workgroup numbered by
the lane count: 1 in `twoWgState`, where workgroup 0 has been placed and its thread has WORKID 0. -/
theorem not_placement : ¬ Obligations.Placement := by
  unfold Obligations.Placement
  rintro ⟨hnew, -, -⟩
  obtain ⟨s', G, he, -, -, -, -, -, -, -, -, -, -, -, hw⟩ :=
    hnew twoWgState 1 0 _ twoWgSeat rfl rfl rfl nextTurn_twoWgState rfl
  rw [exec_unitPlacement] at he
  obtain rfl := Host.Outcome.next.inj he
  obtain ⟨-, -, -, -, -, -, -, -, -, -, -, -, -, -, -, -, hk⟩ := hw 0 (by decide)
  obtain ⟨-, hid, -⟩ := hk 0 (by decide)
  rw [show twoWgState.dev.nextId + 1 + 0 = 3 from rfl, workid_twoWgState] at hid
  exact absurd hid (by decide)

end Sys2Proof.Machine
end

section
/-!
Class 0, the float instructions: arithmetic (R168, R169) and conversions (R178 to R182), each member's result by the
model's own lemma about instructions whose members only compute.
-/

namespace Sys2Proof.Machine

/-! ### Arithmetic (R165, R166, R168, R169) -/

section
variable (t : FTy) (rm : Rm) (sat : Bool) (ma mb mc : FMod) (p : Pred) (d : Reg) (a b' c : Src) (b : Opb)

theorem fadd_givesFloat : GivesFloat (.fadd t rm sat ma mb p d a b) p d (fun x th =>
    word (satIf (FTy.fmt t) sat (fAddV (FTy.fmt t) rm (fv (FTy.fmt t) ma (rdF (FTy.fmt t) x th a))
      (fv (FTy.fmt t) mb (rdOpbF (FTy.fmt t) x th b))))) :=
  aluStep_givesFloat (g := fun _ => float2 fAddV t rm sat ma mb a b) (fun _ => rfl)
    fun _ _ _ _ _ _ _ => ⟨rfl, rfl⟩

/-- The difference is the sum with the sign of the second operand inverted (R168). -/
theorem fsub_givesFloat : GivesFloat (.fsub t rm sat ma mb p d a b) p d (fun x th =>
    word (satIf (FTy.fmt t) sat (fAddV (FTy.fmt t) rm (fv (FTy.fmt t) ma (rdF (FTy.fmt t) x th a))
      (fv (FTy.fmt t) mb (rdOpbF (FTy.fmt t) x th b)).flip))) :=
  aluStep_givesFloat (g := fun _ => float2 fSubV t rm sat ma mb a b) (fun _ => rfl)
    fun _ _ _ _ _ _ _ => ⟨rfl, rfl⟩

theorem fmul_givesFloat : GivesFloat (.fmul t rm sat ma mb p d a b) p d (fun x th =>
    word (satIf (FTy.fmt t) sat (fMulV (FTy.fmt t) rm (fv (FTy.fmt t) ma (rdF (FTy.fmt t) x th a))
      (fv (FTy.fmt t) mb (rdOpbF (FTy.fmt t) x th b))))) :=
  aluStep_givesFloat (g := fun _ => float2 fMulV t rm sat ma mb a b) (fun _ => rfl)
    fun _ _ _ _ _ _ _ => ⟨rfl, rfl⟩

theorem ffma_givesFloat : GivesFloat (.ffma t rm sat ma mb mc p d a b' c) p d (fun x th =>
    word (satIf (FTy.fmt t) sat (fFmaV (FTy.fmt t) rm (fv (FTy.fmt t) ma (rdF (FTy.fmt t) x th a))
      (fv (FTy.fmt t) mb (rdF (FTy.fmt t) x th b')) (fv (FTy.fmt t) mc (rdF (FTy.fmt t) x th c))))) :=
  aluStep_givesFloat
    (g := fun _ w th _ => outF (satIf (FTy.fmt t) sat (fFmaV (FTy.fmt t) rm (fv (FTy.fmt t) ma (rdF (FTy.fmt t) w th a))
      (fv (FTy.fmt t) mb (rdF (FTy.fmt t) w th b')) (fv (FTy.fmt t) mc (rdF (FTy.fmt t) w th c)))))
    (fun _ => rfl) fun _ _ _ _ _ _ _ => ⟨rfl, rfl⟩

end

/-- Settles O6: each of the four is an instruction whose members only compute, and its member's result is the named
operation on the operands' values, rounded once. -/
theorem floatArithmetic : Obligations.FloatArithmetic := by
  unfold Obligations.FloatArithmetic
  exact ⟨fun t rm sat ma mb p d a b => ⟨fadd_givesFloat t rm sat ma mb p d a b, fsub_givesFloat t rm sat ma mb p d a b,
    fmul_givesFloat t rm sat ma mb p d a b⟩, ffma_givesFloat⟩

/-! ### Conversions (R36, R178 to R182) -/

/-- A 64-bit value's low word is the 32-bit value of the same integer. -/
theorem setWidth_ofInt_64 (y : Int) : (BitVec.ofInt 64 y).setWidth 32 = BitVec.ofInt 32 y := by
  apply BitVec.eq_of_toNat_eq
  simp only [BitVec.toNat_setWidth, BitVec.toNat_ofInt]
  omega

/-- An integer destination of CVT holds the result reduced to its width and extended by its own signedness (R178). -/
theorem outCInt_ws (td : CTy) (r : Int) (fl : BitVec 6) : (outCInt td r fl).ws = extended td r := by
  unfold outCInt extended
  dsimp only
  cases CTy.signed td
  · simp only [Bool.false_eq_true, if_false, BitVec.ofInt_natCast]
    split
    · rfl
    · simp
  · simp only [if_true]
    split
    · rfl
    · rw [setWidth_ofInt_64]

theorem CTy.lo_le_hi (td : CTy) : CTy.lo td ≤ CTy.hi td := by cases td <;> decide

theorem clampI_eq_max_min {lo hi : Int} (h : lo ≤ hi) (r : Int) : clampI lo hi r = max lo (min r hi) := by
  unfold clampI
  split
  · omega
  · split <;> omega

section
variable {td ts : CTy} {fd fs : Fmt} (rm : Rm) (sat : Bool) (p : Pred) (d : Reg) (a : Src)

theorem cvt_float_givesFloat (hd : CTy.fmt td = some fd) (hs : CTy.fmt ts = some fs) :
    GivesFloat (.cvt td ts rm sat p d a) p d (fun x th => word (cvtFF fs fd rm sat (rdF fs x th a))) :=
  aluStep_givesFloat (g := fun _ w t _ => outF (cvtFF fs fd rm sat (rdF fs w t a)))
    (fun s => by show execCvt .. = _; simp only [execCvt, hd, hs]) fun _ _ _ _ _ _ _ => ⟨rfl, rfl⟩

theorem cvt_of_integer_givesFloat (hd : CTy.fmt td = some fd) (hs : CTy.fmt ts = none) :
    GivesFloat (.cvt td ts rm sat p d a) p d (fun x th => word (cvtIF fd rm sat (rdCInt ts x th a))) :=
  aluStep_givesFloat (g := fun _ w t _ => outF (cvtIF fd rm sat (rdCInt ts w t a)))
    (fun s => by show execCvt .. = _; simp only [execCvt, hd, hs]) fun _ _ _ _ _ _ _ => ⟨rfl, rfl⟩

theorem cvt_to_integer_gives (hd : CTy.fmt td = none) (hs : CTy.fmt ts = some fs) :
    Gives (.cvt td ts rm sat p d a) p d
      (fun x th => extended td (cvtFI fs rm (CTy.lo td) (CTy.hi td) (rdF fs x th a)).1) :=
  aluStep_gives
    (g := fun _ w t _ => outCInt td (cvtFI fs rm (CTy.lo td) (CTy.hi td) (rdF fs w t a)).1
      (cvtFI fs rm (CTy.lo td) (CTy.hi td) (rdF fs w t a)).2)
    (fun s => by show execCvt .. = _; simp only [execCvt, hd, hs]) fun _ _ _ _ _ _ _ => outCInt_ws ..

theorem cvt_integers_gives (hd : CTy.fmt td = none) (hs : CTy.fmt ts = none) :
    Gives (.cvt td ts rm sat p d a) p d (fun x th => extended td (cvtII td sat (rdCInt ts x th a)).1) :=
  aluStep_gives
    (g := fun _ w t _ => outCInt td (cvtII td sat (rdCInt ts w t a)).1 (cvtII td sat (rdCInt ts w t a)).2)
    (fun s => by show execCvt .. = _; simp only [execCvt, hd, hs]) fun _ _ _ _ _ _ _ => outCInt_ws ..

end

/-- Under .sat the exact integer is clamped to the destination's range (R179). -/
theorem cvtII_sat (td : CTy) (n : Int) : (cvtII td true n).1 = max (CTy.lo td) (min n (CTy.hi td)) :=
  clampI_eq_max_min (CTy.lo_le_hi td) n

theorem pack2_givesFloat (bf : Bool) (rm : Rm) (sat : Bool) (ma mb : FMod) (p : Pred) (d : Reg) (a b : Src) :
    let f : Fmt := if bf then .bf16 else .f16
    GivesFloat (.pack2 bf rm sat ma mb p d a b) p d (fun x th =>
      halves (cvtFF .f32 f rm sat (modBits .f32 ma (rdF .f32 x th a)))
        (cvtFF .f32 f rm sat (modBits .f32 mb (rdF .f32 x th b)))) :=
  aluStep_givesFloat
    (g := fun _ w t _ => outHalves
      (cvtFF .f32 (if bf then .bf16 else .f16) rm sat (modBits .f32 ma (rdF .f32 w t a)))
      (cvtFF .f32 (if bf then .bf16 else .f16) rm sat (modBits .f32 mb (rdF .f32 w t b))))
    (fun _ => rfl) fun _ _ _ _ _ _ _ => ⟨rfl, rfl⟩

theorem okey_gives (h nh : Bool) (p : Pred) (d : Reg) (a b : Src) : Gives (.okey h nh p d a b) p d (fun x th =>
    [rd32 x th b, BitVec.ofNat 32 (okeyOf nh (if h then toF32 .f16 (rdF .f16 x th a) else rdF .f32 x th a))]) :=
  aluStep_gives
    (g := fun _ w t _ => { ws := [rd32 w t b,
      BitVec.ofNat 32 (okeyOf nh (if h then toF32 .f16 (rdF .f16 w t a) else rdF .f32 w t a))] })
    (fun _ => rfl) fun _ _ _ _ _ _ _ => rfl

/-- Settles O9: one case per pair of kinds of formats, PACK2 half by half, and OKEY. -/
theorem conversions : Obligations.Conversions := by
  unfold Obligations.Conversions
  refine ⟨fun td ts fd fs rm sat p d a => cvt_float_givesFloat rm sat p d a,
    fun td ts fd rm sat p d a => cvt_of_integer_givesFloat rm sat p d a,
    fun td ts fs rm sat p d a => cvt_to_integer_gives rm sat p d a,
    fun td ts rm p d a hd hs => ⟨cvt_integers_gives rm false p d a hd hs, ?_⟩, pack2_givesFloat, okey_gives⟩
  simpa only [cvtII_sat] using cvt_integers_gives rm true p d a hd hs

end Sys2Proof.Machine
end

section
/-!
Special registers and the wave's counters (R109, R360, R364): MOVS by what each register holds, SETS by its lowest
performing member, the privilege check by its one fault, PMC by the counter it reads.
-/

namespace Sys2Proof.Machine

section
variable {s : State} {x : Wave} {y : Group} {l : Nat} {t : Thread} {p : Pred}

/-! ### MOVS (R109, R360) -/

theorem exec_movs (n : SReg) (p : Pred) (d : Reg) (s : State) : exec (.movs n p d) s = execMovs n p d s := rfl

theorem nb_two (b : Bool) : nb b 2 = 2 * if b then 1 else 0 := by cases b <;> rfl

theorem kstatusOf_free {g : Wg} (h : g.kiln = none) :
    kstatusOf g = BitVec.ofNat 32 (2 * (if g.kpoison then 1 else 0) + 2 ^ 16 * (g.kstatus % 256)) := by
  unfold kstatusOf
  rw [h]
  dsimp only
  rw [nb_two]
  congr 1
  omega

theorem kstatusOf_held {g : Wg} {kn : Kiln} (h : g.kiln = some kn) :
    kstatusOf g = BitVec.ofNat 32 (1 + 2 * (if kn.poison then 1 else 0) + 2 ^ 8 * kn.cmds.length +
      2 ^ 16 * (kn.status % 256)) := by
  unfold kstatusOf
  rw [h]
  dsimp only
  rw [nb_two]
  congr 1
  omega

theorem execMovs_of_ne_ticks {n : SReg} (hn : n ≠ .ticks) (p : Pred) (d : Reg) (s : State) :
    execMovs n p d s = aluStep s p (some d) fun x t l => readSpecial s.dev n x (group x s.dev.cur.2) t l := by
  unfold execMovs aluStep onDev
  split
  · exact absurd rfl hn
  · rfl

theorem movs_effect (h : Issues s x y) (hl : l ∈ y.lanes) (ht : NMap.find? x.threads l = some t)
    (hp : performs p t = true) {d : Reg} (hd : (∃ k, d = .v k) ∨ (performers x y p).head? = some l) {n : SReg}
    (hn : n ≠ .ticks) {ws : List Word} (hw : (readSpecial s.dev n x y t l).ws = ws) :
    ∃ s', exec (.movs n p d) s = .next s' ∧ Passed s s' y ∧ regsOf (after s s') l d ws.length = ws := by
  refine ⟨_, (exec_movs ..).trans (execMovs_of_ne_ticks hn p d s), alu_passed h p _ _, ?_⟩
  have hr := alu_regs h p d (fun x t l => readSpecial s.dev n x (group x s.dev.cur.2) t l) hl ht hp hd
  rwa [group_of_find h.group, hw] at hr

/-- A member's reads of TICKS are numbered (R392). -/
def countTicks (t : Thread) : Thread := { t with nTicks := t.nTicks + 1 }

/-- A read of TICKS where the launch neither records nor replays: the counter at the issue (R360, R392). -/
theorem readTicks_free {dev : Device} {w : Nat} (h1 : (launch dev t.launch).hdr.rep = false)
    (h2 : (launch dev t.launch).hdr.rec_ = false) :
    readTicks dev w x t l = (.done (out64 (BitVec.ofNat 64 ((threadAt dev w l).issued % 2 ^ 64))),
      modThreadAt dev w l countTicks) := by
  unfold readTicks askTicks
  simp only [h1, h2, Bool.false_eq_true, if_false]
  rfl

theorem exec_movs_ticks (p : Pred) (d : Reg) (s : State) : exec (.movs .ticks p d) s =
    .next { s with dev := members s.dev p (some d) fun dv x t l => readTicks dv s.dev.cur.1 x t l } := rfl

theorem movs_ticks_effect (h : Alone s x y l t) (hp : performs p t = true) (d : Reg)
    (h1 : (launch s.dev t.launch).hdr.rep = false) (h2 : (launch s.dev t.launch).hdr.rec_ = false) :
    ∃ s', exec (.movs .ticks p d) s = .next s' ∧ Passed s s' y ∧
      regsOf (after s s') l d 2 = words64 (BitVec.ofNat 64 s.dev.ticks) := by
  obtain ⟨hw, hg, ht, hq⟩ := h.begun_facts
  have hi : (threadAt (begunDev s x y l) s.dev.cur.1 l).issued = s.dev.ticks := by
    rw [threadAt, wave_of_find hw, thread_of_find ht]
  have hread := readTicks_free (w := s.dev.cur.1) (x := x) (l := l) (dev := begunDev s x y l) h1 h2
  rw [hi, show BitVec.ofNat 64 (s.dev.ticks % 2 ^ 64) = BitVec.ofNat 64 s.dev.ticks from BitVec.eq_of_toNat_eq (by simp)]
    at hread
  have hz := find_modWave_self (fun z => modThread z l countTicks) hw
  rw [← modThread_groups _ l countTicks] at hg
  rw [← modThread_fatal _ l countTicks] at hq
  have ht' := find_modThread (begun x s.dev.cur.2 y l s.dev.ticks) l l countTicks
  rw [if_pos rfl, ht] at ht'
  have hs := (congrArg (fun dev => NMap.find? dev.waves s.dev.cur.1)
    (members_done h hp (some d) (f := fun dv x t l => readTicks dv s.dev.cur.1 x t l) hread hz hg h.lanes ht' hq)).trans
    (NMap.find?_put_self ..)
  refine ⟨_, exec_movs_ticks p d s, passed_advance hs ((applyRes_done_groups ..).symm ▸ hg) h.issues.nodup ?_,
    regsOf_done (o := out64 _) _ _ hs hg h.lanes ht'⟩
  intro j hj
  rw [h.lanes, List.mem_singleton] at hj
  subst hj
  rw [find_applyRes_done ht']
  rfl

/-! ### SETS (R37, R90, R93, R360) -/

theorem exec_sets (n : SReg) (p : Pred) (a : Src) (s : State) : exec (.sets n p a) s = execSets n p a s := rfl

/-- A change by the lowest performing member that leaves the groups and threads: the group passes, and the wave's other
state is the change's. -/
theorem byLead_effect (h : Issues s x y) (hl : (performers x y p).head? = some l)
    (ht : NMap.find? x.threads l = some t) {f : Wave → Thread → Nat → Wave}
    (hg : (f x t l).groups = x.groups) (hth : (f x t l).threads = x.threads) :
    Passed s { s with dev := byLead s.dev p f } y ∧
      after s { s with dev := byLead s.dev p f } = advance (f x t l) s.dev.cur.2 := by
  have ha : after s { s with dev := byLead s.dev p f } = advance (f x t l) s.dev.cur.2 := by
    obtain ⟨ls, hls⟩ := List.head?_eq_some_iff.1 hl
    rw [byLead, after_modWave _ h.wave, group_of_find h.group, hls]
    simp only [thread_of_find ht]
  exact ⟨passed_of_advance ha (by rw [hg]; exact h.group) h.nodup (by rw [hth]; exact h.here), ha⟩

@[simp] theorem advance_hold (x : Wave) (g : Nat) : (advance x g).hold = x.hold := by rw [advance_frame]

theorem sets_fpflags_effect (h : Issues s x y) (hl : (performers x y p).head? = some l)
    (ht : NMap.find? x.threads l = some t) (a : Src) :
    ∃ s', exec (.sets .fpflags p a) s = .next s' ∧ Passed s s' y ∧ (after s s').fpflags = rd32 x t a &&& 0x3F := by
  obtain ⟨hpass, ha⟩ := byLead_effect h hl ht (f := fun x t _ => setFlags x (rd32 x t a)) rfl rfl
  exact ⟨_, exec_sets .fpflags p a s, hpass, by rw [ha, advance_fpflags]; rfl⟩

/-- SETS of HOLD changes the budget and the time of its beginning only. -/
theorem setHold_frame (now : Nat) (x : Wave) (n : Nat) :
    setHold now x n = { x with hold := (setHold now x n).hold, holdBegan := (setHold now x n).holdBegan } := by
  unfold setHold
  split
  · rfl
  · dsimp only
    split <;> split <;> rfl

/-- A budget is set, within 5000 TICKS, where none is under way and the last began 50000 TICKS ago or more (R90). -/
theorem setHold_hold (now : Nat) (x : Wave) (n : Nat) : (setHold now x n).hold =
    if n = 0 then 0
    else if x.hold = 0 ∧ (∀ b, x.holdBegan = some b → b + 50000 ≤ now) then min n 5000 else x.hold := by
  unfold setHold
  by_cases hn : n = 0
  · simp [hn]
  · simp only [hn, if_false]
    by_cases h0 : x.hold = 0
    · cases x.holdBegan with
      | none => simp [h0]
      | some b => by_cases hb : b + 50000 ≤ now <;> simp [h0, hb]
    · simp [h0]

theorem sets_hold_effect (h : Issues s x y) (hl : (performers x y p).head? = some l)
    (ht : NMap.find? x.threads l = some t) (a : Src) :
    ∃ s', exec (.sets .hold p a) s = .next s' ∧ Passed s s' y ∧
      (after s s').hold = (setHold s.dev.ticks x (rd32 x t a).toNat).hold := by
  obtain ⟨hpass, ha⟩ := byLead_effect h hl ht (f := fun x t _ => setHold s.dev.ticks x (rd32 x t a).toNat)
    (by rw [setHold_frame]) (by rw [setHold_frame])
  exact ⟨_, exec_sets .hold p a s, hpass, by rw [ha, advance_hold]⟩

/-- The TPC that SETS writes: bits [59:57] are zero (R93). -/
theorem getLsbD_and_tpcMask (v : DWord) {i : Nat} (hi : i < 64) :
    (v &&& tpcMask).getLsbD i = (v.getLsbD i && !(decide (57 ≤ i ∧ i ≤ 59))) := by
  rw [BitVec.getLsbD_and]
  congr 1
  revert hi
  revert i
  decide

/-- Every performing member's TPC is written and its resume mark cleared. -/
def writeTpc (x : Wave) (y : Group) (p : Pred) (a : Src) : Wave :=
  eachThread x (performers x y p) fun l t => { t with tpc := rd64 x (thread x l) a &&& tpcMask, mark := .none }

theorem exec_sets_tpc (h : Issues s x y) (hh : inHandler x = true) (p : Pred) (a : Src) :
    exec (.sets .tpc p a) s =
      .next { s with dev := modWave s.dev s.dev.cur.1 fun x => advance (writeTpc x (group x s.dev.cur.2) p a) s.dev.cur.2 } := by
  have hx : inHandler (wave s.dev s.dev.cur.1) = true := by rw [wave_of_find h.wave]; exact hh
  rw [exec_sets, execSets, onDev]
  simp only [hx, Bool.not_true, Bool.false_eq_true, if_false]
  rfl

theorem sets_tpc_effect (h : Issues s x y) (hl : l ∈ y.lanes) (ht : NMap.find? x.threads l = some t)
    (hp : performs p t = true) (hh : inHandler x = true) (a : Src) :
    ∃ s', exec (.sets .tpc p a) s = .next s' ∧ Passed s s' y ∧ (thread (after s s') l).mark = .none ∧
      (thread (after s s') l).tpc = rd64 x t a &&& tpcMask := by
  have hg : NMap.find? (writeTpc x y p a).groups s.dev.cur.2 = some y := by
    rw [writeTpc, eachThread_groups]; exact h.group
  have hfind := fun j => find_eachThread (x := x)
    (fun l t => { t with tpc := rd64 x (thread x l) a &&& tpcMask, mark := .none })
    (h.nodup.filter (fun l => performs p (thread x l))) j
  have ha := after_modWave (s := s) (fun x => advance (writeTpc x (group x s.dev.cur.2) p a) s.dev.cur.2) h.wave
  rw [group_of_find h.group] at ha
  refine ⟨_, exec_sets_tpc h hh p a, passed_of_advance ha hg h.nodup fun j hj => ?_, ?_⟩
  · rw [writeTpc, performers, hfind]
    split <;> simp [h.here j hj]
  · have hmem := mem_performers hl ht hp
    have hthread := find_advance hg h.nodup l
    rw [performers] at hmem
    rw [writeTpc, performers, hfind, if_pos hl, if_pos hmem, ht] at hthread
    rw [ha, writeTpc, performers, thread_of_find hthread, thread_of_find ht]
    split <;> exact ⟨rfl, rfl⟩

/-! ### The privilege check (R116, R360) -/

/-- Outside the handler the check's fault parks the thread with PRIVILEGE, its TPC at the instruction; nothing of the
wave's registers changes (R354). -/
theorem privilegeFault_effect (h : Alone s x y l t) (hh : inHandler x = false) :
    let s' : State := { s with dev := privilegeFault s.dev }
    (thread (after s s') l).run = .fault 0x05 ∧ (thread (after s s') l).tpc = groupPc y ∧ sameRegs x (after s s') := by
  have hof : groupOf x l = some s.dev.cur.2 := by simp [groupOf, h.groups, h.lanes]
  have hw : NMap.find? (privilegeFault s.dev).waves s.dev.cur.1 =
      some (raiseFault x l cPRIVILEGE 0 0 (laneMask [l])) := by
    have hz := find_modWave_self (fun x => raiseFaults x [l] cPRIVILEGE (fun _ => 0) 0 (laneMask [l])) h.wave
    unfold privilegeFault
    simp only [h.wave_eq, h.group_eq, h.lanes]
    rw [settleFatal_none]
    · exact hz
    · rw [wave_of_find hz]
      show (raiseFault x l cPRIVILEGE 0 0 (laneMask [l])).fatal = none
      unfold raiseFault
      simp [hh, hof, leaveLane, h.group_eq, h.lanes, dropGroup, h.quiet.2.2]
  intro s'
  have ha : after s s' = raiseFault x l cPRIVILEGE 0 0 (laneMask [l]) := wave_of_find hw
  have hpc : pcOf x l = groupPc y := by rw [pcOf, hof]; simp only [h.group_eq]
  have ht : NMap.find? (raiseFault x l cPRIVILEGE 0 0 (laneMask [l])).threads l = some
      { t with run := .fault cPRIVILEGE, pc := groupPc y, tpc := groupPc y, taddr := 0, wait := .none, lead := false
               mark := .none, inst := none } := by
    unfold raiseFault
    simp [hh, hof, hpc, leaveLane, h.group_eq, h.lanes, dropGroup, find_modThread, h.thread]
  rw [ha, thread_of_find ht]
  refine ⟨rfl, rfl, ?_⟩
  unfold raiseFault
  simp [hh, hof, leaveLane, h.group_eq, h.lanes, dropGroup, sameRegs]

theorem execSets_privilege (h : Alone s x y l t) (hh : inHandler x = false) {n : SReg} (h1 : n ≠ .hold)
    (h2 : n ≠ .fpflags) (p : Pred) (a : Src) :
    execSets n p a s = .next { s with dev := privilegeFault s.dev } := by
  unfold execSets onDev
  split
  · exact absurd rfl h1
  · exact absurd rfl h2
  · simp only [h.wave_eq, hh, Bool.not_false, if_true]
  · rfl

theorem exec_rte (p : Pred) (s : State) : exec (.rte p) s = execRte p s := rfl

theorem execRte_privilege (h : Alone s x y l t) (hh : inHandler x = false) (p : Pred) :
    execRte p s = .next { s with dev := privilegeFault s.dev } := by
  unfold execRte onDev
  simp only [h.wave_eq, hh, Bool.false_eq_true, if_false]

/-! ### PMC (R364) -/

/-- What a member reads of counter `n`. -/
def readPmc (n : Fin 9) (x : Wave) (_ : Thread) (_ : Nat) : LaneOut := out64 (NMap.get 0 x.pmc n.val)

/-- The wave after PMC: under .clr the counter that was read is zero. -/
def clearPmc (clr : Bool) (n : Nat) (x : Wave) : Wave := if clr then { x with pmc := NMap.erase x.pmc n } else x

theorem get_clearPmc (clr : Bool) (n m : Nat) (x : Wave) :
    NMap.get 0 (clearPmc clr n x).pmc m = if clr = true ∧ m = n then 0 else NMap.get 0 x.pmc m := by
  cases clr
  · simp [clearPmc]
  · simp [clearPmc, NMap.get_erase]

theorem clearPmc_groups (clr : Bool) (n : Nat) (x : Wave) : (clearPmc clr n x).groups = x.groups := by
  cases clr <;> rfl
theorem clearPmc_threads (clr : Bool) (n : Nat) (x : Wave) : (clearPmc clr n x).threads = x.threads := by
  cases clr <;> rfl

theorem exec_pmc (n : Fin 9) (clr : Bool) (p : Pred) (d : Reg) (s : State) :
    exec (.pmc n clr p d) s = execPmc n clr p d s := rfl

/-- The members read the counter as a computing instruction does; then it is cleared. -/
theorem exec_pmc_eq (h : Issues s x y) (hl : l ∈ performers x y p) (n : Fin 9) (clr : Bool) (d : Reg) :
    exec (.pmc n clr p d) s = .next { s with dev := modWave s.dev s.dev.cur.1 (fun x =>
      clearPmc clr n.val (advance (compute x s.dev.cur.2 p (some d) (readPmc n)) s.dev.cur.2)) } := by
  have hne : (performers x y p).isEmpty = false := by
    rw [List.isEmpty_eq_false_iff]; exact List.ne_nil_of_mem hl
  rw [exec_pmc, execPmc, onDev]
  simp only [wave_of_find h.wave, group_of_find h.group, hne, Bool.not_false, Bool.and_true]
  cases clr
  · rfl
  · simp only [if_true, alu, modWave_modWave]
    rfl

theorem pmc_effect (h : Issues s x y) (hl : l ∈ y.lanes) (ht : NMap.find? x.threads l = some t)
    (hp : performs p t = true) {d : Reg} (hd : (∃ k, d = .v k) ∨ (performers x y p).head? = some l) (n : Fin 9)
    (clr : Bool) :
    ∃ s', exec (.pmc n clr p d) s = .next s' ∧ Passed s s' y ∧
      regsOf (after s s') l d 2 = words64 (NMap.get 0 x.pmc n.val) ∧
      ∀ m, NMap.get 0 (after s s').pmc m = if clr = true ∧ m = n.val then 0 else NMap.get 0 x.pmc m := by
  have ha := after_modWave (s := s) (fun x => clearPmc clr n.val (advance (compute x s.dev.cur.2 p (some d) (readPmc n)) s.dev.cur.2))
    h.wave
  have halu := after_alu h p (some d) (readPmc n)
  have hpass := alu_passed h p (some d) (readPmc n)
  have hregs := alu_regs h p d (readPmc n) hl ht hp hd
  refine ⟨_, exec_pmc_eq h (mem_performers hl ht hp) n clr d, ?_, ?_, fun m => ?_⟩
  · unfold Passed thread at hpass ⊢
    rwa [ha, clearPmc_groups, clearPmc_threads, ← halu]
  · have hread : ∀ z : Wave, regsOf (clearPmc clr n.val z) l d 2 = regsOf z l d 2 := fun z => by
      cases clr <;> rfl
    rw [ha, hread, ← halu]
    exact hregs
  · rw [ha, get_clearPmc, advance_pmc, compute_frame]

end

/-! ### The obligation -/

/-- Settles O38: MOVS register by register, SETS by its target, the privilege check where it applies, and PMC. -/
theorem specialRegisters : Obligations.SpecialRegisters := by
  unfold Obligations.SpecialRegisters
  refine ⟨⟨?_, ?_⟩, ⟨?_, ?_, ?_, ?_⟩, ?_⟩
  · intro s x y l t p d n h hl ht hp hd hn
    refine movs_effect h hl ht hp hd hn ?_
    cases n with
    | ticks => exact absurd rfl hn
    | groupmask => rfl
    | kstatus =>
      cases hk : (wg s.dev x.wg).kiln with
      | none => exact congrArg (fun w => [w]) (kstatusOf_free hk)
      | some kn => exact congrArg (fun w => [w]) (kstatusOf_held hk)
    | _ => rfl
  · exact fun s x y l t p d h hp h1 h2 => movs_ticks_effect h hp d h1 h2
  · intro s x y l t p a h hl ht
    refine ⟨sets_fpflags_effect h hl ht a, ?_⟩
    obtain ⟨s', he, hpass, hhold⟩ := sets_hold_effect h hl ht a
    exact ⟨s', he, hpass, hhold.trans (setHold_hold ..)⟩
  · intro s x y l t p a h hl ht hp hh
    obtain ⟨s', he, hpass, hmark, htpc⟩ := sets_tpc_effect h hl ht hp hh a
    exact ⟨s', he, hpass, hmark, fun i hi => by rw [htpc, getLsbD_and_tpcMask _ hi]⟩
  · exact fun s x y l t p a n h hh h1 h2 =>
      ⟨_, (exec_sets n p a s).trans (execSets_privilege h hh h1 h2 p a), privilegeFault_effect h hh⟩
  · exact fun s x y l t p h hh => ⟨_, (exec_rte p s).trans (execRte_privilege h hh p), privilegeFault_effect h hh⟩
  · exact fun s x y l t p d n clr h hl ht hp hd => pmc_effect h hl ht hp hd n clr

end Sys2Proof.Machine
end

section
/-!
Coverage numbers: a segment within one cell is one piece, deposited in that cell (R49, R266, R267); the points of a
flattened curve and their number (R264).
-/

namespace Sys2Proof.Machine

/-! ### A segment within one cell (R49, R266, R267) -/

/-- Two coordinates in one cell have no grid line strictly between them. -/
theorem gridBetween_same_cell {a b k : Int} (ha : 256 * k ≤ a ∧ a < 256 * k + 256) (hb : 256 * k ≤ b ∧ b < 256 * k + 256) :
    gridBetween a b = [] := by
  have h : ((max a b - 1) / 256 - (min a b / 256 + 1) + 1).toNat = 0 := by omega
  unfold gridBetween
  dsimp only
  rw [h]
  rfl

/-- A point in column `i` and row `j` of the grid of cells. -/
def InCell (i j : Int) (p : Pt) : Prop :=
  (256 * i ≤ p.1 ∧ p.1 < 256 * i + 256) ∧ 256 * j ≤ p.2 ∧ p.2 < 256 * j + 256

section
variable {i j : Int} {a b : Pt} (ha : InCell i j a) (hb : InCell i j b)
include ha hb

theorem cutPoints_same_cell : cutPoints a b = [a, b] := by
  have h : crossings a b = [] := by
    unfold crossings
    rw [gridBetween_same_cell ha.1 hb.1, gridBetween_same_cell ha.2 hb.2]
    rfl
  unfold cutPoints
  rw [h]
  split <;> rfl

theorem depositSegment_same_cell (q : PathTile) : depositSegment q a b = depositPiece q a b := by
  unfold depositSegment
  rw [cutPoints_same_cell ha hb]
  rfl

end

/-- The first column and row of a path-tile, as cells of the grid. -/
def originX (q : PathTile) : Int := 16 * signed16 (bitsOf q.origin.toNat 0 16)
def originY (q : PathTile) : Int := 16 * signed16 (bitsOf q.origin.toNat 16 16)

/-- What a piece in a cell of the tile does: a horizontal one nothing; any other adds to the cell's C and A (R49). -/
theorem depositPiece_in_tile {q : PathTile} {a b : Pt} {col row : Nat} (hc : col < 16) (hr : row < 16)
    (ha : InCell (originX q + col) (originY q + row) a) (hb : InCell (originX q + col) (originY q + row) b) :
    depositPiece q a b =
      if a.2 = b.2 then q
      else { q with
        cellC := NMap.set 0 q.cellC (16 * row + col) (NMap.get 0 q.cellC (16 * row + col) + BitVec.ofInt 24 (b.2 - a.2))
        cellA := NMap.set 0 q.cellA (16 * row + col) (NMap.get 0 q.cellA (16 * row + col) +
          BitVec.ofInt 40 ((b.2 - a.2) *
            ((a.1 - 256 * (originX q + col)) + (b.1 - 256 * (originX q + col))))) } := by
  obtain ⟨⟨ha1, ha2⟩, ha3, ha4⟩ := ha
  obtain ⟨⟨hb1, hb2⟩, hb3, hb4⟩ := hb
  have hcol : min a.1 b.1 / 256 = originX q + col := by omega
  have hrow : min a.2 b.2 / 256 = originY q + row := by omega
  have hx : originX q + col - 16 * signed16 (bitsOf q.origin.toNat 0 16) = col := by unfold originX; omega
  have hy : originY q + row - 16 * signed16 (bitsOf q.origin.toNat 16 16) = row := by unfold originY; omega
  unfold depositPiece
  simp only [hcol, hrow, hx, hy]
  by_cases h : a.2 = b.2
  · simp [h]
  · have hin : ¬(a.2 = b.2 ∨ (row : Int) < 0 ∨ 16 ≤ (row : Int) ∨ 16 ≤ (col : Int)) := by omega
    have hi : (16 * (row : Int) + max (col : Int) 0).toNat = 16 * row + col := by omega
    rw [if_neg hin, if_neg h, if_neg (by omega), hi]

/-- Adding to a cell of a sparse map shows in that cell only. -/
theorem get_set_add {n : Nat} (m : NMap (BitVec n)) (i j : Nat) (v : BitVec n) :
    NMap.get 0 (NMap.set 0 m i (NMap.get 0 m i + v)) j = NMap.get 0 m j + if j = i then v else 0 := by
  rw [NMap.get_set]
  split
  · subst_vars; rfl
  · simp

/-- The cells after a segment within one cell. -/
theorem cells_depositSegment {q : PathTile} {a b : Pt} {col row : Nat} (hc : col < 16) (hr : row < 16)
    (ha : InCell (originX q + col) (originY q + row) a) (hb : InCell (originX q + col) (originY q + row) b) (j : Nat) :
    NMap.get 0 (depositSegment q a b).cellC j =
      NMap.get 0 q.cellC j + (if j = 16 * row + col then BitVec.ofInt 24 (b.2 - a.2) else 0) ∧
    NMap.get 0 (depositSegment q a b).cellA j =
      NMap.get 0 q.cellA j + (if j = 16 * row + col then BitVec.ofInt 40 ((b.2 - a.2) *
        ((a.1 - 256 * (originX q + col)) + (b.1 - 256 * (originX q + col)))) else 0) := by
  rw [depositSegment_same_cell ha hb, depositPiece_in_tile hc hr ha hb]
  by_cases h : a.2 = b.2
  · have h0 : b.2 - a.2 = 0 := by omega
    rw [if_pos h, h0, Int.zero_mul, show BitVec.ofInt 24 0 = 0 from rfl, show BitVec.ofInt 40 0 = 0 from rfl, ite_self,
      ite_self]
    exact ⟨(BitVec.add_zero _).symm, (BitVec.add_zero _).symm⟩
  · rw [if_neg h]
    exact ⟨get_set_add .., get_set_add ..⟩

/-! ### Flattening (R264) -/

/-- The number of segments is from 1 to the cap. -/
theorem flatCount_bounds (lhs tau : Nat) {cap : Nat} (h : 1 ≤ cap) :
    1 ≤ flatCount lhs tau cap ∧ flatCount lhs tau cap ≤ cap := by
  unfold flatCount
  cases hf : ((List.range cap).map (· + 1)).find? fun n => decide (lhs ≤ 4 * tau * n * n) with
  | none => exact ⟨h, le_refl _⟩
  | some n =>
    obtain ⟨m, hm, rfl⟩ := List.mem_map.1 (List.mem_of_find?_eq_some hf)
    have := List.mem_range.1 hm
    exact ⟨by simp, this⟩

/-- A list of points numbered from 0 to `n` that begins at `p` and ends at `q`. -/
theorem range_map_ends {f : Nat → Pt} {n cap : Nat} {p q : Pt} (h : 1 ≤ n ∧ n ≤ cap) (h0 : f 0 = p) (hn : f n = q) :
    ((List.range (n + 1)).map f).head? = some p ∧ ((List.range (n + 1)).map f).getLast? = some q ∧
      2 ≤ ((List.range (n + 1)).map f).length ∧ ((List.range (n + 1)).map f).length ≤ cap + 1 := by
  obtain ⟨h1, h2⟩ := h
  refine ⟨?_, ?_, by simp; omega, by simp; omega⟩
  · rw [List.range_succ_eq_map, List.map_cons, List.head?_cons, h0]
  · rw [List.range_succ, List.map_append, List.map_singleton, List.getLast?_concat, hn]

theorem flatQuad_ends (tau : Nat) (p0 p1 p2 : Pt) :
    (flatQuad tau p0 p1 p2).head? = some p0 ∧ (flatQuad tau p0 p1 p2).getLast? = some p2 ∧
      2 ≤ (flatQuad tau p0 p1 p2).length ∧ (flatQuad tau p0 p1 p2).length ≤ 129 := by
  have h := flatCount_bounds (bend p0 p1 p2) tau (show 1 ≤ 128 by decide)
  unfold flatQuad
  exact range_map_ends h (if_pos rfl) (by rw [if_neg (by omega), if_pos rfl])

theorem flatCubic_ends (tau : Nat) (p0 p1 p2 p3 : Pt) :
    (flatCubic tau p0 p1 p2 p3).head? = some p0 ∧ (flatCubic tau p0 p1 p2 p3).getLast? = some p3 ∧
      2 ≤ (flatCubic tau p0 p1 p2 p3).length ∧ (flatCubic tau p0 p1 p2 p3).length ≤ 257 := by
  have h := flatCount_bounds (3 * max (bend p0 p1 p2) (bend p1 p2 p3)) tau (show 1 ≤ 256 by decide)
  unfold flatCubic
  exact range_map_ends h (if_pos rfl) (by rw [if_neg (by omega), if_pos rfl])

/-! ### The obligation -/

/-- Settles O35: the segment is one piece of its cell, and the flattened points are numbered from end to end. -/
theorem coverageNumbers : Obligations.CoverageNumbers := by
  unfold Obligations.CoverageNumbers
  refine ⟨fun q a b col row hc hr => ?_, fun tau p0 p1 p2 p3 => ⟨flatQuad_ends .., flatCubic_ends ..⟩⟩
  intro x0 y0 ha1 ha2 hb1 hb2 ha3 ha4 hb3 hb4 q' i
  have hcells := cells_depositSegment hc hr (q := q) ⟨⟨ha1, ha2⟩, ha3, ha4⟩ ⟨⟨hb1, hb2⟩, hb3, hb4⟩
  exact ⟨(hcells i).1.trans (by rw [if_pos rfl]), (hcells i).2.trans (by rw [if_pos rfl]; rfl), fun j hj =>
    ⟨(hcells j).1.trans (by rw [if_neg hj]; exact BitVec.add_zero _), (hcells j).2.trans (by rw [if_neg hj]; exact BitVec.add_zero _)⟩⟩

end Sys2Proof.Machine
end

section
/-!
Bit patterns as numbers (R29 to R36): a finite pattern is a sign and a magnitude, its value the magnitude's number of
units of the format's least subnormal, and the magnitudes keep the order of their units.
-/

namespace Sys2Proof.Machine

/-! ### Magnitudes and units -/

/-- The value of magnitude `mag` in units of the least subnormal, where a fraction has `p` bits. -/
def units (p mag : Nat) : Nat := if mag < 2 ^ p then mag else (2 ^ p + mag % 2 ^ p) * 2 ^ (mag / 2 ^ p - 1)

/-- `t` in place `d`: a significand of `p` + 1 bits, or of fewer in the lowest place. -/
def InPlace (p d t : Nat) : Prop := d = 0 ∨ 2 ^ p ≤ t

section
variable {p d t : Nat}

theorem units_place (h : t ≤ 2 ^ (p + 1)) (hp : InPlace p d t) : units p (d * 2 ^ p + t) = t * 2 ^ d := by
  have hpos : 0 < 2 ^ p := Nat.two_pow_pos p
  rw [pow_succ] at h
  unfold units
  rcases lt_or_ge t (2 ^ p) with ht | ht
  · obtain rfl : d = 0 := hp.resolve_right (by omega)
    simp [ht]
  · rw [if_neg (by omega)]
    rcases eq_or_lt_of_le h with rfl | h2
    · rw [show d * 2 ^ p + 2 ^ p * 2 = 2 ^ p * (d + 2) by ring, Nat.mul_mod_right, Nat.mul_div_cancel_left _ hpos,
        Nat.add_zero, show d + 2 - 1 = d + 1 by omega]
      ring
    · obtain ⟨r, rfl⟩ := Nat.exists_eq_add_of_le ht
      have hr : r < 2 ^ p := by omega
      rw [show d * 2 ^ p + (2 ^ p + r) = r + 2 ^ p * (d + 1) by ring, Nat.add_mul_mod_self_left, Nat.mod_eq_of_lt hr,
        Nat.add_mul_div_left _ _ hpos, Nat.div_eq_of_lt hr, Nat.zero_add, Nat.add_sub_cancel]

/-- Every magnitude is a significand in its place. -/
theorem exists_place (p mag : Nat) : ∃ d t, mag = d * 2 ^ p + t ∧ t < 2 ^ (p + 1) ∧ InPlace p d t := by
  rw [pow_succ]
  rcases lt_or_ge mag (2 ^ p) with h | h
  · exact ⟨0, mag, by simp, by omega, .inl rfl⟩
  · obtain ⟨k, hk⟩ : ∃ k, mag / 2 ^ p = k + 1 := ⟨mag / 2 ^ p - 1, by have := Nat.div_pos h (Nat.two_pow_pos p); omega⟩
    have hdiv := Nat.div_add_mod mag (2 ^ p)
    have hmod := Nat.mod_lt mag (Nat.two_pow_pos p)
    rw [hk] at hdiv
    exact ⟨k, 2 ^ p + mag % 2 ^ p, by linarith [Nat.mul_comm (2 ^ p) (k + 1)], by omega, .inr (by omega)⟩

theorem units_lt_succ (p mag : Nat) : units p mag < units p (mag + 1) := by
  obtain ⟨d, t, rfl, ht, hp⟩ := exists_place p mag
  rw [units_place ht.le hp, Nat.add_assoc, units_place ht (hp.imp_right fun h => by omega)]
  exact Nat.mul_lt_mul_of_pos_right (Nat.lt_succ_self t) (Nat.two_pow_pos d)

theorem units_strictMono (p : Nat) : StrictMono (units p) := strictMono_nat_of_lt_succ (units_lt_succ p)

end

/-! ### Patterns (R29, R32) -/

/-- Sign of a value. -/
def signOf (neg : Bool) : ℚ := if neg then -1 else 1

@[simp] theorem signOf_false : signOf false = 1 := rfl
@[simp] theorem signOf_true : signOf true = -1 := rfl
theorem signOf_mul_self (neg : Bool) : signOf neg * signOf neg = 1 := by cases neg <;> norm_num
theorem abs_signOf (neg : Bool) : |signOf neg| = 1 := by cases neg <;> norm_num

theorem ratOf_eq (neg : Bool) (m : Nat) (e : Int) : ratOf neg m e = signOf neg * (m * 2 ^ e) := by
  unfold ratOf signOf; ring

/-- The largest finite magnitude: a full significand above the least of its place; even in E4M3 only. -/
theorem Fmt.largest_place (f : Fmt) : ∃ d t, f.largest = d * 2 ^ f.mb + t ∧ 2 ^ f.mb < t ∧ t < 2 ^ (f.mb + 1) ∧
    (t % 2 = 0 ↔ f = .e4m3) := by
  cases f
  · exact ⟨253, 2 ^ 24 - 1, by decide⟩
  · exact ⟨29, 2 ^ 11 - 1, by decide⟩
  · exact ⟨253, 2 ^ 8 - 1, by decide⟩
  · exact ⟨14, 14, by decide⟩
  · exact ⟨29, 2 ^ 3 - 1, by decide⟩

theorem Fmt.largest_lt_sb (f : Fmt) : f.largest < f.sb := by cases f <;> decide
theorem Fmt.sb_even (f : Fmt) : f.sb % 2 = 0 := by cases f <;> decide
theorem Fmt.two_mul_sb (f : Fmt) : 2 ^ f.bits = 2 * f.sb := by cases f <;> decide
theorem Fmt.mb_pos (f : Fmt) : 2 ≤ f.mb := by cases f <;> decide

theorem Fmt.sgnBit_add_div {f : Fmt} {mag : Nat} (h : mag < f.sb) (neg : Bool) :
    (f.sgnBit neg + mag) / f.sb = if neg then 1 else 0 := by
  have hpos : 0 < f.sb := by omega
  cases neg
  · simp [Fmt.sgnBit, Nat.div_eq_of_lt h]
  · simp [Fmt.sgnBit, Nat.add_div_left _ hpos, Nat.div_eq_of_lt h]

theorem Fmt.sgnBit_add_mod_two (f : Fmt) (neg : Bool) (mag : Nat) : (f.sgnBit neg + mag) % 2 = mag % 2 := by
  have := f.sb_even
  unfold Fmt.sgnBit
  split <;> omega

/-- A pattern of the format is a sign and a magnitude. -/
theorem Fmt.exists_sgnBit_add {f : Fmt} {x : Nat} (h : x < 2 ^ f.bits) :
    ∃ neg mag, mag < f.sb ∧ x = f.sgnBit neg + mag := by
  rw [Fmt.two_mul_sb] at h
  rcases lt_or_ge x f.sb with hx | hx
  · exact ⟨false, x, hx, by simp [Fmt.sgnBit]⟩
  · exact ⟨true, x - f.sb, by omega, by simp [Fmt.sgnBit]; omega⟩

/-- The fields of a pattern: sign, exponent and fraction. -/
theorem Fmt.bitsOf_sgnBit_add {f : Fmt} {mag : Nat} (h : mag < f.sb) (neg : Bool) :
    (bitsOf (f.sgnBit neg + mag) (f.eb + f.mb) 1 == 1) = neg ∧ bitsOf (f.sgnBit neg + mag) f.mb f.eb = mag / 2 ^ f.mb ∧
      bitsOf (f.sgnBit neg + mag) 0 f.mb = mag % 2 ^ f.mb := by
  refine ⟨?_, ?_, ?_⟩
  · rw [bitsOf, show 2 ^ (f.eb + f.mb) = f.sb from rfl, Fmt.sgnBit_add_div h]
    cases neg <;> rfl
  · rw [Fmt.sb, pow_add] at h
    have hlt : mag / 2 ^ f.mb < 2 ^ f.eb := Nat.div_lt_of_lt_mul (by rwa [Nat.mul_comm])
    cases neg
    · rw [bitsOf, Fmt.sgnBit, if_neg Bool.false_ne_true, Nat.zero_add, Nat.mod_eq_of_lt hlt]
    · rw [bitsOf, Fmt.sgnBit, if_pos rfl, Fmt.sb, pow_add, Nat.add_comm, Nat.add_mul_div_right _ _ (Nat.two_pow_pos _),
        Nat.add_mod_right, Nat.mod_eq_of_lt hlt]
  · rw [bitsOf, pow_zero, Nat.div_one]
    cases neg
    · rw [Fmt.sgnBit, if_neg Bool.false_ne_true, Nat.zero_add]
    · rw [Fmt.sgnBit, if_pos rfl, Fmt.sb, pow_add, Nat.add_comm, Nat.add_mul_mod_self_right]

/-- The value of a finite magnitude. -/
def Fmt.fin (f : Fmt) (neg : Bool) (mag : Nat) : FVal :=
  .fin neg (if mag < 2 ^ f.mb then mag else 2 ^ f.mb + mag % 2 ^ f.mb) (f.qmin + (mag / 2 ^ f.mb - 1 : Nat))

/-- The value of a pattern, by its sign and its magnitude. -/
theorem Fmt.val_sgnBit_add {f : Fmt} {mag : Nat} (h : mag < f.sb) (neg : Bool) :
    f.val (f.sgnBit neg + mag) =
      if mag ≤ f.largest then f.fin neg mag
      else if mag = f.infinity ∧ f ≠ .e4m3 then .inf neg else .nan := by
  obtain ⟨hs, he, hf⟩ := Fmt.bitsOf_sgnBit_add h neg
  have hzero : mag / 2 ^ f.mb = 0 ↔ mag < 2 ^ f.mb := by
    rw [Nat.div_eq_zero_iff]; simp
  have htop : f.largest < mag ↔ mag / 2 ^ f.mb = 2 ^ f.eb - 1 ∧ (f = .e4m3 → mag % 2 ^ f.mb = 7) := by
    cases f <;> simp [Fmt.largest, Fmt.sb, Fmt.eb, Fmt.mb] at h ⊢ <;> omega
  have hinf : mag / 2 ^ f.mb = 2 ^ f.eb - 1 → (mag = f.infinity ↔ mag % 2 ^ f.mb = 0) := by
    cases f <;> simp [Fmt.infinity, Fmt.sb, Fmt.eb, Fmt.mb] at h ⊢ <;> omega
  unfold Fmt.val
  simp only [hs, he, hf]
  by_cases hm : mag ≤ f.largest
  · have hn := mt htop.2 (not_lt.2 hm)
    rw [if_pos hm, if_neg (by simp; tauto), if_neg (by simp; tauto), Fmt.fin]
    split
    · rename_i h0
      rw [if_pos (hzero.1 h0), h0, Nat.mod_eq_of_lt (hzero.1 h0)]
      simp
    · rename_i h0
      rw [if_neg (mt hzero.2 h0)]
  · obtain ⟨h1, h2⟩ := htop.1 (not_le.1 hm)
    rw [if_neg hm]
    by_cases hf : f = .e4m3
    · rw [if_pos (by simp [hf] at h1 h2 ⊢; exact ⟨h1, h2⟩), if_neg (by simp [hf])]
    · rw [if_neg (by simp [hf]), if_pos (by simp [hf, h1])]
      simp only [hinf h1, hf, ne_eq, not_false_eq_true, and_true]

/-- The finite patterns: a sign, and a magnitude up to the largest. -/
theorem Fmt.isFinite_iff {f : Fmt} {x : Nat} :
    f.isFinite x ↔ ∃ neg mag, mag ≤ f.largest ∧ x = f.sgnBit neg + mag := by
  have hl := f.largest_lt_sb
  constructor
  · rintro ⟨hx, hn, hi⟩
    obtain ⟨neg, mag, hm, rfl⟩ := Fmt.exists_sgnBit_add hx
    refine ⟨neg, mag, ?_, rfl⟩
    rw [Fmt.val_sgnBit_add hm] at hn hi
    by_contra hc
    rw [if_neg hc] at hn hi
    split at hn
    · rename_i h; rw [if_pos h] at hi; exact absurd hi Bool.noConfusion
    · exact absurd hn Bool.noConfusion
  · rintro ⟨neg, mag, hm, rfl⟩
    refine ⟨?_, ?_⟩
    · rw [Fmt.two_mul_sb, Fmt.sgnBit]
      split <;> omega
    · rw [Fmt.val_sgnBit_add (by omega), if_pos hm]
      exact ⟨rfl, rfl⟩

theorem Fmt.isFinite_sgnBit_add {f : Fmt} {mag : Nat} (h : mag ≤ f.largest) (neg : Bool) :
    f.isFinite (f.sgnBit neg + mag) := Fmt.isFinite_iff.2 ⟨neg, mag, h, rfl⟩

/-- The number of a finite pattern. -/
theorem Fmt.rat_sgnBit_add {f : Fmt} {mag : Nat} (h : mag ≤ f.largest) (neg : Bool) :
    f.rat (f.sgnBit neg + mag) = signOf neg * (units f.mb mag * 2 ^ f.qmin) := by
  rw [Fmt.rat, Fmt.val_sgnBit_add (h.trans_lt f.largest_lt_sb), if_pos h]
  show ratOf _ _ _ = _
  rw [ratOf_eq, units]
  congr 1
  split
  · rename_i hm
    rw [Nat.div_eq_of_lt hm]
    simp
  · rw [zpow_add₀ two_ne_zero, zpow_natCast]
    push_cast
    ring

theorem Fmt.max_eq (f : Fmt) : f.max = units f.mb f.largest * 2 ^ f.qmin := by
  have h := Fmt.rat_sgnBit_add (le_refl f.largest) false
  rw [Fmt.sgnBit, if_neg Bool.false_ne_true, Nat.zero_add, signOf_false, one_mul] at h
  exact h

/-- The gap below the largest finite value is also that above it. -/
theorem Fmt.gap_eq (f : Fmt) :
    f.gap = (units f.mb (f.largest + 1) - units f.mb f.largest : ℚ) * 2 ^ f.qmin := by
  obtain ⟨d, t, hL, h1, h2, -⟩ := f.largest_place
  have h := Fmt.rat_sgnBit_add (Nat.sub_le f.largest 1) false
  rw [Fmt.sgnBit, if_neg Bool.false_ne_true, Nat.zero_add, signOf_false, one_mul] at h
  have hpred : f.largest - 1 = d * 2 ^ f.mb + (t - 1) := by omega
  rw [Fmt.gap, h, Fmt.max_eq, hpred, hL, Nat.add_assoc, units_place h2.le (.inr h1.le), units_place h2 (.inr (by omega)),
    units_place (by omega) (.inr (by omega)), Nat.cast_mul, Nat.cast_mul, Nat.cast_mul, Nat.cast_sub (by omega)]
  push_cast
  ring

end Sys2Proof.Machine
end

section
/-!
Rounding to an integer (R35): the relation a mode sets between a magnitude and its integer, met by the model's rounding
of a shifted number, and which magnitudes it cannot tell apart.
-/

namespace Sys2Proof.Machine

/-! ### The integer of a magnitude -/

/-- `t` is the integer that a mode gives for `x`, the magnitude of a number of sign `neg` (R35). -/
def NearestNat (rm : Rm) (neg : Bool) (x : ℚ) (t : Nat) : Prop :=
  if rm = .rn then |(t : ℚ) - x| ≤ 1 / 2 ∧ (|(t : ℚ) - x| = 1 / 2 → t % 2 = 0)
  else if awayFromZero rm neg = true then x ≤ t ∧ (t : ℚ) < x + 1
  else (t : ℚ) ≤ x ∧ x < t + 1

section
variable {rm : Rm} {neg : Bool} {x : ℚ} {t : Nat}

theorem nearestNat_rn : NearestNat .rn neg x t ↔ |(t : ℚ) - x| ≤ 1 / 2 ∧ (|(t : ℚ) - x| = 1 / 2 → t % 2 = 0) := by
  rw [NearestNat, if_pos rfl]

theorem nearestNat_away (h : rm ≠ .rn) (ha : awayFromZero rm neg = true) :
    NearestNat rm neg x t ↔ x ≤ t ∧ (t : ℚ) < x + 1 := by rw [NearestNat, if_neg h, if_pos ha]

theorem nearestNat_toward (h : rm ≠ .rn) (ha : awayFromZero rm neg = false) :
    NearestNat rm neg x t ↔ (t : ℚ) ≤ x ∧ x < t + 1 := by
  rw [NearestNat, if_neg h, if_neg (by simp [ha])]

/-- A mode rounds to nearest, away from zero, or toward it. -/
theorem mode_cases (rm : Rm) (neg : Bool) : rm = .rn ∨ (rm ≠ .rn ∧ awayFromZero rm neg = true) ∨
    (rm ≠ .rn ∧ awayFromZero rm neg = false) := by
  rcases eq_or_ne rm .rn with h | h
  · exact .inl h
  · cases ha : awayFromZero rm neg
    · exact .inr (.inr ⟨h, rfl⟩)
    · exact .inr (.inl ⟨h, rfl⟩)

theorem NearestNat.bounds (h : NearestNat rm neg x t) : (t : ℚ) < x + 1 ∧ x < t + 1 := by
  rcases mode_cases rm neg with rfl | ⟨hr, ha⟩ | ⟨hr, ha⟩
  · obtain ⟨h1, h2⟩ := abs_le.1 (nearestNat_rn.1 h).1
    constructor <;> linarith
  · obtain ⟨h1, h2⟩ := (nearestNat_away hr ha).1 h
    constructor <;> linarith
  · obtain ⟨h1, h2⟩ := (nearestNat_toward hr ha).1 h
    constructor <;> linarith

theorem NearestNat.le_of_le {n : Nat} (h : NearestNat rm neg x t) (hn : (n : ℚ) ≤ x) : n ≤ t := by
  have : (n : ℚ) < (t : ℚ) + 1 := hn.trans_lt h.bounds.2
  have : n < t + 1 := by exact_mod_cast this
  omega

theorem NearestNat.ge_of_ge {n : Nat} (h : NearestNat rm neg x t) (hn : x ≤ n) : t ≤ n := by
  have : (t : ℚ) < (n : ℚ) + 1 := h.bounds.1.trans_le (by linarith)
  have : t < n + 1 := by exact_mod_cast this
  omega

/-- An integer rounds to itself. -/
theorem NearestNat.eq_of_natCast {n : Nat} (h : NearestNat rm neg n t) : t = n :=
  le_antisymm (h.ge_of_ge (le_refl _)) (h.le_of_le (le_refl _))

theorem nearestNat_natCast (rm : Rm) (neg : Bool) (n : Nat) : NearestNat rm neg n n := by
  rcases mode_cases rm neg with rfl | ⟨hr, ha⟩ | ⟨hr, ha⟩
  · rw [nearestNat_rn, sub_self, abs_zero]; norm_num
  · rw [nearestNat_away hr ha]; norm_num
  · rw [nearestNat_toward hr ha]; norm_num

theorem NearestNat.eq_iff (h : NearestNat rm neg x t) : x = t ↔ ∃ n : Nat, x = n := by
  refine ⟨fun he => ⟨t, he⟩, ?_⟩
  rintro ⟨n, rfl⟩
  rw [h.eq_of_natCast]

/-- Among the numbers that lie outside the unit interval of `x` above `a`, the mode's integer is the nearest. -/
theorem NearestNat.among_rn {a : Nat} {X : ℚ} (h : NearestNat .rn neg x t) (ha : (a : ℚ) ≤ x ∧ x < a + 1)
    (hX : X ≤ a ∨ (a : ℚ) + 1 ≤ X) :
    |(t : ℚ) - x| ≤ |X - x| ∧ (|X - x| = |(t : ℚ) - x| → X = t ∨ t % 2 = 0) := by
  obtain ⟨ha1, ha2⟩ := ha
  have hlo := h.le_of_le ha1
  have hhi := h.ge_of_ge (n := a + 1) (by push_cast; exact ha2.le)
  obtain ⟨hhalf, heven⟩ := nearestNat_rn.1 h
  rcases (show t = a ∨ t = a + 1 by omega) with rfl | rfl
  · rw [abs_of_nonpos (by linarith)] at hhalf heven ⊢
    rcases hX with hX | hX
    · rw [abs_of_nonpos (by linarith)]
      exact ⟨by linarith, fun he => .inl (by linarith)⟩
    · rw [abs_of_nonneg (by linarith)]
      exact ⟨by linarith, fun he => .inr (heven (by linarith))⟩
  · push_cast at hhalf heven ⊢
    rw [abs_of_nonneg (by linarith)] at hhalf heven ⊢
    rcases hX with hX | hX
    · rw [abs_of_nonpos (by linarith)]
      exact ⟨by linarith, fun he => .inr (heven (by linarith))⟩
    · rw [abs_of_nonneg (by linarith)]
      exact ⟨by linarith, fun he => .inl (by linarith)⟩

theorem NearestNat.among_away {a : Nat} {X : ℚ} (h : NearestNat rm neg x t) (ha : (a : ℚ) ≤ x)
    (hX : X ≤ a ∨ (a : ℚ) + 1 ≤ X) (hx : x < a + 1) (hle : x ≤ X) : (t : ℚ) ≤ X := by
  rcases hX with hX | hX
  · have : t ≤ a := h.ge_of_ge (by linarith)
    have : (t : ℚ) ≤ a := by exact_mod_cast this
    linarith
  · have : t ≤ a + 1 := h.ge_of_ge (by push_cast; linarith)
    have : (t : ℚ) ≤ a + 1 := by exact_mod_cast this
    linarith

theorem NearestNat.among_toward {a : Nat} {X : ℚ} (h : NearestNat rm neg x t) (ha : (a : ℚ) ≤ x)
    (hX : X ≤ a ∨ (a : ℚ) + 1 ≤ X) (hx : x < a + 1) (hle : X ≤ x) : X ≤ t := by
  rcases hX with hX | hX
  · have : a ≤ t := h.le_of_le ha
    have : (a : ℚ) ≤ t := by exact_mod_cast this
    linarith
  · linarith

/-- Strictly between two integers, where a mode goes up. -/
theorem NearestNat.eq_succ_iff {a : Nat} (h : NearestNat rm neg x t) (ha : (a : ℚ) < x ∧ x < a + 1) :
    t = a + 1 ↔
      if rm = .rn then (if a % 2 = 0 then (2 * a + 1 : ℚ) < 2 * x else (2 * a + 1 : ℚ) ≤ 2 * x)
      else if awayFromZero rm neg = true then (a : ℚ) < x
      else (a + 1 : ℚ) ≤ x := by
  obtain ⟨ha1, ha2⟩ := ha
  have hlo := h.le_of_le ha1.le
  have hhi := h.ge_of_ge (n := a + 1) (by push_cast; exact ha2.le)
  have hta : t = a ∨ t = a + 1 := by omega
  rcases mode_cases rm neg with rfl | ⟨hr, haw⟩ | ⟨hr, haw⟩
  · obtain ⟨h1, h2⟩ := nearestNat_rn.1 h
    rw [if_pos rfl]
    rcases hta with rfl | rfl
    · rw [abs_of_nonpos (by linarith)] at h1 h2
      refine iff_of_false (by omega) ?_
      split
      · exact not_lt.2 (by linarith)
      · rename_i hodd
        exact fun hc => hodd (h2 (by linarith))
    · push_cast at h1 h2
      rw [abs_of_nonneg (by linarith)] at h1 h2
      refine iff_of_true rfl ?_
      split
      · refine lt_of_le_of_ne (by linarith) fun hc => ?_
        have := h2 (by linarith)
        omega
      · linarith
  · have hup := ((nearestNat_away hr haw).1 h).1
    rw [if_neg hr, if_pos haw]
    refine iff_of_true (hta.resolve_left ?_) ha1
    rintro rfl
    linarith
  · have hdown := ((nearestNat_toward hr haw).1 h).1
    rw [if_neg hr, if_neg (by simp [haw])]
    refine iff_of_false ?_ (not_le.2 ha2)
    rintro rfl
    push_cast at hdown
    linarith

/-- Below an even integer, where a mode stays below it. -/
theorem NearestNat.lt_even_iff {n : Nat} (h : NearestNat rm neg x t) (hn : n % 2 = 0) (hx : x < n) :
    t < n ↔
      if rm = .rn then x < n - 1 / 2
      else if awayFromZero rm neg = true then x ≤ n - 1
      else x < n := by
  have hlt : t < n ↔ (t : ℚ) ≤ n - 1 := by
    rw [← Nat.add_one_le_iff, le_sub_iff_add_le]
    exact_mod_cast Iff.rfl
  rcases mode_cases rm neg with rfl | ⟨hr, haw⟩ | ⟨hr, haw⟩
  · obtain ⟨h1, h2⟩ := nearestNat_rn.1 h
    obtain ⟨h3, h4⟩ := abs_le.1 h1
    rw [if_pos rfl]
    constructor
    · intro ht
      have ht' := hlt.1 ht
      refine lt_of_le_of_ne (by linarith) fun hc => ?_
      have h5 : (t : ℚ) = n - 1 := by linarith
      have h6 := h2 (by rw [h5, hc]; norm_num)
      have : (t : ℚ) + 1 = n := by linarith
      have : t + 1 = n := by exact_mod_cast this
      omega
    · intro hlt'
      have : (t : ℚ) < n := by linarith
      exact_mod_cast this
  · obtain ⟨h1, h2⟩ := (nearestNat_away hr haw).1 h
    rw [if_neg hr, if_pos haw, hlt]
    refine ⟨fun ht => h1.trans ht, fun ht => hlt.1 ?_⟩
    have : (t : ℚ) < n := by linarith
    exact_mod_cast this
  · have h1 := ((nearestNat_toward hr haw).1 h).1
    rw [if_neg hr, if_neg (by simp [haw])]
    refine iff_of_true ?_ hx
    have : (t : ℚ) < n := by linarith
    exact_mod_cast this

/-- The integer with its sign is the one that the mode gives for the signed number (R173). -/
theorem NearestNat.nearestInt (h : NearestNat rm neg x t) (hx : 0 ≤ x) :
    NearestInt rm (signOf neg * x) (if neg then -(t : ℤ) else t) := by
  have ht : (0 : ℚ) ≤ t := Nat.cast_nonneg t
  cases rm with
  | rn =>
    obtain ⟨h1, h2⟩ := nearestNat_rn.1 h
    cases neg with
    | false => simpa [NearestInt] using ⟨by simpa using h1, fun he => by have := h2 (by simpa using he); omega⟩
    | true =>
      have hs : ((-(t : ℤ) : ℤ) : ℚ) - signOf true * x = -((t : ℚ) - x) := by push_cast [signOf_true]; ring
      simp only [NearestInt, if_true, hs, abs_neg]
      exact ⟨h1, fun he => by have := h2 he; omega⟩
  | rz =>
    obtain ⟨h1, h2⟩ := (nearestNat_toward (by decide) rfl).1 h
    cases neg with
    | false =>
      simp only [NearestInt, Bool.false_eq_true, if_false, signOf_false, one_mul, Int.cast_natCast]
      rw [abs_of_nonneg ht, abs_of_nonneg hx, abs_lt]
      exact ⟨h1, by linarith, by linarith⟩
    | true =>
      simp only [NearestInt, if_true, signOf_true, neg_one_mul, Int.cast_neg, Int.cast_natCast, abs_neg]
      rw [abs_of_nonneg ht, abs_of_nonneg hx, abs_lt]
      exact ⟨h1, by linarith, by linarith⟩
  | ru =>
    cases neg with
    | false =>
      obtain ⟨h1, h2⟩ := (nearestNat_away (by decide) rfl).1 h
      simpa [NearestInt] using ⟨h1, h2⟩
    | true =>
      obtain ⟨h1, h2⟩ := (nearestNat_toward (by decide) rfl).1 h
      simp only [NearestInt, if_true, signOf_true, Int.cast_neg, Int.cast_natCast]
      exact ⟨by linarith, by linarith⟩
  | rd =>
    cases neg with
    | false =>
      obtain ⟨h1, h2⟩ := (nearestNat_toward (by decide) rfl).1 h
      simpa [NearestInt] using ⟨h1, h2⟩
    | true =>
      obtain ⟨h1, h2⟩ := (nearestNat_away (by decide) rfl).1 h
      simp only [NearestInt, if_true, signOf_true, Int.cast_neg, Int.cast_natCast]
      exact ⟨by linarith, by linarith⟩

end

/-! ### The model's roundings -/

section
variable {q : Nat} {y : ℚ} (h0 : 0 < y) (h1 : y < 1)
include h0 h1

/-- An integer and a fraction: the modes to nearest. -/
theorem nearestNat_rn_of_frac (neg : Bool) :
    (y < 1 / 2 → NearestNat .rn neg (q + y) q) ∧ (1 / 2 < y → NearestNat .rn neg (q + y) (q + 1)) ∧
      (y = 1 / 2 → NearestNat .rn neg (q + y) (q + q % 2)) := by
  simp only [nearestNat_rn]
  refine ⟨fun hy => ?_, fun hy => ?_, fun hy => ?_⟩
  · rw [abs_of_nonpos (by linarith)]
    exact ⟨by linarith, fun he => by linarith⟩
  · push_cast
    rw [abs_of_nonneg (by linarith)]
    exact ⟨by linarith, fun he => by linarith⟩
  · refine ⟨?_, fun _ => by omega⟩
    subst hy
    rcases Nat.mod_two_eq_zero_or_one q with h | h
    · rw [h, Nat.add_zero, abs_of_nonpos (by linarith)]
      linarith
    · rw [h, abs_of_nonneg (by push_cast; linarith)]
      push_cast
      linarith

theorem nearestNat_away_of_frac {rm : Rm} {neg : Bool} (h : rm ≠ .rn) (ha : awayFromZero rm neg = true) :
    NearestNat rm neg (q + y) (q + 1) := by
  rw [nearestNat_away h ha]
  push_cast
  exact ⟨by linarith, by linarith⟩

theorem nearestNat_toward_of_frac {rm : Rm} {neg : Bool} (h : rm ≠ .rn) (ha : awayFromZero rm neg = false) :
    NearestNat rm neg (q + y) q := by
  rw [nearestNat_toward h ha]
  exact ⟨by linarith, by linarith⟩

end

theorem natCast_div_two_pow (m k : Nat) :
    (m : ℚ) / 2 ^ k = (m / 2 ^ k : Nat) + (m % 2 ^ k : Nat) / 2 ^ k := by
  have : (m : ℚ) = 2 ^ k * (m / 2 ^ k : Nat) + (m % 2 ^ k : Nat) := by exact_mod_cast (Nat.div_add_mod m (2 ^ k)).symm
  field_simp
  linarith

theorem roundShift_nearest (rm : Rm) (neg : Bool) (m k : Nat) :
    NearestNat rm neg ((m : ℚ) / 2 ^ k) (roundShift rm neg m k) := by
  have hk : (0 : ℚ) < 2 ^ k := by positivity
  have hlt : m % 2 ^ k < 2 ^ k := Nat.mod_lt _ (Nat.two_pow_pos k)
  rw [natCast_div_two_pow]
  unfold roundShift
  dsimp only
  generalize m / 2 ^ k = q
  generalize m % 2 ^ k = r at hlt ⊢
  split
  · rename_i hr
    rw [hr, Nat.cast_zero, zero_div, add_zero]
    exact nearestNat_natCast rm neg q
  · rename_i hr
    have h0 : (0 : ℚ) < r / 2 ^ k := div_pos (by exact_mod_cast Nat.pos_of_ne_zero hr) hk
    have h1 : (r : ℚ) / 2 ^ k < 1 := (div_lt_one hk).2 (by exact_mod_cast hlt)
    cases rm with
    | rz => exact nearestNat_toward_of_frac h0 h1 (by decide) rfl
    | ru =>
      cases neg with
      | false => exact nearestNat_away_of_frac h0 h1 (by decide) rfl
      | true => exact nearestNat_toward_of_frac h0 h1 (by decide) rfl
    | rd =>
      cases neg with
      | false => exact nearestNat_toward_of_frac h0 h1 (by decide) rfl
      | true => exact nearestNat_away_of_frac h0 h1 (by decide) rfl
    | rn =>
      obtain ⟨hdown, hup, htie⟩ := nearestNat_rn_of_frac (q := q) h0 h1 neg
      have hless : (r : ℚ) / 2 ^ k < 1 / 2 ↔ 2 * r < 2 ^ k := by
        rw [div_lt_div_iff₀ hk two_pos, one_mul, mul_comm]
        exact_mod_cast Iff.rfl
      have hmore : 1 / 2 < (r : ℚ) / 2 ^ k ↔ 2 ^ k < 2 * r := by
        rw [div_lt_div_iff₀ two_pos hk, one_mul, mul_comm (r : ℚ)]
        exact_mod_cast Iff.rfl
      dsimp only
      split
      · rename_i hr'
        exact hdown (hless.2 hr')
      · rename_i hl
        split
        · rename_i hr'
          exact hup (hmore.2 hr')
        · rename_i hg
          exact htie (le_antisymm (not_lt.1 (mt hmore.1 hg)) (not_lt.1 (mt hless.1 hl)))

theorem mul_zpow_div (m : ℚ) (e q : ℤ) : m * 2 ^ e / 2 ^ q = m * 2 ^ (e - q) := by
  rw [mul_div_assoc, ← zpow_sub₀ two_ne_zero]

/-- A number in units of a place above its own exponent. -/
theorem mul_zpow_div_of_lt (m : ℚ) {e q : ℤ} (h : e < q) : m * 2 ^ e / 2 ^ q = m / 2 ^ (q - e).toNat := by
  rw [mul_zpow_div, ← zpow_natCast, Int.toNat_of_nonneg (by omega), div_eq_mul_inv, ← zpow_neg, neg_sub]

theorem mul_zpow_div_of_le (m : Nat) {e q : ℤ} (h : q ≤ e) :
    (m : ℚ) * 2 ^ e / 2 ^ q = (m * 2 ^ (e - q).toNat : Nat) := by
  rw [mul_zpow_div, Nat.cast_mul, Nat.cast_pow, Nat.cast_ofNat, ← zpow_natCast, Int.toNat_of_nonneg (by omega)]

theorem roundAt_nearest (rm : Rm) (neg : Bool) (m : Nat) (e q : ℤ) :
    NearestNat rm neg ((m : ℚ) * 2 ^ e / 2 ^ q) (roundAt rm neg m e q) := by
  unfold roundAt
  split
  · rename_i h
    rw [mul_zpow_div_of_le m h]
    exact nearestNat_natCast ..
  · rename_i h
    rw [mul_zpow_div_of_lt _ (not_le.1 h)]
    exact roundShift_nearest ..

/-- Nothing is lost at place `q`. -/
theorem exact_iff (m : Nat) (e q : ℤ) :
    (decide (q ≤ e) || m % 2 ^ (q - e).toNat == 0) = true ↔ ∃ n : Nat, (m : ℚ) * 2 ^ e / 2 ^ q = n := by
  rcases le_or_gt q e with h | h
  · simp only [h, decide_true, Bool.true_or, true_iff]
    exact ⟨_, mul_zpow_div_of_le m h⟩
  · rw [mul_zpow_div_of_lt _ h]
    simp only [not_le.2 h, decide_false, Bool.false_or, beq_iff_eq]
    generalize (q - e).toNat = k
    have hk : (2 : ℚ) ^ k ≠ 0 := by positivity
    constructor
    · intro h0
      obtain ⟨n, rfl⟩ := Nat.dvd_of_mod_eq_zero h0
      exact ⟨n, by push_cast; field_simp⟩
    · rintro ⟨n, hn⟩
      rw [div_eq_iff hk] at hn
      have : m = n * 2 ^ k := by exact_mod_cast hn
      rw [this, Nat.mul_mod_left]

/-! ### Numbers that rounding at a place cannot tell apart -/

/-- Equal, or strictly between the same neighbours among the multiples of half a unit of place `q`. -/
def SameCell (w w' : ℚ) (q : ℤ) : Prop :=
  w = w' ∨ ∃ h : Nat, (h < 2 * (w / 2 ^ q) ∧ 2 * (w / 2 ^ q) < h + 1) ∧ h < 2 * (w' / 2 ^ q) ∧ 2 * (w' / 2 ^ q) < h + 1

section
variable {w w' : ℚ} {q : ℤ}

theorem SameCell.coarser {r : ℤ} (h : SameCell w w' q) (hq : q ≤ r) : SameCell w w' r := by
  rcases h with h | ⟨n, ⟨h1, h2⟩, h3, h4⟩
  · exact .inl h
  · obtain ⟨j, rfl⟩ : ∃ j : Nat, r = q + j := ⟨(r - q).toNat, by omega⟩
    have hj : (0 : ℚ) < 2 ^ j := by positivity
    have hr : ∀ v : ℚ, 2 * (v / 2 ^ (q + (j : ℤ))) = 2 * (v / 2 ^ q) / 2 ^ j := fun v => by
      rw [zpow_add₀ two_ne_zero, zpow_natCast]; field_simp
    have hlo : ((n / 2 ^ j : Nat) : ℚ) * 2 ^ j ≤ n := by exact_mod_cast Nat.div_mul_le_self n (2 ^ j)
    have hhi : (n : ℚ) + 1 ≤ ((n / 2 ^ j : Nat) + 1) * 2 ^ j := by
      have := Nat.lt_div_mul_add (a := n) (Nat.two_pow_pos j)
      have : n + 1 ≤ (n / 2 ^ j + 1) * 2 ^ j := by rw [Nat.add_mul]; omega
      exact_mod_cast this
    refine .inr ⟨n / 2 ^ j, ?_⟩
    rw [hr, hr, lt_div_iff₀ hj, div_lt_iff₀ hj, lt_div_iff₀ hj, div_lt_iff₀ hj]
    exact ⟨⟨by linarith, by linarith⟩, by linarith, by linarith⟩

theorem SameCell.le_of_le {n : Nat} (h : SameCell w w' q) (hn : (n : ℚ) ≤ w' / 2 ^ q) : (n : ℚ) ≤ w / 2 ^ q := by
  rcases h with rfl | ⟨k, ⟨h1, -⟩, -, h4⟩
  · exact hn
  · have : (2 * n : ℚ) < k + 1 := by linarith
    have : 2 * n < k + 1 := by exact_mod_cast this
    have : (2 * n : ℚ) ≤ k := by exact_mod_cast Nat.lt_succ_iff.1 this
    linarith

theorem SameCell.lt_of_lt {n : Nat} (h : SameCell w w' q) (hn : w' / 2 ^ q < n) : w / 2 ^ q < n := by
  rcases h with rfl | ⟨k, ⟨-, h2⟩, h3, -⟩
  · exact hn
  · have : (k : ℚ) < 2 * n := by linarith
    have : k + 1 ≤ 2 * n := by exact_mod_cast this
    have : (k + 1 : ℚ) ≤ 2 * n := by exact_mod_cast this
    linarith

theorem SameCell.isNat_iff (h : SameCell w w' q) : (∃ n : Nat, w / 2 ^ q = n) ↔ ∃ n : Nat, w' / 2 ^ q = n := by
  rcases h with rfl | ⟨k, ⟨h1, h2⟩, h3, h4⟩
  · rfl
  · have hno : ∀ (n : Nat), ¬((k : ℚ) < 2 * n ∧ (2 * n : ℚ) < k + 1) := by
      rintro n ⟨h5, h6⟩
      have : k < 2 * n := by exact_mod_cast h5
      have : 2 * n < k + 1 := by exact_mod_cast h6
      omega
    constructor
    · rintro ⟨n, hn⟩; exact absurd ⟨by rwa [hn] at h1, by rwa [hn] at h2⟩ (hno n)
    · rintro ⟨n, hn⟩; exact absurd ⟨by rwa [hn] at h3, by rwa [hn] at h4⟩ (hno n)

/-- What a mode gives for one it gives for the other. -/
theorem SameCell.nearestNat {rm : Rm} {neg : Bool} {t : Nat} (h : SameCell w w' q)
    (ht : NearestNat rm neg (w' / 2 ^ q) t) : NearestNat rm neg (w / 2 ^ q) t := by
  rcases h with rfl | ⟨k, ⟨h1, h2⟩, h3, h4⟩
  · exact ht
  generalize w / 2 ^ q = x at h1 h2 ⊢
  generalize w' / 2 ^ q = x' at h3 h4 ht
  rcases mode_cases rm neg with rfl | ⟨hr, ha⟩ | ⟨hr, ha⟩
  · obtain ⟨h5, h6⟩ := abs_le.1 (nearestNat_rn.1 ht).1
    have h7 : (k + 1 : ℚ) ≤ 2 * t + 1 := by
      have : (k : ℚ) < 2 * t + 1 := by linarith
      exact_mod_cast (by exact_mod_cast this : k < 2 * t + 1)
    have h8 : (2 * t : ℚ) ≤ k + 1 := by
      have : (2 * t : ℚ) < k + 2 := by linarith
      have : 2 * t < k + 2 := by exact_mod_cast this
      exact_mod_cast Nat.lt_succ_iff.1 this
    have hlt : |(t : ℚ) - x| < 1 / 2 := abs_lt.2 ⟨by linarith, by linarith⟩
    exact nearestNat_rn.2 ⟨hlt.le, fun he => absurd he hlt.ne⟩
  · obtain ⟨h5, h6⟩ := (nearestNat_away hr ha).1 ht
    have h7 : (k + 1 : ℚ) ≤ 2 * t := by
      have : (k : ℚ) < 2 * t := by linarith
      exact_mod_cast (by exact_mod_cast this : k < 2 * t)
    have h8 : (2 * t : ℚ) ≤ k + 2 := by
      have : (2 * t : ℚ) < k + 3 := by linarith
      have : 2 * t < k + 3 := by exact_mod_cast this
      exact_mod_cast Nat.lt_succ_iff.1 this
    exact (nearestNat_away hr ha).2 ⟨by linarith, by linarith⟩
  · obtain ⟨h5, h6⟩ := (nearestNat_toward hr ha).1 ht
    have h7 : (2 * t : ℚ) ≤ k := by
      have : (2 * t : ℚ) < k + 1 := by linarith
      have : 2 * t < k + 1 := by exact_mod_cast this
      exact_mod_cast Nat.lt_succ_iff.1 this
    have h8 : (k + 1 : ℚ) ≤ 2 * t + 2 := by
      have : (k : ℚ) < 2 * t + 2 := by linarith
      exact_mod_cast (by exact_mod_cast this : k < 2 * t + 2)
    exact (nearestNat_toward hr ha).2 ⟨by linarith, by linarith⟩

end

end Sys2Proof.Machine
end

section
/-!
Rounding to a format (R35, R36, R167): a magnitude in its place, the pattern its integer makes there, and what the
pattern is to the exact number: nearest, beyond the largest, tiny.
-/

namespace Sys2Proof.Machine

/-- `w` is rounded in place `d` above the lowest to `t` units of it. -/
structure Placed (f : Fmt) (rm : Rm) (neg : Bool) (w : ℚ) (d t : Nat) : Prop where
  nearest : NearestNat rm neg (w / 2 ^ (f.qmin + d)) t
  below : w / 2 ^ (f.qmin + d) < 2 ^ (f.mb + 1)
  above : d = 0 ∨ (2 ^ f.mb : ℚ) ≤ w / 2 ^ (f.qmin + d)
  nonneg : 0 ≤ w

/-- The magnitude of `t` units of place `d`. -/
def magOf (f : Fmt) (d t : Nat) : Nat := d * 2 ^ f.mb + t

section
variable {f : Fmt} {rm : Rm} {neg : Bool} {w : ℚ} {d t : Nat}

theorem Placed.le_two_pow (h : Placed f rm neg w d t) : t ≤ 2 ^ (f.mb + 1) :=
  h.nearest.ge_of_ge (by push_cast; exact h.below.le)

theorem Placed.inPlace (h : Placed f rm neg w d t) : InPlace f.mb d t :=
  h.above.imp_right fun h' => h.nearest.le_of_le (by push_cast; exact h')

theorem Placed.units_magOf (h : Placed f rm neg w d t) : units f.mb (magOf f d t) = t * 2 ^ d :=
  units_place h.le_two_pow h.inPlace

/-- The magnitude's integer part, and its place among all magnitudes. -/
theorem Placed.exists_floor (h : Placed f rm neg w d t) :
    ∃ a : Nat, ((a : ℚ) ≤ w / 2 ^ (f.qmin + d) ∧ w / 2 ^ (f.qmin + d) < a + 1) ∧ (t = a ∨ t = a + 1) ∧
      units f.mb (magOf f d a) = a * 2 ^ d ∧ units f.mb (magOf f d a + 1) = (a + 1) * 2 ^ d := by
  have hx : 0 ≤ w / 2 ^ (f.qmin + d) := div_nonneg h.nonneg (by positivity)
  have h1 := Nat.floor_le hx
  have h2 := Nat.lt_floor_add_one (w / 2 ^ (f.qmin + d))
  generalize ⌊w / 2 ^ (f.qmin + d)⌋₊ = a at h1 h2
  have hlt : a < 2 ^ (f.mb + 1) := by
    have := h1.trans_lt h.below
    exact_mod_cast this
  have hpl : InPlace f.mb d a := h.above.imp_right fun h' => by
    have : (2 ^ f.mb : ℚ) < a + 1 := h'.trans_lt h2
    have : 2 ^ f.mb < a + 1 := by exact_mod_cast this
    omega
  have hlo := h.nearest.le_of_le h1
  have hhi := h.nearest.ge_of_ge (n := a + 1) (by push_cast; exact h2.le)
  refine ⟨a, ⟨h1, h2⟩, by omega, units_place hlt.le hpl, ?_⟩
  rw [magOf, Nat.add_assoc]
  exact units_place hlt (hpl.imp_right fun h' => by omega)

/-- No magnitude has its units strictly between two neighbours. -/
theorem units_outside {p g a d : Nat} (h1 : units p g = a * 2 ^ d) (h2 : units p (g + 1) = (a + 1) * 2 ^ d) (mag : Nat) :
    (units p mag / 2 ^ d : ℚ) ≤ a ∨ (a + 1 : ℚ) ≤ units p mag / 2 ^ d := by
  have hd : (0 : ℚ) < 2 ^ d := by positivity
  rw [div_le_iff₀ hd, le_div_iff₀ hd]
  rcases le_or_gt mag g with h | h
  · left
    have := (units_strictMono p).monotone h
    rw [h1] at this
    exact_mod_cast this
  · right
    have := (units_strictMono p).monotone (Nat.succ_le_of_lt h)
    rw [Nat.succ_eq_add_one, h2] at this
    exact_mod_cast this

/-- A finite number, in units of a place and relative to a sign, lies outside the unit interval of `a`, and so does its
magnitude. -/
theorem exists_relative {g a : Nat} (h1 : units f.mb g = a * 2 ^ d) (h2 : units f.mb (g + 1) = (a + 1) * 2 ^ d)
    (neg : Bool) {z : Nat} (hz : f.isFinite z) :
    ∃ X : ℚ, f.rat z = signOf neg * (X * 2 ^ (f.qmin + d)) ∧ (X ≤ a ∨ (a + 1 : ℚ) ≤ X) ∧
      (|X| ≤ a ∨ (a + 1 : ℚ) ≤ |X|) := by
  obtain ⟨n, mag, hm, rfl⟩ := Fmt.isFinite_iff.1 hz
  have hout := units_outside h1 h2 mag
  have h0 : (0 : ℚ) ≤ units f.mb mag / 2 ^ d := by positivity
  refine ⟨signOf neg * signOf n * (units f.mb mag / 2 ^ d), ?_, ?_, ?_⟩
  · rw [Fmt.rat_sgnBit_add hm, zpow_add₀ two_ne_zero, zpow_natCast]
    have := signOf_mul_self neg
    field_simp
    linear_combination (-(signOf n * units f.mb mag)) * this
  · rcases eq_or_ne neg n with rfl | hne
    · rwa [signOf_mul_self, one_mul]
    · have : signOf neg * signOf n = -1 := by
        obtain rfl : n = !neg := Bool.eq_not_of_ne hne.symm
        cases neg <;> norm_num
      left
      rw [this]
      have : (0 : ℚ) ≤ a := Nat.cast_nonneg a
      linarith
  · rwa [abs_mul, abs_mul, abs_signOf, abs_signOf, one_mul, one_mul, abs_of_nonneg h0]

theorem abs_signOf_mul_sub {S : ℚ} (hS : 0 < S) (neg : Bool) (a b : ℚ) :
    |signOf neg * (a * S) - signOf neg * (b * S)| = |a - b| * S := by
  rw [← mul_sub, abs_mul, abs_signOf, one_mul, ← sub_mul, abs_mul, abs_of_pos hS]

theorem abs_signOf_mul {S : ℚ} (hS : 0 < S) (neg : Bool) (a : ℚ) : |signOf neg * (a * S)| = |a| * S := by
  rw [abs_mul, abs_signOf, one_mul, abs_mul, abs_of_pos hS]

/-- The pattern's number is the integer in its place. -/
theorem Placed.rat_eq (h : Placed f rm neg w d t) (hl : magOf f d t ≤ f.largest) :
    f.rat (f.sgnBit neg + magOf f d t) = signOf neg * (t * 2 ^ (f.qmin + d)) := by
  rw [Fmt.rat_sgnBit_add hl, h.units_magOf, zpow_add₀ two_ne_zero, zpow_natCast]
  push_cast
  ring

theorem eq_mul_place (w : ℚ) (q : ℤ) : w = w / 2 ^ q * 2 ^ q := by
  rw [div_mul_cancel₀]
  positivity

theorem Placed.exact_iff (h : Placed f rm neg w d t) (hl : magOf f d t ≤ f.largest) :
    f.rat (f.sgnBit neg + magOf f d t) = signOf neg * w ↔ w / 2 ^ (f.qmin + d) = t := by
  have hs : signOf neg ≠ 0 := by cases neg <;> norm_num
  rw [h.rat_eq hl, mul_right_inj' hs, div_eq_iff (by positivity), eq_comm]

/-- Every finite number, relative to the sign and in units of the place, lies outside the unit interval of the number. -/
theorem Placed.exists_outside (h : Placed f rm neg w d t) :
    ∃ a : Nat, ((a : ℚ) ≤ w / 2 ^ (f.qmin + d) ∧ w / 2 ^ (f.qmin + d) < a + 1) ∧ ∀ z, f.isFinite z →
      ∃ X : ℚ, f.rat z = signOf neg * (X * 2 ^ (f.qmin + d)) ∧ (X ≤ a ∨ (a + 1 : ℚ) ≤ X) ∧
        (|X| ≤ a ∨ (a + 1 : ℚ) ≤ |X|) := by
  obtain ⟨a, ha, -, hu1, hu2⟩ := h.exists_floor
  exact ⟨a, ha, fun z hz => exists_relative hu1 hu2 neg hz⟩

/-- To nearest, no finite number is nearer. -/
theorem Placed.nearest_rn (h : Placed f .rn neg w d t) {z : Nat} (hz : f.isFinite z) :
    |signOf neg * (t * 2 ^ (f.qmin + d)) - signOf neg * w| ≤ |f.rat z - signOf neg * w| ∧
    (|f.rat z - signOf neg * w| = |signOf neg * (t * 2 ^ (f.qmin + d)) - signOf neg * w| →
      f.rat z = signOf neg * (t * 2 ^ (f.qmin + d)) ∨ t % 2 = 0) := by
  have hS : (0 : ℚ) < 2 ^ (f.qmin + d) := by positivity
  obtain ⟨a, ha, hrel⟩ := h.exists_outside
  obtain ⟨X, hX, hout, -⟩ := hrel z hz
  obtain ⟨h1, h2⟩ := h.nearest.among_rn ha hout
  have hw := eq_mul_place w (f.qmin + d)
  generalize w / 2 ^ (f.qmin + d) = x at h1 h2 hw
  subst hw
  rw [hX, abs_signOf_mul_sub hS, abs_signOf_mul_sub hS, mul_le_mul_iff_left₀ hS, mul_left_inj' hS.ne']
  exact ⟨h1, fun he => (h2 he).imp_left fun h3 => by rw [h3]⟩

/-- Away from zero, no finite number beyond the exact one is nearer to zero. -/
theorem Placed.away (h : Placed f rm neg w d t) (hrm : rm ≠ .rn) (hm : awayFromZero rm neg = true) :
    w ≤ t * 2 ^ (f.qmin + d) ∧
    ∀ z, f.isFinite z → w ≤ signOf neg * f.rat z → (t * 2 ^ (f.qmin + d) : ℚ) ≤ signOf neg * f.rat z := by
  have hS : (0 : ℚ) < 2 ^ (f.qmin + d) := by positivity
  obtain ⟨a, ⟨ha, ha'⟩, hrel⟩ := h.exists_outside
  refine ⟨(div_le_iff₀ hS).1 ((nearestNat_away hrm hm).1 h.nearest).1, fun z hz hle => ?_⟩
  obtain ⟨X, hX, hout, -⟩ := hrel z hz
  rw [hX, ← mul_assoc, signOf_mul_self, one_mul] at hle ⊢
  exact (mul_le_mul_iff_left₀ hS).2 (h.nearest.among_away ha hout ha' ((div_le_iff₀ hS).2 hle))

/-- Toward zero, no finite number within the exact one is nearer to it, by its number or by its magnitude. -/
theorem Placed.toward (h : Placed f rm neg w d t) (hrm : rm ≠ .rn) (hm : awayFromZero rm neg = false) :
    (t * 2 ^ (f.qmin + d) : ℚ) ≤ w ∧
    ∀ z, f.isFinite z → (signOf neg * f.rat z ≤ w → signOf neg * f.rat z ≤ t * 2 ^ (f.qmin + d)) ∧
      (|f.rat z| ≤ w → |f.rat z| ≤ t * 2 ^ (f.qmin + d)) := by
  have hS : (0 : ℚ) < 2 ^ (f.qmin + d) := by positivity
  obtain ⟨a, ⟨ha, ha'⟩, hrel⟩ := h.exists_outside
  refine ⟨(le_div_iff₀ hS).1 ((nearestNat_toward hrm hm).1 h.nearest).1, fun z hz => ?_⟩
  obtain ⟨X, hX, hout, habs⟩ := hrel z hz
  rw [hX, ← mul_assoc, signOf_mul_self, one_mul, abs_signOf_mul hS]
  constructor
  · exact fun hle => (mul_le_mul_iff_left₀ hS).2 (h.nearest.among_toward ha hout ha' ((le_div_iff₀ hS).2 hle))
  · exact fun hle => (mul_le_mul_iff_left₀ hS).2 (h.nearest.among_toward ha habs ha' ((le_div_iff₀ hS).2 hle))

theorem abs_signOf_mul_of_nonneg (hw : 0 ≤ w) (neg : Bool) : |signOf neg * w| = w := by
  rw [abs_mul, abs_signOf, one_mul, abs_of_nonneg hw]

theorem Fmt.two_pow_mb_even (f : Fmt) : 2 ^ f.mb % 2 = 0 :=
  Nat.mod_eq_zero_of_dvd (dvd_pow_self 2 (by have := f.mb_pos; omega))

theorem magOf_mod_two (f : Fmt) (d t : Nat) : magOf f d t % 2 = t % 2 := by
  have h := Nat.mod_eq_zero_of_dvd ((Nat.dvd_of_mod_eq_zero f.two_pow_mb_even).mul_left d)
  rw [magOf]
  omega

/-- The pattern is the one that the mode gives (R35). -/
theorem Placed.nearestIn (h : Placed f rm neg w d t) (hl : magOf f d t ≤ f.largest) :
    NearestIn f rm (signOf neg * w) (f.sgnBit neg + magOf f d t) := by
  have hw0 := h.nonneg
  refine ⟨Fmt.isFinite_sgnBit_add hl neg, ?_⟩
  rw [h.rat_eq hl, Fmt.sgnBit_add_mod_two, magOf_mod_two]
  cases rm with
  | rn => exact fun z => h.nearest_rn
  | rz =>
    obtain ⟨h1, h2⟩ := h.toward (by decide) rfl
    dsimp only
    rw [abs_signOf_mul_of_nonneg hw0, abs_signOf_mul_of_nonneg (by positivity)]
    exact ⟨h1, fun z hz => (h2 z hz).2⟩
  | ru =>
    cases neg with
    | false =>
      obtain ⟨h1, h2⟩ := h.away (by decide) rfl
      simp only [signOf_false, one_mul] at h2 ⊢
      exact ⟨h1, h2⟩
    | true =>
      obtain ⟨h1, h2⟩ := h.toward (by decide) rfl
      simp only [signOf_true, neg_one_mul] at h2 ⊢
      exact ⟨neg_le_neg h1, fun z hz hle => neg_le.1 ((h2 z hz).1 (neg_le.1 hle))⟩
  | rd =>
    cases neg with
    | false =>
      obtain ⟨h1, h2⟩ := h.toward (by decide) rfl
      simp only [signOf_false, one_mul] at h2 ⊢
      exact ⟨h1, fun z hz => (h2 z hz).1⟩
    | true =>
      obtain ⟨h1, h2⟩ := h.away (by decide) rfl
      simp only [signOf_true, neg_one_mul] at h2 ⊢
      exact ⟨neg_le_neg h1, fun z hz hle => le_neg.1 (h2 z hz (le_neg.1 hle))⟩

/-! ### Beyond the largest finite number (R35, R36, R167) -/

/-- Beyond the largest, in units of the least subnormal. -/
theorem roundsBeyond_iff {u : ℚ} (hw : 0 ≤ w) (hu : w = u * 2 ^ f.qmin) :
    roundsBeyond f rm neg (signOf neg * w) ↔
      if rm = .rn then
        (if f = .e4m3 then (units f.mb f.largest + units f.mb (f.largest + 1) : ℚ) < 2 * u
         else (units f.mb f.largest + units f.mb (f.largest + 1) : ℚ) ≤ 2 * u)
      else if awayFromZero rm neg = true then (units f.mb f.largest : ℚ) < u
      else (units f.mb (f.largest + 1) : ℚ) ≤ u := by
  have hS : (0 : ℚ) < 2 ^ f.qmin := by positivity
  unfold roundsBeyond
  rw [abs_signOf_mul_of_nonneg hw, Fmt.max_eq, Fmt.gap_eq, hu]
  generalize (units f.mb f.largest : ℚ) = U
  generalize (units f.mb (f.largest + 1) : ℚ) = V
  generalize (2 : ℚ) ^ f.qmin = S at hS
  rw [show U * S + (V - U) * S / 2 = (U + V) / 2 * S by ring, show U * S + (V - U) * S = V * S by ring,
    mul_lt_mul_iff_left₀ hS, mul_lt_mul_iff_left₀ hS, mul_le_mul_iff_left₀ hS, mul_le_mul_iff_left₀ hS,
    div_lt_iff₀ two_pos, div_le_iff₀ two_pos, mul_comm u 2]

end

section
variable {f : Fmt} {rm : Rm} {sat neg : Bool} {w : ℚ} {d t : Nat}

theorem Fmt.largest_even_iff (f : Fmt) : f.largest % 2 = 0 ↔ f = .e4m3 := by
  obtain ⟨d, t, hL, -, -, hpar⟩ := f.largest_place
  have := magOf_mod_two f d t
  rw [magOf, ← hL] at this
  rw [this, hpar]

/-- The magnitude of a rounded number is beyond the largest finite one where the number rounds beyond it (R35). -/
theorem Placed.beyond_iff (h : Placed f rm neg w d t) :
    (w ≤ f.max → magOf f d t ≤ f.largest) ∧
    (f.max < w → f.largest ≤ magOf f d t ∧
      (roundsBeyond f rm neg (signOf neg * w) ↔ f.largest < magOf f d t)) := by
  obtain ⟨a, ⟨ha1, ha2⟩, hta, hu1, hu2⟩ := h.exists_floor
  have hD : (0 : ℚ) < 2 ^ d := by positivity
  have hS : (0 : ℚ) < 2 ^ f.qmin := by positivity
  have hw : w = w / 2 ^ (f.qmin + d) * 2 ^ d * 2 ^ f.qmin := by
    rw [zpow_add₀ two_ne_zero, zpow_natCast]
    field_simp
  have hn := h.nearest
  generalize w / 2 ^ (f.qmin + (d : ℤ)) = x at ha1 ha2 hw hn
  have hmono := (units_strictMono f.mb).monotone
  have hlt := units_lt_succ f.mb f.largest
  have hmax : f.max < w ↔ (units f.mb f.largest : ℚ) < x * 2 ^ d := by
    rw [Fmt.max_eq, hw, mul_lt_mul_iff_left₀ hS]
  have hbey := roundsBeyond_iff (rm := rm) (neg := neg) h.nonneg hw
  have hlt' : (units f.mb f.largest : ℚ) < units f.mb (f.largest + 1) := by exact_mod_cast hlt
  have hmag : magOf f d t = magOf f d a + (t - a) := by unfold magOf; omega
  have hga : (a * 2 ^ d : ℚ) ≤ x * 2 ^ d := (mul_le_mul_iff_left₀ hD).2 ha1
  have hgb : x * 2 ^ d < ((a + 1) * 2 ^ d : ℚ) := (mul_lt_mul_iff_left₀ hD).2 ha2
  rcases lt_trichotomy f.largest (magOf f d a) with hg | hg | hg
  · have hV : (units f.mb (f.largest + 1) : ℚ) ≤ x * 2 ^ d := by
      have := hmono (show f.largest + 1 ≤ magOf f d a from hg)
      rw [hu1] at this
      have : (units f.mb (f.largest + 1) : ℚ) ≤ a * 2 ^ d := by exact_mod_cast this
      linarith
    refine ⟨fun hle => absurd (hmax.2 (by linarith)) (not_lt.2 hle), fun _ => ⟨by omega, ?_⟩⟩
    rw [hbey]
    refine iff_of_true ?_ (by omega)
    split
    · split <;> linarith
    · split <;> linarith
  · rw [← hg] at hu1 hu2 hmag
    have hU : (units f.mb f.largest : ℚ) = a * 2 ^ d := by exact_mod_cast hu1
    have hV : (units f.mb (f.largest + 1) : ℚ) = (a + 1) * 2 ^ d := by exact_mod_cast hu2
    have hpar : a % 2 = 0 ↔ f = .e4m3 := by rw [← f.largest_even_iff, hg, magOf_mod_two]
    rw [hmax, hU, mul_lt_mul_iff_left₀ hD]
    refine ⟨fun hle => ?_, fun hx => ⟨by omega, ?_⟩⟩
    · have hxa : x = a := le_antisymm (not_lt.1 fun hc => absurd (hmax.2 (by rw [hU]; gcongr)) (not_lt.2 hle)) ha1
      rw [hxa] at hn
      have := hn.eq_of_natCast
      omega
    · have hup := hn.eq_succ_iff ⟨hx, ha2⟩
      simp only [hpar] at hup
      rw [hbey, hU, hV, hmag, show f.largest < f.largest + (t - a) ↔ t = a + 1 by omega, hup,
        show (a * 2 ^ d + (a + 1) * 2 ^ d : ℚ) = (2 * a + 1) * 2 ^ d by ring, ← mul_assoc 2 x,
        mul_lt_mul_iff_left₀ hD, mul_le_mul_iff_left₀ hD, mul_lt_mul_iff_left₀ hD, mul_le_mul_iff_left₀ hD]
  · have hU : x * 2 ^ d < (units f.mb f.largest : ℚ) := by
      have := hmono (show magOf f d a + 1 ≤ f.largest from hg)
      rw [hu2] at this
      have : ((a + 1) * 2 ^ d : ℚ) ≤ units f.mb f.largest := by exact_mod_cast this
      linarith
    exact ⟨fun _ => by omega, fun hc => absurd (hmax.1 hc) (by linarith)⟩

theorem overflow_eq (f : Fmt) (rm : Rm) (sat neg : Bool) : overflow f rm sat neg = overflowed f rm sat neg := by
  unfold overflow overflowed
  split
  · rfl
  · split
    · rename_i hf; rw [hf]; rfl
    · cases rm <;> cases neg <;> rfl

/-! ### Tiny numbers (R36, R167) -/

theorem not_isTiny_of_least_le (hw : 0 ≤ w) (h : f.least ≤ w) : ¬ isTiny f rm neg (signOf neg * w) := by
  have hstep : (0 : ℚ) < 2 ^ (f.qmin - 1) := by positivity
  unfold isTiny
  rw [abs_signOf_mul_of_nonneg hw]
  split
  · exact not_lt.2 (by linarith)
  · split
    · exact not_le.2 (by linarith)
    · exact not_lt.2 h

theorem Fmt.least_le_max (f : Fmt) : f.least ≤ f.max := by
  obtain ⟨d, t, hL, h1, h2, -⟩ := f.largest_place
  have h3 : 2 ^ f.mb ≤ t * 2 ^ d := h1.le.trans (Nat.le_mul_of_pos_right t (Nat.two_pow_pos d))
  have h4 : (2 ^ f.mb : ℚ) ≤ (t * 2 ^ d : Nat) := by exact_mod_cast h3
  rw [Fmt.max_eq, hL, units_place h2.le (.inr h1.le), Fmt.least, add_comm, zpow_add₀ two_ne_zero, zpow_natCast]
  gcongr

/-- A number is tiny where its own rounding of full precision, at place `q0`, stays below the least normal. -/
theorem isTiny_iff {q0 : ℤ} {t0 : Nat} (hw : 0 ≤ w) (h1 : (2 ^ f.mb : ℚ) ≤ w / 2 ^ q0)
    (h2 : w / 2 ^ q0 < 2 ^ (f.mb + 1)) (ht : NearestNat rm neg (w / 2 ^ q0) t0) :
    isTiny f rm neg (signOf neg * w) ↔ q0 < f.qmin ∧ (q0 + 1 < f.qmin ∨ t0 < 2 ^ (f.mb + 1)) := by
  have hq : (0 : ℚ) < 2 ^ q0 := by positivity
  rcases le_or_gt f.qmin q0 with hle | hlt
  · refine iff_of_false (not_isTiny_of_least_le hw ?_) (by omega)
    rw [le_div_iff₀ hq] at h1
    refine le_trans ?_ h1
    rw [Fmt.least, add_comm, zpow_add₀ two_ne_zero, zpow_natCast]
    gcongr
    norm_num
  have hS : (0 : ℚ) < 2 ^ (f.qmin - 1) := by positivity
  have hleast : f.least = 2 ^ (f.mb + 1) * 2 ^ (f.qmin - 1) := by
    rw [Fmt.least, ← zpow_natCast, ← zpow_add₀ two_ne_zero]
    congr 1
    push_cast
    ring
  have hN : (1 : ℚ) ≤ 2 ^ f.mb := one_le_pow₀ (by norm_num)
  have hiff : isTiny f rm neg (signOf neg * w) ↔
      if rm = .rn then w / 2 ^ (f.qmin - 1) < 2 ^ (f.mb + 1) - 1 / 2
      else if awayFromZero rm neg = true then w / 2 ^ (f.qmin - 1) ≤ 2 ^ (f.mb + 1) - 1
      else w / 2 ^ (f.qmin - 1) < 2 ^ (f.mb + 1) := by
    unfold isTiny
    rw [abs_signOf_mul_of_nonneg hw, hleast, div_lt_iff₀ hS, div_le_iff₀ hS, div_lt_iff₀ hS, sub_mul, sub_mul, one_mul,
      one_div_mul_eq_div]
  rw [hiff]
  rcases eq_or_lt_of_le (show q0 + 1 ≤ f.qmin from hlt) with he | hlt2
  · obtain rfl : q0 = f.qmin - 1 := by omega
    rw [show (f.qmin - 1 < f.qmin ∧ (f.qmin - 1 + 1 < f.qmin ∨ t0 < 2 ^ (f.mb + 1))) ↔ t0 < 2 ^ (f.mb + 1) by omega]
    have hlt0 := ht.lt_even_iff (n := 2 ^ (f.mb + 1)) (by rw [pow_succ]; omega) (by exact_mod_cast h2)
    push_cast at hlt0
    rw [hlt0]
  · refine iff_of_true ?_ ⟨hlt, .inl hlt2⟩
    have hy : w / 2 ^ (f.qmin - 1) < 2 ^ f.mb := by
      rw [div_lt_iff₀ hS]
      rw [div_lt_iff₀ hq, pow_succ, mul_assoc, ← zpow_one_add₀ two_ne_zero] at h2
      refine h2.trans_le ?_
      gcongr
      · norm_num
      · omega
    rw [pow_succ]
    split
    · linarith
    · split <;> linarith

/-! ### The model's rounding -/

/-- The result that rounding once gives (R35, R36, R167), from the pattern in its place and the flags. -/
theorem Placed.rounded (h : Placed f rm neg w d t) {r : Nat × BitVec 6}
    (hover : f.largest < magOf f d t → r = overflow f rm sat neg)
    (hval : magOf f d t ≤ f.largest → r.1 = f.sgnBit neg + magOf f d t)
    (hexact : magOf f d t ≤ f.largest → w / 2 ^ (f.qmin + d) = t → r.2 = 0)
    (htiny : magOf f d t ≤ f.largest → w / 2 ^ (f.qmin + d) ≠ t → isTiny f rm neg (signOf neg * w) → r.2 = fNX ||| fUF)
    (hnormal : magOf f d t ≤ f.largest → w / 2 ^ (f.qmin + d) ≠ t → ¬ isTiny f rm neg (signOf neg * w) → r.2 = fNX) :
    Rounded f rm sat neg (signOf neg * w) r := by
  obtain ⟨hin, hout⟩ := h.beyond_iff
  unfold Rounded
  rw [abs_signOf_mul_of_nonneg h.nonneg]
  refine ⟨fun hw => ?_, fun hw hb => ?_, fun hw hb => ?_⟩
  · have hl := hin hw
    have hiff := h.exact_iff hl
    rw [hval hl]
    exact ⟨h.nearestIn hl, Fmt.sgnBit_add_div (hl.trans_lt f.largest_lt_sb) neg, hexact hl ∘ hiff.1,
      htiny hl ∘ mt hiff.2, hnormal hl ∘ mt hiff.2⟩
  · rw [hover ((hout hw).2.1 hb), overflow_eq]
  · have hl : magOf f d t ≤ f.largest := not_lt.1 (mt (hout hw).2.2 hb)
    have he : magOf f d t = f.largest := le_antisymm hl (hout hw).1
    have hne : w / 2 ^ (f.qmin + d) ≠ t := fun hx => by
      have h1 := (h.exact_iff hl).2 hx
      rw [he, Fmt.rat_sgnBit_add (le_refl _), ← Fmt.max_eq] at h1
      have hs : signOf neg ≠ 0 := by cases neg <;> norm_num
      exact hw.ne (mul_left_cancel₀ hs h1)
    exact Prod.ext ((hval hl).trans (by rw [he]))
      (hnormal hl hne (not_isTiny_of_least_le h.nonneg (f.least_le_max.trans hw.le)))

/-- A number's own place, `q0`: there it has a significand of full precision. -/
theorem ownPlace_bounds {m : Nat} (hm : 0 < m) (e : ℤ) (p : Nat) :
    (2 ^ p : ℚ) ≤ m * 2 ^ e / 2 ^ (e + m.log2 - p) ∧ (m : ℚ) * 2 ^ e / 2 ^ (e + m.log2 - p) < 2 ^ (p + 1) := by
  have hlog1 : (2 ^ m.log2 : ℚ) ≤ m := by exact_mod_cast Nat.log2_self_le hm.ne'
  have hlog2 : (m : ℚ) < 2 ^ (m.log2 + 1) := by exact_mod_cast Nat.lt_log2_self
  have hL : (0 : ℚ) < 2 ^ m.log2 := by positivity
  rw [mul_zpow_div, show e - (e + m.log2 - p) = (p : ℤ) - m.log2 by ring, zpow_sub₀ two_ne_zero, zpow_natCast,
    zpow_natCast, ← mul_div_assoc, le_div_iff₀ hL, div_lt_iff₀ hL]
  rw [pow_succ] at hlog2
  constructor
  · rw [mul_comm]
    gcongr
  · rw [pow_succ, mul_assoc, mul_comm (m : ℚ), mul_comm (2 : ℚ)]
    gcongr

/-- The place above the lowest in which a number of own place `q0` is rounded. -/
def placeOf (f : Fmt) (q0 : ℤ) : Nat := (max q0 f.qmin - f.qmin).toNat

theorem qmin_add_placeOf (f : Fmt) (q0 : ℤ) : f.qmin + placeOf f q0 = max q0 f.qmin := by
  have := le_max_right q0 f.qmin
  unfold placeOf
  omega

/-- The model's rounding, by the pattern it makes and its flags. -/
theorem roundTo_eq {m : Nat} (hm : 0 < m) (e : ℤ) {q0 : ℤ} (hq : e + m.log2 - f.mb = q0) :
    roundTo f rm sat neg m e =
      if f.largest < magOf f (placeOf f q0) (roundAt rm neg m e (max q0 f.qmin)) then overflow f rm sat neg
      else (f.sgnBit neg + magOf f (placeOf f q0) (roundAt rm neg m e (max q0 f.qmin)),
        if (decide (max q0 f.qmin ≤ e) || m % 2 ^ (max q0 f.qmin - e).toNat == 0) = true then 0
        else if (decide (q0 < f.qmin) && decide (q0 + 1 < f.qmin ∨ roundAt rm neg m e q0 < 2 ^ (f.mb + 1))) = true then
          fNX ||| fUF
        else fNX) := by
  rw [← hq]
  exact if_neg hm.ne'

/-- A number of own place `q0` that rounds to `t` is placed. -/
theorem placed_of_ownPlace {q0 : ℤ} (h1 : (2 ^ f.mb : ℚ) ≤ w / 2 ^ q0) (h2 : w / 2 ^ q0 < 2 ^ (f.mb + 1))
    (hw : 0 ≤ w) (ht : NearestNat rm neg (w / 2 ^ max q0 f.qmin) t) : Placed f rm neg w (placeOf f q0) t := by
  refine ⟨by rwa [qmin_add_placeOf], ?_, ?_, hw⟩
  · rw [qmin_add_placeOf]
    exact (div_le_div_of_nonneg_left hw (by positivity)
      (zpow_le_zpow_right₀ (by norm_num) (le_max_left q0 f.qmin))).trans_lt h2
  · rcases le_total q0 f.qmin with hle | hle
    · left; unfold placeOf; omega
    · right; rwa [qmin_add_placeOf, max_eq_left hle]

/-- Rounding m × 2^e rounds every number that its own place, and so any place above, cannot tell from it. -/
theorem rounded_roundTo_of_sameCell {m : Nat} {e : ℤ} (hm : 0 < m)
    (hc : SameCell w (m * 2 ^ e) (e + m.log2 - f.mb)) :
    Rounded f rm sat neg (signOf neg * w) (roundTo f rm sat neg m e) := by
  obtain ⟨hb1, hb2⟩ := ownPlace_bounds hm e f.mb
  generalize hq0 : e + m.log2 - f.mb = q0 at hc hb1 hb2
  have h1 : (2 ^ f.mb : ℚ) ≤ w / 2 ^ q0 := by exact_mod_cast hc.le_of_le (n := 2 ^ f.mb) (by exact_mod_cast hb1)
  have h2 : w / 2 ^ q0 < 2 ^ (f.mb + 1) := by
    exact_mod_cast hc.lt_of_lt (n := 2 ^ (f.mb + 1)) (by exact_mod_cast hb2)
  have hw : 0 ≤ w := by
    rw [eq_mul_place w q0]
    exact mul_nonneg (le_trans (by positivity) h1) (by positivity)
  have hcq := hc.coarser (le_max_left q0 f.qmin)
  have htiny := isTiny_iff (rm := rm) (neg := neg) hw h1 h2 (hc.nearestNat (roundAt_nearest rm neg m e q0))
  have hnear := hcq.nearestNat (roundAt_nearest rm neg m e (max q0 f.qmin))
  have hexact := (exact_iff m e (max q0 f.qmin)).trans (hcq.isNat_iff.symm.trans hnear.eq_iff.symm)
  have hP := placed_of_ownPlace h1 h2 hw hnear
  rw [roundTo_eq hm e hq0]
  generalize roundAt rm neg m e (max q0 f.qmin) = t at hP hexact
  refine hP.rounded (fun hl => if_pos hl) (fun hl => by rw [if_neg (not_lt.2 hl)]) ?_ ?_ ?_ <;>
    rw [qmin_add_placeOf] <;> intro hl hx
  · rw [if_neg (not_lt.2 hl), if_pos (hexact.2 hx)]
  · intro ht
    rw [if_neg (not_lt.2 hl), if_neg (mt hexact.1 hx), if_pos (by simpa using htiny.1 ht)]
  · intro ht
    rw [if_neg (not_lt.2 hl), if_neg (mt hexact.1 hx), if_neg (by simpa using mt htiny.2 ht)]

/-- Rounding an exact number once. -/
theorem rounded_roundTo (f : Fmt) (rm : Rm) (sat neg : Bool) {m : Nat} (hm : 0 < m) (e : ℤ) :
    Rounded f rm sat neg (ratOf neg m e) (roundTo f rm sat neg m e) := by
  rw [ratOf_eq]
  exact rounded_roundTo_of_sameCell hm (.inl rfl)

end

end Sys2Proof.Machine
end

section
/-!
Sums and products (R31, R35, R168, R169, R177): the exact sum of finite values, rounded once.
-/

namespace Sys2Proof.Machine

/-! ### The exact sum -/

/-- The lesser of an exponent and a finite value's. -/
def lessExp (r : ℤ) : FVal → ℤ
  | .fin _ _ e => min r e
  | _ => r

/-- A finite value added in units of 2^e0. -/
def addTerm (e0 r : ℤ) : FVal → ℤ
  | .fin n m e => r + if n then -((m * 2 ^ (e - e0).toNat : Nat) : ℤ) else ((m * 2 ^ (e - e0).toNat : Nat) : ℤ)
  | _ => r

theorem finSum_eq (rm : Rm) (xs : List FVal) : finSum rm xs =
    if xs.foldl (addTerm (xs.foldl lessExp 0)) 0 = 0 then
      .fin (xs.all (fun x => x.isZero && x.neg) || rm == .rd) 0 0
    else .fin (decide (xs.foldl (addTerm (xs.foldl lessExp 0)) 0 < 0)) (xs.foldl (addTerm (xs.foldl lessExp 0)) 0).natAbs
      (xs.foldl lessExp 0) := rfl

theorem foldl_lessExp_le (xs : List FVal) (r : ℤ) :
    xs.foldl lessExp r ≤ r ∧ ∀ n m e, .fin n m e ∈ xs → xs.foldl lessExp r ≤ e := by
  induction xs generalizing r with
  | nil => exact ⟨le_refl _, fun _ _ _ h => absurd h List.not_mem_nil⟩
  | cons x xs ih =>
    obtain ⟨h1, h2⟩ := ih (lessExp r x)
    have hx : lessExp r x ≤ r := by
      cases x with
      | fin n m e => exact min_le_left r e
      | _ => exact le_refl r
    refine ⟨h1.trans hx, fun n m e h => ?_⟩
    rcases List.mem_cons.1 h with rfl | h
    · exact h1.trans (min_le_right r e)
    · exact h2 n m e h

theorem addTerm_cast {e0 : ℤ} {x : FVal} (h : ∀ n m e, x = .fin n m e → e0 ≤ e) (r : ℤ) :
    (addTerm e0 r x : ℚ) * 2 ^ e0 = r * 2 ^ e0 + x.rat := by
  cases x with
  | fin n m e =>
    have he := h n m e rfl
    have hpow : (2 : ℚ) ^ (e - e0).toNat * 2 ^ e0 = 2 ^ e := by
      rw [← zpow_natCast, Int.toNat_of_nonneg (by omega), ← zpow_add₀ two_ne_zero, sub_add_cancel]
    rw [FVal.rat, ratOf_eq, ← hpow]
    cases n <;> simp [addTerm] <;> ring
  | _ => simp [addTerm, FVal.rat]

/-- The integer sum is the exact sum, in units of the least exponent. -/
theorem foldl_addTerm_cast {e0 : ℤ} {xs : List FVal} (h : ∀ n m e, .fin n m e ∈ xs → e0 ≤ e) (r : ℤ) :
    ((xs.foldl (addTerm e0) r : ℤ) : ℚ) * 2 ^ e0 = r * 2 ^ e0 + (xs.map FVal.rat).sum := by
  induction xs generalizing r with
  | nil => simp
  | cons x xs ih =>
    rw [List.foldl_cons, ih (fun n m e hm => h n m e (List.mem_cons_of_mem x hm)),
      addTerm_cast (fun n m e hx => h n m e (hx ▸ List.mem_cons_self)), List.map_cons, List.sum_cons]
    ring

/-- A number `q` rounded once to a format; a zero's sign is `z`. -/
def RoundsOnce (f : Fmt) (rm : Rm) (z : Bool) (q : ℚ) (r : Nat × BitVec 6) : Prop :=
  (q = 0 → r = (f.sgnBit z, 0)) ∧
  (q ≠ 0 → ∃ n m e, 0 < m ∧ ratOf n m e = q ∧ r = roundTo f rm false n m e)

theorem roundTo_zero (f : Fmt) (rm : Rm) (sat neg : Bool) (e : ℤ) : roundTo f rm sat neg 0 e = (f.sgnBit neg, 0) :=
  if_pos rfl

theorem ratOf_natAbs (s e : ℤ) : ratOf (decide (s < 0)) s.natAbs e = s * 2 ^ e := by
  have hs : signOf (decide (s < 0)) * (s.natAbs : ℚ) = s := by
    rcases lt_or_ge s 0 with h | h
    · rw [decide_eq_true h, signOf_true, neg_one_mul, Nat.cast_natAbs, abs_of_neg h]
      push_cast
      ring
    · rw [decide_eq_false (not_lt.2 h), signOf_false, one_mul, Nat.cast_natAbs, abs_of_nonneg h]
  rw [ratOf_eq, ← mul_assoc, hs]

/-- The sum of finite values is rounded once; a zero's sign is minus where every term is −0, or under .rd (R35). -/
theorem finSum_roundsOnce (f : Fmt) (rm : Rm) (xs : List FVal) :
    RoundsOnce f rm (xs.all (fun x => x.isZero && x.neg) || rm == .rd) (xs.map FVal.rat).sum
      ((finSum rm xs).round f rm) := by
  have hsum := foldl_addTerm_cast (foldl_lessExp_le xs 0).2 0
  rw [Int.cast_zero, zero_mul, zero_add] at hsum
  rw [finSum_eq]
  generalize xs.foldl lessExp 0 = e0 at hsum ⊢
  generalize xs.foldl (addTerm e0) 0 = s at hsum ⊢
  have hzero : (xs.map FVal.rat).sum = 0 ↔ s = 0 := by
    rw [← hsum, mul_eq_zero_iff_right (by positivity), Int.cast_eq_zero]
  refine ⟨fun hq => ?_, fun hq => ?_⟩
  · rw [if_pos (hzero.1 hq)]
    exact roundTo_zero ..
  · have hs := mt hzero.2 hq
    rw [if_neg hs]
    exact ⟨_, _, _, Int.natAbs_pos.2 hs, (ratOf_natAbs s e0).trans hsum, rfl⟩

/-! ### Sums, products, multiply-adds and dot products (R168, R169, R177) -/

theorem FVal.exists_fin {x : FVal} (h : x.isFinite) : ∃ n m e, x = .fin n m e := by
  cases x with
  | nan => exact absurd h.1 Bool.noConfusion
  | inf n => exact absurd h.2 Bool.noConfusion
  | fin n m e => exact ⟨n, m, e, rfl⟩

theorem finMul_rat {x y : FVal} (hx : x.isFinite) (hy : y.isFinite) : (finMul x y).rat = x.rat * y.rat := by
  obtain ⟨n, m, e, rfl⟩ := FVal.exists_fin hx
  obtain ⟨n', m', e', rfl⟩ := FVal.exists_fin hy
  show ratOf _ _ _ = ratOf _ _ _ * ratOf _ _ _
  rw [ratOf_eq, ratOf_eq, ratOf_eq, zpow_add₀ two_ne_zero, Nat.cast_mul]
  have hs : signOf (n != n') = signOf n * signOf n' := by cases n <;> cases n' <;> norm_num
  rw [hs]
  ring

theorem finMul_isZero {x y : FVal} (hx : x.isFinite) (hy : y.isFinite) :
    (finMul x y).isZero = (x.isZero || y.isZero) := by
  obtain ⟨n, m, e, rfl⟩ := FVal.exists_fin hx
  obtain ⟨n', m', e', rfl⟩ := FVal.exists_fin hy
  show (m * m' == 0) = (m == 0 || m' == 0)
  rw [Bool.eq_iff_iff]
  simp

theorem finMul_neg {x y : FVal} (hx : x.isFinite) (hy : y.isFinite) : (finMul x y).neg = (x.neg != y.neg) := by
  obtain ⟨n, m, e, rfl⟩ := FVal.exists_fin hx
  obtain ⟨n', m', e', rfl⟩ := FVal.exists_fin hy
  rfl

theorem fAddV_roundsOnce (f : Fmt) (rm : Rm) {x y : FVal} (hx : x.isFinite) (hy : y.isFinite) :
    RoundsOnce f rm ((x.isZero && x.neg) && (y.isZero && y.neg) || rm == .rd) (x.rat + y.rat) (fAddV f rm x y) := by
  have h := finSum_roundsOnce f rm [x, y]
  obtain ⟨n, m, e, rfl⟩ := FVal.exists_fin hx
  obtain ⟨n', m', e', rfl⟩ := FVal.exists_fin hy
  have hv : fAddV f rm (.fin n m e) (.fin n' m' e') = (finSum rm [.fin n m e, .fin n' m' e']).round f rm := rfl
  rw [hv]
  simpa only [List.all_cons, List.all_nil, Bool.and_true, List.map_cons, List.map_nil, List.sum_cons, List.sum_nil,
    add_zero] using h

theorem fMulV_roundsOnce (f : Fmt) (rm : Rm) {x y : FVal} (hx : x.isFinite) (hy : y.isFinite) :
    RoundsOnce f rm (x.neg != y.neg) (x.rat * y.rat) (fMulV f rm x y) := by
  rw [← finMul_rat hx hy]
  obtain ⟨n, m, e, rfl⟩ := FVal.exists_fin hx
  obtain ⟨n', m', e', rfl⟩ := FVal.exists_fin hy
  show RoundsOnce f rm (n != n') (ratOf (n != n') (m * m') (e + e')) (roundTo f rm false (n != n') (m * m') (e + e'))
  rcases Nat.eq_zero_or_pos (m * m') with h0 | h0
  · rw [h0]
    refine ⟨fun _ => roundTo_zero .., fun hq => absurd ?_ hq⟩
    rw [ratOf_eq, Nat.cast_zero, zero_mul, mul_zero]
  · refine ⟨fun hq => absurd hq ?_, fun _ => ⟨_, _, _, h0, rfl, rfl⟩⟩
    have hs : signOf (n != n') ≠ 0 := by cases n <;> cases n' <;> norm_num
    rw [ratOf_eq]
    have : (0 : ℚ) < (m * m' : Nat) := by exact_mod_cast h0
    positivity

theorem fFmaV_roundsOnce (f : Fmt) (rm : Rm) {x y z : FVal} (hx : x.isFinite) (hy : y.isFinite) (hz : z.isFinite) :
    RoundsOnce f rm ((x.isZero || y.isZero) && (x.neg != y.neg) && (z.isZero && z.neg) || rm == .rd)
      (x.rat * y.rat + z.rat) (fFmaV f rm x y z) := by
  have h := finSum_roundsOnce f rm [finMul x y, z]
  have hv : fFmaV f rm x y z = (finSum rm [finMul x y, z]).round f rm := by
    simp [fFmaV, hx.1, hx.2, hy.1, hy.2, hz.1, hz.2]
  rw [hv]
  simpa only [List.all_cons, List.all_nil, Bool.and_true, List.map_cons, List.map_nil, List.sum_cons, List.sum_nil,
    add_zero, finMul_rat hx hy, finMul_isZero hx hy, finMul_neg hx hy] using h

theorem fDotV_roundsOnce (rm : Rm) {c : FVal} {ps : List (FVal × FVal)} (hc : c.isFinite)
    (hp : ∀ p ∈ ps, p.1.isFinite ∧ p.2.isFinite) :
    RoundsOnce .f32 rm
      ((c.isZero && c.neg) && ps.all (fun p => (p.1.isZero || p.2.isZero) && (p.1.neg != p.2.neg)) || rm == .rd)
      (c.rat + (ps.map fun p => p.1.rat * p.2.rat).sum) (fDotV rm c ps) := by
  have h := finSum_roundsOnce .f32 rm (c :: ps.map fun p => finMul p.1 p.2)
  have hn : (ps.any fun p => p.1.isNan || p.2.isNan) = false := by
    rw [List.any_eq_false]
    intro p hm
    simp [(hp p hm).1.1, (hp p hm).2.1]
  have hv : fDotV rm c ps = (finSum rm (c :: ps.map fun p => finMul p.1 p.2)).round .f32 rm := by
    unfold fDotV
    rw [hn, hc.1, hc.2]
    rfl
  have hall : (ps.map fun p => finMul p.1 p.2).all (fun x => x.isZero && x.neg) =
      ps.all fun p => (p.1.isZero || p.2.isZero) && (p.1.neg != p.2.neg) := by
    rw [List.all_map, Bool.eq_iff_iff, List.all_eq_true, List.all_eq_true]
    refine forall₂_congr fun p hm => ?_
    rw [Function.comp, finMul_isZero (hp p hm).1 (hp p hm).2, finMul_neg (hp p hm).1 (hp p hm).2]
  have hsum : (ps.map fun p => finMul p.1 p.2).map FVal.rat = ps.map fun p => p.1.rat * p.2.rat := by
    rw [List.map_map]
    exact List.map_congr_left fun p hm => finMul_rat (hp p hm).1 (hp p hm).2
  rw [hv]
  rwa [List.all_cons, List.map_cons, List.sum_cons, hall, hsum] at h

/-! ### NaN operands (R31, R167) -/

theorem fAddV_nan (f : Fmt) (rm : Rm) (y : FVal) : fAddV f rm .nan y = (f.nan, 0) ∧ fAddV f rm y .nan = (f.nan, 0) := by
  cases y <;> exact ⟨rfl, rfl⟩

theorem fMulV_nan (f : Fmt) (rm : Rm) (y : FVal) : fMulV f rm .nan y = (f.nan, 0) ∧ fMulV f rm y .nan = (f.nan, 0) := by
  cases y <;> exact ⟨rfl, rfl⟩

theorem fFmaV_nan (f : Fmt) (rm : Rm) {x y z : FVal} (h : (x.isNan || y.isNan || z.isNan) = true) :
    fFmaV f rm x y z = (f.nan, 0) := if_pos h

theorem FVal.eq_nan {x : FVal} (h : x.isNan = true) : x = .nan := by
  cases x with
  | nan => rfl
  | _ => exact absurd h Bool.noConfusion

theorem cvtFF_nan {src : Fmt} {x : Nat} (h : (src.val x).isNan = true) (dst : Fmt) (rm : Rm) (sat : Bool) :
    cvtFF src dst rm sat x = (dst.nan, 0) := by
  unfold cvtFF
  rw [FVal.eq_nan h]

/-! ### Rounding at a place (R35) -/

section
variable (neg : Bool) (m k : Nat)

/-- How far the rounded number lies above the exact one, in units of the number's own place. -/
theorem roundShift_gap (rm : Rm) : (((roundShift rm neg m k * 2 ^ k : Nat) - (m : ℤ) : ℤ) : ℚ) =
    (roundShift rm neg m k - m / 2 ^ k) * 2 ^ k := by
  push_cast
  field_simp

theorem roundShift_rn_gap :
    2 * |((roundShift .rn neg m k * 2 ^ k : Nat) : ℤ) - (m : ℤ)| ≤ 2 ^ k ∧
    (2 * |((roundShift .rn neg m k * 2 ^ k : Nat) : ℤ) - (m : ℤ)| = 2 ^ k → roundShift .rn neg m k % 2 = 0) := by
  obtain ⟨h1, h2⟩ := nearestNat_rn.1 (roundShift_nearest .rn neg m k)
  have hk : (0 : ℚ) < 2 ^ k := by positivity
  have hg : ((2 * |((roundShift .rn neg m k * 2 ^ k : Nat) : ℤ) - (m : ℤ)| : ℤ) : ℚ) =
      2 * |(roundShift .rn neg m k : ℚ) - m / 2 ^ k| * 2 ^ k := by
    rw [Int.cast_mul, Int.cast_abs, roundShift_gap, abs_mul, abs_of_pos hk]
    push_cast
    ring
  constructor
  · have : ((2 * |((roundShift .rn neg m k * 2 ^ k : Nat) : ℤ) - (m : ℤ)| : ℤ) : ℚ) ≤ ((2 ^ k : ℤ) : ℚ) := by
      rw [hg]
      push_cast
      exact mul_le_of_le_one_left hk.le (by linarith)
    exact_mod_cast this
  · intro he
    have : ((2 * |((roundShift .rn neg m k * 2 ^ k : Nat) : ℤ) - (m : ℤ)| : ℤ) : ℚ) = ((2 ^ k : ℤ) : ℚ) := by rw [he]
    rw [hg] at this
    push_cast at this
    exact h2 (by linarith [mul_right_cancel₀ hk.ne' (this.trans (one_mul _).symm)])

theorem roundShift_away_gap {rm : Rm} (hr : rm ≠ .rn) (ha : awayFromZero rm neg = true) :
    0 ≤ ((roundShift rm neg m k * 2 ^ k : Nat) : ℤ) - (m : ℤ) ∧
    |((roundShift rm neg m k * 2 ^ k : Nat) : ℤ) - (m : ℤ)| < 2 ^ k := by
  obtain ⟨h1, h2⟩ := (nearestNat_away hr ha).1 (roundShift_nearest rm neg m k)
  have hk : (0 : ℚ) < 2 ^ k := by positivity
  have h0 : 0 ≤ ((roundShift rm neg m k * 2 ^ k : Nat) : ℤ) - (m : ℤ) := by
    have : (0 : ℚ) ≤ (((roundShift rm neg m k * 2 ^ k : Nat) - (m : ℤ) : ℤ) : ℚ) := by
      rw [roundShift_gap]; exact mul_nonneg (by linarith) hk.le
    exact_mod_cast this
  have h3 : ((roundShift rm neg m k * 2 ^ k : Nat) : ℤ) - (m : ℤ) < 2 ^ k := by
    have : (((roundShift rm neg m k * 2 ^ k : Nat) - (m : ℤ) : ℤ) : ℚ) < ((2 ^ k : ℤ) : ℚ) := by
      rw [roundShift_gap]; push_cast; exact mul_lt_of_lt_one_left hk (by linarith)
    exact_mod_cast this
  exact ⟨h0, by rwa [abs_of_nonneg h0]⟩

theorem roundShift_toward_gap {rm : Rm} (hr : rm ≠ .rn) (ha : awayFromZero rm neg = false) :
    ((roundShift rm neg m k * 2 ^ k : Nat) : ℤ) - (m : ℤ) ≤ 0 ∧
    |((roundShift rm neg m k * 2 ^ k : Nat) : ℤ) - (m : ℤ)| < 2 ^ k := by
  obtain ⟨h1, h2⟩ := (nearestNat_toward hr ha).1 (roundShift_nearest rm neg m k)
  have hk : (0 : ℚ) < 2 ^ k := by positivity
  have h0 : ((roundShift rm neg m k * 2 ^ k : Nat) : ℤ) - (m : ℤ) ≤ 0 := by
    have : (((roundShift rm neg m k * 2 ^ k : Nat) - (m : ℤ) : ℤ) : ℚ) ≤ 0 := by
      rw [roundShift_gap]; exact mul_nonpos_of_nonpos_of_nonneg (by linarith) hk.le
    exact_mod_cast this
  have h3 : -(2 ^ k) < ((roundShift rm neg m k * 2 ^ k : Nat) : ℤ) - (m : ℤ) := by
    have : ((-(2 ^ k) : ℤ) : ℚ) < (((roundShift rm neg m k * 2 ^ k : Nat) - (m : ℤ) : ℤ) : ℚ) := by
      rw [roundShift_gap]; push_cast
      nlinarith
    exact_mod_cast this
  exact ⟨h0, by rw [abs_of_nonpos h0]; linarith⟩

end

/-! ### The obligation -/

/-- Settles O11: the modes by the relation they set between a magnitude and its integer, one rounding by the place of the
number, and every operation by its exact value. -/
theorem roundingIsCorrect : Obligations.RoundingIsCorrect := by
  unfold Obligations.RoundingIsCorrect
  refine ⟨fun neg m k => ?_, ⟨fun f rm y => ?_, fun f rm x y => ?_, fun src dst rm sat x h => cvtFF_nan h dst rm sat⟩,
    fun f rm sat neg m e hm => rounded_roundTo f rm sat neg hm e,
    fun f rm x y hx hy => ⟨fAddV_roundsOnce f rm hx hy, fMulV_roundsOnce f rm hx hy⟩,
    fun f rm x y z hx hy hz => fFmaV_roundsOnce f rm hx hy hz, fun rm c ps hc hp => fDotV_roundsOnce rm hc hp⟩
  · obtain ⟨hz1, hz2⟩ := roundShift_toward_gap neg m k (rm := .rz) (by decide) rfl
    refine ⟨roundShift_rn_gap neg m k, ⟨hz1, by rwa [abs_of_nonpos hz1] at hz2⟩, ?_, ?_⟩
    · cases neg with
      | false => exact (roundShift_away_gap false m k (rm := .ru) (by decide) rfl).symm
      | true => exact (roundShift_toward_gap true m k (rm := .ru) (by decide) rfl).symm
    · cases neg with
      | false => exact (roundShift_toward_gap false m k (rm := .rd) (by decide) rfl).symm
      | true => exact (roundShift_away_gap true m k (rm := .rd) (by decide) rfl).symm
  · obtain ⟨ha1, ha2⟩ := fAddV_nan f rm y
    exact ⟨ha1, ha2, fMulV_nan f rm y⟩
  · exact ⟨fFmaV_nan f rm rfl, fFmaV_nan f rm (by simp [FVal.isNan]), fFmaV_nan f rm (by simp [FVal.isNan])⟩

end Sys2Proof.Machine
end

section
/-!
A finite pattern's parts, and rounding a truncated number with its sticky bits: integers of patterns (R172, R173, R178),
reciprocal and roots (R174).
-/

namespace Sys2Proof.Machine

/-! ### The parts of a finite pattern (R29) -/

/-- The finite pattern `x` stands for (−1)^n × m × 2^e. -/
structure FinParts (f : Fmt) (x : Nat) (n : Bool) (m : Nat) (e : ℤ) : Prop where
  val : f.val x = .fin n m e
  rat : f.rat x = signOf n * (m * 2 ^ e)
  sign : x / f.sb = if n then 1 else 0
  short : m < 2 ^ (f.mb + 1)
  place : f.qmin ≤ e
  zero : m = 0 → x = f.sgnBit n
  mag : ∃ mag, mag ≤ f.largest ∧ x = f.sgnBit n + mag

section
variable {f : Fmt} {x : Nat} {n : Bool} {m : Nat} {e : ℤ}

theorem exists_finParts (h : f.isFinite x) : ∃ n m e, FinParts f x n m e := by
  obtain ⟨n, mag, hm, rfl⟩ := Fmt.isFinite_iff.1 h
  have hsb := hm.trans_lt f.largest_lt_sb
  have hval := Fmt.val_sgnBit_add hsb n
  rw [if_pos hm, Fmt.fin] at hval
  have hp := Nat.two_pow_pos f.mb
  refine ⟨n, _, _, hval, ?_, Fmt.sgnBit_add_div hsb n, ?_, by omega, fun h0 => ?_, mag, hm, rfl⟩
  · rw [Fmt.rat, hval, FVal.rat, ratOf_eq]
  · have := Nat.mod_lt mag hp
    rw [pow_succ]
    split <;> omega
  · split at h0
    · rw [h0, Nat.add_zero]
    · omega

theorem FinParts.isFinite (h : FinParts f x n m e) : f.isFinite x := Fmt.isFinite_iff.2 ⟨n, h.mag⟩

theorem FinParts.neg_eq (h : FinParts f x n m e) (h0 : f.rat x ≠ 0) : decide (f.rat x < 0) = n := by
  rw [h.rat] at h0 ⊢
  have hm : (0 : ℚ) ≤ m * 2 ^ e := by positivity
  cases n with
  | false => rw [signOf_false, one_mul]; exact decide_eq_false (not_lt.2 hm)
  | true =>
    rw [signOf_true, neg_one_mul] at h0 ⊢
    exact decide_eq_true (lt_of_le_of_ne (by linarith) h0)

theorem FinParts.rat_eq_zero_iff (h : FinParts f x n m e) : f.rat x = 0 ↔ m = 0 := by
  have hs : signOf n ≠ 0 := by cases n <;> norm_num
  rw [h.rat, mul_eq_zero_iff_left hs, mul_eq_zero_iff_right (by positivity), Nat.cast_eq_zero]

theorem FinParts.of_pos (h : FinParts f x n m e) (h0 : 0 < f.rat x) : n = false ∧ 0 < m ∧ f.rat x = m * 2 ^ e := by
  have hn := h.neg_eq h0.ne'
  rw [decide_eq_false (not_lt.2 h0.le)] at hn
  subst hn
  exact ⟨rfl, Nat.pos_of_ne_zero (mt h.rat_eq_zero_iff.2 h0.ne'), by rw [h.rat, signOf_false, one_mul]⟩

theorem FinParts.of_neg (h : FinParts f x n m e) (h0 : f.rat x < 0) : n = true ∧ 0 < m ∧ f.rat x = -(m * 2 ^ e) := by
  have hn := h.neg_eq h0.ne
  rw [decide_eq_true h0] at hn
  subst hn
  exact ⟨rfl, Nat.pos_of_ne_zero (mt h.rat_eq_zero_iff.2 h0.ne), by rw [h.rat, signOf_true, neg_one_mul]⟩

theorem abs_rat_le_max (h : f.isFinite x) : |f.rat x| ≤ f.max := by
  obtain ⟨n, mag, hm, rfl⟩ := Fmt.isFinite_iff.1 h
  have := (units_strictMono f.mb).monotone hm
  rw [Fmt.rat_sgnBit_add hm, abs_signOf_mul_of_nonneg (by positivity), Fmt.max_eq]
  gcongr

theorem Fmt.exists_of_isInf (hx : x < 2 ^ f.bits) (h : (f.val x).isInf = true) :
    ∃ n, f.val x = .inf n ∧ x / f.sb = if n then 1 else 0 := by
  obtain ⟨n, mag, hm, rfl⟩ := Fmt.exists_sgnBit_add hx
  rw [Fmt.val_sgnBit_add hm] at h ⊢
  refine ⟨n, ?_, Fmt.sgnBit_add_div hm n⟩
  split at h
  · exact absurd h Bool.noConfusion
  · split at h
    · rename_i h1 h2; rw [if_neg h1, if_pos h2]
    · exact absurd h Bool.noConfusion

end

/-! ### Numbers of few bits are exact -/

section
variable {f : Fmt} {rm : Rm} {sat neg : Bool} {m : Nat} {e : ℤ}

/-- A number of at most mb + 1 bits, not below the least place nor beyond the largest number, is a finite number. -/
theorem exists_rat_of_short (hm : 0 < m) (hlog : m.log2 ≤ f.mb) (he : f.qmin ≤ e) (hmax : (m : ℚ) * 2 ^ e ≤ f.max)
    (neg : Bool) : ∃ z, f.isFinite z ∧ f.rat z = ratOf neg m e := by
  obtain ⟨h1, h2⟩ := ownPlace_bounds hm e f.mb
  have hle : max (e + m.log2 - f.mb) f.qmin ≤ e := max_le (by omega) he
  have hexact := mul_zpow_div_of_le m hle
  have hP : Placed f .rn neg (m * 2 ^ e) _ _ := placed_of_ownPlace h1 h2 (by positivity)
    (t := m * 2 ^ (e - max (e + m.log2 - f.mb) f.qmin).toNat) (by rw [hexact]; exact nearestNat_natCast ..)
  have hl := hP.beyond_iff.1 hmax
  refine ⟨_, Fmt.isFinite_sgnBit_add hl neg, ?_⟩
  rw [(hP.exact_iff hl).2 (by rw [qmin_add_placeOf, hexact]), ratOf_eq]

/-- A finite number rounds to itself, without a flag. -/
theorem Rounded.eq_of_finite {v : ℚ} {r : Nat × BitVec 6} (h : Rounded f .rn sat neg v r) {z : Nat} (hz : f.isFinite z)
    (hv : f.rat z = v) : f.isFinite r.1 ∧ f.rat r.1 = v ∧ r.2 = 0 ∧ r.1 / f.sb = if neg then 1 else 0 := by
  obtain ⟨⟨hf, hn⟩, hs, h0, -, -⟩ := h.1 (hv ▸ abs_rat_le_max hz)
  have hr : f.rat r.1 = v := by
    have := (hn z hz).1
    rw [hv, sub_self, abs_zero, abs_nonpos_iff, sub_eq_zero] at this
    exact this
  exact ⟨hf, hr, h0 hr, hs⟩

theorem roundTo_short (hm : 0 < m) (hlog : m.log2 ≤ f.mb) (he : f.qmin ≤ e) (hmax : (m : ℚ) * 2 ^ e ≤ f.max)
    (sat neg : Bool) :
    f.isFinite (roundTo f .rn sat neg m e).1 ∧ f.rat (roundTo f .rn sat neg m e).1 = ratOf neg m e ∧
      (roundTo f .rn sat neg m e).2 = 0 ∧ (roundTo f .rn sat neg m e).1 / f.sb = if neg then 1 else 0 := by
  obtain ⟨z, hz, hv⟩ := exists_rat_of_short hm hlog he hmax neg
  exact (rounded_roundTo f .rn sat neg hm e).eq_of_finite hz hv

end

/-! ### Integers (R172, R173, R178) -/

section
variable {f : Fmt} {x : Nat} {n : Bool} {m : Nat} {e : ℤ}

/-- The integer that a mode gives for a finite pattern. -/
theorem FinParts.nearestInt (h : FinParts f x n m e) (rm : Rm) :
    NearestInt rm (f.rat x) (if n then -(roundAt rm n m e 0 : ℤ) else roundAt rm n m e 0) := by
  have hn := roundAt_nearest rm n m e 0
  rw [zpow_zero, div_one] at hn
  rw [h.rat]
  exact hn.nearestInt (by positivity)

theorem Fmt.two_pow_mb_le_max (f : Fmt) : (2 ^ f.mb : ℚ) ≤ f.max := by cases f <;> decide +kernel

theorem Fmt.qmin_nonpos (f : Fmt) : f.qmin ≤ 0 := by cases f <;> decide

theorem fRnd_of_nonneg (h : FinParts f x n m e) (he : 0 ≤ e) (rm : Rm) : fRnd f rm x = x := by
  unfold fRnd
  rw [h.val]
  exact if_pos he

theorem fRnd_of_neg (h : FinParts f x n m e) (he : e < 0) (rm : Rm) :
    fRnd f rm x = (roundTo f .rn false n (roundAt rm n m e 0) 0).1 := by
  unfold fRnd
  rw [h.val]
  exact if_neg (not_le.2 he)

theorem ratOf_place_zero (n : Bool) (t : Nat) : ratOf n t 0 = ((if n then -(t : ℤ) else t : ℤ) : ℚ) := by
  rw [ratOf_eq]
  cases n <;> simp

/-- A number with a fraction becomes an integer of at most `mb` + 1 bits. -/
theorem roundAt_le_of_neg (hm : m < 2 ^ (f.mb + 1)) (he : e < 0) (rm : Rm) (n : Bool) :
    roundAt rm n m e 0 ≤ 2 ^ f.mb := by
  refine (roundAt_nearest rm n m e 0).ge_of_ge ?_
  have h2 : (m : ℚ) < 2 ^ f.mb * 2 := by rw [← pow_succ]; exact_mod_cast hm
  have h3 : (2 : ℚ) ^ e ≤ 2⁻¹ := by rw [← zpow_neg_one]; exact zpow_le_zpow_right₀ (by norm_num) (by omega)
  have h4 : (0 : ℚ) < 2 ^ e := by positivity
  rw [zpow_zero, div_one]
  push_cast
  nlinarith

/-- An integer of at most `mb` + 1 bits is a number of the format, zero among them. -/
theorem roundTo_integer {t : Nat} (ht : t ≤ 2 ^ f.mb) (n : Bool) :
    f.isFinite (roundTo f .rn false n t 0).1 ∧ f.rat (roundTo f .rn false n t 0).1 = ratOf n t 0 ∧
      (roundTo f .rn false n t 0).1 / f.sb = if n then 1 else 0 := by
  rcases Nat.eq_zero_or_pos t with rfl | h0
  · have hl : 0 ≤ f.largest := Nat.zero_le _
    have hrat := Fmt.rat_sgnBit_add hl n
    rw [Nat.add_zero] at hrat
    rw [roundTo_zero, hrat, ratOf_eq]
    exact ⟨Fmt.isFinite_sgnBit_add hl n, by simp [units], Fmt.sgnBit_add_div (hl.trans_lt f.largest_lt_sb) n⟩
  · have hle : (t : ℚ) * 2 ^ (0 : ℤ) ≤ f.max := by
      rw [zpow_zero, mul_one]
      exact le_trans (by exact_mod_cast ht) f.two_pow_mb_le_max
    have hlog : t.log2 ≤ f.mb := by
      have h2 : 2 ^ t.log2 ≤ 2 ^ f.mb := (Nat.log2_self_le h0.ne').trans ht
      exact (Nat.pow_le_pow_iff_right (by norm_num)).1 h2
    obtain ⟨h1, h2, -, h4⟩ := roundTo_short h0 hlog f.qmin_nonpos hle false n
    exact ⟨h1, h2, h4⟩

theorem fRnd_finite (h : FinParts f x n m e) (rm : Rm) :
    ∃ z : ℤ, NearestInt rm (f.rat x) z ∧ f.isFinite (fRnd f rm x) ∧ f.rat (fRnd f rm x) = z ∧
      fRnd f rm x / f.sb = x / f.sb := by
  refine ⟨_, h.nearestInt rm, ?_⟩
  rw [← ratOf_place_zero]
  rcases le_or_gt 0 e with he | he
  · have hat : roundAt rm n m e 0 = m * 2 ^ e.toNat := by unfold roundAt; rw [if_pos he, sub_zero]
    have hpow : (2 : ℚ) ^ e.toNat = 2 ^ e := by rw [← zpow_natCast, Int.toNat_of_nonneg he]
    rw [fRnd_of_nonneg h he, hat, h.rat, ratOf_eq]
    refine ⟨h.isFinite, ?_, rfl⟩
    push_cast
    rw [hpow, mul_one]
  · rw [fRnd_of_neg h he, h.sign]
    exact roundTo_integer (roundAt_le_of_neg h.short he rm n) n

theorem fClass_finite (h : f.isFinite x) : fClass f x =
    if f.rat x = 0 then (if x / f.sb = 1 then 3 else 4)
    else if |f.rat x| < f.least then (if f.rat x < 0 then 2 else 5)
    else if f.rat x < 0 then 1 else 6 := by
  obtain ⟨n, m, e, hp⟩ := exists_finParts h
  have hsub : bitsOf x f.mb f.eb = 0 ↔ |f.rat x| < f.least := by
    obtain ⟨mag, hm, rfl⟩ := hp.mag
    have hS : (0 : ℚ) < 2 ^ f.qmin := by positivity
    have hu : units f.mb (2 ^ f.mb) = 2 ^ f.mb := by
      have := units_place (p := f.mb) (d := 0) (t := 2 ^ f.mb) (Nat.pow_le_pow_right (by norm_num) (by omega)) (.inl rfl)
      simpa using this
    have hlt := (units_strictMono f.mb).lt_iff_lt (a := mag) (b := 2 ^ f.mb)
    rw [(Fmt.bitsOf_sgnBit_add (hm.trans_lt f.largest_lt_sb) n).2.1, Fmt.rat_sgnBit_add hm,
      abs_signOf_mul_of_nonneg (by positivity), Fmt.least, add_comm, zpow_add₀ two_ne_zero, zpow_natCast,
      mul_lt_mul_iff_left₀ hS, Nat.div_eq_zero_iff, or_iff_right (Nat.two_pow_pos _).ne', ← hlt, hu]
    exact_mod_cast Iff.rfl
  have hsign : x / f.sb = 1 ↔ n = true := by rw [hp.sign]; cases n <;> simp
  unfold fClass
  rw [hp.val]
  dsimp only
  by_cases h0 : f.rat x = 0
  · rw [if_pos h0, if_pos (hp.rat_eq_zero_iff.1 h0)]
    simp only [hsign]
  · have hneg : f.rat x < 0 ↔ n = true := by rw [← hp.neg_eq h0, decide_eq_true_eq]
    rw [if_neg h0, if_neg (mt hp.rat_eq_zero_iff.2 h0)]
    simp only [hsub, hneg]

theorem cvtIF_rounded (f : Fmt) (rm : Rm) (sat : Bool) {n : ℤ} (h : n ≠ 0) :
    Rounded f rm sat (decide (n < 0)) n (cvtIF f rm sat n) := by
  have := rounded_roundTo f rm sat (decide (n < 0)) (Int.natAbs_pos.2 h) 0
  rwa [ratOf_natAbs, zpow_zero, mul_one] at this

theorem cvtFI_finite (h : FinParts f x n m e) (rm : Rm) (lo hi : ℤ) :
    ∃ z : ℤ, NearestInt rm (f.rat x) z ∧ cvtFI f rm lo hi x =
      if z < lo then (lo, fIV) else if hi < z then (hi, fIV) else (z, if (z : ℚ) = f.rat x then 0 else fNX) := by
  refine ⟨_, h.nearestInt rm, ?_⟩
  have hn := roundAt_nearest rm n m e 0
  have hex := (exact_iff m e 0).trans hn.eq_iff.symm
  rw [zpow_zero, div_one, zero_sub] at hex
  have hrat : (((if n then -(roundAt rm n m e 0 : ℤ) else roundAt rm n m e 0 : ℤ)) : ℚ) = f.rat x ↔
      (m : ℚ) * 2 ^ e = roundAt rm n m e 0 := by
    rw [h.rat, eq_comm]
    cases n <;> simp
  unfold cvtFI
  rw [h.val]
  simp only [hrat, ← hex]

end

end Sys2Proof.Machine
end

section
/-!
Reciprocal and roots (R174): a truncated number with its sticky bits rounds as the exact one does.
-/

namespace Sys2Proof.Machine

/-! ### Sticky bits -/

section
variable {f : Fmt} {rm : Rm} {sat neg : Bool} {q : Nat} {exact : Bool} {e : ℤ} {w : ℚ}

theorem sticky_bounds (q : Nat) (exact : Bool) : 4 * q ≤ sticky q exact ∧ sticky q exact ≤ 4 * q + 1 := by
  cases exact <;> exact ⟨by simp [sticky], by simp [sticky]⟩

/-- A truncation that keeps more bits than the format has rounds as the number it truncates. -/
theorem rounded_sticky (hq : 2 ^ (f.mb + 1) ≤ q) (h1 : (q : ℚ) * 2 ^ (e + 2) ≤ w) (h2 : w < (q + 1) * 2 ^ (e + 2))
    (hex : exact = true ↔ w = q * 2 ^ (e + 2)) :
    Rounded f rm sat neg (signOf neg * w) (roundTo f rm sat neg (sticky q exact) e) := by
  obtain ⟨hlo, hhi⟩ := sticky_bounds q exact
  have hpos : 0 < sticky q exact := by have := Nat.two_pow_pos (f.mb + 1); omega
  have hS : (0 : ℚ) < 2 ^ (e + 2) := by positivity
  have hfour : (2 : ℚ) ^ e = 2 ^ (e + 2) / 4 := by rw [zpow_add₀ two_ne_zero]; norm_num
  refine rounded_roundTo_of_sameCell hpos ?_
  cases hb : exact with
  | true =>
    left
    rw [hex.1 hb, hfour, sticky]
    push_cast
    simp
    ring
  | false =>
    rw [hb] at hlo hhi
    have hlog : f.mb + 3 ≤ (sticky q false).log2 := by
      rw [Nat.le_log2 (by rw [hb] at hpos; omega), show 2 ^ (f.mb + 3) = 4 * 2 ^ (f.mb + 1) by ring]
      omega
    have hne : w ≠ q * 2 ^ (e + 2) := fun hc => by have := hex.2 hc; rw [hb] at this; exact absurd this Bool.noConfusion
    refine SameCell.coarser (q := e + 3) ?_ (by omega)
    have hhalf : ∀ v : ℚ, 2 * (v / 2 ^ (e + 3)) = v / 2 ^ (e + 2) := fun v => by
      rw [show e + 3 = e + 2 + 1 by ring, zpow_add_one₀ two_ne_zero (e + 2)]
      field_simp
    have hm : (sticky q false : ℚ) * 2 ^ e = (q + 1 / 4) * 2 ^ (e + 2) := by
      rw [hfour, sticky]
      push_cast
      simp
      ring
    refine .inr ⟨q, ?_⟩
    rw [hhalf, hhalf, hm, lt_div_iff₀ hS, div_lt_iff₀ hS, lt_div_iff₀ hS, div_lt_iff₀ hS]
    exact ⟨⟨lt_of_le_of_ne h1 (Ne.symm hne), h2⟩, by gcongr; norm_num, by gcongr; norm_num⟩

/-- The same of a positive real number: a rational one is rounded, and around any other every rational one is. -/
theorem roundedReal_sticky {v : ℝ} (hq : 2 ^ (f.mb + 1) ≤ q) (h1 : (q : ℝ) * 2 ^ (e + 2) ≤ v)
    (h2 : v < (q + 1) * 2 ^ (e + 2)) (hex : exact = true ↔ v = q * 2 ^ (e + 2)) :
    RoundedReal f rm v (roundTo f rm false false (sticky q exact) e) := by
  have hlo : ∀ r : ℚ, ((q : ℝ) * 2 ^ (e + 2) ≤ r ↔ (q : ℚ) * 2 ^ (e + 2) ≤ r) := fun r => by
    rw [← Rat.cast_le (K := ℝ)]; push_cast; rfl
  have hhi : ∀ r : ℚ, ((r : ℝ) < (q + 1) * 2 ^ (e + 2) ↔ r < (q + 1) * 2 ^ (e + 2)) := fun r => by
    rw [← Rat.cast_lt (K := ℝ)]; push_cast; rfl
  have heq : ∀ r : ℚ, ((r : ℝ) = q * 2 ^ (e + 2) ↔ r = q * 2 ^ (e + 2)) := fun r => by
    rw [← Rat.cast_inj (α := ℝ)]; push_cast; rfl
  have hround : ∀ r : ℚ, (q : ℝ) * 2 ^ (e + 2) ≤ r → (r : ℝ) < (q + 1) * 2 ^ (e + 2) →
      (exact = true ↔ (r : ℝ) = q * 2 ^ (e + 2)) →
      Rounded f rm false false r (roundTo f rm false false (sticky q exact) e) := fun r h3 h4 h5 => by
    have := rounded_sticky (rm := rm) (sat := false) (neg := false) hq ((hlo r).1 h3) ((hhi r).1 h4)
      (h5.trans (heq r))
    rwa [signOf_false, one_mul] at this
  by_cases hirr : Irrational v
  · have hne : v ≠ q * 2 ^ (e + 2) := fun hc => hirr ⟨(q : ℚ) * 2 ^ (e + 2), by rw [hc]; push_cast; rfl⟩
    have hlt : (q : ℝ) * 2 ^ (e + 2) < v := lt_of_le_of_ne h1 (Ne.symm hne)
    refine .inr ⟨hirr, min (v - q * 2 ^ (e + 2)) ((q + 1) * 2 ^ (e + 2) - v), lt_min (by linarith) (by linarith),
      fun r hr => ?_⟩
    obtain ⟨h3, h4⟩ := lt_min_iff.1 hr
    have h5 := (abs_lt.1 h3).1
    have h6 := (abs_lt.1 h4).2
    exact hround r (by linarith) (by linarith) (iff_of_false (mt hex.1 hne) (by intro hc; linarith))
  · obtain ⟨r, rfl⟩ := not_not.1 hirr
    exact .inl ⟨r, rfl, hround r h1 h2 hex⟩

end

/-! ### The reciprocal -/

/-- The quotient 2^k / m and whether it is exact. -/
theorem two_pow_div_bounds {m : Nat} (hm : 0 < m) (k : Nat) :
    ((2 ^ k / m : Nat) : ℚ) ≤ 2 ^ k / m ∧ (2 ^ k / m : ℚ) < (2 ^ k / m : Nat) + 1 ∧
      ((2 ^ k % m == 0) = true ↔ (2 ^ k / m : ℚ) = (2 ^ k / m : Nat)) := by
  have hm' : (0 : ℚ) < m := by exact_mod_cast hm
  have hdiv := Nat.div_add_mod (2 ^ k) m
  have hmod := Nat.mod_lt (2 ^ k) hm
  have hcast : (2 ^ k : ℚ) = m * (2 ^ k / m : Nat) + (2 ^ k % m : Nat) := by exact_mod_cast hdiv.symm
  have hmodq : ((2 ^ k % m : Nat) : ℚ) < m := by exact_mod_cast hmod
  have h0 : (0 : ℚ) ≤ (2 ^ k % m : Nat) := Nat.cast_nonneg _
  refine ⟨?_, ?_, ?_⟩
  · rw [le_div_iff₀ hm']; linarith
  · rw [div_lt_iff₀ hm']; linarith
  · rw [beq_iff_eq, div_eq_iff hm'.ne', ← Nat.cast_eq_zero (R := ℚ)]
    constructor <;> intro h <;> linarith

theorem fRcp_eq {x : Nat} {n : Bool} {m : Nat} {e : ℤ} (h : FinParts .f32 x n m e) (hm : 0 < m) (rm : Rm) :
    fRcp rm x = roundTo .f32 rm false n (sticky (2 ^ (m.log2 + 32) / m) (2 ^ (m.log2 + 32) % m == 0))
      (-e - (m.log2 + 32 : Nat) - 2) := by
  unfold fRcp
  rw [h.val]
  exact if_neg hm.ne'

theorem fRcp_rounded {x : Nat} (h : Fmt.f32.isFinite x) (h0 : Fmt.f32.rat x ≠ 0) (rm : Rm) :
    Rounded .f32 rm false (decide (Fmt.f32.rat x < 0)) (1 / Fmt.f32.rat x) (fRcp rm x) := by
  obtain ⟨n, m, e, hp⟩ := exists_finParts h
  have hm : 0 < m := Nat.pos_of_ne_zero (mt hp.rat_eq_zero_iff.2 h0)
  have hv : 1 / Fmt.f32.rat x = signOf n * (1 / (m * 2 ^ e)) := by
    rw [hp.rat]
    cases n <;> simp
  rw [fRcp_eq hp hm, hp.neg_eq h0, hv]
  obtain ⟨h1, h2, h3⟩ := two_pow_div_bounds hm (m.log2 + 32)
  have hbig : 2 ^ (Fmt.f32.mb + 1) ≤ 2 ^ (m.log2 + 32) / m := by
    rw [Nat.le_div_iff_mul_le hm]
    have : 2 ^ (Fmt.f32.mb + 1) * m ≤ 2 ^ 31 * 2 ^ (m.log2 + 1) := Nat.mul_le_mul (by decide) Nat.lt_log2_self.le
    exact this.trans_eq (by rw [← pow_add]; congr 1; omega)
  generalize m.log2 + 32 = k at h1 h2 h3 hbig ⊢
  have hS : (0 : ℚ) < 2 ^ (-e - (k : ℤ)) := by positivity
  have hw : (1 : ℚ) / (m * 2 ^ e) = 2 ^ k / m * 2 ^ (-e - k - 2 + 2) := by
    rw [sub_add_cancel, zpow_sub₀ two_ne_zero, zpow_neg, zpow_natCast]
    field_simp
  rw [hw]
  refine rounded_sticky hbig ?_ ?_ ?_ <;> rw [sub_add_cancel]
  · exact (mul_le_mul_iff_left₀ hS).2 h1
  · exact (mul_lt_mul_iff_left₀ hS).2 h2
  · rw [h3, mul_left_inj' hS.ne']

/-! ### The integer square root -/

/-- From bit `k` down, the root's lower bits are found. -/
theorem isqrtFrom_spec (n k r : Nat) (h1 : r * r ≤ n) (h2 : n < (r + 2 ^ (k + 1)) * (r + 2 ^ (k + 1))) :
    isqrtFrom n k r * isqrtFrom n k r ≤ n ∧ n < (isqrtFrom n k r + 1) * (isqrtFrom n k r + 1) := by
  induction k generalizing r with
  | zero =>
    unfold isqrtFrom
    split
    · exact ⟨‹_›, h2⟩
    · exact ⟨h1, by omega⟩
  | succ k ih =>
    unfold isqrtFrom
    split
    · refine ih _ ‹_› ?_
      rwa [Nat.add_assoc, ← two_mul, ← pow_succ']
    · exact ih r h1 (by omega)

theorem isqrt_spec (n : Nat) : isqrt n * isqrt n ≤ n ∧ n < (isqrt n + 1) * (isqrt n + 1) := by
  unfold isqrt
  split
  · rename_i h; rw [h]; decide
  · refine isqrtFrom_spec n _ 0 (Nat.zero_le n) ?_
    have h : n < 2 ^ (n.log2 + 1) := Nat.lt_log2_self
    refine h.trans_le ?_
    rw [Nat.zero_add, ← pow_add]
    exact Nat.pow_le_pow_right (by norm_num) (by omega)

theorem le_isqrt {a n : Nat} (h : a * a ≤ n) : a ≤ isqrt n := by
  by_contra hc
  have h1 := (isqrt_spec n).2
  have : (isqrt n + 1) * (isqrt n + 1) ≤ a * a := Nat.mul_le_mul (by omega) (by omega)
  omega

/-! ### Roots -/

theorem evenExp_spec (m : Nat) (e : ℤ) :
    (evenExp m e).2 % 2 = 0 ∧ ((evenExp m e).1 : ℚ) * 2 ^ (evenExp m e).2 = m * 2 ^ e ∧
      (0 < m → 0 < (evenExp m e).1) := by
  unfold evenExp
  split
  · exact ⟨‹_›, rfl, id⟩
  · refine ⟨by dsimp only; omega, ?_, fun h => by dsimp only; omega⟩
    push_cast
    rw [zpow_sub_one₀ two_ne_zero]
    field_simp

/-- A number with an even exponent, as a real: its root halves the exponent. -/
theorem sqrt_mul_zpow {a : ℝ} (ha : 0 ≤ a) {e : ℤ} (he : e % 2 = 0) : √(a * 2 ^ e) = √a * 2 ^ (e / 2) := by
  have h2 : (2 : ℝ) ^ e = (2 ^ (e / 2)) ^ 2 := by
    rw [← zpow_natCast, ← zpow_mul]
    congr 1
    push_cast
    omega
  rw [Real.sqrt_mul ha, h2, Real.sqrt_sq (by positivity)]

/-- An integer is at most a root, or equal to it, as its square is to the number. -/
theorem natCast_le_sqrt {s : Nat} {a : ℝ} (ha : 0 ≤ a) : (s : ℝ) ≤ √a ↔ (s * s : ℝ) ≤ a := by
  rw [Real.le_sqrt (Nat.cast_nonneg s) ha, sq]

theorem sqrt_eq_natCast {s : Nat} {a : ℝ} (ha : 0 ≤ a) : √a = s ↔ a = s * s := by
  rw [Real.sqrt_eq_iff_mul_self_eq ha (Nat.cast_nonneg s), eq_comm]

section
variable {x : Nat} {m : Nat} {e : ℤ} {m1 : Nat} {e1 : ℤ}

theorem fSqrt_eq (h : FinParts .f32 x false m e) (hm : 0 < m) (he : evenExp m e = (m1, e1)) (rm : Rm) :
    fSqrt rm x = roundTo .f32 rm false false
      (sticky (isqrt (m1 * 2 ^ 80)) (isqrt (m1 * 2 ^ 80) * isqrt (m1 * 2 ^ 80) == m1 * 2 ^ 80)) (e1 / 2 - 40 - 2) := by
  unfold fSqrt
  rw [h.val]
  dsimp only
  rw [if_neg hm.ne', if_neg Bool.false_ne_true, he]

theorem fRsq_eq (h : FinParts .f32 x false m e) (hm : 0 < m) (he : evenExp m e = (m1, e1)) {k s : Nat}
    (hk : m1.log2 / 2 + 40 = k) (hs : isqrt (2 ^ (2 * k) / m1) = s) (rm : Rm) :
    fRsq rm x = roundTo .f32 rm false false (sticky s (s * s * m1 == 2 ^ (2 * k))) (-(e1 / 2) - k - 2) := by
  unfold fRsq
  rw [h.val]
  dsimp only
  rw [if_neg hm.ne', if_neg Bool.false_ne_true, he]
  dsimp only
  rw [hk, hs]

end

section
variable {x : Nat} (h : Fmt.f32.isFinite x) (h0 : 0 < Fmt.f32.rat x) (rm : Rm)
include h h0

/-- A positive number with an even exponent. -/
theorem exists_evenParts : ∃ m e m1 e1, FinParts .f32 x false m e ∧ 0 < m ∧ evenExp m e = (m1, e1) ∧ 0 < m1 ∧
    e1 % 2 = 0 ∧ ((Fmt.f32.rat x : ℚ) : ℝ) = m1 * 2 ^ e1 := by
  obtain ⟨n, m, e, hp⟩ := exists_finParts h
  obtain ⟨rfl, hm, hv⟩ := hp.of_pos h0
  obtain ⟨h1, h2, h3⟩ := evenExp_spec m e
  refine ⟨m, e, _, _, hp, hm, rfl, h3 hm, h1, ?_⟩
  rw [hv, ← h2]
  push_cast
  rfl

theorem fSqrt_rounded : RoundedReal .f32 rm √((Fmt.f32.rat x : ℚ) : ℝ) (fSqrt rm x) := by
  obtain ⟨m, e, m1, e1, hp, hm, he, hm1, heven, hv⟩ := exists_evenParts h h0
  rw [fSqrt_eq hp hm he, hv]
  obtain ⟨h1, h2⟩ := isqrt_spec (m1 * 2 ^ 80)
  have hbig : 2 ^ (Fmt.f32.mb + 1) ≤ isqrt (m1 * 2 ^ 80) := by
    refine le_isqrt ?_
    rw [← pow_add]
    exact (Nat.pow_le_pow_right (by norm_num) (by decide)).trans (Nat.le_mul_of_pos_left _ hm1)
  have hN : (0 : ℝ) ≤ (m1 * 2 ^ 80 : Nat) := Nat.cast_nonneg _
  have hS : (0 : ℝ) < 2 ^ (e1 / 2 - 40) := by positivity
  have hroot : √((m1 : ℝ) * 2 ^ e1) = √((m1 * 2 ^ 80 : Nat) : ℝ) * 2 ^ (e1 / 2 - 40 - 2 + 2) := by
    rw [sub_add_cancel, show e1 / 2 - 40 = (e1 - 80) / 2 by omega, ← sqrt_mul_zpow hN (by omega)]
    congr 1
    rw [zpow_sub₀ two_ne_zero]
    push_cast
    rw [show (2 : ℝ) ^ (80 : ℤ) = 2 ^ 80 from zpow_natCast 2 80]
    field_simp
    norm_num
  generalize m1 * 2 ^ 80 = N at h1 h2 hN hroot hbig ⊢
  generalize isqrt N = s at h1 h2 hbig ⊢
  have h1' : (s : ℝ) ≤ √N := (natCast_le_sqrt hN).2 (by exact_mod_cast h1)
  have h2' : √(N : ℝ) < s + 1 := by
    rw [← Nat.cast_succ, ← not_le, natCast_le_sqrt hN, not_le]
    exact_mod_cast h2
  rw [hroot]
  refine roundedReal_sticky hbig ?_ ?_ ?_ <;> rw [sub_add_cancel]
  · exact (mul_le_mul_iff_left₀ hS).2 h1'
  · exact (mul_lt_mul_iff_left₀ hS).2 h2'
  · rw [mul_left_inj' hS.ne', sqrt_eq_natCast hN, beq_iff_eq, eq_comm]
    exact_mod_cast Iff.rfl

theorem fRsq_rounded : RoundedReal .f32 rm (1 / √((Fmt.f32.rat x : ℚ) : ℝ)) (fRsq rm x) := by
  obtain ⟨m, e, m1, e1, hp, hm, he, hm1, heven, hv⟩ := exists_evenParts h h0
  rw [fRsq_eq hp hm he rfl rfl, hv]
  have hm1' : (0 : ℝ) < m1 := by exact_mod_cast hm1
  have hbig : 2 ^ (Fmt.f32.mb + 1) ≤ isqrt (2 ^ (2 * (m1.log2 / 2 + 40)) / m1) := by
    refine le_isqrt ?_
    rw [Nat.le_div_iff_mul_le hm1, ← pow_add]
    have : 2 ^ (Fmt.f32.mb + 1 + (Fmt.f32.mb + 1)) * m1 ≤ 2 ^ 78 * 2 ^ (m1.log2 + 1) :=
      Nat.mul_le_mul (Nat.pow_le_pow_right (by norm_num) (by decide)) Nat.lt_log2_self.le
    refine this.trans ?_
    rw [← pow_add]
    exact Nat.pow_le_pow_right (by norm_num) (by omega)
  generalize m1.log2 / 2 + 40 = k at hbig ⊢
  obtain ⟨h1, h2⟩ := isqrt_spec (2 ^ (2 * k) / m1)
  generalize isqrt (2 ^ (2 * k) / m1) = s at h1 h2 hbig ⊢
  have hA : (0 : ℝ) ≤ 2 ^ (2 * k) / m1 := by positivity
  have hS : (0 : ℝ) < 2 ^ (-(e1 / 2) - (k : ℤ)) := by positivity
  have h1' : (s : ℝ) ≤ √(2 ^ (2 * k) / m1) := by
    rw [natCast_le_sqrt hA, le_div_iff₀ hm1']
    exact_mod_cast (Nat.le_div_iff_mul_le hm1).1 h1
  have h2' : √(2 ^ (2 * k) / m1 : ℝ) < s + 1 := by
    rw [← Nat.cast_succ, ← not_le, natCast_le_sqrt hA, not_le, div_lt_iff₀ hm1']
    exact_mod_cast (Nat.div_lt_iff_lt_mul hm1).1 h2
  have hroot : 1 / √((m1 : ℝ) * 2 ^ e1) = √(2 ^ (2 * k) / m1 : ℝ) * 2 ^ (-(e1 / 2) - k - 2 + 2) := by
    rw [sub_add_cancel, sqrt_mul_zpow hm1'.le heven, Real.sqrt_div (by positivity), pow_mul', Real.sqrt_sq (by positivity),
      zpow_sub₀ two_ne_zero, zpow_neg, zpow_natCast]
    have := Real.sqrt_pos.2 hm1'
    field_simp
  rw [hroot]
  refine roundedReal_sticky hbig ?_ ?_ ?_ <;> rw [sub_add_cancel]
  · exact (mul_le_mul_iff_left₀ hS).2 h1'
  · exact (mul_lt_mul_iff_left₀ hS).2 h2'
  · rw [mul_left_inj' hS.ne', sqrt_eq_natCast hA, div_eq_iff hm1'.ne', beq_iff_eq, eq_comm]
    exact_mod_cast Iff.rfl

end

end Sys2Proof.Machine
end

section
/-!
The exact table of the transcendental functions (R175) and every function's special inputs (R172 to R175, R178).
-/

namespace Sys2Proof.Machine

/-! ### Powers of two and integers among the finite numbers -/

section
variable {m : Nat} {e : ℤ}

theorem log2_place (hm : 0 < m) (e : ℤ) :
    (2 : ℚ) ^ (e + m.log2) ≤ m * 2 ^ e ∧ (m : ℚ) * 2 ^ e < 2 ^ (e + m.log2 + 1) := by
  have hS : (0 : ℚ) < 2 ^ (e + m.log2) := by positivity
  obtain ⟨h1, h2⟩ := ownPlace_bounds hm e 0
  rw [Nat.cast_zero, sub_zero] at h1 h2
  rw [pow_zero, le_div_iff₀ hS, one_mul] at h1
  rw [div_lt_iff₀ hS] at h2
  refine ⟨h1, h2.trans_eq ?_⟩
  rw [zpow_add_one₀ two_ne_zero, mul_comm, zero_add, pow_one]

/-- The place of a number's leading bit bounds it by powers of two. -/
theorem two_zpow_le_iff (hm : 0 < m) {j : ℤ} : (2 : ℚ) ^ j ≤ m * 2 ^ e ↔ j ≤ e + m.log2 := by
  obtain ⟨h1, h2⟩ := log2_place hm e
  refine ⟨fun h => ?_, fun h => (zpow_le_zpow_right₀ (by norm_num) h).trans h1⟩
  have := (zpow_lt_zpow_iff_right₀ (by norm_num : (1 : ℚ) < 2)).1 (h.trans_lt h2)
  omega

/-- A power of two has one bit, at its exponent. -/
theorem log2_of_eq_two_zpow (hm : 0 < m) {k : ℤ} (h : (m : ℚ) * 2 ^ e = 2 ^ k) : m = 2 ^ m.log2 ∧ e + m.log2 = k := by
  have hk : e + m.log2 = k := by
    obtain ⟨h1, h2⟩ := log2_place hm e
    rw [h] at h1 h2
    have h1 := (zpow_le_zpow_iff_right₀ (by norm_num : (1 : ℚ) < 2)).1 h1
    have h2 := (zpow_lt_zpow_iff_right₀ (by norm_num : (1 : ℚ) < 2)).1 h2
    omega
  refine ⟨?_, hk⟩
  rw [← hk, add_comm, zpow_add₀ two_ne_zero, zpow_natCast, mul_left_inj' (by positivity)] at h
  exact_mod_cast h

theorem isInteger_of_eq {c : Nat} (h : (m : ℚ) * 2 ^ e = c) : isInteger m e = true := by
  have := (exact_iff m e 0).2 ⟨c, by rw [zpow_zero, div_one, h]⟩
  rwa [zero_sub] at this

/-- The floor of an integer is the integer. -/
theorem floorFrac_of_eq (P : Nat) {neg : Bool} {n : ℤ} (h : signOf neg * (m * 2 ^ e) = n) :
    (floorFrac P neg m e).1 = n := by
  unfold floorFrac
  split
  · rename_i he
    dsimp only
    have hpow : (2 : ℚ) ^ e.toNat = 2 ^ e := by rw [← zpow_natCast, Int.toNat_of_nonneg he]
    rw [← hpow] at h
    cases neg <;> simp only [signOf_true, signOf_false, one_mul, neg_one_mul] at h <;> simp <;> exact_mod_cast h
  · rename_i he
    obtain ⟨k, rfl⟩ : ∃ k : Nat, e = -k := ⟨(-e).toNat, by omega⟩
    have hk : (0 : ℤ) < 2 ^ k := by positivity
    have hk' : (2 : ℚ) ^ k ≠ 0 := by positivity
    have hv : (if neg then -(m : ℤ) else m) = n * 2 ^ k := by
      rw [zpow_neg, zpow_natCast, ← div_eq_mul_inv, ← mul_div_assoc, div_eq_iff hk'] at h
      cases neg <;> simp only [signOf_true, signOf_false, one_mul, neg_one_mul] at h <;> simp <;> exact_mod_cast h
    dsimp only
    rw [neg_neg, Int.toNat_natCast, hv]
    push_cast
    exact Int.mul_ediv_cancel _ hk.ne'

end

/-! ### FEXP2 and FLOG2 (R175) -/

section
variable {x : Nat} {n : Bool} {m : Nat} {e : ℤ}

theorem fExp2_zero (h : FinParts .f32 x n 0 e) : fExp2 x = (0x3F800000, 0) := by
  unfold fExp2
  rw [h.val]
  rfl

/-- What FEXP2 asks of a number before it evaluates a series. -/
theorem fExp2_eq (h : FinParts .f32 x n m e) (hm : 0 < m) {o u : Bool}
    (ho : (!n && decide (7 ≤ e + m.log2)) = o)
    (hu : (n && decide (Fmt.key .f32 x < Fmt.key .f32 0xC3160000)) = u) :
    (o = true → fExp2 x = (0x7F800000, fOF ||| fNX)) ∧ (o = false → u = true → fExp2 x = (0, fUF ||| fNX)) ∧
    (o = false → u = false → isInteger m e = true →
      fExp2 x = roundTo .f32 .rn false false 1 (floorFrac 0 n m e).1) := by
  unfold fExp2
  rw [h.val]
  dsimp only
  rw [if_neg hm.ne', ho, hu]
  refine ⟨fun h1 => ?_, fun h1 h2 => ?_, fun h1 h2 h3 => ?_⟩
  · rw [h1, if_pos rfl]
    rfl
  · rw [h1, if_neg Bool.false_ne_true, h2, if_pos rfl]
  · rw [h1, if_neg Bool.false_ne_true, h2, if_neg Bool.false_ne_true, if_pos h3]

theorem FinParts.overflows_iff (h : FinParts .f32 x n m e) (hm : 0 < m) :
    (!n && decide (7 ≤ e + m.log2)) = true ↔ 128 ≤ Fmt.f32.rat x := by
  have hv : (0 : ℚ) < m * 2 ^ e := by positivity
  have h7 : (2 : ℚ) ^ (7 : ℤ) = 128 := by norm_num
  rw [h.rat]
  cases n with
  | false => rw [signOf_false, one_mul, ← h7, two_zpow_le_iff hm]; simp
  | true =>
    rw [signOf_true, neg_one_mul]
    exact iff_of_false (by simp) (by linarith)

theorem key_negative {mag : Nat} (h : mag ≤ Fmt.f32.largest) : Fmt.key .f32 (Fmt.f32.sgnBit true + mag) = -mag - 1 := by
  have hlt := h.trans_lt Fmt.f32.largest_lt_sb
  unfold Fmt.key
  rw [Fmt.sgnBit_add_div hlt]
  dsimp only
  rw [if_pos rfl, Fmt.sgnBit, if_pos rfl, if_pos rfl, Nat.add_mod_left, Nat.mod_eq_of_lt hlt]

/-- The pattern that FEXP2 compares with is −150. -/
theorem rat_neg150 : Fmt.f32.rat 0xC3160000 = -150 := by decide +kernel

theorem FinParts.underflows_iff (h : FinParts .f32 x n m e) :
    (n && decide (Fmt.key .f32 x < Fmt.key .f32 0xC3160000)) = true ↔ Fmt.f32.rat x < -150 := by
  have hS : (0 : ℚ) < 2 ^ Fmt.f32.qmin := by positivity
  have hc : 0x43160000 ≤ Fmt.f32.largest := by decide
  cases n with
  | false =>
    have hv : (0 : ℚ) ≤ m * 2 ^ e := by positivity
    rw [h.rat, signOf_false, one_mul]
    exact iff_of_false (by simp) (by linarith)
  | true =>
    obtain ⟨mag, hmag, rfl⟩ := h.mag
    rw [← rat_neg150, show (0xC3160000 : Nat) = Fmt.f32.sgnBit true + 0x43160000 from rfl, key_negative hmag,
      key_negative hc, Fmt.rat_sgnBit_add hmag, Fmt.rat_sgnBit_add hc, Bool.true_and, decide_eq_true_eq, signOf_true,
      neg_one_mul, neg_one_mul, neg_lt_neg_iff, mul_lt_mul_iff_left₀ hS, Nat.cast_lt, (units_strictMono _).lt_iff_lt]
    omega

theorem fExp2_overflow (h : Fmt.f32.isFinite x) (hv : 128 ≤ Fmt.f32.rat x) : fExp2 x = (0x7F800000, fOF ||| fNX) := by
  obtain ⟨n, m, e, hp⟩ := exists_finParts h
  obtain ⟨-, hm, -⟩ := hp.of_pos (by linarith)
  exact (fExp2_eq hp hm rfl rfl).1 ((hp.overflows_iff hm).2 hv)

theorem fExp2_underflow (h : Fmt.f32.isFinite x) (hv : Fmt.f32.rat x < -150) : fExp2 x = (0, fUF ||| fNX) := by
  obtain ⟨n, m, e, hp⟩ := exists_finParts h
  obtain ⟨-, hm, -⟩ := hp.of_neg (by linarith)
  refine (fExp2_eq hp hm rfl rfl).2.1 (Bool.eq_false_iff.2 fun ho => ?_) (hp.underflows_iff.2 hv)
  have := (hp.overflows_iff hm).1 ho
  linarith

theorem fExp2_integer (h : Fmt.f32.isFinite x) {z : ℤ} (hv : Fmt.f32.rat x = z) (h1 : -150 ≤ z) (h2 : z < 128) :
    Rounded .f32 .rn false false (2 ^ z) (fExp2 x) := by
  have hround : Rounded .f32 .rn false false (2 ^ z) (roundTo .f32 .rn false false 1 z) := by
    have := rounded_roundTo .f32 .rn false false one_pos z
    rwa [ratOf_eq, signOf_false, one_mul, Nat.cast_one, one_mul] at this
  obtain ⟨n, m, e, hp⟩ := exists_finParts h
  rcases Nat.eq_zero_or_pos m with rfl | hm
  · obtain rfl : z = 0 := by
      have := hp.rat_eq_zero_iff.2 rfl
      rw [hv] at this
      exact_mod_cast this
    rw [fExp2_zero hp]
    exact hround
  · have hrat := hp.rat.symm.trans hv
    have hint : isInteger m e = true := by
      refine isInteger_of_eq (c := z.natAbs) ?_
      rw [← abs_signOf_mul_of_nonneg (by positivity : (0 : ℚ) ≤ m * 2 ^ e) n, hrat,
        Nat.cast_natAbs, Int.cast_abs]
    rw [(fExp2_eq hp hm rfl rfl).2.2 (Bool.eq_false_iff.2 fun ho => ?_) (Bool.eq_false_iff.2 fun hu => ?_) hint,
      floorFrac_of_eq 0 hrat]
    · exact hround
    · have := (hp.overflows_iff hm).1 ho
      rw [hv] at this
      exact absurd h2 (not_lt.2 (by exact_mod_cast this))
    · have := hp.underflows_iff.1 hu
      rw [hv] at this
      exact absurd h1 (not_le.2 (by exact_mod_cast this))

theorem fLog2_zero (h : FinParts .f32 x n 0 e) : fLog2 x = (0xFF800000, fDZ) := by
  unfold fLog2
  rw [h.val]
  rfl

theorem fLog2_neg (h : FinParts .f32 x true m e) (hm : 0 < m) : fLog2 x = (0x7FC00000, fIV) := by
  unfold fLog2
  rw [h.val]
  dsimp only
  rw [if_neg hm.ne', if_pos rfl]
  rfl

theorem fLog2_of_eq_two_pow (h : FinParts .f32 x false m e) (hm : 0 < m) (h2 : m = 2 ^ m.log2) :
    fLog2 x = cvtIF .f32 .rn false (e + m.log2) := by
  unfold fLog2
  rw [h.val]
  dsimp only
  rw [if_neg hm.ne', if_neg Bool.false_ne_true, if_pos h2]

/-- A small integer is an FP32 number. -/
theorem cvtIF_exact {k : ℤ} (hk : k.natAbs < 2 ^ 23) :
    ∃ b, cvtIF .f32 .rn false k = (b, 0) ∧ Fmt.f32.isFinite b ∧ Fmt.f32.rat b = k := by
  unfold cvtIF
  rcases Nat.eq_zero_or_pos k.natAbs with h0 | hpos
  · obtain rfl := Int.natAbs_eq_zero.1 h0
    exact ⟨0, rfl, Fmt.isFinite_iff.2 ⟨false, 0, Nat.zero_le _, rfl⟩, by decide +kernel⟩
  · have hlog : k.natAbs.log2 ≤ Fmt.f32.mb := ((Nat.log2_lt hpos.ne').2 hk).le
    have hmax : (k.natAbs : ℚ) * 2 ^ (0 : ℤ) ≤ Fmt.f32.max := by
      rw [zpow_zero, mul_one]
      exact le_trans (by exact_mod_cast hk.le) Fmt.f32.two_pow_mb_le_max
    obtain ⟨h1, h2, h3, -⟩ := roundTo_short hpos hlog Fmt.f32.qmin_nonpos hmax false (decide (k < 0))
    refine ⟨_, Prod.ext rfl h3, h1, ?_⟩
    rw [h2, ratOf_natAbs, zpow_zero, mul_one]

theorem Fmt.f32_max_lt : Fmt.f32.max < 2 ^ (128 : ℤ) := by
  rw [show (2 : ℚ) ^ (128 : ℤ) = 2 ^ 128 from zpow_natCast 2 128]
  decide +kernel

theorem fLog2_power (h : Fmt.f32.isFinite x) {k : ℤ} (hv : Fmt.f32.rat x = 2 ^ k) :
    ∃ b, fLog2 x = (b, 0) ∧ Fmt.f32.isFinite b ∧ Fmt.f32.rat b = k := by
  obtain ⟨n, m, e, hp⟩ := exists_finParts h
  obtain ⟨rfl, hm, hrat⟩ := hp.of_pos (hv ▸ by positivity)
  obtain ⟨h2, hk⟩ := log2_of_eq_two_zpow hm (hrat.symm.trans hv)
  have hup : k < 128 := by
    have := (le_abs_self _).trans (abs_rat_le_max h) |>.trans_lt Fmt.f32_max_lt
    rwa [hv, zpow_lt_zpow_iff_right₀ (by norm_num : (1 : ℚ) < 2)] at this
  have hlow : -149 ≤ e := hp.place
  rw [fLog2_of_eq_two_pow hp hm h2, hk]
  exact cvtIF_exact (by omega)

end

/-! ### FSIN and FCOS (R175)

A multiple of one half is counted in half units: an even count is an integer of half-turns. -/

section
variable {x : Nat} {n : Bool} {m : Nat} {e : ℤ}

/-- sin(π × c / 2) with a fraction of j + 1 bits. -/
theorem sinPi_halves (neg : Bool) (c j : Nat) : sinPi neg (c * 2 ^ j) (-(j + 1 : ℤ)) =
    if c % 2 = 0 then (Fmt.f32.sgnBit neg, 0)
    else (Fmt.f32.sgnBit (neg != (c / 2 % 2 == 1)) + Fmt.one .f32, 0) := by
  have hj := Nat.two_pow_pos j
  have htoNat : (- -(j + 1 : ℤ)).toNat = j + 1 := by omega
  have hmod : c * 2 ^ j % 2 ^ (j + 1) = c % 2 * 2 ^ j := by rw [pow_succ', Nat.mul_mod_mul_right]
  have hdiv : c * 2 ^ j / 2 ^ (j + 1) = c / 2 := by rw [pow_succ', Nat.mul_div_mul_right _ _ hj]
  have hint : isInteger (c * 2 ^ j) (-(j + 1 : ℤ)) = true ↔ c % 2 = 0 := by
    unfold isInteger
    rw [htoNat, hmod, decide_eq_false (by omega), Bool.false_or, beq_iff_eq, Nat.mul_eq_zero, or_iff_left hj.ne']
  unfold sinPi
  simp only [hint, htoNat, hmod, hdiv]
  by_cases hc : c % 2 = 0
  · rw [if_pos hc, if_pos hc]
  · rw [if_neg hc, if_neg hc, if_pos (by rw [show c % 2 = 1 by omega, pow_succ]; omega)]

/-- The count of halves of a number with a fraction. -/
theorem eq_halves {c j : Nat} (hc : (m : ℚ) * 2 ^ (-(j + 1 : ℤ)) * 2 = c) : m = c * 2 ^ j := by
  have hj : (2 : ℚ) ^ j ≠ 0 := by positivity
  rw [zpow_neg, zpow_add_one₀ two_ne_zero, zpow_natCast, mul_inv, mul_assoc, mul_assoc,
    inv_mul_cancel₀ two_ne_zero, mul_one, ← div_eq_mul_inv, div_eq_iff hj] at hc
  exact_mod_cast hc

/-- The count of halves of an integer. -/
theorem halves_of_integer {c : Nat} (he : 0 ≤ e) (hc : (m : ℚ) * 2 ^ e * 2 = c) :
    c = 2 * (m * 2 ^ e.toNat) := by
  obtain ⟨k, rfl⟩ := Int.eq_ofNat_of_zero_le he
  rw [zpow_natCast] at hc
  rw [Int.toNat_natCast, mul_comm]
  exact_mod_cast hc.symm

theorem fSin_halves (h : FinParts .f32 x n m e) (hm : 0 < m) {c : Nat} (hc : (m : ℚ) * 2 ^ e * 2 = c) : fSin x =
    if c % 2 = 0 then (Fmt.f32.sgnBit n, 0) else (Fmt.f32.sgnBit (n != (c / 2 % 2 == 1)) + Fmt.one .f32, 0) := by
  unfold fSin
  rw [h.val]
  dsimp only
  rw [if_neg hm.ne']
  rcases le_or_gt 0 e with he | he
  · have := halves_of_integer he hc
    rw [if_pos (by omega)]
    unfold sinPi isInteger
    rw [decide_eq_true he, Bool.true_or, if_pos rfl]
  · obtain ⟨j, rfl⟩ : ∃ j : Nat, e = -(j + 1 : ℤ) := ⟨(-e - 1).toNat, by omega⟩
    rw [eq_halves hc, sinPi_halves]

theorem fCos_halves (h : FinParts .f32 x n m e) (hm : 0 < m) {c : Nat} (hc : (m : ℚ) * 2 ^ e * 2 = c) : fCos x =
    if c % 2 = 0 then (Fmt.f32.sgnBit (c / 2 % 2 == 1) + Fmt.one .f32, 0) else (0, 0) := by
  unfold fCos
  rw [h.val]
  dsimp only
  rw [if_neg hm.ne']
  rcases le_or_gt 0 e with he | he
  · have hc' := halves_of_integer he hc
    have hodd : (e == 0 && m % 2 == 1) = (c / 2 % 2 == 1) := by
      rw [hc', Nat.mul_div_cancel_left _ two_pos]
      rcases he.eq_or_lt with rfl | he
      · simp
      · obtain ⟨k, hk⟩ : ∃ k, e.toNat = k + 1 := ⟨e.toNat - 1, by omega⟩
        rw [hk, pow_succ, ← Nat.mul_assoc, Nat.mul_mod_left, beq_eq_false_iff_ne.2 he.ne']
        rfl
    rw [if_pos he, if_pos (by omega), hodd]
  · obtain ⟨j, rfl⟩ : ∃ j : Nat, e = -(j + 1 : ℤ) := ⟨(-e - 1).toNat, by omega⟩
    rw [if_neg (by omega), show (- -(j + 1 : ℤ)).toNat - 1 = j by omega, eq_halves hc,
      show c * 2 ^ j + 2 ^ j = (c + 1) * 2 ^ j by ring]
    have hsin := sinPi_halves false (c + 1) j
    by_cases hpar : c % 2 = 0
    · rw [if_neg (by omega), show (c + 1) / 2 = c / 2 by omega, Bool.false_bne] at hsin
      rw [hsin, if_pos hpar]
      cases c / 2 % 2 == 1 <;> rfl
    · rw [if_pos (by omega)] at hsin
      rw [hsin, if_neg hpar]
      rfl

/-- A multiple of one half: its sign and its count of halves. -/
theorem FinParts.halves (h : FinParts .f32 x n m e) {N : ℤ} (hN : Fmt.f32.rat x * 2 = N) :
    (m : ℚ) * 2 ^ e * 2 = N.natAbs := by
  rw [← abs_signOf_mul_of_nonneg (by positivity : (0 : ℚ) ≤ m * 2 ^ e) n, ← h.rat, Nat.cast_natAbs, Int.cast_abs, ← hN,
    abs_mul, abs_two]

theorem FinParts.neg_iff (h : FinParts .f32 x n m e) (hm : 0 < m) {N : ℤ} (hN : Fmt.f32.rat x * 2 = N) :
    n = decide (N < 0) := by
  rw [← h.neg_eq (mt h.rat_eq_zero_iff.1 hm.ne'), decide_eq_decide]
  have : Fmt.f32.rat x < 0 ↔ (N : ℚ) < 0 := by rw [← hN]; constructor <;> intro h <;> linarith
  exact this.trans (by exact_mod_cast Iff.rfl)

theorem fSin_fCos_zero (h : FinParts .f32 x n 0 e) : fSin x = (x, 0) ∧ fCos x = (0x3F800000, 0) := by
  unfold fSin fCos
  rw [h.val]
  exact ⟨rfl, rfl⟩

theorem fSin_fCos_integer (h : Fmt.f32.isFinite x) {z : ℤ} (hv : Fmt.f32.rat x = z) :
    fSin x = (if z = 0 then x else if 0 < z then 0 else 0x80000000, 0) ∧
      fCos x = (if z % 2 = 0 then 0x3F800000 else 0xBF800000, 0) := by
  obtain ⟨n, m, e, hp⟩ := exists_finParts h
  have hz : z = 0 ↔ m = 0 := by rw [← hp.rat_eq_zero_iff, hv, Int.cast_eq_zero]
  rcases Nat.eq_zero_or_pos m with rfl | hm
  · obtain rfl := hz.2 rfl
    exact fSin_fCos_zero hp
  · have hN : Fmt.f32.rat x * 2 = (2 * z : ℤ) := by rw [hv]; push_cast; ring
    have hc := hp.halves hN
    have hne := mt hz.1 hm.ne'
    have heven : (2 * z).natAbs % 2 = 0 := by omega
    rw [fSin_halves hp hm hc, fCos_halves hp hm hc, if_pos heven, if_pos heven, hp.neg_iff hm hN, if_neg hne]
    constructor
    · by_cases hpos : 0 < z
      · rw [if_pos hpos, decide_eq_false (by omega)]
        rfl
      · rw [if_neg hpos, decide_eq_true (by omega)]
        rfl
    · by_cases hpar : z % 2 = 0
      · rw [if_pos hpar, beq_eq_false_iff_ne.2 (by omega)]
        rfl
      · rw [if_neg hpar, beq_iff_eq.2 (by omega)]
        rfl

theorem fSin_fCos_half (h : Fmt.f32.isFinite x) {z : ℤ} (hv : Fmt.f32.rat x = z + 1 / 2) :
    fSin x = (if z % 2 = 0 then 0x3F800000 else 0xBF800000, 0) ∧ fCos x = (0, 0) := by
  obtain ⟨n, m, e, hp⟩ := exists_finParts h
  have hN : Fmt.f32.rat x * 2 = (2 * z + 1 : ℤ) := by rw [hv]; push_cast; ring
  have hm : 0 < m := by
    refine Nat.pos_of_ne_zero fun h0 => ?_
    rw [hp.rat_eq_zero_iff.2 h0, zero_mul] at hN
    have : 2 * z + 1 = 0 := by exact_mod_cast hN.symm
    omega
  have hc := hp.halves hN
  have hodd : ¬(2 * z + 1).natAbs % 2 = 0 := by omega
  rw [fSin_halves hp hm hc, fCos_halves hp hm hc, if_neg hodd, if_neg hodd, hp.neg_iff hm hN]
  refine ⟨?_, rfl⟩
  have hsign : (decide (2 * z + 1 < 0) != ((2 * z + 1).natAbs / 2 % 2 == 1)) = decide (z % 2 ≠ 0) := by
    rw [Bool.eq_iff_iff, bne_iff_ne, ne_eq, Bool.eq_iff_iff, decide_eq_true_eq, decide_eq_true_eq, beq_iff_eq]
    omega
  rw [hsign]
  by_cases hpar : z % 2 = 0
  · rw [if_pos hpar, decide_eq_false (by omega)]
    rfl
  · rw [if_neg hpar, decide_eq_true hpar]
    rfl

end

/-! ### Special inputs -/

section
variable {f : Fmt} {x : Nat}

theorem functions_nan (h : (Fmt.f32.val x).isNan = true) (rm : Rm) :
    fRcp rm x = (0x7FC00000, 0) ∧ fRsq rm x = (0x7FC00000, 0) ∧ fSqrt rm x = (0x7FC00000, 0) ∧
      fExp2 x = (0x7FC00000, 0) ∧ fLog2 x = (0x7FC00000, 0) ∧ fSin x = (0x7FC00000, 0) ∧ fCos x = (0x7FC00000, 0) := by
  unfold fRcp fRsq fSqrt fExp2 fLog2 fSin fCos
  rw [FVal.eq_nan h]
  exact ⟨rfl, rfl, rfl, rfl, rfl, rfl, rfl⟩

theorem fRsq_fSqrt_negative (h : Fmt.f32.isFinite x) (hv : Fmt.f32.rat x < 0) (rm : Rm) :
    fRsq rm x = (0x7FC00000, fIV) ∧ fSqrt rm x = (0x7FC00000, fIV) := by
  obtain ⟨n, m, e, hp⟩ := exists_finParts h
  obtain ⟨rfl, hm, -⟩ := hp.of_neg hv
  unfold fRsq fSqrt
  rw [hp.val]
  dsimp only
  rw [if_neg hm.ne', if_neg hm.ne', if_pos rfl]
  exact ⟨rfl, rfl⟩

theorem fRnd_fClass_nan (h : (f.val x).isNan = true) (rm : Rm) : fRnd f rm x = f.nan ∧ fClass f x = 8 := by
  unfold fRnd fClass
  rw [FVal.eq_nan h]
  exact ⟨rfl, rfl⟩

theorem fRnd_fClass_inf (hx : x < 2 ^ f.bits) (h : (f.val x).isInf = true) (rm : Rm) :
    fRnd f rm x = x ∧ fClass f x = if x / f.sb = 1 then 0 else 7 := by
  obtain ⟨n, hv, hs⟩ := Fmt.exists_of_isInf hx h
  unfold fRnd fClass
  rw [hv, hs]
  cases n <;> exact ⟨rfl, rfl⟩

theorem cvtIF_zero (f : Fmt) (rm : Rm) (sat : Bool) : cvtIF f rm sat 0 = (0, 0) := roundTo_zero f rm sat false 0

theorem cvtFI_nan (h : (f.val x).isNan = true) (rm : Rm) (lo hi : ℤ) : cvtFI f rm lo hi x = (0, fIV) := by
  unfold cvtFI
  rw [FVal.eq_nan h]

theorem cvtFI_inf (hx : x < 2 ^ f.bits) (h : (f.val x).isInf = true) (rm : Rm) (lo hi : ℤ) :
    cvtFI f rm lo hi x = (if x / f.sb = 1 then lo else hi, fIV) := by
  obtain ⟨n, hv, hs⟩ := Fmt.exists_of_isInf hx h
  unfold cvtFI
  rw [hv, hs]
  cases n <;> rfl

theorem fLog2_nonpositive (h : Fmt.f32.isFinite x) :
    (Fmt.f32.rat x = 0 → fLog2 x = (0xFF800000, fDZ)) ∧ (Fmt.f32.rat x < 0 → fLog2 x = (0x7FC00000, fIV)) := by
  obtain ⟨n, m, e, hp⟩ := exists_finParts h
  constructor
  · intro hv
    obtain rfl := hp.rat_eq_zero_iff.1 hv
    exact fLog2_zero hp
  · intro hv
    obtain ⟨rfl, hm, -⟩ := hp.of_neg hv
    exact fLog2_neg hp hm

end

/-- Settles O12: the exact value of each function, rounded once; special inputs by the parts of the pattern. -/
theorem functionsAreExact : Obligations.FunctionsAreExact := by
  unfold Obligations.FunctionsAreExact
  refine ⟨fun rm x h => functions_nan h rm, fun rm => ?_, fun rm x h => ⟨fun h0 => fRcp_rounded h h0 rm,
    fun hv => fRsq_fSqrt_negative h hv rm, fun hv => ⟨fRsq_rounded h hv rm, fSqrt_rounded h hv rm⟩⟩,
    fun t rm x hx => ⟨fun h => fRnd_fClass_nan h rm, fun h => fRnd_fClass_inf hx h rm, fun h => ⟨?_, fClass_finite h⟩⟩,
    fun f rm sat n => ⟨fun h => h ▸ cvtIF_zero f rm sat, cvtIF_rounded f rm sat⟩,
    fun f rm lo hi x hx => ⟨fun h => cvtFI_nan h rm lo hi, fun h => cvtFI_inf hx h rm lo hi, fun h => ?_⟩, ?_,
    fun x h => ⟨fExp2_overflow h, fExp2_underflow h, fun z => fExp2_integer h, (fLog2_nonpositive h).1,
      (fLog2_nonpositive h).2, fun k => fLog2_power h, fun z => fSin_fCos_integer h, fun z => fSin_fCos_half h⟩⟩
  · exact ⟨rfl, rfl, rfl, rfl, rfl, rfl, rfl, rfl, rfl, rfl, rfl, rfl⟩
  · obtain ⟨n, m, e, hp⟩ := exists_finParts h
    exact fRnd_finite hp rm
  · obtain ⟨n, m, e, hp⟩ := exists_finParts h
    exact cvtFI_finite hp rm lo hi
  · exact ⟨rfl, rfl, rfl, rfl, rfl, rfl, rfl, rfl⟩

end Sys2Proof.Machine
end

section
/-!
SUPPORT and proofs. The decoder on encoded words, from the fields up: what each field of a word reads, what each operand code,
modifier and variant decodes to, and each class of instructions from these (R101 to R106, R121 to R127, R74).
-/
namespace Sys2Proof

/-! ### The fields of an encoded word (R101, R102) -/

section
variable (o dst a b c : BitVec 8) (v p md ix : BitVec 4) (fn : BitVec 12) (imm : Word)

theorem fields_mkR :
    let w := mkR o v dst a b c p md fn
    fOpc w = o ∧ fVar w = v ∧ fDst w = dst ∧ fOpa w = a ∧ fOpb w = b ∧ fOpc2 w = c ∧ fPred w = p ∧ fMod w = md ∧
      fFunc w = fn := by
  refine ⟨?_, ?_, ?_, ?_, ?_, ?_, ?_, ?_, ?_⟩ <;> refine BitVec.eq_of_getLsbD_eq fun i hi => ?_ <;>
    simp only [fOpc, fVar, fDst, fOpa, fOpb, fOpc2, fPred, fMod, fFunc, BitVec.getLsbD_extractLsb', mkR,
      BitVec.getLsbD_append] <;>
    grind

theorem fields_mkI :
    let w := mkI o v dst a ix imm
    fOpc w = o ∧ fVar w = v ∧ fDst w = dst ∧ fOpa w = a ∧ fIx w = ix ∧ fImm w = imm := by
  refine ⟨?_, ?_, ?_, ?_, ?_, ?_⟩ <;> refine BitVec.eq_of_getLsbD_eq fun i hi => ?_ <;>
    simp only [fOpc, fVar, fDst, fOpa, fIx, fImm, BitVec.getLsbD_extractLsb', mkI, BitVec.getLsbD_append] <;>
    grind

@[simp] theorem fOpc_mkR : fOpc (mkR o v dst a b c p md fn) = o := (fields_mkR ..).1
@[simp] theorem fVar_mkR : fVar (mkR o v dst a b c p md fn) = v := (fields_mkR ..).2.1
@[simp] theorem fDst_mkR : fDst (mkR o v dst a b c p md fn) = dst := (fields_mkR ..).2.2.1
@[simp] theorem fOpa_mkR : fOpa (mkR o v dst a b c p md fn) = a := (fields_mkR ..).2.2.2.1
@[simp] theorem fOpb_mkR : fOpb (mkR o v dst a b c p md fn) = b := (fields_mkR ..).2.2.2.2.1
@[simp] theorem fOpc2_mkR : fOpc2 (mkR o v dst a b c p md fn) = c := (fields_mkR ..).2.2.2.2.2.1
@[simp] theorem fPred_mkR : fPred (mkR o v dst a b c p md fn) = p := (fields_mkR ..).2.2.2.2.2.2.1
@[simp] theorem fMod_mkR : fMod (mkR o v dst a b c p md fn) = md := (fields_mkR ..).2.2.2.2.2.2.2.1
@[simp] theorem fFunc_mkR : fFunc (mkR o v dst a b c p md fn) = fn := (fields_mkR ..).2.2.2.2.2.2.2.2
@[simp] theorem fOpc_mkI : fOpc (mkI o v dst a ix imm) = o := (fields_mkI ..).1
@[simp] theorem fVar_mkI : fVar (mkI o v dst a ix imm) = v := (fields_mkI ..).2.1
@[simp] theorem fDst_mkI : fDst (mkI o v dst a ix imm) = dst := (fields_mkI ..).2.2.1
@[simp] theorem fOpa_mkI : fOpa (mkI o v dst a ix imm) = a := (fields_mkI ..).2.2.2.1
@[simp] theorem fIx_mkI : fIx (mkI o v dst a ix imm) = ix := (fields_mkI ..).2.2.2.2.1
@[simp] theorem fImm_mkI : fImm (mkI o v dst a ix imm) = imm := (fields_mkI ..).2.2.2.2.2

@[simp] theorem fOpc_eRI (n : Nat) (q : Pred) (d : Reg) (x : Src) (y : Opb) : fOpc (eRI o n q d x y md fn) = o := by
  cases y <;> simp [eRI]
theorem funcBits_mkR (lo n : Nat) : funcBits (mkR o v dst a b c p md fn) lo n = fn.toNat / 2 ^ lo % 2 ^ n := by
  simp [funcBits]

end

section
variable {o dst a b c : BitVec 8} {v p md ix : BitVec 4} {fn : BitVec 12} {imm : Word} {w : DWord}

theorem eq_mkR (h : mkR o v dst a b c p md fn = w) : w = mkR o v dst a b c p md fn := h.symm
theorem eq_mkI (h : mkI o v dst a ix imm = w) : w = mkI o v dst a ix imm := h.symm
theorem fOpc_of_mkR (h : mkR o v dst a b c p md fn = w) : fOpc w = o := h ▸ fOpc_mkR ..
theorem fOpc_of_mkI (h : mkI o v dst a ix imm = w) : fOpc w = o := h ▸ fOpc_mkI ..
theorem fOpc_of_eRI {n : Nat} {q : Pred} {d : Reg} {x : Src} {y : Opb} (h : eRI o n q d x y md fn = w) :
    fOpc w = o := h ▸ fOpc_eRI ..

end

/-! ### Operand codes (R104 to R106) -/

@[simp] theorem Dec.ok_bind {α β : Type} (x : α) (f : α → Dec β) : (Except.ok x >>= f : Dec β) = f x := rfl
@[simp] theorem Dec.pure_eq_ok {α : Type} (x : α) : (pure x : Dec α) = .ok x := rfl

theorem toNat_eSrc (a : Src) : (eSrc a).toNat = match a with | .v i => i.val | .s i => 128 + i.val | .k i => 208 + i.val := by
  cases a <;> simp only [eSrc, BitVec.toNat_ofNat] <;> omega

theorem toNat_eReg (d : Reg) : (eReg d).toNat = match d with | .v i => i.val | .s i => 128 + i.val := by
  cases d <;> simp only [eReg, BitVec.toNat_ofNat] <;> omega

@[simp] theorem dSrc_eSrc {R n : Nat} {a : Src} (h : a.ok R n = true) : dSrc R n (eSrc a) = .ok a := by
  cases a with
  | v i => simp_all [Src.ok, dSrc, toNat_eSrc]
  | s i => simp_all [Src.ok, dSrc, toNat_eSrc]; omega
  | k i =>
    have hi : ¬ 208 + i.val < 128 ∧ ¬ 208 + i.val < 192 ∧ 208 + i.val < 240 := by omega
    simp [dSrc, toNat_eSrc, hi]

@[simp] theorem dReg_eReg {R n : Nat} {d : Reg} (h : d.ok R n = true) : dReg R n (eReg d) = .ok d := by
  cases d with
  | v i => simp_all [Reg.ok, dReg, toNat_eReg]
  | s i => simp_all [Reg.ok, dReg, toNat_eReg]; omega

@[simp] theorem dRec_eRec (r : DReg) : dRec (eRec r) = .ok r := by revert r; decide
@[simp] theorem dBit_eBit (c : CBit) : dBit (eBit c) = .ok c := by revert c; decide
@[simp] theorem z_zero {n : Nat} : z (0#n) = .ok () := by simp [z, rsv]

section
variable {o dst a b c : BitVec 8} {v md ix : BitVec 4} {fn : BitVec 12} {imm : Word}

@[simp] theorem dPred_mkR (p : Pred) : dPred (mkR o v dst a b c (ePred p) md fn) = .ok p := by
  unfold dPred
  rw [fPred_mkR]
  cases p with
  | always => rfl
  | on s q => revert s q; decide

end

/-! ### Variants (R121) -/

section
variable {o dst a b c : BitVec 8} {p md ix : BitVec 4} {fn : BitVec 12} {imm : Word}

@[simp] theorem vIV_mkR (t : ITy) : vIV (mkR o (b4 t.code) dst a b c p md fn) = .ok (t, false) := by
  unfold vIV; rw [fVar_mkR]; cases t <;> rfl
@[simp] theorem vIV_mkI (t : ITy) : vIV (mkI o (b4 (8 + t.code)) dst a ix imm) = .ok (t, true) := by
  unfold vIV; rw [fVar_mkI]; cases t <;> rfl
@[simp] theorem vIR_mkR (t : ITy) : vIR (mkR o (b4 t.code) dst a b c p md fn) = .ok t := by
  unfold vIR; rw [fVar_mkR]; cases t <;> rfl
@[simp] theorem vBV_mkR (t : Bool) : vBV (mkR o (b4 (bcode t)) dst a b c p md fn) = .ok (t, false) := by
  unfold vBV; rw [fVar_mkR]; cases t <;> rfl
@[simp] theorem vBV_mkI (t : Bool) : vBV (mkI o (b4 (8 + bcode t)) dst a ix imm) = .ok (t, true) := by
  unfold vBV; rw [fVar_mkI]; cases t <;> rfl
@[simp] theorem vBR_mkR (t : Bool) : vBR (mkR o (b4 (bcode t)) dst a b c p md fn) = .ok t := by
  unfold vBR; rw [fVar_mkR]; cases t <;> rfl
@[simp] theorem vFV_mkR (t : FTy) : vFV (mkR o (b4 t.code) dst a b c p md fn) = .ok (t, false) := by
  unfold vFV; rw [fVar_mkR]; cases t <;> rfl
/-- The I form stands for .f32 only (R121). -/
@[simp] theorem vFV_mkI : vFV (mkI o (b4 (8 + FTy.f32.code)) dst a ix imm) = .ok (.f32, true) := by
  unfold vFV; rw [fVar_mkI]; rfl
@[simp] theorem vFR_mkR (t : FTy) : vFR (mkR o (b4 t.code) dst a b c p md fn) = .ok t := by
  unfold vFR; rw [fVar_mkR]; cases t <;> rfl
@[simp] theorem vIs_mkR : vIs (mkR o 0#4 dst a b c p md fn) 0 = .ok () := by
  unfold vIs; rw [fVar_mkR]; rfl
@[simp] theorem vIs_mkI : vIs (mkI o 8#4 dst a ix imm) 8 = .ok () := by
  unfold vIs; rw [fVar_mkI]; rfl
@[simp] theorem v01_mkR (t : Bool) : v01 (mkR o (b4 (nb t 1)) dst a b c p md fn) = .ok t := by
  unfold v01; rw [fVar_mkR]; cases t <;> rfl
@[simp] theorem v01_mkR_zero : v01 (mkR o 0#4 dst a b c p md fn) = .ok false := v01_mkR false
@[simp] theorem v01_mkR_one : v01 (mkR o 1#4 dst a b c p md fn) = .ok true := v01_mkR true
@[simp] theorem vLTy_mkR (t : LTy) : vLTy (mkR o (b4 t.code) dst a b c p md fn) = .ok t := by
  unfold vLTy; rw [fVar_mkR]; cases t <;> rfl
@[simp] theorem vATy_mkR (t : ATy) : vATy (mkR o (b4 t.code) dst a b c p md fn) = .ok t := by
  unfold vATy; rw [fVar_mkR]; cases t <;> rfl

end

/-! ### MOD: rounding mode, .sat and bit 12 (R103) -/

section
variable {o dst a b c : BitVec 8} {v p : BitVec 4} {fn : BitVec 12}

@[simp] theorem rmOf_mkR (rm : Rm) (sat x : Bool) : rmOf (mkR o v dst a b c p (eMod rm sat x) fn) = rm := by
  unfold rmOf; rw [fMod_mkR]; cases rm <;> cases sat <;> cases x <;> rfl
@[simp] theorem satOf_mkR (rm : Rm) (sat x : Bool) : satOf (mkR o v dst a b c p (eMod rm sat x) fn) = sat := by
  unfold satOf; rw [fMod_mkR]; cases rm <;> cases sat <;> cases x <;> rfl
@[simp] theorem mod12_mkR (rm : Rm) (sat x : Bool) : mod12 (mkR o v dst a b c p (eMod rm sat x) fn) = x := by
  unfold mod12; rw [fMod_mkR]; cases rm <;> cases sat <;> cases x <;> rfl

@[simp] theorem modz_mkR_zero (m : BitVec 4) : modz (mkR o v dst a b c p 0#4 fn) m = .ok () := by
  simp [modz, rsv]

/-- MOD keeps to its mask where the mask has the bits of what is set. -/
@[simp] theorem modz_mkR {rm : Rm} {sat x : Bool} {m : BitVec 4} (hr : rm = .rn ∨ m.extractLsb' 2 2 = 3)
    (hs : sat = false ∨ m.getLsbD 1 = true) (hx : x = false ∨ m.getLsbD 0 = true) :
    modz (mkR o v dst a b c p (eMod rm sat x) fn) m = .ok () := by
  have h : ∀ m : BitVec 4, (rm = .rn ∨ m.extractLsb' 2 2 = 3) → (sat = false ∨ m.getLsbD 1 = true) →
      (x = false ∨ m.getLsbD 0 = true) → eMod rm sat x &&& ~~~m = 0 := by
    clear hr hs hx
    cases rm <;> cases sat <;> cases x <;> decide
  simp [modz, rsv, h m hr hs hx]

end

/-! ### FUNC (R103) -/

section
variable {o dst a b c : BitVec 8} {v p md : BitVec 4}

theorem funz_mkR {fn m : BitVec 12} (h : fn &&& ~~~m = 0) : funz (mkR o v dst a b c p md fn) m = .ok () := by
  simp [funz, rsv, h]

@[simp] theorem toNat_b4 {n : Nat} (h : n < 16) : (b4 n).toNat = n := Nat.mod_eq_of_lt h

@[simp] theorem funz_mkR_zero (m : BitVec 12) : funz (mkR o v dst a b c p md 0#12) m = .ok () := funz_mkR (by simp)

@[simp] theorem funz_mkR_one : funz (mkR o v dst a b c p md 1#12) 1#12 = .ok () := funz_mkR rfl

@[simp] theorem noMF_mkR : noMF (mkR o v dst a b c p 0#4 0#12) = .ok () := by simp [noMF]

theorem toNat_b12 {n : Nat} (h : n < 4096) : (b12 n).toNat = n := Nat.mod_eq_of_lt h

/-- A number below 2 ^ k lies within the low k bits. -/
theorem b12_and_high {n k : Nat} (h : n < 2 ^ k) : b12 n &&& ~~~(b12 (2 ^ k - 1)) = 0 := by
  refine BitVec.eq_of_getLsbD_eq fun i hi => ?_
  have hk : k ≤ i → n.testBit i = false := fun hk =>
    Nat.testBit_lt_two_pow (h.trans_le (Nat.pow_le_pow_right (by norm_num) hk))
  simp only [b12, BitVec.getLsbD_and, BitVec.getLsbD_not, BitVec.getLsbD_ofNat, Nat.testBit_two_pow_sub_one, hi,
    decide_true, Bool.true_and, BitVec.ofNat_eq_ofNat, Nat.zero_testBit, Bool.and_eq_false_imp, Bool.not_eq_false',
    decide_eq_true_eq]
  grind

/-- The low bits of FUNC, where it holds one number. -/
@[simp] theorem funcBits_b12 {n k : Nat} (h : n < 2 ^ k) (hk : k ≤ 12) :
    funcBits (mkR o v dst a b c p md (b12 n)) 0 k = n := by
  have h12 : n < 4096 := h.trans_le (Nat.pow_le_pow_right (by norm_num) hk)
  rw [funcBits_mkR, toNat_b12 h12, pow_zero, Nat.div_one, Nat.mod_eq_of_lt h]

@[simp] theorem funz_b12_3 {n : Nat} (h : n < 4) : funz (mkR o v dst a b c p md (b12 n)) 3#12 = .ok () :=
  funz_mkR (b12_and_high (k := 2) h)
@[simp] theorem funz_b12_7 {n : Nat} (h : n < 8) : funz (mkR o v dst a b c p md (b12 n)) 7#12 = .ok () :=
  funz_mkR (b12_and_high (k := 3) h)
@[simp] theorem funz_b12_15 {n : Nat} (h : n < 16) : funz (mkR o v dst a b c p md (b12 n)) 15#12 = .ok () :=
  funz_mkR (b12_and_high (k := 4) h)
@[simp] theorem funz_b12_255 {n : Nat} (h : n < 256) : funz (mkR o v dst a b c p md (b12 n)) 255#12 = .ok () :=
  funz_mkR (b12_and_high (k := 8) h)

@[simp] theorem cbitAt_val (q : CBit) : cbitAt (mkR o v dst a b c p md (b12 q.val)) 0 = q := by
  rw [cbitAt, funcBits_b12 q.isLt (by norm_num)]; exact Fin.ext (Nat.mod_eq_of_lt q.isLt)

/-! Operand modifiers (R165) -/

@[simp] theorem fmOf_zero (x y u : FMod) : fmOf (mkR o v dst a b c p md (eFm x y u)) 0 = x := by
  obtain ⟨x0, x1⟩ := x; obtain ⟨y0, y1⟩ := y; obtain ⟨u0, u1⟩ := u
  rw [fmOf, fFunc_mkR]; revert x0 x1 y0 y1 u0 u1; decide
@[simp] theorem fmOf_one (x y u : FMod) : fmOf (mkR o v dst a b c p md (eFm x y u)) 1 = y := by
  obtain ⟨x0, x1⟩ := x; obtain ⟨y0, y1⟩ := y; obtain ⟨u0, u1⟩ := u
  rw [fmOf, fFunc_mkR]; revert x0 x1 y0 y1 u0 u1; decide
@[simp] theorem fmOf_two (x y u : FMod) : fmOf (mkR o v dst a b c p md (eFm x y u)) 2 = u := by
  obtain ⟨x0, x1⟩ := x; obtain ⟨y0, y1⟩ := y; obtain ⟨u0, u1⟩ := u
  rw [fmOf, fFunc_mkR]; revert x0 x1 y0 y1 u0 u1; decide

theorem FMod.code_lt (x : FMod) : x.code < 4 := by
  obtain ⟨x0, x1⟩ := x; revert x0 x1; decide

@[simp] theorem funz_eFm_three (x y u : FMod) : funz (mkR o v dst a b c p md (eFm x y u)) 63#12 = .ok () := by
  have hx := x.code_lt; have hy := y.code_lt; have hu := u.code_lt
  exact funz_mkR (b12_and_high (k := 6) (by omega))
@[simp] theorem funz_eFm_two (x y : FMod) : funz (mkR o v dst a b c p md (eFm x y .none)) 15#12 = .ok () := by
  have hx := x.code_lt; have hy := y.code_lt
  exact funz_mkR (b12_and_high (k := 4) (by rw [show FMod.none.code = 0 from rfl]; omega))
@[simp] theorem funz_eFm_one (x : FMod) : funz (mkR o v dst a b c p md (eFm x .none .none)) 3#12 = .ok () :=
  funz_mkR (b12_and_high (k := 2) x.code_lt)

/-! ### Codes of enumerations -/

@[simp] theorem irelOf_code (x : IRel) : irelOf x.code = .ok x := by cases x <;> rfl
@[simp] theorem frelOf_code (x : FRel) : frelOf x.code = .ok x := by cases x <;> rfl
@[simp] theorem lopOf_code (x : LOp) : lopOf x.code = .ok x := by cases x <;> rfl
@[simp] theorem aopOf_code (x : AOp) : aopOf x.code = .ok x := by cases x <;> rfl
@[simp] theorem ctyOf_code (x : CTy) : ctyOf x.code = .ok x := by cases x <;> rfl
@[simp] theorem sregOf_code (x : SReg) : sregOf x.code = .ok x := by cases x <;> rfl
@[simp] theorem IRel.code_lt (x : IRel) : x.code < 16 := by cases x <;> decide
@[simp] theorem LOp.code_lt (x : LOp) : x.code < 16 := by cases x <;> decide
@[simp] theorem AOp.code_lt (x : AOp) : x.code < 16 := by cases x <;> decide
@[simp] theorem CTy.code_lt (x : CTy) : x.code < 16 := by cases x <;> decide
@[simp] theorem SReg.code_lt (x : SReg) : x.code < 256 := by cases x <;> decide

end

/-! ### FUNC of the several moulds -/

section
variable {o dst a b c : BitVec 8} {v p md : BitVec 4}

/-- CLOG: the table in FUNC [7:4], the bits in [3:2] and [1:0] (R140). -/
theorem clog_func (l : Fin 16) (x y : CBit) : let w := mkR o v dst a b c p md (b12 (x.val + 4 * y.val + 16 * l.val))
    Fin.ofNat 16 (funcBits w 4 4) = l ∧ cbitAt w 0 = x ∧ cbitAt w 2 = y ∧ funz w 255#12 = .ok () := by
  have hn : x.val + 4 * y.val + 16 * l.val < 256 := by omega
  simp only [cbitAt, funcBits_mkR, toNat_b12 (hn.trans (by norm_num)), Fin.ext_iff, Fin.val_ofNat]
  exact ⟨by omega, by omega, by omega, funz_b12_255 hn⟩

/-- A condition bit in FUNC [1:0] under a flag in FUNC [2] (R139). -/
theorem ctov_func (q : CBit) (hi : Bool) : let w := mkR o v dst a b c p md (b12 (q.val + nb hi 4))
    cbitAt w 0 = q ∧ funz w 7#12 = .ok () := by
  have hq : ∀ (q : CBit) (hi : Bool), q.val + nb hi 4 < 8 ∧ (q.val + nb hi 4) % 4 = q.val := by decide
  obtain ⟨h1, h2⟩ := hq q hi
  refine ⟨?_, funz_b12_7 h1⟩
  simp only [cbitAt, funcBits_mkR, toNat_b12 (h1.trans (by norm_num)), Fin.ext_iff, Fin.val_ofNat]
  omega
@[simp] theorem ctov_flag (q : CBit) (hi : Bool) : (b12 (q.val + nb hi 4))[2] = hi := by revert q hi; decide
@[simp] theorem vtoc_flag (hi : Bool) : (b12 (nb hi 4))[2] = hi := by cases hi <;> rfl
@[simp] theorem funz_vtoc (hi : Bool) : funz (mkR o v dst a b c p md (b12 (nb hi 4))) 4#12 = .ok () := by
  cases hi <;> exact funz_mkR rfl

/-- WVOTE: the mode in FUNC [3:2] (R151). -/
theorem wvote_func {n m : Nat} (q : CBit) (hn : n = q.val + 4 * m) (hm : m < 4) :
    let w := mkR o v dst a b c p md (b12 n)
    funcBits w 2 2 = m ∧ cbitAt w 0 = q ∧ funz w 15#12 = .ok () := by
  have h : n < 16 := by omega
  simp only [cbitAt, funcBits_mkR, toNat_b12 (h.trans (by norm_num)), Fin.ext_iff, Fin.val_ofNat]
  exact ⟨by omega, by omega, funz_b12_15 h⟩

/-- FCMP: the relation in FUNC [9:6] over the modifiers of two operands (R171). -/
theorem fcmp_func (rel : FRel) (x y : FMod) : let w := mkR o v dst a b c p md (b12 (x.code + 4 * y.code + 64 * rel.code))
    frelOf (funcBits w 6 4) = .ok rel ∧ fmOf w 0 = x ∧ fmOf w 1 = y ∧ funz w 0x3CF#12 = .ok () := by
  obtain ⟨x0, x1⟩ := x; obtain ⟨y0, y1⟩ := y
  simp only [funcBits_mkR, fmOf, fFunc_mkR]
  refine ⟨?_, ?_, ?_, funz_mkR ?_⟩ <;> revert x0 x1 y0 y1 <;> cases rel <;> decide

/-- The object mould: slot, condition bit and FUNC [7] (R238). -/
@[simp] theorem slotOf_eObj (k : CBit) (sl : Slot) (x : Bool) : slotOf (mkR o v dst a b c p md (eObj k sl x)) = sl := by
  simp only [slotOf, funcBits_mkR]; revert k sl x; decide
@[simp] theorem kbit3_eObj (k : CBit) (sl : Slot) (x : Bool) : kbit3 (mkR o v dst a b c p md (eObj k sl x)) = k := by
  simp only [kbit3, cbitAt, funcBits_mkR]; revert k sl x; decide
@[simp] theorem eObj_flag (k : CBit) (sl : Slot) (x : Bool) : (eObj k sl x)[7] = x := by revert k sl x; decide
@[simp] theorem funz_eObj (k : CBit) (sl : Slot) (x : Bool) :
    funz (mkR o v dst a b c p md (eObj k sl x)) 255#12 = .ok () := funz_mkR (by revert k sl x; decide)
@[simp] theorem funz_eObj_false (k : CBit) (sl : Slot) :
    funz (mkR o v dst a b c p md (eObj k sl false)) 127#12 = .ok () := funz_mkR (by revert k sl; decide)

/-- FUNC [11:10] over the low bits. -/
theorem toNat_eK {n : Nat} (k : CBit) (h : n < 1024) : (eK k n).toNat = 1024 * k.val + n := toNat_b12 (by omega)
theorem khi_eK {n : Nat} (k : CBit) (h : n < 1024) : khi (mkR o v dst a b c p md (eK k n)) = k := by
  simp only [khi, cbitAt, funcBits_mkR, toNat_eK k h, Fin.ext_iff, Fin.val_ofNat]; omega
theorem funcBits_eK {n lo m : Nat} (k : CBit) (h : n < 1024) (hm : lo + m ≤ 10) :
    funcBits (mkR o v dst a b c p md (eK k n)) lo m = n / 2 ^ lo % 2 ^ m := by
  have hpow : 1024 = 2 ^ lo * (2 ^ m * 2 ^ (10 - lo - m)) := by
    rw [← pow_add, ← pow_add, show lo + (m + (10 - lo - m)) = 10 by omega]; rfl
  rw [funcBits_mkR, toNat_eK k h, hpow, mul_assoc, mul_assoc, Nat.mul_add_div (by positivity), Nat.mul_add_mod]

theorem KSlice.code_lt (x : KSlice) : x.code < 4 := by cases x <;> decide

/-- KSTAT: the slice in FUNC [1:0], the counter in [3:2] (R336). -/
theorem kstat_func (k : CBit) (sl : KSlice) (kd : Fin 4) :
    let w := mkR o v dst a b c p md (eK k (sl.code + 4 * kd.val))
    funcBits w 0 2 = sl.code ∧ Fin.ofNat 4 (funcBits w 2 2) = kd ∧ khi w = k ∧ funz w 0xC0F#12 = .ok () := by
  have hs := sl.code_lt
  have hn : sl.code + 4 * kd.val < 1024 := by omega
  refine ⟨?_, ?_, khi_eK k hn, funz_mkR ?_⟩
  · rw [funcBits_eK k hn (by norm_num)]; omega
  · rw [funcBits_eK k hn (by norm_num)]; exact Fin.ext (by simp only [Fin.val_ofNat]; omega)
  · clear hs hn; cases sl <;> revert k kd <;> decide

/-- A tile of Glaze in FUNC [3:0], under the selector in FUNC [7:6]. -/
theorem tile_func {n m : Nat} (k : CBit) (t : Fin 16) (ht : n % 16 = t.val) (hm : n / 64 = m) (h : m < 4) :
    let w := mkR o v dst a b c p md (eK k n)
    khi w = k ∧ Fin.ofNat 16 (funcBits w 0 4) = t ∧ funcBits w 6 2 = m := by
  refine ⟨khi_eK k (by omega), ?_, ?_⟩
  · rw [funcBits_eK k (by omega) (by norm_num)]; exact Fin.ext (by simp only [Fin.val_ofNat]; omega)
  · rw [funcBits_eK k (by omega) (by norm_num)]; omega

@[simp] theorem khi_eK_zero (k : CBit) : khi (mkR o v dst a b c p md (eK k 0)) = k := khi_eK k (by norm_num)
@[simp] theorem funz_eK_zero (k : CBit) : funz (mkR o v dst a b c p md (eK k 0)) 0xC00#12 = .ok () :=
  funz_mkR (by revert k; decide)
@[simp] theorem funz_eK_64 (k : CBit) : funz (mkR o v dst a b c p md (eK k 64)) 0xC40#12 = .ok () :=
  funz_mkR (by revert k; decide)
@[simp] theorem funz_eK_128 (k : CBit) (t : Fin 16) : funz (mkR o v dst a b c p md (eK k (128 + t.val))) 0xC8F#12 = .ok () :=
  funz_mkR (by revert k t; decide)
@[simp] theorem funz_eK_192 (k : CBit) (t : Fin 16) : funz (mkR o v dst a b c p md (eK k (192 + t.val))) 0xCCF#12 = .ok () :=
  funz_mkR (by revert k t; decide)
@[simp] theorem funz_eK_tile (k : CBit) (t : Fin 16) : funz (mkR o v dst a b c p md (eK k t.val)) 0xC0F#12 = .ok () :=
  funz_mkR (by revert k t; decide)

/-- A tile under a flag in FUNC [4]. -/
@[simp] theorem tile_flag (k : CBit) (t : Fin 16) (x : Bool) : (eK k (t.val + nb x 16))[4] = x := by
  revert k t x; decide
@[simp] theorem funz_tile_flag (k : CBit) (t : Fin 16) (x : Bool) :
    funz (mkR o v dst a b c p md (eK k (t.val + nb x 16))) 0xC1F#12 = .ok () := funz_mkR (by revert k t x; decide)

/-- GCLIP: pop and reset by FUNC [4]. -/
@[simp] theorem clip_flag (k : CBit) (t : Fin 16) : (eK k t.val)[4] = false ∧ (eK k (16 + t.val))[4] = true := by
  revert k t; decide
@[simp] theorem funz_clip (k : CBit) (t : Fin 16) : funz (mkR o v dst a b c p md (eK k t.val)) 0xC1F#12 = .ok () ∧
    funz (mkR o v dst a b c p md (eK k (16 + t.val))) 0xC1F#12 = .ok () :=
  ⟨funz_mkR (by revert k t; decide), funz_mkR (by revert k t; decide)⟩

/-- GCOV: a path or the whole buffer by FUNC [4]. -/
@[simp] theorem cov_flag (k : CBit) : (eK k 0)[4] = false ∧ (eK k 16)[4] = true := by revert k; decide
@[simp] theorem funz_cov (k : CBit) : funz (mkR o v dst a b c p md (eK k 0)) 0xC10#12 = .ok () ∧
    funz (mkR o v dst a b c p md (eK k 16)) 0xC10#12 = .ok () :=
  ⟨funz_mkR (by revert k; decide), funz_mkR (by revert k; decide)⟩

/-- PMC: the counter in FUNC [3:0], .clr in [4] (R364). -/
@[simp] theorem pmc_func (n : Fin 9) (x : Bool) : let w := mkR o v dst a b c p md (b12 (n.val + nb x 16))
    funcBits w 0 4 = n.val ∧ funz w 0x1F#12 = .ok () := by
  have h : n.val + nb x 16 < 32 ∧ (n.val + nb x 16) % 16 = n.val := by revert n x; decide
  refine ⟨?_, funz_mkR (b12_and_high (k := 5) h.1)⟩
  rw [funcBits_mkR, toNat_b12 (by omega)]; omega
@[simp] theorem pmc_flag (n : Fin 9) (x : Bool) : (b12 (n.val + nb x 16))[4] = x := by revert n x; decide

/-- A code in FUNC [7:0]. -/
@[simp] theorem funz_setWidth (code : BitVec 8) : funz (mkR o v dst a b c p md (code.setWidth 12)) 255#12 = .ok () :=
  funz_mkR (by
    rw [show code.setWidth 12 = b12 code.toNat by simp [b12, BitVec.ofNat_toNat]]
    exact b12_and_high (k := 8) code.isLt)

end

/-! ### Shapes (R103) -/

section
variable {o : BitVec 8} {v md : BitVec 4} {fn : BitVec 12} {R nd na nb nc : Nat} {p : Pred} {d : Reg} {x y u : Src} {r : DReg}

@[simp] theorem s0_mkR (hd : d.ok R nd = true) :
    s0 R nd (mkR o v (eReg d) 0#8 0#8 0#8 (ePred p) md fn) = .ok (p, d) := by simp [s0, hd]
@[simp] theorem s1_mkR (hd : d.ok R nd = true) (hx : x.ok R na = true) :
    s1 R nd na (mkR o v (eReg d) (eSrc x) 0#8 0#8 (ePred p) md fn) = .ok (p, d, x) := by simp [s1, hd, hx]
@[simp] theorem s2_mkR (hd : d.ok R nd = true) (hx : x.ok R na = true) (hy : y.ok R nb = true) :
    s2 R nd na nb (mkR o v (eReg d) (eSrc x) (eSrc y) 0#8 (ePred p) md fn) = .ok (p, d, x, y) := by simp [s2, hd, hx, hy]
@[simp] theorem s3_mkR (hd : d.ok R nd = true) (hx : x.ok R na = true) (hy : y.ok R nb = true) (hu : u.ok R nc = true) :
    s3 R nd na nb nc (mkR o v (eReg d) (eSrc x) (eSrc y) (eSrc u) (ePred p) md fn) = .ok (p, d, x, y, u) := by
  simp [s3, hd, hx, hy, hu]
@[simp] theorem sMem_mkR {dst : BitVec 8} (hy : y.ok R 1 = true) (hu : u.ok R 1 = true) :
    sMem R (mkR o v dst (eRec r) (eSrc y) (eSrc u) (ePred p) md fn) = .ok (p, r, y, u) := by simp [sMem, hy, hu]
@[simp] theorem sA_mkR (hx : x.ok R na = true) :
    sA R na (mkR o v 0#8 (eSrc x) 0#8 0#8 (ePred p) md fn) = .ok (p, x) := by simp [sA, hx]
@[simp] theorem sP_mkR : sP (mkR o v 0#8 0#8 0#8 0#8 (ePred p) md fn) = .ok p := by simp [sP]

end

/-! A conjunction of checks by its parts -/

theorem of_and3 {x y u : Bool} (h : (x && y && u) = true) : x = true ∧ y = true ∧ u = true := by simp_all
theorem of_and4 {x y u t : Bool} (h : (x && y && u && t) = true) : x = true ∧ y = true ∧ u = true ∧ t = true := by simp_all
theorem of_and5 {x y u t s : Bool} (h : (x && y && u && t && s) = true) :
    x = true ∧ y = true ∧ u = true ∧ t = true ∧ s = true := by simp_all

/-- BRC: the bit in IX [1:0], its sense in IX [2] (R153). -/
theorem brc_ix (c : CBit) (s : Bool) : let n := (b4 (c.val + nb s 4)).toNat
    n < 8 ∧ Fin.ofNat 4 (n % 4) = c ∧ (n / 4 % 2 == 1) = s := by revert c s; decide

/-! ### Class 0 (R122) -/

section
variable {o : BitVec 8} {R : Nat} {p : Pred} {d : Reg} {x : Src} {y : Opb}

theorem dArith_eRI {t : ITy} {sat : Bool} {mk : ITy → Bool → Pred → Reg → Src → Opb → Instr}
    (h : (d.ok R t.n && x.ok R t.n && y.ok R t.n p && !(y.isImm && sat)) = true) :
    dArith R (eRI o t.code p d x y (eMod .rn sat false) 0) mk = .ok (mk t sat p d x y) := by
  cases y <;> simp_all [dArith, eRI, sRI, iz, Opb.ok, Opb.isImm]

theorem dMinMax_eRI {t : ITy} {mk : ITy → Pred → Reg → Src → Opb → Instr}
    (h : (d.ok R t.n && x.ok R t.n && y.ok R t.n p) = true) :
    dMinMax R (eRI o t.code p d x y 0 0) mk = .ok (mk t p d x y) := by
  cases y <;> simp_all [dMinMax, eRI, sRI, iz, Opb.ok]

theorem dLogic_eRI {w sh : Bool} {mk : Bool → Pred → Reg → Src → Opb → Instr}
    (h : (d.ok R (wn w) && x.ok R (wn w) && y.ok R (if sh then 1 else wn w) p) = true) :
    dLogic R (eRI o (bcode w) p d x y 0 0) sh mk = .ok (mk w p d x y) := by
  cases y <;> simp_all [dLogic, eRI, sRI, iz, Opb.ok]

theorem FMod.eq_none {m : FMod} (h : m.off = true) : m = ⟨false, false⟩ := by
  obtain ⟨n, a⟩ := m
  simp_all [FMod.off]

/-- An I form is plain: .f32, to nearest, no modifier (R121, R165, R166). -/
theorem Opb.plain_imm {i : Word} {t : FTy} {rm : Rm} {sat : Bool} {ma mb : FMod}
    (h : (Opb.imm i).plain t rm sat ma mb = true) :
    t = .f32 ∧ rm = .rn ∧ sat = false ∧ ma = ⟨false, false⟩ ∧ mb = ⟨false, false⟩ := by
  simp only [Opb.plain, Opb.isImm, Bool.not_true, Bool.false_or, Bool.and_eq_true, decide_eq_true_eq,
    Bool.not_eq_true'] at h
  obtain ⟨⟨⟨⟨ht, hr⟩, hs⟩, ha⟩, hb⟩ := h
  exact ⟨ht, hr, hs, FMod.eq_none ha, FMod.eq_none hb⟩

theorem dF2_eRI {t : FTy} {rm : Rm} {sat : Bool} {ma mb : FMod}
    {mk : FTy → Rm → Bool → FMod → FMod → Pred → Reg → Src → Opb → Instr}
    (h : (d.ok R 1 && x.ok R 1 && y.ok R 1 p && y.plain t rm sat ma mb) = true) :
    dF2 R (eRI o t.code p d x y (eMod rm sat false) (eFm ma mb .none)) true mk = .ok (mk t rm sat ma mb p d x y) := by
  obtain ⟨hd, hx, hy, hp⟩ := of_and4 h
  cases y with
  | src z => simp_all [dF2, eRI, sRI, iz, Opb.ok]
  | imm i =>
    obtain ⟨rfl, rfl, rfl, rfl, rfl⟩ := Opb.plain_imm hp
    simp_all [dF2, eRI, sRI, iz, Opb.ok]

/-- FMIN and its kin take no rounding mode and no .sat. -/
theorem dF2_eRI_compare {t : FTy} {ma mb : FMod} {mk : FTy → FMod → FMod → Pred → Reg → Src → Opb → Instr}
    (h : (d.ok R 1 && x.ok R 1 && y.ok R 1 p && y.plain t .rn false ma mb) = true) :
    dF2 R (eRI o t.code p d x y 0 (eFm ma mb .none)) false (fun t _ _ ma mb => mk t ma mb) = .ok (mk t ma mb p d x y) := by
  obtain ⟨hd, hx, hy, hp⟩ := of_and4 h
  cases y with
  | src z => simp_all [dF2, eRI, sRI, iz, Opb.ok]
  | imm i =>
    obtain ⟨rfl, -, -, rfl, rfl⟩ := Opb.plain_imm hp
    simp_all [dF2, eRI, sRI, iz, Opb.ok]

end

theorem LOp.rn_of_not_rounds {op : LOp} {t : LTy} {rm : Rm} (h : (decide (rm = .rn) || op.rounds t) = true)
    (hx : op.rounds t = false) : rm = .rn := by simpa [hx] using h
theorem decode0_encode {R : Nat} {i : Instr} (h : i.wf R = true) (hc : i.cls = some 0) : decode0 R (encode i) = .ok i := by
  generalize hw : encode i = w
  unfold decode0
  cases i with
  | iadd | isub | imul => rw [fOpc_of_eRI hw, ← hw]; exact dArith_eRI h
  | imulh sg p d a b =>
    rw [fOpc_of_mkR hw]; show v01 w >>= _ = _; simp [eq_mkR hw, of_and3 h]
  | imad t sat p d a b c =>
    rw [fOpc_of_mkR hw]; show vIR w >>= _ = _; simp [eq_mkR hw, of_and4 h]
  | imin | imax => rw [fOpc_of_eRI hw, ← hw]; exact dMinMax_eRI h
  | iabs | ineg =>
    rw [fOpc_of_mkR hw]; show dAbs R w _ = _; simp [dAbs, eq_mkR hw, Bool.and_eq_true_iff.1 h]
  | and | or | xor | andn | shl | shr | sar | rotl => rw [fOpc_of_eRI hw, ← hw]; exact dLogic_eRI h
  | not | popc | clz | ctz | brev =>
    rw [fOpc_of_mkR hw]; show dUn R w _ _ = _; simp [dUn, eq_mkR hw, Bool.and_eq_true_iff.1 h]
  | bfx t p d a b =>
    rw [fOpc_of_mkR hw]; show _ >>= _ = _; cases t <;> simp [eq_mkR hw, of_and3 h, b4]
  | bfi t p d a b c =>
    rw [fOpc_of_mkR hw]; show vBR w >>= _ = _; simp [eq_mkR hw, of_and4 h]
  | permb p d a b c =>
    rw [fOpc_of_mkR hw]; show vIs w 0 >>= _ = _; simp [eq_mkR hw, of_and4 h]
  | icmp t rel p c a b =>
    obtain ⟨ha, hb⟩ := Bool.and_eq_true_iff.1 h
    cases b with
    | src x =>
      have hx : x.ok R t.n = true := hb
      rw [fOpc_of_mkR hw]; show vIV w >>= _ = _; simp [eq_mkR hw, ha, hx]
    | imm x =>
      have hp : p = .always := of_decide_eq_true hb
      rw [fOpc_of_mkI hw]; show vIV w >>= _ = _; simp [eq_mkI hw, ha, hp]
  | sel t q p d a b =>
    rw [fOpc_of_mkR hw]; show vBR w >>= _ = _; simp [eq_mkR hw, of_and3 h]
  | mov t p d a =>
    rw [fOpc_of_mkR hw]; show _ >>= _ = _; cases t <;> simp [eq_mkR hw, Bool.and_eq_true_iff.1 h, b4, MovW.code]
  | movi t d x =>
    have hd : d.ok R (wn t) = true := h
    rw [fOpc_of_mkI hw]; show _ >>= _ = _; cases t <;> simp [eq_mkI hw, hd, b4, bcode]
  | movw d a x =>
    rw [fOpc_of_mkI hw]; show vIs w 8 >>= _ = _; simp [eq_mkI hw, Bool.and_eq_true_iff.1 h]
  | clog l p c a b =>
    rw [fOpc_of_mkR hw]; show vIs w 0 >>= _ = _; simp [-Fin.ofNat_eq_cast, eq_mkR hw, clog_func l a b]
  | ctov hi q p d =>
    have hd : d.ok R 2 = true := h
    rw [fOpc_of_mkR hw]; show vIs w 0 >>= _ = _; simp [eq_mkR hw, hd, ctov_func q hi]
  | vtoc hi p c a =>
    have ha : a.ok R 2 = true := h
    rw [fOpc_of_mkR hw]; show vIs w 0 >>= _ = _; simp [eq_mkR hw, ha]
  | t3pk | t3un =>
    rw [fOpc_of_mkR hw]; show vIs w 0 >>= _ = _; simp [eq_mkR hw, Bool.and_eq_true_iff.1 h]
  | wshfl m p d a b u =>
    rw [fOpc_of_mkR hw]; show _ >>= _ = _; cases m <;> simp [eq_mkR hw, of_and4 h, b4, Shfl.code]
  | wbcast t p d a b u =>
    rw [fOpc_of_mkR hw]; show vBR w >>= _ = _; simp [eq_mkR hw, of_and4 h]
  | wred op t rm p d a m =>
    obtain ⟨hl, hr, hd, ha, hm⟩ := of_and5 h
    rw [fOpc_of_mkR hw]; show vLTy w >>= _ = _
    cases hx : op.rounds t with
    | true => simp [eq_mkR hw, hl, hd, ha, hm, opChk, hx]
    | false => simp [eq_mkR hw, hl, hd, ha, hm, opChk, LOp.rn_of_not_rounds hr hx]
  | wscan op t rm ex p d a m =>
    obtain ⟨hl, hr, hd, ha, hm⟩ := of_and5 h
    rw [fOpc_of_mkR hw]; show vLTy w >>= _ = _
    cases hx : op.rounds t with
    | true => simp [eq_mkR hw, hl, hd, ha, hm, opChk, hx]
    | false => simp [eq_mkR hw, hl, hd, ha, hm, opChk, hx, LOp.rn_of_not_rounds hr hx]
  | wvote v q p m =>
    obtain ⟨hm, hv⟩ := Bool.and_eq_true_iff.1 h
    cases v with
    | all c =>
      rw [fOpc_of_mkR hw]; show vIs w 0 >>= _ = _; simp [eq_mkR hw, hm, wvote_func (n := q.val) q (m := 0) rfl (by norm_num)]
    | any c =>
      rw [fOpc_of_mkR hw]; show vIs w 0 >>= _ = _; simp [eq_mkR hw, hm, wvote_func q (m := 1) rfl (by norm_num)]
    | uni c =>
      rw [fOpc_of_mkR hw]; show vIs w 0 >>= _ = _; simp [eq_mkR hw, hm, wvote_func q (m := 2) rfl (by norm_num)]
    | ballot d =>
      have hd : d.ok R 2 = true := hv
      rw [fOpc_of_mkR hw]; show vIs w 0 >>= _ = _; simp [eq_mkR hw, hm, hd, wvote_func q (m := 3) rfl (by norm_num)]
  | wmatch t p d a m =>
    rw [fOpc_of_mkR hw]; show vBR w >>= _ = _; simp [eq_mkR hw, of_and3 h]
  | fadd | fsub | fmul => rw [fOpc_of_eRI hw, ← hw]; exact dF2_eRI h
  | ffma t rm sat ma mb mc p d a b c =>
    rw [fOpc_of_mkR hw]; show vFR w >>= _ = _; simp [eq_mkR hw, of_and4 h]
  | fmin | fmax | fminn | fmaxn => rw [fOpc_of_eRI hw, ← hw]; exact dF2_eRI_compare h
  | fcmp t rel ma mb p c a b =>
    rw [fOpc_of_mkR hw]; show vFR w >>= _ = _; simp [eq_mkR hw, Bool.and_eq_true_iff.1 h, fcmp_func rel ma mb]
  | fclass t ma p d a =>
    rw [fOpc_of_mkR hw]; show vFR w >>= _ = _; simp [eq_mkR hw, Bool.and_eq_true_iff.1 h]
  | frnd t rm ma p d a =>
    rw [fOpc_of_mkR hw]; show vFR w >>= _ = _; simp [eq_mkR hw, Bool.and_eq_true_iff.1 h]
  | frcp | frsq | fsqrt | fexp2 | flog2 | fsin | fcos =>
    rw [fOpc_of_mkR hw]; show dF1 R w _ _ = _; simp [dF1, eq_mkR hw, Bool.and_eq_true_iff.1 h]
  | hadd2 | hmul2 | badd2 | hmin2 | hmax2 =>
    rw [fOpc_of_mkR hw]; show dH2 R w _ _ = _; simp [dH2, eq_mkR hw, of_and3 h]
  | hfma2 | bfma2 =>
    rw [fOpc_of_mkR hw]; show dH3 R w _ = _; simp [dH3, eq_mkR hw, of_and4 h]
  | vdot8 =>
    rw [fOpc_of_mkR hw]; show vIs w 0 >>= _ = _; simp [eq_mkR hw, of_and4 h]
  | cvt td ts rm sat p d a =>
    obtain ⟨hs, hd, ha⟩ := of_and3 h
    rw [fOpc_of_mkR hw]; show ctyOf _ >>= _ = _
    cases hx : td.satOk ts with
    | true => simp [eq_mkR hw, hd, ha, hx]
    | false =>
      obtain rfl : sat = false := by simpa [hx] using hs
      simp [eq_mkR hw, hd, ha, hx]
  | pack2 =>
    rw [fOpc_of_mkR hw]; show v01 w >>= _ = _; simp [eq_mkR hw, of_and3 h]
  | okey =>
    rw [fOpc_of_mkR hw]; show v01 w >>= _ = _; simp [eq_mkR hw, of_and3 h]
  | _ => cases hc

/-! ### Class 1 (R124) -/

theorem dAtom_mkR {o : BitVec 8} {R : Nat} {op : AOp} {t : ATy} {p : Pred} {d : Reg} {r : DReg} {x c : Src}
    {mk : AOp → ATy → Pred → Reg → DReg → Src → Src → Instr}
    (h : (op.legal t && d.ok R t.n && x.ok R 1 && c.ok R (op.cn t)) = true) :
    dAtom R (mkR o (b4 t.code) (eReg d) (eRec r) (eSrc x) (eSrc c) (ePred p) 0 (b12 op.code)) mk = .ok (mk op t p d r x c) := by
  simp [dAtom, of_and4 h, opChk]

theorem decode1_encode {R : Nat} {i : Instr} (h : i.wf R = true) (hc : i.cls = some 1) : decode1 R (encode i) = .ok i := by
  generalize hw : encode i = w
  unfold decode1
  cases i with
  | ld t p d r i j =>
    rw [fOpc_of_mkR hw]; show _ >>= _ = _; cases t <;> simp [eq_mkR hw, of_and3 h, b4, LdW.code]
  | st t p c r i j =>
    rw [fOpc_of_mkR hw]; show _ >>= _ = _; cases t <;> simp [eq_mkR hw, of_and3 h, b4, StW.code]
  | pref l p r i j =>
    rw [fOpc_of_mkR hw]; show vIs w 0 >>= _ = _; cases l <;> simp [eq_mkR hw, Bool.and_eq_true_iff.1 h, PfLvl.code]
  | lock =>
    rw [fOpc_of_mkR hw]; show vIs w 0 >>= _ = _; simp [eq_mkR hw, of_and3 h]
  | unlock | dmk =>
    rw [fOpc_of_mkR hw]; show vIs w 0 >>= _ = _; simp [eq_mkR hw, Bool.and_eq_true_iff.1 h]
  | dld p d a =>
    have ha : a.ok R 1 = true := h
    rw [fOpc_of_mkR hw]; show vIs w 0 >>= _ = _; simp [eq_mkR hw, ha]
  | dget n p d r =>
    have hd : d.ok R 1 = true := h
    rw [fOpc_of_mkR hw]; show vIs w 0 >>= _ = _; simp [eq_mkR hw, hd]
  | dset n p d a =>
    have ha : a.ok R 1 = true := h
    rw [fOpc_of_mkR hw]; show vIs w 0 >>= _ = _; simp [eq_mkR hw, ha]
  | atom | satom => rw [fOpc_of_mkR hw, ← hw]; exact dAtom_mkR h
  | atomn =>
    rw [fOpc_of_mkR hw]; show vATy w >>= _ = _; simp [eq_mkR hw, of_and3 h, opChk]
  | _ => cases hc

/-! ### Class 2 (R125) -/

theorem decode2_encode {R : Nat} {i : Instr} (h : i.wf R = true) (hc : i.cls = some 2) : decode2 R (encode i) = .ok i := by
  generalize hw : encode i = w
  unfold decode2
  cases i with
  | bra off =>
    rw [fOpc_of_mkI hw]; show vIs w 8 >>= _ = _; simp [eq_mkI hw]
  | brc c s off =>
    rw [fOpc_of_mkI hw]; show vIs w 8 >>= _ = _; simp [-Fin.ofNat_eq_cast, eq_mkI hw, brc_ix c s, rsv]
  | jmpi p a | ret p a =>
    have ha : a.ok R 2 = true := h
    rw [fOpc_of_mkR hw]; show vIs w 0 >>= _ = _; simp [eq_mkR hw, ha]
  | call d off =>
    have hd : d.ok R 2 = true := h
    rw [fOpc_of_mkI hw]; show vIs w 8 >>= _ = _; simp [eq_mkI hw, hd]
  | calli =>
    rw [fOpc_of_mkR hw]; show vIs w 0 >>= _ = _; simp [eq_mkR hw, Bool.and_eq_true_iff.1 h]
  | conv p m =>
    have hm : m.ok R 2 = true := h
    rw [fOpc_of_mkR hw]; show vIs w 0 >>= _ = _; simp [eq_mkR hw, hm]
  | exit | nop | yield =>
    rw [fOpc_of_mkR hw]; show vIs w 0 >>= _ = _; simp [eq_mkR hw]
  | sleep p a =>
    have ha : a.ok R 1 = true := h
    rw [fOpc_of_mkR hw]; show vIs w 0 >>= _ = _; simp [eq_mkR hw, ha]
  | waitv =>
    rw [fOpc_of_mkR hw]; show vIs w 0 >>= _ = _; simp [eq_mkR hw, of_and3 h]
  | _ => cases hc

/-! ### Class 3 (R126) -/

theorem decode3_encode {R : Nat} {i : Instr} (h : i.wf R = true) (hc : i.cls = some 3) : decode3 R (encode i) = .ok i := by
  generalize hw : encode i = w
  unfold decode3
  cases i with
  | binit | rinit =>
    rw [fOpc_of_mkR hw]; show vIs w 0 >>= _ = _; simp [eq_mkR hw, of_and3 h]
  | barrive k sl p d | bwait k sl p d | bsync k sl p d | bdrop k sl p d | rclose k sl p d | bquery st k sl p d =>
    have hd : d.ok R _ = true := h
    rw [fOpc_of_mkR hw]; show dObj R _ w _ >>= _ = _; simp [dObj, eq_mkR hw, hd]
  | bexpect =>
    rw [fOpc_of_mkR hw]; show dObjA R w _ >>= _ = _; simp [dObjA, eq_mkR hw, Bool.and_eq_true_iff.1 h]
  | rputAcq k sl p d | rgetAcq k sl p d =>
    have hd : d.ok R 1 = true := h
    rw [fOpc_of_mkR hw]; show (if _ then _ else _) = _; simp [dObj, eq_mkR hw, hd]
  | rputPub | rgetRel =>
    rw [fOpc_of_mkR hw]; show (if _ then _ else _) = _; simp [dObjA, eq_mkR hw, Bool.and_eq_true_iff.1 h]
  | tkwait | tkpass =>
    rw [fOpc_of_mkR hw]; show vIs w 0 >>= _ = _; simp [eq_mkR hw]
  | spawn =>
    rw [fOpc_of_mkR hw]; show vIs w 0 >>= _ = _; simp [eq_mkR hw, of_and3 h]
  | bflush p a =>
    cases a with
    | none => rw [fOpc_of_mkR hw]; show vIs w 0 >>= _ = _; simp [eq_mkR hw]
    | some x =>
      have hx : x.ok R 2 = true := h
      rw [fOpc_of_mkR hw]; show vIs w 0 >>= _ = _; simp [eq_mkR hw, hx]
  | evsig p a =>
    have ha : a.ok R 1 = true := h
    rw [fOpc_of_mkR hw]; show vIs w 0 >>= _ = _; simp [eq_mkR hw, ha]
  | evtest p d a =>
    obtain ⟨ha, hd⟩ := Bool.and_eq_true_iff.1 h
    cases d with
    | bit c => rw [fOpc_of_mkR hw]; show vIs w 0 >>= _ = _; simp [eq_mkR hw, ha]
    | word r =>
      have hr : r.ok R 1 = true := hd
      rw [fOpc_of_mkR hw]; show vIs w 0 >>= _ = _; simp [eq_mkR hw, ha, hr]
  | _ => cases hc

/-! ### Classes 4 and 5 (R127) -/

theorem decode4_encode {R : Nat} {i : Instr} (h : i.wf R = true) (hc : i.cls = some 4) : decode4 R (encode i) = .ok i := by
  generalize hw : encode i = w
  unfold decode4
  cases i with
  | krsv | kload | kloop | kzero =>
    rw [fOpc_of_mkR hw]; show vIs w 0 >>= _ = _; simp [eq_mkR hw, of_and3 h]
  | krel k p d =>
    have hd : d.ok R 1 = true := h
    rw [fOpc_of_mkR hw]; show vIs w 0 >>= _ = _; simp [eq_mkR hw, hd]
  | kswap | kfid =>
    rw [fOpc_of_mkR hw]; show vIs w 0 >>= _ = _; simp [eq_mkR hw, Bool.and_eq_true_iff.1 h]
  | kdrainReg sp cl k p d a =>
    obtain ⟨hd, ha⟩ := Bool.and_eq_true_iff.1 h
    rw [fOpc_of_mkR hw]
    show (match (fVar w).toNat with | 0 => _ | 1 => _ | 2 => _ | 3 => _ | _ => _) = _
    cases sp <;> simp_all [eq_mkR hw, b4, nb]
  | kdrainMem sp cl k p d a =>
    rw [fOpc_of_mkR hw]
    show (match (fVar w).toNat with | 0 => _ | 1 => _ | 2 => _ | 3 => _ | _ => _) = _
    cases sp <;> simp [eq_mkR hw, Bool.and_eq_true_iff.1 h, b4, nb]
  | kstat sl kd k p d =>
    have hd : d.ok R 2 = true := h
    rw [fOpc_of_mkR hw]; show vIs w 0 >>= _ = _
    simp only [eq_mkR hw, BitVec.ofNat_eq_ofNat, kstat_func k sl kd]
    cases sl <;> simp [KSlice.code, hd]
  | _ => cases hc

theorem decode5_encode {R : Nat} {i : Instr} (h : i.wf R = true) (hc : i.cls = some 5) : decode5 R (encode i) = .ok i := by
  generalize hw : encode i = w
  unfold decode5
  cases i with
  | skick =>
    rw [fOpc_of_mkR hw]; show vIs w 0 >>= _ = _; simp [eq_mkR hw, of_and3 h]
  | squery | scancel =>
    rw [fOpc_of_mkR hw]; show vIs w 0 >>= _ = _; simp [eq_mkR hw, Bool.and_eq_true_iff.1 h]
  | _ => cases hc

/-! ### Class 6 (R127) -/

theorem decode6_encode {R : Nat} {i : Instr} (h : i.wf R = true) (hc : i.cls = some 6) : decode6 R (encode i) = .ok i := by
  generalize hw : encode i = w
  unfold decode6
  cases i with
  | gseq => rw [fOpc_of_mkR hw]; show vIs w 0 >>= _ = _; simp [eq_mkR hw, of_and4 h]
  | gflat => rw [fOpc_of_mkR hw]; show v01 w >>= _ = _; simp [eq_mkR hw, of_and4 h]
  | gdep | gblend => rw [fOpc_of_mkR hw]; show vIs w 0 >>= _ = _; simp [eq_mkR hw, of_and3 h]
  | gclrPath k p d a b =>
    rw [fOpc_of_mkR hw]; show vIs w 0 >>= _ = _
    simp [eq_mkR hw, of_and3 h, funcBits_eK k]
  | gclrPathFree k p d b =>
    rw [fOpc_of_mkR hw]; show vIs w 0 >>= _ = _
    simp [eq_mkR hw, Bool.and_eq_true_iff.1 h, funcBits_eK k, khi_eK k]
  | gclrDest t k p d a b c =>
    rw [fOpc_of_mkR hw]; show vIs w 0 >>= _ = _
    simp [-Fin.ofNat_eq_cast, eq_mkR hw, of_and4 h, tile_func (n := 128 + t.val) (m := 2) k t (by omega) (by omega) (by omega)]
  | gclrDestFree t k p d =>
    have hd : d.ok R 1 = true := h
    rw [fOpc_of_mkR hw]; show vIs w 0 >>= _ = _
    simp [-Fin.ofNat_eq_cast, eq_mkR hw, hd, tile_func (n := 192 + t.val) (m := 3) k t (by omega) (by omega) (by omega)]
  | gscan t k p d b =>
    rw [fOpc_of_mkR hw]; show vIs w 0 >>= _ = _
    simp [-Fin.ofNat_eq_cast, eq_mkR hw, Bool.and_eq_true_iff.1 h,
      tile_func (n := t.val) (m := 0) k t (by omega) (by omega) (by omega)]
  | gclipPop t k p d =>
    have hd : d.ok R 1 = true := h
    rw [fOpc_of_mkR hw]; show vIs w 0 >>= _ = _
    simp [-Fin.ofNat_eq_cast, eq_mkR hw, hd, tile_func (n := t.val) (m := 0) k t (by omega) (by omega) (by omega)]
  | gclipReset t k p d =>
    have hd : d.ok R 1 = true := h
    rw [fOpc_of_mkR hw]; show vIs w 0 >>= _ = _
    simp [-Fin.ofNat_eq_cast, eq_mkR hw, hd, tile_func (n := 16 + t.val) (m := 0) k t (by omega) (by omega) (by omega)]
  | gcov path k p d a =>
    obtain ⟨hd, ha⟩ := Bool.and_eq_true_iff.1 h
    cases path with
    | none =>
      have ha : a.ok R 2 = true := ha
      rw [fOpc_of_mkR hw]; show vIs w 0 >>= _ = _; simp [eq_mkR hw, hd, ha]
    | some b =>
      rw [fOpc_of_mkR hw]; show vIs w 0 >>= _ = _; simp [eq_mkR hw, hd, Bool.and_eq_true_iff.1 ha, khi_eK k]
  | gemit e t k p d =>
    obtain ⟨hd, he⟩ := Bool.and_eq_true_iff.1 h
    cases e with
    | mem x r i j =>
      have hn : (t.val + nb x 16) % 16 = t.val ∧ (t.val + nb x 16) / 64 = 0 := by
        cases x <;> simp [nb] <;> omega
      rw [fOpc_of_mkR hw]; show v01 w >>= _ = _
      simp [-Fin.ofNat_eq_cast, eq_mkR hw, hd, Bool.and_eq_true_iff.1 he,
        tile_func k t hn.1 hn.2 (by norm_num)]
    | enc a =>
      have ha : a.ok R 1 = true := he
      rw [fOpc_of_mkR hw]; show v01 w >>= _ = _
      simp [-Fin.ofNat_eq_cast, eq_mkR hw, hd, ha, tile_func (n := t.val) (m := 0) k t (by omega) (by omega) (by omega)]
  | _ => cases hc

/-! ### Class 7 (R127) -/

theorem decode7_encode {R : Nat} {i : Instr} (h : i.wf R = true) (hc : i.cls = some 7) : decode7 R (encode i) = .ok i := by
  generalize hw : encode i = w
  unfold decode7
  cases i with
  | movs n p d =>
    have hd : d.ok R n.n = true := h
    rw [fOpc_of_mkR hw]; show vIs w 0 >>= _ = _; simp [eq_mkR hw, hd]
  | sets n p a =>
    have ha : a.ok R n.n = true := h
    rw [fOpc_of_mkR hw]; show vIs w 0 >>= _ = _; simp [eq_mkR hw, ha]
  | trap p code a =>
    have ha : a.ok R 2 = true := h
    rw [fOpc_of_mkR hw]; show vIs w 0 >>= _ = _; simp [eq_mkR hw, ha]
  | rte p | dbrk p code => rw [fOpc_of_mkR hw]; show vIs w 0 >>= _ = _; simp [eq_mkR hw]
  | pmc n cl p d =>
    have hd : d.ok R 2 = true := h
    rw [fOpc_of_mkR hw]; show vIs w 0 >>= _ = _; simp [eq_mkR hw, hd, pmc_func n cl]
  | cred | cbcast => rw [fOpc_of_mkR hw]; show vIs w 0 >>= _ = _; simp [eq_mkR hw, of_and3 h]
  | _ => cases hc

/-! ### Saggar's words (R74) -/

theorem fields_xWord (f : Nat) (rd r1 r2 : XReg) : let w := encodeSaggar.xWord f rd r1 r2
    w.extractLsb' 0 7 = 0x0B#7 ∧ w.extractLsb' 7 5 = BitVec.ofNat 5 rd.val ∧ w.extractLsb' 12 3 = BitVec.ofNat 3 f ∧
      w.extractLsb' 15 5 = BitVec.ofNat 5 r1.val ∧ w.extractLsb' 20 5 = BitVec.ofNat 5 r2.val ∧
      w.extractLsb' 25 7 = 0#7 := by
  refine ⟨?_, ?_, ?_, ?_, ?_, ?_⟩ <;> refine BitVec.eq_of_getLsbD_eq fun i hi => ?_ <;>
    simp only [encodeSaggar.xWord, BitVec.getLsbD_extractLsb', BitVec.getLsbD_append] <;>
    grind

theorem XReg.ofNat_toNat (r : XReg) : (Fin.ofNat 32 (BitVec.ofNat 5 r.val).toNat : XReg) = r := by
  revert r; decide

theorem decodeSaggar_xWord {f : Nat} (rd r1 r2 : XReg) : decodeSaggar (encodeSaggar.xWord f rd r1 r2) =
    match (BitVec.ofNat 3 f).toNat with
    | 0 => some (.rfetch rd r1 r2)
    | 1 => some (.bfext rd r1 r2)
    | 2 => some (.swait rd r1 r2)
    | 3 => some (.wdisp rd r1 r2)
    | _ => none := by
  obtain ⟨h0, hd, hf, h1, h2, h7⟩ := fields_xWord f rd r1 r2
  simp only [decodeSaggar, h0, hd, hf, h1, h2, h7, XReg.ofNat_toNat]
  rfl

theorem Instr.cls_lt {i : Instr} {c : Nat} (h : i.cls = some c) : c < 8 := by
  cases i <;> cases h <;> decide

/-! ### The obligations -/

theorem decodeClass_encode {R cls : Nat} {i : Instr} (h : i.wf R = true) (hc : i.cls = some cls) :
    decodeClass cls R (encode i) = .ok i := by
  have hlt := Instr.cls_lt hc
  match cls, hc with
  | 0, hc => exact decode0_encode h hc
  | 1, hc => exact decode1_encode h hc
  | 2, hc => exact decode2_encode h hc
  | 3, hc => exact decode3_encode h hc
  | 4, hc => exact decode4_encode h hc
  | 5, hc => exact decode5_encode h hc
  | 6, hc => exact decode6_encode h hc
  | 7, hc => exact decode7_encode h hc
  | n + 8, _ => omega

/-- Settles O56: class by class, one case per instruction, from what each field of its word decodes to. -/
theorem encodedDecode : Obligations.EncodedDecode := by
  unfold Obligations.EncodedDecode
  exact ⟨fun R i cls h hc => decodeClass_encode h hc, fun rd r1 r2 => ⟨decodeSaggar_xWord rd r1 r2,
    decodeSaggar_xWord rd r1 r2, decodeSaggar_xWord rd r1 r2, decodeSaggar_xWord rd r1 r2⟩⟩

/-- Settles O55: each of the words is decoded by evaluation. -/
theorem decodesWords : Obligations.DecodesWords := by
  unfold Obligations.DecodesWords
  exact ⟨by decide, by decide, by decide, by decide, by decide⟩

end Sys2Proof
end

section
/-!
The state after reset (R62, R426, R432, R434).
-/
namespace Sys2Proof.Machine

/-- The registers of a reset are legal: BOOT is 0 and no image is authoritative. -/
theorem platform_reset : Platform State.reset where
  limit := by decide
  now := by decide
  levers := by decide
  boot := .inl rfl
  base := by decide
  codes := by decide
  image := by decide
  version _ := rfl
  floor h := nomatch h
  start h := by cases h <;> contradiction
  verified h := nomatch h
  committed h := nomatch h

/-- Settles O60: each register and table by its reset value; a cluster, context or queue that nothing lists by its default. -/
theorem resetState : Obligations.ResetState := by
  unfold Obligations.ResetState
  refine ⟨platform_reset, rfl, rfl, rfl, rfl, rfl, rfl, rfl, rfl, rfl, rfl, rfl, rfl, rfl, rfl, rfl, fun n => ?cluster,
    rfl, rfl, rfl, fun c => ?ctx, fun c q => ?queue⟩
  case cluster => exact ⟨rfl, rfl, rfl, rfl, rfl⟩
  case ctx => rfl
  case queue => rfl

end Sys2Proof.Machine
end

section
/-!
The commit token (R250, R251) and the event vector (R71, R72, R254, R255).
-/
namespace Sys2Proof.Machine

variable {s : State} {x : Wave} {y : Group} {l : Nat} {t : Thread}

/-! ### A member alone whose outcome leaves the waves -/

/-- A member that completes and leaves the waves: its group passes, its condition bits are those of its result, and of
the rest of the device only what the member itself changed is changed. -/
theorem members_result (h : Alone s x y l t) {p : Pred} (hp : performs p t = true) (d : Option Reg)
    {f : Device → Wave → Thread → Nat → LaneRes × Device} {o : LaneOut} {dev1 : Device}
    (hf : f (begunDev s x y l) x t l = (.done o, dev1)) (hw : dev1.waves = (begunDev s x y l).waves) :
    (∃ ws, members s.dev p d f = { dev1 with waves := ws }) ∧ Passed s { s with dev := members s.dev p d f } y ∧
      ∀ k, cbit (thread (after s { s with dev := members s.dev p d f }) l) k =
        cbit (outThread d o { t with issued := s.dev.ticks }) k := by
  obtain ⟨hz, hg, ht, hq⟩ := h.begun_facts
  have hm := members_done h hp d hf (hw ▸ hz) hg h.lanes ht hq
  have hs := (congrArg (fun dev => NMap.find? dev.waves s.dev.cur.1) hm).trans (NMap.find?_put_self ..)
  refine ⟨⟨_, hm⟩, passed_advance hs (by simpa using hg) h.issues.nodup ?_,
    cbit_done (s' := { s with dev := members s.dev p d f }) _ _ hs hg h.lanes ht⟩
  intro j hj
  rw [h.lanes, List.mem_singleton] at hj
  subst hj
  rw [find_applyRes_done ht]
  rfl

/-- A member that waits and changes nothing: its thread waits. -/
theorem members_waits (h : Alone s x y l t) {p : Pred} (hp : performs p t = true) (d : Option Reg)
    {f : Device → Wave → Thread → Nat → LaneRes × Device} {wt : Wait} (hh : wt ≠ .hold)
    (hf : f (begunDev s x y l) x t l = (.wait wt, begunDev s x y l)) :
    (thread (after s { s with dev := members s.dev p d f }) l).wait = wt := by
  obtain ⟨hz, hg, ht, hq⟩ := h.begun_facts
  have hm := members_wait h hp d hh hf hz hg h.lanes ht hq
  have hs := (congrArg (fun dev => NMap.find? dev.waves s.dev.cur.1) hm).trans (NMap.find?_put_self ..)
  have ha : after s { s with dev := members s.dev p d f } = _ := wave_of_find hs
  have hj := find_modThread (begun x s.dev.cur.2 y l s.dev.ticks) l l fun t => { t with wait := wt, lead := true }
  rw [if_pos rfl, ht] at hj
  rw [← noteAfter_threads] at hj
  rw [ha, thread_of_find hj]

/-- That an instruction has begun is nothing to the commit token. -/
theorem holdsToken_begun (h : Alone s x y l t) : holdsToken (begunDev s x y l) s.dev.cur.1 = holdsToken s.dev s.dev.cur.1 := by
  have hb : wave (begunDev s x y l) s.dev.cur.1 = begun x s.dev.cur.2 y l s.dev.ticks := wave_of_find h.begun_facts.1
  have hx : begun x s.dev.cur.2 y l s.dev.ticks = { x with
      threads := (begun x s.dev.cur.2 y l s.dev.ticks).threads
      groups := (begun x s.dev.cur.2 y l s.dev.ticks).groups } := by
    rw [begun, setGroup, modThread_eq]
  unfold holdsToken
  rw [hb, h.wave_eq, hx]
  rfl

/-! ### TKWAIT (R250, R251) -/

theorem exec_tkwait (p : Pred) (k : CBit) (s : State) : exec (.tkwait p k) s = execTkwait p k s := rfl

theorem det_of_holdsToken (h : Alone s x y l t) (ht : holdsToken s.dev s.dev.cur.1 = true) :
    (launch s.dev x.launch).hdr.det = true ∧ x.isBin = false ∧
      (launch s.dev x.launch).token = some (16 * (wg s.dev x.wg).num + x.idx) := by
  simpa [holdsToken, h.wave_eq, and_assoc] using ht

/-- A TKWAIT that gives its bit at once passes with the bit as given. -/
theorem tkwait_passes (h : Alone s x y l t) {p : Pred} (hp : performs p t = true) {k : CBit} {b : Bool}
    (hd : (launch s.dev x.launch).hdr.det = b) (hb : b = true → holdsToken s.dev s.dev.cur.1 = true) :
    ∃ s', exec (.tkwait p k) s = .next s' ∧ Passed s s' y ∧ cbit (thread (after s s') l) k = b := by
  have hd' : (launch (begunDev s x y l) x.launch).hdr.det = b := hd
  have ht := holdsToken_begun h
  obtain ⟨-, hpass, hc⟩ := members_result h hp none (o := { ks := [(k, b)] }) (dev1 := begunDev s x y l)
    (f := fun dv x _ _ => if !(launch dv x.launch).hdr.det then (.done { ks := [(k, false)] }, dv)
      else if holdsToken dv s.dev.cur.1 then (.done { ks := [(k, true)] }, dv) else (.wait (.token k), dv))
    (by cases b with
        | false => simp [hd']
        | true => simp [hd', ht, hb rfl])
    rfl
  exact ⟨_, exec_tkwait p k s, hpass, (hc k).trans (cbit_setCbit ..)⟩

theorem tkwait_waits (h : Alone s x y l t) {p : Pred} (hp : performs p t = true) {k : CBit}
    (hd : (launch s.dev x.launch).hdr.det = true) (hn : holdsToken s.dev s.dev.cur.1 = false) :
    ∃ s', exec (.tkwait p k) s = .next s' ∧ (thread (after s s') l).wait = .token k := by
  have hd' : (launch (begunDev s x y l) x.launch).hdr.det = true := hd
  have hn' := (holdsToken_begun h).trans hn
  exact ⟨_, exec_tkwait p k s, members_waits h hp none nofun (by simp [hd', hn'])⟩

/-! ### The token's way (R250, R251) -/

/-- The holder of a workgroup's only wave passes the token to the next workgroup's first wave; the last, to the first. -/
theorem nextHolder_one {h : LaunchHdr} (hc : h.waveCount = 1) (n fuel : Nat) :
    nextHolder h [] (16 * n) (fuel + 1) = some (if n + 1 < h.wgCount then 16 * (n + 1) else 0) := by
  simp [nextHolder, LaunchHdr.nextWave, hc]

theorem token_passToken (n : Launch) {i : Nat} (e : Nat × Nat) (h : n.token = some i) :
    (passToken n e).token = nextHolder n.hdr n.endedWaves i (n.endedWaves.length + 1) := by
  simp only [passToken, h]
  split <;> rfl

/-- A thread's events follow the pass of the token of launch `lid` (R251): thread `m` of wave `w`. -/
def afterPass (dev : Device) (lid w m : Nat) (u : Thread) : Thread :=
  { u with
    pts := laterTs u.pts (tsAfter (launch dev lid).tokenTs.toNat (launch dev lid).tokenAg (Who.lane w m).num) }

/-- Wave `w` after the token of launch `lid` has come to it, if it has. -/
def tokenArrived (dev : Device) (lid w : Nat) (x : Wave) : Wave :=
  if x.launch == lid && !x.isBin && (launch dev lid).token == some (16 * (wg dev x.wg).num + x.idx) then
    { x with threads := x.threads.map fun q => (q.1, afterPass dev lid w q.1 q.2) }
  else x

theorem waves_deliverToken (dev : Device) (lid : Nat) :
    (deliverToken dev lid).waves = dev.waves.map fun p => (p.1, tokenArrived dev lid p.1 p.2) := by
  refine List.map_congr_left fun p _ => ?_
  unfold tokenArrived
  split <;> rfl

theorem groups_tokenArrived (dev : Device) (lid w : Nat) (x : Wave) : (tokenArrived dev lid w x).groups = x.groups := by
  unfold tokenArrived
  split <;> rfl

theorem isSome_tokenArrived (dev : Device) (lid w : Nat) (x : Wave) (j : Nat) :
    (NMap.find? (tokenArrived dev lid w x).threads j).isSome = (NMap.find? x.threads j).isSome := by
  unfold tokenArrived
  split
  · exact (congrArg Option.isSome (NMap.find?_mapKey x.threads (afterPass dev lid w) j)).trans Option.isSome_map
  · rfl

theorem exec_tkpass (p : Pred) (s : State) : exec (.tkpass p) s = execTkpass p s := rfl

/-- The device once the holder's wave `w`, of launch `lid`, has passed the token. -/
def tokenGone (dev : Device) (w : Nat) (x : Wave) : Device :=
  deliverToken (modLaunch dev x.launch fun n => passToken n (waveTs w x)) x.launch

theorem exec_tkpass_holder (h : Alone s x y l t) {p : Pred} (hp : performs p t = true)
    (ht : holdsToken s.dev s.dev.cur.1 = true) :
    exec (.tkpass p) s = .next { s with
      dev := modWave (tokenGone s.dev s.dev.cur.1 x) s.dev.cur.1 fun z => advance z s.dev.cur.2 } := by
  rw [exec_tkpass]
  simp only [execTkpass, onDev, h.wave_eq, h.group_eq, h.performers hp, ht]
  rfl

/-- The launch's token stands where its holder's TKPASS puts it, and the holder's group goes on. -/
theorem tkpass_effect (h : Alone s x y l t) {p : Pred} (hp : performs p t = true)
    (ht : holdsToken s.dev s.dev.cur.1 = true) {n : Launch} (hn : NMap.find? s.dev.launches x.launch = some n) :
    ∃ s', exec (.tkpass p) s = .next s' ∧ Passed s s' y ∧ (launch s'.dev x.launch).token =
      nextHolder n.hdr n.endedWaves (16 * (wg s.dev x.wg).num + x.idx) (n.endedWaves.length + 1) := by
  have hw : NMap.find? (tokenGone s.dev s.dev.cur.1 x).waves s.dev.cur.1 = some (tokenArrived
      (modLaunch s.dev x.launch fun n => passToken n (waveTs s.dev.cur.1 x)) x.launch s.dev.cur.1 x) := by
    rw [tokenGone, waves_deliverToken, NMap.find?_mapKey, modLaunch_waves, h.wave]
    rfl
  refine ⟨_, exec_tkpass_holder h hp ht, ?_, ?_⟩
  · refine passed_of_advance (wave_of_find (find_modWave_self _ hw)) ?_ h.issues.nodup fun j hj => ?_
    · rw [groups_tokenArrived]; exact h.find_group
    · rw [isSome_tokenArrived]; exact h.issues.here j hj
  · obtain ⟨-, -, htok⟩ := det_of_holdsToken h ht
    rw [launch, NMap.get_of_find? hn] at htok
    rw [← token_passToken n (waveTs s.dev.cur.1 x) htok, launch, modWave_launches]
    have hl := find_modLaunch s.dev x.launch x.launch fun n => passToken n (waveTs s.dev.cur.1 x)
    rw [if_pos rfl, hn] at hl
    exact congrArg Launch.token (NMap.get_of_find? hl)

/-! ### The token's arrival (R251) -/

section
variable {w g : Nat} {wt : Wait}

/-- A thread that waited alone has the results of its instruction, and its group has passed it. -/
theorem finishWait_passes (h : WaitsAlone s w g x y l t wt) (d : Option Reg) (o : LaneOut) :
    PassedAt { s with dev := finishWait s.dev w l d o } w g y ∧
      ∀ k, cbit (threadAt (finishWait s.dev w l d o) w l) k = cbit (outThread d o t) k := by
  have hg : NMap.find? (modThread (writeLate x l d o) l fun t => { t with wait := .hold, lead := false }).groups g =
      some y := by
    rw [modThread_groups, writeLate, keepLater_groups, writeOut_eq, modThread_groups, h.groups]
    exact if_pos rfl
  have ht : NMap.find? (modThread (writeLate x l d o) l fun t => { t with wait := .hold, lead := false }).threads l =
      some { outThread d o t with wait := .hold, lead := false } := by
    rw [find_modThread, writeLate, keepLater_threads, writeOut_eq, find_modThread]
    simp [h.thread]
  have ha := find_advance hg (by simp [h.lanes]) l
  rw [if_pos (by simp [h.lanes]), ht, Option.map_some] at ha
  unfold PassedAt threadAt
  rw [finishWait_alone h h.wave, wave_setWave_self]
  refine ⟨?_, fun k => ?_⟩
  · split
    · rename_i hi
      rw [group_advance hg, if_pos hi]
      rfl
    · rename_i hi
      refine ⟨by rw [group_advance hg, if_neg hi], fun j hj => ?_⟩
      rw [h.lanes, List.mem_singleton] at hj
      subst hj
      rw [thread_of_find ha, if_neg hi]
      exact ⟨rfl, rfl⟩
  · rw [thread_of_find ha]
    split <;> rfl

theorem exec_tokenArrival (w : Nat) (s : State) : exec (.tokenArrival w) s = execTokenArrival w s := rfl

theorem tokenArrival_effect {k : CBit} (h : WaitsAlone s w g x y l t (.token k)) (hr : x.resident = true)
    (hn : retained s w = false) (hx : x.threads = [(l, t)]) (hh : holdsToken s.dev w = true) :
    exec (.tokenArrival w) s = .next { s with dev := finishWait s.dev w l none { ks := [(k, true)] } } := by
  have hw : wave s.dev w = x := wave_of_find h.wave
  have ht : threadAt s.dev w l = t := by rw [threadAt, hw, thread_of_find h.thread]
  rw [exec_tokenArrival]
  simp [execTokenArrival, onWaveDev, hn, arriveToken, hw, hr, hh, hx, NMap.keys, ht, h.waits]

end

/-! ### The event vector (R71, R72, R254, R255) -/

theorem noteVector_waves (dev : Device) (c : Nat) : (noteVector dev c).waves = dev.waves := by
  rw [noteVector_eq]
  refine List.foldlRecOn (motive := fun d : Device => d.waves = dev.waves) _ _ rfl fun d hd p _ => ?_
  unfold noteLaunch
  split
  · exact (modLaunch_waves ..).trans hd
  · exact hd

/-- Setting events of a context's vector leaves the other contexts and the waves. -/
theorem setEvents_frame (dev : Device) (c : Nat) (m : BitVec 256) :
    (setEvents dev c m).waves = dev.waves ∧ ∀ j, j ≠ c → ctx (setEvents dev c m) j = ctx dev j :=
  ⟨noteVector_waves .., fun _ h => (ctx_of_ctxs (noteVector_ctxs ..) _).trans (ctx_modCtx_ne _ _ h)⟩

/-- The only launch, which waits, is due exactly where the changed vector satisfies its mask (R72). -/
theorem state_setEvents {dev : Device} {n c : Nat} {u : Launch} (m : BitVec 256) (hl : dev.launches = [(n, u)])
    (hc : u.ctx = c) (hu : u.state = .waiting) :
    (launch (setEvents dev c m) n).state =
      if u.hdr.waitMask &&& (ctx (setEvents dev c m) c).events = u.hdr.waitMask then .due else .waiting := by
  have he : (ctx (setEvents dev c m) c).events = (ctx (modCtx dev c fun x => { x with events := x.events ||| m }) c).events :=
    congrArg Ctx.events (ctx_of_ctxs (noteVector_ctxs ..) c)
  rw [he, setEvents, noteVector_eq]
  generalize hd : modCtx dev c (fun x => { x with events := x.events ||| m }) = d
  have hl' : d.launches = [(n, u)] := by rw [← hd]; exact hl
  have hf : NMap.find? d.launches n = some u := by rw [hl']; exact if_pos rfl
  rw [hl', List.foldl_cons, List.foldl_nil, noteLaunch]
  have hs : satisfied (ctx d c).events c u = decide (u.hdr.waitMask &&& (ctx d c).events = u.hdr.waitMask) := by
    simp [satisfied, hc, hu, beq_eq_decide]
  rw [hs]
  split <;> rename_i h1
  · rw [if_pos (of_decide_eq_true h1)]
    have hm := find_modLaunch d n n fun l =>
      { l with state := .due, dueAt := d.ticks, relSeq := d.relSeq, relTs := d.topTs }
    rw [if_pos rfl, hf] at hm
    exact congrArg Launch.state (NMap.get_of_find? hm)
  · rw [if_neg fun h => h1 (decide_eq_true h)]
    exact (congrArg Launch.state (NMap.get_of_find? hf)).trans hu

/-- The low bits of an operand name an event, or a word of the vector (R254, R255). -/
theorem bitsOf_zero {k m : Nat} (n : Nat) (h : 2 ^ k = m) : bitsOf n 0 k = n % m := by
  rw [bitsOf, Nat.pow_zero, Nat.div_one, h]

/-- What EVSIG does for each member. -/
def signal (p : Pred) (a : Src) (dev : Device) : Device :=
  members dev p none fun dv x t _ => (.done {}, setEvents dv x.ctx (1#256 <<< bitsOf (rd32 x t a).toNat 0 8))

theorem exec_evsig (p : Pred) (a : Src) (s : State) :
    exec (.evsig p a) s = .next { s with dev := signal p a s.dev } := rfl

theorem signal_alone (h : Alone s x y l t) {p : Pred} (hp : performs p t = true) (a : Src) :
    (∃ ws, signal p a s.dev = { setEvents (begunDev s x y l) x.ctx (1#256 <<< ((rd32 x t a).toNat % 256)) with
      waves := ws }) ∧ Passed s { s with dev := signal p a s.dev } y := by
  have hf : setEvents (begunDev s x y l) x.ctx (1#256 <<< bitsOf (rd32 x t a).toNat 0 8) =
      setEvents (begunDev s x y l) x.ctx (1#256 <<< ((rd32 x t a).toNat % 256)) := by
    rw [bitsOf_zero (m := 256) _ rfl]
  obtain ⟨hm, hpass, -⟩ := members_result h hp none (o := {})
    (f := fun dv x t _ => (.done {}, setEvents dv x.ctx (1#256 <<< bitsOf (rd32 x t a).toNat 0 8)))
    (congrArg (Prod.mk _) hf) (setEvents_frame ..).1
  exact ⟨hm, hpass⟩

theorem exec_evtest_bit (p : Pred) (c : CBit) (a : Src) (s : State) : exec (.evtest p (.bit c) a) s =
    aluStep s p none fun x t _ => outC c ((ctx s.dev (wave s.dev s.dev.cur.1).ctx).events.getLsbD
      (bitsOf (rd32 x t a).toNat 0 8)) := rfl

theorem exec_evtest_word (p : Pred) (d : Reg) (a : Src) (s : State) : exec (.evtest p (.word d) a) s =
    aluStep s p (some d) fun x t _ => out32 ((ctx s.dev (wave s.dev s.dev.cur.1).ctx).events.extractLsb'
      (32 * bitsOf (rd32 x t a).toNat 0 3) 32) := rfl

/-- Settles O29: TKWAIT by its three answers, TKPASS by the next wave in logical order, EVSIG by the change of the
vector and what becomes due with it. -/
theorem tokenAndEvents : Obligations.TokenAndEvents := by
  unfold Obligations.TokenAndEvents
  refine ⟨⟨?wait, ?pass, ?arrival⟩, ?evsig, ?evtest⟩
  case wait =>
    intro s x y l t p k h hp
    exact ⟨fun hd => tkwait_passes h hp hd nofun,
      fun ht => tkwait_passes h hp (det_of_holdsToken h ht).1 fun _ => ht, tkwait_waits h hp⟩
  case pass =>
    intro s x y l t p n h hp ht hn hc he hi
    obtain ⟨s', hs, hpass, htok⟩ := tkpass_effect h hp ht hn
    refine ⟨s', hs, hpass, htok.trans ?_⟩
    rw [he, hi]
    exact nextHolder_one hc ..
  case arrival =>
    intro s w g x y l t k h hr hn hx hh
    obtain ⟨hpass, hc⟩ := finishWait_passes h none { ks := [(k, true)] }
    exact ⟨_, tokenArrival_effect h hr hn hx hh, hpass, (hc k).trans (cbit_setCbit ..)⟩
  case evsig =>
    intro s x y l t p a h hp
    obtain ⟨⟨ws, hm⟩, hpass⟩ := signal_alone h hp a
    refine ⟨_, exec_evsig p a s, hpass, ?_⟩
    rw [hm]
    refine ⟨(setEvents_effect (begunDev s x y l) x.ctx 0 _).2, (setEvents_frame (begunDev s x y l) _ _).2, ?_⟩
    intro n u _ hc hu hl
    exact state_setEvents (dev := begunDev s x y l) _ hl hc hu
  case evtest =>
    intro s x y l t p a h hl ht hp
    have hx : wave s.dev s.dev.cur.1 = x := wave_of_find h.wave
    refine ⟨fun c => ⟨_, exec_evtest_bit p c a s, alu_passed h .., ?_⟩,
      fun d hd => ⟨_, exec_evtest_word p d a s, alu_passed h .., ?_⟩⟩
    · rw [cbit, (alu_thread h p none _ hl ht hp).2, hx, ← bitsOf_zero (k := 8) (m := 256) _ rfl]
      exact cbit_setCbit t c _
    · have hr := alu_regs h p d (fun x t _ => out32 ((ctx s.dev (wave s.dev s.dev.cur.1).ctx).events.extractLsb'
        (32 * bitsOf (rd32 x t a).toNat 0 3) 32)) hl ht hp hd
      rw [hx, bitsOf_zero (m := 8) _ rfl] at hr
      rw [hx]
      exact hr

end Sys2Proof.Machine
end

section
/-!
Doorbells and the registers of a queue block (R62, R63, R404); release and completion of a launch (R66, R71 to R73,
R250, R439).
-/
namespace Sys2Proof.Machine

variable {dev : Device} {node c q : Nat}

/-! ### Containment (R69) -/

theorem killAll_ctx_ne {j : Nat} (hj : j ≠ c) (dev : Device) (keep : Option Nat) (k : Cause) :
    ctx (killAll dev c keep k) j = ctx dev j := by
  unfold killAll
  dsimp only
  rw [apply_ite (fun d => ctx d j), haltQueues, ctx_modCtx_ne _ _ hj, ite_self]
  refine ctx_of_ctxs (foldl_pair_ctxs (fun r g => ?_) _ _) j
  rw [apply_ite Device.ctxs]
  simp

/-- Discarding a context leaves every other. -/
theorem discardContext_ctx_ne {j : Nat} (hj : j ≠ c) (dev : Device) (code : Nat) (keep : Option Nat) (k : Cause) :
    ctx (discardContext dev c code keep k) j = ctx dev j := by
  have hz (d : Device) (va n : Nat) : ctx (zeroGranules (closeSessions d c) c va n) j = ctx d j :=
    (ctx_zeroGranules ..).trans (ctx_of_ctxs (closeSessions_tables ..).1 j)
  rw [discardContext, ctx_modCtx_ne _ _ hj, endContext, ctx_modCtx_ne _ _ hj]
  exact (hz ..).trans ((killAll_ctx_ne hj ..).trans (ctx_modCtx_ne _ _ hj))

theorem cstate_discardContext (dev : Device) (c code : Nat) (keep : Option Nat) (k : Cause) :
    (ctx (discardContext dev c code keep k) c).cstate = 4 := by
  rw [discardContext, ctx_modCtx_self]

/-- What containment does for one entry of the table of contexts. -/
def containOne (dev : Device) (c q : Nat) (d : Device) (j : Nat) : Device :=
  if (ctx d j).runs && (ctx d j).procId == (ctx dev c).procId then
    discardContext d j 6 (if j = c then some q else none) { kind := 3, code := cKILLED }
  else d

theorem containProcess_eq (dev : Device) (c q : Nat) :
    containProcess dev c q = dev.ctxs.foldl (fun d p => containOne dev c q d p.1) dev := rfl

/-- The offending context is discarded already, or as it was. -/
def ContainedOr (dev : Device) (c : Nat) (d : Device) : Prop := (ctx d c).cstate = 4 ∨ ctx d c = ctx dev c

theorem containedOr_containOne {d : Device} (h : ContainedOr dev c d) (j : Nat) :
    ContainedOr dev c (containOne dev c q d j) := by
  unfold containOne
  split
  · by_cases hj : j = c
    · subst hj; exact .inl (cstate_discardContext ..)
    · unfold ContainedOr
      rwa [discardContext_ctx_ne (Ne.symm hj)]
  · exact h

theorem containOne_discards (hr : (ctx dev c).runs = true) {d : Device} (h : ContainedOr dev c d) :
    (ctx (containOne dev c q d c) c).cstate = 4 := by
  unfold containOne
  rcases h with h | h
  · split
    · exact cstate_discardContext ..
    · exact h
  · rw [if_pos (by rw [h, hr, beq_self_eq_true, Bool.and_self])]
    exact cstate_discardContext ..

/-- Containment discards the offending context (R69). -/
theorem cstate_containProcess {x : Ctx} (hx : (c, x) ∈ dev.ctxs) (hr : (ctx dev c).runs = true) :
    (ctx (containProcess dev c q) c).cstate = 4 := by
  rw [containProcess_eq]
  obtain ⟨a, b, hab⟩ := List.append_of_mem hx
  rw [hab, List.foldl_append, List.foldl_cons]
  have h1 : ContainedOr dev c (a.foldl (fun d p => containOne dev c q d p.1) dev) :=
    List.foldlRecOn (motive := ContainedOr dev c) _ _ (.inr rfl) fun d hd p _ => containedOr_containOne hd p.1
  refine List.foldlRecOn (motive := fun d : Device => (ctx d c).cstate = 4) _ _ (containOne_discards hr h1)
    fun d hd p _ => ?_
  by_cases hp : p.1 = c
  · rw [hp]; exact containOne_discards hr (.inl hd)
  · unfold containOne
    split
    · rwa [discardContext_ctx_ne (Ne.symm hp)]
    · exact hd

theorem runs_of_queueLives (h : queueLives dev c q = true) : (ctx dev c).runs = true := by
  simp only [queueLives, Bool.and_eq_true] at h
  exact h.1.2

/-- An overrun discards the context, in any mode (R63, R68). -/
theorem cstate_haltQueue_overrun (h : queueLives dev c q = true) : (ctx (haltQueue dev c q 1) c).cstate = 4 := by
  have hr : (ctx (modQueue dev c q fun y => { y with halt := 1, pend := none }) c).runs = true := by
    rw [← runs_of_queueLives h, ctx_modQueue]; rfl
  simp only [haltQueue]
  rw [if_neg (by simp)]
  exact cstate_containProcess (mem_of_find? (NMap.find?_put_self ..)) hr

/-! ### Doorbell and QEN (R62, R63, R404) -/

theorem owns_modQueue (dev : Device) (node c q : Nat) (f : Queue → Queue) :
    owns (modQueue dev c q f) node c = owns dev node c := by
  simp [owns, ctx_modQueue]

theorem writeQen_other (h : owns dev node c = false) (v : Word) : writeQen dev node c q v = dev := by
  simp [writeQen, h]

theorem ringDoorbell_other (h : owns dev node c = false) (v : Word) : ringDoorbell dev node c q v = dev := by
  simp [ringDoorbell, h]

theorem writeQen_owner (ho : owns dev node c = true) (hl : queueLives dev c q = true) (v : Word) :
    writeQen dev node c q v = modQueue dev c q fun y =>
      { y with qen := v.getLsbD 0 && decide (6 ≤ y.qlog ∧ y.qlog ≤ 16) && y.qbase.toNat % 128 == 0 } := by
  simp [writeQen, ho, hl]

theorem ringDoorbell_fits (ho : owns dev node c = true) (hl : queueLives dev c q = true) {t : Word}
    (ht : (t - (queue dev c q).tail).toNat + ((queue dev c q).tail - (queue dev c q).head).toNat ≤
      2 ^ (queue dev c q).qlog) : ringDoorbell dev node c q t = modQueue dev c q fun y => { y with tail := t } := by
  simp only [ringDoorbell, ho, hl, Bool.not_true, Bool.or_self, Bool.false_eq_true, if_false]
  exact if_pos ht

theorem ringDoorbell_overruns (ho : owns dev node c = true) (hl : queueLives dev c q = true) {t : Word}
    (ht : 2 ^ (queue dev c q).qlog < (t - (queue dev c q).tail).toNat +
      ((queue dev c q).tail - (queue dev c q).head).toNat) :
    ringDoorbell dev node c q t = haltQueue dev c q 1 := by
  simp only [ringDoorbell, ho, hl, Bool.not_true, Bool.or_self, Bool.false_eq_true, if_false]
  exact if_neg (Nat.not_le.2 ht)

/-- The queue's registers let QEN become 1 (R62). -/
def Enables (y : Queue) (b : Bool) : Prop := b = true ∧ 6 ≤ y.qlog ∧ y.qlog ≤ 16 ∧ y.qbase.toNat % 128 = 0

theorem qen_writeQen (ho : owns dev node c = true) (hl : queueLives dev c q = true) (v : Word) :
    (queue (writeQen dev node c q v) c q).qen = true ↔ Enables (queue dev c q) (v.getLsbD 0) := by
  simp [writeQen_owner ho hl, Enables, and_assoc]

/-! ### A write of a queue block's plain registers (R62, R404) -/

theorem map_range_leBytes (n x : Nat) :
    (List.range n).map (fun i => BitVec.ofNat 8 (bitsOf x (8 * i) 8)) = leBytes n x := by
  refine List.ext_getElem (by simp) fun i h1 h2 => ?_
  have hi : i < n := by simpa using h1
  have h := leBytes_getD x hi
  rw [List.getD_eq_getElem _ _ h2] at h
  rw [h, List.getElem_map, List.getElem_range, bitsOf, Nat.pow_mul]
  exact BitVec.eq_of_toNat_eq (by simp)

theorem ofNat_toNat_mod {w k : Nat} (v : BitVec w) (h : w ≤ k) : BitVec.ofNat w (v.toNat % 2 ^ k) = v := by
  rw [Nat.mod_eq_of_lt (v.isLt.trans_le (Nat.pow_le_pow_right Nat.two_pos h)), BitVec.ofNat_toNat, BitVec.setWidth_eq]

/-- A write that does not touch a register leaves it. -/
theorem mergeReg_apart {o n off len : Nat} (h : off + len ≤ o ∨ o + n ≤ off) (old val : Nat) :
    mergeReg o n old off len val = old % 2 ^ (8 * n) := by
  rw [← leNat_leBytes, ← map_range_leBytes]
  refine congrArg leNat (List.map_congr_left fun i hi => if_neg ?_)
  have := List.mem_range.1 hi
  omega

/-- A write from a register's first byte on that covers it gives it the low bytes of the value. -/
theorem mergeReg_covered {off n len : Nat} (h : n ≤ len) (old val : Nat) :
    mergeReg off n old off len val = val % 2 ^ (8 * n) := by
  rw [← leNat_leBytes, ← map_range_leBytes]
  refine congrArg leNat (List.map_congr_left fun i hi => ?_)
  have := List.mem_range.1 hi
  rw [if_pos (by omega), Nat.add_sub_cancel_left]

/-- The words of the ranges after each has been set. -/
theorem get_foldl_set (f : Nat → DWord) (m : NMap DWord) (n j : Nat) :
    NMap.get 0 ((List.range n).foldl (fun m i => NMap.set 0 m i (f i)) m) j = if j < n then f j else NMap.get 0 m j := by
  induction n with
  | zero => rfl
  | succ n ih =>
    rw [List.range_succ, List.foldl_append, List.foldl_cons, List.foldl_nil, NMap.get_set, ih]
    by_cases hj : j = n
    · subst hj
      rw [if_pos rfl, if_pos (Nat.lt_succ_self j)]
    · have hi : j < n + 1 ↔ j < n := by omega
      simp only [if_neg hj, hi]

section
variable {y : Queue} {off len val : Nat}

theorem writeQueueBlock_of_qen (h : y.qen = true) : writeQueueBlock y off len val = y := if_pos h

theorem writeQueueBlock_fields (h : y.qen = false) :
    (writeQueueBlock y off len val).qen = false ∧ (writeQueueBlock y off len val).tail = y.tail ∧
    (writeQueueBlock y off len val).head = y.head ∧ (writeQueueBlock y off len val).halt = y.halt := by
  rw [writeQueueBlock, if_neg (by simp [h])]
  exact ⟨h, rfl, rfl, rfl⟩

theorem qbase_unwritten (h : y.qen = false) (ho : 8 ≤ off) : (writeQueueBlock y off len val).qbase = y.qbase := by
  simp only [writeQueueBlock, h, Bool.false_eq_true, if_false]
  rw [mergeReg_apart (.inr ho)]
  exact ofNat_toNat_mod _ le_rfl

theorem qbase_written (h : y.qen = false) (v : DWord) : (writeQueueBlock y 0 8 v.toNat).qbase = v := by
  simp only [writeQueueBlock, h, Bool.false_eq_true, if_false]
  rw [mergeReg_covered le_rfl]
  exact ofNat_toNat_mod _ le_rfl

theorem qlog_unwritten (h : y.qen = false) (ho : off + len ≤ 8 ∨ 9 ≤ off) (hl : y.qlog < 32) :
    (writeQueueBlock y off len val).qlog = y.qlog := by
  simp only [writeQueueBlock, h, Bool.false_eq_true, if_false]
  rw [mergeReg_apart ho]
  omega

theorem qlog_written (h : y.qen = false) (v : DWord) : (writeQueueBlock y 8 4 v.toNat).qlog = v.toNat % 32 := by
  simp only [writeQueueBlock, h, Bool.false_eq_true, if_false]
  rw [mergeReg_covered (by omega)]
  omega

theorem kinds_unwritten (h : y.qen = false) (ho : off + len ≤ 0x20 ∨ 0x21 ≤ off) :
    (writeQueueBlock y off len val).kinds = y.kinds := by
  simp only [writeQueueBlock, h, Bool.false_eq_true, if_false]
  rw [mergeReg_apart ho]
  exact ofNat_toNat_mod _ le_rfl

theorem kinds_written (h : y.qen = false) (v : DWord) : (writeQueueBlock y 0x20 1 v.toNat).kinds = v.setWidth 8 := by
  simp only [writeQueueBlock, h, Bool.false_eq_true, if_false]
  rw [mergeReg_covered le_rfl]
  exact BitVec.eq_of_toNat_eq (by simp)

/-- Word `j` of RANGE0 to RANGE3. -/
def rangeWord (y : Queue) (j : Nat) : DWord := NMap.get 0 y.ranges j

/-- The plain registers of a block, RANGE0 to RANGE3 as their eight words. -/
def PlainAre (base : DWord) (log : Nat) (kinds : BitVec 8) (ranges : List DWord) (z : Queue) : Prop :=
  z.qbase = base ∧ z.qlog = log ∧ z.kinds = kinds ∧ (List.range 8).map (rangeWord z) = ranges

theorem rangeWord_unwritten (h : y.qen = false) {j : Nat} (hj : j < 8)
    (ho : off + len ≤ 0x40 + 8 * j ∨ 0x48 + 8 * j ≤ off) :
    rangeWord (writeQueueBlock y off len val) j = rangeWord y j := by
  simp only [rangeWord, writeQueueBlock, h, Bool.false_eq_true, if_false, get_foldl_set, hj, if_true]
  rw [mergeReg_apart (by omega)]
  exact ofNat_toNat_mod _ le_rfl

theorem rangeWord_written (h : y.qen = false) {j : Nat} (hj : j < 8) (v : DWord) :
    rangeWord (writeQueueBlock y (0x40 + 8 * j) 8 v.toNat) j = v := by
  simp only [rangeWord, writeQueueBlock, h, Bool.false_eq_true, if_false, get_foldl_set, hj, if_true]
  rw [mergeReg_covered le_rfl]
  exact ofNat_toNat_mod _ le_rfl

theorem rangeWords_unwritten (h : y.qen = false) (ho : off + len ≤ 0x40) :
    (List.range 8).map (rangeWord (writeQueueBlock y off len val)) = (List.range 8).map (rangeWord y) :=
  List.map_congr_left fun _ hj => rangeWord_unwritten h (List.mem_range.1 hj) (.inl (by omega))

end

/-! ### A write of a context window at a queue's block -/

section
variable {s : State} {o len : Nat}

/-- Offset `o` of the register block of queue `q`, in its context's window (R62). -/
def blockAt (q o : Nat) : Nat := 0x8000 + 128 * q + o

theorem covers_blockAt (q o len r n : Nat) : covers (blockAt q o) len (0x8000 + 128 * q + r) n = covers o len r n := by
  simp only [covers, blockAt]
  congr 1
  apply propext
  omega

theorem covers_low {o r n : Nat} (hr : r + n ≤ 0x8000) (hn : 0 < n) (q len : Nat) : covers (blockAt q o) len r n = false := by
  unfold covers blockAt
  exact decide_eq_false (by omega)

theorem block_arith {q o : Nat} (hq : q < 8) (ho : o < 128) :
    (blockAt q o - 0x8000) / 128 = q ∧ blockAt q o % 128 = o ∧ (0x8000 ≤ blockAt q o ∧ blockAt q o < 0x8400) := by
  unfold blockAt
  omega

theorem fieldOf_blockAt (q o val r n : Nat) :
    fieldOf (blockAt q o) val (0x8000 + 128 * q + r) n = bitsOf val (8 * (r - o)) (8 * n) := by
  have h : 0x8000 + 128 * q + r - blockAt q o = r - o := by unfold blockAt; omega
  rw [fieldOf, h]

/-- The registers of a queue block that act, as a write covers them: QEN before TAIL (R62). -/
def actBlock (s : State) (node c q o len val : Nat) : State :=
  let s1 := if covers o len 0xC 4 then
      onState s fun d => writeQen d node c q (BitVec.ofNat 32 (bitsOf val (8 * (0xC - o)) 32)) else s
  if covers o len 0x10 4 then
    onState s1 fun d => ringDoorbell d node c q (BitVec.ofNat 32 (bitsOf val (8 * (0x10 - o)) 32)) else s1

theorem actWindow_blockAt (hq : q < 8) (ho : o < 128) (s : State) (node c len val : Nat) :
    actWindow s node c (blockAt q o) len val = actBlock s node c q o len val := by
  obtain ⟨h1, -, h3⟩ := block_arith hq ho
  have l1 := covers_low (o := o) (r := 0x200) (n := 1) (by omega) (by omega) q len
  have l2 := covers_low (o := o) (r := 0x114) (n := 4) (by omega) (by omega) q len
  have l3 := covers_low (o := o) (r := 0x310) (n := 4) (by omega) (by omega) q len
  have l4 := covers_low (o := o) (r := 0x328) (n := 1) (by omega) (by omega) q len
  simp only [actWindow, l1, l2, l3, l4, Bool.false_eq_true, if_false, h1, if_pos h3, covers_blockAt, fieldOf_blockAt]
  rfl

theorem cstate_of_queueLives (h : queueLives dev c q = true) :
    c < 64 ∧ ((ctx dev c).cstate == 0 || (ctx dev c).cstate == 3) = false := by
  have hr := runs_of_queueLives h
  simp only [queueLives, Bool.and_eq_true, decide_eq_true_eq] at h
  refine ⟨h.1.1, ?_⟩
  simp only [Ctx.runs, Bool.or_eq_true, Bool.and_eq_true, beq_iff_eq] at hr
  rcases hr with hr | ⟨hr, -⟩ <;> rw [hr] <;> rfl

theorem writeWindow_blockAt (ho : owns dev node c = true) (hl : queueLives dev c q = true) (hq : q < 8)
    (hn : len ≤ 8) (hb : o + len ≤ 128) (hp : 0 < len) (v : DWord) :
    writeWindow dev node c (blockAt q o) len v = modQueue dev c q fun y => writeQueueBlock y o len v.toNat := by
  obtain ⟨h1, h2, h3⟩ := block_arith (q := q) (o := o) hq (by omega)
  obtain ⟨hc, hf⟩ := cstate_of_queueLives hl
  simp only [writeWindow, hf, ho, h1, h2, hl, if_pos h3]
  rw [if_neg (by omega), if_neg (by omega), if_neg (by simp), if_neg (by omega), if_neg (by simp), if_neg (by omega),
    if_neg (by omega), if_neg (by omega)]
  rfl

theorem exec_queueRegisterWrite (s : State) (node c off len : Nat) (v : DWord) :
    exec (.queueRegisterWrite node c off len v) s = .next (hostWindow s node c off len v.toNat) := rfl

/-- A write of a queue block by the context's owner at BOOT 3: the plain registers, then those that act. -/
theorem hostWindow_blockAt (h3 : s.mgmt.boot = 3) (ho : owns s.dev node c = true) (hl : queueLives s.dev c q = true)
    (hq : q < 8) (hn : len ≤ 8) (hb : o + len ≤ 128) (hp : 0 < len) (v : DWord) :
    hostWindow s node c (blockAt q o) len v.toNat =
      actBlock { s with dev := modQueue s.dev c q fun y => writeQueueBlock y o len v.toNat } node c q o len v.toNat := by
  obtain ⟨hc, -⟩ := cstate_of_queueLives hl
  rw [hostWindow, if_neg (by omega), BitVec.ofNat_toNat, BitVec.setWidth_eq,
    writeWindow_blockAt ho hl hq hn hb hp, actWindow_blockAt hq (by omega)]

theorem actBlock_plain (h : o + len ≤ 0xC ∨ 0x10 < o) (s : State) (node c q val : Nat) :
    actBlock s node c q o len val = s := by
  have h1 : covers o len 0xC 4 = false := decide_eq_false (by omega)
  have h2 : covers o len 0x10 4 = false := decide_eq_false (by omega)
  simp only [actBlock, h1, h2, Bool.false_eq_true, if_false]

end

/-! ### The registers of the owner's queue -/

section
variable {s : State}

theorem exec_doorbell (s : State) (node c q : Nat) (t : Word) :
    exec (.doorbell node c q t) s = .next { s with dev := ringDoorbell s.dev node c q t } := rfl

theorem exec_qenWrite (s : State) (node c q : Nat) (v : Word) :
    exec (.qenWrite node c q v) s = .next { s with dev := writeQen s.dev node c q v } := rfl

/-- A write of plain registers of the owner's queue changes it as `writeQueueBlock` does. -/
theorem queue_plainWrite (h3 : s.mgmt.boot = 3) (ho : owns s.dev node c = true) (hl : queueLives s.dev c q = true)
    (hq : q < 8) {o len : Nat} (hn : len ≤ 8) (hb : o + len ≤ 128) (hp : 0 < len) (ha : o + len ≤ 0xC ∨ 0x10 < o)
    (v : DWord) :
    ∃ s', exec (.queueRegisterWrite node c (blockAt q o) len v) s = .next s' ∧
      queue s'.dev c q = writeQueueBlock (queue s.dev c q) o len v.toNat := by
  refine ⟨_, exec_queueRegisterWrite .., ?_⟩
  rw [hostWindow_blockAt h3 ho hl hq hn hb hp, actBlock_plain ha, queue_modQueue]

/-- Such a write of a queue with QEN 1 does nothing; otherwise it is enough that the registers written are as wanted. -/
theorem plainWrite_of_fields {f : Queue → Prop} (h3 : s.mgmt.boot = 3) (ho : owns s.dev node c = true)
    (hl : queueLives s.dev c q = true) (hq : q < 8) {o len : Nat} (hn : len ≤ 8) (hb : o + len ≤ 128) (hp : 0 < len)
    (ha : o + len ≤ 0xC ∨ 0x10 < o) (v : DWord)
    (hf : (queue s.dev c q).qen = false → f (writeQueueBlock (queue s.dev c q) o len v.toNat)) :
    ∃ s', exec (.queueRegisterWrite node c (blockAt q o) len v) s = .next s' ∧
      if (queue s.dev c q).qen then queue s'.dev c q = queue s.dev c q
      else f (queue s'.dev c q) ∧ (queue s'.dev c q).qen = false ∧ (queue s'.dev c q).tail = (queue s.dev c q).tail ∧
        (queue s'.dev c q).head = (queue s.dev c q).head ∧ (queue s'.dev c q).halt = (queue s.dev c q).halt := by
  obtain ⟨s', hs, hz⟩ := queue_plainWrite h3 ho hl hq hn hb hp ha v
  refine ⟨s', hs, ?_⟩
  rw [hz]
  split
  · rename_i hy; exact writeQueueBlock_of_qen hy
  · rename_i hy
    rw [Bool.not_eq_true] at hy
    exact ⟨hf hy, writeQueueBlock_fields hy⟩

/-- The registers on which a write of QEN and TAIL rests are not written by it themselves. -/
theorem writeQueueBlock_qenTail {y : Queue} (hl : y.qlog < 32) (val : Nat) :
    (writeQueueBlock y 0xC 8 val).qbase = y.qbase ∧ (writeQueueBlock y 0xC 8 val).qlog = y.qlog ∧
    (writeQueueBlock y 0xC 8 val).tail = y.tail ∧ (writeQueueBlock y 0xC 8 val).head = y.head := by
  cases h : y.qen with
  | true => rw [writeQueueBlock_of_qen h]; exact ⟨rfl, rfl, rfl, rfl⟩
  | false =>
    obtain ⟨-, ht, hh, -⟩ := writeQueueBlock_fields (off := 0xC) (len := 8) (val := val) h
    exact ⟨qbase_unwritten h (by omega), qlog_unwritten h (by omega) hl, ht, hh⟩

/-- One write that covers QEN and TAIL changes both (log entry 63). -/
theorem queue_qenTailWrite (h3 : s.mgmt.boot = 3) (ho : owns s.dev node c = true) (hl : queueLives s.dev c q = true)
    (hq : q < 8) (hlog : (queue s.dev c q).qlog < 32) {v : DWord}
    (hv : (v.extractLsb' 32 32 - (queue s.dev c q).tail).toNat +
      ((queue s.dev c q).tail - (queue s.dev c q).head).toNat ≤ 2 ^ (queue s.dev c q).qlog) :
    ∃ s', exec (.queueRegisterWrite node c (blockAt q 0xC) 8 v) s = .next s' ∧
      (queue s'.dev c q).tail = v.extractLsb' 32 32 ∧
      ((queue s'.dev c q).qen = true ↔ Enables (queue s.dev c q) (v.getLsbD 0)) := by
  refine ⟨_, exec_queueRegisterWrite .., ?_⟩
  rw [hostWindow_blockAt h3 ho hl hq (by omega) (by omega) (by omega)]
  generalize hd : modQueue s.dev c q (fun y => writeQueueBlock y 0xC 8 v.toNat) = d
  have hx : queue d c q = writeQueueBlock (queue s.dev c q) 0xC 8 v.toNat := by rw [← hd, queue_modQueue]
  have hod : owns d node c = true := by rw [← hd, owns_modQueue, ho]
  have hld : queueLives d c q = true := by rw [← hd, queueLives_modQueue, hl]
  obtain ⟨hbase, hqlog, htail, hhead⟩ := writeQueueBlock_qenTail hlog v.toNat
  have hq0 : BitVec.ofNat 32 (bitsOf v.toNat (8 * (0xC - 0xC)) 32) = v.setWidth 32 :=
    BitVec.eq_of_toNat_eq (by simp [bitsOf])
  have hq1 : BitVec.ofNat 32 (bitsOf v.toNat (8 * (0x10 - 0xC)) 32) = v.extractLsb' 32 32 :=
    BitVec.eq_of_toNat_eq (by simp [bitsOf, Nat.shiftRight_eq_div_pow])
  show (queue (ringDoorbell (writeQen d node c q _) node c q _) c q).tail = _ ∧
    ((queue (ringDoorbell (writeQen d node c q _) node c q _) c q).qen = true ↔ _)
  have hy : (queue d c q).tail = (queue s.dev c q).tail ∧ (queue d c q).head = (queue s.dev c q).head ∧
      (queue d c q).qlog = (queue s.dev c q).qlog ∧ (queue d c q).qbase = (queue s.dev c q).qbase := by
    rw [hx]; exact ⟨htail, hhead, hqlog, hbase⟩
  obtain ⟨hyt, hyh, hyl, hyb⟩ := hy
  rw [hq0, hq1, writeQen_owner hod hld, ringDoorbell_fits ((owns_modQueue ..).trans hod) ((queueLives_modQueue ..).trans hld)
    (by rw [queue_modQueue]; dsimp only; rw [hyt, hyh, hyl]; exact hv), queue_modQueue, queue_modQueue]
  refine ⟨rfl, ?_⟩
  simp [Enables, hyl, hyb, and_assoc]

end

/-! ### Release and completion of a launch (R66, R71 to R73, R250, R439) -/

section
variable {s : State} {n : Nat} {l : Launch}

theorem launch_modLaunch_self (h : NMap.find? dev.launches n = some l) (f : Launch → Launch) :
    launch (modLaunch dev n f) n = f l := by
  have hm := find_modLaunch dev n n f
  rw [if_pos rfl, h] at hm
  exact NMap.get_of_find? hm

theorem exec_launchRelease (n : Nat) (s : State) :
    exec (.launchRelease n) s = .next { s with dev := releaseLaunch s.dev n } := rfl

/-- The class a launch is released with: its own, or its context's (R73). -/
def releaseClass (x : Ctx) (l : Launch) : Nat := if l.hdr.cls = 0 then x.cls else l.hdr.cls

theorem launch_releaseLaunch (hn : NMap.find? dev.launches n = some l) (hd : l.state = .due) (h1 : l.hdr.rec_ = false)
    (h2 : l.hdr.rep = false) :
    launch (releaseLaunch dev n) n = { l with
      state := .released, cls := releaseClass (ctx dev l.ctx) l
      deadline := absDeadline (ctx dev l.ctx) (releaseClass (ctx dev l.ctx) l) l.hdr.deadline l.dueAt
      token := if l.hdr.det then some 0 else none } := by
  have hl : launch dev n = l := NMap.get_of_find? hn
  unfold releaseLaunch releaseClass
  simp only [hl, hd, h1, h2, bne_self_eq_false, Bool.or_self, Bool.false_and, Bool.false_eq_true, if_false]
  exact launch_modLaunch_self hn _

/-- The deadline of class 1: from the start of the period in which the launch became due (R73). -/
theorem absDeadline_periodic {x : Ctx} (hp : 0 < x.period) {t : Nat} (ht : x.created ≤ t) (d : Nat) :
    ∃ k, absDeadline x 1 d t = some (x.created + k * x.period + (if d = 0 then x.deadline else d)) ∧
      x.created + k * x.period ≤ t ∧ t < x.created + (k + 1) * x.period := by
  have hm : max x.period 1 = x.period := by omega
  refine ⟨(t - x.created) / x.period, by simp [absDeadline, hm], ?_, ?_⟩
  · have := Nat.div_mul_le_self (t - x.created) x.period
    omega
  · have := Nat.lt_mul_div_succ (t - x.created) hp
    rw [Nat.mul_comm] at this
    omega

theorem exec_launchComplete (n : Nat) (s : State) :
    exec (.launchComplete n) s = .next { s with dev := completeLaunch s.dev n } := rfl

theorem completeLaunch_plain (hn : NMap.find? dev.launches n = some l) (hov : launchOver dev n = true)
    (h1 : l.hdr.rec_ = false) (h2 : l.hdr.rep = false) {pkt : Nat} (hv : l.via = some (q, pkt)) :
    completeLaunch dev n = completePacket (setEvents (modLaunch dev n fun l => { l with state := .complete }) l.ctx
      l.hdr.setMask) l.ctx q pkt := by
  have hl : launch dev n = l := NMap.get_of_find? hn
  simp [completeLaunch, hl, hov, h1, h2, hv]

/-- A launch whose set mask is applied as it completes does not become due by it (R71, R72). -/
theorem state_setEvents_complete (hn : NMap.find? dev.launches n = some l) (hr : l.state = .released)
    (hd : (dev.launches.map Prod.fst).Nodup) (c : Nat) (m : BitVec 256) :
    (launch (setEvents (modLaunch dev n fun l => { l with state := .complete }) c m) n).state = .complete := by
  generalize he : modLaunch dev n (fun l => { l with state := .complete }) = d
  have hl : d.launches = NMap.put dev.launches n { l with state := .complete } := by
    rw [← he]; unfold modLaunch; rw [hn]; rfl
  have hall (p : Nat × Launch) (hp : p ∈ d.launches) (e : p.1 = n) (ev : BitVec 256) : satisfied ev c p.2 = false := by
    rw [hl] at hp
    rcases mem_put hp with rfl | hp
    · simp [satisfied]
    · have : p = (n, l) := List.inj_on_of_nodup_map hd hp (mem_of_find? hn) e
      simp [this, satisfied, hr]
  have hf : NMap.find? (setEvents d c m).launches n = NMap.find? d.launches n :=
    find_foldl_noteLaunch_none fun p hp e => hall p hp e _
  rw [launch, NMap.get, hf, hl, NMap.find?_put_self]
  rfl

theorem launch_completePacket (dev : Device) (c q pkt j : Nat) : launch (completePacket dev c q pkt) j = launch dev j := rfl

theorem released_of_launchOver (hn : NMap.find? dev.launches n = some l) (h : launchOver dev n = true) :
    l.state = .released := by
  have hl : launch dev n = l := NMap.get_of_find? hn
  simp only [launchOver, hl, Bool.and_eq_true, beq_iff_eq] at h
  tauto

/-- The only packet of a queue that is out completes, and stays for its NVAL (R66, R67). -/
theorem queue_completePacket {o : Out} (ho : (queue dev c q).outs = [o]) (hn : o.notify = true) :
    (queue (completePacket dev c q o.pkt) c q).outs = [{ o with complete := true }] := by
  rw [completePacket, queue_modQueue]
  simp [Queue.sweep, ho, hn]

end

/-! ### The obligation -/

/-- Settles O44: doorbell and QEN by the owner's three cases, a block's plain registers one by one, release by the
class's deadline, completion by the set mask and the packet. -/
theorem queuesAndLaunches : Obligations.QueuesAndLaunches := by
  unfold Obligations.QueuesAndLaunches
  refine ⟨fun s node c q => ⟨?other, ?owner⟩, ?release, ?complete⟩
  case other =>
    intro ho v
    rw [exec_doorbell, exec_qenWrite, ringDoorbell_other ho, writeQen_other ho]
    exact ⟨rfl, rfl⟩
  case owner =>
    intro ho hl
    refine ⟨fun t ht => ⟨_, exec_doorbell .., ?_⟩, fun t ht => ⟨_, exec_doorbell .., ?_⟩,
      fun v => ⟨_, exec_qenWrite .., qen_writeQen ho hl v⟩, fun hq h3 hlog => ⟨?qbase, ?qlog, ?kinds, ?ranges, ?both⟩⟩
    · rw [ringDoorbell_fits ho hl ht, queue_modQueue]
    · rw [ringDoorbell_overruns ho hl ht]
      exact ⟨halt_haltQueue .., cstate_haltQueue_overrun hl⟩
    case qbase =>
      intro v
      refine plainWrite_of_fields (o := 0) (len := 8)
        (f := PlainAre v (queue s.dev c q).qlog (queue s.dev c q).kinds ((List.range 8).map (rangeWord (queue s.dev c q))))
        h3 ho hl hq (by omega) (by omega) (by omega) (by omega) v fun hy => ?_
      exact ⟨qbase_written hy v, qlog_unwritten hy (by omega) hlog,
        kinds_unwritten hy (by omega), rangeWords_unwritten hy (by omega)⟩
    case qlog =>
      intro v
      refine plainWrite_of_fields (o := 8) (len := 4)
        (f := PlainAre (queue s.dev c q).qbase (v.toNat % 32) (queue s.dev c q).kinds ((List.range 8).map (rangeWord (queue s.dev c q))))
        h3 ho hl hq (by omega) (by omega) (by omega) (by omega) v fun hy => ?_
      exact ⟨qbase_unwritten hy (by omega), qlog_written hy v,
        kinds_unwritten hy (by omega), rangeWords_unwritten hy (by omega)⟩
    case kinds =>
      intro v
      refine plainWrite_of_fields (o := 0x20) (len := 1)
        (f := PlainAre (queue s.dev c q).qbase (queue s.dev c q).qlog (v.setWidth 8) ((List.range 8).map (rangeWord (queue s.dev c q))))
        h3 ho hl hq (by omega) (by omega) (by omega) (by omega) v fun hy => ?_
      exact ⟨qbase_unwritten hy (by omega), qlog_unwritten hy (by omega) hlog,
        kinds_written hy v, rangeWords_unwritten hy (by omega)⟩
    case ranges =>
      intro v i hi
      refine plainWrite_of_fields (o := 0x40 + 8 * i) (len := 8)
        (f := fun z => z.qbase = (queue s.dev c q).qbase ∧ z.qlog = (queue s.dev c q).qlog ∧ z.kinds = (queue s.dev c q).kinds ∧
          ∀ j < 8, rangeWord z j = if j = i then v else rangeWord (queue s.dev c q) j)
        h3 ho hl hq (by omega) (by omega) (by omega) (by omega) v fun hy => ?_
      refine ⟨qbase_unwritten hy (by omega), qlog_unwritten hy (by omega) hlog,
        kinds_unwritten hy (by omega), fun j hj => ?_⟩
      split
      · rename_i h; subst h; exact rangeWord_written hy hj v
      · exact rangeWord_unwritten hy hj (by omega)
    case both =>
      intro v hv
      exact queue_qenTailWrite h3 ho hl hq hlog hv
  case release =>
    intro s n l hn hd h1 h2
    refine ⟨_, exec_launchRelease n s, ?_⟩
    dsimp only
    rw [launch_releaseLaunch hn hd h1 h2]
    refine ⟨rfl, rfl, rfl, fun hc hp ht => ?_, fun hc => ?_, fun hc => ?_⟩
    · rw [show releaseClass (ctx s.dev l.ctx) l = 1 from hc]
      exact absDeadline_periodic hp ht _
    · rw [show releaseClass (ctx s.dev l.ctx) l = 2 from hc]
      rfl
    · rw [show releaseClass (ctx s.dev l.ctx) l = 3 from hc]
      rfl
  case complete =>
    intro s n l q pkt o hn hov h1 h2 hv ho hp hno hd
    subst hp
    refine ⟨_, exec_launchComplete n s, ?_⟩
    dsimp only
    rw [completeLaunch_plain hn hov h1 h2 hv]
    have hq := queue_of_ctxs (modLaunch_ctxs s.dev n fun l => { l with state := .complete }) l.ctx q
    have hx := ctx_of_ctxs (modLaunch_ctxs s.dev n fun l => { l with state := .complete }) l.ctx
    obtain ⟨hsq, hse⟩ := setEvents_effect (modLaunch s.dev n fun l => { l with state := .complete }) l.ctx q l.hdr.setMask
    refine ⟨?_, ?_, ?_⟩
    · rw [launch_completePacket]
      exact state_setEvents_complete hn (released_of_launchOver hn hov) hd ..
    · rw [completePacket, ctx_modQueue]
      exact hse.trans (by rw [hx])
    · exact queue_completePacket (by rw [hsq, hq, ho]) hno

end Sys2Proof.Machine
end

section
/-!
A Saggar core: its registers, its four custom instructions and the base instructions it executes (R74).
-/
namespace Sys2Proof.Machine

/-! ### Registers -/

section
variable {c c0 : SCore} {r q : XReg} {v : DWord}

theorem SCore.wr_eq (c : SCore) (r : XReg) (v : DWord) : c.wr r v = { c with x := (c.wr r v).x } := by
  unfold SCore.wr
  split <;> rfl

@[simp] theorem SCore.wr_pc (c : SCore) (r : XReg) (v : DWord) : (c.wr r v).pc = c.pc := by rw [SCore.wr_eq]
@[simp] theorem SCore.wr_mem (c : SCore) (r : XReg) (v : DWord) : (c.wr r v).mem = c.mem := by rw [SCore.wr_eq]
@[simp] theorem SCore.wr_sig (c : SCore) (r : XReg) (v : DWord) : (c.wr r v).sig = c.sig := by rw [SCore.wr_eq]
@[simp] theorem SCore.wr_wait (c : SCore) (r : XReg) (v : DWord) : (c.wr r v).wait = c.wait := by rw [SCore.wr_eq]

/-- Only the registers count for what a register reads as. -/
theorem SCore.rd_of_x (h : c.x = c0.x) (q : XReg) : c.rd q = c0.rd q := by
  unfold SCore.rd
  rw [h]

/-- What a register reads as after a write: x0 zero, the written one the value. -/
theorem SCore.rd_wr_self (c : SCore) (r : XReg) (v : DWord) : (c.wr r v).rd r = if r.val = 0 then 0 else v := by
  unfold SCore.rd SCore.wr
  split
  · rfl
  · exact NMap.get_set_self ..

theorem SCore.rd_wr_ne (h : q ≠ r) (c : SCore) (v : DWord) : (c.wr r v).rd q = c.rd q := by
  have hv : q.val ≠ r.val := fun e => h (Fin.ext e)
  unfold SCore.rd SCore.wr
  split
  · rfl
  · split
    · rfl
    · exact NMap.get_set_ne _ _ _ hv

/-- Core `c` has become `c'` by an instruction of 4 bytes that writes `v` to `r` and no other register. -/
def Wrote (c c' : SCore) (r : XReg) (v : DWord) : Prop :=
  c'.pc = c.pc + 4 ∧ c'.rd r = (if r.val = 0 then 0 else v) ∧ ∀ q : XReg, q ≠ r → c'.rd q = c.rd q

theorem wrote_of_wr {c' : SCore} (h0 : c0.x = c.x) (hx : c'.x = (c0.wr r v).x) (hp : c'.pc = c.pc + 4) :
    Wrote c c' r v := by
  refine ⟨hp, ?_, fun q hq => ?_⟩
  · rw [SCore.rd_of_x hx, SCore.rd_wr_self]
  · rw [SCore.rd_of_x hx, SCore.rd_wr_ne hq, SCore.rd_of_x h0]

end

/-! ### The core whose instruction executes -/

section
variable {s : State} {rd r1 r2 : XReg}

theorem core_setCore (g : Saggar) (n : Nat) (x : SCore) : (g.setCore n x).core n = x := NMap.get_put_self ..

theorem sCore_setCore (s : State) (x : SCore) :
    sCore { s with saggar := s.saggar.setCore s.saggar.cur x } = x := core_setCore ..

theorem sCore_sDone (s : State) (r : XReg) (v : DWord) :
    sCore (sDone s r v) = { (sCore s).wr r v with
      pc := ((sCore s).wr r v).pc + 4, instret := ((sCore s).wr r v).instret + 1 } := core_setCore ..

theorem sCore_sFault (s : State) (cause : DWord) :
    sCore (sFault s cause) = (sCore s).trap cause (BitVec.ofNat 64 (freeNat s.dev).1) := core_setCore ..

/-- An instruction that writes its result and goes on, the core's registers and pc being those of `c` before it. -/
theorem wrote_sDone {t : State} {c : SCore} (hx : (sCore t).x = c.x) (hp : (sCore t).pc = c.pc) (r : XReg) (v : DWord) :
    Wrote c (sCore (sDone t r v)) r v := by
  rw [sCore_sDone]
  refine wrote_of_wr hx rfl ?_
  rw [SCore.wr_pc, hp]

/-- Core `c` has taken an exception of a cause, as `c'`, and no register has changed. -/
def Trapped (c c' : SCore) (cause : DWord) : Prop :=
  c'.mcause = cause ∧ c'.mepc = c.pc ∧ c'.machine = true ∧ c'.pc = c.mtvec &&& ~~~(3 : DWord) ∧ ∀ r, c'.rd r = c.rd r

theorem trapped_trap (c : SCore) (cause tval : DWord) : Trapped c (c.trap cause tval) cause :=
  ⟨rfl, rfl, rfl, rfl, fun _ => rfl⟩

theorem trapped_sFault (s : State) (cause : DWord) : Trapped (sCore s) (sCore (sFault s cause)) cause := by
  rw [sCore_sFault]
  exact trapped_trap ..

/-! ### RFETCH -/

theorem exec_rfetch (rd r1 r2 : XReg) (s : State) : exec (.rfetch rd r1 r2) s = execRfetch rd r1 r2 s := rfl

/-- RFETCH with a legal queue number and local address: what it finds of the queue decides the answer. -/
def rfetched (s : State) (rd : XReg) (n a : Nat) : State :=
  if (queue s.dev (n / 8) (n % 8)).halt ≠ 0 then sDone s rd 2
  else if (queue s.dev (n / 8) (n % 8)).head = (queue s.dev (n / 8) (n % 8)).tail then sDone s rd 0
  else if Config.freeBit s.dev.free then
    sDone { s with dev := haltQueue (freeBit s.dev).2 (n / 8) (n % 8) 4 } rd 3
  else sDone { s with dev := (freeBit s.dev).2, saggar := s.saggar.setCore s.saggar.cur { sCore s with
    mem := Memory.putBytes (sCore s).mem a (Memory.bytes s.dev.host (headAddr (queue s.dev (n / 8) (n % 8))) 128) } } rd 1

theorem exec_rfetch_illegal (h : 511 < ((sCore s).rd r1).toNat ∨ ((sCore s).rd r2).toNat % 128 ≠ 0 ∨
    inLocal ((sCore s).rd r2).toNat 128 = false) : exec (.rfetch rd r1 r2) s = .next (sFault s 24) := by
  rw [exec_rfetch, execRfetch, if_pos]
  simpa using h

theorem exec_rfetch_legal (h1 : ((sCore s).rd r1).toNat ≤ 511) (h2 : ((sCore s).rd r2).toNat % 128 = 0)
    (h3 : inLocal ((sCore s).rd r2).toNat 128 = true) :
    exec (.rfetch rd r1 r2) s = .next (rfetched s rd ((sCore s).rd r1).toNat ((sCore s).rd r2).toNat) := by
  rw [exec_rfetch, execRfetch, if_neg (by simp [h2, h3]; omega)]
  unfold rfetched
  dsimp only [freeBit]
  split_ifs <;> rfl

/-- RFETCH's answer, with what each outcome leaves. -/
theorem rfetched_effect (s : State) (rd : XReg) (n a : Nat) :
    let y := queue s.dev (n / 8) (n % 8)
    let s' := rfetched s rd n a
    if y.halt ≠ 0 then Wrote (sCore s) (sCore s') rd 2 ∧ s'.dev = s.dev
    else if y.head = y.tail then Wrote (sCore s) (sCore s') rd 0 ∧ s'.dev = s.dev
    else if Config.freeBit s.dev.free = true then
      Wrote (sCore s) (sCore s') rd 3 ∧ (queue s'.dev (n / 8) (n % 8)).halt = 4
    else Wrote (sCore s) (sCore s') rd 1 ∧
      Memory.bytes (sCore s').mem a 128 = Memory.bytes s.dev.host (headAddr y) 128 := by
  dsimp only
  unfold rfetched
  split
  · exact ⟨wrote_sDone rfl rfl .., rfl⟩
  · split
    · exact ⟨wrote_sDone rfl rfl .., rfl⟩
    · split
      · exact ⟨wrote_sDone rfl rfl .., halt_haltQueue ..⟩
      · generalize hb : Memory.bytes s.dev.host (headAddr (queue s.dev (n / 8) (n % 8))) 128 = bs
        have hl : bs.length = 128 := by rw [← hb]; simp [Memory.bytes]
        generalize ht : ({ s with
          dev := (freeBit s.dev).2
          saggar := s.saggar.setCore s.saggar.cur { sCore s with mem := Memory.putBytes (sCore s).mem a bs } } : State) = t
        have hc : sCore t = { sCore s with mem := Memory.putBytes (sCore s).mem a bs } := by
          rw [← ht]; exact core_setCore ..
        refine ⟨wrote_sDone (by rw [hc]) (by rw [hc]) .., ?_⟩
        have hm := Memory.bytes_putBytes (sCore s).mem a bs
        rw [hl] at hm
        rw [sCore_sDone]
        exact (congrArg (Memory.bytes · a 128) ((SCore.wr_mem ..).trans (by rw [hc]))).trans hm

/-! ### BFEXT -/

theorem exec_bfext (rd r1 r2 : XReg) (s : State) : exec (.bfext rd r1 r2) s = execBfext rd r1 r2 s := rfl

theorem exec_bfext_illegal (h : ((sCore s).rd r2).toNat / 256 % 64 = 0 ∨
    64 < ((sCore s).rd r2).toNat % 64 + ((sCore s).rd r2).toNat / 256 % 64) :
    exec (.bfext rd r1 r2) s = .next (sFault s 25) := by
  rw [exec_bfext, execBfext, if_pos]
  simpa [bitsOf] using h

theorem exec_bfext_legal (h1 : ((sCore s).rd r2).toNat / 256 % 64 ≠ 0)
    (h2 : ((sCore s).rd r2).toNat % 64 + ((sCore s).rd r2).toNat / 256 % 64 ≤ 64) :
    exec (.bfext rd r1 r2) s = .next (sDone s rd (BitVec.ofNat 64 (((sCore s).rd r1).toNat /
      2 ^ (((sCore s).rd r2).toNat % 64) % 2 ^ (((sCore s).rd r2).toNat / 256 % 64)))) := by
  rw [exec_bfext, execBfext, if_neg (by simp [bitsOf, h1]; omega)]
  simp [bitsOf]

/-! ### SWAIT -/

theorem exec_swait (rd r1 r2 : XReg) (s : State) : exec (.swait rd r1 r2) s = execSwait rd r1 r2 s := rfl

/-- The core once its matching signals have been taken. -/
theorem takeSignals_effect (s : State) (rd : XReg) (mask : DWord) :
    Wrote (sCore s) (sCore (takeSignals s rd mask)) rd ((sCore s).sig &&& mask) ∧
    (sCore (takeSignals s rd mask)).sig = (sCore s).sig &&& ~~~mask ∧ (sCore (takeSignals s rd mask)).wait = none := by
  generalize ht : ({ s with saggar := s.saggar.setCore s.saggar.cur { sCore s with
    sig := (sCore s).sig &&& ~~~((sCore s).sig &&& mask), wait := none } } : State) = t
  have hc : sCore t = { sCore s with sig := (sCore s).sig &&& ~~~((sCore s).sig &&& mask), wait := none } := by
    rw [← ht]; exact core_setCore ..
  have hs : takeSignals s rd mask = sDone t rd ((sCore s).sig &&& mask) := by rw [← ht]; rfl
  rw [hs]
  refine ⟨wrote_sDone (by rw [hc]) (by rw [hc]) .., ?_, ?_⟩
  · rw [sCore_sDone]
    refine (SCore.wr_sig ..).trans ?_
    rw [hc]
    ext i
    simp
    grind
  · rw [sCore_sDone]
    exact (SCore.wr_wait ..).trans (by rw [hc])

theorem exec_swait_illegal (h : (sCore s).rd r1 = 0) : exec (.swait rd r1 r2) s = .next (sFault s 26) := by
  rw [exec_swait, execSwait, if_pos h]

theorem exec_swait_takes (h : (sCore s).rd r1 ≠ 0) (hs : (sCore s).sig &&& (sCore s).rd r1 ≠ 0) :
    exec (.swait rd r1 r2) s = .next (takeSignals s rd ((sCore s).rd r1)) := by
  rw [exec_swait, execSwait, if_neg h, if_pos hs]

/-- The wait of an SWAIT that finds no signal. -/
def waitOf (s : State) (rd r1 r2 : XReg) : SWait :=
  { rd := rd.val, mask := (sCore s).rd r1
    til := if ((sCore s).rd r2).toNat = 0 then none else some (s.dev.ticks + ((sCore s).rd r2).toNat) }

theorem exec_swait_waits (h : (sCore s).rd r1 ≠ 0) (hs : (sCore s).sig &&& (sCore s).rd r1 = 0) :
    exec (.swait rd r1 r2) s = .next { s with
      saggar := s.saggar.setCore s.saggar.cur { sCore s with wait := some (waitOf s rd r1 r2) } } := by
  rw [exec_swait, execSwait, if_neg h, if_neg (not_not.2 hs)]
  rfl

/-! ### The end of SWAIT -/

theorem exec_swaitWake (n : Nat) (s : State) : exec (.swaitWake n) s = execSwaitWake n s := rfl

section
variable {w : SWait}

theorem exec_swaitWake_signal (h8 : s.saggar.cur < 8) (hw : (sCore s).wait = some w) (hr : w.rd = rd.val)
    (hs : (sCore s).sig &&& w.mask ≠ 0) :
    exec (.swaitWake s.saggar.cur) s = .next (takeSignals s rd w.mask) := by
  have hrd : (⟨w.rd % 32, Nat.mod_lt _ (by decide)⟩ : XReg) = rd := Fin.ext (by rw [hr]; exact Nat.mod_eq_of_lt rd.isLt)
  rw [exec_swaitWake]
  unfold execSwaitWake
  simp only [hw, hrd, if_neg (Nat.not_le.2 h8), if_pos hs]

theorem exec_swaitWake_time (h8 : s.saggar.cur < 8) (hw : (sCore s).wait = some w) (hr : w.rd = rd.val)
    (hs : (sCore s).sig &&& w.mask = 0) {n : Nat} (hn : w.til = some n) (ht : n ≤ s.dev.ticks) :
    exec (.swaitWake s.saggar.cur) s = .next (sDone { s with
      saggar := s.saggar.setCore s.saggar.cur { sCore s with wait := none } } rd 0) := by
  have hrd : (⟨w.rd % 32, Nat.mod_lt _ (by decide)⟩ : XReg) = rd := Fin.ext (by rw [hr]; exact Nat.mod_eq_of_lt rd.isLt)
  rw [exec_swaitWake]
  unfold execSwaitWake
  simp only [hw, hrd, if_neg (Nat.not_le.2 h8), if_neg (not_not.2 hs), hn, if_pos ht]

end

/-! ### WDISP -/

theorem exec_wdisp (rd r1 r2 : XReg) (s : State) : exec (.wdisp rd r1 r2) s = execWdisp rd r1 r2 s := rfl

theorem exec_wdisp_illegal (h : ((sCore s).rd r1).toNat % 64 ≠ 0 ∨ 63 < ((sCore s).rd r2).toNat ∨
    (ctx s.dev ((sCore s).rd r2).toNat).runs = false) : exec (.wdisp rd r1 r2) s = .next (sFault s 27) := by
  rw [exec_wdisp, execWdisp, if_pos]
  simpa using h

/-- The launch of a header in local memory, for context `n`. -/
def launchAt (s : State) (a n : Nat) : Launch :=
  { ctx := n, hdr := LaunchHdr.parse (Memory.bytes (sCore s).mem a 256), logBase := (ctx s.dev n).logb.base
    logLog := (ctx s.dev n).logb.log, logWait := (ctx s.dev n).logb.wait }

/-- The Wheel accepts the launch whose header stands at `a` for context `n`. -/
def Accepts (s : State) (a n : Nat) : Prop :=
  Config.freeBit s.dev.free = false ∧ inLocal a 256 = true ∧ headerOk (Memory.bytes (sCore s).mem a 256)
    (ctx s.dev n).cls (ctx s.dev n).logb.base (ctx s.dev n).logb.log = true

theorem exec_wdisp_legal (h1 : ((sCore s).rd r1).toNat % 64 = 0) (h2 : ((sCore s).rd r2).toNat ≤ 63)
    (h3 : (ctx s.dev ((sCore s).rd r2).toNat).runs = true) :
    (Accepts s ((sCore s).rd r1).toNat ((sCore s).rd r2).toNat → exec (.wdisp rd r1 r2) s = .next (sDone { s with
      dev := enterLaunch (freeBit s.dev).2 (launchAt s ((sCore s).rd r1).toNat ((sCore s).rd r2).toNat) } rd 0)) ∧
    (¬ Accepts s ((sCore s).rd r1).toNat ((sCore s).rd r2).toNat →
      exec (.wdisp rd r1 r2) s = .next (sDone { s with dev := (freeBit s.dev).2 } rd 1)) := by
  have hx : ctx (freeBit s.dev).2 ((sCore s).rd r2).toNat = ctx s.dev ((sCore s).rd r2).toNat := rfl
  rw [exec_wdisp, execWdisp, if_neg (by simp [h1, h3]; omega)]
  unfold Accepts launchAt
  constructor
  · rintro ⟨hf, hl, hh⟩
    dsimp only [freeBit] at hx ⊢
    rw [if_neg (by rw [hx, hf, hl, hh]; decide)]
    rfl
  · intro hn
    dsimp only [freeBit] at hx ⊢
    rw [if_pos]
    rw [hx]
    revert hn
    generalize Config.freeBit s.dev.free = f
    generalize inLocal _ 256 = i
    generalize headerOk _ _ _ _ = h
    revert f i h
    decide

/-- A launch that enters keeps its context and header (R72). -/
theorem sameLaunch_enterLaunch (d : Device) (l : Launch) : SameLaunch l (launch (enterLaunch d l) d.nextId) := by
  obtain ⟨z, hz, hzs, -⟩ := find_foldl_noteLaunch (ev := (ctx d l.ctx).events) (c := l.ctx)
    (d := setLaunch { d with nextId := d.nextId + 1 } d.nextId l) (NMap.put d.launches d.nextId l)
    (NMap.find?_put_self d.launches d.nextId l) (⟨rfl, rfl, rfl⟩ : SameLaunch l l)
  have he : enterLaunch d l = (NMap.put d.launches d.nextId l).foldl (noteLaunch (ctx d l.ctx).events l.ctx)
      (setLaunch { d with nextId := d.nextId + 1 } d.nextId l) := rfl
  rw [he, launch, NMap.get_of_find? hz]
  exact hzs

end

/-! ### The base (R74) -/

section
variable {s : State} {co : Nat} {r : List Action}

/-- A running core at a word of 4 bytes of the base. -/
structure AtBase (s : State) (co : Nat) (r : List Action) : Prop where
  agenda : s.agenda = .saggar co :: r
  runs : s.saggar.on = true
  core : co < 8
  idle : (s.saggar.core co).wait = none
  here : inLocal (s.saggar.core co).pc.toNat 4 = true
  long : (s.saggar.core co).word.toNat % 4 = 3
  base : (s.saggar.core co).word.extractLsb' 0 7 ≠ 0x0B#7

/-- What an instruction of the base brings: the state it leaves, or a stop. -/
def baseBrought : State ⊕ Nat → Brought
  | .inl t => .done t
  | .inr a => .fault (.saggarAccess a)

theorem step_base (h : AtBase s co r) :
    step s = finish (baseBrought (saggarBase { s with agenda := r } co (s.saggar.core co).word 4
      ((s.saggar.core co).word.setWidth 64))) := by
  have h8 := Nat.not_le.2 h.core
  simp [step, nextAction, h.agenda, bring, bringSaggar, h.runs, h8, h.idle, h.long, h.here, h.base]
  rfl

theorem step_base_ok (h : AtBase s co r) {x : SCore} (hx : ∀ free, rvExec (s.saggar.core co) co free
    (s.saggar.core co).word 4 ((s.saggar.core co).word.setWidth 64) = .ok x) :
    ∃ s', step s = .next s' ∧ s'.saggar.core co = { x with instret := x.instret + 1 } := by
  rw [step_base h, saggarBase]
  dsimp only
  rw [hx]
  exact ⟨_, rfl, core_setCore ..⟩

theorem step_base_exc (h : AtBase s co r) {cause tval : DWord} (hx : ∀ free, rvExec (s.saggar.core co) co free
    (s.saggar.core co).word 4 ((s.saggar.core co).word.setWidth 64) = .exc cause tval) :
    ∃ s', step s = .next s' ∧ s'.saggar.core co = (s.saggar.core co).trap cause tval := by
  rw [step_base h, saggarBase]
  dsimp only
  rw [hx]
  exact ⟨_, rfl, core_setCore ..⟩

/-- An instruction of the base that only writes its destination and goes on. -/
theorem step_base_advance (h : AtBase s co r) {v : DWord} (hx : ∀ free, rvExec (s.saggar.core co) co free
    (s.saggar.core co).word 4 ((s.saggar.core co).word.setWidth 64) =
      (s.saggar.core co).advance (rvRd (s.saggar.core co).word) v 4) :
    ∃ s', step s = .next s' ∧ (s'.saggar.core co).mem = (s.saggar.core co).mem ∧
      Wrote (s.saggar.core co) (s'.saggar.core co) (rvRd (s.saggar.core co).word) v := by
  obtain ⟨s', hs, hc⟩ := step_base_ok h hx
  refine ⟨s', hs, ?_, ?_⟩
  · rw [hc]; exact SCore.wr_mem ..
  · rw [hc]
    refine wrote_of_wr rfl rfl ?_
    show ((s.saggar.core co).wr _ v).pc + BitVec.ofNat 64 4 = _
    rw [SCore.wr_pc]
    rfl

/-- The opcode of a word, as a number. -/
theorem bitsOf_of_extract {w : Word} {k : BitVec 7} (h : w.extractLsb' 0 7 = k) : bitsOf w.toNat 0 7 = k.toNat := by
  rw [← h]
  simp [bitsOf]

/-- What the core's word is, from its opcode, for one of the base. -/
theorem AtBase.of_opcode {k : BitVec 7} (hs : s.agenda = .saggar co :: r) (ho : s.saggar.on = true) (hc : co < 8)
    (hw : (s.saggar.core co).wait = none) (hl : inLocal (s.saggar.core co).pc.toNat 4 = true)
    (hk : (s.saggar.core co).word.extractLsb' 0 7 = k) (h3 : k.toNat % 4 = 3) (hb : k ≠ 0x0B#7) : AtBase s co r := by
  refine ⟨hs, ho, hc, hw, hl, ?_, by rw [hk]; exact hb⟩
  have h := bitsOf_of_extract hk
  rw [bitsOf, Nat.pow_zero, Nat.div_one] at h
  omega

variable {c : SCore} {free len : Nat} {raw : DWord} {w : Word}

theorem rvExec_addi (hk : w.extractLsb' 0 7 = 0x13#7) (h3 : rvF3 w = 0) :
    rvExec c co free w len raw = c.advance (rvRd w) (c.rd (rvRs1 w) + immI w) len := by
  unfold rvExec
  simp [bitsOf_of_extract hk, rvOpImm, h3, rvAlu]

theorem rvExec_add (hk : w.extractLsb' 0 7 = 0x33#7) (h3 : rvF3 w = 0) (h7 : rvF7 w = 0) :
    rvExec c co free w len raw = c.advance (rvRd w) (c.rd (rvRs1 w) + c.rd (rvRs2 w)) len := by
  unfold rvExec
  simp [bitsOf_of_extract hk, rvOp, h3, h7, rvAlu]

theorem rvExec_ld (hk : w.extractLsb' 0 7 = 0x03#7) (h3 : rvF3 w = 3)
    (hl : inLocal (c.rd (rvRs1 w) + immI w).toNat 8 = true) :
    rvExec c co free w len raw = c.advance (rvRd w)
      (BitVec.ofNat 64 (leNat (Memory.bytes c.mem (c.rd (rvRs1 w) + immI w).toNat 8))) len := by
  have hx : rvExec c co free w len raw = rvLoad c w len (.exc 2 raw) := by
    unfold rvExec
    simp [bitsOf_of_extract hk]
  rw [hx]
  unfold rvLoad
  dsimp only
  rw [h3, if_neg (by decide), if_neg (by rw [show 2 ^ (3 % 4) = 8 from rfl, hl]; decide)]
  exact congrArg (c.advance (rvRd w) · len) (BitVec.signExtend_eq _)

theorem rvExec_beq (hk : w.extractLsb' 0 7 = 0x63#7) (h3 : rvF3 w = 0) :
    rvExec c co free w 4 raw = .ok { c with
      pc := c.pc + if c.rd (rvRs1 w) = c.rd (rvRs2 w) then immB w else 4 } := by
  unfold rvExec
  by_cases h : c.rd (rvRs1 w) = c.rd (rvRs2 w)
  · simp [bitsOf_of_extract hk, h3, rvCond, h]
  · simp [bitsOf_of_extract hk, h3, rvCond, h, beq_eq_false_iff_ne.2 h, SCore.advance, SCore.wr]

theorem rvExec_ecall : rvExec c co free 0x73#32 len raw = .exc (if c.machine then 11 else 8) 0 := rfl

end

/-! ### The obligation -/

/-- Settles O43: each custom instruction by its cases and the state it answers, each base instruction by what `rvExec`
gives at the core's word. -/
theorem saggarInstructions : Obligations.SaggarInstructions := by
  unfold Obligations.SaggarInstructions
  refine ⟨?custom, ?base⟩
  case custom =>
    intro s rd r1 r2
    refine ⟨fun h => ⟨_, exec_rfetch_illegal h, trapped_sFault ..⟩,
      fun h1 h2 h3 => ⟨_, exec_rfetch_legal h1 h2 h3, rfetched_effect ..⟩,
      fun h => ⟨_, exec_bfext_illegal h, trapped_sFault ..⟩,
      fun h1 h2 => ⟨_, exec_bfext_legal h1 h2, wrote_sDone rfl rfl ..⟩,
      fun h => ⟨_, exec_swait_illegal h, trapped_sFault ..⟩, fun h hs => ?takes, fun h hs => ?waits,
      fun h => ⟨_, exec_wdisp_illegal h, trapped_sFault ..⟩, fun h1 h2 h3 => ?wdisp, fun w h8 hw hr => ⟨?signal, ?time⟩⟩
    case takes =>
      obtain ⟨hd, hsig, -⟩ := takeSignals_effect s rd ((sCore s).rd r1)
      exact ⟨_, exec_swait_takes h hs, hd, hsig⟩
    case waits =>
      refine ⟨_, exec_swait_waits h hs, ?_⟩
      rw [sCore_setCore]
      exact ⟨rfl, rfl⟩
    case wdisp =>
      obtain ⟨hacc, hrej⟩ := exec_wdisp_legal (rd := rd) h1 h2 h3
      by_cases ha : Accepts s ((sCore s).rd r1).toNat ((sCore s).rd r2).toNat
      · obtain ⟨hc, -, hh⟩ := sameLaunch_enterLaunch (freeBit s.dev).2
          (launchAt s ((sCore s).rd r1).toNat ((sCore s).rd r2).toNat)
        refine ⟨_, hacc ha, ?_⟩
        rw [if_pos (show _ ∧ _ ∧ _ from ha)]
        exact ⟨wrote_sDone rfl rfl .., hc, hh⟩
      · refine ⟨_, hrej ha, ?_⟩
        rw [if_neg (show ¬ (_ ∧ _ ∧ _) from ha)]
        exact ⟨wrote_sDone rfl rfl .., rfl⟩
    case signal =>
      intro hs
      obtain ⟨hd, -, hn⟩ := takeSignals_effect s rd w.mask
      exact ⟨_, exec_swaitWake_signal h8 hw hr hs, hd, hn⟩
    case time =>
      rintro hs ⟨n, hn, ht⟩
      have hc : sCore { s with saggar := s.saggar.setCore s.saggar.cur { sCore s with wait := none } } =
          { sCore s with wait := none } := sCore_setCore ..
      refine ⟨_, exec_swaitWake_time h8 hw hr hs hn ht, wrote_sDone (by rw [hc]) (by rw [hc]) .., ?_⟩
      rw [sCore_sDone]
      exact (SCore.wr_wait ..).trans (by rw [hc])
  case base =>
    intro s co r hs ho hc hw hl
    have gives {v : DWord} (h : ∃ s', step s = .next s' ∧ (s'.saggar.core co).mem = (s.saggar.core co).mem ∧
        Wrote (s.saggar.core co) (s'.saggar.core co) (rvRd (s.saggar.core co).word) v) :
        ∃ s', step s = .next s' ∧ (s'.saggar.core co).pc = (s.saggar.core co).pc + 4 ∧
          (s'.saggar.core co).mem = (s.saggar.core co).mem ∧
          (s'.saggar.core co).rd (rvRd (s.saggar.core co).word) =
            (if (rvRd (s.saggar.core co).word).val = 0 then 0 else v) ∧
          ∀ q : XReg, q ≠ rvRd (s.saggar.core co).word → (s'.saggar.core co).rd q = (s.saggar.core co).rd q := by
      obtain ⟨s', hs', hm, hp, hd, hq⟩ := h
      exact ⟨s', hs', hp, hm, hd, hq⟩
    refine ⟨fun hk h3 => ?addi, fun hk h3 h7 => ?add, fun hk h3 hin => ?ld, fun hk h3 => ?beq, fun hk => ?ecall⟩
    case addi =>
      exact gives (step_base_advance (.of_opcode hs ho hc hw hl hk rfl (by decide)) fun _ => rvExec_addi hk h3)
    case add =>
      exact gives (step_base_advance (.of_opcode hs ho hc hw hl hk rfl (by decide)) fun _ => rvExec_add hk h3 h7)
    case ld =>
      exact gives (step_base_advance (.of_opcode hs ho hc hw hl hk rfl (by decide)) fun _ => rvExec_ld hk h3 hin)
    case beq =>
      obtain ⟨s', hs', hx⟩ := step_base_ok (.of_opcode hs ho hc hw hl hk rfl (by decide)) fun _ => rvExec_beq hk h3
      refine ⟨s', hs', ?_⟩
      rw [hx]
      exact ⟨rfl, rfl, fun _ => rfl⟩
    case ecall =>
      have hop : (s.saggar.core co).word.extractLsb' 0 7 = 0x73#7 := by rw [hk]; rfl
      obtain ⟨s', hs', hx⟩ := step_base_exc (.of_opcode hs ho hc hw hl hop rfl (by decide)) fun _ => by
        rw [hk]; exact rvExec_ecall
      refine ⟨s', hs', ?_⟩
      rw [hx]
      exact trapped_trap ..

end Sys2Proof.Machine
end

section
/-!
From an action to the instruction it runs: an event, a Saggar core's word, a group's word on its quarter (R74, R95, R111,
R112, R116, R200, R404).
-/
namespace Sys2Proof.Machine

/-! ### Fetching a word of code (R189 to R193, R359) -/

/-- A fetch sees the same of both devices: memory, contexts, translations and what of the code has changed. -/
structure SameCode (d e : Device) : Prop where
  mem : e.mem = d.mem
  ctxs : e.ctxs = d.ctxs
  ctlb : e.ctlb = d.ctlb
  codeLog : e.codeLog = d.codeLog
  free : e.free = d.free
  tlb : ∀ n, (core e n).tlb = (core d n).tlb
  bumpAt : ∀ n, (core e n).bumpAt = (core d n).bumpAt

/-- What a fetch keeps of a device. -/
def FetchKeeps (d e : Device) : Prop := e.waves = d.waves ∧ e.mem = d.mem ∧ e.wgs = d.wgs

theorem FetchKeeps.trans {a b c : Device} (h : FetchKeeps a b) (k : FetchKeeps b c) : FetchKeeps a c :=
  ⟨k.1.trans h.1, k.2.1.trans h.2.1, k.2.2.trans h.2.2⟩

section
variable {d e : Device} {co c va : Nat} {need : Need}

theorem SameCode.walkVa (h : SameCode d e) (c va : Nat) : walkVa e c va = walkVa d c va := by
  rw [Machine.walkVa, Machine.walkVa, h.mem, ctx_of_ctxs h.ctxs]

theorem SameCode.freeBit (h : SameCode d e) :
    (freeBit e).1 = (freeBit d).1 ∧ SameCode (freeBit d).2 (freeBit e).2 :=
  ⟨congrArg Config.freeBit h.free, h.mem, h.ctxs, h.ctlb, h.codeLog, congrArg (· + 1) h.free, h.tlb, h.bumpAt⟩

theorem SameCode.freeNat (h : SameCode d e) :
    (freeNat e).1 = (freeNat d).1 ∧ SameCode (freeNat d).2 (freeNat e).2 :=
  ⟨congrArg Config.freeNat h.free, h.mem, h.ctxs, h.ctlb, h.codeLog, congrArg (· + 1) h.free, h.tlb, h.bumpAt⟩

theorem SameCode.tlbLookup (h : SameCode d e) (co key : Nat) (new : WRes) :
    (tlbLookup e co key new).1 = (tlbLookup d co key new).1 ∧
      SameCode (tlbLookup d co key new).2 (tlbLookup e co key new).2 := by
  unfold Machine.tlbLookup
  rw [h.tlb, h.ctlb]
  dsimp only
  split
  · exact ⟨rfl, h⟩
  · rename_i t _
    split
    · exact ⟨rfl, h⟩
    · exact ⟨congrArg (fun b => if b = true then WRes.leaf t else new) h.freeBit.1, h.freeBit.2⟩

/-- Both TLBs take a translation, the entry `v` going where one is full. -/
def holdAt (dev : Device) (co key v : Nat) (t : Tr) : Device :=
  { modCore dev co fun x => { x with tlb := tlbPut x.tlb 128 v key t } with
    ctlb := NMap.put dev.ctlb (clusterOf co) (tlbPut (NMap.get [] dev.ctlb (clusterOf co)) 8192 v key t) }

/-- A core as one that has taken the translation, or another. -/
theorem core_holdAt (dev : Device) (co key v : Nat) (t : Tr) (n : Nat) : core (holdAt dev co key v t) n =
    if n = co then { core dev co with tlb := tlbPut (core dev co).tlb 128 v key t } else core dev n :=
  NMap.get_put ..

theorem SameCode.holdAt (h : SameCode d e) (co key v : Nat) (t : Tr) :
    SameCode (holdAt d co key v t) (holdAt e co key v t) := by
  refine ⟨h.mem, h.ctxs, congrArg (fun m => NMap.put m _ (tlbPut (NMap.get [] m _) _ _ _ _)) h.ctlb, h.codeLog, h.free,
    fun n => ?_, fun n => ?_⟩
  · rw [core_holdAt, core_holdAt]
    split
    · exact congrArg (tlbPut · 128 v key t) (h.tlb co)
    · exact h.tlb n
  · rw [core_holdAt, core_holdAt]
    split
    · exact h.bumpAt co
    · exact h.bumpAt n

/-- Which entry goes is drawn where a TLB is full. -/
theorem tlbHold_eq (dev : Device) (co key : Nat) (t : Tr) : tlbHold dev co key t =
    if NMap.find? (core dev co).tlb key = some t ∧ NMap.find? (NMap.get [] dev.ctlb (clusterOf co)) key = some t then dev
    else if (core dev co).tlb.length < 128 ∧ (NMap.get [] dev.ctlb (clusterOf co)).length < 8192 then
      holdAt dev co key 0 t
    else holdAt (freeNat dev).2 co key (freeNat dev).1 t := by
  unfold tlbHold
  dsimp only
  split_ifs <;> rfl

theorem SameCode.tlbHold (h : SameCode d e) (co key : Nat) (t : Tr) :
    SameCode (tlbHold d co key t) (tlbHold e co key t) := by
  rw [tlbHold_eq, tlbHold_eq, h.tlb, h.ctlb]
  split
  · exact h
  · split
    · exact h.holdAt ..
    · rw [h.freeNat.1]
      exact h.freeNat.2.holdAt ..

/-- The device after a translation: the TLBs hold what has served. -/
def held (co key : Nat) (r : WRes × Device) : Device :=
  match r.1 with
  | .leaf t => tlbHold r.2 co key t
  | _ => r.2

theorem translate_eq (dev : Device) (co c va : Nat) (need : Need) : translate dev co c va need =
    if 2 ^ 57 ≤ va then (.protection, dev)
    else (permit need va (tlbLookup dev co (2 ^ 41 * c + va / 65536) (walkVa dev c va)).1,
      held co (2 ^ 41 * c + va / 65536) (tlbLookup dev co (2 ^ 41 * c + va / 65536) (walkVa dev c va))) := by
  unfold translate held
  split
  · rfl
  · rfl

theorem SameCode.translate (h : SameCode d e) (co c va : Nat) (need : Need) :
    (translate e co c va need).1 = (translate d co c va need).1 ∧
      SameCode (translate d co c va need).2 (translate e co c va need).2 := by
  rw [translate_eq, translate_eq, h.walkVa]
  split
  · exact ⟨rfl, h⟩
  · obtain ⟨h1, h2⟩ := h.tlbLookup co (2 ^ 41 * c + va / 65536) (Machine.walkVa d c va)
    refine ⟨congrArg (permit need va) h1, ?_⟩
    unfold held
    rw [h1]
    split
    · exact h2.tlbHold ..
    · exact h2

theorem SameCode.formerWords (h : SameCode d e) (co pa : Nat) : formerWords e co pa = formerWords d co pa := by
  unfold Machine.formerWords
  rw [h.codeLog, h.bumpAt]

/-- The word at a place of memory: as it is, or as it was (R193). -/
def codeWordAt (dev : Device) (co pa : Nat) : FRes × Device :=
  match formerWords dev co pa with
  | [] => (.word (BitVec.ofNat 64 (leNat (Memory.bytes dev.mem pa 8))), dev)
  | ws => (.word (ws.getD ((freeNat dev).1 % (ws.length + 1)) (BitVec.ofNat 64 (leNat (Memory.bytes dev.mem pa 8)))),
      (freeNat dev).2)

/-- What a translation gives a fetch. -/
def fetched (co : Nat) : TRes × Device → FRes × Device
  | (.page l, d) => (.page l, d)
  | (.protection, d) => (.protection, d)
  | (.ok pa, d) => codeWordAt d co pa

theorem fetchWord_eq (dev : Device) (co c va : Nat) :
    fetchWord dev co c va = fetched co (translate dev co c va .fetch) := by
  unfold fetchWord
  generalize translate dev co c va .fetch = r
  obtain ⟨a, d⟩ := r
  cases a with
  | page l => rfl
  | protection => rfl
  | ok pa => rfl

theorem SameCode.codeWordAt (h : SameCode d e) (co pa : Nat) : (codeWordAt e co pa).1 = (codeWordAt d co pa).1 := by
  unfold Machine.codeWordAt
  rw [h.formerWords, h.mem, h.freeNat.1]
  split <;> rfl

/-- A fetch gives the same word of both. -/
theorem SameCode.fetchWord (h : SameCode d e) (co c va : Nat) :
    (fetchWord e co c va).1 = (fetchWord d co c va).1 := by
  rw [fetchWord_eq, fetchWord_eq]
  obtain ⟨h1, h2⟩ := h.translate co c va .fetch
  generalize Machine.translate d co c va .fetch = r at h1 h2
  generalize Machine.translate e co c va .fetch = q at h1 h2
  obtain ⟨a, d1⟩ := r
  obtain ⟨b, e1⟩ := q
  obtain rfl : b = a := h1
  cases b with
  | page l => rfl
  | protection => rfl
  | ok pa => exact h2.codeWordAt co pa

/-! ### What a fetch keeps -/

theorem tlbLookup_keeps (d : Device) (co key : Nat) (new : WRes) : FetchKeeps d (tlbLookup d co key new).2 := by
  unfold tlbLookup
  dsimp only
  split
  · exact ⟨rfl, rfl, rfl⟩
  · split <;> exact ⟨rfl, rfl, rfl⟩

theorem tlbHold_keeps (d : Device) (co key : Nat) (t : Tr) : FetchKeeps d (tlbHold d co key t) := by
  rw [tlbHold_eq]
  split
  · exact ⟨rfl, rfl, rfl⟩
  · split <;> exact ⟨rfl, rfl, rfl⟩

theorem translate_keeps (d : Device) (co c va : Nat) (need : Need) : FetchKeeps d (translate d co c va need).2 := by
  rw [translate_eq]
  split
  · exact ⟨rfl, rfl, rfl⟩
  · refine (tlbLookup_keeps d co (2 ^ 41 * c + va / 65536) (walkVa d c va)).trans ?_
    dsimp only
    unfold held
    split
    · exact tlbHold_keeps ..
    · exact ⟨rfl, rfl, rfl⟩

theorem fetchWord_keeps (d : Device) (co c va : Nat) : FetchKeeps d (fetchWord d co c va).2 := by
  rw [fetchWord_eq]
  refine (translate_keeps d co c va .fetch).trans ?_
  generalize translate d co c va .fetch = r
  obtain ⟨a, d1⟩ := r
  cases a with
  | page l => exact ⟨rfl, rfl, rfl⟩
  | protection => exact ⟨rfl, rfl, rfl⟩
  | ok pa =>
    show FetchKeeps d1 (codeWordAt d1 co pa).2
    unfold codeWordAt
    split <;> exact ⟨rfl, rfl, rfl⟩

end

/-! ### What the clock and the count of an issue leave of a wave -/

/-- Thread `t` has become `u` by counts and timestamps alone. -/
def Clocked (t u : Thread) : Prop := u = { t with runOn := u.runOn, pts := u.pts }

theorem Clocked.refl (t : Thread) : Clocked t t := rfl

theorem Clocked.trans {t u v : Thread} (h : Clocked t u) (k : Clocked u v) : Clocked t v := by
  unfold Clocked at *
  rw [k, h]

section
variable {x z : Wave} {y : Group} {g : Nat}

/-- A change of one thread's counts and timestamps. -/
theorem clocked_modThread (x : Wave) (j : Nat) {f : Thread → Thread} (hf : ∀ t, Clocked t (f t)) (l : Nat) :
    Clocked (thread x l) (thread (modThread x j f) l) := by
  unfold thread NMap.get
  rw [find_modThread]
  split
  · rename_i h
    subst h
    cases NMap.find? x.threads l with
    | none => exact .refl _
    | some t => exact hf t
  · exact .refl _

theorem clocked_eachThread (x : Wave) (ls : List Nat) {f : Nat → Thread → Thread} (hf : ∀ j t, Clocked t (f j t)) (l : Nat) :
    Clocked (thread x l) (thread (eachThread x ls f) l) := by
  induction ls generalizing x with
  | nil => exact .refl _
  | cons j ls ih => exact (clocked_modThread x j (hf j) l).trans (ih _)

theorem clocked_map (x : Wave) {f : Thread → Thread} (hf : ∀ t, Clocked t (f t)) (l : Nat) :
    Clocked (thread x l) (thread { x with threads := x.threads.map fun q => (q.1, f q.2) } l) := by
  unfold thread NMap.get
  rw [NMap.find?_map]
  cases NMap.find? x.threads l with
  | none => exact .refl _
  | some t => exact hf t

/-- Wave `x` has become `z` by its counters and its threads' timestamps alone (R198, R364). -/
def WaveClocked (x z : Wave) : Prop :=
  z = { x with pmc := z.pmc, threads := z.threads } ∧ ∀ l, Clocked (thread x l) (thread z l)

theorem WaveClocked.trans {a b c : Wave} (h : WaveClocked a b) (k : WaveClocked b c) : WaveClocked a c := by
  refine ⟨?_, fun l => (h.2 l).trans (k.2 l)⟩
  rw [k.1, h.1]

/-- A thread that issues an instruction of its run-on. -/
def runsOn (t : Thread) : Thread := { t with runOn := t.runOn + 1 }

/-- The wave as the count of an issue leaves its counters. -/
def counting (x : Wave) : Wave :=
  let z := pmcAdd { x with issues := x.issues + 1 } 0 1
  if x.first.isSome then { z with runOn := z.runOn + 1 } else z

/-- The same with its threads' run-on. -/
def counted (x : Wave) (ls : List Nat) : Wave :=
  if x.first.isSome then eachThread (counting x) ls fun _ => runsOn else counting x

theorem counting_eq (x : Wave) :
    counting x = { x with pmc := (counting x).pmc, runOn := (counting x).runOn, issues := x.issues + 1 } := by
  unfold counting
  dsimp only
  split <;> rfl

theorem counted_eq (x : Wave) (ls : List Nat) : counted x ls = { counting x with threads := (counted x ls).threads } := by
  unfold counted
  split
  · exact eachThread_eq ..
  · rfl

theorem clocked_counted (x : Wave) (ls : List Nat) (l : Nat) : Clocked (thread x l) (thread (counted x ls) l) := by
  have h : thread (counting x) l = thread x l := by rw [counting_eq]; rfl
  rw [← h]
  unfold counted
  split
  · exact clocked_eachThread (f := fun _ => runsOn) _ _ (fun _ _ => rfl) l
  · exact .refl _

theorem countIssue_eq (hg : NMap.find? x.groups g = some y) : countIssue x g =
    setGroup (counted x y.lanes) g { y with ord := (counted x y.lanes).issues, mask := laneMask y.lanes } := by
  unfold countIssue counted counting
  rw [group_of_find hg]
  dsimp only
  split <;> rfl

/-- The next instruction of a group is counted: its place in the order of issue and its GROUPMASK are kept (R355, R356,
R364). -/
theorem countIssue_effect (hg : NMap.find? x.groups g = some y) :
    countIssue x g = { x with
      pmc := (countIssue x g).pmc, runOn := (countIssue x g).runOn, issues := x.issues + 1
      threads := (countIssue x g).threads
      groups := NMap.put x.groups g { y with ord := x.issues + 1, mask := laneMask y.lanes } } ∧
    ∀ l, Clocked (thread x l) (thread (countIssue x g) l) := by
  rw [countIssue_eq hg]
  refine ⟨?_, clocked_counted x y.lanes⟩
  rw [counted_eq, counting_eq]
  rfl

/-! ### A quarter's clock (R112, R198, R364) -/

variable {dev d : Device} {w co q : Nat} {c : Cand}

theorem SameCode.refl (d : Device) : SameCode d d := ⟨rfl, rfl, rfl, rfl, rfl, fun _ => rfl, fun _ => rfl⟩

theorem SameCode.trans {a b c : Device} (h : SameCode a b) (k : SameCode b c) : SameCode a c :=
  ⟨k.mem.trans h.mem, k.ctxs.trans h.ctxs, k.ctlb.trans h.ctlb, k.codeLog.trans h.codeLog, k.free.trans h.free,
    fun n => (k.tlb n).trans (h.tlb n), fun n => (k.bumpAt n).trans (h.bumpAt n)⟩

theorem sameCode_modWave (dev : Device) (w : Nat) (f : Wave → Wave) : SameCode dev (modWave dev w f) := by
  rw [modWave_eq]
  exact ⟨rfl, rfl, rfl, rfl, rfl, fun _ => rfl, fun _ => rfl⟩

/-- A change of a core's quarters is nothing to a fetch. -/
theorem sameCode_quarters (dev : Device) (co q : Nat) (y : Quarter) :
    SameCode dev (modCore dev co fun x => { x with quarters := NMap.put x.quarters q y }) := by
  refine ⟨rfl, rfl, rfl, rfl, rfl, fun n => ?_, fun n => ?_⟩
  · by_cases hn : n = co
    · subst hn; rw [core_modCore_self]
    · rw [core_modCore_ne _ _ hn]
  · by_cases hn : n = co
    · subst hn; rw [core_modCore_self]
    · rw [core_modCore_ne _ _ hn]

/-- Of device `d`, `e` has all but the waves that a step of issue changes; wave `w`, `x` before, is `z`. -/
structure IssueStep (d e : Device) (w : Nat) (x z : Wave) : Prop where
  before : NMap.find? d.waves w = some x
  after : NMap.find? e.waves w = some z
  mem : e.mem = d.mem
  wgs : e.wgs = d.wgs

theorem issueStep_modWave {f : Wave → Wave} (h : NMap.find? dev.waves w = some x) :
    IssueStep dev (modWave dev w f) w x (f x) :=
  ⟨h, find_modWave_self f h, modWave_mem .., modWave_wgs ..⟩

theorem IssueStep.trans {a b e : Device} {z u : Wave} (h : IssueStep a b w x z) (k : IssueStep b e w z u) :
    IssueStep a e w x u := ⟨h.before, k.after, k.mem.trans h.mem, k.wgs.trans h.wgs⟩

/-- The counters that a front-end clock adds to (R364). -/
def clockCount (cs : List Cand) (chosen : Option Cand) (n : Nat) (x : Wave) : Wave :=
  if cs.any (fun c => chosen != some c) then pmcAdd (pmcAdd x 2 n) 3 n else pmcAdd x 2 n

theorem waveClocked_pmcAdd (x : Wave) (n k : Nat) : WaveClocked x (pmcAdd x n k) := ⟨rfl, fun _ => .refl _⟩

theorem waveClocked_clockCount (cs : List Cand) (chosen : Option Cand) (n : Nat) (x : Wave) :
    WaveClocked x (clockCount cs chosen n x) := by
  unfold clockCount
  split
  · exact (waveClocked_pmcAdd x 2 n).trans (waveClocked_pmcAdd ..)
  · exact waveClocked_pmcAdd ..

theorem quarterClock_one (dev : Device) (w : Nat) (cs : List Cand) (chosen : Option Cand) (n : Nat) :
    quarterClock dev [(w, cs)] chosen n = modWave dev w (clockCount cs chosen n) := rfl

/-- A living thread's timestamp rises with the clock (R198). -/
def ptsRises (n : Nat) (t : Thread) : Thread := if alive t then { t with pts := t.pts + BitVec.ofNat 64 n } else t

theorem clocked_ptsRises (n : Nat) (t : Thread) : Clocked t (ptsRises n t) := by
  unfold ptsRises
  split <;> rfl

theorem ptsClock_one (dev : Device) (w old new : Nat) : ptsClock dev [w] old new =
    if new / 1024 - old / 1024 = 0 then dev
    else modWave dev w fun x => { x with threads := x.threads.map fun q => (q.1, ptsRises (new / 1024 - old / 1024) q.2) } := rfl

/-- A clock of a quarter with one wave leaves of it all but its counters and timestamps. -/
theorem clocks_one (hx : NMap.find? dev.waves w = some x) (cs : List Cand) (chosen : Option Cand) (n old new : Nat) :
    ∃ z, SameCode dev (ptsClock (quarterClock dev [(w, cs)] chosen n) [w] old new) ∧
      IssueStep dev (ptsClock (quarterClock dev [(w, cs)] chosen n) [w] old new) w x z ∧ WaveClocked x z := by
  rw [quarterClock_one, ptsClock_one]
  have h1 := sameCode_modWave dev w (clockCount cs chosen n)
  have h2 := issueStep_modWave (f := clockCount cs chosen n) hx
  have h3 := waveClocked_clockCount cs chosen n x
  split
  · exact ⟨_, h1, h2, h3⟩
  · exact ⟨_, h1.trans (sameCode_modWave ..), h2.trans (issueStep_modWave h2.after),
      h3.trans ⟨rfl, clocked_map _ (clocked_ptsRises _)⟩⟩

/-! ### Selection (R112) -/

/-- A quarter with one candidate takes it, whether it is starved or not. -/
theorem pickCand_one (dev : Device) (qs : Quarter) (w : Nat) (c : Cand) (elig : List (Cand × Nat)) :
    pickCand dev qs [(w, [c])] elig = some (w, c) := by
  unfold pickCand
  simp only [List.flatMap_cons, List.flatMap_nil, List.map_cons, List.map_nil, List.append_nil, List.filter_cons,
    List.filter_nil]
  split
  · rename_i p h
    split at h
    · simpa [minBy] using h.symm
    · simp [minBy] at h
  · simp only [minBy, beq_self_eq_true, if_true, sortBy, sortBy.insertByFirst]
    cases qs.last with
    | none => simp
    | some c' =>
      simp
      split <;> rfl

theorem issueQuarter_one (hq : quarterWaves dev co q = [w]) (hc : waveCands dev w = [c]) (hg : c.group = some g) :
    ∃ k y, issueQuarter dev co q = issueWord (modCore (ptsClock (quarterClock dev [(w, [c])] (some c) 1) [w] k (k + 1)) co
      fun x => { x with quarters := NMap.put x.quarters q y }) w g := by
  unfold issueQuarter
  simp only [hq, List.map_cons, List.map_nil, hc, pickCand_one, hg, Option.map_some]
  exact ⟨_, _, rfl⟩

/-! ### Issuing a word (R111, R116, R359) -/

/-- The group as its next instruction issues with word `iw`. -/
def Group.issuing (y : Group) (ord : Nat) (iw : DWord) : Group :=
  { y with iw := some iw, ord := ord, mask := laneMask y.lanes }

/-- The wave once the word of a group's next instruction is known. -/
def issuingWave (x : Wave) (g : Nat) (y : Group) (iw : DWord) : Wave :=
  setGroup (countIssue x g) g (y.issuing (x.issues + 1) iw)

theorem issuingWave_eq (hg : NMap.find? x.groups g = some y) (iw : DWord) :
    issuingWave x g y iw = { x with
      pmc := (issuingWave x g y iw).pmc, runOn := (issuingWave x g y iw).runOn, issues := x.issues + 1
      threads := (issuingWave x g y iw).threads
      groups := NMap.put x.groups g (y.issuing (x.issues + 1) iw) } := by
  have h := (countIssue_effect hg).1
  unfold issuingWave setGroup
  generalize countIssue x g = z at h
  rw [h, NMap.put_put]

theorem clocked_issuingWave (hg : NMap.find? x.groups g = some y) (iw : DWord) (l : Nat) :
    Clocked (thread x l) (thread (issuingWave x g y iw) l) := (countIssue_effect hg).2 l

/-- Of the wave before the clock, what the issue of a word leaves. -/
theorem issuingWave_effect (hz : WaveClocked x z) (hg : NMap.find? x.groups g = some y) (iw : DWord) :
    issuingWave z g y iw = { x with
      pmc := (issuingWave z g y iw).pmc, runOn := (issuingWave z g y iw).runOn, issues := x.issues + 1
      threads := (issuingWave z g y iw).threads, groups := (issuingWave z g y iw).groups } ∧
    NMap.find? (issuingWave z g y iw).groups g = some (y.issuing (x.issues + 1) iw) ∧
    (∀ h, h ≠ g → NMap.find? (issuingWave z g y iw).groups h = NMap.find? x.groups h) ∧
    ∀ l, Clocked (thread x l) (thread (issuingWave z g y iw) l) := by
  obtain ⟨hzx, hzt⟩ := hz
  have hgroups : z.groups = x.groups := by rw [hzx]
  have hissues : z.issues = x.issues := by rw [hzx]
  have hzg : NMap.find? z.groups g = some y := by rw [hgroups, hg]
  have hu := issuingWave_eq hzg iw
  have hug : (issuingWave z g y iw).groups = NMap.put x.groups g (y.issuing (x.issues + 1) iw) := by
    rw [hu, hgroups, hissues]
  refine ⟨?_, ?_, fun h hh => ?_, fun l => (hzt l).trans (clocked_issuingWave hzg iw l)⟩
  · rw [hu, hzx]
  · rw [hug, NMap.find?_put_self]
  · rw [hug, NMap.find?_put_ne _ _ hh]

/-- A group whose next instruction's word is fetched and stands for `i` brings it to execution. -/
theorem issueWord_runs {iw : DWord} {i : Instr} (hx : NMap.find? dev.waves w = some x)
    (hg : NMap.find? x.groups g = some y) (hb : y.began = false) (hi : y.iw = none)
    (hf : (fetchWord dev x.core x.ctx (wordAddr y.clause y.index).toNat).1 = .word iw)
    (hd : decodeWord y.hdr.cls x.regs (y.index == y.hdr.count) y.hdr.tail iw = .ok i) :
    ∃ e, issueWord dev w g = ({ e with cur := (w, g) }, some i) ∧ IssueStep dev e w x (issuingWave x g y iw) := by
  have h0 := issueStep_modWave (f := fun x => countIssue x g) hx
  have hs := (sameCode_modWave dev w fun x => countIssue x g).fetchWord x.core x.ctx (wordAddr y.clause y.index).toNat
  obtain ⟨hz, -⟩ := countIssue_effect hg
  unfold issueWord
  rw [wave_of_find hx, group_of_find hg, hb, if_neg Bool.false_ne_true]
  generalize modWave dev w (fun x => countIssue x g) = d0 at h0 hs
  generalize hz2 : countIssue x g = z at h0 hz
  dsimp only
  have hcore : z.core = x.core := by rw [hz]
  have hctx : z.ctx = x.ctx := by rw [hz]
  have hregs : z.regs = x.regs := by rw [hz]
  have hgrp : group z g = { y with ord := x.issues + 1, mask := laneMask y.lanes } := by
    rw [hz]; exact group_of_find (NMap.find?_put_self ..)
  rw [wave_of_find h0.after, hgrp]
  dsimp only [groupWord]
  rw [hi, hcore, hctx]
  dsimp only
  have hk := fetchWord_keeps d0 x.core x.ctx (wordAddr y.clause y.index).toNat
  rw [hf] at hs
  generalize fetchWord d0 x.core x.ctx (wordAddr y.clause y.index).toNat = r at hs hk
  obtain ⟨fr, d1⟩ := r
  obtain rfl : fr = .word iw := hs
  obtain ⟨hkw, hkm, hkg⟩ := hk
  dsimp only [wordInstr]
  rw [hregs, hd]
  refine ⟨_, rfl, hx, ?_, (modWave_mem ..).trans (hkm.trans h0.mem), (modWave_wgs ..).trans (hkg.trans h0.wgs)⟩
  rw [find_modWave_self _ (show NMap.find? d1.waves w = some z by rw [hkw]; exact h0.after), issuingWave, hz2]
  rfl

end

/-! ### The actions -/

section
variable {s : State} {r : List Action}

theorem step_event {i : Instr} (hs : s.agenda = .event i :: r) (hi : isEvent i = true) :
    step s = if arrived s.dev i then exec i (cutAt { s with agenda := r } none) else .next { s with agenda := r } := by
  simp only [step, nextAction, hs, bring, bringEvent, hi, Bool.true_and]
  split <;> rfl

theorem step_eventCut {i : Instr} {n : Nat} (hs : s.agenda = .eventCut i n :: r) (hi : isEvent i = true) :
    step s = if arrived s.dev i then exec i (cutAt { s with agenda := r } (some n)) else .next { s with agenda := r } := by
  simp only [step, nextAction, hs, bring, bringEvent, hi, Bool.true_and]
  split <;> rfl

/-- With no access under way there is none that an access of a node has to wait for. -/
theorem arrived_of_no_aps {dev : Device} (h : dev.aps = []) (i : Instr) : arrived dev i = true := by
  have hb (node : Nat) (rest : Apert → Bool) : behindAperture dev node rest = false := by rw [behindAperture, h]; rfl
  unfold arrived
  split <;> simp [hb]

theorem step_saggarCustom {co : Nat} {i : Instr} (hs : s.agenda = .saggar co :: r) (ho : s.saggar.on = true) (hc : co < 8)
    (hw : (s.saggar.core co).wait = none) (hm : (s.saggar.core co).machine = true)
    (hl : inLocal (s.saggar.core co).pc.toNat 4 = true) (hk : (s.saggar.core co).word.extractLsb' 0 7 = 0x0B#7)
    (hd : decodeSaggar (s.saggar.core co).word = some i) :
    step s = exec i { s with agenda := r, saggar := { s.saggar with cur := co } } := by
  have h4 : (s.saggar.core co).word.toNat % 4 = 3 := by
    have h := congrArg BitVec.toNat hk
    simp only [BitVec.extractLsb'_toNat, Nat.shiftRight_zero] at h
    norm_num at h
    omega
  have h8 := Nat.not_le.2 hc
  simp [step, nextAction, hs, bring, bringSaggar, ho, h8, hw, h4, hl, hk, hm, hd, finish]

/-- An action of issue, cut or whole. -/
def IssuesAt (s : State) (co q : Nat) (r : List Action) (k : Option Nat) : Prop :=
  s.agenda = .issue co q :: r ∧ k = none ∨ ∃ n, s.agenda = .issueCut co q n :: r ∧ k = some n

theorem step_issue {co q : Nat} {k : Option Nat} (h : IssuesAt s co q r k) :
    step s = finish (bringIssue { s with agenda := r } co q k) := by
  rcases h with ⟨hs, rfl⟩ | ⟨n, hs, rfl⟩ <;> simp only [step, nextAction, hs, bring]

theorem step_issue_runs {co q : Nat} {k : Option Nat} (h : IssuesAt s co q r k) (hc : co < Config.cores) (hq : q < 4)
    (hr : (cluster s.power (clusterOf co)).ret = false) {d : Device} {i : Instr}
    (hi : issueQuarter s.dev co q = (d, some i)) :
    step s = exec i { s with agenda := r, dev := { d with cut := k } } := by
  rw [step_issue h, bringIssue, if_neg]
  · simp only [hi]
    rfl
  · rintro (h | h | h)
    · exact Nat.not_le.2 hc h
    · exact Nat.not_le.2 hq h
    · exact Bool.false_ne_true (hr.symm.trans h)

end

/-! ### The obligation -/

/-- Settles O54: each action by what it brings; a group's word by the one candidate that its quarter selects, which the
clock's counts leave as it was. -/
theorem stepRunsDecoded : Obligations.StepRunsDecoded := by
  unfold Obligations.StepRunsDecoded
  refine ⟨fun s i r hi => ⟨fun hs => step_event hs hi, fun n hs => step_eventCut hs hi⟩,
    fun dev i _ h => arrived_of_no_aps h i,
    fun s co r i hs ho hc hw hm hl hk hd => step_saggarCustom hs ho hc hw hm hl hk hd, ?issue⟩
  intro s co q r w c g x y iw i k ha hco hq hret hws hcs hg hx hy hb hi hf hd
  obtain ⟨clk, qs, hiq⟩ := issueQuarter_one hws hcs hg
  obtain ⟨z, hsame, hstep, hz, hzt⟩ := clocks_one hx [c] (some c) 1 clk (clk + 1)
  generalize ptsClock (quarterClock s.dev [(w, [c])] (some c) 1) [w] clk (clk + 1) = d1 at hiq hsame hstep
  have hsame2 := hsame.trans (sameCode_quarters d1 co q qs)
  have hzg : NMap.find? z.groups g = some y := by rw [hz]; exact hy
  have hzc : z.core = x.core ∧ z.ctx = x.ctx ∧ z.regs = x.regs ∧ z.issues = x.issues := by
    rw [hz]; exact ⟨rfl, rfl, rfl, rfl⟩
  obtain ⟨hcore, hctx, hregs, hiss⟩ := hzc
  obtain ⟨e, he, hes⟩ := issueWord_runs (dev := modCore d1 co fun x => { x with quarters := NMap.put x.quarters q qs })
    hstep.after hzg hb hi (by rw [hcore, hctx, hsame2.fetchWord]; exact hf) (by rw [hregs]; exact hd)
  have hwave : wave e w = issuingWave z g y iw := wave_of_find hes.after
  have heff := issuingWave_effect ⟨hz, hzt⟩ hy iw
  rw [← hwave] at heff
  exact ⟨_, step_issue_runs ha hco hq hret (hiq.trans he), rfl, rfl, hes.mem.trans hstep.mem, hes.wgs.trans hstep.wgs, heff⟩

end Sys2Proof.Machine
end

section
/-!
Spawn bins (R26, R84, R85, R252, R253, R439): the checks of SPAWN, a thread's entry into a bin that has threads, and what
launches a bin that is the only one.
-/
namespace Sys2Proof.Machine

variable {d e : Device} {s : State} {x : Wave} {y : Group} {l : Nat} {t : Thread} {cl c : Nat} {b0 : Bin}

/-! ### Fetching an entry header (R25, R193, R252) -/

/-- A fetch of code changes at most the TLBs and the count of free values drawn. -/
def TlbsOnly (d e : Device) : Prop := e = { d with cores := e.cores, ctlb := e.ctlb, free := e.free }

theorem TlbsOnly.trans {a b c : Device} (h : TlbsOnly a b) (k : TlbsOnly b c) : TlbsOnly a c := by
  unfold TlbsOnly at *
  rw [k, h]

theorem TlbsOnly.waves (h : TlbsOnly d e) : e.waves = d.waves := by rw [h]
theorem TlbsOnly.bins (h : TlbsOnly d e) : e.bins = d.bins := by rw [h]
theorem TlbsOnly.launches (h : TlbsOnly d e) : e.launches = d.launches := by rw [h]

theorem tlbLookup_tlbsOnly (d : Device) (co key : Nat) (new : WRes) : TlbsOnly d (tlbLookup d co key new).2 := by
  unfold tlbLookup
  dsimp only
  split
  · rfl
  · split <;> rfl

theorem tlbHold_tlbsOnly (d : Device) (co key : Nat) (t : Tr) : TlbsOnly d (tlbHold d co key t) := by
  rw [tlbHold_eq]
  split
  · rfl
  · split <;> rfl

theorem translate_tlbsOnly (d : Device) (co c va : Nat) (need : Need) : TlbsOnly d (translate d co c va need).2 := by
  rw [translate_eq]
  split
  · rfl
  · refine (tlbLookup_tlbsOnly d co (2 ^ 41 * c + va / 65536) (walkVa d c va)).trans ?_
    dsimp only
    unfold held
    split
    · exact tlbHold_tlbsOnly ..
    · rfl

theorem codeWordAt_tlbsOnly (d : Device) (co pa : Nat) : TlbsOnly d (codeWordAt d co pa).2 := by
  unfold codeWordAt
  split <;> rfl

theorem fetchWord_tlbsOnly (d : Device) (co c va : Nat) : TlbsOnly d (fetchWord d co c va).2 := by
  rw [fetchWord_eq]
  refine (translate_tlbsOnly d co c va .fetch).trans ?_
  generalize translate d co c va .fetch = r
  obtain ⟨a, d1⟩ := r
  cases a with
  | page _ => rfl
  | protection => rfl
  | ok pa => exact codeWordAt_tlbsOnly d1 co pa

theorem fetchEntry_tlbsOnly (d : Device) (co c va n : Nat) : TlbsOnly d (fetchEntry d co c va n).2 := by
  induction n generalizing d va with
  | zero => rfl
  | succ n ih =>
    have h := fetchWord_tlbsOnly d co c va
    unfold fetchEntry
    generalize fetchWord d co c va = r at h
    obtain ⟨a, d1⟩ := r
    cases a with
    | page _ => exact h
    | protection => exact h
    | word w =>
      have h' := h.trans (ih d1 (va + 8))
      dsimp only
      generalize fetchEntry d1 co c (va + 8) n = q at h'
      obtain ⟨a, d2⟩ := q
      cases a <;> exact h'

theorem spawnCheck_tlbsOnly (d : Device) (x : Wave) (t : Thread) (entry : DWord) :
    TlbsOnly d (spawnCheck d x t entry).2 := by
  have h := fetchEntry_tlbsOnly d x.core x.ctx (entry - 32).toNat 4
  unfold spawnCheck
  split
  · rfl
  · dsimp only
    generalize fetchEntry d x.core x.ctx (entry - 32).toNat 4 = r at h
    obtain ⟨a, d1⟩ := r
    cases a with
    | error a => cases a <;> exact h
    | ok bs =>
      dsimp only
      split
      · exact h
      · split <;> exact h

/-- Both devices stay the same to later fetches. -/
theorem SameCode.fetchWord_device (h : SameCode d e) (co c va : Nat) :
    SameCode (Machine.fetchWord d co c va).2 (Machine.fetchWord e co c va).2 := by
  rw [fetchWord_eq, fetchWord_eq]
  obtain ⟨h1, h2⟩ := h.translate co c va .fetch
  generalize Machine.translate d co c va .fetch = r at h1 h2
  generalize Machine.translate e co c va .fetch = q at h1 h2
  obtain ⟨a, d1⟩ := r
  obtain ⟨b, e1⟩ := q
  obtain rfl : b = a := h1
  cases b with
  | page _ => exact h2
  | protection => exact h2
  | ok pa =>
    show SameCode (Machine.codeWordAt d1 co pa).2 (Machine.codeWordAt e1 co pa).2
    dsimp only at h2
    unfold Machine.codeWordAt
    rw [h2.formerWords]
    cases Machine.formerWords d1 co pa with
    | nil => exact h2
    | cons w ws => exact h2.freeNat.2

theorem SameCode.fetchEntry (h : SameCode d e) (co c va n : Nat) :
    (fetchEntry e co c va n).1 = (fetchEntry d co c va n).1 := by
  induction n generalizing d e va with
  | zero => rfl
  | succ n ih =>
    have h1 := h.fetchWord co c va
    have h2 := h.fetchWord_device co c va
    unfold Machine.fetchEntry
    generalize Machine.fetchWord d co c va = r at h1 h2
    generalize Machine.fetchWord e co c va = q at h1 h2
    obtain ⟨a, d1⟩ := r
    obtain ⟨b, e1⟩ := q
    obtain rfl : b = a := h1
    cases b with
    | page _ => rfl
    | protection => rfl
    | word w =>
      have h3 := ih h2 (va + 8)
      dsimp only at h3 ⊢
      generalize Machine.fetchEntry d1 co c (va + 8) n = r at h3
      generalize Machine.fetchEntry e1 co c (va + 8) n = q at h3
      obtain ⟨a, d2⟩ := r
      obtain ⟨b, e2⟩ := q
      obtain rfl : b = a := h3
      cases b <;> rfl

/-- The checks of SPAWN read the code, and of the thread its depth (R26, R252). -/
theorem SameCode.spawnCheck (h : SameCode d e) (x : Wave) {t u : Thread} (hu : u.depth = t.depth) (entry : DWord) :
    (spawnCheck e x u entry).1 = (spawnCheck d x t entry).1 := by
  have h1 := h.fetchEntry x.core x.ctx (entry - 32).toNat 4
  unfold Machine.spawnCheck
  rw [hu]
  split
  · rfl
  · dsimp only
    generalize Machine.fetchEntry d x.core x.ctx (entry - 32).toNat 4 = r at h1
    generalize Machine.fetchEntry e x.core x.ctx (entry - 32).toNat 4 = q at h1
    obtain ⟨a, d2⟩ := r
    obtain ⟨b, e2⟩ := q
    obtain rfl : b = a := h1
    cases b with
    | error a => cases a <;> rfl
    | ok bs =>
      dsimp only
      split
      · rfl
      · split <;> rfl

/-! ### A bin that has threads (R84, R85) -/

theorem Bin.is_self (b : Bin) : b.is b.cluster b.ctx b.entry = true := by simp [Bin.is]

theorem Bin.is_iff {b : Bin} {entry : DWord} :
    b.is cl c entry = true ↔ b.cluster = cl ∧ b.ctx = c ∧ b.entry = entry := by simp [Bin.is, and_assoc]

theorem Bin.is_of_binAt {entry : DWord} (h : binAt d cl c entry = some b0) : b0.is cl c entry = true := by
  unfold binAt at h
  have hf := List.find?_some h
  exact hf

/-- A bin keeps the launch of its first thread as others enter (R26, R78). -/
theorem Bin.launch_enter {b : Bin} (h : b.threads ≠ []) (u : BinThread) :
    Bin.launch { b with threads := b.threads ++ [u] } = b.launch := by
  unfold Bin.launch
  cases hb : b.threads with
  | nil => exact absurd hb h
  | cons v r => rfl

/-- A launch that does not replay has no record to follow (R394). -/
theorem binRec_of_not_rep {lid : Nat} (h : (launch d lid).hdr.rep = false) (cl entry : Nat) :
    binRec d lid cl entry = none := by simp [binRec, h]

/-- The bins of `d` after `u` has entered bin `b` of an entry. -/
def binsWith (d : Device) (b : Bin) (u : BinThread) : List Bin :=
  d.bins.map fun z => if z.is b.cluster b.ctx b.entry then { b with threads := b.threads ++ [u] } else z

/-- A thread enters a bin that has threads, and still has room (R84, R85). -/
theorem enterBin_existing {entry : DWord} (hb : binAt d cl c entry = some b0) (hn : b0.threads ≠ [])
    (hl : b0.threads.length < 63) (hr : (launch d b0.launch).hdr.rep = false) (h : EntryHdr) (u : BinThread) :
    enterBin d cl c entry h u = { d with bins := binsWith d b0 u } := by
  obtain ⟨rfl, rfl, rfl⟩ := Bin.is_iff.1 (Bin.is_of_binAt hb)
  have hrec : binRec { d with bins := binsWith d b0 u } b0.launch b0.cluster b0.entry.toNat = none :=
    binRec_of_not_rep (d := { d with bins := binsWith d b0 u }) hr ..
  have hfull : ¬ Config.W ≤ b0.threads.length + 1 := by simp only [Config.W]; omega
  unfold binsWith at hrec
  simp [enterBin, hb, Bin.launch_enter hn, askBinCount, hrec, hfull, binsWith]

theorem binAt_binsWith {entry : DWord} (hb : binAt d cl c entry = some b0) (u : BinThread) :
    binAt { d with bins := binsWith d b0 u } cl c entry = some { b0 with threads := b0.threads ++ [u] } := by
  obtain ⟨rfl, rfl, rfl⟩ := Bin.is_iff.1 (Bin.is_of_binAt hb)
  have his : Bin.is { b0 with threads := b0.threads ++ [u] } b0.cluster b0.ctx b0.entry = true := b0.is_self
  unfold binAt at hb
  unfold binAt binsWith
  dsimp only
  rw [List.find?_map]
  have hcomp : ((fun b : Bin => b.is b0.cluster b0.ctx b0.entry) ∘ fun z : Bin =>
      if z.is b0.cluster b0.ctx b0.entry then { b0 with threads := b0.threads ++ [u] } else z) =
      fun b => b.is b0.cluster b0.ctx b0.entry := by
    funext z
    dsimp only [Function.comp]
    split
    · rename_i hz; rw [his, hz]
    · rfl
  rw [hcomp, hb, Option.map_some, b0.is_self, if_pos rfl]

/-- A thread for a bin that there is needs no 33rd (R85). -/
theorem roomForBin_existing {entry : DWord} (hb : binAt d cl c entry = some b0) (lid : Nat) :
    roomForBin d lid cl c entry = (true, d) := by
  simp [roomForBin, needsBin, hb]

/-- The thread that a SPAWN by `t` enters (R26, R252). -/
def spawned (t : Thread) (workid : DWord) (pay : List Word) : BinThread :=
  { workid := workid, pay := pay, depth := t.depth + 1, launch := t.launch, paint := none, pts := t.pts }

/-- SPAWN at an entry whose bin has threads and room: the thread enters it. -/
theorem spawnAt_existing {entry : DWord} {h : EntryHdr} (hc : (spawnCheck d x t entry).1 = .ok h)
    (hb : binAt d (clusterOf x.core) x.ctx entry = some b0) (hn : b0.threads ≠ []) (hl : b0.threads.length < 63)
    (hr : (launch d b0.launch).hdr.rep = false) (workid : DWord) (pay : List Word) :
    ∃ e, TlbsOnly d e ∧ spawnAt d x t entry workid pay none =
      (.entered, { e with bins := binsWith d b0 (spawned t workid pay) }) := by
  have ht := spawnCheck_tlbsOnly d x t entry
  generalize hq : spawnCheck d x t entry = q at hc ht
  obtain ⟨a, e⟩ := q
  obtain rfl : a = .ok h := hc
  have hb' : binAt e (clusterOf x.core) x.ctx entry = some b0 := by rw [binAt, ht.bins]; exact hb
  have hr' : (launch e b0.launch).hdr.rep = false := by rw [launch, ht.launches]; exact hr
  refine ⟨e, ht, ?_⟩
  unfold spawnAt
  rw [hq]
  dsimp only
  rw [roomForBin_existing hb']
  dsimp only
  rw [enterThread, enterBin_existing hb' hn hl hr', binsWith, binsWith, ht.bins]
  rfl

/-! ### The launch of the only bin (R85, R86, R253, R439) -/

/-- The device once its only bin has launched: the bin is a unit that awaits placement. -/
def binLaunched (d : Device) (b : Bin) : Device :=
  { d with bins := [], binUnits := d.binUnits ++ [{ b with order := d.binSeq }], binSeq := d.binSeq + 1 }

section
variable {entry : DWord} (hd : d.bins = [b0]) (hn : b0.threads ≠ []) (hb : b0.is cl c entry = true)
  (hr : (launch d b0.launch).hdr.rep = false)

include hd hn in
theorem launchBin_only : launchBin d b0 = binLaunched d b0 := by
  simp [launchBin, hd, hn, b0.is_self, binLaunched]

include hd hb in
theorem binAt_only : binAt d cl c entry = some b0 := by simp [binAt, hd, hb]

include hd hn hb hr

theorem flushBins_only (E : Option DWord) (hE : E.isNone ∨ E = some entry) : flushBins d cl c E = binLaunched d b0 := by
  obtain ⟨rfl, rfl, rfl⟩ := Bin.is_iff.1 hb
  have hsel : (E.isNone || E == some b0.entry) = true := by simpa using hE
  unfold flushBins
  simp [hd, hsel, binRec_of_not_rep hr, launchBin_only hd hn]

theorem binTimer_only (ht : b0.timer ≠ 0) (hdet : (launch d b0.launch).hdr.det = false)
    (hrec : (launch d b0.launch).hdr.rec_ = false) (hdue : b0.since + 100 * b0.timer ≤ d.ticks) :
    binTimer d cl c entry = binLaunched d b0 := by
  have hwait : ¬ d.ticks < b0.since + 100 * b0.timer := Nat.not_lt.2 hdue
  unfold binTimer
  simp [binAt_only hd hb, ht, hdet, hwait, askBin, binRec_of_not_rep hr, hrec, launchBin_only hd hn]

theorem binDrains_only (ho : ∀ t ∈ b0.threads, launchOutside d t.launch = false) :
    binDrains d cl c entry = binLaunched d b0 := by
  have hin : ¬ b0.threads.any fun t => launchOutside d t.launch := by simpa using ho
  unfold binDrains
  rw [binAt_only hd hb]
  dsimp only
  rw [if_neg hin]
  simp [askDrain, binRec_of_not_rep hr, launchBin_only hd hn]

end

/-! ### The obligation -/

/-- The payload of a SPAWN (R252). -/
def payOf (x : Wave) (t : Thread) (b : Src) : List Word := [rdQuad x t b 0, rdQuad x t b 1, rdQuad x t b 2]

/-- What SPAWN does for each member of wave `w` (R252). -/
def spawnMember (w : Nat) (k : CBit) (a b c : Src) (dv : Device) (x : Wave) (t : Thread) (l : Nat) : LaneRes × Device :=
  match spawnAt dv x (threadAt dv w l) (rd64 x t a) (rd64 x t c) (payOf x t b) none with
  | (.entered, d) => (.done { ks := [(k, true)] }, d)
  | (.failed, d) => (.done { ks := [(k, false)] }, d)
  | (.held, d) => (.wait .again, d)
  | (.page va lv, d) => (.page va 5 lv (rd64 x t a - 32), d)
  | (.protection, d) => (.fault cPROT (rd64 x t a - 32) 0, d)

theorem exec_spawn (p : Pred) (k : CBit) (a b c : Src) (s : State) : exec (.spawn p k a b c) s =
    .next { s with dev := members s.dev p none (spawnMember s.dev.cur.1 k a b c) } := rfl

/-- What BFLUSH does for each member (R253). -/
def flushMember (a : Option Src) (dv : Device) (x : Wave) (t : Thread) (_ : Nat) : LaneRes × Device :=
  (.done {}, flushBins dv (clusterOf x.core) x.ctx (a.map fun r => rd64 x t r))

theorem exec_bflush (p : Pred) (a : Option Src) (s : State) : exec (.bflush p a) s =
    .next { s with dev := members s.dev p none (flushMember a) } := rfl

theorem exec_binTimerExpiry (cl c : Nat) (entry : DWord) (s : State) : exec (.binTimerExpiry cl c entry) s =
    .next { s with dev := binTimer s.dev cl c entry } := rfl

theorem exec_binDrain (cl c : Nat) (entry : DWord) (s : State) : exec (.binDrain cl c entry) s =
    .next { s with dev := binDrains s.dev cl c entry } := rfl

theorem sameCode_begunDev (s : State) (x : Wave) (y : Group) (l : Nat) : SameCode s.dev (begunDev s x y l) :=
  ⟨rfl, rfl, rfl, rfl, rfl, fun _ => rfl, fun _ => rfl⟩

theorem spawn_enters (h : Alone s x y l t) {p : Pred} (hp : performs p t = true) {k : CBit} {a b c : Src} {hd : EntryHdr}
    (hc : (spawnCheck s.dev x t (rd64 x t a)).1 = .ok hd)
    (hb : binAt s.dev (clusterOf x.core) x.ctx (rd64 x t a) = some b0) (hl : b0.threads.length < 63)
    (hn : b0.threads ≠ []) (hr : (launch s.dev b0.launch).hdr.rep = false) :
    ∃ s', exec (.spawn p k a b c) s = .next s' ∧ Passed s s' y ∧ cbit (thread (after s s') l) k = true ∧
      binAt s'.dev (clusterOf x.core) x.ctx (rd64 x t a) =
        some { b0 with threads := b0.threads ++ [spawned t (rd64 x t c) (payOf x t b)] } := by
  have ht : threadAt (begunDev s x y l) s.dev.cur.1 l = { t with issued := s.dev.ticks } := by
    obtain ⟨hw, -, hu, -⟩ := h.begun_facts
    rw [threadAt, wave_of_find hw, thread_of_find hu]
  have hc' : (spawnCheck (begunDev s x y l) x { t with issued := s.dev.ticks } (rd64 x t a)).1 = .ok hd :=
    ((sameCode_begunDev s x y l).spawnCheck x rfl _).trans hc
  obtain ⟨e, he, hs⟩ := spawnAt_existing hc' hb hn hl hr (rd64 x t c) (payOf x t b)
  have hf : spawnMember s.dev.cur.1 k a b c (begunDev s x y l) x t l = (.done { ks := [(k, true)] },
      { e with bins := binsWith (begunDev s x y l) b0 (spawned t (rd64 x t c) (payOf x t b)) }) := by
    rw [spawnMember, ht, hs]
    rfl
  obtain ⟨⟨ws, hm⟩, hpass, hk⟩ := members_result h hp none hf he.waves
  refine ⟨_, exec_spawn p k a b c s, hpass, (hk k).trans (cbit_setCbit ..), ?_⟩
  rw [hm]
  exact binAt_binsWith (d := begunDev s x y l) hb _

theorem bflush_launches (h : Alone s x y l t) {p : Pred} (hp : performs p t = true) {entry : DWord}
    (hd : s.dev.bins = [b0]) (hn : b0.threads ≠ []) (hb : b0.is (clusterOf x.core) x.ctx entry = true)
    (hr : (launch s.dev b0.launch).hdr.rep = false) (a : Option Src) (ha : (a.map fun r => rd64 x t r).isNone ∨
      (a.map fun r => rd64 x t r) = some entry) :
    ∃ s', exec (.bflush p a) s = .next s' ∧ Passed s s' y ∧ s'.dev.bins = [] ∧
      s'.dev.binUnits = s.dev.binUnits ++ [{ b0 with order := s.dev.binSeq }] := by
  have hf : flushMember a (begunDev s x y l) x t l = (.done {}, binLaunched (begunDev s x y l) b0) :=
    congrArg (Prod.mk _) (flushBins_only (d := begunDev s x y l) hd hn hb hr _ ha)
  obtain ⟨⟨ws, hm⟩, hpass, -⟩ := members_result h hp none hf rfl
  refine ⟨_, exec_bflush p a s, hpass, ?_⟩
  rw [hm]
  exact ⟨rfl, rfl⟩

/-- Settles O30: SPAWN by the bin its thread enters, each of the launches by the one bin it takes. -/
theorem spawnBins : Obligations.SpawnBins := by
  unfold Obligations.SpawnBins
  refine ⟨?spawn, ?flush, ?timer, ?drain⟩
  case spawn =>
    intro s x y l t p k a b c h d b0 ha hp hc hb hl hn hr
    obtain ⟨s', hs, hpass, hk, hb1⟩ := spawn_enters (k := k) (b := b) (c := c) ha hp (congrArg Prod.fst hc) hb hl hn hr
    exact ⟨s', _, hs, hpass, hk, hb1, rfl⟩
  case flush =>
    intro s x y l t p a b0 h hp hd hn hb hr
    exact ⟨bflush_launches h hp hd hn hb hr (some a) (.inr rfl), bflush_launches h hp hd hn hb hr none (.inl rfl)⟩
  case timer =>
    intro s cl c e b0 hd hb hn ht hdet hr hrec hdue
    refine ⟨_, exec_binTimerExpiry cl c e s, ?_⟩
    rw [binTimer_only hd hn hb hr ht hdet hrec hdue]
    exact ⟨rfl, rfl⟩
  case drain =>
    intro s cl c e b0 hd hb hn ho hr
    refine ⟨_, exec_binDrain cl c e s, ?_⟩
    rw [binDrains_only hd hn hb hr ho]
    exact ⟨rfl, rfl⟩

end Sys2Proof.Machine
end

section
/-!
Eviction (R89 to R91, R366, R369, R370): what Saggar's writes change of the device, where a frame is written, and a wave
whose workgroup follows it out of its core to a save area that has no room for the workgroup's frame.
-/
namespace Sys2Proof.Machine

variable {a b d dev : Device} {c n va w : Nat}

/-! ### What Saggar's reads and writes change -/

/-- The device `dev` with the memory, the code log, the stamps and the count of free values of `e`. -/
def storedAs (dev e : Device) : Device :=
  { dev with mem := e.mem, home := e.home, codeLog := e.codeLog, codeSeq := e.codeSeq, agents := e.agents
             topTs := e.topTs, free := e.free }

/-- Device `d` differs from `dev` by reads and writes of Saggar in main memory. -/
def Stored (dev d : Device) : Prop := d = storedAs dev d

theorem Stored.refl (dev : Device) : Stored dev dev := rfl

theorem Stored.trans (h : Stored a b) (k : Stored b d) : Stored a d := by
  unfold Stored at *
  rw [k, h]
  rfl

theorem Stored.waves (h : Stored dev d) : d.waves = dev.waves := by rw [h]; rfl

theorem stored_foldl {α : Type} {f : Device → α → Device} (h : ∀ d a, Stored d (f d a)) (l : List α) (dev : Device) :
    Stored dev (l.foldl f dev) :=
  List.foldlRecOn (motive := fun e => Stored dev e) l f (.refl _) fun e he a _ => he.trans (h e a)

theorem stored_putBytes_glob (dev : Device) (a : Nat) (bs : List Byte) : Stored dev (putBytes dev (.glob a) bs) := by
  have h : Stored dev (logCode dev a bs.length (Memory.putBytes dev.mem a bs)) := by
    unfold logCode
    refine stored_foldl (fun d w => ?_) _ _
    dsimp only
    split <;> rfl
  show Stored dev { logCode dev a bs.length (Memory.putBytes dev.mem a bs) with mem := _ }
  exact h.trans rfl

theorem stored_writeSpans {ls : List (Loc × Nat)} (hl : ∀ p ∈ ls, ∃ a, p.1 = .glob a) (dev : Device) (bs : List Byte) :
    Stored dev (writeSpans dev .saggar ls bs) := by
  induction ls generalizing dev bs with
  | nil => rfl
  | cons p r ih =>
    obtain ⟨l, n⟩ := p
    obtain ⟨a, rfl⟩ := hl _ List.mem_cons_self
    have hs : Stored dev (stampWrite dev .saggar (.glob a)) := rfl
    exact (hs.trans (stored_putBytes_glob _ a (bs.take n))).trans (ih (fun q hq => hl q (List.mem_cons_of_mem _ hq)) _ _)

theorem stored_saggarStore {bs : List Byte} (h : saggarStore dev c va bs = .ok d) : Stored dev d := by
  unfold saggarStore at h
  cases hs : directSpans dev c .store (sectorSpans va bs.length) <;> rw [hs] at h
  · cases h
  · cases h; exact stored_writeSpans (directSpans_glob hs) dev bs

theorem stored_readSpans (dev : Device) (ls : List (Loc × Nat)) (hl : ∀ p ∈ ls, ∃ a, p.1 = .glob a) :
    Stored dev (readSpans dev .saggar ls).2 := by
  induction ls generalizing dev with
  | nil => rfl
  | cons p r ih =>
    obtain ⟨l, n⟩ := p
    obtain ⟨a, rfl⟩ := hl _ List.mem_cons_self
    have hr := ih (stampRead (readAt dev (.glob a) n).2 .saggar (.glob a)) fun q hq => hl q (List.mem_cons_of_mem _ hq)
    exact Stored.trans (b := stampRead (readAt dev (.glob a) n).2 .saggar (.glob a)) rfl hr

theorem stored_saggarLoad {bs : List Byte} (h : saggarLoad dev c va n = some (bs, d)) : Stored dev d := by
  unfold saggarLoad at h
  split at h
  · rename_i ls hs
    have hd : (readSpans dev .saggar ls).2 = d := congrArg Prod.snd (Option.some.inj h)
    exact hd ▸ stored_readSpans dev ls (directSpans_glob hs)
  · cases h

theorem stored_writeLog {bs : List Byte} (h : writeLog dev c bs = some d) : Stored dev d := by
  simp only [writeLog] at h
  split at h
  · cases h
  · rename_i cnt d0 hl
    split at h
    · cases h
    · rename_i d1 h1
      split at h
      · cases h
      · rename_i d2 h2
        cases h
        exact ((stored_saggarLoad hl).trans (stored_saggarStore h1)).trans (stored_saggarStore h2)

theorem stored_touchFrame (h : touchFrame dev c n true = some d) : Stored dev d := by
  unfold touchFrame at h
  simp only [if_true] at h
  split at h
  · rename_i d1 hs
    cases h
    exact Stored.trans (b := (freeBytes (freeNat dev).2).2) rfl (stored_saggarStore hs)
  · cases h

theorem waves_zeroGranules (dev : Device) (c va n : Nat) : (zeroGranules dev c va n).waves = dev.waves := by
  unfold zeroGranules
  refine (stored_foldl (fun d a => ?_) _ dev).waves
  exact Stored.trans (b := stampWrite d .saggar (.glob a)) rfl (stored_putBytes_glob ..)

theorem waves_closeSessions (dev : Device) (c : Nat) : (closeSessions dev c).waves = dev.waves := by
  unfold closeSessions
  refine (stored_foldl (fun d p => ?_) _ dev).waves
  split
  · split
    · exact stored_saggarStore ‹_›
    · rfl
  · rfl

/-- A context that is lost has the waves that are left once its workgroups have been killed (R370). -/
theorem waves_saveAreaLoss (h : (ctx dev c).busy ≠ 2) :
    (saveAreaLoss dev c).waves = (killAll (haltQueues dev c 7 none) c none saveCause).waves := by
  rw [saveAreaLoss, if_neg h, discardContext, modCtx_waves, endContext, modCtx_waves]
  exact (waves_zeroGranules ..).trans (waves_closeSessions ..)

/-! ### Where a frame is written (R369) -/

/-- Every sector of an access lies within it. -/
theorem sectorSpans_bounds {a n : Nat} {p : Nat × Nat} (h : p ∈ sectorSpans a n) : a ≤ p.1 ∧ p.1 < a + n := by
  unfold sectorSpans at h
  split at h
  · cases h
  · obtain ⟨i, hi, rfl⟩ := List.mem_map.1 h
    have hi' := List.mem_range.1 hi
    dsimp only
    split <;> omega

theorem directSpans_isOk {need : Need} {ls : List (Nat × Nat)}
    (h : ∀ p ∈ ls, ∃ pa, translateDirect dev c p.1 need = .ok pa) : (directSpans dev c need ls).isOk = true := by
  induction ls with
  | nil => rfl
  | cons p r ih =>
    obtain ⟨pa, hp⟩ := h p List.mem_cons_self
    have hr := ih fun q hq => h q (List.mem_cons_of_mem _ hq)
    rw [directSpans, hp]
    cases hd : directSpans dev c need r with
    | error e => rw [hd] at hr; cases hr
    | ok ks => rfl

/-- An access that goes beyond the address space does not translate (R189). -/
theorem directSpans_beyond {need : Need} {ls : List (Nat × Nat)} {p : Nat × Nat} (hp : p ∈ ls) (h : 2 ^ 57 ≤ p.1) :
    (directSpans dev c need ls).isOk = false := by
  induction ls with
  | nil => cases hp
  | cons q r ih =>
    rcases List.mem_cons.1 hp with rfl | hr
    · rw [directSpans, translateDirect, if_pos h]; rfl
    · have ih' := ih hr
      rw [directSpans]
      split
      · cases hd : directSpans dev c need r with
        | error e => rfl
        | ok ks => rw [hd] at ih'; cases ih'
      · rfl

/-! ### The loss of a context without engine work (R370, R375) -/

/-- No engine has work, and no object is registered. -/
structure NoWork (dev : Device) : Prop where
  jobs : dev.jobs = []
  chunks : dev.chunks = []
  objs : dev.objs = []
  kiln : ∀ p ∈ dev.wgs, p.2.kiln = none

theorem NoWork.kiln_wg (h : NoWork dev) (g : Nat) : (wg dev g).kiln = none := by
  unfold wg NMap.get
  cases hf : NMap.find? dev.wgs g with
  | none => rfl
  | some x => exact h.kiln _ (mem_of_find? hf)

/-- From `dev` to `d` no engine is given work, and a wave that `d` has is one of `dev`, in the same workgroup. -/
structure Lessens (dev d : Device) : Prop where
  work : NoWork dev → NoWork d
  homes : ∀ p ∈ d.waves, ∃ q ∈ dev.waves, q.1 = p.1 ∧ q.2.wg = p.2.wg

theorem Lessens.refl (dev : Device) : Lessens dev dev := ⟨id, fun p hp => ⟨p, hp, rfl, rfl⟩⟩

theorem Lessens.trans (h : Lessens a b) (k : Lessens b d) : Lessens a d := by
  refine ⟨k.work ∘ h.work, fun p hp => ?_⟩
  obtain ⟨q, hq, h1, h2⟩ := k.homes p hp
  obtain ⟨r, hr, h3, h4⟩ := h.homes q hq
  exact ⟨r, hr, h3.trans h1, h4.trans h2⟩

theorem lessens_foldl {α : Type} {f : Device → α → Device} (h : ∀ d a, Lessens d (f d a)) (l : List α) (dev : Device) :
    Lessens dev (l.foldl f dev) :=
  List.foldlRecOn (motive := fun e => Lessens dev e) l f (.refl _) fun e he a _ => he.trans (h e a)

/-- A change of neither the waves nor the workgroups, which adds no job, chunk or object. -/
theorem lessens_of_same (hw : d.waves = dev.waves) (hg : d.wgs = dev.wgs) (hj : dev.jobs = [] → d.jobs = [])
    (hc : dev.chunks = [] → d.chunks = []) (ho : dev.objs = [] → d.objs = []) : Lessens dev d :=
  ⟨fun h => ⟨hj h.jobs, hc h.chunks, ho h.objs, hg ▸ h.kiln⟩, fun p hp => ⟨p, hw ▸ hp, rfl, rfl⟩⟩

theorem Stored.lessens (h : Stored dev d) : Lessens dev d := by
  rw [h]
  exact lessens_of_same rfl rfl id id id

theorem lessens_modWave (dev : Device) (w : Nat) {f : Wave → Wave} (hf : ∀ x, (f x).wg = x.wg) :
    Lessens dev (modWave dev w f) := by
  unfold modWave
  split
  · rename_i x hx
    refine ⟨fun h => ⟨h.jobs, h.chunks, h.objs, h.kiln⟩, fun p hp => ?_⟩
    rcases mem_put hp with rfl | hp
    · exact ⟨_, mem_of_find? hx, rfl, (hf x).symm⟩
    · exact ⟨p, hp, rfl, rfl⟩
  · exact .refl _

theorem lessens_modThreadAt (dev : Device) (w l : Nat) (f : Thread → Thread) : Lessens dev (modThreadAt dev w l f) :=
  lessens_modWave _ _ fun x => modThread_wg x l f

theorem lessens_modWg (dev : Device) (g : Nat) {f : Wg → Wg} (hf : ∀ x, x.kiln = none → (f x).kiln = none) :
    Lessens dev (modWg dev g f) := by
  refine ⟨fun h => ⟨by simp [h.jobs], by simp [h.chunks], by simp [h.objs], ?_⟩,
    fun p hp => ⟨p, modWg_waves dev g f ▸ hp, rfl, rfl⟩⟩
  unfold modWg
  split
  · rename_i x hx
    intro p hp
    rcases mem_put hp with rfl | hp
    · exact hf x (h.kiln _ (mem_of_find? hx))
    · exact h.kiln p hp
  · exact h.kiln

theorem lessens_modLaunch (dev : Device) (n : Nat) (f : Launch → Launch) : Lessens dev (modLaunch dev n f) :=
  lessens_of_same (modLaunch_waves ..) (modLaunch_wgs ..) (by simp) (by simp) (by simp)

theorem lessens_sweepObjs (dev : Device) : Lessens dev (sweepObjs dev) :=
  lessens_of_same rfl rfl id id fun h => by simp [sweepObjs, h]

theorem lessens_deliverToken (dev : Device) (n : Nat) : Lessens dev (deliverToken dev n) := by
  refine ⟨fun h => ⟨h.jobs, h.chunks, h.objs, h.kiln⟩, fun p hp => ?_⟩
  rw [waves_deliverToken] at hp
  obtain ⟨q, hq, rfl⟩ := List.mem_map.1 hp
  refine ⟨q, hq, rfl, ?_⟩
  unfold tokenArrived
  split <;> rfl

theorem lessens_putByte (dev : Device) (o : Loc) (v : Byte) : Lessens dev (putByte dev o v) := by
  cases o with
  | glob a => exact lessens_of_same rfl rfl id id id
  | scr g a =>
    refine lessens_modWg dev g ?_
    exact fun _ h => h

theorem lessens_stampWrite (dev : Device) (w l : Nat) (o : Loc) : Lessens dev (stampWrite dev (.lane w l) o) := by
  refine Lessens.trans ?_ (lessens_modThreadAt _ w l _)
  exact lessens_of_same rfl rfl id id id

theorem lessens_breakObj (dev : Device) (w l : Nat) (o : Loc) : Lessens dev (breakObj dev (.lane w l) o) := by
  unfold breakObj
  split
  · exact .refl _
  · exact (lessens_stampWrite dev w l o).trans (lessens_putByte ..)

theorem lessens_breakObjects (dev : Device) (w l : Nat) : Lessens dev (breakObjects dev w l) := by
  unfold breakObjects
  refine (lessens_foldl (fun d b => ?_) _ _).trans (lessens_modThreadAt ..)
  exact (lessens_breakObj d w l b.loc).trans (lessens_of_same rfl rfl id id fun h => by simp [unregister, modObj, h])

theorem lessens_discardEntry (dev : Device) (c : Nat) (t : Thread) : Lessens dev (discardEntry dev c t) := by
  unfold discardEntry
  split
  · exact .refl _
  · dsimp only
    split
    · exact .refl _
    · split
      · split
        · exact lessens_modWg _ _ fun _ => id
        · exact .refl _
      · exact .refl _

theorem lessens_endWave (dev : Device) (w : Nat) : Lessens dev (endWave dev w) := by
  have hd : Lessens dev (modWave (unpinWave dev w) w fun x =>
      { x with live := false, resident := false, groups := [], gathers := [] }) := by
    refine Lessens.trans (lessens_of_same (d := unpinWave dev w) rfl rfl id id id) (lessens_modWave _ _ ?_)
    exact fun _ => rfl
  unfold endWave
  dsimp only
  split
  · exact hd
  · exact (hd.trans (lessens_modLaunch ..)).trans (lessens_deliverToken ..)

theorem lessens_killWave (dev : Device) (w : Nat) (k : Cause) : Lessens dev (killWave dev w k).2 := by
  unfold killWave
  dsimp only
  split
  · exact .refl _
  · have hlog : Lessens dev (match writeLog dev (wave dev w).ctx (waveRecord (wave dev w) k) with
        | some d => (true, d)
        | none => (false, dev)).2 := by
      cases hl : writeLog dev (wave dev w).ctx (waveRecord (wave dev w) k) with
      | none => exact .refl _
      | some d => exact (stored_writeLog hl).lessens
    refine Lessens.trans ?_ (lessens_endWave ..)
    refine Lessens.trans (hlog.trans (lessens_foldl (fun d l => ?_) (aliveLanes (wave dev w)) _))
      (lessens_of_same rfl rfl id id id)
    exact ((lessens_discardEntry ..).trans (lessens_breakObjects ..)).trans (lessens_modThreadAt ..)

theorem cancelJobs_noWork (h : NoWork dev) (g : Nat) : cancelJobs dev g = dev := by
  rw [cancelJobs, h.jobs, List.foldl_nil]

theorem lessens_cancelChunks (dev : Device) (g : Nat) : Lessens dev (cancelChunks dev g) := by
  unfold cancelChunks
  refine Lessens.trans (lessens_of_same ?_ ?_ ?_ ?_ ?_) (lessens_sweepObjs _)
  · rfl
  · rfl
  · exact id
  · exact fun h => by simp [h]
  · exact fun h => by simp [h]

theorem lessens_endKiln (h : NoWork dev) (g : Nat) : Lessens dev (endKiln dev g) := by
  have hk : kilnLeaveRings dev g = dev := by rw [kilnLeaveRings, h.objs, List.foldl_nil]
  unfold endKiln
  dsimp only
  rw [hk]
  refine Lessens.trans (Lessens.trans (lessens_of_same ?_ ?_ ?_ ?_ ?_) (lessens_modWg _ g ?_)) (lessens_sweepObjs _)
  · rfl
  · rfl
  · exact id
  · exact id
  · exact fun h => by simp [h]
  · intro x hx
    simp [hx]

theorem NMap.mem_of_mem_erase {α : Type} {m : NMap α} {k : Nat} {p : Nat × α} (h : p ∈ NMap.erase m k) : p ∈ m := by
  induction m with
  | nil => exact h
  | cons q r ih =>
    rw [NMap.erase] at h
    split at h
    · exact List.mem_cons_of_mem _ (ih h)
    · rcases List.mem_cons.1 h with rfl | h
      · exact List.mem_cons_self
      · exact List.mem_cons_of_mem _ (ih h)

/-- With a workgroup go its waves. -/
theorem lessens_removeWg (dev : Device) (g : Nat) :
    Lessens dev (removeWg dev g) ∧ ∀ p ∈ (removeWg dev g).waves, p.2.wg ≠ g := by
  have h1 : Lessens dev { dev with wgs := NMap.erase dev.wgs g, waves := dev.waves.filter fun p => p.2.wg != g } :=
    ⟨fun h => ⟨h.jobs, h.chunks, h.objs, fun p hp => h.kiln p (NMap.mem_of_mem_erase hp)⟩,
      fun p hp => ⟨p, List.mem_of_mem_filter hp, rfl, rfl⟩⟩
  have h2 : ∀ p ∈ dev.waves.filter fun p => p.2.wg != g, p.2.wg ≠ g := fun p hp => by
    simpa using (List.mem_filter.1 hp).2
  unfold removeWg
  dsimp only
  split
  · exact ⟨h1.trans (lessens_sweepObjs _), h2⟩
  · exact ⟨(h1.trans (lessens_sweepObjs _)).trans (lessens_modLaunch ..), by rw [modLaunch_waves]; exact h2⟩

/-- A killed workgroup and its waves are gone, where no step of a Kiln is in progress (R375). -/
theorem lessens_killWg (h : NoWork dev) (g : Nat) (cause : Nat → Cause) :
    Lessens dev (killWg dev g cause).2 ∧ ∀ p ∈ (killWg dev g cause).2.waves, p.2.wg ≠ g := by
  have hw : Lessens dev ((wg dev g).waves.foldl (fun (r : Bool × Device) w =>
      (r.1 && (killWave r.2 w (cause w)).1, (killWave r.2 w (cause w)).2)) (true, dev)).2 :=
    List.foldlRecOn (motive := fun r : Bool × Device => Lessens dev r.2) _ _ (.refl _)
      fun r hr w _ => hr.trans (lessens_killWave r.2 w (cause w))
  unfold killWg
  dsimp only
  generalize List.foldl _ _ _ = r at hw
  rw [cancelJobs_noWork (hw.work h)]
  have hd : Lessens dev (modWg (cancelChunks r.2 g) g fun y =>
      { y with paths := [], dests := [], bslots := [], rslots := [] }) := by
    refine (hw.trans (lessens_cancelChunks r.2 g)).trans (lessens_modWg _ g ?_)
    exact fun _ hx => hx
  generalize modWg (cancelChunks r.2 g) g _ = d3 at hd
  have hl : lingers d3 g = false := by simp [lingers, (hd.work h).kiln_wg]
  rw [hl, if_neg Bool.false_ne_true]
  have hr := lessens_removeWg (endKiln d3 g) g
  exact ⟨(hd.trans (lessens_endKiln (hd.work h) g)).trans hr.1, hr.2⟩

/-- One step of the kill of a context: workgroup `g`, and what of it has stayed. -/
def killStep (k : Cause) (r : Bool × Device) (g : Nat) : Bool × Device :=
  let q := killWg r.2 g fun _ => if r.1 then k else saveCause
  (r.1 && q.1, if (wg q.2 g).live then removeWg (endKiln q.2 g) g else q.2)

theorem lessens_killStep {r : Bool × Device} (h : NoWork r.2) (k : Cause) (g : Nat) :
    Lessens r.2 (killStep k r g).2 ∧ ∀ p ∈ (killStep k r g).2.waves, p.2.wg ≠ g := by
  unfold killStep
  generalize (fun _ : Nat => if r.1 then k else saveCause) = cause
  have hq := lessens_killWg h g cause
  dsimp only
  split
  · have hr := lessens_removeWg (endKiln (killWg r.2 g cause).2 g) g
    exact ⟨(hq.1.trans (lessens_endKiln (hq.1.work h) g)).trans hr.1, hr.2⟩
  · exact hq

theorem lessens_killSteps (k : Cause) (gs : List Nat) {r : Bool × Device} (h : NoWork r.2) :
    Lessens r.2 (gs.foldl (killStep k) r).2 ∧ ∀ g ∈ gs, ∀ p ∈ (gs.foldl (killStep k) r).2.waves, p.2.wg ≠ g := by
  induction gs generalizing r with
  | nil => exact ⟨.refl _, nofun⟩
  | cons g gs ih =>
    obtain ⟨h1, h2⟩ := lessens_killStep h k g
    obtain ⟨h3, h4⟩ := ih (h1.work h)
    refine ⟨h1.trans h3, fun j hj p hp => ?_⟩
    rcases List.mem_cons.1 hj with rfl | hj
    · obtain ⟨q, hq, -, hg⟩ := h3.homes p hp
      exact hg ▸ h2 q hq
    · exact h4 j hj p hp

/-- The workgroups of a context. -/
def wgsOf (dev : Device) (c : Nat) : List Nat :=
  dev.wgs.foldr (fun p r => if p.2.ctx == c then p.1 :: r else r) []

theorem mem_wgsOf {g : Nat} {y : Wg} (hg : (g, y) ∈ dev.wgs) (hy : y.ctx = c) : g ∈ wgsOf dev c := by
  unfold wgsOf
  generalize dev.wgs = m at hg
  induction m with
  | nil => cases hg
  | cons p r ih =>
    rw [List.foldr_cons]
    rcases List.mem_cons.1 hg with rfl | hr
    · rw [if_pos (by simpa using hy)]
      exact List.mem_cons_self
    · split
      · exact List.mem_cons_of_mem _ (ih hr)
      · exact ih hr

theorem waves_killAll (dev : Device) (c : Nat) (keep : Option Nat) (k : Cause) :
    (killAll dev c keep k).waves = ((wgsOf dev c).foldl (killStep k) (true, dev)).2.waves := by
  unfold killAll
  dsimp only
  rw [apply_ite Device.waves]
  exact ite_self _

/-- The waves of workgroup `g` are gone once its context is lost, where no engine had work (R370, R375). -/
theorem gone_saveAreaLoss {g : Nat} {y : Wg} (h : NoWork dev) (hb : (ctx dev c).busy ≠ 2) (hg : (g, y) ∈ dev.wgs)
    (hy : y.ctx = c) (hw : ∀ p ∈ dev.waves, p.1 = w → p.2.wg = g) : (wave (saveAreaLoss dev c) w).live = false := by
  have hq : NoWork (haltQueues dev c 7 none) := ⟨h.jobs, h.chunks, h.objs, h.kiln⟩
  obtain ⟨h1, h2⟩ := lessens_killSteps (r := (true, haltQueues dev c 7 none)) saveCause (wgsOf dev c) hq
  have hnone : NMap.find? (saveAreaLoss dev c).waves w = none := by
    rw [waves_saveAreaLoss hb, waves_killAll]
    cases hf : NMap.find? _ w with
    | none => rfl
    | some x =>
      obtain ⟨q, hq', hqw, hqg⟩ := h1.homes _ (mem_of_find? hf)
      exact absurd (hqg.symm.trans (hw q hq' hqw)) (h2 g (mem_wgsOf hg hy) _ (mem_of_find? hf))
  rw [wave, NMap.get, hnone]
  rfl

/-! ### A workgroup that follows its last wave out (R91)

A neighbourhood of two workgroups, of which the second is out. The save area is the last 192 KiB of the address space: two
granules of frames, which take the frame of any wave, wherever it goes; the frame of the first workgroup, with two bound
tiles, is one granule longer. -/

/-- A table with a writable leaf of 1 GiB for the last addresses of the space (R189, R190). -/
def topPages : Memory :=
  Memory.putBytes (Memory.putBytes [] 0x3FFFF8 (leBytes 8 0x400001)) 0x400FF8 (leBytes 8 0x1D)

/-- Workgroup `f1` of the neighbourhood, of one wave. -/
def pairWg (f1 : Nat) : Wg :=
  { launch := 1, nbhd := 1, num := f1, f1 := f1, live := true, core := 16 * f1, scratch := 4096, waves := [3 + f1] }

def pairWave (f1 : Nat) : Wave := { wg := 1 + f1, launch := 1, live := true, core := 16 * f1, threads := [(0, {})] }

/-- The wave of workgroup 1 has been chosen for eviction. -/
def pairDev : Device :=
  { mem := topPages
    ctxs := [(0, { cstate := 1, qcount := 1, ptroot := 0x200000, cls := 3, save := 2 ^ 57 - 196608, saveSize := 196608 })]
    launches := [(1, { hdr := { nbhd := true, extents := [1, 2, 1, 1, 1, 1], scratch := 4096, nrows := 2, ncols := 1 }
                       state := .released, cls := 3, nextWg := 2, liveWgs := 2 })]
    wgs := [(1, { pairWg 0 with resident := true, dests := [(0, {}), (1, {})] }), (2, { pairWg 1 with frame := 65536 })]
    waves := [(3, { pairWave 0 with resident := true, leaving := some false }), (4, pairWave 1)], nextId := 5 }

section
variable {mem : Memory} {table lev e pa fuel : Nat}

/-- An entry names the next level's table (R190). -/
theorem walk_table (he : tableEntry mem (table + 8 * levelIndex va lev) = e)
    (h : e % 2 = 1 ∧ bitsOf e 1 1 = 0 ∧ bitsOf e 2 1 = 0 ∧ bitsOf e 5 3 = 0 ∧ bitsOf e 52 12 = 0 ∧ lev ≠ 3 ∧
      bitsOf e 8 44 * 256 = pa ∧ pa % nextTableSize lev = 0) :
    walk mem va table lev (fuel + 1) = walk mem va pa (lev + 1) fuel := by
  obtain ⟨hv, h1, h2, h5, h52, hl, hpa, ht⟩ := h
  simp [walk, he, hv, h1, h2, h5, h52, hl, hpa, ht]

/-- An entry is a leaf (R190, R191). -/
theorem walk_leaf (he : tableEntry mem (table + 8 * levelIndex va lev) = e)
    (h : e % 2 = 1 ∧ bitsOf e 1 1 = 0 ∧ bitsOf e 2 1 = 1 ∧ bitsOf e 5 3 = 0 ∧ bitsOf e 52 12 = 0 ∧ lev ≠ 0 ∧
      bitsOf e 8 44 * 256 = pa ∧ pa % levelPage lev = 0) :
    walk mem va table lev (fuel + 1) = .leaf { pa := pa + va % levelPage lev / 65536 * 65536
                                               wr := bitsOf e 3 1 == 1, ex := bitsOf e 4 1 == 1 } := by
  obtain ⟨hv, h1, h2, h5, h52, hl, hpa, ht⟩ := h
  simp [walk, he, hv, h1, h2, h5, h52, hl, hpa, ht]

end

/-- Every address of the last 128 KiB translates for writes. -/
theorem translate_pairDev (h1 : 2 ^ 57 - 131072 ≤ va) (h2 : va < 2 ^ 57) :
    ∃ pa, translateDirect pairDev 0 va .store = .ok pa := by
  have i0 : levelIndex va 0 = 262143 := by simp only [levelIndex, bitsOf]; omega
  have i1 : levelIndex va 1 = 511 := by simp only [levelIndex, bitsOf]; omega
  have e0 : tableEntry topPages (0x200000 + 8 * 262143) = 0x400001 := by decide +kernel
  have e1 : tableEntry topPages (0x400000 + 8 * 511) = 0x1D := by decide +kernel
  have hr : (ctx pairDev 0).ptroot = 0x200000 := rfl
  have hm : pairDev.mem = topPages := rfl
  have hw : walkVa pairDev 0 va = .leaf { pa := 0 + va % 2 ^ 30 / 65536 * 65536, wr := true, ex := true } := by
    rw [walkVa, hr, hm, walk_table (e := 0x400001) (pa := 0x400000) (by rw [i0, e0]) (by decide),
      walk_leaf (e := 0x1D) (pa := 0) (by rw [i1, e1]) (by decide)]
    rfl
  exact ⟨_, by rw [translateDirect, if_neg (Nat.not_le.2 h2), hw]; rfl⟩

/-- The save area takes the wave's frame, wherever the device puts it. -/
theorem touchFrame_pairDev : (touchFrame pairDev 0 10240 true).isSome = true := by
  rw [touchFrame_isSome]
  refine directSpans_isOk fun p hp => ?_
  have hb := sectorSpans_bounds hp
  have hk := Nat.mod_lt (Config.freeNat 0) (show 0 < 196608 - 65536 - 10240 + 1 by decide)
  have hf : framePlace pairDev 0 10240 = 2 ^ 57 - 196608 + 65536 + Config.freeNat 0 % (196608 - 65536 - 10240 + 1) := rfl
  exact translate_pairDev (by omega) (by omega)

/-- The frame of the workgroup goes beyond the last address. -/
theorem touchFrame_pairWg (h : ctx dev 0 = ctx pairDev 0) : touchFrame dev 0 196608 true = none := by
  have hf : framePlace dev 0 196608 = 2 ^ 57 - 131072 := by
    rw [framePlace, h]
    exact congrArg (2 ^ 57 - 131072 + ·) (Nat.mod_one _)
  have hs := touchFrame_isSome dev 0 196608 true
  have hl : (2 ^ 57, 32) ∈ sectorSpans (2 ^ 57 - 131072) 196608 :=
    List.mem_map.2 ⟨4096, List.mem_range.2 (by decide), by decide⟩
  rw [hf, directSpans_beyond hl (Nat.le_refl _)] at hs
  exact Option.not_isSome_iff_eq_none.1 (by rw [hs]; exact Bool.false_ne_true)

/-! ### The obligation -/

theorem exec_waveEviction (w : Nat) (s : State) : exec (.waveEviction w) s = .next { s with dev := evictWave s.dev w } := rfl

/-- The device once the wave's frame has been written, as of `e`, and the wave has left its slot. -/
def pairOut (e : Device) : Device :=
  noteFreed (modWave (storedAs pairDev e) 3 leaveSlot) 3 (waveSeat (wave pairDev 3))

/-- The workgroup follows its wave, and its frame does not fit. -/
theorem leaveWhole_pairOut (e : Device) : leaveWhole (pairOut e) 1 = saveAreaLoss (pairOut e) 0 := by
  have hgo : (!(wg (pairOut e) 1).resident || !(partOut (pairOut e) 1 || (pairOut e).plans.any fun p => p.whole.contains 1) ||
      ((wg (pairOut e) 1).kiln.map Kiln.midStep).getD false ||
      (liveWaves (pairOut e) 1).any fun w => (wave (pairOut e) w).resident) = false := rfl
  have hg : wg (pairOut e) 1 = wg pairDev 1 := rfl
  have hj : (pairOut e).jobs = [] := rfl
  have hn : wgFrame (pairOut e) 1 = 196608 := by rw [wgFrame, hg, hj]; rfl
  have hc : (wg (pairOut e) 1).ctx = 0 := rfl
  unfold leaveWhole
  dsimp only
  rw [hgo, hn, hc, touchFrame_pairWg (dev := pairOut e) rfl]
  rfl

theorem evictWave_pairDev : ∃ e, evictWave pairDev 3 = saveAreaLoss (pairOut e) 0 := by
  obtain ⟨d, hd⟩ := Option.isSome_iff_exists.1 touchFrame_pairDev
  refine ⟨d, ?_⟩
  rw [← leaveWhole_pairOut, pairOut, ← stored_touchFrame hd]
  have hq : quiet pairDev 3 = true := rfl
  have hx : wave pairDev 3 = { pairWave 0 with resident := true, leaving := some false } := rfl
  have hch : chosen pairDev 3 = true := rfl
  unfold evictWave
  simp only [hq, hx, hch]
  show (match touchFrame pairDev 0 10240 true with | none => _ | some d => _) = _
  rw [hd]
  rfl

/-- Refutes O53: of the save area its first clause asks only that it takes the frame of the wave. A workgroup whose
neighbourhood is being evicted follows its last wave out (R91), and where the save area does not take its frame the context
is lost (R370), the wave with it. So it is in `pairDev`, where the clause has wave 3 live and out of its slot. -/
theorem not_evictionAndYield : ¬ Obligations.EvictionAndYield := by
  unfold Obligations.EvictionAndYield
  rintro ⟨hevict, -⟩
  obtain ⟨s', he, hlive, -⟩ := (hevict { State.reset with dev := pairDev } 3 (wave pairDev 3) rfl rfl rfl rfl rfl
    (by decide) rfl rfl).1 touchFrame_pairDev
  rw [exec_waveEviction] at he
  obtain rfl := Host.Outcome.next.inj he
  obtain ⟨e, hd⟩ := evictWave_pairDev
  have hgone : (wave (saveAreaLoss (pairOut e) 0) 3).live = false := by
    refine gone_saveAreaLoss (g := 1) ⟨rfl, rfl, rfl, ?_⟩ ?_ (List.mem_cons_self ..) rfl ?_
    · exact show ∀ p ∈ pairDev.wgs, p.2.kiln = none by decide
    · exact show (ctx pairDev 0).busy ≠ 2 by decide
    · exact show ∀ p ∈ (pairOut default).waves, p.1 = 3 → p.2.wg = 1 by decide
  rw [hd, hgone] at hlive
  cases hlive

end Sys2Proof.Machine
end

section
/-!
SUPPORT. What a word that passes the decoder's checks is made of: each check by what it ensures of its field, each shape by
the operands of the word (R101 to R106, R116, R121).
-/
namespace Sys2Proof

/-! ### What a check ensures -/

/-- Whatever passes the check satisfies `P`. -/
def Dec.Ensures {α : Type} (x : Dec α) (P : α → Prop) : Prop := ∀ a, x = .ok a → P a

namespace Dec.Ensures
variable {α β : Type} {x : Dec α} {f : α → Dec β} {P Q : α → Prop} {S : β → Prop} {a : α} {e : DErr}

theorem ofOk (h : P a) : Dec.Ensures (.ok a) P := fun _ hb => Except.ok.inj hb ▸ h
theorem ofError : Dec.Ensures (.error e) P := nofun
theorem mono (hx : x.Ensures P) (h : ∀ {a}, P a → Q a) : x.Ensures Q := fun a ha => h (hx a ha)
theorem andThen (hx : x.Ensures P) (hf : ∀ a, P a → (f a).Ensures S) : (x >>= f).Ensures S := by
  intro b hb
  cases x with
  | ok a => exact hf a (hx a rfl) b hb
  | error e => cases hb

end Dec.Ensures

open Dec.Ensures (andThen ofOk ofError)

/-! ### A word is made up of its fields (R101, R102) -/

/-- The operand fields and the predicate of an R-form word. -/
structure Operands (w : DWord) (dst a b c : BitVec 8) (p : Pred) : Prop where
  dst : fDst w = dst
  a : fOpa w = a
  b : fOpb w = b
  c : fOpc2 w = c
  pred : fPred w = ePred p

section
variable {o : Nat} {dst a b c : BitVec 8} {v md ix : BitVec 4} {fn : BitVec 12} {p : Pred} {imm : Word} {w : DWord}

theorem fOpc_eq (h : (fOpc w).toNat = o) : fOpc w = BitVec.ofNat 8 o := by
  rw [← h, BitVec.ofNat_toNat, BitVec.setWidth_eq]

theorem Operands.word (h : Operands w dst a b c p) (ho : (fOpc w).toNat = o) (hv : fVar w = v) (hm : fMod w = md)
    (hf : fFunc w = fn) : mkR (.ofNat 8 o) v dst a b c (ePred p) md fn = w := by
  obtain ⟨rfl, rfl, rfl, rfl, hp⟩ := h
  subst hv hm hf
  rw [← hp, ← fOpc_eq ho]
  refine BitVec.eq_of_getLsbD_eq fun i hi => ?_
  simp only [fOpc, fVar, fDst, fOpa, fOpb, fOpc2, fPred, fMod, fFunc, BitVec.getLsbD_extractLsb', mkR,
    BitVec.getLsbD_append]
  grind

theorem mkI_fields (ho : (fOpc w).toNat = o) (hv : fVar w = v) (hd : fDst w = dst) (ha : fOpa w = a)
    (hx : fIx w = ix) : mkI (.ofNat 8 o) v dst a ix (fImm w) = w := by
  subst hv hd ha hx
  rw [← fOpc_eq ho]
  refine BitVec.eq_of_getLsbD_eq fun i hi => ?_
  simp only [fOpc, fVar, fDst, fOpa, fIx, fImm, BitVec.getLsbD_extractLsb', mkI, BitVec.getLsbD_append]
  grind

end

/-! A conjunction of checks from its parts -/

section
variable {x y u t s : Bool}

theorem and_true2 (hx : x = true) (hy : y = true) : (x && y) = true := Bool.and_eq_true_iff.2 ⟨hx, hy⟩
theorem and_true3 (hx : x = true) (hy : y = true) (hu : u = true) : (x && y && u) = true := and_true2 (and_true2 hx hy) hu
theorem and_true4 (hx : x = true) (hy : y = true) (hu : u = true) (ht : t = true) : (x && y && u && t) = true :=
  and_true2 (and_true3 hx hy hu) ht
theorem and_true5 (hx : x = true) (hy : y = true) (hu : u = true) (ht : t = true) (hs : s = true) :
    (x && y && u && t && s) = true :=
  and_true2 (and_true4 hx hy hu ht) hs

end

/-! ### Operands (R104 to R106) -/

section
variable {R n : Nat} {c : BitVec 8} {w : DWord}

theorem rsv_ensures {b : Bool} : (rsv b).Ensures fun _ => b = true := by
  cases b with
  | true => exact ofOk rfl
  | false => exact ofError

theorem opChk_ensures {b : Bool} : (opChk b).Ensures fun _ => b = true := by
  cases b with
  | true => exact ofOk rfl
  | false => exact ofError

theorem z_ensures {b : BitVec n} : (z b).Ensures fun _ => b = 0#n := rsv_ensures.mono fun h => beq_iff_eq.1 h

theorem dSrc_ensures : (dSrc R n c).Ensures fun a => a.ok R n = true ∧ c = eSrc a := by
  unfold dSrc
  split_ifs with h1 h2 h3 h4 h5 h6
  · exact ofOk ⟨by simpa [Src.ok] using h2, by simp [eSrc]⟩
  · exact ofError
  · exact ofOk ⟨by simpa [Src.ok] using h4, BitVec.eq_of_toNat_eq (by rw [toNat_eSrc]; dsimp only; omega)⟩
  · exact ofError
  · exact ofError
  · exact ofOk ⟨rfl, BitVec.eq_of_toNat_eq (by rw [toNat_eSrc]; dsimp only; omega)⟩
  · exact ofError

theorem dReg_ensures : (dReg R n c).Ensures fun d => d.ok R n = true ∧ c = eReg d := by
  unfold dReg
  split_ifs with h1 h2 h3 h4
  · exact ofOk ⟨by simpa [Reg.ok] using h2, by simp [eReg]⟩
  · exact ofError
  · exact ofOk ⟨by simpa [Reg.ok] using h4, BitVec.eq_of_toNat_eq (by rw [toNat_eReg]; dsimp only; omega)⟩
  · exact ofError
  · exact ofError

theorem dRec_ensures : (dRec c).Ensures fun r => c = eRec r := by
  unfold dRec
  split_ifs with h
  · exact ofOk (BitVec.eq_of_toNat_eq (by rw [eRec, BitVec.toNat_ofNat]; dsimp only; omega))
  · exact ofError

theorem dBit_ensures : (dBit c).Ensures fun q => c = eBit q := by
  unfold dBit
  split_ifs with h
  · exact ofOk (by simp [eBit])
  · exact ofError

/-- A predicate field with PEN set, by its sense and its bit. -/
theorem pred_on : ∀ f : BitVec 4, 8 ≤ f.toNat → f = ePred (.on (f.toNat / 4 % 2 == 1) (Fin.ofNat 4 (f.toNat % 4))) := by
  decide

theorem dPred_ensures : (dPred w).Ensures fun p => fPred w = ePred p := by
  unfold dPred
  dsimp only
  split_ifs with h
  · exact ofOk (pred_on _ h)
  · exact andThen rsv_ensures fun _ h0 => ofOk (BitVec.eq_of_toNat_eq (beq_iff_eq.1 h0))

end

/-! ### Variants and codes (R121) -/

section
variable {w : DWord} {n : Nat}

theorem fVar_eq_b4 (h : (fVar w).toNat = n) : fVar w = b4 n := by rw [← h, b4, BitVec.ofNat_toNat, BitVec.setWidth_eq]

theorem vIV_ensures : (vIV w).Ensures fun t => fVar w = b4 (if t.2 then 8 + t.1.code else t.1.code) := by
  unfold vIV
  split
  case h_9 => exact ofError
  all_goals exact ofOk (fVar_eq_b4 ‹_›)
theorem vIR_ensures : (vIR w).Ensures fun t => fVar w = b4 t.code := by
  unfold vIR
  split
  case h_5 => exact ofError
  all_goals exact ofOk (fVar_eq_b4 ‹_›)
theorem vBV_ensures : (vBV w).Ensures fun t => fVar w = b4 (if t.2 then 8 + bcode t.1 else bcode t.1) := by
  unfold vBV
  split
  case h_5 => exact ofError
  all_goals exact ofOk (fVar_eq_b4 ‹_›)
theorem vBR_ensures : (vBR w).Ensures fun t => fVar w = b4 (bcode t) := by
  unfold vBR
  split
  case h_3 => exact ofError
  all_goals exact ofOk (fVar_eq_b4 ‹_›)
/-- The I form stands for .f32 only (R121). -/
theorem vFV_ensures : (vFV w).Ensures fun t =>
    fVar w = b4 (if t.2 then 8 + t.1.code else t.1.code) ∧ (t.2 = true → t.1 = .f32) := by
  unfold vFV
  split
  case h_5 => exact ofError
  all_goals exact ofOk ⟨fVar_eq_b4 ‹_›, by decide⟩
theorem vFR_ensures : (vFR w).Ensures fun t => fVar w = b4 t.code := by
  unfold vFR
  split
  case h_4 => exact ofError
  all_goals exact ofOk (fVar_eq_b4 ‹_›)
theorem vIs_ensures : (vIs w n).Ensures fun _ => fVar w = b4 n := opChk_ensures.mono fun h => fVar_eq_b4 (beq_iff_eq.1 h)
theorem v01_ensures : (v01 w).Ensures fun t => fVar w = b4 (nb t 1) := by
  unfold v01
  split
  case h_3 => exact ofError
  all_goals exact ofOk (fVar_eq_b4 ‹_›)
theorem vLTy_ensures : (vLTy w).Ensures fun t => fVar w = b4 t.code := by
  unfold vLTy
  split
  case h_8 => exact ofError
  all_goals exact ofOk (fVar_eq_b4 ‹_›)
theorem vATy_ensures : (vATy w).Ensures fun t => fVar w = b4 t.code := by
  unfold vATy
  split
  case h_8 => exact ofError
  all_goals exact ofOk (fVar_eq_b4 ‹_›)

theorem irelOf_ensures : (irelOf n).Ensures fun x => n = x.code := by
  unfold irelOf
  split
  case h_7 => exact ofError
  all_goals exact ofOk rfl
theorem frelOf_ensures : (frelOf n).Ensures fun x => n = x.code := by
  unfold frelOf
  split
  case h_9 => exact ofError
  all_goals exact ofOk rfl
theorem lopOf_ensures : (lopOf n).Ensures fun x => n = x.code := by
  unfold lopOf
  split
  case h_9 => exact ofError
  all_goals exact ofOk rfl
theorem aopOf_ensures : (aopOf n).Ensures fun x => n = x.code := by
  unfold aopOf
  split
  case h_12 => exact ofError
  all_goals exact ofOk rfl
theorem ctyOf_ensures : (ctyOf n).Ensures fun x => n = x.code := by
  unfold ctyOf
  split
  case h_13 => exact ofError
  all_goals exact ofOk rfl
theorem sregOf_ensures : (sregOf n).Ensures fun x => n = x.code := by
  unfold sregOf
  split
  case h_17 => exact ofError
  all_goals exact ofOk rfl

end

/-! ### MOD (R103) -/

section
variable {w : DWord} {m : BitVec 4}

theorem fMod_eq : fMod w = eMod (rmOf w) (satOf w) (mod12 w) := by
  unfold rmOf satOf mod12
  generalize fMod w = f
  revert f
  decide

theorem modz_ensures : (modz w m).Ensures fun _ => fMod w &&& ~~~m = 0 := rsv_ensures.mono fun h => beq_iff_eq.1 h

/-- The parts of MOD that a mask leaves out: the rounding mode, .sat and bit 12. -/
theorem modz_parts : (modz w m).Ensures fun _ => (m.extractLsb' 2 2 = 0 → rmOf w = .rn) ∧
    (m.getLsbD 1 = false → satOf w = false) ∧ (m.getLsbD 0 = false → mod12 w = false) := by
  refine modz_ensures.mono ?_
  unfold rmOf satOf mod12
  generalize fMod w = f
  revert f m
  decide

theorem mod_none : (modz w 0).Ensures fun _ => fMod w = 0#4 :=
  modz_parts.mono fun ⟨hr, hs, hx⟩ => by rw [fMod_eq, hr rfl, hs rfl, hx rfl]; rfl
theorem mod_bit : (modz w 1).Ensures fun _ => fMod w = eMod .rn false (mod12 w) :=
  modz_parts.mono fun ⟨hr, hs, _⟩ => by rw [fMod_eq, hr rfl, hs rfl]
theorem mod_sat : (modz w 2).Ensures fun _ => fMod w = eMod .rn (satOf w) false :=
  modz_parts.mono fun ⟨hr, _, hx⟩ => by rw [fMod_eq, hr rfl, hx rfl]
theorem mod_rm : (modz w 12).Ensures fun _ => fMod w = eMod (rmOf w) false false :=
  modz_parts.mono fun ⟨_, hs, hx⟩ => by rw [fMod_eq, hs rfl, hx rfl]
theorem mod_rmBit : (modz w 13).Ensures fun _ => fMod w = eMod (rmOf w) false (mod12 w) :=
  modz_parts.mono fun ⟨_, hs, _⟩ => by rw [fMod_eq, hs rfl]
theorem mod_rmSat : (modz w 14).Ensures fun _ => fMod w = eMod (rmOf w) (satOf w) false :=
  modz_parts.mono fun ⟨_, _, hx⟩ => by rw [fMod_eq, hx rfl]

end

/-! ### FUNC (R103) -/

section
variable {w : DWord} {m : BitVec 12}

/-- Bits `lo` to `lo + n` of FUNC, none of them in the mask, are zero. -/
theorem funz_ensures (lo n : Nat) (hm : ∀ i < n, lo + i < 12 ∧ m.getLsbD (lo + i) = false) :
    (funz w m).Ensures fun _ => funcBits w lo n = 0 := by
  refine rsv_ensures.mono fun h => Nat.eq_of_testBit_eq fun i => ?_
  rw [funcBits, Nat.testBit_mod_two_pow, ← Nat.shiftRight_eq_div_pow, Nat.testBit_shiftRight, BitVec.testBit_toNat,
    Nat.zero_testBit, Bool.and_eq_false_imp]
  intro hi
  obtain ⟨h12, h0⟩ := hm i (of_decide_eq_true hi)
  have hb := congrArg (·.getLsbD (lo + i)) (beq_iff_eq.1 h)
  simpa only [BitVec.getLsbD_and, BitVec.getLsbD_not, h12, h0, decide_true, Bool.not_false, Bool.and_true,
    BitVec.ofNat_eq_ofNat, BitVec.getLsbD_zero] using hb

theorem fFunc_lt : (fFunc w).toNat < 4096 := (fFunc w).isLt

theorem fFunc_eq_b12 {n : Nat} (h : (fFunc w).toNat = n) : fFunc w = b12 n := by
  rw [← h, b12, BitVec.ofNat_toNat, BitVec.setWidth_eq]

/-- FUNC within a mask of its low `k` bits is the number they hold. -/
theorem func_low (k : Nat) (hk : k ≤ 12) (hm : ∀ i < 12 - k, k + i < 12 ∧ m.getLsbD (k + i) = false) :
    (funz w m).Ensures fun _ => fFunc w = b12 (funcBits w 0 k) := by
  refine (funz_ensures k (12 - k) hm).mono fun h => fFunc_eq_b12 ?_
  have hF : (fFunc w).toNat / 2 ^ k < 2 ^ (12 - k) :=
    Nat.div_lt_of_lt_mul (by rw [← pow_add, Nat.add_sub_cancel' hk]; exact (fFunc w).isLt)
  rw [funcBits, Nat.mod_eq_of_lt hF] at h
  rw [funcBits, pow_zero, Nat.div_one, Nat.mod_eq_of_lt ((Nat.div_eq_zero_iff_lt (by positivity)).1 h)]

theorem func_none : (funz w 0).Ensures fun _ => fFunc w = 0#12 :=
  (func_low 0 (by norm_num) (by decide)).mono fun h => by rw [h, funcBits, pow_zero, Nat.mod_one]; rfl

theorem noMF_ensures : (noMF w).Ensures fun _ => fMod w = 0#4 ∧ fFunc w = 0#12 :=
  andThen mod_none fun _ hm => func_none.mono fun hf => ⟨hm, hf⟩

/-! The parts of FUNC as numbers -/

theorem val_cbitAt {lo : Nat} : (cbitAt w lo).val = funcBits w lo 2 := Nat.mod_mod _ _

theorem nb_getLsbD {n i k : Nat} {x : BitVec n} : nb (x.getLsbD i) k = k * (x.toNat / 2 ^ i % 2) := by
  rw [BitVec.getLsbD, Nat.testBit_eq_decide_div_mod_eq, nb]
  rcases Nat.mod_two_eq_zero_or_one (x.toNat / 2 ^ i) with h | h <;> simp [h]

theorem code_fmOf {i : Nat} : (fmOf w i).code = funcBits w (2 * i) 2 := by
  have h0 := nb_getLsbD (x := fFunc w) (i := 2 * i) (k := 1)
  have h1 := nb_getLsbD (x := fFunc w) (i := 2 * i + 1) (k := 2)
  rw [pow_succ, ← Nat.div_div_eq_div_mul] at h1
  show nb ((fFunc w).getLsbD (2 * i)) 1 + nb ((fFunc w).getLsbD (2 * i + 1)) 2 = _
  rw [funcBits]
  omega

/-- The modifiers of one, two and three operands (R165). -/
theorem func_fm1 : (funz w 3).Ensures fun _ => fFunc w = eFm (fmOf w 0) .none .none :=
  (func_low 2 (by norm_num) (by decide)).mono fun h => by
    rw [h, eFm, b12, code_fmOf, show FMod.none.code = 0 from rfl]
    simp only [funcBits]
    congr 1
theorem func_fm2 : (funz w 15).Ensures fun _ => fFunc w = eFm (fmOf w 0) (fmOf w 1) .none :=
  (func_low 4 (by norm_num) (by decide)).mono fun h => by
    rw [h, eFm, b12, code_fmOf, code_fmOf, show FMod.none.code = 0 from rfl]
    simp only [funcBits]
    congr 1
    omega
theorem func_fm3 : (funz w 63).Ensures fun _ => fFunc w = eFm (fmOf w 0) (fmOf w 1) (fmOf w 2) :=
  (func_low 6 (by norm_num) (by decide)).mono fun h => by
    rw [h, eFm, b12, code_fmOf, code_fmOf, code_fmOf]
    simp only [funcBits]
    congr 1
    omega

/-- One condition bit. -/
theorem func_cbit : (funz w 3).Ensures fun _ => fFunc w = b12 (cbitAt w 0).val := by
  rw [val_cbitAt]
  exact func_low 2 (by norm_num) (by decide)

end

/-! ### Shapes (R103) -/

section
variable {R nd na nb nc : Nat} {w : DWord}

theorem s0_ensures : (s0 R nd w).Ensures fun (p, d) => d.ok R nd = true ∧ Operands w (eReg d) 0 0 0 p :=
  andThen dPred_ensures fun _ hp => andThen dReg_ensures fun _ hd => andThen z_ensures fun _ ha =>
  andThen z_ensures fun _ hb =>
    andThen z_ensures fun _ hc => ofOk ⟨hd.1, hd.2, ha, hb, hc, hp⟩

theorem s1_ensures : (s1 R nd na w).Ensures fun (p, d, a) =>
    (d.ok R nd && a.ok R na) = true ∧ Operands w (eReg d) (eSrc a) 0 0 p :=
  andThen dPred_ensures fun _ hp => andThen dReg_ensures fun _ hd => andThen dSrc_ensures fun _ ha =>
  andThen z_ensures fun _ hb =>
    andThen z_ensures fun _ hc => ofOk ⟨and_true2 hd.1 ha.1, hd.2, ha.2, hb, hc, hp⟩

theorem s2_ensures : (s2 R nd na nb w).Ensures fun (p, d, a, b) =>
    (d.ok R nd && a.ok R na && b.ok R nb) = true ∧ Operands w (eReg d) (eSrc a) (eSrc b) 0 p :=
  andThen dPred_ensures fun _ hp => andThen dReg_ensures fun _ hd => andThen dSrc_ensures fun _ ha =>
  andThen dSrc_ensures fun _ hb =>
    andThen z_ensures fun _ hc => ofOk ⟨and_true3 hd.1 ha.1 hb.1, hd.2, ha.2, hb.2, hc, hp⟩

theorem s3_ensures : (s3 R nd na nb nc w).Ensures fun (p, d, a, b, c) =>
    (d.ok R nd && a.ok R na && b.ok R nb && c.ok R nc) = true ∧ Operands w (eReg d) (eSrc a) (eSrc b) (eSrc c) p :=
  andThen dPred_ensures fun _ hp => andThen dReg_ensures fun _ hd => andThen dSrc_ensures fun _ ha =>
  andThen dSrc_ensures fun _ hb =>
    andThen dSrc_ensures fun _ hc => ofOk ⟨and_true4 hd.1 ha.1 hb.1 hc.1, hd.2, ha.2, hb.2, hc.2, hp⟩

/-- A record with two indices; DST is the caller's. -/
theorem sMem_ensures : (sMem R w).Ensures fun (p, r, i, j) =>
    (i.ok R 1 && j.ok R 1) = true ∧ Operands w (fDst w) (eRec r) (eSrc i) (eSrc j) p :=
  andThen dPred_ensures fun _ hp => andThen dRec_ensures fun _ hr => andThen dSrc_ensures fun _ hi =>
  andThen dSrc_ensures fun _ hj =>
    ofOk ⟨and_true2 hi.1 hj.1, rfl, hr, hi.2, hj.2, hp⟩

theorem sA_ensures : (sA R na w).Ensures fun (p, a) => a.ok R na = true ∧ Operands w 0 (eSrc a) 0 0 p :=
  andThen dPred_ensures fun _ hp => andThen z_ensures fun _ hd => andThen dSrc_ensures fun _ ha =>
  andThen z_ensures fun _ hb =>
    andThen z_ensures fun _ hc => ofOk ⟨ha.1, hd, ha.2, hb, hc, hp⟩

theorem sP_ensures : (sP w).Ensures fun p => Operands w 0 0 0 0 p :=
  andThen dPred_ensures fun _ hp => andThen z_ensures fun _ hd => andThen z_ensures fun _ ha => andThen z_ensures fun _ hb =>
    andThen z_ensures fun _ hc => ofOk ⟨hd, ha, hb, hc, hp⟩

end

/-! ### What a decoded instruction is -/

/-- The instruction is well-formed, of class `cls`, and its encoding is the word. -/
def Encodes (R cls : Nat) (w : DWord) (i : Instr) : Prop := i.wf R = true ∧ i.cls = some cls ∧ encode i = w

end Sys2Proof
end

section
/-!
PROOFS. A word that decodes is the encoding of its instruction: each class, one case per opcode, from what its checks ensure
(R103, R116, R122 to R127, R74).
-/
namespace Sys2Proof

open Dec.Ensures (andThen ofOk ofError)

/-! ### Class 0 (R122) -/

section
variable {R nd na nw : Nat} {w : DWord} {im : Bool} {o : Nat} {mm : BitVec 4} {fm : BitVec 12}

/-- Destination and operands a, b in R or I form: the word is theirs once MOD, FUNC and IX are. -/
theorem sRI_ensures : (sRI R nd na nw im w).Ensures fun (p, d, a, b) =>
    (d.ok R nd && a.ok R na && b.ok R nw p) = true ∧ b.isImm = im ∧
    ∀ {o v : Nat} {md : BitVec 4} {fn : BitVec 12}, (fOpc w).toNat = o →
      fVar w = b4 (if im then 8 + v else v) → (im = true → fIx w = 0#4) → (im = false → fMod w = md ∧ fFunc w = fn) →
      eRI (.ofNat 8 o) v p d a b md fn = w := by
  refine andThen dReg_ensures fun d hd => andThen dSrc_ensures fun a ha => ?_
  cases im with
  | true =>
    exact ofOk ⟨and_true3 hd.1 ha.1 rfl, rfl, fun ho hv hx _ => mkI_fields ho hv hd.2 ha.2 (hx rfl)⟩
  | false =>
    refine andThen dPred_ensures fun p hp => andThen dSrc_ensures fun b hb => andThen z_ensures fun _ hc =>
      ofOk ⟨?_, rfl, ?_⟩
    · exact and_true3 hd.1 ha.1 hb.1
    · exact fun ho hv _ hmf => Operands.word ⟨hd.2, ha.2, hb.2, hc, hp⟩ ho hv (hmf rfl).1 (hmf rfl).2

theorem iz_ensures {P Q : Prop} (hm : (modz w mm).Ensures fun _ => P) (hf : (funz w fm).Ensures fun _ => Q) :
    (iz im w mm fm).Ensures fun _ => (im = true → fIx w = 0#4) ∧ (im = false → P ∧ Q) := by
  cases im with
  | true => exact z_ensures.mono fun h => ⟨fun _ => h, nofun⟩
  | false => exact andThen hm fun _ h => hf.mono fun h' => ⟨nofun, fun _ => ⟨h, h'⟩⟩

/-- Add, subtract, multiply: .sat is no part of the I form. -/
theorem dArith_encodes {mk : ITy → Bool → Pred → Reg → Src → Opb → Instr} (ho : (fOpc w).toNat = o)
    (hmk : ∀ {t sat p d a b}, (d.ok R t.n && a.ok R t.n && b.ok R t.n p && !(b.isImm && sat)) = true →
      eRI (.ofNat 8 o) t.code p d a b (eMod .rn sat false) 0 = w → Encodes R 0 w (mk t sat p d a b)) :
    (dArith R w mk).Ensures (Encodes R 0 w) := by
  refine andThen vIV_ensures fun (t, im) hv => andThen sRI_ensures fun (p, d, a, b) ⟨hok, him, hw⟩ =>
    andThen (iz_ensures mod_sat func_none) fun _ ⟨hx, hmf⟩ => ofOk (hmk ?_ (hw ho hv hx ?_))
  · rw [hok, him]; cases im <;> rfl
  · rintro rfl; exact hmf rfl

theorem dMinMax_encodes {mk : ITy → Pred → Reg → Src → Opb → Instr} (ho : (fOpc w).toNat = o)
    (hmk : ∀ {t p d a b}, (d.ok R t.n && a.ok R t.n && b.ok R t.n p) = true →
      eRI (.ofNat 8 o) t.code p d a b 0 0 = w → Encodes R 0 w (mk t p d a b)) :
    (dMinMax R w mk).Ensures (Encodes R 0 w) :=
  andThen vIV_ensures fun (_, _) hv => andThen sRI_ensures fun (_, _, _, _) ⟨hok, _, hw⟩ =>
    andThen (iz_ensures mod_none func_none) fun _ ⟨hx, hmf⟩ => ofOk (hmk hok (hw ho hv hx hmf))

theorem dAbs_encodes {mk : Bool → Bool → Pred → Reg → Src → Instr} (ho : (fOpc w).toNat = o)
    (hmk : ∀ {t sat p d a}, (d.ok R (wn t) && a.ok R (wn t)) = true →
      mkR (.ofNat 8 o) (b4 (bcode t)) (eReg d) (eSrc a) 0 0 (ePred p) (eMod .rn sat false) 0 = w →
      Encodes R 0 w (mk t sat p d a)) :
    (dAbs R w mk).Ensures (Encodes R 0 w) :=
  andThen vBR_ensures fun _ hv => andThen s1_ensures fun (_, _, _) ⟨hok, h⟩ => andThen mod_sat fun _ hm =>
    andThen func_none fun _ hf => ofOk (hmk hok (h.word ho hv hm hf))

theorem dLogic_encodes {shift : Bool} {mk : Bool → Pred → Reg → Src → Opb → Instr} (ho : (fOpc w).toNat = o)
    (hmk : ∀ {t p d a b}, (d.ok R (wn t) && a.ok R (wn t) && b.ok R (if shift then 1 else wn t) p) = true →
      eRI (.ofNat 8 o) (bcode t) p d a b 0 0 = w → Encodes R 0 w (mk t p d a b)) :
    (dLogic R w shift mk).Ensures (Encodes R 0 w) :=
  andThen vBV_ensures fun (_, _) hv => andThen sRI_ensures fun (_, _, _, _) ⟨hok, _, hw⟩ =>
    andThen (iz_ensures mod_none func_none) fun _ ⟨hx, hmf⟩ => ofOk (hmk hok (hw ho hv hx hmf))

theorem dUn_encodes {wide : Bool} {mk : Bool → Pred → Reg → Src → Instr} (ho : (fOpc w).toNat = o)
    (hmk : ∀ {t p d a}, (d.ok R (if wide then wn t else 1) && a.ok R (wn t)) = true →
      mkR (.ofNat 8 o) (b4 (bcode t)) (eReg d) (eSrc a) 0 0 (ePred p) 0 0 = w → Encodes R 0 w (mk t p d a)) :
    (dUn R w wide mk).Ensures (Encodes R 0 w) :=
  andThen vBR_ensures fun _ hv => andThen s1_ensures fun (_, _, _) ⟨hok, h⟩ => andThen noMF_ensures fun _ ⟨hm, hf⟩ =>
    ofOk (hmk hok (h.word ho hv hm hf))

/-- An I form stands for .f32, to nearest, with no modifier (R121, R165, R166). -/
theorem Opb.plain_of_imm {b : Opb} (h : b.isImm = true) : b.plain .f32 .rn false ⟨false, false⟩ ⟨false, false⟩ = true := by
  rw [Opb.plain, h]; rfl
theorem Opb.plain_of_src {b : Opb} {t : FTy} {rm : Rm} {sat : Bool} {ma mb : FMod} (h : b.isImm = false) :
    b.plain t rm sat ma mb = true := by
  rw [Opb.plain, h]; rfl

theorem dF2_encodes {mk : FTy → Rm → Bool → FMod → FMod → Pred → Reg → Src → Opb → Instr} (ho : (fOpc w).toNat = o)
    (hmk : ∀ {t rm sat ma mb p d a b}, (d.ok R 1 && a.ok R 1 && b.ok R 1 p && b.plain t rm sat ma mb) = true →
      eRI (.ofNat 8 o) t.code p d a b (eMod rm sat false) (eFm ma mb .none) = w →
      Encodes R 0 w (mk t rm sat ma mb p d a b)) :
    (dF2 R w true mk).Ensures (Encodes R 0 w) := by
  refine andThen vFV_ensures fun (t, im) ⟨hv, ht⟩ => andThen sRI_ensures fun (p, d, a, b) ⟨hok, him, hw⟩ =>
    andThen (iz_ensures mod_rmSat func_fm2) fun _ ⟨hx, hmf⟩ => ?_
  cases im with
  | true =>
    obtain rfl : t = .f32 := ht rfl
    exact ofOk (hmk (by rw [hok, Opb.plain_of_imm him]; rfl) (hw ho hv hx nofun))
  | false => exact ofOk (hmk (by rw [hok, Opb.plain_of_src him]; rfl) (hw ho hv hx hmf))

/-- FMIN and its kin take no rounding mode and no .sat. -/
theorem dF2_encodes_compare {mk : FTy → FMod → FMod → Pred → Reg → Src → Opb → Instr} (ho : (fOpc w).toNat = o)
    (hmk : ∀ {t ma mb p d a b}, (d.ok R 1 && a.ok R 1 && b.ok R 1 p && b.plain t .rn false ma mb) = true →
      eRI (.ofNat 8 o) t.code p d a b 0 (eFm ma mb .none) = w → Encodes R 0 w (mk t ma mb p d a b)) :
    (dF2 R w false fun t _ _ => mk t).Ensures (Encodes R 0 w) := by
  refine andThen vFV_ensures fun (t, im) ⟨hv, ht⟩ => andThen sRI_ensures fun (p, d, a, b) ⟨hok, him, hw⟩ =>
    andThen (iz_ensures mod_none func_fm2) fun _ ⟨hx, hmf⟩ => ?_
  cases im with
  | true =>
    obtain rfl : t = .f32 := ht rfl
    exact ofOk (hmk (by rw [hok, Opb.plain_of_imm him]; rfl) (hw ho hv hx nofun))
  | false => exact ofOk (hmk (by rw [hok, Opb.plain_of_src him]; rfl) (hw ho hv hx hmf))

theorem dF1_encodes {mk : Rm → FMod → Pred → Reg → Src → Instr} (ho : (fOpc w).toNat = o)
    (hmk : ∀ {rm ma p d a}, (d.ok R 1 && a.ok R 1) = true →
      mkR (.ofNat 8 o) 0 (eReg d) (eSrc a) 0 0 (ePred p) (eMod rm false false) (eFm ma .none .none) = w →
      Encodes R 0 w (mk rm ma p d a)) :
    (dF1 R w true mk).Ensures (Encodes R 0 w) :=
  andThen vIs_ensures fun _ hv => andThen s1_ensures fun (_, _, _) ⟨hok, h⟩ => andThen mod_rm fun _ hm =>
  andThen func_fm1 fun _ hf =>
    ofOk (hmk hok (h.word ho hv hm hf))

/-- FEXP2 and its kin take no rounding mode. -/
theorem dF1_encodes_nearest {mk : FMod → Pred → Reg → Src → Instr} (ho : (fOpc w).toNat = o)
    (hmk : ∀ {ma p d a}, (d.ok R 1 && a.ok R 1) = true →
      mkR (.ofNat 8 o) 0 (eReg d) (eSrc a) 0 0 (ePred p) 0 (eFm ma .none .none) = w → Encodes R 0 w (mk ma p d a)) :
    (dF1 R w false fun _ => mk).Ensures (Encodes R 0 w) :=
  andThen vIs_ensures fun _ hv => andThen s1_ensures fun (_, _, _) ⟨hok, h⟩ => andThen mod_none fun _ hm =>
  andThen func_fm1 fun _ hf =>
    ofOk (hmk hok (h.word ho hv hm hf))

theorem dH2_encodes {mk : Rm → Bool → FMod → FMod → Pred → Reg → Src → Src → Instr} (ho : (fOpc w).toNat = o)
    (hmk : ∀ {rm sat ma mb p d a b}, (d.ok R 1 && a.ok R 1 && b.ok R 1) = true →
      mkR (.ofNat 8 o) 0 (eReg d) (eSrc a) (eSrc b) 0 (ePred p) (eMod rm sat false) (eFm ma mb .none) = w →
      Encodes R 0 w (mk rm sat ma mb p d a b)) :
    (dH2 R w true mk).Ensures (Encodes R 0 w) :=
  andThen vIs_ensures fun _ hv => andThen s2_ensures fun (_, _, _, _) ⟨hok, h⟩ => andThen mod_rmSat fun _ hm =>
    andThen func_fm2 fun _ hf => ofOk (hmk hok (h.word ho hv hm hf))

theorem dH2_encodes_compare {mk : FMod → FMod → Pred → Reg → Src → Src → Instr} (ho : (fOpc w).toNat = o)
    (hmk : ∀ {ma mb p d a b}, (d.ok R 1 && a.ok R 1 && b.ok R 1) = true →
      mkR (.ofNat 8 o) 0 (eReg d) (eSrc a) (eSrc b) 0 (ePred p) 0 (eFm ma mb .none) = w → Encodes R 0 w (mk ma mb p d a b)) :
    (dH2 R w false fun _ _ => mk).Ensures (Encodes R 0 w) :=
  andThen vIs_ensures fun _ hv => andThen s2_ensures fun (_, _, _, _) ⟨hok, h⟩ => andThen mod_none fun _ hm =>
    andThen func_fm2 fun _ hf => ofOk (hmk hok (h.word ho hv hm hf))

theorem dH3_encodes {mk : Rm → Bool → FMod → FMod → FMod → Pred → Reg → Src → Src → Src → Instr}
    (ho : (fOpc w).toNat = o)
    (hmk : ∀ {rm sat ma mb mc p d a b c}, (d.ok R 1 && a.ok R 1 && b.ok R 1 && c.ok R 1) = true →
      mkR (.ofNat 8 o) 0 (eReg d) (eSrc a) (eSrc b) (eSrc c) (ePred p) (eMod rm sat false) (eFm ma mb mc) = w →
      Encodes R 0 w (mk rm sat ma mb mc p d a b c)) :
    (dH3 R w mk).Ensures (Encodes R 0 w) :=
  andThen vIs_ensures fun _ hv => andThen s3_ensures fun (_, _, _, _, _) ⟨hok, h⟩ => andThen mod_rmSat fun _ hm =>
    andThen func_fm3 fun _ hf => ofOk (hmk hok (h.word ho hv hm hf))

/-- A code in FUNC [3:0]. -/
theorem func_code : (funz w 15).Ensures fun _ => fFunc w = b12 (funcBits w 0 4) := func_low 4 (by norm_num) (by decide)

/-- CLOG: the table in FUNC [7:4], the bits in [3:2] and [1:0] (R140). -/
theorem func_clog : (funz w 0xFF).Ensures fun _ => fFunc w =
    b12 ((cbitAt w 0).val + 4 * (cbitAt w 2).val + 16 * (Fin.ofNat 16 (funcBits w 4 4)).val) :=
  (func_low 8 (by norm_num) (by decide)).mono fun h => by
    rw [h, val_cbitAt, val_cbitAt, Fin.val_ofNat]
    simp only [funcBits]
    congr 1
    omega

/-- A condition bit in FUNC [1:0] under a flag in FUNC [2] (R139). -/
theorem func_ctov : (funz w 7).Ensures fun _ => fFunc w = b12 ((cbitAt w 0).val + nb ((fFunc w).getLsbD 2) 4) :=
  (func_low 3 (by norm_num) (by decide)).mono fun h => by
    conv_lhs => rw [h]
    rw [val_cbitAt, nb_getLsbD]
    simp only [funcBits]
    congr 1
    omega

/-- FUNC [2] alone (R139). -/
theorem func_vtoc : (funz w 4).Ensures fun _ => fFunc w = b12 (nb ((fFunc w).getLsbD 2) 4) := by
  intro u hu
  have h0 := funz_ensures 0 2 (by decide) u hu
  have h3 := funz_ensures 3 9 (by decide) u hu
  refine fFunc_eq_b12 ?_
  rw [nb_getLsbD]
  have := fFunc_lt (w := w)
  simp only [funcBits] at h0 h3
  omega

/-- The last of the four values of a selector. -/
theorem selector_three {lo : Nat} (h0 : funcBits w lo 2 ≠ 0) (h1 : funcBits w lo 2 ≠ 1) (h2 : funcBits w lo 2 ≠ 2) :
    funcBits w lo 2 = 3 := by
  have h : funcBits w lo 2 < 4 := Nat.mod_lt _ (by norm_num)
  omega

/-- WVOTE: the mode in FUNC [3:2], the bit in [1:0] (R151). -/
theorem func_wvote {k : Nat} (hk : funcBits w 2 2 = k) (h : fFunc w = b12 (funcBits w 0 4)) :
    fFunc w = b12 ((cbitAt w 0).val + 4 * k) := by
  rw [h, val_cbitAt, ← hk]
  simp only [funcBits]
  congr 1
  omega

/-- FCMP: the relation in FUNC [9:6] over the modifiers of two operands (R171). -/
theorem func_fcmp : (funz w 0x3CF).Ensures fun _ =>
    fFunc w = b12 ((fmOf w 0).code + 4 * (fmOf w 1).code + 64 * funcBits w 6 4) := by
  intro u hu
  have h4 := funz_ensures 4 2 (by decide) u hu
  have h10 := funz_ensures 10 2 (by decide) u hu
  refine fFunc_eq_b12 ?_
  rw [code_fmOf, code_fmOf]
  have := fFunc_lt (w := w)
  simp only [funcBits] at h4 h10 ⊢
  omega

/-- MOD of WRED, WSCAN and CVT: the rounding mode where the operation rounds, .sat where it is legal (R149, R179). -/
theorem mod_lane {b : Bool} : (modz w (if b then 12 else 0)).Ensures fun _ =>
    (decide (rmOf w = .rn) || b) = true ∧ fMod w = eMod (rmOf w) false false := by
  cases b with
  | true => exact mod_rm.mono fun h => ⟨Bool.or_true _, h⟩
  | false => exact modz_parts.mono fun ⟨hr, hs, hx⟩ => ⟨by rw [hr rfl]; rfl, by rw [fMod_eq, hs rfl, hx rfl]⟩
theorem mod_scan {b : Bool} : (modz w (if b then 13 else 1)).Ensures fun _ =>
    (decide (rmOf w = .rn) || b) = true ∧ fMod w = eMod (rmOf w) false (mod12 w) := by
  cases b with
  | true => exact mod_rmBit.mono fun h => ⟨Bool.or_true _, h⟩
  | false => exact modz_parts.mono fun ⟨hr, hs, _⟩ => ⟨by rw [hr rfl]; rfl, by rw [fMod_eq, hs rfl]⟩
theorem mod_cvt {b : Bool} : (modz w (if b then 14 else 12)).Ensures fun _ =>
    (!satOf w || b) = true ∧ fMod w = eMod (rmOf w) (satOf w) false := by
  cases b with
  | true => exact mod_rmSat.mono fun h => ⟨Bool.or_true _, h⟩
  | false => exact modz_parts.mono fun ⟨_, hs, hx⟩ => ⟨by rw [hs rfl]; rfl, by rw [fMod_eq, hx rfl]⟩

theorem fIx_eq_b4 {n : Nat} (h : (fIx w).toNat = n) : fIx w = b4 n := by rw [← h, b4, BitVec.ofNat_toNat, BitVec.setWidth_eq]

theorem decode0_encodes : (decode0 R w).Ensures (Encodes R 0 w) := by
  unfold decode0
  split
  next ho => exact dArith_encodes ho fun hok hw => ⟨hok, rfl, hw⟩
  next ho => exact dArith_encodes ho fun hok hw => ⟨hok, rfl, hw⟩
  next ho => exact dArith_encodes ho fun hok hw => ⟨hok, rfl, hw⟩
  next ho => -- IMULH
    exact andThen v01_ensures fun _ hv => andThen s2_ensures fun (_, _, _, _) ⟨hok, h⟩ =>
      andThen noMF_ensures fun _ ⟨hm, hf⟩ =>
      ofOk ⟨hok, rfl, h.word ho (by rw [hv, Bool.not_not]) hm hf⟩
  next ho => -- IMAD
    exact andThen vIR_ensures fun _ hv => andThen s3_ensures fun (_, _, _, _, _) ⟨hok, h⟩ => andThen mod_sat fun _ hm =>
      andThen func_none fun _ hf => ofOk ⟨hok, rfl, h.word ho hv hm hf⟩
  next ho => exact dMinMax_encodes ho fun hok hw => ⟨hok, rfl, hw⟩
  next ho => exact dMinMax_encodes ho fun hok hw => ⟨hok, rfl, hw⟩
  next ho => exact dAbs_encodes ho fun hok hw => ⟨hok, rfl, hw⟩
  next ho => exact dAbs_encodes ho fun hok hw => ⟨hok, rfl, hw⟩
  next ho => exact dLogic_encodes ho fun hok hw => ⟨hok, rfl, hw⟩
  next ho => exact dLogic_encodes ho fun hok hw => ⟨hok, rfl, hw⟩
  next ho => exact dLogic_encodes ho fun hok hw => ⟨hok, rfl, hw⟩
  next ho => exact dLogic_encodes ho fun hok hw => ⟨hok, rfl, hw⟩
  next ho => exact dUn_encodes ho fun hok hw => ⟨hok, rfl, hw⟩
  next ho => exact dLogic_encodes ho fun hok hw => ⟨hok, rfl, hw⟩
  next ho => exact dLogic_encodes ho fun hok hw => ⟨hok, rfl, hw⟩
  next ho => exact dLogic_encodes ho fun hok hw => ⟨hok, rfl, hw⟩
  next ho => exact dLogic_encodes ho fun hok hw => ⟨hok, rfl, hw⟩
  next ho => -- BFX
    refine andThen (P := fun t => fVar w = _) ?_ fun _ hv => andThen s2_ensures fun (_, _, _, _) ⟨hok, h⟩ =>
      andThen noMF_ensures fun _ ⟨hm, hf⟩ => ofOk ⟨hok, rfl, h.word ho hv hm hf⟩
    split
    case h_5 => exact ofError
    all_goals exact ofOk (fVar_eq_b4 ‹_›)
  next ho => -- BFI
    exact andThen vBR_ensures fun _ hv => andThen s3_ensures fun (_, _, _, _, _) ⟨hok, h⟩ =>
      andThen noMF_ensures fun _ ⟨hm, hf⟩ =>
      ofOk ⟨hok, rfl, h.word ho hv hm hf⟩
  next ho => exact dUn_encodes ho fun hok hw => ⟨hok, rfl, hw⟩
  next ho => exact dUn_encodes ho fun hok hw => ⟨hok, rfl, hw⟩
  next ho => exact dUn_encodes ho fun hok hw => ⟨hok, rfl, hw⟩
  next ho => exact dUn_encodes ho fun hok hw => ⟨hok, rfl, hw⟩
  next ho => -- PERMB
    exact andThen vIs_ensures fun _ hv => andThen s3_ensures fun (_, _, _, _, _) ⟨hok, h⟩ =>
      andThen noMF_ensures fun _ ⟨hm, hf⟩ =>
      ofOk ⟨hok, rfl, h.word ho hv hm hf⟩
  next ho => -- ICMP
    refine andThen vIV_ensures fun (t, im) hv => andThen irelOf_ensures fun rel hr => andThen dBit_ensures fun c hd =>
      andThen dSrc_ensures fun a ha => ?_
    cases im with
    | true => exact ofOk ⟨and_true2 ha.1 rfl, rfl, mkI_fields ho hv hd ha.2 (fIx_eq_b4 hr)⟩
    | false =>
      exact andThen dPred_ensures fun _ hp => andThen dSrc_ensures fun _ hb => andThen z_ensures fun _ hc =>
        andThen mod_none fun _ hm =>
        andThen func_code fun _ hf => ofOk ⟨and_true2 ha.1 hb.1, rfl,
          Operands.word ⟨hd, ha.2, hb.2, hc, hp⟩ ho hv hm (hf.trans (congrArg b12 hr))⟩
  next ho => -- SEL
    exact andThen vBR_ensures fun _ hv => andThen s2_ensures fun (_, _, _, _) ⟨hok, h⟩ => andThen mod_none fun _ hm =>
      andThen func_cbit fun _ hf => ofOk ⟨hok, rfl, h.word ho hv hm hf⟩
  next ho => -- MOV
    refine andThen (P := fun t => fVar w = b4 t.code) ?_ fun _ hv => andThen s1_ensures fun (_, _, _) ⟨hok, h⟩ =>
      andThen noMF_ensures fun _ ⟨hm, hf⟩ => ofOk ⟨hok, rfl, h.word ho hv hm hf⟩
    split
    case h_4 => exact ofError
    all_goals exact ofOk (fVar_eq_b4 ‹_›)
  next ho => -- MOVI
    refine andThen (P := fun t => fVar w = b4 (8 + bcode t)) ?_ fun _ hv => andThen dReg_ensures fun _ hd =>
      andThen z_ensures fun _ ha => andThen z_ensures fun _ hx => ofOk ⟨hd.1, rfl, mkI_fields ho hv hd.2 ha hx⟩
    split
    case h_3 => exact ofError
    all_goals exact ofOk (fVar_eq_b4 ‹_›)
  next ho => -- MOVW
    exact andThen vIs_ensures fun _ hv => andThen dReg_ensures fun _ hd => andThen dSrc_ensures fun _ ha =>
      andThen z_ensures fun _ hx =>
      ofOk ⟨and_true2 hd.1 ha.1, rfl, mkI_fields ho hv hd.2 ha.2 hx⟩
  next ho => -- CLOG
    exact andThen vIs_ensures fun _ hv => andThen dPred_ensures fun _ hp => andThen dBit_ensures fun _ hd =>
      andThen z_ensures fun _ ha =>
      andThen z_ensures fun _ hb => andThen z_ensures fun _ hc => andThen mod_none fun _ hm => andThen func_clog fun _ hf =>
      ofOk ⟨rfl, rfl, Operands.word ⟨hd, ha, hb, hc, hp⟩ ho hv hm hf⟩
  next ho => -- CTOV
    exact andThen vIs_ensures fun _ hv => andThen s0_ensures fun (_, _) ⟨hok, h⟩ => andThen mod_none fun _ hm =>
      andThen func_ctov fun _ hf => ofOk ⟨hok, rfl, h.word ho hv hm hf⟩
  next ho => -- VTOC
    exact andThen vIs_ensures fun _ hv => andThen dPred_ensures fun _ hp => andThen dBit_ensures fun _ hd =>
      andThen dSrc_ensures fun _ ha =>
      andThen z_ensures fun _ hb => andThen z_ensures fun _ hc => andThen mod_none fun _ hm => andThen func_vtoc fun _ hf =>
      ofOk ⟨ha.1, rfl, Operands.word ⟨hd, ha.2, hb, hc, hp⟩ ho hv hm hf⟩
  next ho => -- WSHFL
    refine andThen (P := fun t => fVar w = b4 t.code) ?_ fun _ hv => andThen s3_ensures fun (_, _, _, _, _) ⟨hok, h⟩ =>
      andThen noMF_ensures fun _ ⟨hm, hf⟩ => ofOk ⟨hok, rfl, h.word ho hv hm hf⟩
    split
    case h_5 => exact ofError
    all_goals exact ofOk (fVar_eq_b4 ‹_›)
  next ho => -- WBCAST
    exact andThen vBR_ensures fun _ hv => andThen s3_ensures fun (_, _, _, _, _) ⟨hok, h⟩ =>
      andThen noMF_ensures fun _ ⟨hm, hf⟩ =>
      ofOk ⟨hok, rfl, h.word ho hv hm hf⟩
  next ho => -- WRED
    exact andThen vLTy_ensures fun t hv => andThen lopOf_ensures fun op hop => andThen opChk_ensures fun _ hl =>
      andThen dPred_ensures fun _ hp => andThen dReg_ensures fun _ hd => andThen dSrc_ensures fun _ ha =>
      andThen z_ensures fun _ hb =>
      andThen dSrc_ensures fun _ hc => andThen mod_lane fun _ ⟨hr, hm⟩ => andThen func_code fun _ hf =>
      ofOk ⟨and_true5 hl hr hd.1 ha.1 hc.1, rfl,
        Operands.word ⟨hd.2, ha.2, hb, hc.2, hp⟩ ho hv hm (hf.trans (congrArg b12 hop))⟩
  next ho => -- WSCAN
    exact andThen vLTy_ensures fun t hv => andThen lopOf_ensures fun op hop => andThen opChk_ensures fun _ hl =>
      andThen dPred_ensures fun _ hp => andThen dReg_ensures fun _ hd => andThen dSrc_ensures fun _ ha =>
      andThen z_ensures fun _ hb =>
      andThen dSrc_ensures fun _ hc => andThen mod_scan fun _ ⟨hr, hm⟩ => andThen func_code fun _ hf =>
      ofOk ⟨and_true5 hl hr hd.1 ha.1 hc.1, rfl,
        Operands.word ⟨hd.2, ha.2, hb, hc.2, hp⟩ ho hv hm (hf.trans (congrArg b12 hop))⟩
  next ho => -- WVOTE
    refine andThen vIs_ensures fun _ hv => andThen dPred_ensures fun _ hp => andThen z_ensures fun _ ha =>
      andThen z_ensures fun _ hb =>
      andThen dSrc_ensures fun _ hc => andThen mod_none fun _ hm => andThen func_code fun _ hf => ?_
    split
    next hk =>
      exact andThen dBit_ensures fun _ hd => ofOk ⟨and_true2 hc.1 rfl, rfl,
        Operands.word ⟨hd, ha, hb, hc.2, hp⟩ ho hv hm (func_wvote hk hf)⟩
    next hk =>
      exact andThen dBit_ensures fun _ hd => ofOk ⟨and_true2 hc.1 rfl, rfl,
        Operands.word ⟨hd, ha, hb, hc.2, hp⟩ ho hv hm (func_wvote hk hf)⟩
    next hk =>
      exact andThen dBit_ensures fun _ hd => ofOk ⟨and_true2 hc.1 rfl, rfl,
        Operands.word ⟨hd, ha, hb, hc.2, hp⟩ ho hv hm (func_wvote hk hf)⟩
    next h0 h1 h2 =>
      have hk : funcBits w 2 2 = 3 := selector_three h0 h1 h2
      exact andThen dReg_ensures fun _ hd => ofOk ⟨and_true2 hc.1 hd.1, rfl,
        Operands.word ⟨hd.2, ha, hb, hc.2, hp⟩ ho hv hm (func_wvote hk hf)⟩
  next ho => -- WMATCH
    exact andThen vBR_ensures fun _ hv => andThen dPred_ensures fun _ hp => andThen dReg_ensures fun _ hd =>
      andThen dSrc_ensures fun _ ha =>
      andThen z_ensures fun _ hb => andThen dSrc_ensures fun _ hc => andThen noMF_ensures fun _ ⟨hm, hf⟩ =>
      ofOk ⟨and_true3 hd.1 ha.1 hc.1, rfl, Operands.word ⟨hd.2, ha.2, hb, hc.2, hp⟩ ho hv hm hf⟩
  next ho => exact dF2_encodes ho fun hok hw => ⟨hok, rfl, hw⟩
  next ho => exact dF2_encodes ho fun hok hw => ⟨hok, rfl, hw⟩
  next ho => exact dF2_encodes ho fun hok hw => ⟨hok, rfl, hw⟩
  next ho => -- FFMA
    exact andThen vFR_ensures fun _ hv => andThen s3_ensures fun (_, _, _, _, _) ⟨hok, h⟩ => andThen mod_rmSat fun _ hm =>
      andThen func_fm3 fun _ hf => ofOk ⟨hok, rfl, h.word ho hv hm hf⟩
  next ho => exact dF2_encodes_compare ho fun hok hw => ⟨hok, rfl, hw⟩
  next ho => exact dF2_encodes_compare ho fun hok hw => ⟨hok, rfl, hw⟩
  next ho => exact dF2_encodes_compare ho fun hok hw => ⟨hok, rfl, hw⟩
  next ho => exact dF2_encodes_compare ho fun hok hw => ⟨hok, rfl, hw⟩
  next ho => -- FCMP
    exact andThen vFR_ensures fun _ hv => andThen frelOf_ensures fun _ hr => andThen dPred_ensures fun _ hp =>
      andThen dBit_ensures fun _ hd => andThen dSrc_ensures fun _ ha => andThen dSrc_ensures fun _ hb =>
      andThen z_ensures fun _ hc =>
      andThen mod_none fun _ hm => andThen func_fcmp fun _ hf => ofOk ⟨and_true2 ha.1 hb.1, rfl,
        Operands.word ⟨hd, ha.2, hb.2, hc, hp⟩ ho hv hm (hr ▸ hf)⟩
  next ho => -- FCLASS
    exact andThen vFR_ensures fun _ hv => andThen s1_ensures fun (_, _, _) ⟨hok, h⟩ => andThen mod_none fun _ hm =>
      andThen func_fm1 fun _ hf => ofOk ⟨hok, rfl, h.word ho hv hm hf⟩
  next ho => -- FRND
    exact andThen vFR_ensures fun _ hv => andThen s1_ensures fun (_, _, _) ⟨hok, h⟩ => andThen mod_rm fun _ hm =>
      andThen func_fm1 fun _ hf => ofOk ⟨hok, rfl, h.word ho hv hm hf⟩
  next ho => exact dF1_encodes ho fun hok hw => ⟨hok, rfl, hw⟩
  next ho => exact dF1_encodes ho fun hok hw => ⟨hok, rfl, hw⟩
  next ho => exact dF1_encodes ho fun hok hw => ⟨hok, rfl, hw⟩
  next ho => exact dF1_encodes_nearest ho fun hok hw => ⟨hok, rfl, hw⟩
  next ho => exact dF1_encodes_nearest ho fun hok hw => ⟨hok, rfl, hw⟩
  next ho => exact dF1_encodes_nearest ho fun hok hw => ⟨hok, rfl, hw⟩
  next ho => exact dF1_encodes_nearest ho fun hok hw => ⟨hok, rfl, hw⟩
  next ho => exact dH2_encodes ho fun hok hw => ⟨hok, rfl, hw⟩
  next ho => exact dH2_encodes ho fun hok hw => ⟨hok, rfl, hw⟩
  next ho => exact dH3_encodes ho fun hok hw => ⟨hok, rfl, hw⟩
  next ho => exact dH2_encodes_compare ho fun hok hw => ⟨hok, rfl, hw⟩
  next ho => exact dH2_encodes_compare ho fun hok hw => ⟨hok, rfl, hw⟩
  next ho => exact dH2_encodes ho fun hok hw => ⟨hok, rfl, hw⟩
  next ho => exact dH3_encodes ho fun hok hw => ⟨hok, rfl, hw⟩
  next ho => -- VDOT8
    exact andThen vIs_ensures fun _ hv => andThen s3_ensures fun (_, _, _, _, _) ⟨hok, h⟩ => andThen mod_rm fun _ hm =>
      andThen func_fm3 fun _ hf => ofOk ⟨hok, rfl, h.word ho hv hm hf⟩
  next ho => -- CVT
    exact andThen ctyOf_ensures fun td ht => andThen ctyOf_ensures fun ts hs => andThen s1_ensures fun (_, d, a) ⟨hok, h⟩ =>
      andThen mod_cvt fun _ ⟨hsat, hm⟩ => andThen func_code fun _ hf =>
      have ⟨hd, ha⟩ := Bool.and_eq_true_iff.1 hok
      ofOk ⟨and_true3 hsat hd ha, rfl, h.word ho (fVar_eq_b4 ht) hm (hf.trans (congrArg b12 hs))⟩
  next ho => -- PACK2
    exact andThen v01_ensures fun _ hv => andThen s2_ensures fun (_, _, _, _) ⟨hok, h⟩ => andThen mod_rmSat fun _ hm =>
      andThen func_fm2 fun _ hf => ofOk ⟨hok, rfl, h.word ho hv hm hf⟩
  next ho => -- OKEY
    exact andThen v01_ensures fun _ hv => andThen s2_ensures fun (_, _, _, _) ⟨hok, h⟩ => andThen mod_bit fun _ hm =>
      andThen func_none fun _ hf => ofOk ⟨hok, rfl, h.word ho hv hm hf⟩
  next ho => -- T3PK
    exact andThen vIs_ensures fun _ hv => andThen s1_ensures fun (_, _, _) ⟨hok, h⟩ => andThen noMF_ensures fun _ ⟨hm, hf⟩ =>
      ofOk ⟨hok, rfl, h.word ho hv hm hf⟩
  next ho => -- T3UN
    exact andThen vIs_ensures fun _ hv => andThen s1_ensures fun (_, _, _) ⟨hok, h⟩ => andThen mod_none fun _ hm =>
      andThen func_cbit fun _ hf => ofOk ⟨hok, rfl, h.word ho hv hm hf⟩
  next => exact ofError

end

/-! ### Class 1 (R124) -/

section
variable {R : Nat} {w : DWord} {o : Nat}

theorem and_mem {x y z : Bool} (hx : x = true) (h : (y && z) = true) : (x && y && z) = true := by
  rw [Bool.and_assoc, hx, h]; rfl

theorem Operands.withDst {d dst a b c : BitVec 8} {p : Pred} (h : Operands w d a b c p) (hd : fDst w = dst) :
    Operands w dst a b c p := ⟨hd, h.a, h.b, h.c, h.pred⟩

/-- Three bits of FUNC that number a word of a record. -/
theorem func_word : (funz w 7).Ensures fun _ => fFunc w = b12 (Fin.ofNat 8 (funcBits w 0 3)).val :=
  (func_low 3 (by norm_num) (by decide)).mono fun h => by
    rw [h, Fin.val_ofNat]
    simp only [funcBits]
    congr 1
    omega

theorem dAtom_encodes {mk : AOp → ATy → Pred → Reg → DReg → Src → Src → Instr} (ho : (fOpc w).toNat = o)
    (hmk : ∀ {op t p d r i c}, (op.legal t && d.ok R t.n && i.ok R 1 && c.ok R (op.cn t)) = true →
      mkR (.ofNat 8 o) (b4 t.code) (eReg d) (eRec r) (eSrc i) (eSrc c) (ePred p) 0 (b12 op.code) = w →
      Encodes R 1 w (mk op t p d r i c)) :
    (dAtom R w mk).Ensures (Encodes R 1 w) :=
  andThen vATy_ensures fun _ hv => andThen aopOf_ensures fun _ hop => andThen opChk_ensures fun _ hl =>
    andThen dPred_ensures fun _ hp => andThen dReg_ensures fun _ hd => andThen dRec_ensures fun _ hr =>
    andThen dSrc_ensures fun _ hi => andThen dSrc_ensures fun _ hc => andThen mod_none fun _ hm =>
    andThen func_code fun _ hf => ofOk (hmk (and_true4 hl hd.1 hi.1 hc.1)
      (Operands.word ⟨hd.2, hr, hi.2, hc.2, hp⟩ ho hv hm (hf.trans (congrArg b12 hop))))

theorem decode1_encodes : (decode1 R w).Ensures (Encodes R 1 w) := by
  unfold decode1
  split
  next ho => -- LD
    refine andThen (P := fun t => fVar w = b4 t.code) ?_ fun _ hv => andThen dReg_ensures fun _ hd =>
      andThen sMem_ensures fun (_, _, _, _) ⟨hok, h⟩ => andThen noMF_ensures fun _ ⟨hm, hf⟩ =>
      ofOk ⟨and_mem hd.1 hok, rfl, (h.withDst hd.2).word ho hv hm hf⟩
    split
    case h_8 => exact ofError
    all_goals exact ofOk (fVar_eq_b4 ‹_›)
  next ho => -- ST
    refine andThen (P := fun t => fVar w = b4 t.code) ?_ fun _ hv => andThen dSrc_ensures fun _ hd =>
      andThen sMem_ensures fun (_, _, _, _) ⟨hok, h⟩ => andThen noMF_ensures fun _ ⟨hm, hf⟩ =>
      ofOk ⟨and_mem hd.1 hok, rfl, (h.withDst hd.2).word ho hv hm hf⟩
    split
    case h_6 => exact ofError
    all_goals exact ofOk (fVar_eq_b4 ‹_›)
  next ho => -- PREF
    refine andThen vIs_ensures fun _ hv => andThen (P := fun l => funcBits w 0 2 = l.code) ?_ fun _ hl =>
      andThen z_ensures fun _ hd => andThen sMem_ensures fun (_, _, _, _) ⟨hok, h⟩ => andThen mod_none fun _ hm =>
      andThen (func_low 2 (by norm_num) (by decide)) fun _ hf =>
      ofOk ⟨hok, rfl, (h.withDst hd).word ho hv hm (hf.trans (congrArg b12 hl))⟩
    split
    case h_4 => exact ofError
    all_goals exact ofOk ‹_›
  next ho => -- LOCK
    exact andThen vIs_ensures fun _ hv => andThen dReg_ensures fun _ hd => andThen sMem_ensures fun (_, _, _, _) ⟨hok, h⟩ =>
      andThen mod_none fun _ hm => andThen func_cbit fun _ hf =>
      ofOk ⟨and_mem hd.1 hok, rfl, (h.withDst hd.2).word ho hv hm hf⟩
  next ho => -- UNLOCK
    exact andThen vIs_ensures fun _ hv => andThen z_ensures fun _ hd => andThen sMem_ensures fun (_, _, _, _) ⟨hok, h⟩ =>
      andThen noMF_ensures fun _ ⟨hm, hf⟩ => ofOk ⟨hok, rfl, (h.withDst hd).word ho hv hm hf⟩
  next ho => -- DLD
    exact andThen vIs_ensures fun _ hv => andThen dPred_ensures fun _ hp => andThen dRec_ensures fun _ hd =>
      andThen dSrc_ensures fun _ ha => andThen z_ensures fun _ hb => andThen z_ensures fun _ hc =>
      andThen noMF_ensures fun _ ⟨hm, hf⟩ => ofOk ⟨ha.1, rfl, Operands.word ⟨hd, ha.2, hb, hc, hp⟩ ho hv hm hf⟩
  next ho => -- DMK
    exact andThen vIs_ensures fun _ hv => andThen dPred_ensures fun _ hp => andThen dRec_ensures fun _ hd =>
      andThen dSrc_ensures fun _ ha => andThen dSrc_ensures fun _ hb => andThen z_ensures fun _ hc =>
      andThen noMF_ensures fun _ ⟨hm, hf⟩ =>
      ofOk ⟨and_true2 ha.1 hb.1, rfl, Operands.word ⟨hd, ha.2, hb.2, hc, hp⟩ ho hv hm hf⟩
  next ho => -- DGET
    exact andThen vIs_ensures fun _ hv => andThen dPred_ensures fun _ hp => andThen dReg_ensures fun _ hd =>
      andThen dRec_ensures fun _ ha => andThen z_ensures fun _ hb => andThen z_ensures fun _ hc =>
      andThen mod_none fun _ hm => andThen func_word fun _ hf =>
      ofOk ⟨hd.1, rfl, Operands.word ⟨hd.2, ha, hb, hc, hp⟩ ho hv hm hf⟩
  next ho => -- DSET
    exact andThen vIs_ensures fun _ hv => andThen dPred_ensures fun _ hp => andThen dRec_ensures fun _ hd =>
      andThen dSrc_ensures fun _ ha => andThen z_ensures fun _ hb => andThen z_ensures fun _ hc =>
      andThen mod_none fun _ hm => andThen func_word fun _ hf =>
      ofOk ⟨ha.1, rfl, Operands.word ⟨hd, ha.2, hb, hc, hp⟩ ho hv hm hf⟩
  next ho => exact dAtom_encodes ho fun hok hw => ⟨hok, rfl, hw⟩
  next ho => -- ATOMN
    exact andThen vATy_ensures fun _ hv => andThen aopOf_ensures fun _ hop => andThen opChk_ensures fun _ hl =>
      andThen dPred_ensures fun _ hp => andThen z_ensures fun _ hd => andThen dRec_ensures fun _ hr =>
      andThen dSrc_ensures fun _ hi => andThen dSrc_ensures fun _ hc => andThen mod_none fun _ hm =>
      andThen func_code fun _ hf => ofOk ⟨and_true3 hl hi.1 hc.1, rfl,
        Operands.word ⟨hd, hr, hi.2, hc.2, hp⟩ ho hv hm (hf.trans (congrArg b12 hop))⟩
  next ho => exact dAtom_encodes ho fun hok hw => ⟨hok, rfl, hw⟩
  next => exact ofError

end

/-! ### Class 2 (R125) -/

section
variable {R : Nat} {w : DWord}

/-- BRC: the bit in IX [1:0], its sense in IX [2] (R153). -/
theorem ix_brc : ∀ x : BitVec 4, x.toNat < 8 →
    x = b4 ((Fin.ofNat 4 (x.toNat % 4)).val + nb (x.toNat / 4 % 2 == 1) 4) := by decide

theorem decode2_encodes : (decode2 R w).Ensures (Encodes R 2 w) := by
  unfold decode2
  split
  next ho => -- BRA
    exact andThen vIs_ensures fun _ hv => andThen z_ensures fun _ hd => andThen z_ensures fun _ ha =>
      andThen z_ensures fun _ hx => ofOk ⟨rfl, rfl, mkI_fields ho hv hd ha hx⟩
  next ho => -- BRC
    exact andThen vIs_ensures fun _ hv => andThen z_ensures fun _ hd => andThen z_ensures fun _ ha =>
      andThen rsv_ensures fun _ hx => ofOk ⟨rfl, rfl, mkI_fields ho hv hd ha (ix_brc _ (of_decide_eq_true hx))⟩
  next ho => -- JMPI
    exact andThen vIs_ensures fun _ hv => andThen sA_ensures fun (_, _) ⟨hok, h⟩ => andThen noMF_ensures fun _ ⟨hm, hf⟩ =>
      ofOk ⟨hok, rfl, h.word ho hv hm hf⟩
  next ho => -- CALL
    exact andThen vIs_ensures fun _ hv => andThen dReg_ensures fun _ hd => andThen z_ensures fun _ ha =>
      andThen z_ensures fun _ hx => ofOk ⟨hd.1, rfl, mkI_fields ho hv hd.2 ha hx⟩
  next ho => -- CALLI
    exact andThen vIs_ensures fun _ hv => andThen s1_ensures fun (_, _, _) ⟨hok, h⟩ => andThen noMF_ensures fun _ ⟨hm, hf⟩ =>
      ofOk ⟨hok, rfl, h.word ho hv hm hf⟩
  next ho => -- RET
    exact andThen vIs_ensures fun _ hv => andThen sA_ensures fun (_, _) ⟨hok, h⟩ => andThen noMF_ensures fun _ ⟨hm, hf⟩ =>
      ofOk ⟨hok, rfl, h.word ho hv hm hf⟩
  next ho => -- CONV
    exact andThen vIs_ensures fun _ hv => andThen dPred_ensures fun _ hp => andThen z_ensures fun _ hd =>
      andThen z_ensures fun _ ha => andThen z_ensures fun _ hb => andThen dSrc_ensures fun _ hc =>
      andThen noMF_ensures fun _ ⟨hm, hf⟩ => ofOk ⟨hc.1, rfl, Operands.word ⟨hd, ha, hb, hc.2, hp⟩ ho hv hm hf⟩
  next ho => -- EXIT
    exact andThen vIs_ensures fun _ hv => andThen sP_ensures fun _ h => andThen noMF_ensures fun _ ⟨hm, hf⟩ =>
      ofOk ⟨rfl, rfl, h.word ho hv hm hf⟩
  next ho => -- NOP
    exact andThen vIs_ensures fun _ hv => andThen sP_ensures fun _ h => andThen noMF_ensures fun _ ⟨hm, hf⟩ =>
      ofOk ⟨rfl, rfl, h.word ho hv hm hf⟩
  next ho => -- YIELD
    exact andThen vIs_ensures fun _ hv => andThen sP_ensures fun _ h => andThen noMF_ensures fun _ ⟨hm, hf⟩ =>
      ofOk ⟨rfl, rfl, h.word ho hv hm hf⟩
  next ho => -- SLEEP
    exact andThen vIs_ensures fun _ hv => andThen sA_ensures fun (_, _) ⟨hok, h⟩ => andThen noMF_ensures fun _ ⟨hm, hf⟩ =>
      ofOk ⟨hok, rfl, h.word ho hv hm hf⟩
  next ho => -- WAITV
    exact andThen vIs_ensures fun _ hv => andThen dReg_ensures fun _ hd => andThen sMem_ensures fun (_, _, _, _) ⟨hok, h⟩ =>
      andThen noMF_ensures fun _ ⟨hm, hf⟩ => ofOk ⟨and_mem hd.1 hok, rfl, (h.withDst hd.2).word ho hv hm hf⟩
  next => exact ofError

end

/-! ### Class 3 (R126, R238) -/

section
variable {R nd : Nat} {w : DWord} {fm : BitVec 12} {F : Prop}

/-- The object mould without operands, and with operand a. -/
theorem dObj_ensures (hfm : (funz w fm).Ensures fun _ => F) : (dObj R nd w fm).Ensures fun (p, d) =>
    d.ok R nd = true ∧ Operands w (eReg d) 0 0 0 p ∧ fVar w = b4 0 ∧ fMod w = 0#4 ∧ F :=
  andThen vIs_ensures fun _ hv => andThen s0_ensures fun (_, _) ⟨hok, h⟩ => andThen mod_none fun _ hm =>
    andThen hfm fun _ hf => ofOk ⟨hok, h, hv, hm, hf⟩

theorem dObjA_ensures (hfm : (funz w fm).Ensures fun _ => F) : (dObjA R w fm).Ensures fun (p, d, a) =>
    (d.ok R 1 && a.ok R 1) = true ∧ Operands w (eReg d) (eSrc a) 0 0 p ∧ fVar w = b4 0 ∧ fMod w = 0#4 ∧ F :=
  andThen vIs_ensures fun _ hv => andThen s1_ensures fun (_, _, _) ⟨hok, h⟩ => andThen mod_none fun _ hm =>
    andThen hfm fun _ hf => ofOk ⟨hok, h, hv, hm, hf⟩

/-- FUNC of the object mould: the slot in [4:0], the bit in [6:5], a flag in [7] (R238). -/
theorem func_objFlag : (funz w 0xFF).Ensures fun _ => fFunc w = eObj (kbit3 w) (slotOf w) ((fFunc w).getLsbD 7) :=
  (func_low 8 (by norm_num) (by decide)).mono fun h => by
    conv_lhs => rw [h]
    rw [eObj, kbit3, val_cbitAt, nb_getLsbD, slotOf, Fin.val_ofNat]
    simp only [funcBits]
    congr 1
    omega

theorem func_obj : (funz w 0x7F).Ensures fun _ => fFunc w = eObj (kbit3 w) (slotOf w) false :=
  (func_low 7 (by norm_num) (by decide)).mono fun h => by
    rw [h, eObj, kbit3, val_cbitAt, slotOf, Fin.val_ofNat, show nb false 128 = 0 from rfl]
    simp only [funcBits]
    congr 1
    omega

theorem func_objIs {x : Bool} (hx : (fFunc w).getLsbD 7 = x) :
    (funz w 0xFF).Ensures fun _ => fFunc w = eObj (kbit3 w) (slotOf w) x := hx ▸ func_objFlag

/-- FUNC [0] alone. -/
theorem func_bit0 {x : Bool} (hx : (fFunc w).getLsbD 0 = x) (h : fFunc w = b12 (funcBits w 0 1)) :
    fFunc w = b12 (nb x 1) := by
  rw [h, ← hx, nb_getLsbD, funcBits, pow_one, one_mul]

theorem decode3_encodes : (decode3 R w).Ensures (Encodes R 3 w) := by
  unfold decode3
  dsimp only
  split
  next ho => -- BINIT
    exact andThen vIs_ensures fun _ hv => andThen dReg_ensures fun _ hd => andThen sMem_ensures fun (_, _, _, _) ⟨hok, h⟩ =>
      andThen mod_none fun _ hm => andThen func_obj fun _ hf =>
      ofOk ⟨and_mem hd.1 hok, rfl, (h.withDst hd.2).word ho hv hm hf⟩
  next ho => -- BARRIVE
    exact andThen (dObj_ensures func_obj) fun (_, _) ⟨hok, h, hv, hm, hf⟩ => ofOk ⟨hok, rfl, h.word ho hv hm hf⟩
  next ho => -- BWAIT
    exact andThen (dObj_ensures func_obj) fun (_, _) ⟨hok, h, hv, hm, hf⟩ => ofOk ⟨hok, rfl, h.word ho hv hm hf⟩
  next ho => -- BSYNC
    exact andThen (dObj_ensures func_obj) fun (_, _) ⟨hok, h, hv, hm, hf⟩ => ofOk ⟨hok, rfl, h.word ho hv hm hf⟩
  next ho => -- BDROP
    exact andThen (dObj_ensures func_obj) fun (_, _) ⟨hok, h, hv, hm, hf⟩ => ofOk ⟨hok, rfl, h.word ho hv hm hf⟩
  next ho => -- BQUERY
    exact andThen (dObj_ensures func_objFlag) fun (_, _) ⟨hok, h, hv, hm, hf⟩ => ofOk ⟨hok, rfl, h.word ho hv hm hf⟩
  next ho => -- BEXPECT
    exact andThen (dObjA_ensures func_obj) fun (_, _, _) ⟨hok, h, hv, hm, hf⟩ => ofOk ⟨hok, rfl, h.word ho hv hm hf⟩
  next ho => -- RINIT
    exact andThen vIs_ensures fun _ hv => andThen dReg_ensures fun _ hd => andThen sMem_ensures fun (_, _, _, _) ⟨hok, h⟩ =>
      andThen mod_none fun _ hm => andThen func_objFlag fun _ hf =>
      ofOk ⟨and_mem hd.1 hok, rfl, (h.withDst hd.2).word ho hv hm hf⟩
  next ho => -- RPUT
    split
    next hx =>
      exact andThen (dObjA_ensures (func_objIs hx)) fun (_, _, _) ⟨hok, h, hv, hm, hf⟩ => ofOk ⟨hok, rfl, h.word ho hv hm hf⟩
    next hx =>
      exact andThen (dObj_ensures (func_objIs (Bool.eq_false_of_not_eq_true hx))) fun (_, _) ⟨hok, h, hv, hm, hf⟩ =>
        ofOk ⟨hok, rfl, h.word ho hv hm hf⟩
  next ho => -- RGET
    split
    next hx =>
      exact andThen (dObjA_ensures (func_objIs hx)) fun (_, _, _) ⟨hok, h, hv, hm, hf⟩ => ofOk ⟨hok, rfl, h.word ho hv hm hf⟩
    next hx =>
      exact andThen (dObj_ensures (func_objIs (Bool.eq_false_of_not_eq_true hx))) fun (_, _) ⟨hok, h, hv, hm, hf⟩ =>
        ofOk ⟨hok, rfl, h.word ho hv hm hf⟩
  next ho => -- RCLOSE
    exact andThen (dObj_ensures func_obj) fun (_, _) ⟨hok, h, hv, hm, hf⟩ => ofOk ⟨hok, rfl, h.word ho hv hm hf⟩
  next ho => -- TKWAIT
    exact andThen vIs_ensures fun _ hv => andThen dPred_ensures fun _ hp => andThen dBit_ensures fun _ hd =>
      andThen z_ensures fun _ ha => andThen z_ensures fun _ hb => andThen z_ensures fun _ hc =>
      andThen noMF_ensures fun _ ⟨hm, hf⟩ => ofOk ⟨rfl, rfl, Operands.word ⟨hd, ha, hb, hc, hp⟩ ho hv hm hf⟩
  next ho => -- TKPASS
    exact andThen vIs_ensures fun _ hv => andThen sP_ensures fun _ h => andThen noMF_ensures fun _ ⟨hm, hf⟩ =>
      ofOk ⟨rfl, rfl, h.word ho hv hm hf⟩
  next ho => -- SPAWN
    exact andThen vIs_ensures fun _ hv => andThen dPred_ensures fun _ hp => andThen dBit_ensures fun _ hd =>
      andThen dSrc_ensures fun _ ha => andThen dSrc_ensures fun _ hb => andThen dSrc_ensures fun _ hc =>
      andThen noMF_ensures fun _ ⟨hm, hf⟩ =>
      ofOk ⟨and_true3 ha.1 hb.1 hc.1, rfl, Operands.word ⟨hd, ha.2, hb.2, hc.2, hp⟩ ho hv hm hf⟩
  next ho => -- BFLUSH
    refine andThen vIs_ensures fun _ hv => andThen mod_none fun _ hm =>
      andThen (func_low 1 (by norm_num) (by decide)) fun _ hf => ?_
    split
    next hx => exact andThen sP_ensures fun _ h => ofOk ⟨rfl, rfl, h.word ho hv hm (func_bit0 hx hf)⟩
    next hx =>
      exact andThen sA_ensures fun (_, _) ⟨hok, h⟩ =>
        ofOk ⟨hok, rfl, h.word ho hv hm (func_bit0 (Bool.eq_false_of_not_eq_true hx) hf)⟩
  next ho => -- EVSIG
    exact andThen vIs_ensures fun _ hv => andThen sA_ensures fun (_, _) ⟨hok, h⟩ => andThen noMF_ensures fun _ ⟨hm, hf⟩ =>
      ofOk ⟨hok, rfl, h.word ho hv hm hf⟩
  next ho => -- EVTEST
    refine andThen vIs_ensures fun _ hv => andThen mod_none fun _ hm =>
      andThen (func_low 1 (by norm_num) (by decide)) fun _ hf => andThen dPred_ensures fun _ hp =>
      andThen dSrc_ensures fun _ ha => andThen z_ensures fun _ hb => andThen z_ensures fun _ hc => ?_
    split
    next hx =>
      exact andThen dReg_ensures fun _ hd => ofOk ⟨and_true2 ha.1 hd.1, rfl,
        Operands.word ⟨hd.2, ha.2, hb, hc, hp⟩ ho hv hm (func_bit0 hx hf)⟩
    next hx =>
      exact andThen dBit_ensures fun _ hd => ofOk ⟨and_true2 ha.1 rfl, rfl,
        Operands.word ⟨hd, ha.2, hb, hc, hp⟩ ho hv hm (func_bit0 (Bool.eq_false_of_not_eq_true hx) hf)⟩
  next => exact ofError

end

/-! ### Classes 4 and 5 (R127) -/

section
variable {R : Nat} {w : DWord}

theorem func_high {n : Nat} (h : (fFunc w).toNat % 1024 = n) : fFunc w = eK (khi w) n := by
  refine fFunc_eq_b12 ?_
  rw [khi, val_cbitAt, funcBits, ← h]
  have := fFunc_lt (w := w)
  omega

/-- FUNC [11:10] alone. -/
theorem func_k : (funz w 0xC00).Ensures fun _ => fFunc w = eK (khi w) 0 :=
  (funz_ensures 0 10 (by decide)).mono fun h => func_high (by simpa [funcBits] using h)

/-- KSTAT: the slice in FUNC [1:0], the counter in [3:2] (R336). -/
theorem func_kstat {sl : KSlice} (hs : funcBits w 0 2 = sl.code) : (funz w 0xC0F).Ensures fun _ =>
    fFunc w = eK (khi w) (sl.code + 4 * (Fin.ofNat 4 (funcBits w 2 2)).val) :=
  (funz_ensures 4 6 (by decide)).mono fun h => func_high (by
    rw [← hs, Fin.val_ofNat]
    simp only [funcBits] at h ⊢
    omega)

theorem decode4_encodes : (decode4 R w).Ensures (Encodes R 4 w) := by
  unfold decode4
  dsimp only
  split
  next ho => -- KRSV
    exact andThen vIs_ensures fun _ hv => andThen s2_ensures fun (_, _, _, _) ⟨hok, h⟩ => andThen mod_none fun _ hm =>
      andThen func_k fun _ hf => ofOk ⟨hok, rfl, h.word ho hv hm hf⟩
  next ho => -- KREL
    exact andThen vIs_ensures fun _ hv => andThen s0_ensures fun (_, _) ⟨hok, h⟩ => andThen mod_none fun _ hm =>
      andThen func_k fun _ hf => ofOk ⟨hok, rfl, h.word ho hv hm hf⟩
  next ho => -- KLOAD
    exact andThen vIs_ensures fun _ hv => andThen s2_ensures fun (_, _, _, _) ⟨hok, h⟩ => andThen mod_none fun _ hm =>
      andThen func_k fun _ hf => ofOk ⟨hok, rfl, h.word ho hv hm hf⟩
  next ho => -- KSWAP
    exact andThen vIs_ensures fun _ hv => andThen s1_ensures fun (_, _, _) ⟨hok, h⟩ => andThen mod_none fun _ hm =>
      andThen func_k fun _ hf => ofOk ⟨hok, rfl, h.word ho hv hm hf⟩
  next ho => -- KLOOP
    exact andThen vIs_ensures fun _ hv => andThen s2_ensures fun (_, _, _, _) ⟨hok, h⟩ => andThen mod_bit fun _ hm =>
      andThen func_k fun _ hf => ofOk ⟨hok, rfl, h.word ho hv hm hf⟩
  next ho => -- KDRAIN
    split
    case h_5 => exact ofError
    all_goals
      exact andThen s1_ensures fun (_, _, _) ⟨hok, h⟩ => andThen mod_bit fun _ hm => andThen func_k fun _ hf =>
        ofOk ⟨hok, rfl, h.word ho (fVar_eq_b4 ‹_›) hm hf⟩
  next ho => -- KZERO
    exact andThen vIs_ensures fun _ hv => andThen s2_ensures fun (_, _, _, _) ⟨hok, h⟩ => andThen mod_bit fun _ hm =>
      andThen func_k fun _ hf => ofOk ⟨hok, rfl, h.word ho hv hm hf⟩
  next ho => -- KFID
    exact andThen vIs_ensures fun _ hv => andThen s1_ensures fun (_, _, _) ⟨hok, h⟩ => andThen mod_none fun _ hm =>
      andThen func_k fun _ hf => ofOk ⟨hok, rfl, h.word ho hv hm hf⟩
  next ho => -- KSTAT
    refine andThen vIs_ensures fun _ hv => andThen (P := fun sl => funcBits w 0 2 = sl.code) ?_ fun _ hs =>
      andThen s0_ensures fun (_, _) ⟨hok, h⟩ => andThen mod_none fun _ hm => andThen (func_kstat hs) fun _ hf =>
      ofOk ⟨hok, rfl, h.word ho hv hm hf⟩
    split
    case h_4 => exact ofError
    all_goals exact ofOk ‹_›
  next => exact ofError

theorem decode5_encodes : (decode5 R w).Ensures (Encodes R 5 w) := by
  unfold decode5
  dsimp only
  split
  next ho => -- SKICK
    exact andThen vIs_ensures fun _ hv => andThen dReg_ensures fun _ hd => andThen sMem_ensures fun (_, _, _, _) ⟨hok, h⟩ =>
      andThen mod_none fun _ hm => andThen func_k fun _ hf =>
      ofOk ⟨and_mem hd.1 hok, rfl, (h.withDst hd.2).word ho hv hm hf⟩
  next ho => -- SQUERY
    exact andThen vIs_ensures fun _ hv => andThen s1_ensures fun (_, _, _) ⟨hok, h⟩ => andThen mod_none fun _ hm =>
      andThen func_k fun _ hf => ofOk ⟨hok, rfl, h.word ho hv hm hf⟩
  next ho => -- SCANCEL
    exact andThen vIs_ensures fun _ hv => andThen s1_ensures fun (_, _, _) ⟨hok, h⟩ => andThen mod_none fun _ hm =>
      andThen func_k fun _ hf => ofOk ⟨hok, rfl, h.word ho hv hm hf⟩
  next => exact ofError

end

/-! ### Class 6 (R127) -/

section
variable {R : Nat} {w : DWord}

/-- A tile of Glaze in FUNC [3:0]. -/
theorem func_tile : (funz w 0xC0F).Ensures fun _ => fFunc w = eK (khi w) (Fin.ofNat 16 (funcBits w 0 4)).val :=
  (funz_ensures 4 6 (by decide)).mono fun h => func_high (by
    rw [Fin.val_ofNat]
    simp only [funcBits] at h ⊢
    omega)

/-- The same under a flag in FUNC [4]. -/
theorem func_tileFlag : (funz w 0xC1F).Ensures fun _ =>
    fFunc w = eK (khi w) ((Fin.ofNat 16 (funcBits w 0 4)).val + nb ((fFunc w).getLsbD 4) 16) :=
  (funz_ensures 5 5 (by decide)).mono fun h => func_high (by
    rw [Fin.val_ofNat, nb_getLsbD]
    simp only [funcBits] at h ⊢
    omega)

/-- GCLR of a path or a tile, by the selector in FUNC [7:6] (R262). -/
theorem func_freePath (hs : funcBits w 6 2 = 1) : (funz w 0xC40).Ensures fun _ => fFunc w = eK (khi w) 64 := by
  intro u hu
  have h0 := funz_ensures 0 6 (by decide) u hu
  have h7 := funz_ensures 7 3 (by decide) u hu
  refine func_high ?_
  simp only [funcBits] at hs h0 h7
  omega
theorem func_clrTile (hs : funcBits w 6 2 = 2) : (funz w 0xC8F).Ensures fun _ =>
    fFunc w = eK (khi w) (128 + (Fin.ofNat 16 (funcBits w 0 4)).val) := by
  intro u hu
  have h4 := funz_ensures 4 3 (by decide) u hu
  have h8 := funz_ensures 8 2 (by decide) u hu
  refine func_high ?_
  rw [Fin.val_ofNat]
  simp only [funcBits] at hs h4 h8 ⊢
  omega
theorem func_freeTile (hs : funcBits w 6 2 = 3) : (funz w 0xCCF).Ensures fun _ =>
    fFunc w = eK (khi w) (192 + (Fin.ofNat 16 (funcBits w 0 4)).val) := by
  intro u hu
  have h4 := funz_ensures 4 2 (by decide) u hu
  have h8 := funz_ensures 8 2 (by decide) u hu
  refine func_high ?_
  rw [Fin.val_ofNat]
  simp only [funcBits] at hs h4 h8 ⊢
  omega

/-- FUNC [4] above zeros. -/
theorem func_bit4 {x : Bool} (hx : (fFunc w).getLsbD 4 = x) :
    (funz w 0xC10).Ensures fun _ => fFunc w = eK (khi w) (nb x 16) := by
  intro u hu
  have h0 := funz_ensures 0 4 (by decide) u hu
  have h5 := funz_ensures 5 5 (by decide) u hu
  refine func_high ?_
  rw [← hx, nb_getLsbD]
  simp only [funcBits] at h0 h5
  omega

theorem decode6_encodes : (decode6 R w).Ensures (Encodes R 6 w) := by
  unfold decode6
  dsimp only
  split
  next ho => -- GSEQ
    exact andThen vIs_ensures fun _ hv => andThen s3_ensures fun (_, _, _, _, _) ⟨hok, h⟩ => andThen mod_none fun _ hm =>
      andThen func_k fun _ hf => ofOk ⟨hok, rfl, h.word ho hv hm hf⟩
  next ho => -- GFLAT
    exact andThen v01_ensures fun _ hv => andThen s3_ensures fun (_, _, _, _, _) ⟨hok, h⟩ => andThen mod_bit fun _ hm =>
      andThen func_k fun _ hf => ofOk ⟨hok, rfl, h.word ho hv hm hf⟩
  next ho => -- GDEP
    exact andThen vIs_ensures fun _ hv => andThen s2_ensures fun (_, _, _, _) ⟨hok, h⟩ => andThen mod_none fun _ hm =>
      andThen func_k fun _ hf => ofOk ⟨hok, rfl, h.word ho hv hm hf⟩
  next ho => -- GCLR
    refine andThen vIs_ensures fun _ hv => andThen mod_none fun _ hm => ?_
    split
    next hs =>
      exact andThen func_k fun _ hf => andThen s2_ensures fun (_, _, _, _) ⟨hok, h⟩ => ofOk ⟨hok, rfl, h.word ho hv hm hf⟩
    next hs =>
      exact andThen (func_freePath hs) fun _ hf => andThen dPred_ensures fun _ hp => andThen dReg_ensures fun _ hd =>
        andThen z_ensures fun _ ha => andThen dSrc_ensures fun _ hb => andThen z_ensures fun _ hc =>
        ofOk ⟨and_true2 hd.1 hb.1, rfl, Operands.word ⟨hd.2, ha, hb.2, hc, hp⟩ ho hv hm hf⟩
    next hs =>
      exact andThen (func_clrTile hs) fun _ hf => andThen s3_ensures fun (_, _, _, _, _) ⟨hok, h⟩ =>
        ofOk ⟨hok, rfl, h.word ho hv hm hf⟩
    next h0 h1 h2 =>
      exact andThen (func_freeTile (selector_three h0 h1 h2)) fun _ hf => andThen s0_ensures fun (_, _) ⟨hok, h⟩ =>
        ofOk ⟨hok, rfl, h.word ho hv hm hf⟩
  next ho => -- GSCAN
    exact andThen vIs_ensures fun _ hv => andThen dPred_ensures fun _ hp => andThen dReg_ensures fun _ hd =>
      andThen z_ensures fun _ ha => andThen dSrc_ensures fun _ hb => andThen z_ensures fun _ hc =>
      andThen mod_none fun _ hm => andThen func_tile fun _ hf =>
      ofOk ⟨and_true2 hd.1 hb.1, rfl, Operands.word ⟨hd.2, ha, hb.2, hc, hp⟩ ho hv hm hf⟩
  next ho => -- GCLIP
    refine andThen vIs_ensures fun _ hv => andThen s0_ensures fun (_, _) ⟨hok, h⟩ => andThen mod_none fun _ hm =>
      andThen func_tileFlag fun _ hf => ?_
    split
    next hx => exact ofOk ⟨hok, rfl, h.word ho hv hm (by rw [hf, hx, Nat.add_comm]; rfl)⟩
    next hx => exact ofOk ⟨hok, rfl, h.word ho hv hm (by rw [hf, Bool.eq_false_of_not_eq_true hx]; rfl)⟩
  next ho => -- GCOV
    refine andThen vIs_ensures fun _ hv => andThen mod_none fun _ hm => andThen (func_bit4 rfl) fun _ hf => ?_
    split
    next hx =>
      exact andThen s2_ensures fun (_, _, _, _) ⟨hok, h⟩ =>
        have ⟨hd, ha, hb⟩ := of_and3 hok
        ofOk ⟨and_true2 hd (and_true2 ha hb), rfl, h.word ho hv hm (by rw [hf, hx]; rfl)⟩
    next hx =>
      exact andThen s1_ensures fun (_, _, _) ⟨hok, h⟩ =>
        ofOk ⟨hok, rfl, h.word ho hv hm (by rw [hf, Bool.eq_false_of_not_eq_true hx]; rfl)⟩
  next ho => -- GBLEND
    exact andThen vIs_ensures fun _ hv => andThen s2_ensures fun (_, _, _, _) ⟨hok, h⟩ => andThen mod_none fun _ hm =>
      andThen func_k fun _ hf => ofOk ⟨hok, rfl, h.word ho hv hm hf⟩
  next ho => -- GEMIT
    refine andThen v01_ensures fun en hv => andThen dReg_ensures fun _ hd => andThen mod_none fun _ hm => ?_
    cases en with
    | true =>
      exact andThen func_tile fun _ hf => andThen dPred_ensures fun _ hp => andThen dSrc_ensures fun _ ha =>
        andThen z_ensures fun _ hb => andThen z_ensures fun _ hc =>
        ofOk ⟨and_true2 hd.1 ha.1, rfl, Operands.word ⟨hd.2, ha.2, hb, hc, hp⟩ ho hv hm hf⟩
    | false =>
      exact andThen func_tileFlag fun _ hf => andThen sMem_ensures fun (_, _, _, _) ⟨hok, h⟩ =>
        ofOk ⟨and_true2 hd.1 hok, rfl, (h.withDst hd.2).word ho hv hm hf⟩
  next => exact ofError

end

/-! ### Class 7 (R127) -/

section
variable {R : Nat} {w : DWord}

/-- A code in FUNC [7:0]. -/
theorem func_setWidth (h : fFunc w = b12 (funcBits w 0 8)) : fFunc w = ((fFunc w).setWidth 8).setWidth 12 := by
  conv_lhs => rw [h]
  refine BitVec.eq_of_toNat_eq ?_
  simp only [funcBits, b12, BitVec.toNat_ofNat, BitVec.toNat_setWidth]
  omega

/-- PMC: the counter in FUNC [3:0], .clr in [4] (R364). -/
theorem func_pmc : (funz w 0x1F).Ensures fun _ => fFunc w = b12 (funcBits w 0 4 + nb ((fFunc w).getLsbD 4) 16) :=
  (func_low 5 (by norm_num) (by decide)).mono fun h => by
    conv_lhs => rw [h]
    rw [nb_getLsbD]
    simp only [funcBits]
    congr 1
    omega

theorem decode7_encodes : (decode7 R w).Ensures (Encodes R 7 w) := by
  unfold decode7
  dsimp only
  split
  next ho => -- MOVS
    exact andThen vIs_ensures fun _ hv => andThen mod_none fun _ hm =>
      andThen (func_low 8 (by norm_num) (by decide)) fun _ hf =>
      andThen sregOf_ensures fun _ hn => andThen s0_ensures fun (_, _) ⟨hok, h⟩ =>
      ofOk ⟨hok, rfl, h.word ho hv hm (hf.trans (congrArg b12 hn))⟩
  next ho => -- SETS
    exact andThen vIs_ensures fun _ hv => andThen mod_none fun _ hm =>
      andThen (func_low 8 (by norm_num) (by decide)) fun _ hf =>
      andThen sregOf_ensures fun _ hn => andThen sA_ensures fun (_, _) ⟨hok, h⟩ =>
      ofOk ⟨hok, rfl, h.word ho hv hm (hf.trans (congrArg b12 hn))⟩
  next ho => -- TRAP
    exact andThen vIs_ensures fun _ hv => andThen mod_none fun _ hm =>
      andThen (func_low 8 (by norm_num) (by decide)) fun _ hf =>
      andThen sA_ensures fun (_, _) ⟨hok, h⟩ => ofOk ⟨hok, rfl, h.word ho hv hm (func_setWidth hf)⟩
  next ho => -- RTE
    exact andThen vIs_ensures fun _ hv => andThen sP_ensures fun _ h => andThen noMF_ensures fun _ ⟨hm, hf⟩ =>
      ofOk ⟨rfl, rfl, h.word ho hv hm hf⟩
  next ho => -- DBRK
    exact andThen vIs_ensures fun _ hv => andThen mod_none fun _ hm =>
      andThen (func_low 8 (by norm_num) (by decide)) fun _ hf =>
      andThen sP_ensures fun _ h => ofOk ⟨rfl, rfl, h.word ho hv hm (func_setWidth hf)⟩
  next ho => -- PMC
    refine andThen vIs_ensures fun _ hv => ?_
    split
    · exact andThen mod_none fun _ hm => andThen func_pmc fun _ hf => andThen s0_ensures fun (_, _) ⟨hok, h⟩ =>
        ofOk ⟨hok, rfl, h.word ho hv hm hf⟩
    · exact ofError
  next ho => -- CRED
    exact andThen vIs_ensures fun _ hv => andThen s2_ensures fun (_, _, _, _) ⟨hok, h⟩ => andThen mod_none fun _ hm =>
      andThen func_k fun _ hf => ofOk ⟨hok, rfl, h.word ho hv hm hf⟩
  next ho => -- CBCAST
    exact andThen vIs_ensures fun _ hv => andThen s2_ensures fun (_, _, _, _) ⟨hok, h⟩ => andThen mod_none fun _ hm =>
      andThen func_k fun _ hf => ofOk ⟨hok, rfl, h.word ho hv hm hf⟩
  next => exact ofError

end

/-! ### Saggar's words (R74) -/

theorem xWord_fields {w : Word} {n : Nat} (h : (w.extractLsb' 0 7 == 0x0B#7 && w.extractLsb' 25 7 == 0#7) = true)
    (hn : (w.extractLsb' 12 3).toNat = n) : encodeSaggar.xWord n (Fin.ofNat 32 (w.extractLsb' 7 5).toNat)
      (Fin.ofNat 32 (w.extractLsb' 15 5).toNat) (Fin.ofNat 32 (w.extractLsb' 20 5).toNat) = w := by
  obtain ⟨h0, h7⟩ := Bool.and_eq_true_iff.1 h
  have hx (x : BitVec 5) : BitVec.ofNat 5 (Fin.ofNat 32 x.toNat).val = x := by
    rw [Fin.val_ofNat, Nat.mod_eq_of_lt x.isLt, BitVec.ofNat_toNat, BitVec.setWidth_eq]
  have h3 : BitVec.ofNat 3 n = w.extractLsb' 12 3 := by rw [← hn, BitVec.ofNat_toNat, BitVec.setWidth_eq]
  rw [encodeSaggar.xWord, hx, hx, hx, h3, ← beq_iff_eq.1 h0, ← beq_iff_eq.1 h7]
  refine BitVec.eq_of_getLsbD_eq fun i hi => ?_
  simp only [BitVec.getLsbD_extractLsb', BitVec.getLsbD_append]
  grind

theorem encodeSaggar_of_decode {w : Word} {i : Instr} (h : decodeSaggar w = some i) : encodeSaggar i = w := by
  unfold decodeSaggar at h
  dsimp only at h
  split at h
  next hw =>
    split at h
    case h_5 => cases h
    all_goals
      cases h
      exact xWord_fields hw ‹_›
  next => cases h

/-! ### The obligation -/

theorem decodeClass_encodes (cls R : Nat) (w : DWord) : (decodeClass cls R w).Ensures (Encodes R cls w) := by
  unfold decodeClass
  split
  · exact decode0_encodes
  · exact decode1_encodes
  · exact decode2_encodes
  · exact decode3_encodes
  · exact decode4_encodes
  · exact decode5_encodes
  · exact decode6_encodes
  · exact decode7_encodes
  · exact ofError

/-- Settles O57: class by class, one case per opcode, from what each check ensures of the field it reads. -/
theorem decodedEncode : Obligations.DecodedEncode := by
  unfold Obligations.DecodedEncode
  exact ⟨fun cls R w i h => decodeClass_encodes cls R w i h, fun w i h => encodeSaggar_of_decode h⟩

end Sys2Proof
end

section
/-!
PROOFS. Integer arithmetic (R128 to R130): the exact result of an operation by its operands' numbers, and the words it fills.
-/
namespace Sys2Proof.Machine

/-! ### The bits of an operand's number (R121) -/

section
variable {t : ITy} (x : Wave) (th : Thread) (a : Src) (b : Opb)

theorem ofInt_rdInt_32 (h : t = .i32 ∨ t = .n32) : BitVec.ofInt 32 (rdInt x th t a) = rd32 x th a := by
  rcases h with rfl | rfl
  · exact BitVec.ofInt_toInt
  · exact (BitVec.ofInt_natCast ..).trans (BitVec.ofNat_toNat ..)

theorem ofInt_rdInt_64 (h : t = .i64 ∨ t = .n64) : BitVec.ofInt 64 (rdInt x th t a) = rd64 x th a := by
  rcases h with rfl | rfl
  · exact BitVec.ofInt_toInt
  · exact (BitVec.ofInt_natCast ..).trans (BitVec.ofNat_toNat ..)

theorem ofInt_rdOpbInt_32 (h : t = .i32 ∨ t = .n32) : BitVec.ofInt 32 (rdOpbInt x th t b) = rdOpb32 x th b := by
  cases b with
  | src r => exact ofInt_rdInt_32 x th r h
  | imm n =>
    rcases h with rfl | rfl
    · exact BitVec.ofInt_toInt
    · exact (BitVec.ofInt_natCast ..).trans (BitVec.ofNat_toNat ..)

theorem setWidth_eq_ofInt (v : Word) : v.setWidth 64 = BitVec.ofInt 64 v.toNat := by
  rw [BitVec.ofInt_natCast, BitVec.ofNat_toNat]

/-- An immediate is extended by sign for .i64 and by zero for .n64. -/
theorem ofInt_rdOpbInt_64 (h : t = .i64 ∨ t = .n64) : BitVec.ofInt 64 (rdOpbInt x th t b) = opb64 t x th b := by
  cases b with
  | src r => exact ofInt_rdInt_64 x th r h
  | imm n =>
    rcases h with rfl | rfl
    · rfl
    · exact (setWidth_eq_ofInt n).symm

end

/-! ### The words of a result -/

section
variable {t : ITy} (r : Int)

theorem outInt_ws_32 (h : t = .i32 ∨ t = .n32) : (outInt t false r).ws = [BitVec.ofInt 32 r] := by
  rcases h with rfl | rfl <;> rfl

theorem outInt_ws_64 (h : t = .i64 ∨ t = .n64) : (outInt t false r).ws = words64 (BitVec.ofInt 64 r) := by
  rcases h with rfl | rfl <;> rfl

theorem ITy.lo_le_hi (t : ITy) : ITy.lo t ≤ ITy.hi t := by cases t <;> decide

theorem outInt_ws_sat (t : ITy) : (outInt t true r).ws = clamped t r := by
  unfold outInt clamped
  rw [if_pos rfl, clampI_eq_max_min (ITy.lo_le_hi t)]
  cases t <;> rfl

end

/-! ### Each instruction by its exact result -/

section
variable (t : ITy) (sat : Bool) (p : Pred) (d : Reg) (a c : Src) (b : Opb)

theorem iadd_gives : Gives (.iadd t sat p d a b) p d fun x th => (outInt t sat (rdInt x th t a + rdOpbInt x th t b)).ws :=
  aluStep_gives (g := fun _ => intOp (· + ·) t sat a b) (fun _ => rfl) fun _ _ _ _ _ _ _ => rfl
theorem isub_gives : Gives (.isub t sat p d a b) p d fun x th => (outInt t sat (rdInt x th t a - rdOpbInt x th t b)).ws :=
  aluStep_gives (g := fun _ => intOp (· - ·) t sat a b) (fun _ => rfl) fun _ _ _ _ _ _ _ => rfl
theorem imul_gives : Gives (.imul t sat p d a b) p d fun x th => (outInt t sat (rdInt x th t a * rdOpbInt x th t b)).ws :=
  aluStep_gives (g := fun _ => intOp (· * ·) t sat a b) (fun _ => rfl) fun _ _ _ _ _ _ _ => rfl
theorem imin_gives : Gives (.imin t p d a b) p d fun x th =>
    (outInt t false (min (rdInt x th t a) (rdOpbInt x th t b))).ws :=
  aluStep_gives (g := fun _ => intOp min t false a b) (fun _ => rfl) fun _ _ _ _ _ _ _ => rfl
theorem imax_gives : Gives (.imax t p d a b) p d fun x th =>
    (outInt t false (max (rdInt x th t a) (rdOpbInt x th t b))).ws :=
  aluStep_gives (g := fun _ => intOp max t false a b) (fun _ => rfl) fun _ _ _ _ _ _ _ => rfl

theorem imad_gives (b : Src) : Gives (.imad t sat p d a b c) p d fun x th =>
    (outInt t sat (rdInt x th t a * rdInt x th t b + rdInt x th t c)).ws :=
  aluStep_gives (g := fun _ w th _ => outInt t sat (rdInt w th t a * rdInt w th t b + rdInt w th t c)) (fun _ => rfl)
    fun _ _ _ _ _ _ _ => rfl

theorem iabs_gives (w64 : Bool) : Gives (.iabs w64 sat p d a) p d fun x th =>
    (outInt (sty w64) sat |rdInt x th (sty w64) a|).ws :=
  aluStep_gives (g := fun _ w th _ => outInt (sty w64) sat (max (rdInt w th (sty w64) a) (-rdInt w th (sty w64) a)))
    (fun _ => rfl) fun _ _ _ _ _ _ _ => by rw [abs_eq_max_neg]

theorem ineg_gives (w64 : Bool) : Gives (.ineg w64 sat p d a) p d fun x th =>
    (outInt (sty w64) sat (-rdInt x th (sty w64) a)).ws :=
  aluStep_gives (g := fun _ w th _ => outInt (sty w64) sat (-rdInt w th (sty w64) a)) (fun _ => rfl)
    fun _ _ _ _ _ _ _ => rfl

theorem imulh_gives (sg : Bool) (b : Src) : Gives (.imulh sg p d a b) p d fun x th =>
    [BitVec.ofInt 32 (rdInt x th (if sg then .i32 else .n32) a * rdInt x th (if sg then .i32 else .n32) b / 2 ^ 32)] :=
  aluStep_gives (g := fun _ w th _ => out32 (BitVec.ofInt 32
    (rdInt w th (if sg then .i32 else .n32) a * rdInt w th (if sg then .i32 else .n32) b / 2 ^ 32))) (fun _ => rfl)
    fun _ _ _ _ _ _ _ => rfl

end

/-- The same words, written otherwise. -/
theorem Gives.of_eq {i : Instr} {p : Pred} {d : Reg} {f g : Wave → Thread → List Word} (h : Gives i p d f)
    (he : ∀ x th, f x th = g x th) : Gives i p d g := by
  rwa [show g = f from funext fun x => funext fun th => (he x th).symm]

/-! ### Reduced modulo 2^n, and the high half (R128, R129) -/

theorem ofInt_abs {n : Nat} (v : BitVec n) : BitVec.ofInt n |v.toInt| = v.abs := by
  rw [BitVec.abs, BitVec.msb_eq_toInt]
  by_cases h : v.toInt < 0
  · rw [abs_of_neg h, BitVec.ofInt_neg, BitVec.ofInt_toInt, if_pos (decide_eq_true h), BitVec.neg_eq]
  · rw [abs_of_nonneg (not_lt.1 h), BitVec.ofInt_toInt, if_neg (by simpa using h)]

/-- Bits [63:32] of the 64 low bits of a product. -/
theorem high_ofInt (r : Int) : ((BitVec.ofInt 64 r) >>> 32).setWidth 32 = BitVec.ofInt 32 (r / 2 ^ 32) := by
  apply BitVec.eq_of_toNat_eq
  simp only [BitVec.toNat_setWidth, BitVec.toNat_ushiftRight, BitVec.toNat_ofInt, Nat.shiftRight_eq_div_pow]
  omega

section
variable {t : ITy} (p : Pred) (d : Reg) (a c : Src) (b : Opb)

theorem arith_wrapped_32 (h : t = .i32 ∨ t = .n32) :
    Gives (.iadd t false p d a b) p d (fun x th => [rd32 x th a + rdOpb32 x th b]) ∧
    Gives (.isub t false p d a b) p d (fun x th => [rd32 x th a - rdOpb32 x th b]) ∧
    Gives (.imul t false p d a b) p d (fun x th => [rd32 x th a * rdOpb32 x th b]) := by
  refine ⟨(iadd_gives t false p d a b).of_eq fun x th => ?_, (isub_gives t false p d a b).of_eq fun x th => ?_,
    (imul_gives t false p d a b).of_eq fun x th => ?_⟩ <;>
  rw [outInt_ws_32 _ h, ← ofInt_rdInt_32 x th a h, ← ofInt_rdOpbInt_32 x th b h]
  · rw [BitVec.ofInt_add]
  · rw [Int.sub_eq_add_neg, BitVec.ofInt_add, BitVec.ofInt_neg, ← BitVec.sub_eq_add_neg]
  · rw [BitVec.ofInt_mul]

theorem arith_wrapped_64 (h : t = .i64 ∨ t = .n64) :
    Gives (.iadd t false p d a b) p d (fun x th => words64 (rd64 x th a + opb64 t x th b)) ∧
    Gives (.isub t false p d a b) p d (fun x th => words64 (rd64 x th a - opb64 t x th b)) ∧
    Gives (.imul t false p d a b) p d (fun x th => words64 (rd64 x th a * opb64 t x th b)) := by
  refine ⟨(iadd_gives t false p d a b).of_eq fun x th => ?_, (isub_gives t false p d a b).of_eq fun x th => ?_,
    (imul_gives t false p d a b).of_eq fun x th => ?_⟩ <;>
  rw [outInt_ws_64 _ h, ← ofInt_rdInt_64 x th a h, ← ofInt_rdOpbInt_64 x th b h]
  · rw [BitVec.ofInt_add]
  · rw [Int.sub_eq_add_neg, BitVec.ofInt_add, BitVec.ofInt_neg, ← BitVec.sub_eq_add_neg]
  · rw [BitVec.ofInt_mul]

theorem imad_wrapped_32 (b : Src) (h : t = .i32 ∨ t = .n32) :
    Gives (.imad t false p d a b c) p d fun x th => [rd32 x th a * rd32 x th b + rd32 x th c] :=
  (imad_gives t false p d a c b).of_eq fun x th => by
    rw [outInt_ws_32 _ h, BitVec.ofInt_add, BitVec.ofInt_mul, ofInt_rdInt_32 x th _ h, ofInt_rdInt_32 x th _ h,
      ofInt_rdInt_32 x th _ h]

theorem imad_wrapped_64 (b : Src) (h : t = .i64 ∨ t = .n64) :
    Gives (.imad t false p d a b c) p d fun x th => words64 (rd64 x th a * rd64 x th b + rd64 x th c) :=
  (imad_gives t false p d a c b).of_eq fun x th => by
    rw [outInt_ws_64 _ h, BitVec.ofInt_add, BitVec.ofInt_mul, ofInt_rdInt_64 x th _ h, ofInt_rdInt_64 x th _ h,
      ofInt_rdInt_64 x th _ h]

theorem neg_abs_wrapped :
    Gives (.ineg false false p d a) p d (fun x th => [-rd32 x th a]) ∧
    Gives (.ineg true false p d a) p d (fun x th => words64 (-rd64 x th a)) ∧
    Gives (.iabs false false p d a) p d (fun x th => [(rd32 x th a).abs]) ∧
    Gives (.iabs true false p d a) p d (fun x th => words64 (rd64 x th a).abs) := by
  refine ⟨(ineg_gives false p d a false).of_eq fun x th => ?_, (ineg_gives false p d a true).of_eq fun x th => ?_,
    (iabs_gives false p d a false).of_eq fun x th => ?_, (iabs_gives false p d a true).of_eq fun x th => ?_⟩
  · exact (outInt_ws_32 _ (.inl rfl)).trans (by rw [BitVec.ofInt_neg]; exact congrArg (fun v : Word => [-v]) BitVec.ofInt_toInt)
  · exact (outInt_ws_64 _ (.inl rfl)).trans (by rw [BitVec.ofInt_neg]; exact congrArg (fun v => words64 (-v)) BitVec.ofInt_toInt)
  · exact (outInt_ws_32 _ (.inl rfl)).trans (congrArg (fun v : Word => [v]) (ofInt_abs (rd32 x th a)))
  · exact (outInt_ws_64 _ (.inl rfl)).trans (congrArg words64 (ofInt_abs (rd64 x th a)))

theorem imulh_signed (b : Src) : Gives (.imulh true p d a b) p d fun x th =>
    [(((rd32 x th a).signExtend 64 * (rd32 x th b).signExtend 64) >>> 32).setWidth 32] :=
  (imulh_gives p d a true b).of_eq fun x th => by
    rw [BitVec.signExtend, BitVec.signExtend, ← BitVec.ofInt_mul, high_ofInt]; rfl

theorem imulh_unsigned (b : Src) : Gives (.imulh false p d a b) p d fun x th =>
    [(((rd32 x th a).setWidth 64 * (rd32 x th b).setWidth 64) >>> 32).setWidth 32] :=
  (imulh_gives p d a false b).of_eq fun x th => by
    rw [setWidth_eq_ofInt, setWidth_eq_ofInt, ← BitVec.ofInt_mul, high_ofInt]; rfl

/-! ### The lesser and the greater operand (R128) -/

theorem extremes_32 (h : t = .i32 ∨ t = .n32) :
    Gives (.imin t p d a b) p d
      (fun x th => [if rdInt x th t a ≤ rdOpbInt x th t b then rd32 x th a else rdOpb32 x th b]) ∧
    Gives (.imax t p d a b) p d
      (fun x th => [if rdInt x th t a ≤ rdOpbInt x th t b then rdOpb32 x th b else rd32 x th a]) := by
  refine ⟨(imin_gives t p d a b).of_eq fun x th => ?_, (imax_gives t p d a b).of_eq fun x th => ?_⟩
  · rw [outInt_ws_32 _ h, min_def, apply_ite (BitVec.ofInt 32), ofInt_rdInt_32 x th a h, ofInt_rdOpbInt_32 x th b h]
  · rw [outInt_ws_32 _ h, max_def, apply_ite (BitVec.ofInt 32), ofInt_rdInt_32 x th a h, ofInt_rdOpbInt_32 x th b h]

theorem extremes_64 (h : t = .i64 ∨ t = .n64) :
    Gives (.imin t p d a b) p d
      (fun x th => words64 (if rdInt x th t a ≤ rdOpbInt x th t b then rd64 x th a else opb64 t x th b)) ∧
    Gives (.imax t p d a b) p d
      (fun x th => words64 (if rdInt x th t a ≤ rdOpbInt x th t b then opb64 t x th b else rd64 x th a)) := by
  refine ⟨(imin_gives t p d a b).of_eq fun x th => ?_, (imax_gives t p d a b).of_eq fun x th => ?_⟩
  · rw [outInt_ws_64 _ h, min_def, apply_ite (BitVec.ofInt 64), ofInt_rdInt_64 x th a h, ofInt_rdOpbInt_64 x th b h]
  · rw [outInt_ws_64 _ h, max_def, apply_ite (BitVec.ofInt 64), ofInt_rdInt_64 x th a h, ofInt_rdOpbInt_64 x th b h]

end

/-! ### The obligation -/

/-- Settles O1: each instruction by its exact result, whose words are its residue modulo 2^n or, under .sat, those of the
clamped value. -/
theorem integerResults : Obligations.IntegerResults := by
  unfold Obligations.IntegerResults
  refine ⟨⟨fun t p d a b h => arith_wrapped_32 p d a b h, fun t p d a b h => arith_wrapped_64 p d a b h,
    fun t p d a b c h => imad_wrapped_32 p d a c b h, fun t p d a b c h => imad_wrapped_64 p d a c b h,
    fun p d a => neg_abs_wrapped p d a⟩, ?saturated, ⟨fun p d a b => ⟨imulh_signed p d a b, imulh_unsigned p d a b⟩,
    fun t p d a b h => extremes_32 p d a b h, fun t p d a b h => extremes_64 p d a b h⟩⟩
  case saturated =>
    exact ⟨fun t p d a b => ⟨(iadd_gives t true p d a b).of_eq fun _ _ => outInt_ws_sat _ t,
        (isub_gives t true p d a b).of_eq fun _ _ => outInt_ws_sat _ t,
        (imul_gives t true p d a b).of_eq fun _ _ => outInt_ws_sat _ t⟩,
      fun t p d a b c => (imad_gives t true p d a c b).of_eq fun _ _ => outInt_ws_sat _ t,
      fun p d a => ⟨(ineg_gives true p d a false).of_eq fun _ _ => outInt_ws_sat _ .i32,
        (ineg_gives true p d a true).of_eq fun _ _ => outInt_ws_sat _ .i64,
        (iabs_gives true p d a false).of_eq fun _ _ => outInt_ws_sat _ .i32,
        (iabs_gives true p d a true).of_eq fun _ _ => outInt_ws_sat _ .i64⟩⟩

end Sys2Proof.Machine
end

section
/-!
PROOFS. The frame of the instructions that only compute, move or transfer control (R101, R104, R107, R108, R153): each
operation over a wave keeps everything but the destination, and so does what is made up of such operations.
-/
namespace Sys2Proof.Machine

/-! ### What stays of a thread and of a wave -/

section
variable {D : Option (Reg × Nat)} {C : Option CBit}

/-- Of a thread only the destinations, its PC, its wait and the instruction it stands in change. -/
structure ThreadFrame (D : Option (Reg × Nat)) (C : Option CBit) (t t' : Thread) : Prop where
  same : t' = { t with v := t'.v, c := t'.c, pc := t'.pc, wait := t'.wait, lead := t'.lead, inst := t'.inst }
  v : ∀ r : Fin 128, untouched D (.v r) = true → NMap.get 0 t'.v r.val = NMap.get 0 t.v r.val
  c : ∀ c : CBit, C ≠ some c → cbit t' c = cbit t c

theorem ThreadFrame.refl (t : Thread) : ThreadFrame D C t t := ⟨rfl, fun _ _ => rfl, fun _ _ => rfl⟩

theorem ThreadFrame.trans {t u w : Thread} (h : ThreadFrame D C t u) (k : ThreadFrame D C u w) :
    ThreadFrame D C t w :=
  ⟨by rw [k.same, h.same], fun r hr => (k.v r hr).trans (h.v r hr), fun c hc => (k.c c hc).trans (h.c c hc)⟩

/-- Of a wave only the destination, the flags, its groups and its threads at lanes `ls` change. -/
structure WaveFrame (D : Option (Reg × Nat)) (C : Option CBit) (ls : List Nat) (x x' : Wave) : Prop where
  same : x' = { x with threads := x'.threads, groups := x'.groups, s := x'.s, wrote := x'.wrote, fpflags := x'.fpflags }
  s : ∀ r : Fin 64, untouched D (.s r) = true → NMap.get 0 x'.s r.val = NMap.get 0 x.s r.val
  raised : x.fpflags &&& x'.fpflags = x.fpflags
  high : x'.fpflags &&& ~~~0x3F = x.fpflags &&& ~~~0x3F
  others : ∀ l, l ∉ ls → NMap.find? x'.threads l = NMap.find? x.threads l
  members : ∀ l t, NMap.find? x.threads l = some t →
    ∃ t', NMap.find? x'.threads l = some t' ∧ ThreadFrame D C t t'

namespace WaveFrame
variable {ls : List Nat} {x z u : Wave} {l : Nat}

theorem refl (x : Wave) : WaveFrame D C ls x x where
  same := rfl
  s _ _ := rfl
  raised := BitVec.and_self
  high := rfl
  others _ _ := rfl
  members _ t h := ⟨t, h, .refl t⟩

theorem trans (h : WaveFrame D C ls x z) (k : WaveFrame D C ls z u) : WaveFrame D C ls x u where
  same := by rw [k.same, h.same]
  s r hr := (k.s r hr).trans (h.s r hr)
  raised := by rw [← h.raised, BitVec.and_assoc, k.raised]
  high := k.high.trans h.high
  others l hl := (k.others l hl).trans (h.others l hl)
  members l t ht := by
    obtain ⟨t1, h1, f1⟩ := h.members l t ht
    obtain ⟨t2, h2, f2⟩ := k.members l t1 h1
    exact ⟨t2, h2, f1.trans f2⟩

theorem modThread {f : Thread → Thread} (hl : l ∈ ls) (hf : ∀ t, ThreadFrame D C t (f t)) :
    WaveFrame D C ls x (modThread x l f) where
  same := by rw [modThread_eq]
  s _ _ := by rw [modThread_s]
  raised := by rw [modThread_fpflags, BitVec.and_self]
  high := by rw [modThread_fpflags]
  others m hm := by rw [find_modThread, if_neg fun h : m = l => hm (h ▸ hl)]
  members m t ht := by
    rw [find_modThread]
    split
    next h => exact ⟨f t, by rw [← h, ht]; rfl, hf t⟩
    next => exact ⟨t, ht, .refl t⟩

/-- Groups are no part of the frame. -/
theorem groups (G : NMap Group) : WaveFrame D C ls x { x with groups := G } :=
  ⟨rfl, fun _ _ => rfl, BitVec.and_self, rfl, fun _ _ => rfl, fun _ t h => ⟨t, h, .refl t⟩⟩

theorem sregs {m : NMap Word} {w : NMap Nat}
    (hm : ∀ r : Fin 64, untouched D (.s r) = true → NMap.get 0 m r.val = NMap.get 0 x.s r.val) :
    WaveFrame D C ls x { x with s := m, wrote := w } :=
  ⟨rfl, hm, BitVec.and_self, rfl, fun _ _ => rfl, fun _ t h => ⟨t, h, .refl t⟩⟩

/-- The flags are the six low bits of FPFLAGS (R37, R38). -/
theorem raiseFlags (fl : BitVec 6) : WaveFrame D C ls x (raiseFlags x fl) where
  same := rfl
  s _ _ := rfl
  raised := by
    refine BitVec.eq_of_getLsbD_eq fun i _ => ?_
    simp only [Machine.raiseFlags, BitVec.getLsbD_and, BitVec.getLsbD_or]
    cases x.fpflags.getLsbD i <;> rfl
  high := by
    refine BitVec.eq_of_getLsbD_eq fun i hi => ?_
    simp only [Machine.raiseFlags, BitVec.getLsbD_and, BitVec.getLsbD_or, BitVec.getLsbD_setWidth, BitVec.getLsbD_not]
    by_cases h6 : i < 6
    · have : (0x3F#32).getLsbD i = true := by revert i; decide
      simp [this]
    · simp [BitVec.getLsbD_of_ge fl i (Nat.not_lt.1 h6)]
  others _ _ := rfl
  members _ t h := ⟨t, h, .refl t⟩

theorem eachThread {ms : List Nat} {f : Nat → Thread → Thread} (hm : ∀ m ∈ ms, m ∈ ls)
    (hf : ∀ m t, ThreadFrame D C t (f m t)) : WaveFrame D C ls x (eachThread x ms f) :=
  List.foldlRecOn (motive := WaveFrame D C ls x) ms _ (.refl x) fun _ h m hms => h.trans (.modThread (hm m hms) (hf m))

end WaveFrame

/-! ### The operations -/

section
variable {ls : List Nat} {x : Wave} {g l : Nat}

theorem frame_goTo (t : Thread) (pc : DWord) : ThreadFrame D C t (goTo t pc) := ⟨rfl, fun _ _ => rfl, fun _ _ => rfl⟩

theorem frame_leaveGroup (tgt : Nat → DWord) (hg : ∀ m ∈ (group x g).lanes, m ∈ ls) :
    WaveFrame D C ls x (leaveGroup x g tgt) :=
  (WaveFrame.eachThread hg fun m t => frame_goTo t (tgt m)).trans (.groups _)

theorem frame_advance (hg : ∀ m ∈ (group x g).lanes, m ∈ ls) : WaveFrame D C ls x (advance x g) := by
  unfold advance
  dsimp only
  split
  · exact (WaveFrame.eachThread (f := fun _ t => { t with wait := .none, lead := false }) hg
      fun _ _ => ⟨rfl, fun _ _ => rfl, fun _ _ => rfl⟩).trans (.groups _)
  · exact frame_leaveGroup _ hg

/-- A lane leaves its group to wait by itself (R160). -/
theorem frame_waitAlone (lead : Bool) (w : Wait) (hl : l ∈ ls) : WaveFrame D C ls x (waitAlone x g l lead w) := by
  refine WaveFrame.trans (z := leaveLane x g l) ?_ (.modThread hl fun _ => ⟨rfl, fun _ _ => rfl, fun _ _ => rfl⟩)
  unfold leaveLane
  dsimp only
  split
  · exact .groups _
  · exact .groups _

/-- One member's results fit the destinations: no more words than the register takes, no other condition bit. -/
structure Fits (D : Option (Reg × Nat)) (C : Option CBit) (d : Option Reg) (o : LaneOut) : Prop where
  words : ∀ r, d = some r → ∃ k, D = some (r, k) ∧ o.ws.length ≤ k
  bits : ∀ q ∈ o.ks, C = some q.1

theorem untouched_outside {n : Nat} {r m : Fin n} {k len : Nat}
    (h : decide (m.val < r.val ∨ r.val + k ≤ m.val) = true) (hk : len ≤ k) : ¬ (r.val ≤ m.val ∧ m.val < r.val + len) := by
  have := of_decide_eq_true h
  omega

theorem cbit_setCbit_ne {t : Thread} {q c : CBit} {b : Bool} (h : c ≠ q) : cbit (setCbit t q b) c = cbit t c := by
  unfold cbit setCbit
  dsimp only
  revert h
  generalize t.c = v
  revert v q c b
  decide

theorem frame_setBits {ks : List (CBit × Bool)} (h : ∀ q ∈ ks, C = some q.1) (t : Thread) :
    ThreadFrame D C t (ks.foldl (fun t k => setCbit t k.1 k.2) t) :=
  List.foldlRecOn (motive := ThreadFrame D C t) ks _ (.refl t) fun _ hu q hq =>
    hu.trans ⟨rfl, fun _ _ => rfl, fun _ hc => cbit_setCbit_ne fun he => hc (he ▸ h q hq)⟩

theorem frame_outThread {d : Option Reg} {o : LaneOut} (h : Fits D C d o) (t : Thread) :
    ThreadFrame D C t (outThread d o t) := by
  refine ThreadFrame.trans ?_ (frame_setBits h.bits _)
  split
  next n =>
    obtain ⟨k, rfl, hk⟩ := h.words _ rfl
    exact ⟨rfl, fun r hr => by rw [get_putWords, if_neg (untouched_outside hr hk)], fun _ _ => rfl⟩
  next => exact .refl t

theorem frame_writeOut {d : Option Reg} {o : LaneOut} (h : Fits D C d o) (lead : Bool) (hl : l ∈ ls) :
    WaveFrame D C ls x (writeOut x l lead d o) := by
  rw [writeOut_eq]
  refine WaveFrame.trans (.sregs fun r hr => ?_) (.modThread hl (frame_outThread h))
  unfold outS
  split
  next n =>
    obtain ⟨k, rfl, hk⟩ := h.words _ rfl
    split
    · rw [get_putWords, if_neg (untouched_outside hr hk)]
    · rfl
  next => rfl

theorem frame_compute {p : Pred} {d : Option Reg} {f : Wave → Thread → Nat → LaneOut}
    (hf : ∀ t l, Fits D C d (f x t l)) (hg : ∀ m ∈ (group x g).lanes, m ∈ ls) :
    WaveFrame D C ls x (compute x g p d f) := by
  refine WaveFrame.trans
    (List.foldlRecOn (motive := WaveFrame D C ls x) _ _ (.refl x) fun z hz o ho => ?_) (.raiseFlags _)
  obtain ⟨l, hl, rfl⟩ := List.mem_map.1 ho
  exact hz.trans (frame_writeOut (hf _ _) _ (hg l (List.mem_of_mem_filter hl)))

end

/-! ### An instruction -/

/-- Of the device only the wave at its instruction changes, and that within the frame. -/
def StepFrame (D : Option (Reg × Nat)) (C : Option CBit) (s s' : State) (x : Wave) (y : Group) : Prop :=
  s' = { s with dev := { s.dev with waves := s'.dev.waves } } ∧
  (∀ w, w ≠ s.dev.cur.1 → NMap.find? s'.dev.waves w = NMap.find? s.dev.waves w) ∧
  ∃ x', NMap.find? s'.dev.waves s.dev.cur.1 = some x' ∧ WaveFrame D C y.lanes x x'

section
variable {s s' : State} {x : Wave} {y : Group}

theorem stepFrame_of_modWave {F : Wave → Wave} (h : Issues s x y)
    (he : .next { s with dev := modWave s.dev s.dev.cur.1 F } = (.next s' : Host.Outcome State Fault Refusal))
    (hF : WaveFrame D C y.lanes x (F x)) : StepFrame D C s s' x y := by
  obtain rfl := Host.Outcome.next.inj he
  refine ⟨by rw [modWave_eq], fun w hw => ?_, F x, find_modWave_self F h.wave, hF⟩
  rw [wave_modWave, if_neg hw]

theorem lanes_of_issues (h : Issues s x y) : ∀ m ∈ (group x s.dev.cur.2).lanes, m ∈ y.lanes := by
  rw [group_of_find h.group]
  exact fun _ => id

/-- An instruction whose members only compute. -/
theorem stepFrame_alu {p : Pred} {d : Option Reg} {f : Wave → Thread → Nat → LaneOut} (h : Issues s x y)
    (he : aluStep s p d f = .next s') (hf : ∀ t l, Fits D C d (f x t l)) : StepFrame D C s s' x y := by
  refine stepFrame_of_modWave h he ((frame_compute hf (lanes_of_issues h)).trans (frame_advance ?_))
  rw [group, compute_groups]
  exact lanes_of_issues h

/-- A control transfer (R153). -/
theorem stepFrame_transfer {p : Pred} {tgt : Wave → Group → Thread → Nat → DWord} (h : Issues s x y)
    (he : transferStep s p tgt = .next s') : StepFrame D C s s' x y :=
  stepFrame_of_modWave h he (frame_leaveGroup _ (lanes_of_issues h))

/-- A call writes its link, two words, and transfers (R155). -/
theorem stepFrame_call {p : Pred} {d : Reg} {tgt : Wave → Group → Thread → Nat → DWord} (h : Issues s x y)
    (he : callStep s p d tgt = .next s') : StepFrame (some (d, 2)) none s s' x y := by
  refine stepFrame_of_modWave h he ((frame_compute (fun _ _ => ?_) (lanes_of_issues h)).trans (frame_leaveGroup _ ?_))
  · exact ⟨fun _ hr => ⟨2, by rw [Option.some.inj hr], Nat.le_refl 2⟩, nofun⟩
  · rw [group, compute_groups]
    exact lanes_of_issues h

/-- The lanes of a group after one has left it. -/
theorem mem_leaveLane {g l m : Nat} (hm : m ∈ (group (leaveLane x g l) g).lanes) : m ∈ (group x g).lanes := by
  unfold leaveLane at hm
  dsimp only at hm
  split at hm
  · rw [group, dropGroup, NMap.get, NMap.find?_erase_self] at hm
    exact absurd hm List.not_mem_nil
  · rw [group, setGroup, NMap.get_put_self] at hm
    exact List.mem_of_mem_filter hm

/-- The members that sleep leave the group, the others go to the next clause (R160). -/
theorem stepFrame_sleep {p : Pred} {a : Src} (h : Issues s x y) (he : execSleep p a s = .next s') :
    StepFrame D C s s' x y := by
  refine stepFrame_of_modWave h he ?_
  dsimp only
  have hz := List.foldlRecOn (performers x (group x s.dev.cur.2) p) (fun z l =>
      if (rd32 x (thread x l) a).toNat = 0 then z
      else waitAlone z s.dev.cur.2 l false (.sleep (s.dev.ticks + (rd32 x (thread x l) a).toNat)))
    (motive := fun z => WaveFrame D C y.lanes x z ∧ ∀ m ∈ (group z s.dev.cur.2).lanes, m ∈ y.lanes)
    ⟨.refl x, lanes_of_issues h⟩ fun z hz l hl => ?_
  · exact hz.1.trans (frame_leaveGroup _ hz.2)
  · split
    · exact hz
    · have hy := lanes_of_issues h l (List.mem_of_mem_filter hl)
      refine ⟨hz.1.trans (frame_waitAlone _ _ hy), fun m hm => hz.2 m ?_⟩
      rw [waitAlone, group, modThread_groups] at hm
      exact mem_leaveLane hm

end

end

/-! ### What a member gives -/

section
variable {d : Reg} {c : CBit}

theorem fits_none {o : LaneOut} (h : o.ks = []) : Fits none none none o := ⟨nofun, by rw [h]; nofun⟩

theorem fits_words {o : LaneOut} {k : Nat} (hl : o.ws.length ≤ k) (hk : o.ks = []) :
    Fits (some (d, k)) none (some d) o :=
  ⟨fun _ hr => ⟨k, by rw [Option.some.inj hr], hl⟩, by rw [hk]; nofun⟩

theorem fits_out32 (v : Word) : Fits (some (d, 1)) none (some d) (out32 v) := fits_words (Nat.le_refl 1) rfl
theorem fits_out64 (v : DWord) : Fits (some (d, 2)) none (some d) (out64 v) := fits_words (Nat.le_refl 2) rfl
theorem fits_outF (r : Nat × BitVec 6) : Fits (some (d, 1)) none (some d) (outF r) := fits_words (Nat.le_refl 1) rfl
theorem fits_outHalves (lo hi : Nat × BitVec 6) : Fits (some (d, 1)) none (some d) (outHalves lo hi) :=
  fits_words (Nat.le_refl 1) rfl
theorem fits_outC (b : Bool) : Fits none (some c) none (outC c b) :=
  ⟨nofun, fun q hq => by rw [List.mem_singleton.1 hq]⟩

theorem fits_outRaw (w64 : Bool) (v : DWord) : Fits (some (d, wn w64)) none (some d) (outRaw w64 v) := by
  cases w64
  · exact fits_words (Nat.le_refl 1) rfl
  · exact fits_words (Nat.le_refl 2) rfl

theorem fits_outInt (t : ITy) (sat : Bool) (r : Int) : Fits (some (d, ITy.n t)) none (some d) (outInt t sat r) := by
  cases t
  · exact fits_words (Nat.le_refl 1) rfl
  · exact fits_words (Nat.le_refl 1) rfl
  · exact fits_words (Nat.le_refl 2) rfl
  · exact fits_words (Nat.le_refl 2) rfl

/-- IABS and INEG name the signed type of their width. -/
theorem fits_outInt_signed (w64 sat : Bool) (r : Int) :
    Fits (some (d, wn w64)) none (some d) (outInt (sty w64) sat r) := by
  cases w64
  · exact fits_words (Nat.le_refl 1) rfl
  · exact fits_words (Nat.le_refl 2) rfl

theorem fits_outCInt {t : CTy} (h : CTy.fmt t = none) (r : Int) (fl : BitVec 6) :
    Fits (some (d, CTy.n t)) none (some d) (outCInt t r fl) := by
  refine fits_words ?_ rfl
  cases t
  case i64 | n64 => exact Nat.le_refl 2
  case i32 | n32 | i16 | n16 | i8 | n8 => exact Nat.le_refl 1
  case f32 | f16 | bf16 | e4m3 => cases h

/-- Every float takes one register (R178). -/
theorem n_of_fmt {t : CTy} {f : Fmt} (h : CTy.fmt t = some f) : CTy.n t = 1 := by
  cases t
  case f32 | f16 | bf16 | e4m3 => rfl
  case i32 | n32 | i64 | n64 | i16 | n16 | i8 | n8 => cases h

theorem fits_readSpecial (dev : Device) (n : SReg) (x : Wave) (g : Group) (t : Thread) (l : Nat) :
    Fits (some (d, SReg.n n)) none (some d) (readSpecial dev n x g t l) := by
  cases n
  case workid | groupmask | ticks | tpc | tformer | tfault | taddr => exact fits_out64 _
  case width | lane | waveslot | breg | hold | tcause | kstatus | fidelity | fpflags => exact fits_out32 _

theorem stepFrame_movs {n : SReg} {p : Pred} {s s' : State} {x : Wave} {y : Group} (hn : n ≠ .ticks)
    (h : Issues s x y) (he : exec (.movs n p d) s = .next s') : StepFrame (some (d, SReg.n n)) none s s' x y := by
  rw [exec_movs, execMovs_of_ne_ticks hn] at he
  exact stepFrame_alu h he fun _ _ => fits_readSpecial ..

end

/-- Every instruction that only computes, moves or transfers control keeps the frame of its destination. -/
theorem stepFrame_of_computes {i : Instr} {D : Option (Reg × Nat)} {C : Option CBit} {s s' : State} {x : Wave}
    {y : Group} (hc : computes i = some (D, C)) (h : Issues s x y) (he : exec i s = .next s') : StepFrame D C s s' x y := by
  cases i with
  | iadd | isub | imul | imin | imax | imad | bfx => cases hc; exact stepFrame_alu h he fun _ _ => fits_outInt ..
  | iabs | ineg => cases hc; exact stepFrame_alu h he fun _ _ => fits_outInt_signed ..
  | imulh | popc | clz | ctz | permb | t3pk | fclass | dget =>
    cases hc; exact stepFrame_alu h he fun _ _ => fits_out32 ..
  | and | or | xor | andn | not | bfi | brev | sel | movi => cases hc; exact stepFrame_alu h he fun _ _ => fits_outRaw ..
  | icmp | clog | fcmp => cases hc; exact stepFrame_alu h he fun _ _ => fits_outC ..
  | fadd | fsub | fmul | ffma | fmin | fmax | fminn | fmaxn | frnd | frcp | frsq | fsqrt | fexp2 | flog2 | fsin | fcos |
    vdot8 => cases hc; exact stepFrame_alu h he fun _ _ => fits_outF ..
  | hadd2 | hmul2 | hfma2 | hmin2 | hmax2 | badd2 | bfma2 | pack2 =>
    cases hc; exact stepFrame_alu h he fun _ _ => fits_outHalves ..
  | ctov => cases hc; exact stepFrame_alu h he fun _ _ => fits_out64 ..
  | movw | okey => cases hc; exact stepFrame_alu h he fun _ _ => fits_words (Nat.le_refl 2) rfl
  | nop | pref => cases hc; exact stepFrame_alu h he fun _ _ => fits_none rfl
  | bra off | brc c q off => cases hc; exact stepFrame_transfer (tgt := fun _ g _ _ => branchTarget g off) h he
  | jmpi p a | ret p a => cases hc; exact stepFrame_transfer (tgt := fun x _ t _ => regTarget x t a) h he
  | call d off => cases hc; exact stepFrame_call (tgt := fun _ g _ _ => branchTarget g off) h he
  | calli p d a => cases hc; exact stepFrame_call (tgt := fun x _ t _ => regTarget x t a) h he
  | sleep => cases hc; exact stepFrame_sleep h he
  | shl w64 | shr w64 | sar w64 | rotl w64 =>
    cases hc
    exact stepFrame_alu h he fun _ _ => by
      cases w64
      · exact fits_out32 _
      · exact fits_out64 _
  | mov k =>
    cases hc
    exact stepFrame_alu h he fun _ _ => by cases k <;> exact fits_words (Nat.le_refl _) rfl
  | vtoc hi =>
    cases hc
    exact stepFrame_alu h he fun _ _ => by
      cases hi
      · exact fits_outC _
      · exact ⟨nofun, nofun⟩
  | t3un q =>
    cases hc
    exact stepFrame_alu h he fun _ _ => ⟨fun _ hr => ⟨2, by rw [Option.some.inj hr], Nat.le_refl 2⟩,
      fun k hk => by rw [List.mem_singleton.1 hk]⟩
  | cvt td ts =>
    cases hc
    refine stepFrame_alu h he fun _ _ => ?_
    dsimp only
    split
    next hd _ => exact n_of_fmt hd ▸ fits_outF _
    next hd _ => exact n_of_fmt hd ▸ fits_outF _
    next hd _ => exact fits_outCInt hd ..
    next hd _ => exact fits_outCInt hd ..
  | evtest p e a =>
    cases e with
    | bit => cases hc; exact stepFrame_alu h he fun _ _ => fits_outC ..
    | word => cases hc; exact stepFrame_alu h he fun _ _ => fits_out32 ..
  | movs n p d =>
    change (if n = .ticks then none else some (some (d, SReg.n n), none)) = some (D, C) at hc
    split at hc
    next => cases hc
    next hn => cases hc; exact stepFrame_movs hn h he
  | _ => cases hc

/-- Settles O14: instruction by instruction, from the frame of the operations that each is made up of. -/
theorem computeFrame : Obligations.ComputeFrame := by
  unfold Obligations.ComputeFrame
  intro i D C s s' x y hc h he
  obtain ⟨hdev, hwaves, x', hx', hf⟩ := stepFrame_of_computes hc h he
  refine ⟨hdev, hwaves, x', hx', hf.same, hf.s, hf.raised, hf.high, hf.others, fun l t ht => ?_⟩
  obtain ⟨t', ht', htf⟩ := hf.members l t ht
  exact ⟨t', ht', htf.same, htf.v, htf.c⟩

end Sys2Proof.Machine
end

section
/-!
PROOFS. Issue: a group forms at a clause (R94 to R100), the pts of a thread rises (R198), the run-on limit stops groups
(R355), a page fault that is answered is retried (R192).
-/
namespace Sys2Proof.Machine

/-! ### Ascending WORKID (R95) -/

section
variable {α : Type} {f : α → Nat} {a b : α} {l : List α}

theorem mem_insertByFirst : b ∈ sortBy.insertByFirst f a l ↔ b = a ∨ b ∈ l := by
  induction l with
  | nil => simp [sortBy.insertByFirst]
  | cons c l ih =>
    rw [sortBy.insertByFirst]
    split
    · exact List.mem_cons
    · rw [List.mem_cons, ih, List.mem_cons]
      exact or_left_comm

theorem pairwise_insertByFirst (h : l.Pairwise fun a b => f a ≤ f b) :
    (sortBy.insertByFirst f a l).Pairwise fun a b => f a ≤ f b := by
  induction l with
  | nil => exact List.pairwise_singleton ..
  | cons c l ih =>
    obtain ⟨hc, hl⟩ := List.pairwise_cons.1 h
    rw [sortBy.insertByFirst]
    split
    next hle =>
      refine List.pairwise_cons.2 ⟨fun b hb => ?_, h⟩
      rcases List.mem_cons.1 hb with rfl | hb
      · exact hle
      · exact hle.trans (hc b hb)
    next hlt =>
      refine List.pairwise_cons.2 ⟨fun b hb => ?_, ih hl⟩
      rcases mem_insertByFirst.1 hb with rfl | hb
      · exact Nat.le_of_not_le hlt
      · exact hc b hb

theorem mem_sortBy : b ∈ sortBy f l ↔ b ∈ l := by
  induction l with
  | nil => rfl
  | cons c l ih => rw [sortBy, mem_insertByFirst, ih, List.mem_cons]

theorem pairwise_sortBy (f : α → Nat) (l : List α) : (sortBy f l).Pairwise fun a b => f a ≤ f b := by
  induction l with
  | nil => exact .nil
  | cons c l ih => exact pairwise_insertByFirst ih

end

theorem mem_keys {α : Type} {m : NMap α} {k : Nat} : k ∈ NMap.keys m ↔ (NMap.find? m k).isSome := by
  induction m with
  | nil => simp [NMap.keys, NMap.find?]
  | cons p r ih =>
    rw [NMap.keys, List.map_cons, List.mem_cons, NMap.find?]
    split
    next h => exact ⟨fun _ => rfl, fun _ => .inl h.symm⟩
    next h => exact ⟨fun hk => ih.1 (hk.resolve_left fun e => h e.symm), fun hk => .inr (ih.2 hk)⟩

/-! ### What events of a thread change: its timestamps -/

/-- Thread `t` has become `u` by its timestamp and the count of its events alone. -/
def Retimed (t u : Thread) : Prop := u = { t with pts := u.pts, evSeq := u.evSeq }

/-- Wave `w` of `d` is that of `dev` but for its threads' timestamps. -/
def Retimes (w : Nat) (dev d : Device) : Prop :=
  ∀ x, NMap.find? dev.waves w = some x → ∃ z, NMap.find? d.waves w = some z ∧ z = { x with threads := z.threads } ∧
    ∀ l t, NMap.find? x.threads l = some t → ∃ u, NMap.find? z.threads l = some u ∧ Retimed t u

section
variable {w l : Nat} {dev d e : Device}

theorem Retimes.of_waves (h : d.waves = dev.waves) : Retimes w dev d := fun x hx => by
  refine ⟨x, ?_, rfl, fun _ t ht => ⟨t, ht, rfl⟩⟩
  rw [h]; exact hx

theorem Retimes.trans (h : Retimes w dev d) (k : Retimes w d e) : Retimes w dev e := fun x hx => by
  obtain ⟨z, hz, hsame, hthreads⟩ := h x hx
  obtain ⟨u, hu, hsame', hthreads'⟩ := k z hz
  refine ⟨u, hu, by rw [hsame', hsame], fun l t ht => ?_⟩
  obtain ⟨t1, h1, r1⟩ := hthreads l t ht
  obtain ⟨t2, h2, r2⟩ := hthreads' l t1 h1
  unfold Retimed at r1 r2 ⊢
  exact ⟨t2, h2, by rw [r2, r1]⟩

theorem retimes_foldl {α : Type} {f : Device → α → Device} (h : ∀ d a, Retimes w d (f d a)) (ls : List α)
    (dev : Device) : Retimes w dev (ls.foldl f dev) :=
  List.foldlRecOn (motive := Retimes w dev) ls f (.of_waves rfl) fun _ he a _ => he.trans (h _ a)

theorem retimes_modThreadAt (dev : Device) (w l : Nat) {f : Thread → Thread} (hf : ∀ t, Retimed t (f t)) :
    Retimes w dev (modThreadAt dev w l f) := fun x hx => by
  refine ⟨_, find_modWave_self _ hx, modThread_eq .., fun j t ht => ?_⟩
  rw [find_modThread]
  split
  next h => exact ⟨f t, by rw [← h, ht]; rfl, hf t⟩
  next => exact ⟨t, ht, rfl⟩

theorem retimes_stampRead (dev : Device) (w l : Nat) (o : Loc) : Retimes w dev (stampRead dev (.lane w l) o) := by
  refine Retimes.trans (.of_waves ?_) (retimes_modThreadAt _ w l fun _ => ?_)
  · rfl
  · rfl

theorem retimes_raisePts (dev : Device) (w l n : Nat) : Retimes w dev (raisePts dev (.lane w l) n) :=
  retimes_modThreadAt _ w l fun _ => rfl

/-- A thread that passes a header's waits has had events (R204, R231, R259). -/
theorem retimes_readWaits (dev : Device) (w : Nat) (h : Header) (l : Nat) : Retimes w dev (readWaits dev w h l) :=
  (retimes_foldl (fun d o => retimes_stampRead d w l o) _ _).trans
    (retimes_foldl (fun d _ => retimes_raisePts d w l _) _ _)

theorem retimes_afterMates (dev : Device) (w l : Nat) : Retimes w dev (afterMates dev w l) := by
  unfold afterMates
  dsimp only
  split
  · exact .of_waves rfl
  · refine retimes_foldl (fun d k => ?_) _ _
    split
    · exact retimes_raisePts d w l _
    · exact .of_waves rfl

end

/-! ### Forming a group (R94 to R100) -/

theorem onWaveDev_next {s : State} {w : Nat} (h : retained s w = false) (f : Device → Device) :
    onWaveDev s w f = .next { s with dev := f s.dev } := if_neg (Bool.eq_false_iff.1 h)

theorem retained_of_core {s : State} {w : Nat} {x : Wave} (hx : NMap.find? s.dev.waves w = some x)
    (h : coreRetained s x.core = false) : retained s w = false := by
  rw [retained, wave_of_find hx, h, Bool.and_false]

/-- A PC at a clause address has INDEX 0 (R93). -/
theorem pcIndex_mkPc_zero (clause : DWord) : pcIndex (mkPc clause 0) = 0 := by
  have h : (mkPc clause 0).toNat ≤ 0x01FFFFFFFFFFFFFF := by
    simpa [mkPc] using Nat.and_le_right
  unfold pcIndex
  rw [BitVec.toNat_ushiftRight, Nat.shiftRight_eq_div_pow]
  omega

section
variable {dev d : Device} {w : Nat} {x : Wave} {pc hw : DWord}

/-- The threads that stand ready at a PC, in ascending WORKID (R94, R95). -/
def standing (dev : Device) (x : Wave) (pc : DWord) : List Nat :=
  (sortBy (fun l => (thread x l).workid.toNat) ((NMap.keys x.threads).filter fun _ => true)).filter fun l =>
    readyAt x l && !spent dev x l && (thread x l).pc == pc

theorem mem_standing {l : Nat} : l ∈ standing dev x pc ↔
    (NMap.find? x.threads l).isSome ∧ readyAt x l = true ∧ spent dev x l = false ∧ (thread x l).pc = pc := by
  simp [standing, mem_sortBy, mem_keys, and_assoc]

theorem pairwise_standing (dev : Device) (x : Wave) (pc : DWord) :
    (standing dev x pc).Pairwise fun a b => (thread x a).workid.toNat ≤ (thread x b).workid.toNat :=
  (pairwise_sortBy ..).filter _

/-- The wave with a new group of lanes `ms` at a PC. -/
def formed (pc : DWord) (h : Header) (ms : List Nat) (x : Wave) : Wave :=
  setGroup (pmcAdd { x with nextGroup := x.nextGroup + 1 } 1 1) x.nextGroup
    { clause := pcClause pc, hdr := h, index := pcIndex pc, lanes := ms }

/-- A group forms at a clause of those whom the waits of its legal header let pass (R99). -/
theorem formGroup_word (hx : NMap.find? dev.waves w = some x) (hl : x.live = true) (hr : x.resident = true)
    (hlim : x.limited = false) (hleave : x.leaving = none)
    (hf : fetchWord dev x.core x.ctx (pcClause pc).toNat = (.word hw, d)) (hc : (Header.of hw).check = .ok ())
    (hi : pcIndex pc = 0) (ht : holdsToken d w = true → barrierWait (Header.of hw) = false)
    (hne : (standing dev x pc).filter (waitsOk d w (Header.of hw)) ≠ []) :
    formGroup dev w pc (fun _ => true) =
      modWave
        (((standing dev x pc).filter (waitsOk d w (Header.of hw))).foldl (fun d l => readWaits d w (Header.of hw) l) d)
        w (formed pc (Header.of hw) ((standing dev x pc).filter (waitsOk d w (Header.of hw)))) := by
  have hgo : ¬ (!x.live || !x.resident || x.limited || x.leaving.isSome) = true := by
    simp [hl, hr, hlim, hleave]
  have hs : ¬ (standing dev x pc).isEmpty = true := fun h => hne (by rw [List.isEmpty_iff.1 h, List.filter_nil])
  have hcount : ¬ (Header.of hw).count < pcIndex pc := by rw [hi]; exact Nat.not_lt_zero _
  have hfirst : (pcIndex pc == 0) = true := by rw [hi]; rfl
  have htok : ¬ (true && holdsToken d w && barrierWait (Header.of hw)) = true := by
    rw [Bool.true_and, Bool.and_eq_true]
    exact fun h => Bool.false_ne_true ((ht h.1).symm.trans h.2)
  have hms : ¬ ((standing dev x pc).filter (waitsOk d w (Header.of hw))).isEmpty = true :=
    fun h => hne (List.isEmpty_iff.1 h)
  unfold formGroup
  rw [wave_of_find hx]
  dsimp only
  rw [if_neg hgo]
  change (if (standing dev x pc).isEmpty then _ else _) = _
  rw [if_neg hs, hf]
  dsimp only
  rw [hc]
  dsimp only
  rw [if_neg hcount, hfirst, if_neg htok, if_pos rfl, if_pos rfl]
  exact if_neg hms

end

theorem exec_issueGroupForm (w : Nat) (pc : DWord) (s : State) : exec (.issueGroupForm w pc) s =
    onWaveDev s w fun dev => if runOnReached dev (wave dev w) then dev else formGroup dev w pc fun _ => true := rfl

/-- The threads that a group at a clause is made up of (R94, R99). -/
def Forms (dev d : Device) (w : Nat) (x : Wave) (clause : DWord) (h : Header) (l : Nat) : Prop :=
  (NMap.find? x.threads l).isSome ∧ readyAt x l = true ∧ spent dev x l = false ∧
    (thread x l).pc = mkPc clause 0 ∧ waitsOk d w h l = true

theorem issueGroupForm_forms {s : State} {w : Nat} {x : Wave} {clause hw : DWord} {d : Device}
    (hx : NMap.find? s.dev.waves w = some x) (hl : x.live = true) (hr : x.resident = true) (hlim : x.limited = false)
    (hleave : x.leaving = none) (hret : coreRetained s x.core = false) (hrun : runOnReached s.dev x = false)
    (hf : fetchWord s.dev x.core x.ctx (pcClause (mkPc clause 0)).toNat = (.word hw, d))
    (hc : (Header.of hw).check = .ok ()) (ht : holdsToken d w = true → (Header.of hw).wak ≠ 1 ∧ (Header.of hw).wbk ≠ 1)
    (hm : ∃ l, Forms s.dev d w x clause (Header.of hw) l) :
    ∃ s' y, exec (.issueGroupForm w (mkPc clause 0)) s = .next s' ∧
      NMap.find? (wave s'.dev w).groups x.nextGroup = some y ∧ y.hdr = Header.of hw ∧ y.index = 0 ∧ y.began = false ∧
      y.clause = pcClause (mkPc clause 0) ∧ (∀ l, l ∈ y.lanes ↔ Forms s.dev d w x clause (Header.of hw) l) ∧
      y.lanes.Pairwise fun a b => (thread x a).workid.toNat ≤ (thread x b).workid.toNat := by
  have hmem (l : Nat) : l ∈ (standing s.dev x (mkPc clause 0)).filter (waitsOk d w (Header.of hw)) ↔
      Forms s.dev d w x clause (Header.of hw) l := by
    simp only [List.mem_filter, mem_standing, Forms, and_assoc]
  have hsort := (pairwise_standing s.dev x (mkPc clause 0)).filter (waitsOk d w (Header.of hw))
  have hform := formGroup_word hx hl hr hlim hleave hf hc (pcIndex_mkPc_zero clause)
    (fun h => by simp [barrierWait, (ht h).1, (ht h).2])
    (List.ne_nil_of_mem ((hmem _).2 hm.choose_spec))
  generalize (standing s.dev x (mkPc clause 0)).filter (waitsOk d w (Header.of hw)) = ms at hmem hsort hform
  have hd : d.waves = s.dev.waves := by
    have := (fetchWord_keeps s.dev x.core x.ctx (pcClause (mkPc clause 0)).toNat).1
    rwa [hf] at this
  obtain ⟨z, hz, hsame, -⟩ := (Retimes.of_waves hd).trans
    (retimes_foldl (fun d l => retimes_readWaits d w (Header.of hw) l) ms d) x hx
  refine ⟨_, { clause := pcClause (mkPc clause 0), hdr := Header.of hw, index := pcIndex (mkPc clause 0), lanes := ms },
    (exec_issueGroupForm ..).trans (onWaveDev_next (retained_of_core hx hret) _), ?_, rfl, pcIndex_mkPc_zero clause,
    rfl, rfl, hmem, hsort⟩
  dsimp only
  rw [wave_of_find hx, if_neg (Bool.eq_false_iff.1 hrun), hform, wave_of_find (find_modWave_self _ hz), hsame]
  exact NMap.find?_put_self ..

/-! ### Timestamps and the run-on limit (R198, R355) -/

section
variable {s : State} {w l g : Nat} {x : Wave} {t : Thread} {y : Group}

/-- A living thread's timestamp rises. -/
def ptsUp (t : Thread) : Thread := if alive t then { t with pts := t.pts + 1 } else t

theorem exec_ptsAdvance (w l : Nat) (s : State) : exec (.ptsAdvance w l) s =
    .next { s with dev := if (wave s.dev w).resident then modThreadAt s.dev w l ptsUp else s.dev } := rfl

theorem ptsAdvance_rises (hx : NMap.find? s.dev.waves w = some x) (hr : x.resident = true)
    (ht : NMap.find? x.threads l = some t) :
    ∃ s', exec (.ptsAdvance w l) s = .next s' ∧
      NMap.find? (wave s'.dev w).threads l = some (if alive t then { t with pts := t.pts + 1 } else t) := by
  refine ⟨_, exec_ptsAdvance w l s, ?_⟩
  dsimp only
  rw [wave_of_find hx, if_pos hr, modThreadAt, wave_of_find (find_modWave_self _ hx), find_modThread, if_pos rfl, ht]
  rfl

theorem exec_runOnLimit (w : Nat) (s : State) : exec (.runOnLimit w) s = onWaveDev s w fun dev => stopRunOn dev w := rfl

/-- A member of a group that is given up, which goes on from a PC. -/
def dissolved (y : Group) (t : Thread) : Thread :=
  match t.wait with
  | .hold => goTo t (nextPc (some y.issued) (groupPc y))
  | .none => { t with pc := groupPc y, inst := none }
  | _ => { t with pc := groupPc y, inst := some y.issued }

theorem dissolveGroup_eq (hy : NMap.find? x.groups g = some y) :
    dissolveGroup x g = dropGroup (eachThread x y.lanes fun _ => dissolved y) g := by
  unfold dissolveGroup
  rw [group_of_find hy]
  rfl

theorem pc_dissolved (h : t.wait = .none) : (dissolved y t).pc = groupPc y := by
  unfold dissolved
  rw [h]

/-- The groups of a wave whose members wait for nothing are given up. -/
def groupsStopped (x : Wave) : Wave :=
  x.groups.foldl (fun y p =>
    if p.2.lanes.all (fun l => (thread y l).wait == .none) then dissolveGroup y p.1 else y) x

theorem stopRunOn_reached {dev : Device} (h : runOnReached dev (wave dev w) = true) :
    stopRunOn dev w = modWave dev w fun x => { groupsStopped x with limited := true } := by
  have hd : ¬ ((wave dev w).first.isSome && (launch dev (wave dev w).launch).hdr.det) = true := by
    rw [runOnReached, Bool.and_eq_true, Bool.and_eq_true, Bool.not_eq_true'] at h
    rw [h.1.2, Bool.and_false]
    exact Bool.false_ne_true
  unfold stopRunOn
  dsimp only
  rw [if_neg hd, h]
  rfl

theorem groupsStopped_one (hg : x.groups = [(g, y)]) (nd : y.lanes.Nodup)
    (hw : ∀ l ∈ y.lanes, ∃ t, NMap.find? x.threads l = some t ∧ t.wait = .none) :
    (groupsStopped x).groups = [] ∧ ∀ l ∈ y.lanes, (thread (groupsStopped x) l).pc = groupPc y := by
  have hy : NMap.find? x.groups g = some y := by rw [hg]; exact if_pos rfl
  have hall : y.lanes.all (fun l => (thread x l).wait == .none) = true := List.all_eq_true.2 fun l hl => by
    obtain ⟨t, ht, hwait⟩ := hw l hl
    rw [thread_of_find ht, hwait]
    rfl
  have he : groupsStopped x = dropGroup (eachThread x y.lanes fun _ => dissolved y) g := by
    unfold groupsStopped
    rw [← dissolveGroup_eq hy, hg, List.foldl_cons, List.foldl_nil, hall, if_pos rfl]
  rw [he]
  refine ⟨?_, fun l hl => ?_⟩
  · rw [dropGroup, eachThread_groups, hg]
    exact if_pos rfl
  · obtain ⟨t, ht, hwait⟩ := hw l hl
    have hf := find_eachThread (x := x) (fun _ => dissolved y) nd l
    rw [if_pos hl, ht] at hf
    rw [dropGroup, thread, NMap.get_of_find? hf]
    exact pc_dissolved hwait

theorem runOnLimit_limits (hx : NMap.find? s.dev.waves w = some x) (hr : retained s w = false)
    (h : runOnReached s.dev x = true) :
    ∃ s', exec (.runOnLimit w) s = .next s' ∧ wave s'.dev w = { groupsStopped x with limited := true } := by
  refine ⟨_, (exec_runOnLimit w s).trans (onWaveDev_next hr _), ?_⟩
  dsimp only
  rw [stopRunOn_reached (by rwa [wave_of_find hx]), wave_of_find (find_modWave_self _ hx)]

/-- The threads of a wave that stop at the limit in deterministic mode. -/
def stopSpent (dev : Device) (x : Wave) : Wave :=
  x.threads.foldl (fun y p =>
    if p.2.run == .run && spent dev x p.1 && p.2.wait == .none then
      let pc := pcOf y p.1
      let y1 := match groupOf y p.1 with
        | some g => leaveLane y g p.1
        | none => y
      modThread y1 p.1 fun t => { t with run := .stopped, pc := pc }
    else y) x

theorem stopRunOn_det {dev : Device}
    (h : ((wave dev w).first.isSome && (launch dev (wave dev w).launch).hdr.det) = true) :
    stopRunOn dev w = modWave dev w (stopSpent dev) := by
  unfold stopRunOn
  dsimp only
  rw [if_pos h]
  rfl

theorem stopSpent_one {dev : Device} (ht : x.threads = [(l, t)]) (hg : x.groups = []) (hs : spent dev x l = true)
    (hw : t.wait = .none) (hrun : t.run = .run) :
    stopSpent dev x = modThread x l fun u => { u with run := .stopped, pc := t.pc } := by
  have hnone : groupOf x l = none := by rw [groupOf, hg]; rfl
  have hpc : pcOf x l = t.pc := by
    rw [pcOf, hnone]
    exact congrArg Thread.pc (thread_of_find (by rw [ht]; exact if_pos rfl))
  have hc : (t.run == .run && spent dev x l && t.wait == .none) = true := by rw [hrun, hs, hw]; rfl
  unfold stopSpent
  rw [ht, List.foldl_cons, List.foldl_nil, if_pos hc, hnone, hpc]

/-- In deterministic mode the thread that reached the limit stops where it stands. -/
theorem runOnLimit_stops (hx : NMap.find? s.dev.waves w = some x) (hr : retained s w = false)
    (hfirst : x.first.isSome = true) (hd : (launch s.dev x.launch).hdr.det = true) (ht : x.threads = [(l, t)])
    (hg : x.groups = []) (hs : spent s.dev x l = true) (hw : t.wait = .none) (hrun : t.run = .run) :
    ∃ s', exec (.runOnLimit w) s = .next s' ∧ (thread (wave s'.dev w) l).run = .stopped ∧
      (thread (wave s'.dev w) l).pc = t.pc := by
  have hl : NMap.find? x.threads l = some t := by rw [ht]; exact if_pos rfl
  refine ⟨_, (exec_runOnLimit w s).trans (onWaveDev_next hr _), ?_⟩
  have hf := find_modThread x l l fun u => { u with run := .stopped, pc := t.pc }
  rw [if_pos rfl, hl] at hf
  dsimp only
  rw [stopRunOn_det (by rw [wave_of_find hx, hfirst, hd]; rfl), wave_of_find (find_modWave_self _ hx),
    stopSpent_one ht hg hs hw hrun, thread_of_find hf]
  exact ⟨rfl, rfl⟩

end

/-! ### Page retry (R111, R192) -/

section
variable {s : State} {w l : Nat} {x : Wave} {t : Thread} {dev : Device}

theorem exec_pageRetry (w l : Nat) (s : State) :
    exec (.pageRetry w l) s = onWaveDev s w fun dev => retryPage dev w l := rfl

/-- A thread that takes up its run again after a page fault, waiting for `k`. -/
def resumes (k : Wait) (t : Thread) : Thread :=
  { t with run := .run, wait := k, pgVa := 0, pgLevel := 0, pgReq := none }

/-- The group that a retry makes: it goes on with the instruction as it issued, or fetches its word (R111). -/
def retryGroup (x : Wave) (l : Nat) (i : Issued) : Group :=
  let r := resumedGroup x (thread x l).pc i [l] true
  if i.iw.isSome then r else { r with began := false, lead := none, s0 := [], d0 := [] }

/-- What a retry makes of the wave. -/
def retried (x : Wave) (l : Nat) (y : Wave) : Wave :=
  match (thread x l).inst with
  | none => modThread y l (resumes .none)
  | some i => resumeGroup (modThread y l (resumes (if i.iw.isSome then .retry else .none))) (retryGroup x l i)

theorem retryPage_eq (h : mayRetry dev (wave dev w) l = true) :
    retryPage dev w l = modWave (afterMates dev w l) w (retried (wave dev w) l) := by
  unfold retryPage
  dsimp only
  rw [h]
  refine congrArg (modWave _ w) (funext fun y => ?_)
  unfold retried
  cases hi : (thread (wave dev w) l).inst with
  | none => rfl
  | some i =>
    dsimp only [retryGroup]
    split <;> rfl

theorem pageRetry_retries (hx : NMap.find? s.dev.waves w = some x) (ht : NMap.find? x.threads l = some t)
    (h : mayRetry s.dev x l = true) (hr : coreRetained s x.core = false) :
    ∃ s' z u, exec (.pageRetry w l) s = .next s' ∧ wave s'.dev w = retried x l z ∧
      z = { x with threads := z.threads } ∧ NMap.find? z.threads l = some u ∧ Retimed t u := by
  obtain ⟨z, hz, hsame, hthreads⟩ := retimes_afterMates s.dev w l x hx
  obtain ⟨u, hu, hret⟩ := hthreads l t ht
  refine ⟨_, z, u, (exec_pageRetry w l s).trans (onWaveDev_next (retained_of_core hx hr) _), ?_, hsame, hu, hret⟩
  dsimp only
  rw [retryPage_eq (by rwa [wave_of_find hx]), wave_of_find (find_modWave_self _ hz), wave_of_find hx]

variable {y z : Wave} {u : Thread} {r : Group}

theorem resumeGroup_one (hl : NMap.find? z.threads l = some u) (hr : r.lanes = [l]) :
    NMap.find? (resumeGroup z r).groups z.nextGroup = some r ∧ thread (resumeGroup z r) l = { u with inst := none } := by
  have hf := find_modThread z l l fun t => { t with inst := none }
  rw [if_pos rfl, hl] at hf
  have he : resumeGroup z r = setGroup (pmcAdd { modThread z l (fun t => { t with inst := none }) with
      nextGroup := z.nextGroup + 1 } 1 1) z.nextGroup r := by
    unfold resumeGroup
    rw [hr, List.foldl_cons, List.foldl_nil, modThread_eq]
  rw [he]
  exact ⟨NMap.find?_put_self .., NMap.get_of_find? hf⟩

/-- A retry within an instruction: the lane makes up a new group for itself alone. -/
theorem retried_inst {i : Issued} (ht : thread x l = t) (hi : t.inst = some i)
    (hz : z = { x with threads := z.threads }) (hu : NMap.find? z.threads l = some u) :
    NMap.find? (retried x l z).groups x.nextGroup = some (retryGroup x l i) ∧
      thread (retried x l z) l = { resumes (if i.iw.isSome then .retry else .none) u with inst := none } := by
  have hf := find_modThread z l l (resumes (if i.iw.isSome then .retry else .none))
  rw [if_pos rfl, hu] at hf
  have hl : (retryGroup x l i).lanes = [l] := by
    unfold retryGroup
    dsimp only
    split <;> rfl
  have hn : (modThread z l (resumes (if i.iw.isSome then .retry else .none))).nextGroup = x.nextGroup := by
    rw [modThread_eq, hz]
  have hr := resumeGroup_one hf hl
  rw [hn] at hr
  unfold retried
  rw [ht, hi]
  exact hr

/-- A retry at the fetch of a clause header: the lane stands ready again. -/
theorem retried_none (ht : thread x l = t) (hi : t.inst = none) (hz : z = { x with threads := z.threads })
    (hu : NMap.find? z.threads l = some u) :
    (retried x l z).groups = x.groups ∧ thread (retried x l z) l = resumes .none u := by
  have hf := find_modThread z l l (resumes .none)
  rw [if_pos rfl, hu] at hf
  unfold retried
  rw [ht, hi]
  refine ⟨?_, thread_of_find hf⟩
  dsimp only
  rw [modThread_groups, hz]

/-- What the group of a retry is made of, at an instruction or at the fetch of its word. -/
theorem retryGroup_spec {i : Issued} (ht : thread x l = t) :
    (retryGroup x l i).lanes = [l] ∧ (retryGroup x l i).hdr = i.hdr ∧ (retryGroup x l i).clause = pcClause t.pc ∧
      (retryGroup x l i).index = pcIndex t.pc ∧ (retryGroup x l i).began = !i.iw.isNone ∧
      (retryGroup x l i).lead = (if t.lead = true ∧ i.iw.isNone = false then some l else none) ∧
      (i.iw.isNone = false →
        (retryGroup x l i).iw = i.iw ∧ (retryGroup x l i).s0 = i.s0 ∧ (retryGroup x l i).d0 = i.d0) := by
  unfold retryGroup
  cases hw : i.iw with
  | none => exact ⟨rfl, rfl, by rw [ht]; rfl, by rw [ht]; rfl, rfl, by simp, nofun⟩
  | some iw =>
    refine ⟨rfl, rfl, by rw [ht]; rfl, by rw [ht]; rfl, rfl, ?_, fun _ => ⟨hw, rfl, rfl⟩⟩
    cases hl : t.lead <;> simp [resumedGroup, ht, hl]

end

end Sys2Proof.Machine
end

section
/-!
PROOFS. KILL of a workgroup of a context in destruction (R60, R374, R375, R406): no step of the kill makes a workgroup, and
the context is free once none is left.
-/
namespace Sys2Proof.Machine

/-! ### What a kill leaves of the workgroups -/

/-- Every workgroup of `d` is one of `dev`, in the same context. -/
structure WgsFrom (dev d : Device) : Prop where
  same_ctx : ∀ j y, NMap.find? d.wgs j = some y → ∃ y0, NMap.find? dev.wgs j = some y0 ∧ y.ctx = y0.ctx

section
variable {dev d e : Device} {who : Who} {w l g c : Nat} {o : Loc}

theorem WgsFrom.refl (dev : Device) : WgsFrom dev dev := ⟨fun _ y hy => ⟨y, hy, rfl⟩⟩

theorem WgsFrom.of_wgs (h : d.wgs = dev.wgs) : WgsFrom dev d :=
  ⟨fun _ y hy => ⟨y, h ▸ hy, rfl⟩⟩

theorem WgsFrom.trans (h : WgsFrom dev d) (k : WgsFrom d e) : WgsFrom dev e := by
  refine ⟨fun j y hy => ?_⟩
  obtain ⟨y1, h1, c1⟩ := k.same_ctx j y hy
  obtain ⟨y0, h0, c0⟩ := h.same_ctx j y1 h1
  exact ⟨y0, h0, c1.trans c0⟩

/-- The jobs are no part of it. -/
theorem WgsFrom.jobs (h : WgsFrom dev d) (m : NMap Job) : WgsFrom dev { d with jobs := m } := ⟨h.same_ctx⟩

theorem WgsFrom.find_none (h : WgsFrom dev d) (hn : NMap.find? dev.wgs g = none) : NMap.find? d.wgs g = none := by
  cases hf : NMap.find? d.wgs g with
  | none => rfl
  | some y =>
    obtain ⟨y0, h0, -⟩ := h.same_ctx g y hf
    rw [hn] at h0
    cases h0

theorem wgsFrom_foldl {α : Type} {f : Device → α → Device} (h : ∀ d a, WgsFrom d (f d a)) (ls : List α)
    (dev : Device) : WgsFrom dev (ls.foldl f dev) :=
  List.foldlRecOn (motive := WgsFrom dev) ls f (.refl dev) fun _ he a _ => he.trans (h _ a)

theorem wgsFrom_foldl_pair {α : Type} {f : Bool × Device → α → Bool × Device} (h : ∀ r a, WgsFrom r.2 (f r a).2)
    (ls : List α) (r : Bool × Device) : WgsFrom r.2 (ls.foldl f r).2 :=
  List.foldlRecOn (motive := fun q : Bool × Device => WgsFrom r.2 q.2) ls f (.refl _)
    fun _ he a _ => he.trans (h _ a)

theorem wgsFrom_modWg (dev : Device) (g : Nat) {f : Wg → Wg} (hf : ∀ x, (f x).ctx = x.ctx) :
    WgsFrom dev (modWg dev g f) := by
  refine ⟨fun j y hy => ?_⟩
  unfold modWg at hy
  split at hy
  next x hx =>
    rw [setWg, NMap.find?_put] at hy
    split at hy
    next hj => exact ⟨x, hj ▸ hx, by rw [← Option.some.inj hy, hf]⟩
    next => exact ⟨y, hy, rfl⟩
  next => exact ⟨y, hy, rfl⟩

theorem setPts_wgs (dev : Device) (who : Who) (n : DWord) : (setPts dev who n).wgs = dev.wgs := by
  cases who with
  | lane w l => exact modWave_wgs ..
  | _ => rfl

theorem wgsFrom_stampWrite (dev : Device) (who : Who) (o : Loc) : WgsFrom dev (stampWrite dev who o) :=
  .of_wgs (setPts_wgs ..)

theorem Stored.wgsFrom (h : Stored dev d) : WgsFrom dev d := .of_wgs (by rw [h]; rfl)

theorem wgsFrom_putByte (dev : Device) (o : Loc) (v : Byte) : WgsFrom dev (putByte dev o v) := by
  cases o with
  | glob a => exact .of_wgs rfl
  | scr g a => exact wgsFrom_modWg dev g fun _ => rfl

theorem wgsFrom_putBytes (dev : Device) (o : Loc) (bs : List Byte) : WgsFrom dev (putBytes dev o bs) := by
  cases o with
  | glob a => exact (stored_putBytes_glob dev a bs).wgsFrom
  | scr g a => exact wgsFrom_modWg dev g fun _ => rfl

/-! ### Objects and rings (R235, R245, R249) -/

theorem wgsFrom_breakObj (dev : Device) (who : Who) (o : Loc) : WgsFrom dev (breakObj dev who o) := by
  unfold breakObj
  split
  · exact .refl _
  · exact (wgsFrom_stampWrite dev who o).trans (wgsFrom_putByte ..)

theorem wgsFrom_breakObjects (dev : Device) (w l : Nat) : WgsFrom dev (breakObjects dev w l) :=
  WgsFrom.trans (wgsFrom_foldl (f := fun d (b : Bind) => unregister (breakObj d (.lane w l) b.loc) b.loc w l)
    (fun d b => (wgsFrom_breakObj d (.lane w l) b.loc).trans (.of_wgs rfl)) _ dev) (.of_wgs (modWave_wgs ..))

theorem wgsFrom_writeRing (dev : Device) (who : Who) (o : Loc) (r : Ring) : WgsFrom dev (writeRing dev who o r) :=
  (wgsFrom_stampWrite dev who o).trans (wgsFrom_putBytes ..)

theorem wgsFrom_publish (dev : Device) (who : Who) (o : Loc) (i : Nat) : WgsFrom dev (publish dev who o i) := by
  unfold publish
  split
  · exact .refl _
  · exact (wgsFrom_writeRing ..).trans (.of_wgs rfl)

theorem wgsFrom_release (dev : Device) (who : Who) (o : Loc) (i : Nat) : WgsFrom dev (release dev who o i) := by
  unfold release
  split
  · exact .refl _
  · exact (wgsFrom_writeRing ..).trans (.of_wgs rfl)

theorem wgsFrom_leaveRole (dev : Device) (who : Who) (o : Loc) (put : Bool) : WgsFrom dev (leaveRole dev who o put) := by
  cases put with
  | false => exact wgsFrom_writeRing ..
  | true => exact wgsFrom_writeRing ..

/-! ### Waves (R276, R368, R375) -/

theorem wgsFrom_discardEntry (dev : Device) (c : Nat) (t : Thread) : WgsFrom dev (discardEntry dev c t) := by
  unfold discardEntry
  split
  · exact .refl _
  · dsimp only
    split
    · exact .refl _
    · split
      · split
        · exact wgsFrom_modWg _ _ fun _ => rfl
        · exact .refl _
      · exact .refl _

theorem endWave_wgs (dev : Device) (w : Nat) : (endWave dev w).wgs = dev.wgs := by
  unfold endWave
  dsimp only
  split
  · exact modWave_wgs ..
  · exact (modLaunch_wgs ..).trans (modWave_wgs ..)

theorem wgsFrom_killWave (dev : Device) (w : Nat) (k : Cause) : WgsFrom dev (killWave dev w k).2 := by
  unfold killWave
  dsimp only
  split
  · exact .refl _
  · refine WgsFrom.trans (WgsFrom.trans ?_ (wgsFrom_foldl (fun d l => ?_) (aliveLanes (wave dev w)) _))
      (.of_wgs (endWave_wgs ..))
    · cases hl : writeLog dev (wave dev w).ctx (waveRecord (wave dev w) k) with
      | none => exact .of_wgs rfl
      | some d => exact (stored_writeLog hl).wgsFrom
    · exact ((wgsFrom_discardEntry ..).trans (wgsFrom_breakObjects ..)).trans (.of_wgs (modWave_wgs ..))

/-! ### Jobs, chunks and the Kiln (R302, R327, R414) -/

theorem wgsFrom_engUnname (dev : Device) (o : Loc) (n : Nat) : WgsFrom dev (engUnname dev o n) := .of_wgs rfl

theorem wgsFrom_jobLeaveRing (dev : Device) (id : Nat) : WgsFrom dev (jobLeaveRing dev id) := by
  unfold jobLeaveRing
  dsimp only
  split
  next =>
    split
    · exact (WgsFrom.refl dev).jobs _
    · refine WgsFrom.jobs (WgsFrom.trans ?_ (wgsFrom_leaveRole ..)) _
      split
      · exact wgsFrom_publish ..
      · exact .refl _
  next => exact .of_wgs rfl

theorem wgsFrom_jobFinish (dev : Device) (id state status : Nat) : WgsFrom dev (jobFinish dev id state status) := by
  unfold jobFinish
  dsimp only
  exact ((wgsFrom_jobLeaveRing dev id).trans (wgsFrom_foldl (f := fun d l => engUnname d l id)
    (fun d l => wgsFrom_engUnname d l id) _ _)).jobs _

theorem wgsFrom_cancelJobs (dev : Device) (g : Nat) : WgsFrom dev (cancelJobs dev g) := by
  refine wgsFrom_foldl (fun d p => ?_) _ _
  split
  · dsimp only
    split
    · exact wgsFrom_jobFinish ..
    · exact ((WgsFrom.refl d).jobs _).trans (wgsFrom_jobFinish ..)
  · exact .refl _

theorem wgsFrom_cancelChunks (dev : Device) (g : Nat) : WgsFrom dev (cancelChunks dev g) := .of_wgs rfl

theorem wgsFrom_kilnLeaveRings (dev : Device) (g : Nat) : WgsFrom dev (kilnLeaveRings dev g) := by
  refine wgsFrom_foldl (fun d o => ?_) _ _
  split
  · dsimp only
    refine WgsFrom.trans ?_ (wgsFrom_engUnname ..)
    split
    · exact .refl d
    · exact (wgsFrom_foldl (f := fun e i => release e (.kiln (wg d g).core) o.loc i)
        (fun e i => wgsFrom_release e (.kiln (wg d g).core) o.loc i) _ d).trans (wgsFrom_leaveRole ..)
  · exact .refl d

theorem wgsFrom_endKiln (dev : Device) (g : Nat) : WgsFrom dev (endKiln dev g) := by
  refine WgsFrom.trans (WgsFrom.trans (wgsFrom_kilnLeaveRings dev g) (.of_wgs (d := { kilnLeaveRings dev g with
    objs := (kilnLeaveRings dev g).objs.map fun o => { o with eng := o.eng.filter (· != kilnName g) } }) rfl))
    (WgsFrom.trans (wgsFrom_modWg _ g fun x => ?_) (.of_wgs rfl))
  split
  · rfl
  · rfl

/-! ### Workgroups and contexts (R60, R370, R375) -/

theorem removeWg_wgs (dev : Device) (g : Nat) : (removeWg dev g).wgs = NMap.erase dev.wgs g := by
  unfold removeWg
  dsimp only
  split
  · rfl
  · exact modLaunch_wgs ..

theorem wgsFrom_removeWg (dev : Device) (g : Nat) : WgsFrom dev (removeWg dev g) := by
  refine ⟨fun j y hy => ?_⟩
  rw [removeWg_wgs, NMap.find?_erase] at hy
  split at hy
  · cases hy
  · exact ⟨y, hy, rfl⟩

/-- A killed workgroup before its Kiln ends. -/
def killedWork (dev : Device) (g : Nat) (cause : Nat → Cause) : Bool × Device :=
  let r := (wg dev g).waves.foldl (fun (r : Bool × Device) w =>
    (r.1 && (killWave r.2 w (cause w)).1, (killWave r.2 w (cause w)).2)) (true, dev)
  (r.1, modWg (cancelChunks (cancelJobs r.2 g) g) g fun y =>
    { y with paths := [], dests := [], bslots := [], rslots := [] })

theorem killWg_eq (dev : Device) (g : Nat) (cause : Nat → Cause) : killWg dev g cause =
    ((killedWork dev g cause).1, if lingers (killedWork dev g cause).2 g then
      modWg (killedWork dev g cause).2 g fun y =>
        { y with ended := true, kiln := y.kiln.map fun k => { k with cmds := k.cmds.take 1, cancel := true } }
      else removeWg (endKiln (killedWork dev g cause).2 g) g) := by
  unfold killWg killedWork
  dsimp only
  split <;> rfl

theorem wgsFrom_killedWork (dev : Device) (g : Nat) (cause : Nat → Cause) : WgsFrom dev (killedWork dev g cause).2 := by
  have hw := wgsFrom_foldl_pair
    (f := fun (r : Bool × Device) w => (r.1 && (killWave r.2 w (cause w)).1, (killWave r.2 w (cause w)).2))
    (fun r w => wgsFrom_killWave r.2 w (cause w)) (wg dev g).waves (true, dev)
  unfold killedWork
  dsimp only
  refine ((hw.trans (wgsFrom_cancelJobs ..)).trans (wgsFrom_cancelChunks ..)).trans (wgsFrom_modWg _ g ?_)
  exact fun _ => rfl

theorem wgsFrom_killWg (dev : Device) (g : Nat) (cause : Nat → Cause) : WgsFrom dev (killWg dev g cause).2 := by
  rw [killWg_eq]
  refine (wgsFrom_killedWork dev g cause).trans ?_
  dsimp only
  split
  · exact wgsFrom_modWg _ g fun _ => rfl
  · exact (wgsFrom_endKiln ..).trans (wgsFrom_removeWg ..)

theorem killedWork_ctxs (dev : Device) (g : Nat) (cause : Nat → Cause) :
    (killedWork dev g cause).2.ctxs = dev.ctxs := by
  have hw := foldl_pair_ctxs
    (f := fun (r : Bool × Device) w => (r.1 && (killWave r.2 w (cause w)).1, (killWave r.2 w (cause w)).2))
    (fun r w => killWave_ctxs r.2 w (cause w)) (wg dev g).waves (true, dev)
  simp [killedWork, hw]

/-- A workgroup of a context in destruction does not linger: a step of its Kiln ends with it (R327, R406). -/
theorem lingers_of_destruction (hb : (ctx dev (wg dev g).ctx).busy = 2) : lingers dev g = false := by
  simp [lingers, hb]

theorem find_killWg {y : Wg} (hg : NMap.find? dev.wgs g = some y) (hb : (ctx dev y.ctx).busy = 2)
    (cause : Nat → Cause) : NMap.find? (killWg dev g cause).2.wgs g = none := by
  have hl : lingers (killedWork dev g cause).2 g = false := by
    cases hf : NMap.find? (killedWork dev g cause).2.wgs g with
    | none => rw [lingers, wg, NMap.get, hf]; rfl
    | some z =>
      obtain ⟨y0, h0, hc⟩ := (wgsFrom_killedWork dev g cause).same_ctx g z hf
      obtain rfl : y = y0 := Option.some.inj (hg.symm.trans h0)
      refine lingers_of_destruction ?_
      rw [ctx_of_ctxs (killedWork_ctxs dev g cause), wg, NMap.get_of_find? hf, hc, hb]
  rw [killWg_eq, hl]
  dsimp only
  rw [if_neg Bool.false_ne_true, removeWg_wgs]
  exact NMap.find?_erase_self ..

theorem wgsFrom_killStep (r : Bool × Device) (k : Cause) (g : Nat) : WgsFrom r.2 (killStep k r g).2 := by
  unfold killStep
  generalize (fun _ : Nat => if r.1 then k else saveCause) = cause
  refine (wgsFrom_killWg r.2 g cause).trans ?_
  dsimp only
  split
  · exact (wgsFrom_endKiln ..).trans (wgsFrom_removeWg ..)
  · exact .refl _

theorem wgsFrom_killAll (dev : Device) (c : Nat) (keep : Option Nat) (k : Cause) :
    WgsFrom dev (killAll dev c keep k) := by
  have hk := wgsFrom_foldl_pair (f := killStep k) (fun r g => wgsFrom_killStep r k g) (wgsOf dev c) (true, dev)
  refine hk.trans (.of_wgs ?_)
  unfold killAll
  dsimp only
  rw [apply_ite Device.wgs]
  exact ite_self _

theorem wgsFrom_endContext (dev : Device) (c : Nat) (keep : Option Nat) (k : Cause) :
    WgsFrom dev (endContext dev c keep k) := by
  refine (wgsFrom_killAll dev c keep k).trans (.of_wgs ?_)
  exact (zeroGranules_tables ..).2.trans (closeSessions_tables ..).2

theorem freeDestroyed_wgs (dev : Device) : (freeDestroyed dev).wgs = dev.wgs := by
  rw [freeDestroyed_eq]
  exact List.foldlRecOn (motive := fun d : Device => d.wgs = dev.wgs) _ _ rfl
    fun d hd p _ => (freeIfEnded_frame d p.1).1.trans hd

theorem saveAreaLoss_of_destruction (hb : (ctx dev c).busy = 2) :
    saveAreaLoss dev c = freeContext (endContext dev c none saveCause) c := if_pos hb

/-! ### KILL -/

theorem exec_kill (g : Nat) (s : State) : exec (.kill g) s = .next { s with dev := killDue s.dev g } := rfl

variable {y : Wg}

/-- The device once the workgroup has been killed, before its context may be freed. -/
theorem killDue_eq (hg : NMap.find? dev.wgs g = some y) (hl : y.live = true) (hb : (ctx dev y.ctx).busy = 2) :
    killDue dev g =
      let r := killWg dev g fun _ => { kind := 3, code := cKILLED }
      if r.1 then freeDestroyed r.2 else saveAreaLoss r.2 y.ctx := by
  have hc : (y.live && (ctx dev y.ctx).busy == 2) = true := by rw [hl, hb]; rfl
  unfold killDue
  rw [wg, NMap.get_of_find? hg]
  dsimp only
  rw [if_pos hc]

theorem find_killDue (hg : NMap.find? dev.wgs g = some y) (hl : y.live = true) (hb : (ctx dev y.ctx).busy = 2) :
    NMap.find? (killDue dev g).wgs g = none := by
  have hk := find_killWg hg hb fun _ => { kind := 3, code := cKILLED }
  have hx : (ctx (killWg dev g fun _ => { kind := 3, code := cKILLED }).2 y.ctx).busy = 2 := by
    rw [ctx_of_ctxs (killWg_ctxs ..), hb]
  rw [killDue_eq hg hl hb]
  generalize killWg dev g _ = r at hk hx
  dsimp only
  split
  · rw [freeDestroyed_wgs, hk]
  · rw [saveAreaLoss_of_destruction hx, freeContext_wgs]
    exact (wgsFrom_endContext ..).find_none hk

/-- With the last workgroup the context is free. -/
theorem cstate_killDue (hg : dev.wgs = [(g, y)]) (hl : y.live = true) (hb : (ctx dev y.ctx).busy = 2)
    (hc : (NMap.find? dev.ctxs y.ctx).isSome) : (ctx (killDue dev g) y.ctx).cstate = 0 := by
  have hf : NMap.find? dev.wgs g = some y := by rw [hg]; exact if_pos rfl
  have hk := find_killWg hf hb fun _ => { kind := 3, code := cKILLED }
  have hctxs := killWg_ctxs dev g fun _ => { kind := 3, code := cKILLED }
  have hfrom := wgsFrom_killWg dev g fun _ => { kind := 3, code := cKILLED }
  rw [killDue_eq hf hl hb]
  generalize killWg dev g _ = r at hk hctxs hfrom
  have hx : (ctx r.2 y.ctx).busy = 2 := by rw [ctx_of_ctxs hctxs, hb]
  have hw : ∀ p ∈ r.2.wgs, p.2.ctx ≠ y.ctx := fun p hp => by
    have hs : (NMap.find? r.2.wgs p.1).isSome := mem_keys.1 (List.mem_map_of_mem hp)
    obtain ⟨z, hz⟩ := Option.isSome_iff_exists.1 hs
    obtain ⟨y0, h0, -⟩ := hfrom.same_ctx p.1 z hz
    rw [hg] at h0
    by_cases hp1 : g = p.1
    · rw [← hp1, hk] at hz
      cases hz
    · rw [NMap.find?, if_neg hp1] at h0
      cases h0
  obtain ⟨x, hx0⟩ := Option.isSome_iff_exists.1 hc
  dsimp only
  split
  · rw [freeDestroyed_eq]
    obtain ⟨m, hm⟩ := ctx_foldl_freeIfEnded_idle (l := r.2.ctxs) (by rw [hctxs]; exact mem_of_find? hx0) hx hw
    rw [hm]
  · rw [saveAreaLoss_of_destruction hx, ctx_freeContext_self]

end

/-- Settles O41: each event by what it makes of the wave or of the workgroups. -/
theorem issueForms : Obligations.IssueForms := by
  unfold Obligations.IssueForms
  refine ⟨?forms, ?rises, fun s w x hx hr => ⟨?limits, ?stops⟩, ?retry, ?kill⟩
  case forms =>
    intro s w x clause hw d hx hl hr hlim hleave _ hret hrun hf hc _ member ht hm
    exact issueGroupForm_forms hx hl hr hlim hleave hret hrun hf hc ht hm
  case rises =>
    exact fun s w x l t hx hr ht => ptsAdvance_rises hx hr ht
  case limits =>
    intro h
    obtain ⟨s', hs, hw⟩ := runOnLimit_limits hx hr h
    refine ⟨s', hs, by rw [hw], fun g y hg nd hwait => ?_⟩
    rw [hw]
    exact groupsStopped_one hg nd hwait
  case stops =>
    intro hfirst hd l t ht hg hs hwait hrun
    exact runOnLimit_stops hx hr hfirst hd ht hg hs hwait hrun
  case retry =>
    intro s w x l t hx ht h hr
    obtain ⟨s', z, u, hs, hw, hz, hu, hret⟩ := pageRetry_retries hx ht h hr
    refine ⟨s', hs, ?_⟩
    rw [hw]
    cases hi : t.inst with
    | none =>
      obtain ⟨hg, hthread⟩ := retried_none (thread_of_find ht) hi hz hu
      rw [hg, hthread]
      exact ⟨rfl, nofun, fun _ => ⟨rfl, rfl⟩⟩
    | some i =>
      obtain ⟨hg, hthread⟩ := retried_inst (thread_of_find ht) hi hz hu
      rw [hthread]
      refine ⟨rfl, fun h he => ?_, nofun⟩
      obtain rfl := Option.some.inj he
      refine ⟨?_, retryGroup x l i, hg, retryGroup_spec (thread_of_find ht)⟩
      cases hiw : i.iw <;> simp [resumes]
  case kill =>
    intro s g y hg hl hb
    exact ⟨_, exec_kill g s, find_killDue hg hl hb, fun hone hc => cstate_killDue hone hl hb hc⟩

end Sys2Proof.Machine
end

section
/-!
PROOFS. Bitwise logic and shifts (R131, R132): the operands as the rules name them, and the amount at or above the width.
-/
namespace Sys2Proof.Machine

/-! ### Raw operands (R131) -/

theorem low_setWidth (v : Word) : (v.setWidth 64).setWidth 32 = v :=
  (BitVec.setWidth_setWidth_of_le v (by decide)).trans (BitVec.setWidth_eq v)

section
variable (x : Wave) (th : Thread) (a : Src) (b : Opb)

@[simp] theorem rdRaw_true : rdRaw true x th a = rd64 x th a := rfl
@[simp] theorem setWidth_rdRaw_false : (rdRaw false x th a).setWidth 32 = rd32 x th a :=
  low_setWidth _

/-- An immediate is extended by zero. -/
@[simp] theorem rdOpbRaw_true : rdOpbRaw true x th b = opb64 .n64 x th b := by cases b <;> rfl
@[simp] theorem setWidth_rdOpbRaw_false : (rdOpbRaw false x th b).setWidth 32 = rdOpb32 x th b := by
  cases b <;> exact low_setWidth _

end

/-! ### Bitwise logic (R131) -/

section
variable {i : Instr} {f : DWord → DWord → DWord} {p : Pred} {d : Reg} {a : Src} {b : Opb}

theorem logOp_gives_32 {f32 : Word → Word → Word} (hi : ∀ s, exec i s = aluStep s p (some d) (logOp f false a b))
    (hf : ∀ m n, (f m n).setWidth 32 = f32 (m.setWidth 32) (n.setWidth 32)) :
    Gives i p d fun x th => [f32 (rd32 x th a) (rdOpb32 x th b)] :=
  aluStep_gives hi fun _ x _ th _ _ _ => by
    show [(f (rdRaw false x th a) (rdOpbRaw false x th b)).setWidth 32] = _
    rw [hf, setWidth_rdRaw_false, setWidth_rdOpbRaw_false]

theorem logOp_gives_64 (hi : ∀ s, exec i s = aluStep s p (some d) (logOp f true a b)) :
    Gives i p d fun x th => words64 (f (rd64 x th a) (opb64 .n64 x th b)) :=
  aluStep_gives hi fun _ x _ th _ _ _ => by
    show words64 (f (rdRaw true x th a) (rdOpbRaw true x th b)) = _
    rw [rdRaw_true, rdOpbRaw_true]

end

section
variable (p : Pred) (d : Reg) (a : Src) (b : Opb)

theorem bitwise_32 :
    Gives (.and false p d a b) p d (fun x th => [rd32 x th a &&& rdOpb32 x th b]) ∧
    Gives (.or false p d a b) p d (fun x th => [rd32 x th a ||| rdOpb32 x th b]) ∧
    Gives (.xor false p d a b) p d (fun x th => [rd32 x th a ^^^ rdOpb32 x th b]) ∧
    Gives (.andn false p d a b) p d (fun x th => [rd32 x th a &&& ~~~rdOpb32 x th b]) :=
  ⟨logOp_gives_32 (fun _ => rfl) fun _ _ => BitVec.setWidth_and,
    logOp_gives_32 (fun _ => rfl) fun _ _ => BitVec.setWidth_or,
    logOp_gives_32 (fun _ => rfl) fun _ _ => BitVec.setWidth_xor,
    logOp_gives_32 (f32 := fun m n => m &&& ~~~n) (fun _ => rfl) fun m n => by
      rw [BitVec.setWidth_and, BitVec.setWidth_not (by decide)]⟩

theorem bitwise_64 :
    Gives (.and true p d a b) p d (fun x th => words64 (rd64 x th a &&& opb64 .n64 x th b)) ∧
    Gives (.or true p d a b) p d (fun x th => words64 (rd64 x th a ||| opb64 .n64 x th b)) ∧
    Gives (.xor true p d a b) p d (fun x th => words64 (rd64 x th a ^^^ opb64 .n64 x th b)) ∧
    Gives (.andn true p d a b) p d (fun x th => words64 (rd64 x th a &&& ~~~opb64 .n64 x th b)) :=
  ⟨logOp_gives_64 fun _ => rfl, logOp_gives_64 fun _ => rfl, logOp_gives_64 fun _ => rfl,
    logOp_gives_64 (f := fun m n => m &&& ~~~n) fun _ => rfl⟩

theorem not_gives :
    Gives (.not false p d a) p d (fun x th => [~~~rd32 x th a]) ∧
    Gives (.not true p d a) p d (fun x th => words64 (~~~rd64 x th a)) := by
  constructor
  · refine aluStep_gives (g := fun _ w t _ => outRaw false (~~~rdRaw false w t a)) (fun _ => rfl) fun _ x _ th _ _ _ => ?_
    show [(~~~rdRaw false x th a).setWidth 32] = _
    rw [BitVec.setWidth_not (by decide), setWidth_rdRaw_false]
  · exact aluStep_gives (g := fun _ w t _ => outRaw true (~~~rdRaw true w t a)) (fun _ => rfl) fun _ _ _ _ _ _ _ => rfl

end

/-! ### Shifts (R132) -/

section
variable {n : Nat} (v : BitVec n) (k : Nat)

theorem shiftLeft_below : (if k < n then v <<< k else 0) = v <<< k := by
  split
  · rfl
  · exact (BitVec.shiftLeft_eq_zero (by omega)).symm

theorem ushiftRight_below : (if k < n then v >>> k else 0) = v >>> k := by
  split
  · rfl
  · exact (BitVec.ushiftRight_eq_zero (by omega)).symm

/-- A shift by the width or more gives the sign in every bit, as one by n − 1 does. -/
theorem sshiftRight_min : v.sshiftRight (min k (n - 1)) = v.sshiftRight k := by
  rcases Nat.le_total k (n - 1) with h | h
  · rw [min_eq_left h]
  · ext i hi
    have last : v[n - 1] = v.msb := by rw [BitVec.msb_eq_getLsbD_last, BitVec.getLsbD_eq_getElem]
    rw [min_eq_right h, BitVec.getElem_sshiftRight, BitVec.getElem_sshiftRight]
    by_cases hk : k + i < n
    · simp only [show k = n - 1 by omega]
    · rw [dif_neg hk]
      split
      · simpa only [show i = 0 by omega, Nat.add_zero] using last
      · rfl

end

section
variable {i : Instr} {f32 : Word → Nat → Word} {f64 : DWord → Nat → DWord} {p : Pred} {d : Reg} {a : Src} {b : Opb}

theorem shiftOp_gives_32 {g : Word → Nat → Word} (hi : ∀ s, exec i s = aluStep s p (some d) (shiftOp f32 f64 false a b))
    (hf : ∀ v k, f32 v k = g v k) : Gives i p d fun x th => [g (rd32 x th a) (rdOpb32 x th b).toNat] :=
  aluStep_gives hi fun _ _ _ _ _ _ _ => congrArg (fun w => [w]) (hf _ _)

theorem shiftOp_gives_64 {g : DWord → Nat → DWord} (hi : ∀ s, exec i s = aluStep s p (some d) (shiftOp f32 f64 true a b))
    (hf : ∀ v k, f64 v k = g v k) : Gives i p d fun x th => words64 (g (rd64 x th a) (rdOpb32 x th b).toNat) :=
  aluStep_gives hi fun _ _ _ _ _ _ _ => congrArg words64 (hf _ _)

end

/-! ### The obligation -/

/-- Settles O2: the low 32 bits of a bitwise operation are that operation of the low 32 bits; a shift by the width or more
gives what the model's test or minimum gives there. -/
theorem bitwiseLogicAndShifts : Obligations.BitwiseLogicAndShifts := by
  unfold Obligations.BitwiseLogicAndShifts
  refine ⟨⟨fun p d a b => ?logic, fun p d a => not_gives p d a⟩, fun p d a b => ?shifts⟩
  case logic =>
    obtain ⟨and32, or32, xor32, andn32⟩ := bitwise_32 p d a b
    exact ⟨and32, or32, xor32, andn32, bitwise_64 p d a b⟩
  case shifts =>
    exact ⟨shiftOp_gives_32 (fun _ => rfl) shiftLeft_below, shiftOp_gives_32 (fun _ => rfl) ushiftRight_below,
      shiftOp_gives_32 (fun _ => rfl) sshiftRight_min,
      shiftOp_gives_32 (fun _ => rfl) fun _ _ => BitVec.rotateLeft_mod_eq_rotateLeft,
      shiftOp_gives_64 (fun _ => rfl) shiftLeft_below, shiftOp_gives_64 (fun _ => rfl) ushiftRight_below,
      shiftOp_gives_64 (fun _ => rfl) sshiftRight_min,
      shiftOp_gives_64 (fun _ => rfl) fun _ _ => BitVec.rotateLeft_mod_eq_rotateLeft⟩

end Sys2Proof.Machine
end

section
/-!
PROOFS. Bit fields (R133): numbers as sums of digits, the bits of an integer, and the field that a descriptor names.
-/
namespace Sys2Proof.Machine
open Finset (range)

/-! ### Sums of digits -/

theorem foldl_add_eq_sum (f : Nat → Nat) (n : Nat) : (List.range n).foldl (fun r i => r + f i) 0 = ∑ i ∈ range n, f i := by
  induction n with
  | zero => rfl
  | succ n ih => rw [List.range_succ, List.foldl_append, ih, Finset.sum_range_succ]; rfl

section
variable {B n : Nat} {g : Nat → Nat}

theorem sum_digits_lt (h : ∀ i < n, g i < B) : ∑ i ∈ range n, g i * B ^ i < B ^ n := by
  induction n with
  | zero => simp
  | succ n ih =>
    rw [Finset.sum_range_succ, pow_succ']
    have hs := ih fun i hi => h i (by omega)
    have hn : (g n + 1) * B ^ n ≤ B * B ^ n := Nat.mul_le_mul_right _ (h n (by omega))
    rw [Nat.add_mul, Nat.one_mul] at hn
    omega

/-- Each digit of a sum of digits. -/
theorem sum_digits_div_mod (h : ∀ i < n, g i < B) {j : Nat} (hj : j < n) :
    (∑ i ∈ range n, g i * B ^ i) / B ^ j % B = g j := by
  have pos : 0 < B ^ j := Nat.pow_pos (Nat.zero_lt_of_lt (h j hj))
  induction n with
  | zero => omega
  | succ n ih =>
    have h' : ∀ i < n, g i < B := fun i hi => h i (by omega)
    rw [Finset.sum_range_succ]
    by_cases hn : j = n
    · subst hn
      rw [Nat.add_mul_div_right _ _ pos, Nat.div_eq_of_lt (sum_digits_lt h'), Nat.zero_add, Nat.mod_eq_of_lt (h j hj)]
    · have hp : B ^ n = B * B ^ (n - j - 1) * B ^ j := by
        rw [← pow_succ', ← pow_add]; congr 1; omega
      rw [hp, ← Nat.mul_assoc, Nat.add_mul_div_right _ _ pos, Nat.mul_left_comm, Nat.add_mul_mod_self_left]
      exact ih h' (by omega)

/-- Each bit of a sum of bits. -/
theorem testBit_sum_bits {b : Nat → Bool} {j : Nat} (hj : j < n) :
    (∑ i ∈ range n, (b i).toNat * 2 ^ i).testBit j = b j := by
  rw [Nat.testBit_eq_decide_div_mod_eq, sum_digits_div_mod (fun i _ => Bool.toNat_lt (b i)) hj]
  cases b j <;> rfl

end

/-! ### Bits -/

theorem bitsOf_one (x i : Nat) : bitsOf x i 1 = (x.testBit i).toNat := (Nat.toNat_testBit x i).symm

/-- A pair holds its 64-bit value. -/
@[simp] theorem join_words64 (v : DWord) : ((words64 v).getD 1 0 ++ (words64 v).getD 0 0 : DWord) = v := by
  ext i hi
  simp only [words64, List.getD_cons_succ, List.getD_cons_zero, BitVec.getElem_append, BitVec.getElem_setWidth,
    BitVec.getLsbD_ushiftRight]
  split
  · exact BitVec.getLsbD_eq_getElem hi
  · rw [Nat.add_sub_cancel' (by omega)]; exact BitVec.getLsbD_eq_getElem hi

theorem getLsbD_low (n : Nat) {i : Nat} (h : i < 32) : ((BitVec.ofNat 64 n).setWidth 32).getLsbD i = n.testBit i := by
  rw [BitVec.getLsbD_setWidth, BitVec.getLsbD_ofNat]
  simp only [h, show i < 64 by omega, decide_true, Bool.true_and]

theorem toNat_rdRaw_false (x : Wave) (th : Thread) (a : Src) : (rdRaw false x th a).toNat = (rd32 x th a).toNat :=
  BitVec.toNat_setWidth_of_le (b := rd32 x th a) (show 32 ≤ 64 by decide)

/-- A bit of an integer's two's complement. -/
theorem getLsbD_ofInt (z : Int) {n i : Nat} (h : i < n) : (BitVec.ofInt n z).getLsbD i = decide (z / 2 ^ i % 2 = 1) := by
  have hp : (0 : Int) < 2 ^ n := by positivity
  obtain ⟨m, hm⟩ := Int.eq_ofNat_of_zero_le (Int.emod_nonneg z hp.ne')
  have hz : z = m + 2 ^ i * (2 * (2 ^ (n - i - 1) * (z / 2 ^ n))) := by
    have he : (2 : Int) ^ i * (2 * (2 ^ (n - i - 1) * (z / 2 ^ n))) = 2 ^ n * (z / 2 ^ n) := by
      rw [← mul_assoc 2, ← pow_succ', ← mul_assoc, ← pow_add]; congr 2; omega
    rw [he, ← hm]
    exact (Int.emod_add_mul_ediv z _).symm
  have hb : (BitVec.ofInt n z).toNat = m := by
    rw [BitVec.toNat_ofInt, Nat.cast_pow, Nat.cast_two, hm]; rfl
  rw [← BitVec.testBit_toNat, hb, Nat.testBit_eq_decide_div_mod_eq, decide_eq_decide]
  conv_rhs => rw [hz, Int.add_mul_ediv_left _ _ (by positivity), Int.add_mul_emod_self_left]
  norm_cast

/-! ### The field (R133) -/

theorem fieldLo_eq (w : Word) : bitsOf w.toNat 0 8 = fieldLo w := by
  rw [fieldLo, BitVec.extractLsb'_toNat, Nat.shiftRight_eq_div_pow]; rfl
theorem fieldLen_eq (w : Word) : bitsOf w.toNat 8 8 = fieldLen w := by
  rw [fieldLen, BitVec.extractLsb'_toNat, Nat.shiftRight_eq_div_pow]; rfl

/-- The signed value of `n` bits. -/
theorem sgn_eq_toInt (n x : Nat) : sgn n x = (BitVec.ofNat n x).toInt := by
  rw [BitVec.toInt_eq_toNat_cond, BitVec.toNat_ofNat]
  show (if 2 ^ n ≤ 2 * (x % 2 ^ n) then _ else _) = _
  rcases Nat.lt_or_ge (2 * (x % 2 ^ n)) (2 ^ n) with h | h
  · rw [if_neg (Nat.not_le.mpr h), if_pos h]
  · rw [if_pos h, if_neg (Nat.not_lt.mpr h)]

theorem ofNat_wrapN (n : Nat) (z : Int) : BitVec.ofNat n (wrapN n z) = BitVec.ofInt n z := by
  apply BitVec.eq_of_toNat_eq
  rw [BitVec.toNat_ofNat, BitVec.toNat_ofInt, wrapN]
  have := Int.emod_lt_of_pos z (show (0 : Int) < ((2 ^ n : Nat) : Int) by positivity)
  exact Nat.mod_eq_of_lt (by omega)

theorem extractField_unsigned {ty : ITy} (ht : ty = .n32 ∨ ty = .n64) (a : Nat) (w : Word) :
    extractField ty a w = (a / 2 ^ fieldLo w % 2 ^ fieldLen w : Nat) := by
  have key : wrapN (fieldLen w) ((a : Int) / ((2 ^ fieldLo w : Nat) : Int)) = a / 2 ^ fieldLo w % 2 ^ fieldLen w := by
    rw [wrapN]; norm_cast
  simp only [extractField, fieldLo_eq, fieldLen_eq, key]
  rcases ht with rfl | rfl <;> rfl

/-- A field extended by sign: beyond its length each bit is its highest. -/
theorem extractField_signed {ty : ITy} (ht : ty = .i32 ∨ ty = .i64) (a : Int) (w : Word) {n i : Nat} (hi : i < n) :
    (BitVec.ofInt n (extractField ty a w)).getLsbD i = signedFieldBit a w i := by
  have he : extractField ty a w =
      if fieldLen w = 0 then 0 else (BitVec.ofInt (fieldLen w) (a / 2 ^ fieldLo w)).toInt := by
    simp only [extractField, fieldLo_eq, fieldLen_eq, sgn_eq_toInt, ofNat_wrapN, Nat.cast_pow, Nat.cast_two]
    rcases ht with rfl | rfl <;> rfl
  rw [he, signedFieldBit]
  by_cases h0 : fieldLen w = 0
  · simp [h0]
  · rw [if_neg h0, ← BitVec.signExtend, BitVec.getLsbD_signExtend, BitVec.msb_eq_getLsbD_last, bne_iff_ne.mpr h0,
      decide_eq_true hi, ← apply_ite (BitVec.getLsbD _)]
    have hm : (if i < fieldLen w then i else fieldLen w - 1) = min i (fieldLen w - 1) := by split <;> omega
    rw [hm, getLsbD_ofInt _ (by omega), Int.ediv_ediv_of_nonneg (by positivity), ← pow_add]

theorem testBit_insertField (a b : Nat) (w : Word) {n i : Nat} (hi : i < n) : (insertField n a b w).testBit i =
    if fieldLo w ≤ i ∧ i < fieldLo w + fieldLen w then b.testBit (i - fieldLo w) else a.testBit i := by
  have hs : insertField n a b w = ∑ i ∈ range n,
      (if fieldLo w ≤ i ∧ i < fieldLo w + fieldLen w then b.testBit (i - fieldLo w) else a.testBit i).toNat * 2 ^ i := by
    rw [insertField, fieldLo_eq, fieldLen_eq, foldl_add_eq_sum]
    simp only [bitsOf_one, apply_ite Bool.toNat]
  rw [hs]
  exact testBit_sum_bits hi

/-! ### BFX and BFI -/

section
variable (p : Pred) (d : Reg) (a b c : Src)

theorem bfx_givesSuch (ty : ITy) {n : Nat} {R : Wave → Thread → List Word → Prop}
    (h : ∀ x th, let ws := (outInt ty false (extractField ty (rdInt x th ty a) (rd32 x th b))).ws
      ws.length = n ∧ R x th ws) : GivesSuch (.bfx ty p d a b) p d n R :=
  aluStep_givesSuch (g := fun _ w t _ => outInt ty false (extractField ty (rdInt w t ty a) (rd32 w t b))) (fun _ => rfl)
    fun _ x _ th _ _ _ => h x th

theorem bfx_unsigned :
    GivesSuch (.bfx .n32 p d a b) p d 1 (fun x th ws => ws.map BitVec.toNat =
      [(rd32 x th a).toNat / 2 ^ fieldLo (rd32 x th b) % 2 ^ fieldLen (rd32 x th b) % 2 ^ 32]) ∧
    GivesSuch (.bfx .n64 p d a b) p d 2 (fun x th ws => (ws.getD 1 0 ++ ws.getD 0 0 : DWord).toNat =
      (rd64 x th a).toNat / 2 ^ fieldLo (rd32 x th b) % 2 ^ fieldLen (rd32 x th b) % 2 ^ 64) := by
  refine ⟨bfx_givesSuch p d a b .n32 fun x th => ⟨rfl, ?_⟩, bfx_givesSuch p d a b .n64 fun x th => ⟨rfl, ?_⟩⟩
  · rw [outInt_ws_32 _ (.inr rfl), rdInt, extractField_unsigned (.inl rfl), BitVec.ofInt_natCast, List.map_singleton,
      BitVec.toNat_ofNat]
  · rw [outInt_ws_64 _ (.inr rfl), join_words64, rdInt, extractField_unsigned (.inr rfl), BitVec.ofInt_natCast,
      BitVec.toNat_ofNat]

theorem bfx_signed :
    GivesSuch (.bfx .i32 p d a b) p d 1 (fun x th ws => ∀ i < 32, (ws.getD 0 0).getLsbD i =
      signedFieldBit (rd32 x th a).toInt (rd32 x th b) i) ∧
    GivesSuch (.bfx .i64 p d a b) p d 2 (fun x th ws => ∀ i < 64, (ws.getD 1 0 ++ ws.getD 0 0 : DWord).getLsbD i =
      signedFieldBit (rd64 x th a).toInt (rd32 x th b) i) := by
  refine ⟨bfx_givesSuch p d a b .i32 fun x th => ⟨rfl, fun i hi => ?_⟩,
    bfx_givesSuch p d a b .i64 fun x th => ⟨rfl, fun i hi => ?_⟩⟩
  · rw [outInt_ws_32 _ (.inl rfl)]
    exact extractField_signed (.inl rfl) _ _ hi
  · rw [outInt_ws_64 _ (.inl rfl), join_words64]
    exact extractField_signed (.inr rfl) _ _ hi

theorem bfi_givesSuch (w64 : Bool) {n : Nat} {R : Wave → Thread → List Word → Prop}
    (h : ∀ x th, let ws := wordsRaw w64 (BitVec.ofNat 64
        (insertField (if w64 then 64 else 32) (rdRaw w64 x th a).toNat (rdRaw w64 x th b).toNat (rd32 x th c)))
      ws.length = n ∧ R x th ws) : GivesSuch (.bfi w64 p d a b c) p d n R :=
  aluStep_givesSuch (g := fun _ w t _ => outRaw w64 (BitVec.ofNat 64
    (insertField (if w64 then 64 else 32) (rdRaw w64 w t a).toNat (rdRaw w64 w t b).toNat (rd32 w t c)))) (fun _ => rfl)
    fun _ x _ th _ _ _ => h x th

theorem bfi_inserts :
    GivesSuch (.bfi false p d a b c) p d 1 (fun x th ws => ∀ i < 32, (ws.getD 0 0).getLsbD i =
      if fieldLo (rd32 x th c) ≤ i ∧ i < fieldLo (rd32 x th c) + fieldLen (rd32 x th c)
      then (rd32 x th b).getLsbD (i - fieldLo (rd32 x th c)) else (rd32 x th a).getLsbD i) ∧
    GivesSuch (.bfi true p d a b c) p d 2 (fun x th ws => ∀ i < 64, (ws.getD 1 0 ++ ws.getD 0 0 : DWord).getLsbD i =
      if fieldLo (rd32 x th c) ≤ i ∧ i < fieldLo (rd32 x th c) + fieldLen (rd32 x th c)
      then (rd64 x th b).getLsbD (i - fieldLo (rd32 x th c)) else (rd64 x th a).getLsbD i) := by
  refine ⟨bfi_givesSuch p d a b c false fun x th => ⟨rfl, fun i hi => ?_⟩,
    bfi_givesSuch p d a b c true fun x th => ⟨rfl, fun i hi => ?_⟩⟩
  · rw [toNat_rdRaw_false, toNat_rdRaw_false]
    exact (getLsbD_low _ hi).trans (testBit_insertField _ _ _ hi)
  · rw [wordsRaw, if_pos rfl, join_words64, BitVec.getLsbD_ofNat, decide_eq_true hi, Bool.true_and]
    exact testBit_insertField _ _ _ hi

end

/-! ### The obligation -/

/-- Settles O3: a field is some bits of its operand's integer, read by division, and an insertion is a sum of bits. -/
theorem bitFields : Obligations.BitFields := by
  unfold Obligations.BitFields
  refine ⟨fun p d a b => ?_, fun p d a b c => bfi_inserts p d a b c⟩
  obtain ⟨n32, n64⟩ := bfx_unsigned p d a b
  obtain ⟨i32, i64⟩ := bfx_signed p d a b
  exact ⟨n32, i32, n64, i64⟩

end Sys2Proof.Machine
end

section
/-!
PROOFS. Bit counts, the order of bits and bytes, and ternary packing (R134, R135, R141): each result by its bits or digits.
-/
namespace Sys2Proof.Machine
open Finset (range)

/-! ### Parts of a number -/

theorem toNat_extract {n : Nat} (v : BitVec n) (lo len : Nat) : (v.extractLsb' lo len).toNat = bitsOf v.toNat lo len := by
  rw [BitVec.extractLsb'_toNat, Nat.shiftRight_eq_div_pow]; rfl

theorem ofNat_bitsOf {n : Nat} (v : BitVec n) (lo len : Nat) :
    BitVec.ofNat len (bitsOf v.toNat lo len) = v.extractLsb' lo len := by
  rw [← toNat_extract, BitVec.ofNat_toNat, BitVec.setWidth_eq]

theorem extract_ofNat {n lo len : Nat} (h : lo + len ≤ n) (x : Nat) :
    (BitVec.ofNat n x).extractLsb' lo len = BitVec.ofNat len (bitsOf x lo len) := by
  apply BitVec.eq_of_getLsbD_eq
  intro i hi
  rw [BitVec.getLsbD_extractLsb', BitVec.getLsbD_ofNat, BitVec.getLsbD_ofNat, bitsOf, Nat.testBit_mod_two_pow,
    Nat.testBit_div_two_pow, decide_eq_true hi, decide_eq_true (show lo + i < n by omega), Bool.true_and, Bool.true_and,
    Bool.true_and, Bool.true_and, Nat.add_comm]

theorem bitsOf_bitsOf (x : Nat) {lo n k m : Nat} (h : k + m ≤ n) : bitsOf (bitsOf x lo n) k m = bitsOf x (lo + k) m := by
  apply Nat.eq_of_testBit_eq
  intro i
  simp only [bitsOf, Nat.testBit_mod_two_pow, Nat.testBit_div_two_pow]
  by_cases hi : i < m
  · simp only [hi, show i + k < n by omega, decide_true, Bool.true_and]
    congr 1; omega
  · simp [hi]

theorem rdRaw_lt (w64 : Bool) (x : Wave) (th : Thread) (a : Src) : (rdRaw w64 x th a).toNat < 2 ^ width w64 := by
  cases w64
  · rw [toNat_rdRaw_false]; exact (rd32 x th a).isLt
  · exact (rdRaw true x th a).isLt

theorem width_lt (w64 : Bool) : width w64 < 2 ^ 32 := by cases w64 <;> decide

/-! ### Counts (R134) -/

theorem popN_eq (n x : Nat) : popN n x = ((List.range n).filter fun i => x.testBit i).length := by
  induction n with
  | zero => rfl
  | succ n ih =>
    rw [popN, List.range_succ, List.foldl_append, List.filter_append, List.length_append, ← ih, List.foldl_cons,
      List.foldl_nil, bitsOf_one, List.filter_cons]
    cases x.testBit n <;> rfl

theorem popN_le (n x : Nat) : popN n x ≤ n := by
  rw [popN_eq]
  exact (List.length_filter_le _ _).trans_eq List.length_range

/-- The bits above the highest one. -/
theorem clzN_spec {n x : Nat} (hx : x < 2 ^ n) : clzN n x ≤ n ∧ (∀ i, n ≤ i + clzN n x → x.testBit i = false) ∧
    (clzN n x < n → x.testBit (n - 1 - clzN n x) = true) := by
  rw [clzN]
  by_cases h0 : x = 0
  · subst h0
    rw [if_pos rfl]
    exact ⟨le_rfl, fun i _ => Nat.zero_testBit i, fun h => absurd h (lt_irrefl n)⟩
  · have hl : x.log2 < n := (Nat.log2_lt h0).mpr hx
    rw [if_neg h0]
    refine ⟨by omega, fun i hi => Nat.testBit_lt_two_pow ?_, fun _ => ?_⟩
    · exact Nat.lt_log2_self.trans_le (Nat.pow_le_pow_right (by decide) (by omega))
    · rw [show n - 1 - (n - 1 - x.log2) = x.log2 by omega]
      exact Nat.testBit_log2 h0

/-- The bits below the lowest one. -/
theorem ctzN_spec (n x : Nat) : ctzN n x ≤ n ∧ (∀ i < ctzN n x, x.testBit i = false) ∧
    (ctzN n x < n → x.testBit (ctzN n x) = true) := by
  have hb (i : Nat) : (bitsOf x i 1 == 1) = x.testBit i := by rw [bitsOf_one]; cases x.testBit i <;> rfl
  have he : ctzN n x = ((List.range n).find? fun i => x.testBit i).getD n := by simp only [ctzN, hb]
  rw [he]
  cases hf : (List.range n).find? fun i => x.testBit i with
  | none =>
    rw [List.find?_range_eq_none] at hf
    exact ⟨le_rfl, fun i hi => by simpa using hf i hi, fun h => absurd h (lt_irrefl n)⟩
  | some k =>
    obtain ⟨hk, hn, hlt⟩ := List.find?_range_eq_some.mp hf
    exact ⟨(List.mem_range.mp hn).le, fun i hi => by simpa using hlt i hi, fun _ => hk⟩

section
variable {i : Instr} {f : Nat → Nat → Nat} {w64 : Bool} {p : Pred} {d : Reg} {a : Src}

/-- A count at most the width stands in its register. -/
theorem countOp_givesSuch {R : Wave → Thread → List Word → Prop}
    (hi : ∀ s, exec i s = aluStep s p (some d) (countOp f w64 a))
    (hle : ∀ x th, f (width w64) (rdRaw w64 x th a).toNat ≤ width w64)
    (h : ∀ x th ws, ws.map BitVec.toNat = [f (width w64) (rdRaw w64 x th a).toNat] → R x th ws) :
    GivesSuch i p d 1 R :=
  aluStep_givesSuch hi fun _ x _ th _ _ _ => ⟨rfl, h x th _ (by
    show [(BitVec.ofNat 32 (f (width w64) (rdRaw w64 x th a).toNat)).toNat] = _
    rw [BitVec.toNat_ofNat, Nat.mod_eq_of_lt ((hle x th).trans_lt (width_lt w64))])⟩

end

theorem counts_giveSuch (w64 : Bool) (p : Pred) (d : Reg) (a : Src) :
    GivesSuch (.popc w64 p d a) p d 1 (fun x th ws => ws.map BitVec.toNat =
      [((List.range (width w64)).filter fun i => (rdRaw w64 x th a).getLsbD i).length]) ∧
    GivesSuch (.clz w64 p d a) p d 1 (fun x th ws => ∃ k, ws.map BitVec.toNat = [k] ∧ k ≤ width w64 ∧
      (∀ i < width w64, width w64 ≤ i + k → (rdRaw w64 x th a).getLsbD i = false) ∧
      (k < width w64 → (rdRaw w64 x th a).getLsbD (width w64 - 1 - k) = true)) ∧
    GivesSuch (.ctz w64 p d a) p d 1 (fun x th ws => ∃ k, ws.map BitVec.toNat = [k] ∧ k ≤ width w64 ∧
      (∀ i < k, (rdRaw w64 x th a).getLsbD i = false) ∧
      (k < width w64 → (rdRaw w64 x th a).getLsbD k = true)) := by
  refine ⟨countOp_givesSuch (fun _ => rfl) (fun _ _ => popN_le _ _) fun x th ws h => h.trans (by rw [popN_eq]; rfl),
    countOp_givesSuch (fun _ => rfl) (fun x th => (clzN_spec (rdRaw_lt w64 x th a)).1) fun x th ws h => ?_,
    countOp_givesSuch (fun _ => rfl) (fun _ _ => (ctzN_spec _ _).1) fun x th ws h => ⟨_, h, ctzN_spec _ _⟩⟩
  obtain ⟨hle, hz, ho⟩ := clzN_spec (rdRaw_lt w64 x th a)
  exact ⟨_, h, hle, fun i _ => hz i, ho⟩

/-! ### BREV (R134) -/

theorem testBit_revN (x : Nat) {n i : Nat} (hi : i < n) : (revN n x).testBit i = x.testBit (n - 1 - i) := by
  have hs : revN n x = ∑ j ∈ range n, (x.testBit (n - 1 - j)).toNat * 2 ^ j := by
    rw [revN, foldl_add_eq_sum, ← Finset.sum_range_reflect]
    refine Finset.sum_congr rfl fun j hj => ?_
    have hj' := Finset.mem_range.mp hj
    rw [bitsOf_one, show n - 1 - (n - 1 - j) = j by omega]
  rw [hs]
  exact testBit_sum_bits hi

theorem ofNat_revN {n : Nat} (v : BitVec n) : BitVec.ofNat n (revN n v.toNat) = v.reverse := by
  apply BitVec.eq_of_getLsbD_eq
  intro i hi
  rw [BitVec.getLsbD_ofNat, BitVec.getLsbD_reverse, testBit_revN _ hi, BitVec.getMsbD, decide_eq_true hi]
  rfl

theorem brev_gives (p : Pred) (d : Reg) (a : Src) :
    Gives (.brev false p d a) p d (fun x th => [(rd32 x th a).reverse]) ∧
    Gives (.brev true p d a) p d (fun x th => words64 (rd64 x th a).reverse) := by
  constructor
  · refine aluStep_gives (g := fun _ w t _ => outRaw false (BitVec.ofNat 64 (revN 32 (rdRaw false w t a).toNat)))
      (fun _ => rfl) fun _ x _ th _ _ _ => ?_
    show [(BitVec.ofNat 64 (revN 32 (rdRaw false x th a).toNat)).setWidth 32] = _
    rw [toNat_rdRaw_false, BitVec.setWidth_ofNat_of_le (by decide), ofNat_revN]
  · exact aluStep_gives (g := fun _ w t _ => outRaw true (BitVec.ofNat 64 (revN 64 (rdRaw true w t a).toNat)))
      (fun _ => rfl) fun _ x _ th _ _ _ => congrArg words64 (ofNat_revN (rd64 x th a))

/-! ### PERMB (R135) -/

/-- Byte `i` of four, the last first. -/
theorem extract_four (f : Nat → Byte) {i : Nat} (hi : i < 4) :
    (f 3 ++ f 2 ++ f 1 ++ f 0 : Word).extractLsb' (8 * i) 8 = f i := by
  ext j hj
  rw [BitVec.getElem_extractLsb', ← BitVec.getLsbD_eq_getElem]
  simp only [BitVec.getLsbD_append]
  interval_cases i
  · rw [if_pos (by omega), Nat.mul_zero, Nat.zero_add]
  · rw [if_neg (by omega), if_pos (by omega)]; congr 1; omega
  · rw [if_neg (by omega), if_neg (by omega), if_pos (by omega)]; congr 1; omega
  · rw [if_neg (by omega), if_neg (by omega), if_neg (by omega)]; congr 1; omega

/-- The source byte of a nibble, or its sign. -/
theorem permByte_eq (a b c : Word) (i : Nat) : permByte a b c i =
    let n := c.extractLsb' (4 * i) 4
    let y : Byte := (b ++ a : DWord).extractLsb' (8 * (n.extractLsb' 0 3).toNat) 8
    if n.getLsbD 3 then (if y.getLsbD 7 then 0xFF else 0) else y := by
  have hv : a.toNat + 2 ^ 32 * b.toNat = (b ++ a : DWord).toNat := by
    rw [BitVec.toNat_append, ← Nat.shiftLeft_add_eq_or_of_lt a.isLt, Nat.shiftLeft_eq]; omega
  have hn (n : BitVec 4) : n.toNat % 8 = (n.extractLsb' 0 3).toNat := by
    rw [toNat_extract]; exact (bitsOf_zero _ (k := 3) (m := 8) rfl).symm
  have h3 (n : BitVec 4) : n.getLsbD 3 = decide (¬ n.toNat < 8) := by revert n; decide
  simp only [permByte, hv, ofNat_bitsOf, ← toNat_extract c, hn, h3, decide_eq_true_eq, ite_not]

theorem permb_givesSuch (p : Pred) (d : Reg) (a b c : Src) :
    GivesSuch (.permb p d a b c) p d 1 (fun x th ws => ∀ i < 4,
      (ws.getD 0 0).extractLsb' (8 * i) 8 =
        let n := (rd32 x th c).extractLsb' (4 * i) 4
        let y : Byte := (rd32 x th b ++ rd32 x th a : DWord).extractLsb' (8 * (n.extractLsb' 0 3).toNat) 8
        if n.getLsbD 3 then (if y.getLsbD 7 then 0xFF else 0) else y) :=
  aluStep_givesSuch (g := fun _ w t _ =>
      out32 (permByte (rd32 w t a) (rd32 w t b) (rd32 w t c) 3 ++ permByte (rd32 w t a) (rd32 w t b) (rd32 w t c) 2 ++
        permByte (rd32 w t a) (rd32 w t b) (rd32 w t c) 1 ++ permByte (rd32 w t a) (rd32 w t b) (rd32 w t c) 0))
    (fun _ => rfl) fun _ _ _ _ _ _ _ => ⟨rfl, fun i hi => (extract_four _ hi).trans (permByte_eq _ _ _ i)⟩

/-! ### T3PK (R141) -/

/-- A byte of a number made of bytes. -/
theorem bitsOf_leNat (bs : List Byte) (i : Nat) : bitsOf (leNat bs) (8 * i) 8 = (bs.getD i 0).toNat := by
  induction bs generalizing i with
  | nil => simp [leNat, bitsOf]
  | cons b bs ih =>
    have hb := b.isLt
    cases i with
    | zero => rw [Nat.mul_zero, bitsOf_zero _ rfl, leNat, List.getD_cons_zero]; omega
    | succ i =>
      rw [List.getD_cons_succ, ← ih, leNat, bitsOf, bitsOf, Nat.mul_succ, Nat.add_comm (8 * i), Nat.pow_add,
        ← Nat.div_div_eq_div_mul]
      congr 2; omega

theorem ternOf_eq (v : DWord) (j : Nat) : ternDigit (bitsOf v.toNat (2 * j) 2) = ternOf v j := by
  have key (c : BitVec 2) : ternDigit c.toNat = if c = 1#2 then 1 else if c = 3#2 then 2 else 0 := by revert c; decide
  rw [← toNat_extract, key]; rfl

theorem packFive_eq (v : DWord) (i : Nat) : packFive (bitsOf v.toNat (10 * i) 10) =
    ternOf v (5 * i) + 3 * ternOf v (5 * i + 1) + 9 * ternOf v (5 * i + 2) + 27 * ternOf v (5 * i + 3) +
      81 * ternOf v (5 * i + 4) := by
  have hd (m : Nat) (hm : m < 5) : ternDigit (bitsOf (bitsOf v.toNat (10 * i) 10) (2 * m) 2) = ternOf v (5 * i + m) := by
    rw [bitsOf_bitsOf _ (by omega), ← ternOf_eq]; congr 2; omega
  rw [packFive, foldl_add_eq_sum]
  simp only [Finset.sum_range_succ, Finset.sum_range_zero, hd 0 (by decide), hd 1 (by decide), hd 2 (by decide),
    hd 3 (by decide), hd 4 (by decide), Nat.add_zero]
  omega

theorem ternOf_le (v : DWord) (j : Nat) : ternOf v j ≤ 2 := by
  rw [ternOf]; split
  · decide
  · split <;> decide

theorem t3pk_givesSuch (p : Pred) (d : Reg) (a : Src) : GivesSuch (.t3pk p d a) p d 1 (fun x th ws => ∀ i < 4,
    ((ws.getD 0 0).extractLsb' (8 * i) 8).toNat =
      ternOf (rd64 x th a) (5 * i) + 3 * ternOf (rd64 x th a) (5 * i + 1) + 9 * ternOf (rd64 x th a) (5 * i + 2) +
      27 * ternOf (rd64 x th a) (5 * i + 3) + 81 * ternOf (rd64 x th a) (5 * i + 4)) := by
  refine aluStep_givesSuch (g := fun _ w t _ => out32 (BitVec.ofNat 32 (leNat ((List.range 4).map fun i =>
    BitVec.ofNat 8 (packFive (bitsOf (rd64 w t a).toNat (10 * i) 10)))))) (fun _ => rfl)
    fun _ x _ th _ _ _ => ⟨rfl, fun i hi => ?_⟩
  show ((BitVec.ofNat 32 _).extractLsb' (8 * i) 8).toNat = _
  rw [extract_ofNat (by omega), bitsOf_leNat, BitVec.ofNat_toNat, BitVec.setWidth_eq, List.getD_eq_getElem _ _ (by simpa using hi),
    List.getElem_map, List.getElem_range, BitVec.toNat_ofNat, packFive_eq]
  have h0 := ternOf_le (rd64 x th a) (5 * i)
  have h1 := ternOf_le (rd64 x th a) (5 * i + 1)
  have h2 := ternOf_le (rd64 x th a) (5 * i + 2)
  have h3 := ternOf_le (rd64 x th a) (5 * i + 3)
  have h4 := ternOf_le (rd64 x th a) (5 * i + 4)
  exact Nat.mod_eq_of_lt (by omega)

/-! ### T3UN (R141) -/

theorem ternCode_lt (n : Nat) : ternCode n < 4 := by
  unfold ternCode
  split <;> decide

/-- The codes of a byte of five digits. -/
theorem bitsOf_unpackFive (v : Nat) {m : Nat} (hm : m < 5) :
    bitsOf (unpackFive v) (2 * m) 2 = if 243 ≤ v then 0 else ternCode (v / 3 ^ m % 3) := by
  rw [unpackFive, foldl_add_eq_sum]
  split
  · simp [bitsOf]
  · rw [bitsOf, Nat.pow_mul]
    exact sum_digits_div_mod (B := 4) (g := fun m => ternCode (v / 3 ^ m % 3)) (fun i _ => ternCode_lt _) hm

theorem unpackFive_lt (v : Nat) : unpackFive v < 2 ^ 10 := by
  rw [unpackFive, foldl_add_eq_sum]
  split
  · decide
  · exact sum_digits_lt (B := 4) (g := fun m => ternCode (v / 3 ^ m % 3)) fun i _ => ternCode_lt _

/-- The number of T3UN's codes, ten bits to a byte. -/
def unpacked (w : Word) : Nat := ∑ i ∈ range 4, unpackFive (bitsOf w.toNat (8 * i) 8) * (2 ^ 10) ^ i

theorem unpacked_lt (w : Word) : unpacked w < 2 ^ 40 :=
  sum_digits_lt (B := 2 ^ 10) (g := fun i => unpackFive (bitsOf w.toNat (8 * i) 8)) fun _ _ => unpackFive_lt _

theorem bitsOf_unpacked (w : Word) {i : Nat} (hi : i < 4) :
    bitsOf (unpacked w) (10 * i) 10 = unpackFive (bitsOf w.toNat (8 * i) 8) := by
  rw [bitsOf, Nat.pow_mul]
  exact sum_digits_div_mod (B := 2 ^ 10) (g := fun i => unpackFive (bitsOf w.toNat (8 * i) 8)) (fun _ _ => unpackFive_lt _) hi

theorem exec_t3un (q : CBit) (p : Pred) (d : Reg) (a : Src) (s : State) : exec (.t3un q p d a) s =
    aluStep s p (some d) fun w t _ =>
      { ws := words64 (BitVec.ofNat 64 (unpacked (rd32 w t a)))
        ks := [(q, (List.range 4).any fun i => decide (243 ≤ ((rd32 w t a).extractLsb' (8 * i) 8).toNat))] } := by
  have hx (v : Word) : ((List.range 4).zip ((List.range 4).map fun i => bitsOf v.toNat (8 * i) 8)).foldl
      (fun r p => r + unpackFive p.2 * 2 ^ (10 * p.1)) 0 = unpacked v := by
    have hz : (List.range 4).zip ((List.range 4).map fun i => bitsOf v.toNat (8 * i) 8) =
      (List.range 4).map fun i => (i, bitsOf v.toNat (8 * i) 8) := rfl
    rw [hz, List.foldl_map, foldl_add_eq_sum]
    simp only [unpacked, Nat.pow_mul]
  have hb (v : Word) : ((List.range 4).map fun i => bitsOf v.toNat (8 * i) 8).any (fun b => decide (243 ≤ b)) =
      (List.range 4).any fun i => decide (243 ≤ (v.extractLsb' (8 * i) 8).toNat) := by
    simp only [List.any_map, toNat_extract]; rfl
  show aluStep s p (some d) _ = _
  congr 1
  funext w t _
  rw [← hx, ← hb]

theorem t3un_givesSuch (q : CBit) (p : Pred) (d : Reg) (a : Src) : GivesSuch (.t3un q p d a) p d 2 (fun x th ws =>
    let z : DWord := ws.getD 1 0 ++ ws.getD 0 0
    z.extractLsb' 40 24 = 0 ∧
    ∀ i < 4, ∀ m < 5,
      let v := ((rd32 x th a).extractLsb' (8 * i) 8).toNat
      z.extractLsb' (2 * (5 * i + m)) 2 =
        if 243 ≤ v then 0#2 else if v / 3 ^ m % 3 = 0 then 0#2 else if v / 3 ^ m % 3 = 1 then 1#2 else 3#2) := by
  refine aluStep_givesSuch (exec_t3un q p d a) fun _ x _ th _ _ _ => ⟨rfl, ?_, fun i hi m hm => ?_⟩
  · rw [join_words64, extract_ofNat (by decide), bitsOf, Nat.div_eq_of_lt (unpacked_lt _)]; rfl
  · have hcode (k : Nat) (hk : k < 3) : BitVec.ofNat 2 (ternCode k) =
        if k = 0 then 0#2 else if k = 1 then 1#2 else 3#2 := by revert k; decide
    dsimp only
    rw [join_words64, extract_ofNat (by omega), show 2 * (5 * i + m) = 10 * i + 2 * m by omega,
      ← bitsOf_bitsOf (n := 10) _ (by omega), bitsOf_unpacked _ hi, bitsOf_unpackFive _ hm, toNat_extract,
      apply_ite (BitVec.ofNat 2), hcode _ (Nat.mod_lt _ (by decide))]

/-- A condition bit that an instruction writes beside its words. -/
theorem aluStep_givesStatus {i : Instr} {p : Pred} {c : CBit} {d : Option Reg} {f : Wave → Thread → Bool}
    {g : State → Wave → Thread → Nat → LaneOut} (hi : ∀ s, exec i s = aluStep s p d (g s))
    (hf : ∀ s x y t l, Issues s x y → NMap.find? x.threads l = some t → (g s x t l).ks = [(c, f x t)]) :
    GivesBit i p c f := by
  intro s x y l t h hl ht hp
  refine ⟨_, hi s, alu_passed h p _ _, ?_⟩
  unfold cbit
  rw [(alu_thread h p _ _ hl ht hp).2]
  unfold outThread
  rw [hf s x y t l h ht, List.foldl_cons, List.foldl_nil]
  exact cbit_setCbit _ c _

/-! ### The obligation -/

/-- Settles O4: a count is a number of bits tested one by one, a reversal and an unpacking are sums of digits, and each byte
of PERMB and T3PK stands at its place. -/
theorem bitCountsAndPacking : Obligations.BitCountsAndPacking := by
  unfold Obligations.BitCountsAndPacking
  exact ⟨⟨counts_giveSuch, brev_gives, permb_givesSuch⟩, t3pk_givesSuch, t3un_givesSuch,
    fun q p d a => aluStep_givesStatus (exec_t3un q p d a) fun _ _ _ _ _ _ _ => rfl⟩

end Sys2Proof.Machine
end

section
/-!
PROOFS. Compare, select, moves and condition bits (R136 to R140): each result as the rules name it, and the bits of a lane
mask.
-/
namespace Sys2Proof.Machine

/-! ### Compare, select, move (R136 to R138) -/

theorem icmp_givesBit (t : ITy) (rel : IRel) (p : Pred) (c : CBit) (a : Src) (b : Opb) :
    GivesBit (.icmp t rel p c a b) p c fun x th => IRel.holds rel (rdInt x th t a) (rdOpbInt x th t b) :=
  aluStep_givesBit (g := fun _ w th _ => outC c (IRel.holds rel (rdInt w th t a) (rdOpbInt w th t b))) (fun _ => rfl)
    fun _ _ _ _ _ _ _ => rfl

theorem sel_gives (q : CBit) (p : Pred) (d : Reg) (a b : Src) :
    Gives (.sel false q p d a b) p d (fun x th => [if cbit th q then rd32 x th a else rd32 x th b]) ∧
    Gives (.sel true q p d a b) p d (fun x th => words64 (if cbit th q then rd64 x th a else rd64 x th b)) := by
  constructor
  · refine aluStep_gives (g := fun _ w t _ => outRaw false (if cbit t q then rdRaw false w t a else rdRaw false w t b))
      (fun _ => rfl) fun _ x _ th _ _ _ => ?_
    show [(if cbit th q then rdRaw false x th a else rdRaw false x th b).setWidth 32] = _
    rw [apply_ite (BitVec.setWidth 32), setWidth_rdRaw_false, setWidth_rdRaw_false]
  · exact aluStep_gives (g := fun _ w t _ => outRaw true (if cbit t q then rdRaw true w t a else rdRaw true w t b))
      (fun _ => rfl) fun _ _ _ _ _ _ _ => rfl

/-- What MOV gives, by its width. -/
def movOut (k : MovW) (a : Src) (w : Wave) (t : Thread) : LaneOut :=
  match k with
  | .b32 => out32 (rd32 w t a)
  | .b64 => out64 (rd64 w t a)
  | .b128 => { ws := [rdQuad w t a 0, rdQuad w t a 1, rdQuad w t a 2, rdQuad w t a 3] }

theorem mov_gives (k : MovW) (p : Pred) (d : Reg) (a : Src) :
    Gives (.mov k p d a) p d fun x th => (movOut k a x th).ws :=
  aluStep_gives (g := fun _ w t _ => movOut k a w t) (fun _ => by cases k <;> rfl) fun _ _ _ _ _ _ _ => rfl

theorem words64_setWidth (v : Word) : words64 (v.setWidth 64) = [v, 0] := by
  have hi : ((v.setWidth 64 : DWord) >>> 32).setWidth 32 = (0 : Word) := by
    apply BitVec.eq_of_toNat_eq
    rw [BitVec.toNat_setWidth, BitVec.toNat_ushiftRight, BitVec.toNat_setWidth_of_le (by decide), Nat.shiftRight_eq_div_pow,
      Nat.div_eq_of_lt v.isLt]
    rfl
  rw [words64, low_setWidth, hi]

theorem movi_gives (d : Reg) (n : Word) :
    Gives (.movi false d n) .always d (fun _ _ => [n]) ∧ Gives (.movi true d n) .always d (fun _ _ => [n, 0]) :=
  ⟨aluStep_gives (g := fun _ _ _ _ => outRaw false (n.setWidth 64)) (fun _ => rfl)
      fun _ _ _ _ _ _ _ => congrArg (fun w => [w]) (low_setWidth n),
    aluStep_gives (g := fun _ _ _ _ => outRaw true (n.setWidth 64)) (fun _ => rfl) fun _ _ _ _ _ _ _ => words64_setWidth n⟩

theorem movw_gives (d : Reg) (a : Src) (n : Word) : Gives (.movw d a n) .always d fun x th => [rd32 x th a, n] :=
  aluStep_gives (g := fun _ w t _ => { ws := [rd32 w t a, n] }) (fun _ => rfl) fun _ _ _ _ _ _ _ => rfl

/-! ### Condition bits (R139, R140) -/

theorem clog_givesBit (tab : Fin 16) (p : Pred) (c a b : CBit) : GivesBit (.clog tab p c a b) p c fun _ th =>
    (BitVec.ofNat 16 tab.val).getLsbD ((if cbit th a then 2 else 0) + (if cbit th b then 1 else 0)) := by
  refine aluStep_givesBit (g := fun _ _ t _ =>
    outC c (bitsOf tab.val (2 * (if cbit t a then 1 else 0) + (if cbit t b then 1 else 0)) 1 == 1)) (fun _ => rfl)
    fun _ _ _ th _ _ _ => congrArg (outC c) ?_
  have hb (i : Nat) (hi : i < 16) : (bitsOf tab.val i 1 == 1) = (BitVec.ofNat 16 tab.val).getLsbD i := by
    rw [bitsOf_one, BitVec.getLsbD_ofNat, decide_eq_true hi, Bool.true_and]
    cases tab.val.testBit i <;> rfl
  cases cbit th a <;> cases cbit th b <;> exact hb _ (by decide)

theorem getLsbD_laneMask (ls : List Nat) {m : Nat} (hm : m < 64) : (laneMask ls).getLsbD m = decide (m ∈ ls) := by
  have key (v : DWord) : (ls.foldl (fun m l => m ||| 1#64 <<< l) v).getLsbD m = (v.getLsbD m || decide (m ∈ ls)) := by
    induction ls generalizing v with
    | nil => simp
    | cons l ls ih =>
      rw [List.foldl_cons, ih, BitVec.getLsbD_or, BitVec.getLsbD_shiftLeft, BitVec.getLsbD_one, decide_eq_true hm,
        Bool.or_assoc]
      congr 1
      rcases Nat.lt_trichotomy m l with h | h | h
      · simp [h, h.ne]
      · simp [h]
      · simp [show ¬ m < l by omega, show m - l ≠ 0 by omega, h.ne']
  rw [laneMask, key]
  simp

section
variable {s : State} {x : Wave} {y : Group} {l : Nat} {t : Thread}

/-- A bit for each lane of the group whose condition bit is 1, members whose predicate is false included. -/
theorem ctov_mask (q : CBit) (p : Pred) (d : Reg) (h : Issues s x y) (hl : l ∈ y.lanes) (ht : NMap.find? x.threads l = some t)
    (hp : performs p t = true) (hd : (∃ k, d = .v k) ∨ (performers x y p).head? = some l) :
    ∃ s', exec (.ctov false q p d) s = .next s' ∧ Passed s s' y ∧
      ∀ m < 64, ((regsOf (after s s') l d 2).getD 1 0 ++ (regsOf (after s s') l d 2).getD 0 0 : DWord).getLsbD m =
        (decide (m ∈ y.lanes) && cbit (thread x m) q) := by
  have hr := alu_regs h p d
    (fun w _ _ => out64 (laneMask ((group w s.dev.cur.2).lanes.filter fun l => cbit (thread w l) q))) hl ht hp hd
  refine ⟨_, rfl, alu_passed h p _ _, fun m hm => ?_⟩
  refine (congrArg (fun ws : List Word => (ws.getD 1 0 ++ ws.getD 0 0 : DWord).getLsbD m) hr).trans ?_
  show ((words64 _).getD 1 0 ++ (words64 _).getD 0 0 : DWord).getLsbD m = _
  rw [join_words64, getLsbD_laneMask _ hm, group_of_find h.group]
  simp only [List.mem_filter, Bool.decide_and, Bool.decide_eq_true]

theorem vtoc_bit (p : Pred) (c : CBit) (a : Src) (h : Issues s x y) (hl : l ∈ y.lanes)
    (ht : NMap.find? x.threads l = some t) (hp : performs p t = true) :
    (∃ s', exec (.vtoc false p c a) s = .next s' ∧ Passed s s' y ∧
      cbit (thread (after s s') l) c = (rd64 x t a).getLsbD l) ∧
    (∃ s', exec (.vtoc true p c a) s = .next s' ∧ Passed s s' y ∧ (thread (after s s') l).c = t.c) := by
  refine ⟨⟨_, rfl, alu_passed h p _ _, ?_⟩, ⟨_, rfl, alu_passed h p _ _, (alu_thread h p _ _ hl ht hp).2⟩⟩
  rw [cbit, (alu_thread h p _ _ hl ht hp).2]
  exact cbit_setCbit t c _

end

/-! ### The obligation -/

/-- Settles O5: every clause but CTOV's and VTOC's is what its members compute; CTOV reads the whole group, VTOC the lane. -/
theorem compareSelectMove : Obligations.CompareSelectMove := by
  unfold Obligations.CompareSelectMove
  refine ⟨⟨fun t rel p c a b => ?compare, sel_gives,
      fun p d a => ⟨mov_gives .b32 p d a, mov_gives .b64 p d a, mov_gives .b128 p d a⟩, movi_gives, movw_gives⟩,
    clog_givesBit, fun q p d s x y l t h hl ht hp _ hd => ctov_mask q p d h hl ht hp hd,
    fun q p d => ?upper, fun p c a s x y l t h hl ht hp => vtoc_bit p c a h hl ht hp⟩
  case compare => cases rel <;> exact icmp_givesBit t _ p c a b
  case upper =>
    exact aluStep_gives (g := fun _ _ _ _ => out64 0) (fun _ => rfl) fun _ _ _ _ _ _ _ => rfl

end Sys2Proof.Machine
end

section
/-!
PROOFS. Control transfers (R153 to R155, R158): a group whose members all leave it for the next clause or for a target, and
the link of a call.
-/
namespace Sys2Proof.Machine

variable {s s' : State} {x z : Wave} {y : Group} {g l : Nat}

/-! ### Leaving a group (R95, R153) -/

/-- The members of a group that leaves stand where they were sent. -/
theorem left_of_leaveGroup {tgt : Nat → DWord} (ha : after s s' = leaveGroup z s.dev.cur.2 tgt)
    (hg : NMap.find? z.groups s.dev.cur.2 = some y) (nd : y.lanes.Nodup)
    (hh : ∀ l ∈ y.lanes, (NMap.find? z.threads l).isSome) : Left s s' y tgt := by
  rw [Left, ha]
  refine ⟨by rw [leaveGroup_frame]; exact NMap.find?_erase_self .., fun l hl => ?_⟩
  obtain ⟨t, ht⟩ := Option.isSome_iff_exists.mp (hh l hl)
  have hf := find_leaveGroup tgt hg nd l
  rw [if_pos hl, ht] at hf
  rw [thread_of_find hf]
  exact ⟨rfl, rfl⟩

/-- Where a transfer sends each member. -/
theorem transferStep_left (h : Issues s x y) {i : Instr} (p : Pred) {tgt : Wave → Group → Thread → Nat → DWord}
    (hi : exec i s = transferStep s p tgt) : ∃ s', exec i s = .next s' ∧
      Left s s' y fun l => if performs p (thread x l) then tgt x y (thread x l) l else nextClause y := by
  refine ⟨_, hi, left_of_leaveGroup (z := x) ?_ h.group h.nodup h.here⟩
  rw [after_modWave _ h.wave, transfer, group_of_find h.group]

/-! ### The link (R155) -/

/-- A wave with the same s registers, and a thread with the same v registers, reads the same. -/
theorem regsOf_congr (hs : z.s = x.s) (hv : (thread z l).v = (thread x l).v) (d : Reg) (n : Nat) :
    regsOf z l d n = regsOf x l d n := by
  have h (i : Nat) : rdReg z (thread z l) d i = rdReg x (thread x l) d i := by cases d <;> simp only [rdReg, hs, hv]
  simp only [regsOf, h]

theorem regsOf_leaveGroup (tgt : Nat → DWord) (hg : NMap.find? z.groups g = some y) (nd : y.lanes.Nodup)
    (d : Reg) (n : Nat) : regsOf (leaveGroup z g tgt) l d n = regsOf z l d n := by
  refine regsOf_congr (by rw [leaveGroup_frame]) ?_ d n
  have hf := find_leaveGroup tgt hg nd l
  rw [thread, NMap.get, hf, thread, NMap.get]
  split
  · cases NMap.find? z.threads l <;> rfl
  · rfl

/-- A performing member's destination holds its words; an s destination, the lowest performing member's (R108). -/
theorem regsOf_compute (hg : NMap.find? x.groups g = some y) (nd : y.lanes.Nodup) {p : Pred} (d : Reg)
    (f : Wave → Thread → Nat → LaneOut) (hl : l ∈ performers x y p) (hh : (NMap.find? x.threads l).isSome)
    (hd : (∃ k, d = .v k) ∨ (performers x y p).head? = some l) :
    regsOf (compute x g p (some d) f) l d (f x (thread x l) l).ws.length = (f x (thread x l) l).ws := by
  apply regsOf_of_words
  intro i hi
  obtain ⟨t, ht⟩ := Option.isSome_iff_exists.mp hh
  have hf := find_compute p (some d) f hg nd l
  rw [if_pos hl, ht] at hf
  rw [thread_of_find hf]
  rcases d with n | n
  · show NMap.get 0 (outThread _ _ t).v (n.val + i) = _
    rw [outThread_v_v, get_putWords]
    simp [hi]
  · have hh : (performers x y p).head? = some l := by simpa using hd
    show NMap.get 0 (compute x g p _ f).s (n.val + i) = _
    rw [s_compute p _ f hg nd, hh]
    show NMap.get 0 (putWords x.s n.val (f x (thread x l) l).ws) (n.val + i) = _
    rw [get_putWords]
    simp [hi]

/-- The wave once its group has made a call. -/
def called (g : Nat) (p : Pred) (d : Reg) (tgt : Wave → Group → Thread → Nat → DWord) (x : Wave) : Wave :=
  leaveGroup (compute x g p (some d) fun _ _ _ => out64 (nextClause (group x g))) g fun l =>
    if performs p (thread x l) then tgt x (group x g) (thread x l) l else nextClause (group x g)

theorem callStep_eq (s : State) (p : Pred) (d : Reg) (tgt : Wave → Group → Thread → Nat → DWord) :
    callStep s p d tgt = .next { s with dev := modWave s.dev s.dev.cur.1 (called s.dev.cur.2 p d tgt) } := rfl

/-- A call sends each member on, and leaves the next clause's address in the link of those that perform it. -/
theorem callStep_left (h : Issues s x y) {i : Instr} {p : Pred} {d : Reg} {tgt : Wave → Group → Thread → Nat → DWord}
    (hi : exec i s = callStep s p d tgt) : ∃ s', exec i s = .next s' ∧
      (Left s s' y fun l => if performs p (thread x l) then tgt x y (thread x l) l else nextClause y) ∧
      ∀ l ∈ performers x y p, ((∃ k, d = .v k) ∨ (performers x y p).head? = some l) →
        regsOf (after s s') l d 2 = words64 (nextClause y) := by
  have hg := h.group' p (some d) fun _ _ _ => out64 (nextClause y)
  have ha := after_modWave (called s.dev.cur.2 p d tgt) h.wave
  rw [called, group_of_find h.group] at ha
  refine ⟨_, hi.trans (callStep_eq s p d tgt), left_of_leaveGroup ha hg h.nodup fun l hl => ?_, fun l hl hd => ?_⟩
  · rw [find_compute p _ _ h.group h.nodup]
    split <;> simp [h.here l hl]
  · rw [ha, regsOf_leaveGroup _ hg h.nodup]
    exact regsOf_compute h.group h.nodup d _ hl (h.here l (List.mem_of_mem_filter hl)) hd

/-! ### The obligation -/

/-- The target of BRA, BRC and CALL. -/
def toClause (off : Word) (_ : Wave) (y : Group) (_ : Thread) (_ : Nat) : DWord := branchTarget y off
/-- The target of JMPI, RET and CALLI. -/
def toReg (a : Src) (x : Wave) (_ : Group) (t : Thread) (_ : Nat) : DWord := regTarget x t a

/-- Settles O17: every transfer is a group that leaves for where its members' predicates and registers say. -/
theorem controlTransfers : Obligations.ControlTransfers := by
  unfold Obligations.ControlTransfers
  intro s x y h target
  refine ⟨fun off => transferStep_left h .always (tgt := toClause off) rfl,
    fun c sense off => transferStep_left h (.on sense c) (tgt := toClause off) rfl,
    fun p a => ⟨transferStep_left h p (tgt := toReg a) rfl, transferStep_left h p (tgt := toReg a) rfl⟩,
    fun d off => ?call, fun p d a => callStep_left h (tgt := toReg a) rfl, fun p => ⟨_, rfl, alu_passed h p none _⟩⟩
  case call =>
    obtain ⟨s', he, hleft, hlink⟩ := callStep_left h (i := .call d off) (tgt := toClause off) rfl
    have hp : performers x y .always = y.lanes := List.filter_eq_self.mpr fun _ _ => rfl
    rw [hp] at hlink
    exact ⟨s', he, hleft, hlink⟩

end Sys2Proof.Machine
end

section
/-!
PROOFS. Gatherings of one thread (R142 to R152, R156): its arrival completes the gathering, whose values are its own alone.
-/
namespace Sys2Proof.Machine

variable {s : State} {x : Wave} {y : Group} {l : Nat} {t : Thread}

/-! ### The values of one lane (R53, R54, R147) -/

/-- Of `n` lanes those from `l` on, `d` of them, have the value `a`. -/
def window (n l d : Nat) (a : DWord) : List (Option DWord × BitVec 6) :=
  (List.range n).map fun i => (if l ≤ i ∧ i < l + d then some a else none, 0)

@[simp] theorem length_window (n l d : Nat) (a : DWord) : (window n l d a).length = n := by simp [window]

theorem getElem_window {n l d i : Nat} {a : DWord} (h : i < (window n l d a).length) :
    (window n l d a)[i] = (if l ≤ i ∧ i < l + d then some a else none, 0) := by simp [window]

theorem laneVals_one (l : Nat) (a : DWord) (b : Word) (c : BitVec 4) : laneVals [(l, a, b, c)] = window 64 l 1 a := by
  refine List.map_congr_left fun i _ => congrArg (·, 0) ?_
  by_cases h : l = i
  · simp [h]
  · rw [List.find?_cons_of_neg (by simpa using h), if_neg (by omega)]; rfl

section
variable (f : DWord → DWord → DWord × BitVec 6) (a : DWord)

theorem combOpt_none (v : Option DWord × BitVec 6) :
    combOpt f v (none, 0) = v ∧ combOpt f (none, 0) v = v := by
  obtain ⟨_ | v, fl⟩ := v <;> simp [combOpt]

theorem pairUp_cons_cons (g : Nat → Option DWord × BitVec 6) (n : Nat) :
    pairUp f ((List.range (2 * n)).map g) = (List.range n).map fun i => combOpt f (g (2 * i)) (g (2 * i + 1)) := by
  induction n generalizing g with
  | zero => rfl
  | succ n ih =>
    rw [Nat.mul_succ, List.range_succ_eq_map, List.range_succ_eq_map, List.range_succ_eq_map (n := n)]
    simp only [List.map_cons, List.map_map, pairUp]
    refine congrArg _ ((ih (g ∘ Nat.succ ∘ Nat.succ)).trans (List.map_congr_left fun i _ => ?_))
    rfl

/-- A level of the tree leaves one value as it is, at half its place. -/
theorem pairUp_window (n l : Nat) : pairUp f (window (2 * n) l 1 a) = window n (l / 2) 1 a := by
  rw [window, pairUp_cons_cons]
  refine List.map_congr_left fun i _ => ?_
  by_cases h0 : l = 2 * i + 1
  · rw [if_neg (by omega), (combOpt_none f _).2, if_pos (by omega), if_pos (by omega)]
  · rw [if_neg (show ¬ (l ≤ 2 * i + 1 ∧ 2 * i + 1 < l + 1) by omega), (combOpt_none f _).1]
    congr 2
    rw [eq_iff_iff]; omega

theorem treeOf_window (k l : Nat) : treeOf f k (window (2 ^ k) l 1 a) = window 1 (l / 2 ^ k) 1 a := by
  induction k generalizing l with
  | zero => rw [treeOf, Nat.pow_zero, Nat.div_one]
  | succ k ih => rw [treeOf, Nat.pow_succ', pairUp_window, ih, Nat.div_div_eq_div_mul]

/-- A level of the network at distance `d` spreads one value over twice as many lanes. -/
theorem scanLevel_window (n l d : Nat) : scanLevel f d (window n l d a) = window n l (2 * d) a := by
  apply List.ext_getElem
  · simp only [scanLevel, List.length_append, List.length_take, List.length_map, List.length_zip, List.length_drop,
      length_window]
    omega
  · intro i h1 h2
    rw [length_window] at h2
    rw [getElem_window]
    by_cases hd : i < d
    · simp only [scanLevel]
      rw [List.getElem_append_left (by simpa using ⟨hd, h2⟩), List.getElem_take, getElem_window]
      congr 2
      rw [eq_iff_iff]; omega
    · simp only [scanLevel]
      rw [List.getElem_append_right (by simp; omega), List.getElem_map, List.getElem_zip, List.getElem_drop, getElem_window,
        getElem_window]
      simp only [List.length_take, length_window, min_eq_left (show d ≤ n by omega)]
      by_cases hi : l ≤ i - d ∧ i - d < l + d
      · rw [if_neg (show ¬ (l ≤ d + (i - d) ∧ d + (i - d) < l + d) by omega), (combOpt_none f _).1]
        rw [if_pos hi, if_pos (by omega)]
      · rw [if_neg hi, (combOpt_none f _).2]
        congr 2
        rw [eq_iff_iff]; omega

theorem scanOf_window (k n l d : Nat) : scanOf f k d (window n l d a) = window n l (2 ^ k * d) a := by
  induction k generalizing d with
  | zero => rw [scanOf, Nat.pow_zero, Nat.one_mul]
  | succ k ih => rw [scanOf, scanLevel_window, ih, Nat.pow_succ, Nat.mul_assoc]

end

/-! ### What each lane instruction gives of one value (R147 to R152) -/

/-- A lane that is not there leaves a thread its own operand. -/
theorem laneVal_one (l : Nat) (a : DWord) (b : Word) (c : BitVec 4) (i : Int) :
    (laneVal [(l, a, b, c)] i).getD a = a := by
  unfold laneVal
  split
  · rw [List.find?_cons]
    split <;> rfl
  · rfl

theorem laneMask_one (l : Nat) : laneMask [l] = 1#64 <<< l := BitVec.zero_or

section
variable (p : Pred) (d : Reg) (s1 s2 m : Src) (a : DWord) (b : Word) (c : BitVec 4)

theorem gatherOuts_wshfl (md : Shfl) :
    gatherOuts (.wshfl md p d s1 s2 m) [(l, a, b, c)] = (some d, [(l, out32 (a.setWidth 32))]) := by
  simp only [gatherOuts, List.map_cons, List.map_nil, laneVal_one]

theorem gatherOuts_wbcast (w64 : Bool) :
    gatherOuts (.wbcast w64 p d s1 s2 m) [(l, a, b, c)] = (some d, [(l, outRaw w64 a)]) := by
  simp only [gatherOuts, List.map_cons, List.map_nil, laneVal_one]

theorem gatherOuts_wmatch (w64 : Bool) :
    gatherOuts (.wmatch w64 p d s1 m) [(l, a, b, c)] = (some d, [(l, out64 (1#64 <<< l))]) := by
  simp [gatherOuts, laneMask_one]

theorem gatherOuts_wred (op : LOp) (ty : LTy) (rm : Rm) (hl : l < 64) :
    gatherOuts (.wred op ty rm p d s1 m) [(l, a, b, c)] = (some d, [(l, outRaw (LTy.n ty == 2) a)]) := by
  have ht : treeOf (laneOp op ty rm) 6 (window 64 l 1 a) = window 1 0 1 a := by
    rw [← Nat.div_eq_of_lt hl]; exact treeOf_window (laneOp op ty rm) a 6 l
  rw [gatherOuts, laneVals_one, ht]
  rfl

/-- An inclusive scan gives the thread its own operand, an exclusive one the identity. -/
theorem gatherOuts_wscan (op : LOp) (ty : LTy) (rm : Rm) (excl : Bool) (hl : l < 64) :
    ∃ o, gatherOuts (.wscan op ty rm excl p d s1 m) [(l, a, b, c)] = (some d, [(l, o)]) ∧
      o.ws = wordsRaw (LTy.n ty == 2) (if excl then laneId op ty else a) := by
  have hs := scanOf_window (laneOp op ty rm) a 6 64 l 1
  have hg (i : Nat) (hi : i < 64) : ((window 64 l (2 ^ 6 * 1) a).getD i (none, 0)).1 = if l ≤ i then some a else none := by
    rw [List.getD_eq_getElem _ _ (by simpa using hi), getElem_window]
    simp only [show (l ≤ i ∧ i < l + 2 ^ 6 * 1) ↔ l ≤ i by omega]
  refine ⟨_, rfl, congrArg (wordsRaw _) ?_⟩
  rw [laneVals_one, hs]
  cases excl
  · rw [if_neg Bool.false_ne_true, hg l hl, if_pos le_rfl]; rfl
  · rw [if_pos rfl, if_pos rfl]
    split
    · rfl
    · rw [hg _ (by omega), if_neg (by omega)]; rfl

theorem gatherOuts_votes (q k : CBit) :
    gatherOuts (.wvote (.all k) q p m) [(l, a, b, c)] = (none, [(l, outC k (c.getLsbD q.val))]) ∧
    gatherOuts (.wvote (.any k) q p m) [(l, a, b, c)] = (none, [(l, outC k (c.getLsbD q.val))]) ∧
    gatherOuts (.wvote (.uni k) q p m) [(l, a, b, c)] = (none, [(l, outC k true)]) := by
  simp [gatherOuts]

theorem gatherOuts_ballot (q : CBit) : gatherOuts (.wvote (.ballot d) q p m) [(l, a, b, c)] =
    (some d, [(l, out64 (if c.getLsbD q.val then 1#64 <<< l else 0))]) := by
  cases h : c.getLsbD q.val
  · rw [gatherOuts, List.map_singleton, List.filter_cons_of_neg (by simp only [h]; decide)]; rfl
  · rw [gatherOuts, List.map_singleton, List.filter_cons_of_pos (by simp only [h]), ← laneMask_one]; rfl

end

/-! ### Arrival and completion of one thread (R142, R143) -/

/-- The group as it issues a lane instruction. -/
def arriving (y : Group) (l : Nat) : Group := { y with lanes := [l], began := true, lead := some l, mask := laneMask [l] }

/-- The wave whose gathering of lane `l` alone is behind it. -/
def gathered (x : Wave) (g : Nat) (y : Group) (l : Nat) : Wave :=
  { modThread (setGroup x g (arriving y l)) l fun t => { t with wait := .gather x.nextGather } with
    gathers := [], nextGather := x.nextGather + 1 }

/-- The gathering of lane `l` alone. -/
def ownGather (i : Instr) (pc : DWord) (l : Nat) (id : DWord) (v : DWord × Word × BitVec 4) : Gather :=
  { pc := pc, instr := i, mask := 1#64 <<< l, arr := [{ lane := l, workid := id, value := some v }] }

/-- The wave while the gathering of lane `l` alone is complete and not delivered. -/
def undelivered (x : Wave) (g : Nat) (y : Group) (l : Nat) (q : Gather) : Wave :=
  { gathered x g y l with gathers := [(x.nextGather, q)] }

theorem getLsbD_own (l : Nat) {j : Nat} (hj : j < 64) : (1#64 <<< l).getLsbD j = decide (j = l) := by
  rw [← laneMask_one, getLsbD_laneMask _ hj]
  simp only [List.mem_singleton]

theorem gatherFull_own (i : Instr) (pc : DWord) (l : Nat) (id : DWord) (v : DWord × Word × BitVec 4) :
    gatherFull (ownGather i pc l id v) = true := by
  refine List.all_eq_true.mpr fun j hj => ?_
  rw [ownGather, getLsbD_own l (List.mem_range.mp hj)]
  by_cases h : j = l <;> simp [h]

theorem find_gathered (h : Alone s x y l t) :
    NMap.find? (gathered x s.dev.cur.2 y l).threads l = some { t with wait := .gather x.nextGather } ∧
    (gathered x s.dev.cur.2 y l).groups = [(s.dev.cur.2, arriving y l)] := by
  constructor
  · simp [gathered, find_modThread, h.thread]
  · simp [gathered, setGroup, h.groups, NMap.put]

/-- A thread that names only itself completes the gathering by its arrival. -/
theorem arrive_own (h : Alone s x y l t) (i : Instr) (pc : DWord) (v : DWord × Word × BitVec 4) :
    arrive (setGroup x s.dev.cur.2 (arriving y l)) i pc l (1#64 <<< l) (some v) =
      completeGather (undelivered x s.dev.cur.2 y l (ownGather i pc l t.workid v)) x.nextGather := by
  have hx : thread (setGroup x s.dev.cur.2 (arriving y l)) l = t := h.thread_eq
  have hc : (1#64 <<< l).getLsbD l = true := by rw [getLsbD_own l h.lane]; simp
  have hdead : ((List.range Config.W).any fun j =>
      (1#64 <<< l).getLsbD j && !alive (thread (setGroup x s.dev.cur.2 (arriving y l)) j)) = false := by
    refine List.any_eq_false.mpr fun j hj => ?_
    rw [getLsbD_own l (List.mem_range.mp hj)]
    by_cases hjl : j = l
    · subst hjl
      simp [hx, alive, h.running.1]
    · simp [hjl]
  unfold arrive
  simp only [hc, hdead, hx, show (setGroup x s.dev.cur.2 (arriving y l)).gathers = [] from h.quiet.1, Bool.not_true,
    Bool.false_and, Bool.false_eq_true, if_false, List.find?_nil, List.foldr_nil, List.isEmpty_nil, Bool.or_self, NMap.put]
  congr 1
  simp only [undelivered, gathered, modThread]
  rw [show NMap.find? (setGroup x s.dev.cur.2 (arriving y l)).threads l = some t from h.thread]
  rfl

theorem groupOf_arriving {z : Wave} {g : Nat} (hg : z.groups = [(g, arriving y l)]) : groupOf z l = some g := by
  simp [groupOf, hg, arriving]

/-- The thread has its result and its group goes on. -/
theorem completeGather_own (h : Alone s x y l t) {i : Instr} (hi : isConv i = false) (pc id : DWord)
    {v : DWord × Word × BitVec 4} {d : Option Reg} {o : LaneOut} (ho : gatherOuts i [(l, v)] = (d, [(l, o)])) :
    completeGather (undelivered x s.dev.cur.2 y l (ownGather i pc l id v)) x.nextGather =
      advance (applyRes (gathered x s.dev.cur.2 y l) l true d 0 0 (.done o)) s.dev.cur.2 := by
  obtain ⟨ht, hg⟩ := find_gathered h
  have hv : valued (ownGather i pc l id v) = [(l, v)] := rfl
  have hf : NMap.find? (undelivered x s.dev.cur.2 y l (ownGather i pc l id v)).gathers x.nextGather =
      some (ownGather i pc l id v) := if_pos rfl
  have he : { undelivered x s.dev.cur.2 y l (ownGather i pc l id v) with
      gathers := NMap.erase (undelivered x s.dev.cur.2 y l (ownGather i pc l id v)).gathers x.nextGather } =
      gathered x s.dev.cur.2 y l := by
    rw [show NMap.erase (undelivered x s.dev.cur.2 y l (ownGather i pc l id v)).gathers x.nextGather = [] by
      simp [undelivered, NMap.erase]]
    rfl
  have hr : releaseLane (raiseFlags (writeOut (gathered x s.dev.cur.2 y l) l true d o) (0 ||| o.fl)) l =
      applyRes (gathered x s.dev.cur.2 y l) l true d 0 0 (.done o) := by
    rw [show (0 : BitVec 6) ||| o.fl = o.fl from BitVec.zero_or, releaseLane]
    rw [groupOf_arriving (by rw [raiseFlags_groups, writeOut_eq, modThread_groups]; exact hg)]
    rfl
  have hk : NMap.keys (applyRes (gathered x s.dev.cur.2 y l) l true d 0 0 (.done o)).groups = [s.dev.cur.2] := by
    rw [applyRes_done_groups, hg]; rfl
  unfold completeGather
  rw [hf]
  simp only [gatherFull_own, Bool.not_true, Bool.false_eq_true, if_false, hv, show (ownGather i pc l id v).instr = i from rfl,
    ho, he, hi]
  simp only [ownGather, List.foldl_cons, List.foldl_nil, List.head?_cons, Option.map_some, beq_self_eq_true,
    hr, hk]
  refine settleGroup_hold (y' := arriving y l) ?_ rfl (by rw [thread_of_find (find_applyRes_done ht true d 0 0 o)])
  rw [applyRes_done_groups, hg]
  exact if_pos rfl

/-- A group of one that has gone on stays where it went. -/
theorem settleGroup_advanced {z : Wave} {g : Nat} (hg : NMap.find? z.groups g = some y) (hl : y.lanes = [l])
    (ht : (NMap.find? z.threads l).isSome) : settleGroup (advance z g) g = advance z g := by
  obtain ⟨u, hu⟩ := Option.isSome_iff_exists.mp ht
  have ha := find_advance hg (by simp [hl]) l
  rw [if_pos (by simp [hl]), hu, Option.map_some] at ha
  have hga := group_advance hg
  by_cases hi : y.index < y.hdr.count
  · rw [if_pos hi] at hga
    exact settleGroup_stays hga hl (by rw [thread_of_find ha, if_pos hi]; exact nofun)
  · rw [if_neg hi] at hga
    unfold settleGroup
    rw [hga]

/-- The wave of a thread that names only itself is what the completion of its gathering makes of it. -/
theorem gatherStep_completes (h : Alone s x y l t) {p : Pred} (hp : performs p t = true) {m : Src}
    (hm : rd64 x t m = 1#64 <<< l) (i : Instr) (rd : Wave → Thread → DWord × Word) {z : Wave}
    (hz : completeGather (undelivered x s.dev.cur.2 y l
      (ownGather i (groupPc y) l t.workid ((rd x t).1, (rd x t).2, t.c))) x.nextGather = z)
    (hs : settleGroup z s.dev.cur.2 = z) (hq : z.fatal = none) :
    gatherStep s.dev i p m rd = setWave s.dev s.dev.cur.1 z := by
  have harr : { y with lanes := [l], began := true, lead := some l, mask := laneMask [l] } = arriving y l := rfl
  have ha := (arrive_own h i (groupPc y) ((rd x t).1, (rd x t).2, t.c)).trans hz
  have hw := h.wave_eq
  have hy := h.group_eq
  rcases hc : s.dev.cur with ⟨w, g⟩
  simp only [hc] at ha hs hw hy
  unfold gatherStep
  simp only [hc, hw, hy, h.performers hp, h.lanes, List.head?_cons, harr, List.foldl_cons, List.foldl_nil, h.thread_eq, hm, hp,
    if_true, ha, hs]
  exact settleFatal_none (by rw [wave_setWave_self]; exact hq)

theorem fatal_gathered (h : Alone s x y l t) : (gathered x s.dev.cur.2 y l).fatal = none := by
  simp [gathered, h.quiet.2.2]

/-- Everything a lane instruction does for a thread that names only itself. -/
theorem gatherStep_own (h : Alone s x y l t) {p : Pred} (hp : performs p t = true) {m : Src} (hm : rd64 x t m = 1#64 <<< l)
    {i : Instr} (hi : isConv i = false) {rd : Wave → Thread → DWord × Word} {d : Option Reg} {o : LaneOut}
    (ho : gatherOuts i [(l, (rd x t).1, (rd x t).2, t.c)] = (d, [(l, o)])) :
    gatherStep s.dev i p m rd = setWave s.dev s.dev.cur.1
      (advance (applyRes (gathered x s.dev.cur.2 y l) l true d 0 0 (.done o)) s.dev.cur.2) := by
  obtain ⟨ht, hg⟩ := find_gathered h
  refine gatherStep_completes h hp hm i rd (completeGather_own h hi _ _ ho) ?_ (by simp [fatal_gathered h])
  refine settleGroup_advanced (y := arriving y l) ?_ rfl (by rw [find_applyRes_done ht]; rfl)
  rw [applyRes_done_groups, hg]
  exact if_pos rfl

section
variable {p : Pred} {m : Src} {i j : Instr} {rd : Wave → Thread → DWord × Word} {o : LaneOut}

/-- A lane instruction of a thread that names only itself passes; its destination and its condition bits have its result. -/
theorem exec_gather_own (h : Alone s x y l t) (hp : performs p t = true) (hm : rd64 x t m = 1#64 <<< l) (hi : isConv i = false)
    (hj : exec j s = onDev s fun dev => gatherStep dev i p m rd) {d : Option Reg}
    (ho : gatherOuts i [(l, (rd x t).1, (rd x t).2, t.c)] = (d, [(l, o)])) :
    ∃ s', exec j s = .next s' ∧ Passed s s' y ∧ (∀ r, d = some r → regsOf (after s s') l r o.ws.length = o.ws) ∧
      ∀ k, cbit (thread (after s s') l) k = cbit (outThread d o { t with wait := .gather x.nextGather }) k := by
  obtain ⟨ht, hg⟩ := find_gathered h
  have hgf : NMap.find? (gathered x s.dev.cur.2 y l).groups s.dev.cur.2 = some (arriving y l) := by
    rw [hg]; exact if_pos rfl
  have hw : NMap.find? (gatherStep s.dev i p m rd).waves s.dev.cur.1 = _ :=
    (congrArg (fun dev => NMap.find? dev.waves s.dev.cur.1) (gatherStep_own h hp hm hi ho)).trans (NMap.find?_put_self ..)
  refine ⟨_, hj, passed_advance (x := { x with s := y.s0, d := y.d0 }) (l := l) hw
    (by rw [applyRes_done_groups, hgf, arriving, ← h.lanes]) h.issues.nodup fun k hk => ?_, fun r hr => ?_, ?_⟩
  · rw [h.lanes, List.mem_singleton] at hk
    subst hk
    rw [find_applyRes_done ht]; rfl
  · subst hr
    exact regsOf_done (s' := { s with dev := gatherStep s.dev i p m rd }) _ _ hw hgf rfl ht
  · exact cbit_done (s' := { s with dev := gatherStep s.dev i p m rd }) _ _ hw hgf rfl ht

theorem gather_own_words (h : Alone s x y l t) (hp : performs p t = true) (hm : rd64 x t m = 1#64 <<< l) {d : Reg}
    (hi : isConv i = false) (hj : exec j s = onDev s fun dev => gatherStep dev i p m rd)
    (ho : gatherOuts i [(l, (rd x t).1, (rd x t).2, t.c)] = (some d, [(l, o)])) :
    ∃ s', exec j s = .next s' ∧ Passed s s' y ∧ regsOf (after s s') l d o.ws.length = o.ws := by
  obtain ⟨s', he, hpass, hr, -⟩ := exec_gather_own h hp hm hi hj ho
  exact ⟨s', he, hpass, hr d rfl⟩

theorem gather_own_bit (h : Alone s x y l t) (hp : performs p t = true) (hm : rd64 x t m = 1#64 <<< l) {c : CBit} {b : Bool}
    (hi : isConv i = false) (hj : exec j s = onDev s fun dev => gatherStep dev i p m rd)
    (ho : gatherOuts i [(l, (rd x t).1, (rd x t).2, t.c)] = (none, [(l, outC c b)])) :
    ∃ s', exec j s = .next s' ∧ Passed s s' y ∧ cbit (thread (after s s') l) c = b := by
  obtain ⟨s', he, hpass, -, hc⟩ := exec_gather_own h hp hm hi hj ho
  exact ⟨s', he, hpass, (hc c).trans (cbit_setCbit ..)⟩

end

theorem length_wordsRaw (ty : LTy) (v : DWord) : (wordsRaw (LTy.n ty == 2) v).length = LTy.n ty := by cases ty <;> rfl

theorem wred_own (h : Alone s x y l t) {p : Pred} (hp : performs p t = true) {m : Src} (hm : rd64 x t m = 1#64 <<< l)
    (op : LOp) (ty : LTy) (rm : Rm) (d : Reg) (a : Src) :
    ∃ s', exec (.wred op ty rm p d a m) s = .next s' ∧ Passed s s' y ∧
      regsOf (after s s') l d (LTy.n ty) = wordsRaw (LTy.n ty == 2) (rdLane ty x t a) := by
  obtain ⟨s', he, hpass, hr⟩ := gather_own_words h hp hm rfl (j := .wred op ty rm p d a m)
    (rd := fun w t => (rdLane ty w t a, 0)) rfl (gatherOuts_wred p d a m _ _ _ op ty rm h.lane)
  exact ⟨s', he, hpass, (congrArg (regsOf _ l d) (length_wordsRaw ty _).symm).trans hr⟩

/-- An inclusive scan gives the thread its own operand, an exclusive one the identity. -/
theorem wscan_own (h : Alone s x y l t) {p : Pred} (hp : performs p t = true) {m : Src} (hm : rd64 x t m = 1#64 <<< l)
    (op : LOp) (ty : LTy) (rm : Rm) (excl : Bool) (d : Reg) (a : Src) :
    ∃ s', exec (.wscan op ty rm excl p d a m) s = .next s' ∧ Passed s s' y ∧
      regsOf (after s s') l d (LTy.n ty) = wordsRaw (LTy.n ty == 2) (if excl then laneId op ty else rdLane ty x t a) := by
  obtain ⟨o, ho, hws⟩ := gatherOuts_wscan p d a m (rdLane ty x t a) 0 t.c op ty rm excl h.lane
  obtain ⟨s', he, hpass, hr⟩ := gather_own_words h hp hm rfl (j := .wscan op ty rm excl p d a m)
    (rd := fun w t => (rdLane ty w t a, 0)) rfl ho
  rw [hws, length_wordsRaw] at hr
  exact ⟨s', he, hpass, hr⟩

/-! ### The parts of a PC (R93) -/

theorem toNat_pcClause (pc : DWord) : (pcClause pc).toNat = pc.toNat % 2 ^ 57 := by
  rw [pcClause, BitVec.toNat_and]
  exact Nat.and_two_pow_sub_one_eq_mod _ 57

theorem toNat_mkPc (clause : DWord) {n : Nat} (h : n < 16) : (mkPc clause n).toNat = n * 2 ^ 60 + clause.toNat % 2 ^ 57 := by
  have hs : (BitVec.ofNat 64 (n % 16) <<< 60).toNat = n <<< 60 := by
    rw [BitVec.toNat_shiftLeft, BitVec.toNat_ofNat, Nat.shiftLeft_eq, Nat.shiftLeft_eq]; omega
  show (pcClause clause ||| (BitVec.ofNat 64 (n % 16) <<< 60)).toNat = _
  rw [BitVec.toNat_or, hs, toNat_pcClause, Nat.or_comm,
    ← Nat.shiftLeft_add_eq_or_of_lt (Nat.lt_of_lt_of_le (Nat.mod_lt _ (by decide)) (by decide)), Nat.shiftLeft_eq]

theorem pcIndex_mkPc (clause : DWord) {n : Nat} (h : n < 16) : pcIndex (mkPc clause n) = n := by
  rw [pcIndex, BitVec.toNat_ushiftRight, toNat_mkPc clause h, Nat.shiftRight_eq_div_pow]; omega

theorem pcClause_mkPc (clause : DWord) {n : Nat} (h : n < 16) : pcClause (mkPc clause n) = pcClause clause := by
  apply BitVec.eq_of_toNat_eq
  rw [toNat_pcClause, toNat_mkPc clause h, toNat_pcClause]; omega

theorem toNat_wordAddr (clause : DWord) (i : Nat) : (wordAddr clause i).toNat = (clause.toNat + 8 + 8 * i) % 2 ^ 57 := by
  have h8 : (8 : DWord).toNat = 8 := rfl
  rw [wordAddr, toNat_pcClause, BitVec.toNat_add, BitVec.toNat_add, BitVec.toNat_mul, BitVec.toNat_ofNat, h8]
  omega

/-- The clause after the last instruction of a group's clause. -/
theorem clauseAfter_groupPc {y : Group} (hi : y.index < 16) (hc : y.index = y.hdr.count) :
    clauseAfter (groupPc y) = nextClause y := by
  apply BitVec.eq_of_toNat_eq
  rw [clauseAfter, toNat_mkPc _ (by decide), toNat_wordAddr, groupPc, pcIndex_mkPc _ hi, pcClause_mkPc _ hi, toNat_pcClause,
    nextClause, toNat_wordAddr, hc]
  omega

/-! ### CONV (R156) -/

/-- The only lane of a group takes the group with it. -/
theorem leaveLane_only {z : Wave} {g : Nat} (hg : group z g = y) (hl : y.lanes = [l]) : leaveLane z g l = dropGroup z g := by
  simp only [leaveLane, hg, hl]
  simp

theorem sendLane_only {z : Wave} {g : Nat} (ho : groupOf z l = some g) (hg : group z g = y) (hl : y.lanes = [l]) (pc : DWord) :
    sendLane z l pc = modThread (dropGroup z g) l fun t => goTo t pc := by
  unfold sendLane
  rw [ho]
  dsimp only
  rw [leaveLane_only hg hl]

/-- The thread leaves for the next clause. -/
theorem completeGather_conv (p : Pred) (m : Src) (pc id : DWord) (v : DWord × Word × BitVec 4) (h : Alone s x y l t) :
    completeGather (undelivered x s.dev.cur.2 y l (ownGather (.conv p m) pc l id v)) x.nextGather =
      modThread (dropGroup (raiseFlags (gathered x s.dev.cur.2 y l) 0) s.dev.cur.2) l fun t => goTo t (clauseAfter pc) := by
  obtain ⟨-, hg⟩ := find_gathered h
  have hf : NMap.find? (undelivered x s.dev.cur.2 y l (ownGather (.conv p m) pc l id v)).gathers x.nextGather =
      some (ownGather (.conv p m) pc l id v) := if_pos rfl
  have he : { undelivered x s.dev.cur.2 y l (ownGather (.conv p m) pc l id v) with
      gathers := NMap.erase (undelivered x s.dev.cur.2 y l (ownGather (.conv p m) pc l id v)).gathers x.nextGather } =
      gathered x s.dev.cur.2 y l := by
    rw [show NMap.erase (undelivered x s.dev.cur.2 y l (ownGather (.conv p m) pc l id v)).gathers x.nextGather = [] by
      simp [undelivered, NMap.erase]]
    rfl
  have hr : sendLane (raiseFlags (gathered x s.dev.cur.2 y l) 0) l (clauseAfter pc) = modThread
      (dropGroup (raiseFlags (gathered x s.dev.cur.2 y l) 0) s.dev.cur.2) l fun t => goTo t (clauseAfter pc) := by
    refine sendLane_only (y := arriving y l) (groupOf_arriving (y := y) ?_) (group_of_find ?_) rfl _ <;>
      rw [raiseFlags_groups, hg]
    exact if_pos rfl
  have hk : NMap.keys (modThread (dropGroup (raiseFlags (gathered x s.dev.cur.2 y l) 0) s.dev.cur.2) l
      fun t => goTo t (clauseAfter pc)).groups = [] := by
    simp [dropGroup, hg, NMap.erase, NMap.keys]
  unfold completeGather
  rw [hf]
  simp only [gatherFull_own, Bool.not_true, Bool.false_eq_true, if_false, show (ownGather (.conv p m) pc l id v).instr =
    .conv p m from rfl, gatherOuts, he, isConv, if_true]
  simp only [ownGather, List.foldl_cons, List.foldl_nil, hr, hk]

theorem conv_own (h : Alone s x y l t) {p : Pred} (hp : performs p t = true) {m : Src} (hm : rd64 x t m = 1#64 <<< l)
    (hc : y.index = y.hdr.count) : ∃ s', exec (.conv p m) s = .next s' ∧ Left s s' y fun _ => nextClause y := by
  obtain ⟨ht, hg⟩ := find_gathered h
  have hn : NMap.find? (modThread (dropGroup (raiseFlags (gathered x s.dev.cur.2 y l) 0) s.dev.cur.2) l
      fun t => goTo t (clauseAfter (groupPc y))).groups s.dev.cur.2 = none := by
    rw [modThread_groups]; exact NMap.find?_erase_self ..
  have hs := gatherStep_completes h hp hm (.conv p m) (fun _ _ => (0, 0)) (completeGather_conv p m _ _ _ h)
    (by unfold settleGroup; rw [hn]) (by simp [dropGroup, raiseFlags, fatal_gathered h])
  have he : exec (.conv p m) s = .next { s with dev := gatherStep s.dev (.conv p m) p m fun _ _ => (0, 0) } := by
    show execConv p m s = _
    rw [execConv, onDev]
    simp [h.wave_eq, h.quiet.2.1]
  have ha : after s { s with dev := gatherStep s.dev (.conv p m) p m fun _ _ => (0, 0) } = _ :=
    (congrArg (fun dev => wave dev s.dev.cur.1) hs).trans (wave_setWave_self ..)
  refine ⟨_, he, ?_⟩
  rw [Left, ha]
  refine ⟨hn, fun j hj => ?_⟩
  rw [h.lanes, List.mem_singleton] at hj
  subst hj
  have hj := find_modThread (dropGroup (raiseFlags (gathered x s.dev.cur.2 y j) 0) s.dev.cur.2) j j
    fun t => goTo t (clauseAfter (groupPc y))
  rw [if_pos rfl, show NMap.find? (dropGroup (raiseFlags (gathered x s.dev.cur.2 y j) 0) s.dev.cur.2).threads j = _ from ht] at hj
  rw [thread_of_find hj]
  exact ⟨clauseAfter_groupPc h.index hc, rfl⟩

/-! ### The obligation -/

/-- Settles O15: a thread's own arrival completes its gathering, whose only value is its own; tree and network leave one
value as it is. -/
theorem loneGatherings : Obligations.LoneGatherings := by
  unfold Obligations.LoneGatherings
  intro s x y l t p m h hp hm
  refine ⟨fun md k d a b => ⟨?shfl, ?bcast32, ?bcast64, ?wmatch⟩, fun op ty rm d a _ => ⟨?red, ?scan, ?exclusive⟩,
    fun q c => ?votes, fun q d => ?ballot, conv_own h hp hm⟩
  case shfl =>
    have hr := gather_own_words h hp hm rfl (j := .wshfl md p d a b m)
      (rd := fun w t => ((rd32 w t a).setWidth 64, rd32 w t b)) rfl (gatherOuts_wshfl p d a b m _ _ _ md)
    rwa [low_setWidth] at hr
  case bcast32 =>
    have hr := gather_own_words h hp hm rfl (j := .wbcast false p d a b m)
      (rd := fun w t => (rdRaw false w t a, rd32 w t b)) rfl (gatherOuts_wbcast p d a b m _ _ _ false)
    simpa [outRaw, wordsRaw] using hr
  case bcast64 =>
    exact gather_own_words h hp hm rfl (j := .wbcast true p d a b m)
      (rd := fun w t => (rdRaw true w t a, rd32 w t b)) rfl (gatherOuts_wbcast p d a b m _ _ _ true)
  case wmatch =>
    exact gather_own_words h hp hm rfl (j := .wmatch k p d a m) (rd := fun w t => (rdRaw k w t a, 0)) rfl
      (gatherOuts_wmatch p d a m _ _ _ k)
  case red => exact wred_own h hp hm op ty rm d a
  case scan => exact wscan_own h hp hm op ty rm false d a
  case exclusive => exact wscan_own h hp hm op ty rm true d a
  case votes =>
    obtain ⟨hall, hany, huni⟩ := gatherOuts_votes (l := l) p m 0 0 t.c q c
    exact ⟨gather_own_bit h hp hm rfl (j := .wvote (.all c) q p m) (rd := fun _ _ => (0, 0)) rfl hall,
      gather_own_bit h hp hm rfl (j := .wvote (.any c) q p m) (rd := fun _ _ => (0, 0)) rfl hany,
      gather_own_bit h hp hm rfl (j := .wvote (.uni c) q p m) (rd := fun _ _ => (0, 0)) rfl huni⟩
  case ballot =>
    exact gather_own_words h hp hm rfl (j := .wvote (.ballot d) q p m) (rd := fun _ _ => (0, 0)) rfl
      (gatherOuts_ballot p d m 0 0 t.c q)

end Sys2Proof.Machine
end

section
/-!
PROOFS. The delivery of a complete gathering whose threads have no group (R143, R145).
-/
namespace Sys2Proof.Machine

variable {x : Wave} {d : Option Reg}

/-! ### Results of several lanes (R108) -/

/-- The wave with the results of lanes `os`; `ld` says which leads. -/
def withOuts (d : Option Reg) (ld : Nat → Bool) (x : Wave) (os : List (Nat × LaneOut)) : Wave :=
  os.foldl (fun z o => writeOut z o.1 (ld o.1) d o.2) x

section
variable (ld : Nat → Bool)

theorem withOuts_cons (x : Wave) (o : Nat × LaneOut) (os : List (Nat × LaneOut)) :
    withOuts d ld x (o :: os) = withOuts d ld (writeOut x o.1 (ld o.1) d o.2) os := rfl

theorem withOuts_frame (x : Wave) (os : List (Nat × LaneOut)) :
    (withOuts d ld x os).groups = x.groups ∧ (withOuts d ld x os).gathers = x.gathers := by
  induction os generalizing x with
  | nil => exact ⟨rfl, rfl⟩
  | cons o os ih =>
    obtain ⟨hg, hk⟩ := ih (writeOut x o.1 (ld o.1) d o.2)
    rw [withOuts_cons, hg, hk, writeOut_eq, modThread_eq]
    exact ⟨rfl, rfl⟩

/-- A lane without a result keeps its thread. -/
theorem find_withOuts_other (x : Wave) {os : List (Nat × LaneOut)} {j : Nat} (h : j ∉ os.map Prod.fst) :
    NMap.find? (withOuts d ld x os).threads j = NMap.find? x.threads j := by
  induction os generalizing x with
  | nil => rfl
  | cons o os ih =>
    rw [List.map_cons, List.mem_cons, not_or] at h
    rw [withOuts_cons, ih _ h.2, writeOut_eq, find_modThread, if_neg h.1]

/-- A lane with one result has it. -/
theorem find_withOuts (x : Wave) {os : List (Nat × LaneOut)} (nd : (os.map Prod.fst).Nodup) {o : Nat × LaneOut} (h : o ∈ os) :
    NMap.find? (withOuts d ld x os).threads o.1 = (NMap.find? x.threads o.1).map (outThread d o.2) := by
  induction os generalizing x with
  | nil => exact absurd h List.not_mem_nil
  | cons q os ih =>
    obtain ⟨hq, nd'⟩ := List.nodup_cons.mp nd
    rw [withOuts_cons]
    rcases List.mem_cons.mp h with rfl | h
    · rw [find_withOuts_other _ _ hq, writeOut_eq, find_modThread, if_pos rfl]
    · rw [ih _ nd' h, writeOut_eq, find_modThread, if_neg fun e : o.1 = q.1 => hq (e ▸ List.mem_map_of_mem h)]

/-- Results leave where a thread stands. -/
theorem find_withOuts_place {x : Wave} (os : List (Nat × LaneOut)) {j : Nat} {t : Thread} (h : NMap.find? x.threads j = some t) :
    ∃ u, NMap.find? (withOuts d ld x os).threads j = some u ∧ u.pc = t.pc ∧ u.inst = t.inst := by
  induction os generalizing x t with
  | nil => exact ⟨t, h, rfl, rfl⟩
  | cons o os ih =>
    have hf := find_modThread { x with s := outS d (ld o.1) o.2 x.s, wrote := outW x o.1 d (ld o.1) o.2 } o.1 j
      (outThread d o.2)
    rw [← writeOut_eq] at hf
    rw [withOuts_cons]
    by_cases hj : j = o.1
    · subst hj
      rw [if_pos rfl, h] at hf
      obtain ⟨u, hu, hp, hi⟩ := ih hf
      exact ⟨u, hu, hp.trans (outThread_pc ..), hi.trans (by rw [outThread_eq])⟩
    · rw [if_neg hj] at hf
      exact ih (hf.trans h)

end

/-! ### The lanes that have results (R147 to R152) -/

theorem perm_sortBy {α : Type} (f : α → Nat) (l : List α) : (sortBy f l).Perm l := by
  have hins (a : α) (l : List α) : (sortBy.insertByFirst f a l).Perm (a :: l) := by
    induction l with
    | nil => exact .refl _
    | cons b l ih =>
      rw [sortBy.insertByFirst]
      split
      · exact .refl _
      · exact (ih.cons b).trans (.swap a b l)
  induction l with
  | nil => exact .refl _
  | cons a l ih => exact (hins a _).trans (ih.cons a)

/-- The lanes with a value are lanes that arrived. -/
theorem lanes_valued (z : Gather) : ∃ ls, ((valued z).map Prod.fst).Sublist ls ∧ ls.Perm (z.arr.map Arrival.lane) := by
  refine ⟨_, ?_, (perm_sortBy (fun a : Arrival => a.workid.toNat) z.arr).map Arrival.lane⟩
  rw [valued]
  induction sortBy (fun a : Arrival => a.workid.toNat) z.arr with
  | nil => exact .refl _
  | cons a as ih =>
    rw [List.filterMap_cons, List.map_cons]
    split
    · exact ih.cons _
    · rename_i hv
      obtain ⟨v, -, rfl⟩ := Option.map_eq_some_iff.mp hv
      exact ih.cons_cons _

theorem lanes_gatherOuts (i : Instr) (vs : List (Nat × DWord × Word × BitVec 4)) :
    (gatherOuts i vs).2.map Prod.fst = vs.map Prod.fst ∨ (gatherOuts i vs).2 = [] := by
  have hmap (f : Nat × DWord × Word × BitVec 4 → Nat × LaneOut) (hf : ∀ v, (f v).1 = v.1) :
      (vs.map f).map Prod.fst = vs.map Prod.fst := by
    rw [List.map_map]; exact List.map_congr_left fun v _ => hf v
  unfold gatherOuts
  split
  · exact .inl (hmap _ fun _ => rfl)
  · exact .inl (hmap _ fun _ => rfl)
  · split
    · exact .inl (hmap _ fun _ => rfl)
    · exact .inr rfl
  · exact .inl (hmap _ fun _ => rfl)
  · dsimp only
    split <;> exact .inl (hmap _ fun _ => rfl)
  · exact .inl (hmap _ fun _ => rfl)
  · exact .inr rfl

/-- Each result is of a lane that arrived, and of a lane there is one. -/
theorem lanes_results {z : Gather} (nd : (z.arr.map Arrival.lane).Nodup) :
    ((gatherOuts z.instr (valued z)).2.map Prod.fst).Nodup ∧
    ∀ o ∈ (gatherOuts z.instr (valued z)).2, ∃ a ∈ z.arr, a.lane = o.1 := by
  obtain ⟨ls, hsub, hperm⟩ := lanes_valued z
  rcases lanes_gatherOuts z.instr (valued z) with h | h
  · rw [← h] at hsub
    refine ⟨(hperm.nodup_iff.mpr nd).sublist hsub, fun o ho => ?_⟩
    exact List.mem_map.mp (hperm.mem_iff.mp (hsub.subset (List.mem_map_of_mem ho)))
  · rw [h]
    exact ⟨.nil, nofun⟩

/-! ### Delivery (R143) -/

/-- A thread that stands at the next word after its instruction. -/
def released (_ : Nat) (t : Thread) : Thread := goTo t (nextPc t.inst t.pc)

/-- The threads of a wave without groups go on from their gathering. -/
theorem releaseLanes {x : Wave} (hg : x.groups = []) (as : List Arrival) :
    as.foldl (fun z a => releaseLane z a.lane) x = eachThread x (as.map Arrival.lane) released := by
  rw [eachThread, List.foldl_map]
  induction as generalizing x with
  | nil => rfl
  | cons a as ih =>
    have h1 : releaseLane x a.lane = modThread x a.lane (released a.lane) := by
      unfold releaseLane
      rw [show groupOf x a.lane = none by rw [groupOf, hg]; rfl]
      rfl
    rw [List.foldl_cons, List.foldl_cons, h1]
    exact ih ((modThread_groups ..).trans hg)

section
variable {k : Nat} {z : Gather}

/-- The wave with the results of gathering `k`, which is gone. -/
def resulted (x : Wave) (k : Nat) (z : Gather) : Wave :=
  withOuts (gatherOuts z.instr (valued z)).1 (fun l => (valued z).head?.map Prod.fst == some l)
    { x with gathers := NMap.erase x.gathers k } (gatherOuts z.instr (valued z)).2

/-- The same with the flags raised and the threads gone on. -/
def handedOut (x : Wave) (k : Nat) (z : Gather) : Wave :=
  eachThread (raiseFlags (resulted x k z) ((gatherOuts z.instr (valued z)).2.foldl (fun f o => f ||| o.2.fl) 0))
    (z.arr.map Arrival.lane) released

theorem resulted_frame (x : Wave) (k : Nat) (z : Gather) :
    (resulted x k z).groups = x.groups ∧ (resulted x k z).gathers = NMap.erase x.gathers k := withOuts_frame ..

theorem handedOut_frame (x : Wave) (k : Nat) (z : Gather) :
    (handedOut x k z).groups = x.groups ∧ (handedOut x k z).gathers = NMap.erase x.gathers k := by
  rw [handedOut, eachThread_eq]
  exact resulted_frame x k z

theorem completeGather_delivers (hg : x.groups = []) (hk : NMap.find? x.gathers k = some z) (hf : gatherFull z = true)
    (hc : isConv z.instr = false) : completeGather x k = handedOut x k z := by
  have hr := releaseLanes (x := raiseFlags (resulted x k z)
    ((gatherOuts z.instr (valued z)).2.foldl (fun f o => f ||| o.2.fl) 0)) ((resulted_frame x k z).1.trans hg) z.arr
  unfold completeGather
  rw [hk]
  simp only [hf, hc, Bool.not_true, Bool.false_eq_true, if_false]
  refine (congrArg (fun w : Wave => (NMap.keys w.groups).foldl settleGroup w) hr).trans ?_
  show (NMap.keys (handedOut x k z).groups).foldl settleGroup (handedOut x k z) = _
  rw [(handedOut_frame x k z).1, hg]
  rfl

/-- A thread that arrived, once its results stand and it has gone on. -/
theorem find_handedOut (x : Wave) (k : Nat) (nd : (z.arr.map Arrival.lane).Nodup) {a : Arrival} (ha : a ∈ z.arr) :
    NMap.find? (handedOut x k z).threads a.lane = (NMap.find? (resulted x k z).threads a.lane).map (released a.lane) := by
  rw [handedOut, find_eachThread _ nd, if_pos (List.mem_map_of_mem ha)]
  rfl

end

/-! ### The obligation -/

/-- Settles O16: results reach lanes that arrived, one each, and every thread that arrived goes on. -/
theorem gatheringDelivers : Obligations.GatheringDelivers := by
  unfold Obligations.GatheringDelivers
  intro s w k x z hw hg hk hf hc nd hh
  have hx := find_modWave_self (fun x => completeGather x k) hw
  rw [completeGather_delivers hg hk hf hc] at hx
  obtain ⟨ndo, hlane⟩ := lanes_results nd
  refine ⟨_, _, rfl, hx, ?gone, fun a ha => ?place, fun o ho r hr => ?result⟩
  case gone =>
    rw [(handedOut_frame x k z).2]
    exact NMap.find?_erase_self ..
  case place =>
    obtain ⟨t, ht⟩ := Option.isSome_iff_exists.mp (hh a ha)
    obtain ⟨u, hu, hpc, hi⟩ : ∃ u, NMap.find? (resulted x k z).threads a.lane = some u ∧ u.pc = t.pc ∧ u.inst = t.inst :=
      find_withOuts_place _ _ ht
    have hd := find_handedOut x k nd ha
    rw [hu] at hd
    rw [thread_of_find hd, thread_of_find ht, ← hpc, ← hi]
    exact ⟨rfl, rfl⟩
  case result =>
    obtain ⟨a, ha, hl⟩ := hlane o ho
    obtain ⟨t, ht⟩ := Option.isSome_iff_exists.mp (hh a ha)
    have hd := find_handedOut x k nd ha
    rw [hl] at ht hd
    have ho' : NMap.find? (resulted x k z).threads o.1 = some (outThread (some (.v r)) o.2 t) := by
      rw [← hr, resulted, find_withOuts _ _ ndo ho]
      exact congrArg _ ht
    rw [ho'] at hd
    refine regsOf_of_words fun i hi => ?_
    show NMap.get 0 (thread (handedOut x k z) o.1).v (r.val + i) = _
    rw [thread_of_find hd]
    show NMap.get 0 (outThread (some (.v r)) o.2 t).v (r.val + i) = _
    rw [outThread_v_v, get_putWords]
    simp [hi]

end Sys2Proof.Machine
end

section
/-!
PROOFS. YIELD, SLEEP and WAITV (R159 to R161, R371): a lone member that waits leaves its group; one load of WAITV's word
from a scratchpad, whole or the rest of one that was cut.
-/
namespace Sys2Proof.Machine

variable {s : State} {x z : Wave} {y : Group} {g l : Nat} {t u : Thread}

/-! ### YIELD (R159, R371) -/

/-- The wave after a YIELD. -/
def yielded (dev : Device) (p : Pred) (g : Nat) (x : Wave) : Wave :=
  let y := leaveGroup x g fun _ => nextClause (group x g)
  if !(performers x (group x g) p).isEmpty && yieldStands dev x then { y with leaving := some true } else y

theorem exec_yield (p : Pred) (s : State) :
    exec (.yield p) s = .next { s with dev := modWave s.dev s.dev.cur.1 (yielded s.dev p s.dev.cur.2) } := rfl

/-- A YIELD chooses the wave where a member performs it and a request stands. -/
theorem yields_iff (dev : Device) (x : Wave) (y : Group) (p : Pred) :
    (!(performers x y p).isEmpty && yieldStands dev x) = true ↔
      (∃ l ∈ y.lanes, performs p (thread x l) = true) ∧ ∃ dl, x.yieldReq = some dl ∧ dev.ticks ≤ dl := by
  have hp : (!(performers x y p).isEmpty) = true ↔ ∃ l ∈ y.lanes, performs p (thread x l) = true := by
    simp [performers]
  have hr : yieldStands dev x = true ↔ ∃ dl, x.yieldReq = some dl ∧ dev.ticks ≤ dl := by
    unfold yieldStands
    split <;> simp [*]
  rw [Bool.and_eq_true, hp, hr]

theorem yield_left (h : Issues s x y) (p : Pred) : ∃ s', exec (.yield p) s = .next s' ∧
    Left s s' y (fun _ => nextClause y) ∧ (after s s').leaving =
      if (∃ l ∈ y.lanes, performs p (thread x l) = true) ∧ (∃ dl, x.yieldReq = some dl ∧ s.dev.ticks ≤ dl)
      then some true else x.leaving := by
  have ha := after_modWave (yielded s.dev p s.dev.cur.2) h.wave
  have hs := wave_setWave_self s.dev s.dev.cur.1 (leaveGroup x s.dev.cur.2 fun _ => nextClause y)
  have hl : Left s { s with dev := setWave s.dev s.dev.cur.1 (leaveGroup x s.dev.cur.2 fun _ => nextClause y) } y _ :=
    left_of_leaveGroup hs h.group h.nodup h.here
  refine ⟨_, exec_yield p s, ?_, ?_⟩
  · rw [Left, after, hs] at hl
    rw [Left, ha, yielded, group_of_find h.group]
    split <;> exact hl
  · rw [ha, yielded, group_of_find h.group]
    by_cases hy : (!(performers x y p).isEmpty && yieldStands s.dev x) = true
    · rw [if_pos ((yields_iff ..).mp hy)]
      simp [hy]
    · rw [if_neg (mt (yields_iff ..).mpr hy)]
      simp only [hy]
      rw [leaveGroup_frame]; rfl

/-! ### A lone member that waits outside its group (R160, R161) -/

theorem waitAlone_only (hg : NMap.find? x.groups g = some y) (hl : y.lanes = [l]) (lead : Bool) (wt : Wait) :
    waitAlone x g l lead wt = modThread (dropGroup x g) l fun t =>
      { t with pc := groupPc y, wait := wt, lead := lead, inst := some y.issued } := by
  rw [waitAlone, leaveLane_only (group_of_find hg) hl, group_of_find hg]

theorem find_waitAlone_only (hg : NMap.find? x.groups g = some y) (hl : y.lanes = [l]) (ht : NMap.find? x.threads l = some t)
    (lead : Bool) (wt : Wait) :
    NMap.find? (waitAlone x g l lead wt).threads l =
      some { t with pc := groupPc y, wait := wt, lead := lead, inst := some y.issued } ∧
    NMap.find? (waitAlone x g l lead wt).groups g = none := by
  rw [waitAlone_only hg hl, find_modThread, if_pos rfl, show (dropGroup x g).threads = x.threads from rfl, ht]
  exact ⟨rfl, by rw [modThread_groups]; exact NMap.find?_erase_self ..⟩

/-- A group that is gone has no member to leave it. -/
theorem leaveGroup_missing (hg : NMap.find? x.groups g = none) (tgt : Nat → DWord) :
    leaveGroup x g tgt = dropGroup x g := by
  have h : group x g = {} := by rw [group, NMap.get, hg]; rfl
  rw [leaveGroup, h]; rfl

/-! ### SLEEP (R160) -/

/-- The wave after a SLEEP. -/
def slept (dev : Device) (p : Pred) (a : Src) (g : Nat) (x : Wave) : Wave :=
  leaveGroup ((performers x (group x g) p).foldl (fun z l =>
    if (rd32 x (thread x l) a).toNat = 0 then z
    else waitAlone z g l false (.sleep (dev.ticks + (rd32 x (thread x l) a).toNat))) x) g fun _ => nextClause (group x g)

theorem exec_sleep (p : Pred) (a : Src) (s : State) :
    exec (.sleep p a) s = .next { s with dev := modWave s.dev s.dev.cur.1 (slept s.dev p a s.dev.cur.2) } := rfl

theorem sleep_alone (h : Alone s x y l t) {p : Pred} (hp : performs p t = true) (a : Src) :
    ∃ s', exec (.sleep p a) s = .next s' ∧ NMap.find? (after s s').groups s.dev.cur.2 = none ∧
      (if rd32 x t a = 0 then
        (thread (after s s') l).pc = nextClause y ∧ (thread (after s s') l).wait = .none
      else
        (thread (after s s') l).pc = groupPc y ∧
        (thread (after s s') l).wait = .sleep (s.dev.ticks + (rd32 x t a).toNat)) := by
  have ha := after_modWave (slept s.dev p a s.dev.cur.2) h.wave
  rw [slept, h.group_eq, h.performers hp, List.foldl_cons, List.foldl_nil, h.thread_eq] at ha
  refine ⟨_, exec_sleep p a s, ?_⟩
  by_cases h0 : rd32 x t a = 0
  · have hn : (rd32 x t a).toNat = 0 := by rw [h0]; rfl
    rw [if_pos hn] at ha
    obtain ⟨hgone, hthread⟩ := left_of_leaveGroup ha h.issues.group h.issues.nodup h.issues.here
    rw [if_pos h0]
    exact ⟨hgone, hthread l (by simp [h.lanes])⟩
  · have hn : (rd32 x t a).toNat ≠ 0 := fun e => h0 (BitVec.eq_of_toNat_eq e)
    obtain ⟨ht, hg⟩ := find_waitAlone_only h.find_group h.lanes h.thread false (.sleep (s.dev.ticks + (rd32 x t a).toNat))
    rw [if_neg hn, leaveGroup_missing hg] at ha
    rw [if_neg h0, ha, thread_of_find (x := dropGroup _ _) ht]
    exact ⟨NMap.find?_erase_self .., rfl, rfl⟩

/-- A thread in no group goes where it is sent. -/
theorem sendLane_alone (hg : x.groups = []) (pc : DWord) : sendLane x l pc = modThread x l fun t => goTo t pc := by
  unfold sendLane
  rw [show groupOf x l = none by simp [groupOf, hg]]

theorem exec_sleepExpiry (w l : Nat) (s : State) : exec (.sleepExpiry w l) s = onWaveDev s w fun dev => wakeSleep dev w l :=
  rfl

theorem threadAt_of_find {dev : Device} {w : Nat} (hw : NMap.find? dev.waves w = some x)
    (ht : NMap.find? x.threads l = some t) : threadAt dev w l = t := by
  rw [threadAt, wave_of_find hw, thread_of_find ht]

theorem sleep_over {w til : Nat} (hw : NMap.find? s.dev.waves w = some x) (hg : x.groups = [])
    (ht : NMap.find? x.threads l = some t) (hs : t.wait = .sleep til) (hd : til ≤ s.dev.ticks) (hr : retained s w = false) :
    ∃ s', exec (.sleepExpiry w l) s = .next s' ∧ (threadAt s'.dev w l).wait = .none ∧
      (threadAt s'.dev w l).pc = clauseAfter t.pc := by
  have he : wakeSleep s.dev w l = modWave s.dev w fun x => sendLane x l (clauseAfter (thread x l).pc) := by
    unfold wakeSleep
    rw [threadAt_of_find hw ht, hs]
    exact if_pos hd
  refine ⟨_, (exec_sleepExpiry w l s).trans (onWaveDev_next hr _), ?_⟩
  have hx := find_modWave_self (fun x => sendLane x l (clauseAfter (thread x l).pc)) hw
  have hf := find_modThread x l l fun u => goTo u (clauseAfter (thread x l).pc)
  rw [if_pos rfl, ht, ← sendLane_alone hg] at hf
  rw [he, threadAt_of_find hx hf, thread_of_find ht]
  exact ⟨rfl, rfl⟩

/-! ### The word in a scratchpad (R200) -/

theorem bytes_add (m : NMap Byte) (a j k : Nat) :
    Memory.bytes m a (j + k) = Memory.bytes m a j ++ Memory.bytes m (a + j) k := by
  simp only [Memory.bytes, List.range_add, List.map_append, List.map_map]
  refine congrArg _ (List.map_congr_left fun i _ => ?_)
  rw [Function.comp, Nat.add_assoc]

/-- The bytes of spans of a scratchpad. -/
def spanBytes (m : NMap Byte) (ls : List (Nat × Nat)) : List Byte := ls.flatMap fun p => Memory.bytes m p.1 p.2

/-- The spans of a word begin at it and hold its bytes. -/
theorem sectorSpans_word (m : NMap Byte) (a : Nat) :
    ∃ k ls, sectorSpans a 4 = (a, k) :: ls ∧ spanBytes m ((a, k) :: ls) = Memory.bytes m a 4 := by
  by_cases h : a % 32 + 4 ≤ 32
  · exact ⟨4, [], sectorSpans_one (by decide) h, by simp [spanBytes]⟩
  · have hq : (a + 4 - 1) / 32 = a / 32 + 1 := by omega
    obtain ⟨j, hj⟩ := Nat.exists_eq_add_of_le (show a ≤ (a / 32 + 1) * 32 by omega)
    obtain ⟨k, hjk⟩ := Nat.exists_eq_add_of_le (show j ≤ 4 by omega)
    have hlo : min (a + 4) ((a / 32 + 1) * 32) - a = j := by omega
    have hhi : min (a + 4) ((a / 32 + 1 + 1) * 32) - (a / 32 + 1) * 32 = k := by
      rw [Nat.min_eq_left (by omega), hj, hjk, ← Nat.add_assoc, Nat.add_sub_cancel_left]
    have hs := bytes_add m a j k
    rw [← hjk, ← hj] at hs
    refine ⟨j, [((a / 32 + 1) * 32, k)], ?_, by simp [spanBytes, hs]⟩
    rw [sectorSpans, if_neg (by decide), hq]
    simp [show a / 32 + 1 - a / 32 = 1 by omega, List.range_succ, hlo, hhi]

/-- Spans as places of workgroup `h`'s scratchpad. -/
def placesIn (h : Nat) (ls : List (Nat × Nat)) : List (Loc × Nat) := ls.map fun p => (.scr h p.1, p.2)

/-- An LD of a word that lies in the scratchpad passes its checks. -/
theorem checkAcc_scratch {w a : Nat} {g : Wg} {r : Rec} {i : Word} {dev : Device} (hi : InScratch s x g r i 0 4 a)
    (hx : (wave dev w).wg = x.wg) (hg : dev.wgs = s.dev.wgs) :
    checkAcc dev w r i.toNat 0 (ldAcc 4) = (.at a (placesIn x.wg (sectorSpans a 4)), dev) := by
  have hf : r.form 4 i.toNat 0 = .at a := hi.form
  have hw : wg dev x.wg = g := by rw [wg, hg]; exact NMap.get_of_find? hi.wg
  have hl : spaceLoc dev x.wg 1 a 4 = some (placesIn x.wg (sectorSpans a 4)) := by
    rw [spaceLoc, if_pos rfl, hw, if_pos hi.fits]; rfl
  have hs : (bitsOf 7 1 1 == 0) = false := by decide
  simp [checkAcc, ldAcc, hi.valid, hf, hi.space, hx, hl, hs]

/-! ### Looking at the word (R161) -/

/-- What looking at a scratchpad leaves of a device: all but timestamps. -/
structure Looked (w : Nat) (dev d : Device) : Prop where
  mem : d.mem = dev.mem
  wgs : d.wgs = dev.wgs
  cores : d.cores = dev.cores
  cut : d.cut = dev.cut
  writes : ∀ o, (stampsOf d o).writes = (stampsOf dev o).writes
  retimes : Retimes w dev d

theorem Looked.trans {w : Nat} {dev d e : Device} (h : Looked w dev d) (k : Looked w d e) : Looked w dev e where
  mem := k.mem.trans h.mem
  wgs := k.wgs.trans h.wgs
  cores := k.cores.trans h.cores
  cut := k.cut.trans h.cut
  writes o := (k.writes o).trans (h.writes o)
  retimes := h.retimes.trans k.retimes

theorem modThreadAt_frame (dev : Device) (w l : Nat) (f : Thread → Thread) :
    modThreadAt dev w l f = { dev with waves := (modThreadAt dev w l f).waves } := by
  rw [modThreadAt, modWave]
  split <;> rfl

theorem looked_stampRead (dev : Device) (w l : Nat) (p : Loc) : Looked w dev (stampRead dev (.lane w l) p) := by
  have hf : stampRead dev (.lane w l) p = { dev with
      waves := (stampRead dev (.lane w l) p).waves
      home := NMap.put dev.home p.homeKey { stampsOf dev p with
        rts := laterTs (stampsOf dev p).rts (readTs dev (.lane w l) (stampsOf dev p).wts (stampsOf dev p).ag) }
      topTs := laterTs dev.topTs (readTs dev (.lane w l) (stampsOf dev p).wts (stampsOf dev p).ag) } :=
    modThreadAt_frame ..
  refine ⟨by rw [hf], by rw [hf], by rw [hf], by rw [hf], fun o => ?_, retimes_stampRead dev w l p⟩
  rw [hf, stampsOf, NMap.get_put]
  split
  next e => rw [stampsOf, ← e]; rfl
  next => rfl

theorem readOne_scratch (dev : Device) (w l : Nat) {h : Nat} (h0 : h ≠ 0) (o n : Nat) :
    readOne dev w l (.scr h o) n = (Memory.bytes (wg dev h).mem o n, stampRead dev (.lane w l) (.scr h o)) := by
  obtain ⟨k, rfl⟩ := Nat.exists_eq_succ_of_ne_zero h0
  rfl

/-- What a thread has seen once it has looked at spans `ls` of workgroup `h`'s scratchpad, `q` before. -/
def seen (dev : Device) (x : Wave) (h : Nat) (ls : List (Nat × Nat)) (q : Watch) : Watch :=
  { locs := q.locs ++ ls.map fun p => (Loc.scr h p.1).sector
    writes := q.writes + writesOf dev (ls.map fun p => (Loc.scr h p.1).sector)
    clk := some (clockOf dev x), rest := [], got := q.got ++ spanBytes (wg dev h).mem ls }

theorem Looked.seen {w : Nat} {dev d : Device} (k : Looked w dev d) (x : Wave) (h : Nat) (ls : List (Nat × Nat)) (q : Watch) :
    seen d x h ls q = seen dev x h ls q := by
  simp only [Machine.seen, writesOf, k.writes, clockOf, core, wg, k.cores, k.wgs]

theorem homeKey_sector (l : Loc) : l.sector.homeKey = l.homeKey := by
  cases l <;> simp [Loc.sector, Loc.homeKey]

/-- The look at one span. -/
theorem look_one (dev : Device) (w l : Nat) (x : Wave) (h : Nat) (p : Nat × Nat) (q : Watch) (r : List (Loc × Nat)) :
    let d := stampRead dev (.lane w l) (.scr h p.1)
    ({ locs := q.locs ++ [(Loc.scr h p.1).sector], writes := q.writes + (stampsOf d (.scr h p.1)).writes
       clk := some (clockOf d x), rest := r, got := q.got ++ Memory.bytes (wg dev h).mem p.1 p.2 } : Watch) =
      { seen dev x h [p] q with rest := r } := by
  have k := looked_stampRead dev w l (.scr h p.1)
  have hw : writesOf dev [(Loc.scr h p.1).sector] = (stampsOf dev (.scr h p.1)).writes := by
    rw [writesOf, List.map_singleton, List.sum_singleton, stampsOf, homeKey_sector]; rfl
  have hc : clockOf (stampRead dev (.lane w l) (.scr h p.1)) x = clockOf dev x := by
    rw [clockOf, core, k.cores]; rfl
  dsimp only
  rw [k.writes, hc, seen, List.map_singleton, hw, spanBytes, List.flatMap_singleton]

section
variable {w h : Nat} (x : Wave) (h0 : h ≠ 0) (p p' : Nat × Nat) (ls : List (Nat × Nat)) (q : Watch) {dev : Device}
include h0

theorem lookOn_last :
    lookOn dev w l x q (placesIn h [p]) = (seen dev x h [p] q, stampRead dev (.lane w l) (.scr h p.1)) := by
  rw [placesIn, List.map_singleton, lookOn, readOne_scratch _ _ _ h0]
  exact congrArg (·, stampRead dev (.lane w l) (.scr h p.1)) (look_one dev w l x h p q [])

theorem lookOn_more (hc : dev.cut = none) :
    lookOn dev w l x q (placesIn h (p :: p' :: ls)) = lookOn (stampRead dev (.lane w l) (.scr h p.1)) w l x
      { seen dev x h [p] q with rest := placesIn h (p' :: ls) } (placesIn h (p' :: ls)) := by
  have hs := spendCut_none ((looked_stampRead dev w l (.scr h p.1)).cut.trans hc)
  rw [placesIn, List.map_cons, lookOn, readOne_scratch _ _ _ h0]
  dsimp only [List.map_cons]
  rw [hs]
  exact congrArg (lookOn (stampRead dev (.lane w l) (.scr h p.1)) w l x · (placesIn h (p' :: ls)))
    (look_one dev w l x h p q _)

omit h0 in
theorem seen_more (r : List (Loc × Nat)) :
    seen dev x h (p' :: ls) { seen dev x h [p] q with rest := r } = seen dev x h (p :: p' :: ls) q := by
  simp [seen, writesOf, spanBytes, Nat.add_assoc]

/-- A load that nothing cuts looks at every span (R200). -/
theorem lookOn_scratch (hc : dev.cut = none) :
    ∃ d, lookOn dev w l x q (placesIn h (p :: ls)) = (seen dev x h (p :: ls) q, d) ∧ Looked w dev d := by
  induction ls generalizing p q dev with
  | nil => exact ⟨_, lookOn_last x h0 p q, looked_stampRead ..⟩
  | cons p' ls ih =>
    have k := looked_stampRead dev w l (.scr h p.1)
    obtain ⟨d, hd, hl⟩ := ih p' { seen dev x h [p] q with rest := placesIn h (p' :: ls) } (k.cut.trans hc)
    refine ⟨d, ?_, k.trans hl⟩
    rw [lookOn_more x h0 p p' ls q hc, hd, k.seen, seen_more]

end

/-! ### What a load comes to (R161) -/

section
variable {w a h : Nat} {dev d1 : Device} {cut : Watch → Wait} {d : Reg} {r : BitVec 256} {i cmp v : Word} {q : Watch}

/-- What a look at a word `v` comes to: sleep, watching `q`, where it is the comparand; a result otherwise. -/
def lookRes (d : Reg) (r : BitVec 256) (i cmp v : Word) (q : Watch) : LaneRes :=
  if v = cmp then .wait (.waitv d r i cmp q) else .done (out32 v)

theorem waitvSaw_seen (x : Wave) (ls : List (Nat × Nat)) :
    waitvSaw cut d r i cmp (seen dev x h ls q, d1) =
      (lookRes d r i cmp (BitVec.ofNat 32 (leNat (q.got ++ spanBytes (wg dev h).mem ls)))
        { seen dev x h ls q with got := [] }, d1) := by
  rw [waitvSaw, if_neg (show ¬ (!(seen dev x h ls q, d1).1.rest.isEmpty) = true from Bool.false_ne_true), lookRes]
  dsimp only
  by_cases e : BitVec.ofNat 32 (leNat (seen dev x h ls q).got) = cmp
  · rw [if_pos e]; exact congrArg (·, d1) (if_pos e).symm
  · rw [if_neg e]; exact congrArg (·, d1) (if_neg e).symm

/-- What a thread watches that has looked at the word at `a` of workgroup `h`'s scratchpad. -/
structure Watches (dev : Device) (x : Wave) (h a : Nat) (q : Watch) : Prop where
  sector : Loc.scr h (a / 32 * 32) ∈ q.locs
  writes : q.writes = writesOf dev q.locs
  clk : q.clk = some (clockOf dev x)

/-- A whole load of a word of the scratchpad. -/
theorem waitvLoad_scratch {g : Wg} (hi : InScratch s x g (recOf r) i 0 4 a) (hx : (wave dev w).wg = x.wg)
    (hg : dev.wgs = s.dev.wgs) (hc : dev.cut = none) :
    ∃ q d1, waitvLoad dev w l x cut d r i cmp =
        (lookRes d r i cmp (BitVec.ofNat 32 (leNat (Memory.bytes g.mem a 4))) q, d1) ∧
      Looked w dev d1 ∧ Watches dev x x.wg a q := by
  have hw : wg dev x.wg = g := by rw [wg, hg]; exact NMap.get_of_find? hi.wg
  obtain ⟨k, ls, hsp, hb⟩ := sectorSpans_word g.mem a
  obtain ⟨d1, hd, hl⟩ := lookOn_scratch (w := w) (l := l) x hi.numbered (a, k) ls {} hc
  refine ⟨{ seen dev x x.wg ((a, k) :: ls) {} with got := [] }, d1, ?_, hl, ?_, ?_, rfl⟩
  · rw [waitvLoad, checkAcc_scratch hi hx hg, hsp]
    dsimp only [onAccess]
    rw [hd, waitvSaw_seen, hw, ← hb]
    rfl
  · simp [seen, Loc.sector]
  · simp [seen]

/-- A look keeps what a thread watches. -/
theorem Watches.of_looked (hq : Watches dev x h a q) (k : Looked w dev d1) : q.writes = writesOf d1 q.locs := by
  rw [hq.writes, writesOf, writesOf]
  simp only [k.writes]

end

/-! ### WAITV of a lone member (R161) -/

/-- A member that sleeps alone leaves its group, which is no more. -/
theorem sleepers_asleep (hg : NMap.find? x.groups g = some y) (hl : y.lanes = [l]) {d : Reg} {r : BitVec 256} {i c : Word}
    {q : Watch} (hw : (thread x l).wait = .waitv d r i c q) :
    sleepers x g = waitAlone x g l (thread x l).lead (thread x l).wait := by
  unfold sleepers
  rw [hg]
  simp only [hl, List.foldl_cons, List.foldl_nil, hw]
  unfold settleGroup
  rw [waitAlone_only hg hl, modThread_groups, show (dropGroup x g).groups = NMap.erase x.groups g from rfl,
    NMap.find?_erase_self]

/-- A group of one whose member has its word has gone on. -/
theorem sleepers_advanced (hg : NMap.find? x.groups g = some y) (hl : y.lanes = [l]) (ht : NMap.find? x.threads l = some t) :
    sleepers (advance x g) g = advance x g := by
  have ha := find_advance hg (by simp [hl]) l
  rw [if_pos (by simp [hl]), ht, Option.map_some] at ha
  have hga := group_advance hg
  unfold sleepers
  by_cases hi : y.index < y.hdr.count
  · rw [if_pos hi] at hga ha
    rw [hga]
    simp only [hl, List.foldl_cons, List.foldl_nil, thread_of_find ha]
    exact settleGroup_advanced hg hl (by rw [ht]; rfl)
  · rw [if_neg hi] at hga
    rw [hga]

/-- The device after a WAITV. -/
def waitedFor (p : Pred) (d : Reg) (r : DReg) (i c : Src) (dev : Device) : Device :=
  modWave (members dev p (some d) (waitvMember dev.cur.1 d r i c)) dev.cur.1 fun x => sleepers x dev.cur.2

theorem exec_waitv (p : Pred) (d : Reg) (r : DReg) (i c : Src) (s : State) :
    exec (.waitv p d r i c) s = .next { s with dev := waitedFor p d r i c s.dev } := rfl

theorem modWave_setWave (dev : Device) (w : Nat) (z : Wave) (f : Wave → Wave) :
    modWave (setWave dev w z) w f = setWave dev w (f z) := by
  rw [modWave_of_find (z := z) f (NMap.find?_put_self ..), setWave, setWave]
  simp only [setWave, NMap.put_put]

section
variable {p : Pred} {d : Reg} {r : DReg} {i c : Src} {d1 : Device}

/-- The wave of a lone member once it has looked. -/
theorem looked_begun (h : Alone s x y l t) (k : Looked s.dev.cur.1 (begunDev s x y l) d1) :
    ∃ z u, NMap.find? d1.waves s.dev.cur.1 = some z ∧ NMap.find? z.threads l = some u ∧ u.v = t.v ∧ z.fatal = none ∧
      NMap.find? z.groups s.dev.cur.2 =
        some { y with began := true, lead := some l, s0 := x.s, d0 := x.d, mask := laneMask [l] } := by
  obtain ⟨hz, hg, ht, hq⟩ := h.begun_facts
  obtain ⟨z, hz1, hsame, hthreads⟩ := k.retimes _ hz
  obtain ⟨u, hu, hre⟩ := hthreads l _ ht
  rw [Retimed] at hre
  exact ⟨z, u, hz1, hu, by rw [hre], by rw [hsame]; exact hq, by rw [hsame]; exact hg⟩

/-- A lone member whose word is the comparand sleeps, in no group. -/
theorem waitv_asleep (h : Alone s x y l t) (hp : performs p t = true) (k : Looked s.dev.cur.1 (begunDev s x y l) d1)
    {rc : BitVec 256} {iv cv : Word} {q : Watch}
    (hf : waitvMember s.dev.cur.1 d r i c (begunDev s x y l) x t l = (.wait (.waitv d rc iv cv q), d1)) :
    ∃ z, waitedFor p d r i c s.dev = setWave d1 s.dev.cur.1 z ∧ NMap.find? z.groups s.dev.cur.2 = none ∧
      (thread z l).pc = groupPc y ∧ (thread z l).wait = .waitv d rc iv cv q ∧ (thread z l).v = t.v := by
  obtain ⟨z, u, hz, hu, hv, hq, hg⟩ := looked_begun h k
  have hm := members_wait h hp (some d) (wt := .waitv d rc iv cv q) nofun hf hz hg h.lanes hu hq
  generalize hn : members.noteAfter (modThread z l _) s.dev.cur.2 _ = z1 at hm
  have ht1 : NMap.find? z1.threads l = some { u with wait := .waitv d rc iv cv q, lead := true } := by
    rw [← hn, noteAfter_threads, find_modThread, if_pos rfl, hu]; rfl
  obtain ⟨y1, hg1, hl1, hpc⟩ : ∃ y1, NMap.find? z1.groups s.dev.cur.2 = some y1 ∧ y1.lanes = [l] ∧ groupPc y1 = groupPc y := by
    rw [← modThread_groups z l fun t => { t with wait := .waitv d rc iv cv q, lead := true }] at hg
    rcases noteAfter_eq hg (lastActor d1 s.dev.cur.1 l t.evSeq) with e | e <;> rw [hn] at e
    · have hg1 := (congrArg (fun z => NMap.find? z.groups s.dev.cur.2) e).trans hg
      exact ⟨_, hg1, h.lanes, rfl⟩
    · have hg1 := (congrArg (fun z => NMap.find? z.groups s.dev.cur.2) e).trans (NMap.find?_put_self ..)
      exact ⟨_, hg1, h.lanes, rfl⟩
  obtain ⟨hf1, hgone⟩ := find_waitAlone_only hg1 hl1 ht1 (thread z1 l).lead (thread z1 l).wait
  refine ⟨_, ?_, hgone, ?_, ?_, ?_⟩
  · rw [waitedFor, hm, modWave_setWave, sleepers_asleep hg1 hl1 (by rw [thread_of_find ht1])]
  · rw [thread_of_find hf1]; exact hpc
  · rw [thread_of_find hf1, thread_of_find ht1]
  · rw [thread_of_find hf1]; exact hv

/-- A lone member whose word differs has it, and its group goes on. -/
theorem waitv_differs (h : Alone s x y l t) (hp : performs p t = true) (k : Looked s.dev.cur.1 (begunDev s x y l) d1) {v : Word}
    (hf : waitvMember s.dev.cur.1 d r i c (begunDev s x y l) x t l = (.done (out32 v), d1)) :
    ∃ z, waitedFor p d r i c s.dev = setWave d1 s.dev.cur.1 z ∧
      Passed s { s with dev := setWave d1 s.dev.cur.1 z } y ∧
      regsOf (after s { s with dev := setWave d1 s.dev.cur.1 z }) l d 1 = [v] := by
  obtain ⟨z, u, hz, hu, -, hq, hg⟩ := looked_begun h k
  have hm := members_done h hp (some d) hf hz hg h.lanes hu hq
  have hu1 := find_applyRes_done hu true (some d) (laneMask [l]) d1.parkSeq (out32 v)
  have hg1 := (congrArg (fun gs => NMap.find? gs s.dev.cur.2) (applyRes_done_groups z l true (some d) (laneMask [l]) d1.parkSeq
    (out32 v))).trans hg
  have hs := NMap.find?_put_self d1.waves s.dev.cur.1
    (advance (applyRes z l true (some d) (laneMask [l]) d1.parkSeq (.done (out32 v))) s.dev.cur.2)
  refine ⟨_, ?_, passed_advance hs hg1 h.issues.nodup fun j hj => ?_, regsOf_done (o := out32 v) _ _ hs hg h.lanes hu⟩
  · rw [waitedFor, hm, modWave_setWave, sleepers_advanced hg1 h.lanes hu1]
  · rw [h.lanes, List.mem_singleton] at hj
    subst hj
    rw [hu1]
    rfl

end

theorem waitv_alone (h : Alone s x y l t) {p : Pred} (hp : performs p t = true) (d : Reg) {r : DReg} {i : Src} (c : Src)
    {g : Wg} {a : Nat} (hi : InScratch s x g (recOf (rdRec x r)) (rd32 x t i) 0 4 a) :
    let w := BitVec.ofNat 32 (leNat (Memory.bytes g.mem a 4))
    ∃ s', exec (.waitv p d r i c) s = .next s' ∧ s'.dev.mem = s.dev.mem ∧ s'.dev.wgs = s.dev.wgs ∧
      if w = rd32 x t c then
        NMap.find? (after s s').groups s.dev.cur.2 = none ∧ (thread (after s s') l).pc = groupPc y ∧
        (∃ wt : Watch, (thread (after s s') l).wait = .waitv d (rdRec x r) (rd32 x t i) (rd32 x t c) wt ∧
          Loc.scr x.wg (a / 32 * 32) ∈ wt.locs ∧ wt.writes = writesOf s'.dev wt.locs ∧ wt.clk = some (clockOf s.dev x)) ∧
        (thread (after s s') l).v = t.v
      else Passed s s' y ∧ regsOf (after s s') l d 1 = [w] := by
  intro w
  have hx : (wave (begunDev s x y l) s.dev.cur.1).wg = x.wg := by
    rw [wave_of_find h.begun_facts.1, begun, setGroup, modThread_eq]
  obtain ⟨q, d1, hload, k, hq⟩ := waitvLoad_scratch (w := s.dev.cur.1) (l := l) (dev := begunDev s x y l) (cut := .look) (d := d)
    (cmp := rd32 x t c) hi hx rfl h.whole.1
  have hmem : waitvMember s.dev.cur.1 d r i c (begunDev s x y l) x t l =
      (lookRes d (rdRec x r) (rd32 x t i) (rd32 x t c) w q, d1) := by
    rw [waitvMember, h.running.2]; exact hload
  refine ⟨_, exec_waitv p d r i c s, ?_⟩
  by_cases e : w = rd32 x t c
  · rw [lookRes, if_pos e] at hmem
    obtain ⟨z, hdev, hg, hpc, hwt, hv⟩ := waitv_asleep h hp k hmem
    have ha : after s { s with dev := setWave d1 s.dev.cur.1 z } = z := wave_setWave_self ..
    rw [hdev, if_pos e, ha]
    exact ⟨k.mem, k.wgs, hg, hpc, ⟨q, hwt, hq.sector, (hq.of_looked k : q.writes = writesOf d1 q.locs), hq.clk⟩, hv⟩
  · rw [lookRes, if_neg e] at hmem
    obtain ⟨z, hdev, hpass, hregs⟩ := waitv_differs h hp k hmem
    rw [hdev, if_neg e]
    exact ⟨k.mem, k.wgs, hpass, hregs⟩

/-! ### A sleeping WAITV that loads again (R161, R200) -/

section
variable {w a h o n : Nat} {g : Wg} {d : Reg} {r : BitVec 256} {i c v : Word} {q q' : Watch} {d1 : Device}

theorem exec_waitvRecheck (w l : Nat) (s : State) :
    exec (.waitvRecheck w l) s = onWaveDev s w fun dev => recheckWaitv dev w l := rfl

/-- A thread asleep by itself on a resident wave, its wait over or cut. -/
structure Sleeps (s : State) (w l : Nat) (x : Wave) (t : Thread) (d : Reg) (r : BitVec 256) (i c : Word) (q : Watch) : Prop where
  wave : NMap.find? s.dev.waves w = some x
  groups : x.groups = []
  moves : x.resident = true ∧ retained s w = false
  thread : NMap.find? x.threads l = some t
  runs : t.run = .run
  waits : t.wait = .waitv d r i c q
  whole : s.dev.cut = none
  leads : (∃ k, d = .v k) ∨ t.lead = true
  last : NotLater x (issueOrd x l) d 1

theorem recheckWaitv_eq (hw : NMap.find? s.dev.waves w = some x) (ht : NMap.find? x.threads l = some t)
    (hs : t.wait = .waitv d r i c q) :
    recheckWaitv s.dev w l = if x.resident && t.run == .run && waitvDue s.dev x q then waitvTry s.dev w l d r i c q else s.dev := by
  unfold recheckWaitv
  simp only [wave_of_find hw, thread_of_find ht, hs]

/-- A sleep that is not over goes on. -/
theorem waitv_sleepsOn (hw : NMap.find? s.dev.waves w = some x) (ht : NMap.find? x.threads l = some t)
    (hs : t.wait = .waitv d r i c q) (hd : waitvDue s.dev x q = false) : exec (.waitvRecheck w l) s = .next s := by
  have he : recheckWaitv s.dev w l = s.dev := by
    rw [recheckWaitv_eq hw ht hs, hd, Bool.and_false, if_neg Bool.false_ne_true]
  rw [exec_waitvRecheck, onWaveDev, he]
  split <;> rfl

theorem waitvDue_false (hr : q.rest = []) (hw : writesOf s.dev q.locs = q.writes)
    (hc : ∃ n, q.clk = some n ∧ clockOf s.dev x < n + 1024) : waitvDue s.dev x q = false := by
  obtain ⟨n, hn, hlt⟩ := hc
  simp [waitvDue, hr, hw, hn, hlt]

theorem waitvDue_true (h : writesOf s.dev q.locs ≠ q.writes ∨ ∃ n, q.clk = some n ∧ n + 1024 ≤ clockOf s.dev x) :
    waitvDue s.dev x q = true := by
  unfold waitvDue
  rcases h with h | ⟨n, hn, hle⟩
  · simp [h]
  · simp [hn, hle]

/-- A sleep that is over loads again. -/
theorem exec_waitvRecheck_due (hs : Sleeps s w l x t d r i c q) (hd : waitvDue s.dev x q = true) :
    exec (.waitvRecheck w l) s = .next { s with dev := waitvTry s.dev w l d r i c q } := by
  have he : recheckWaitv s.dev w l = waitvTry s.dev w l d r i c q := by
    rw [recheckWaitv_eq hs.wave hs.thread hs.waits, hd, hs.moves.1, hs.runs]; rfl
  rw [exec_waitvRecheck, onWaveDev_next hs.moves.2, he]

theorem find_writeLate {z : Wave} {u : Thread} (hu : NMap.find? z.threads l = some u) (o : LaneOut) :
    NMap.find? (writeLate z l (some d) o).threads l = some (outThread (some d) o u) := by
  rw [writeLate, keepLater_threads, writeOut_eq, find_modThread, if_pos rfl, hu]; rfl

/-- The destination of a late result has it where no later instruction has written it (R111). -/
theorem regsOf_writeLate {z : Wave} {u : Thread} (hu : NMap.find? z.threads l = some u) (hl : (∃ k, d = .v k) ∨ u.lead = true)
    (hn : NotLater z (issueOrd z l) d 1) (v : Word) (pc : DWord) :
    regsOf (modThread (writeLate z l (some d) (out32 v)) l fun t => goTo t pc) l d 1 = [v] := by
  have hf := find_modThread (writeLate z l (some d) (out32 v)) l l fun t => goTo t pc
  rw [if_pos rfl, find_writeLate hu] at hf
  refine regsOf_of_words (ws := [v]) fun j hj => ?_
  obtain rfl : j = 0 := Nat.lt_one_iff.mp hj
  rw [thread_of_find hf]
  rcases d with k | k
  · show NMap.get 0 (outThread _ _ u).v (k.val + 0) = v
    rw [outThread_v_v, get_putWords]
    simp [out32]
  · have hlead : u.lead = true := by simpa using hl
    have hk := hn k rfl k.val le_rfl (Nat.lt_succ_self _)
    show NMap.get 0 (modThread (writeLate z l (some (.s k)) (out32 v)) l _).s k.val = v
    rw [modThread_s, writeLate, get_keepLater_s, if_neg (by omega), thread_of_find hu, writeOut_eq, modThread_s, outS, hlead,
      if_pos rfl, get_putWords]
    simp [out32]

/-- A look leaves where the sleeping thread stands and what it may write. -/
theorem Sleeps.looked (hs : Sleeps s w l x t d r i c q) (k : Looked w s.dev d1) :
    ∃ z u, NMap.find? d1.waves w = some z ∧ NMap.find? z.threads l = some u ∧ u.pc = t.pc ∧ z.groups = [] ∧
      ((∃ k, d = .v k) ∨ u.lead = true) ∧ NotLater z (issueOrd z l) d 1 := by
  obtain ⟨z, hz, hsame, hthreads⟩ := k.retimes _ hs.wave
  obtain ⟨u, hu, hre⟩ := hthreads l _ hs.thread
  rw [Retimed] at hre
  have hgz : z.groups = [] := by rw [hsame]; exact hs.groups
  have hord : issueOrd z l = issueOrd x l := by
    have hzi : z.issues = x.issues := by rw [hsame]
    have hui : u.inst = t.inst := by rw [hre]
    rw [issueOrd, issueOrd, instOf, instOf, groupOf, groupOf, hgz, hs.groups, thread_of_find hu, thread_of_find hs.thread, hzi]
    dsimp only [List.find?_nil, Option.map_none]
    rw [hui]
  have hwr : z.wrote = x.wrote := by rw [hsame]
  refine ⟨z, u, hz, hu, by rw [hre], hgz, hs.leads.imp id fun e => by rw [hre]; exact e, ?_⟩
  rw [NotLater, hord, hwr]
  exact hs.last

/-- What a load that saw `v` leaves of its thread. -/
theorem waitvTry_lookRes (hs : Sleeps s w l x t d r i c q) (k : Looked w s.dev d1)
    (hl : (if q.rest.isEmpty then waitvLoad s.dev w l x (.waitv d r i c) d r i c
      else waitvSaw (.waitv d r i c) d r i c (lookOn s.dev w l x q q.rest)) = (lookRes d r i c v q', d1)) :
    ∃ d2, waitvTry s.dev w l d r i c q = d2 ∧ d2.mem = s.dev.mem ∧ d2.wgs = s.dev.wgs ∧
      if v = c then (threadAt d2 w l).wait = .waitv d r i c q' ∧ (threadAt d2 w l).pc = t.pc
      else (threadAt d2 w l).wait = .none ∧ (threadAt d2 w l).pc = clauseAfter t.pc ∧ regsOf (wave d2 w) l d 1 = [v] := by
  obtain ⟨z, u, hz, hu, hpc, hgz, hlead, hlast⟩ := hs.looked k
  by_cases e : v = c
  · have ht : waitvTry s.dev w l d r i c q = modThreadAt d1 w l fun t => { t with wait := .waitv d r i c q' } := by
      unfold waitvTry
      simp only [spendCut_none hs.whole, wave_of_find hs.wave, hl, lookRes, if_pos e]
      rfl
    have hf := find_modThread z l l fun t => { t with wait := .waitv d r i c q' }
    rw [if_pos rfl, hu] at hf
    refine ⟨_, ht, ?_, ?_, ?_⟩
    · rw [modThreadAt_frame]; exact k.mem
    · rw [modThreadAt_frame]; exact k.wgs
    · rw [if_pos e, modThreadAt, threadAt_of_find (find_modWave_self _ hz) hf]
      exact ⟨rfl, hpc⟩
  · have hgw : (writeLate z l (some d) (out32 v)).groups = [] := by
      rw [writeLate, keepLater_groups, writeOut_eq, modThread_groups]; exact hgz
    have ht : waitvTry s.dev w l d r i c q = setWave d1 w
        (modThread (writeLate z l (some d) (out32 v)) l fun t' => goTo t' (clauseAfter t.pc)) := by
      rw [← hpc, ← thread_of_find hu, ← sendLane_alone hgw, ← modWave_of_find (fun z => sendLane (writeLate z l (some d) (out32 v))
        l (clauseAfter (thread z l).pc)) hz]
      unfold waitvTry
      simp only [spendCut_none hs.whole, wave_of_find hs.wave, hl, lookRes, if_neg e]
      rfl
    have hf := find_modThread (writeLate z l (some d) (out32 v)) l l fun t' => goTo t' (clauseAfter t.pc)
    rw [if_pos rfl, find_writeLate hu] at hf
    refine ⟨_, ht, k.mem, k.wgs, ?_⟩
    rw [if_neg e, threadAt, wave_setWave_self, thread_of_find hf]
    exact ⟨rfl, rfl, regsOf_writeLate hu hlead hlast v _⟩

end

/-! ### The obligation -/

section
variable {w a h o n : Nat} {g : Wg} {d : Reg} {r : BitVec 256} {i c : Word} {q : Watch}

/-- A sleep that is over: the word is loaded whole. -/
theorem waitv_again (hs : Sleeps s w l x t d r i c q) (hr : q.rest = []) (hd : waitvDue s.dev x q = true)
    (hi : InScratch s x g (recOf r) i 0 4 a) :
    let u := BitVec.ofNat 32 (leNat (Memory.bytes g.mem a 4))
    ∃ s', exec (.waitvRecheck w l) s = .next s' ∧ s'.dev.mem = s.dev.mem ∧ s'.dev.wgs = s.dev.wgs ∧
      if u = c then (∃ wt' : Watch, (threadAt s'.dev w l).wait = .waitv d r i c wt' ∧ wt'.clk = some (clockOf s.dev x)) ∧
        (threadAt s'.dev w l).pc = t.pc
      else (threadAt s'.dev w l).wait = .none ∧ (threadAt s'.dev w l).pc = clauseAfter t.pc ∧
        regsOf (wave s'.dev w) l d 1 = [u] := by
  intro u
  obtain ⟨q', d1, hload, k, hq⟩ := waitvLoad_scratch (w := w) (l := l) (dev := s.dev) (cut := .waitv d r i c) (d := d)
    (cmp := c) hi (by rw [wave_of_find hs.wave]) rfl hs.whole
  obtain ⟨d2, htry, hmem, hwgs, hres⟩ := waitvTry_lookRes hs k (by rw [hr]; exact hload)
  refine ⟨_, exec_waitvRecheck_due hs hd, ?_⟩
  rw [htry]
  refine ⟨hmem, hwgs, ?_⟩
  by_cases e : u = c
  · rw [if_pos e] at hres ⊢
    exact ⟨⟨q', hres.1, hq.clk⟩, hres.2⟩
  · rw [if_neg e] at hres ⊢
    exact hres

/-- A load that was cut goes on with its last sector. -/
theorem waitv_rest (hs : Sleeps s w l x t d r i c q) (hr : q.rest = [(.scr h o, n)]) (h0 : h ≠ 0) :
    let u := BitVec.ofNat 32 (leNat (q.got ++ Memory.bytes (wg s.dev h).mem o n))
    ∃ s', exec (.waitvRecheck w l) s = .next s' ∧ s'.dev.mem = s.dev.mem ∧ s'.dev.wgs = s.dev.wgs ∧
      if u = c then (∃ wt' : Watch, (threadAt s'.dev w l).wait = .waitv d r i c wt' ∧ wt'.rest = [] ∧
          (Loc.scr h o).sector ∈ wt'.locs ∧ wt'.clk = some (clockOf s.dev x)) ∧
        (threadAt s'.dev w l).pc = t.pc
      else (threadAt s'.dev w l).wait = .none ∧ (threadAt s'.dev w l).pc = clauseAfter t.pc ∧
        regsOf (wave s'.dev w) l d 1 = [u] := by
  intro u
  obtain ⟨d1, hlook, k⟩ := lookOn_scratch (w := w) (l := l) x h0 (o, n) [] q hs.whole
  have hload := (congrArg (waitvSaw (.waitv d r i c) d r i c) hlook).trans (waitvSaw_seen x _)
  rw [spanBytes, List.flatMap_singleton] at hload
  obtain ⟨d2, htry, hmem, hwgs, hres⟩ := waitvTry_lookRes hs k (by rw [hr]; exact hload)
  refine ⟨_, exec_waitvRecheck_due hs (by simp [waitvDue, hr]), ?_⟩
  rw [htry]
  refine ⟨hmem, hwgs, ?_⟩
  by_cases e : u = c
  · rw [if_pos e] at hres ⊢
    exact ⟨⟨_, hres.1, rfl, by simp [seen], rfl⟩, hres.2⟩
  · rw [if_neg e] at hres ⊢
    exact hres

end

/-- Settles O18: YIELD is a group that leaves; SLEEP and an equal word leave a lone thread waiting outside its group; a load
of WAITV's word reads its one or two sectors and changes timestamps alone. -/
theorem timedWaits : Obligations.TimedWaits := by
  unfold Obligations.TimedWaits
  refine ⟨fun s x y p h => yield_left h p,
    ⟨fun s x y l t p a h hp => sleep_alone h hp a, fun s w l x t til hw hg ht hs hd hr => sleep_over hw hg ht hs hd hr⟩,
    fun s x y l t p d r i c g a h hp hi => waitv_alone h hp d c hi, ?early, ?again, ?rest⟩
  case early =>
    intro s w l x t d r i c wt hw ht hs hr hq hc
    exact waitv_sleepsOn hw ht hs (waitvDue_false hr hq hc)
  case again =>
    intro s w l x t d r i c wt g a hw hg hres hret ht hrun hs hr hcut hdue hi hlead hlast
    exact waitv_again ⟨hw, hg, ⟨hres, hret⟩, ht, hrun, hs, hcut, hlead, hlast⟩ hr (waitvDue_true hdue) hi
  case rest =>
    intro s w l x t d r i c wt h o n hw hg hres hret ht hrun hs hr h0 hcut hlead hlast
    exact waitv_rest ⟨hw, hg, ⟨hres, hret⟩, ht, hrun, hs, hcut, hlead, hlast⟩ hr h0

end Sys2Proof.Machine
end

section
/-!
PROOFS. EXIT (R157, R373): no step of an exit, and of the kill that a fatal fault in it leads to, lets a thread that has ended
run again; for a thread without registrations it is one change of its wave.
-/
namespace Sys2Proof.Machine

/-! ### Maps -/

theorem NMap.find?_of_mem_nodup {α : Type} {m : NMap α} (nd : (m.map Prod.fst).Nodup) {p : Nat × α} (h : p ∈ m) :
    NMap.find? m p.1 = some p.2 := by
  induction m with
  | nil => exact absurd h List.not_mem_nil
  | cons q r ih =>
    obtain ⟨hq, nd⟩ := List.nodup_cons.mp nd
    rw [NMap.find?]
    rcases List.mem_cons.mp h with rfl | h
    · exact if_pos rfl
    · rw [if_neg fun e : q.1 = p.1 => hq (e ▸ List.mem_map_of_mem h)]
      exact ih nd h

/-- What is listed at another key stays listed. -/
theorem NMap.mem_put_of_ne {α : Type} {m : NMap α} {p : Nat × α} (h : p ∈ m) {k : Nat} (hk : p.1 ≠ k) (v : α) :
    p ∈ NMap.put m k v := by
  induction m with
  | nil => exact absurd h List.not_mem_nil
  | cons q r ih =>
    obtain ⟨j, u⟩ := q
    rw [NMap.put]
    rcases List.mem_cons.mp h with rfl | h
    · split
      · exact List.mem_cons_of_mem _ List.mem_cons_self
      · rw [if_neg (Ne.symm hk)]
        exact List.mem_cons_self
    · split
      · exact List.mem_cons_of_mem _ (List.mem_cons_of_mem _ h)
      · split
        · exact List.mem_cons_of_mem _ h
        · exact List.mem_cons_of_mem _ (ih h)

/-! ### One thread of a wave -/

theorem alive_of_run {t u : Thread} (h : u.run = t.run) : alive u = alive t := by rw [alive, alive, h]

/-- Lane `l` has arrived at no gathering of the wave. -/
def Absent (l : Nat) (x : Wave) : Prop := ∀ q ∈ x.gathers, ∀ a ∈ q.2.arr, a.lane ≠ l

/-- `z` is in the workgroup of `x`, with no gathering more, and its thread `l` runs only where that of `x` did. -/
structure Still (l : Nat) (x z : Wave) : Prop where
  wg : z.wg = x.wg
  gathers : ∀ q ∈ z.gathers, q ∈ x.gathers
  alive : ∀ u, NMap.find? z.threads l = some u → alive u = true → ∃ t, NMap.find? x.threads l = some t ∧ alive t = true

section
variable {l m g : Nat} {x z u : Wave}

theorem Still.refl (l : Nat) (x : Wave) : Still l x x := ⟨rfl, fun _ => id, fun t ht ha => ⟨t, ht, ha⟩⟩

theorem Still.trans (h : Still l x z) (k : Still l z u) : Still l x u := by
  refine ⟨k.wg.trans h.wg, fun q hq => h.gathers q (k.gathers q hq), fun v hv ha => ?_⟩
  obtain ⟨t, ht, ha⟩ := k.alive v hv ha
  exact h.alive t ht ha

/-- A change of neither workgroup, gatherings nor threads. -/
theorem Still.of_same (hw : z.wg = x.wg) (hg : z.gathers = x.gathers) (ht : z.threads = x.threads) : Still l x z :=
  ⟨hw, fun _ hq => hg ▸ hq, fun t h ha => ⟨t, ht ▸ h, ha⟩⟩

theorem Still.absent (h : Still l x z) (ha : Absent l x) : Absent l z := fun q hq => ha q (h.gathers q hq)

theorem still_foldl {α : Type} {f : Wave → α → Wave} (ls : List α) (h : ∀ z, ∀ a ∈ ls, Still l z (f z a)) (x : Wave) :
    Still l x (ls.foldl f x) :=
  List.foldlRecOn (motive := Still l x) ls f (.refl l x) fun _ hz a ha => hz.trans (h _ a ha)

/-- A change of a thread that sets none running. -/
theorem still_modThread (x : Wave) (m : Nat) {f : Thread → Thread} (hf : ∀ t, alive (f t) = true → alive t = true) :
    Still l x (modThread x m f) := by
  refine ⟨by rw [modThread_eq], fun _ hq => by rwa [modThread_eq] at hq, fun u hu ha => ?_⟩
  rw [find_modThread] at hu
  split at hu
  next e =>
    obtain ⟨t, ht, rfl⟩ := Option.map_eq_some_iff.mp hu
    exact ⟨t, e ▸ ht, hf t ha⟩
  next => exact ⟨u, hu, ha⟩

/-- A change of another thread. -/
theorem still_modThread_other (x : Wave) (hm : m ≠ l) (f : Thread → Thread) : Still l x (modThread x m f) := by
  refine ⟨by rw [modThread_eq], fun _ hq => by rwa [modThread_eq] at hq, fun u hu ha => ⟨u, ?_, ha⟩⟩
  rwa [find_modThread, if_neg (Ne.symm hm)] at hu

theorem still_leaveGroup (x : Wave) (g : Nat) (tgt : Nat → DWord) : Still l x (leaveGroup x g tgt) :=
  (still_foldl (group x g).lanes (fun z m _ => still_modThread z m (f := fun t => goTo t (tgt m)) fun _ => id) x).trans
    (.of_same rfl rfl rfl)

theorem still_leaveLane (x : Wave) (g m : Nat) : Still l x (leaveLane x g m) := by
  unfold leaveLane
  dsimp only
  split
  · exact .of_same rfl rfl rfl
  · exact .of_same rfl rfl rfl

theorem still_leaveOwn (x : Wave) (m : Nat) :
    Still l x (match groupOf x m with | some g => leaveLane x g m | none => x) := by
  split
  · exact still_leaveLane ..
  · exact .refl ..

theorem still_advance (x : Wave) (g : Nat) : Still l x (advance x g) := by
  unfold advance
  dsimp only
  split
  · exact (still_foldl (group x g).lanes (fun z m _ => still_modThread z m
      (f := fun t => { t with wait := .none, lead := false }) fun _ => id) x).trans (.of_same rfl rfl rfl)
  · exact still_leaveGroup ..

theorem still_settleGroup (x : Wave) (g : Nat) : Still l x (settleGroup x g) := by
  unfold settleGroup
  split
  · exact .refl ..
  · split
    · exact .of_same rfl rfl rfl
    · split
      · exact still_advance ..
      · exact .refl ..

theorem still_raiseFault (x : Wave) (hm : m ≠ l) (code : Nat) (addr : DWord) (user : Nat) (mask : DWord) :
    Still l x (raiseFault x m code addr user mask) := by
  have hx := (still_leaveOwn (l := l) x m).trans (still_modThread_other _ hm fun t =>
    { t with run := .fault code, pc := pcOf x m, tpc := pcOf x m, taddr := addr, wait := .none, lead := false, mark := .none
             inst := none })
  unfold raiseFault
  dsimp only
  split
  · exact hx.trans (.of_same rfl rfl rfl)
  · exact hx.trans (.of_same rfl rfl rfl)

/-- The failure of gatherings that do not have lane `l` is nothing to it (R144). -/
theorem still_failGather (ha : Absent l x) {ks : List Nat} : Still l x (failGather x ks []) := by
  have harr (k : Nat) : ∀ a ∈ (NMap.get {} x.gathers k).arr, a.lane ≠ l := by
    unfold NMap.get
    cases hq : NMap.find? x.gathers k with
    | none => exact nofun
    | some q => exact ha _ (mem_of_find? hq)
  have hgone : Still l x { x with gathers := ks.foldl NMap.erase x.gathers } := by
    refine ⟨rfl, ?_, fun t ht ha => ⟨t, ht, ha⟩⟩
    exact List.foldlRecOn (motive := fun gs => ∀ q ∈ gs, q ∈ x.gathers) ks NMap.erase (fun _ => id)
      fun gs hgs k _ q hq => hgs q (NMap.mem_of_mem_erase hq)
  unfold failGather
  dsimp only
  refine (hgone.trans (still_foldl _ (fun z a hz => still_raiseFault z ?_ ..) _)).trans
    (still_foldl _ (fun z g _ => still_settleGroup z g) _)
  rw [mem_sortBy, List.nil_append, List.mem_map] at hz
  obtain ⟨b, hb, rfl⟩ := hz
  obtain ⟨k, -, hb⟩ := List.mem_flatMap.mp hb
  exact harr k b hb

theorem still_failGathers (ha : Absent l x) (m : Nat) : Still l x (failGathers x m) := by
  unfold failGathers
  refine List.foldlRecOn (motive := Still l x) x.gathers _ (.refl l x) fun z hz p _ => ?_
  split
  · exact hz.trans (still_failGather (hz.absent ha))
  · exact hz

end

/-! ### Events of an agent: of the waves they change at most its thread -/

/-- From `dev` to `d` the waves have changed by events of `who` alone: where that is a thread, by changes of it that leave
its run. -/
inductive Touches (who : Who) (dev : Device) : Device → Prop
  | refl : Touches who dev dev
  | rest {d e : Device} (h : Touches who dev d) (he : e.waves = d.waves) : Touches who dev e
  | thread {d : Device} {w l : Nat} (h : Touches who dev d) (hw : who = .lane w l) (f : Thread → Thread)
      (hf : ∀ t, (f t).run = t.run) : Touches who dev (modThreadAt d w l f)

section
variable {who : Who} {dev d e : Device}

theorem Touches.of_waves (h : d.waves = dev.waves) : Touches who dev d := .rest .refl h

theorem Touches.trans (h : Touches who dev d) (k : Touches who d e) : Touches who dev e := by
  induction k with
  | refl => exact h
  | rest _ he ih => exact .rest ih he
  | thread _ hw f hf ih => exact .thread ih hw f hf

theorem touches_foldl {α : Type} {f : Device → α → Device} (h : ∀ d a, Touches who d (f d a)) (ls : List α) (dev : Device) :
    Touches who dev (ls.foldl f dev) :=
  List.foldlRecOn (motive := Touches who dev) ls f .refl fun _ hd a _ => hd.trans (h _ a)

theorem touches_setPts (dev : Device) (who : Who) (n : DWord) : Touches who dev (setPts dev who n) := by
  cases who with
  | lane w l => exact .thread .refl rfl _ fun _ => rfl
  | _ => exact .of_waves rfl

theorem touches_raisePts (dev : Device) (who : Who) (n : Nat) : Touches who dev (raisePts dev who n) := by
  cases who with
  | lane w l => exact .thread .refl rfl _ fun _ => rfl
  | _ => exact .of_waves rfl

theorem touches_stampWrite (dev : Device) (who : Who) (o : Loc) : Touches who dev (stampWrite dev who o) := by
  unfold stampWrite
  refine Touches.trans (.of_waves ?_) (touches_setPts ..)
  rfl

theorem putByte_waves (dev : Device) (o : Loc) (b : Byte) : (putByte dev o b).waves = dev.waves := by
  cases o with
  | glob a => rfl
  | scr g a => exact modWg_waves ..

theorem putBytes_waves (dev : Device) (o : Loc) (bs : List Byte) : (putBytes dev o bs).waves = dev.waves := by
  cases o with
  | glob a => exact (stored_putBytes_glob dev a bs).waves
  | scr g a => exact modWg_waves ..

theorem touches_writeBar (dev : Device) (who : Who) (o : Loc) (b : Bar) : Touches who dev (writeBar dev who o b) :=
  .rest (touches_stampWrite dev who o) (putBytes_waves ..)

theorem touches_writeRing (dev : Device) (who : Who) (o : Loc) (r : Ring) : Touches who dev (writeRing dev who o r) :=
  .rest (touches_stampWrite dev who o) (putBytes_waves ..)

theorem touches_breakObj (dev : Device) (who : Who) (o : Loc) : Touches who dev (breakObj dev who o) := by
  unfold breakObj
  split
  · exact .refl
  · exact .rest (touches_stampWrite dev who o) (putByte_waves ..)

theorem touches_publish (dev : Device) (who : Who) (o : Loc) (i : Nat) : Touches who dev (publish dev who o i) := by
  unfold publish
  split
  · exact .refl
  · exact .rest (touches_writeRing dev who o _) rfl

theorem touches_release (dev : Device) (who : Who) (o : Loc) (i : Nat) : Touches who dev (release dev who o i) := by
  unfold release
  split
  · exact .refl
  · exact .rest (touches_writeRing dev who o _) rfl

theorem touches_leaveRole (dev : Device) (who : Who) (o : Loc) (put : Bool) : Touches who dev (leaveRole dev who o put) := by
  cases put with
  | false => exact touches_writeRing ..
  | true => exact touches_writeRing ..

theorem sweepSlots_waves (dev : Device) (g : Nat) : (sweepSlots dev g).waves = dev.waves := modWg_waves ..

/-- A thread that leaves its barriers and rings (R236). -/
theorem touches_leaveBarrier (dev : Device) (w l n : Nat) : Touches (.lane w l) dev (leaveBarrier dev w l n).2 := by
  unfold leaveBarrier
  dsimp only
  split
  · exact .thread .refl rfl _ fun _ => rfl
  · refine .rest (.thread ?_ rfl (fun t => { t with breg := t.breg &&& ~~~(1#32 <<< n), arr := NMap.erase t.arr n })
      fun _ => rfl) (sweepSlots_waves ..)
    split
    · exact touches_writeBar ..
    · exact touches_writeBar ..

/-- A putter, where the thread is one, leaves a ring that is not broken (R249). -/
theorem touches_putter (dev : Device) (who : Who) (o : Loc) (put : Bool) (ns : List Nat) :
    Touches who dev (if put then leaveRole (ns.foldl (fun d i => publish d who o i) dev) who o true else dev) := by
  cases put with
  | false => exact .refl
  | true =>
    rw [if_pos rfl]
    exact (touches_foldl (f := fun d i => publish d who o i) (fun d i => touches_publish d who o i) ns dev).trans
      (touches_leaveRole ..)

/-- A getter likewise. -/
theorem touches_getter (dev : Device) (who : Who) (o : Loc) (get : Bool) (ns : List Nat) :
    Touches who dev (if get then leaveRole (ns.foldl (fun d i => release d who o i) dev) who o false else dev) := by
  cases get with
  | false => exact .refl
  | true =>
    rw [if_pos rfl]
    exact (touches_foldl (f := fun d i => release d who o i) (fun d i => touches_release d who o i) ns dev).trans
      (touches_leaveRole ..)

theorem touches_leaveRing (dev : Device) (w l n : Nat) : Touches (.lane w l) dev (leaveRing dev w l n).2 := by
  unfold leaveRing
  dsimp only
  split
  · exact .thread .refl rfl _ fun _ => rfl
  · split
    · exact .refl
    · refine .rest (.thread ?_ rfl (fun t => { t with rings := NMap.erase t.rings n }) fun _ => rfl) (sweepSlots_waves ..)
      split
      · exact touches_writeRing ..
      · exact (touches_putter ..).trans (touches_getter ..)

theorem touches_exitObjects (dev : Device) (w l : Nat) : Touches (.lane w l) dev (exitObjects dev w l) :=
  (touches_foldl (f := fun d n => (leaveBarrier d w l n).2) (fun d n => touches_leaveBarrier d w l n) _ dev).trans
    (touches_foldl (f := fun d n => (leaveRing d w l n).2) (fun d n => touches_leaveRing d w l n) _ _)

theorem touches_breakObjects (dev : Device) (w l : Nat) : Touches (.lane w l) dev (breakObjects dev w l) :=
  .thread (touches_foldl (f := fun d (b : Bind) => unregister (breakObj d (.lane w l) b.loc) b.loc w l)
    (fun d b => .rest (touches_breakObj d (.lane w l) b.loc) rfl) _ dev) rfl _ fun _ => rfl

theorem discardEntry_waves (dev : Device) (c : Nat) (t : Thread) : (discardEntry dev c t).waves = dev.waves := by
  unfold discardEntry
  split
  · rfl
  · dsimp only
    split
    · rfl
    · split
      · split
        · exact modWg_waves ..
        · rfl
      · rfl

theorem checkNext_waves (dev : Device) (n : Nat) : (checkNext dev n).waves = dev.waves := by
  unfold checkNext
  split
  · rfl
  · split
    · rfl
    · rfl

theorem replayExit_waves (dev : Device) (n id : Nat) : (replayExit dev n id).waves = dev.waves := by
  unfold replayExit
  split
  · rfl
  · dsimp only
    split
    · exact checkNext_waves ..
    · exact checkNext_waves ..

theorem touches_membersFollow (dev : Device) (w k l : Nat) : Touches (.lane w l) dev (membersFollow dev w k l) :=
  touches_raisePts ..

end

/-! ### A thread that has ended stays so -/

/-- Wave `w`, wherever it is listed, is in workgroup `h`; its lane `l` has arrived at no gathering, and where `P` holds its
thread `l` does not run. -/
structure Stands (P : Prop) (w l h : Nat) (dev : Device) : Prop where
  homed : ∀ p ∈ dev.waves, p.1 = w → p.2.wg = h
  absent : ∀ x, NMap.find? dev.waves w = some x → Absent l x
  ended : P → ∀ x t, NMap.find? dev.waves w = some x → NMap.find? x.threads l = some t → alive t = false

/-- From `dev` to `d` that stays so. -/
structure Keeps (w l : Nat) (dev d : Device) : Prop where
  stands : ∀ {P h}, Stands P w l h dev → Stands P w l h d

section
variable {w l : Nat} {dev d e : Device}

theorem Keeps.refl (w l : Nat) (dev : Device) : Keeps w l dev dev := ⟨id⟩

theorem Keeps.trans (h : Keeps w l dev d) (k : Keeps w l d e) : Keeps w l dev e := ⟨k.stands ∘ h.stands⟩

theorem Keeps.of_waves (h : d.waves = dev.waves) : Keeps w l dev d := by
  refine ⟨fun hs => ?_⟩
  obtain ⟨homed, absent, ended⟩ := hs
  exact ⟨by rwa [h], by rwa [h], by rwa [h]⟩

theorem Keeps.rest (h : Keeps w l dev d) (he : e.waves = d.waves) : Keeps w l dev e := h.trans (.of_waves he)

/-- The jobs are no part of it. -/
theorem Keeps.jobs (h : Keeps w l dev d) (m : NMap Job) : Keeps w l dev { d with jobs := m } := h.rest rfl

theorem keeps_foldl {α : Type} {f : Device → α → Device} (h : ∀ d a, Keeps w l d (f d a)) (ls : List α) (dev : Device) :
    Keeps w l dev (ls.foldl f dev) :=
  List.foldlRecOn (motive := Keeps w l dev) ls f (.refl w l dev) fun _ hd a _ => hd.trans (h _ a)

theorem keeps_foldl_pair {α β : Type} {f : β × Device → α → β × Device} (h : ∀ r a, Keeps w l r.2 (f r a).2) (ls : List α)
    (r : β × Device) : Keeps w l r.2 (ls.foldl f r).2 :=
  List.foldlRecOn (motive := fun q : β × Device => Keeps w l r.2 q.2) ls f (.refl w l _) fun _ hq a _ => hq.trans (h _ a)

/-- A change of a wave that is still as to lane `l`. -/
theorem keeps_modWave (dev : Device) (k : Nat) {f : Wave → Wave} (hf : ∀ x, Absent l x → Still l x (f x)) :
    Keeps w l dev (modWave dev k f) := by
  refine ⟨fun {P h} hs => ?_⟩
  unfold modWave
  split
  next x hx =>
    by_cases hk : w = k
    · subst hk
      have hstill := hf x (hs.absent x hx)
      refine ⟨fun p hp hw => ?_, fun z hz => ?_, fun hP z t hz ht => ?_⟩
      · rcases mem_put hp with rfl | hp
        · exact hstill.wg.trans (hs.homed _ (mem_of_find? hx) rfl)
        · exact hs.homed p hp hw
      · obtain rfl := Option.some.inj ((NMap.find?_put_self ..).symm.trans hz)
        exact hstill.absent (hs.absent x hx)
      · obtain rfl := Option.some.inj ((NMap.find?_put_self ..).symm.trans hz)
        refine Bool.eq_false_iff.mpr fun ha => ?_
        obtain ⟨u, hu, hau⟩ := hstill.alive t ht ha
        exact Bool.false_ne_true ((hs.ended hP x u hx hu).symm.trans hau)
    · have hfind : NMap.find? (setWave dev k (f x)).waves w = NMap.find? dev.waves w := NMap.find?_put_ne _ _ hk
      refine ⟨fun p hp hw => ?_, ?_, ?_⟩
      · rcases mem_put hp with rfl | hp
        · exact absurd hw.symm hk
        · exact hs.homed p hp hw
      · rw [hfind]; exact hs.absent
      · rw [hfind]; exact hs.ended
  next => exact hs

theorem keeps_modThreadAt (dev : Device) (k m : Nat) {f : Thread → Thread} (hf : ∀ t, alive (f t) = true → alive t = true) :
    Keeps w l dev (modThreadAt dev k m f) :=
  keeps_modWave dev k fun x _ => still_modThread x m hf

theorem Touches.keeps {who : Who} (h : Touches who dev d) : Keeps w l dev d := by
  induction h with
  | refl => exact .refl w l dev
  | rest _ he ih => exact ih.rest he
  | thread _ _ f hf ih => exact ih.trans (keeps_modThreadAt _ _ _ fun t ha => by rwa [← alive_of_run (hf t)])

/-- Waves that go, go with all that is listed of them. -/
theorem keeps_filter (dev : Device) (g : Nat) :
    Keeps w l dev { dev with waves := dev.waves.filter fun p => p.2.wg != g } := by
  refine ⟨fun {P h} hs => ?_⟩
  have hfind : ∀ x, NMap.find? (dev.waves.filter fun p => p.2.wg != g) w = some x → NMap.find? dev.waves w = some x := by
    have homed := hs.homed
    generalize dev.waves = m at homed
    intro x hx
    induction m with
    | nil => exact hx
    | cons p r ih =>
      have hr := fun q hq => homed q (List.mem_cons_of_mem _ hq)
      rw [List.filter_cons] at hx
      rw [NMap.find?]
      split at hx
      · rw [NMap.find?] at hx
        split
        next e => rwa [if_pos e] at hx
        next e => exact ih hr (by rwa [if_neg e] at hx)
      next hg =>
        split
        next e =>
          have hp : p.2.wg = g := by simpa using hg
          have hmem := List.mem_filter.mp (mem_of_find? hx)
          have hxg : x.wg = g := (hr _ hmem.1 rfl).trans ((homed p List.mem_cons_self e).symm.trans hp)
          exact absurd hxg (by simpa using hmem.2)
        next => exact ih hr hx
  exact ⟨fun p hp => hs.homed p (List.mem_of_mem_filter hp), fun x hx => hs.absent x (hfind x hx),
    fun hP x t hx ht => hs.ended hP x t (hfind x hx) ht⟩

theorem still_tokenArrived (dev : Device) (n k : Nat) (x : Wave) : Still l x (tokenArrived dev n k x) := by
  unfold tokenArrived
  split
  · refine ⟨rfl, fun _ => id, fun u hu ha => ?_⟩
    rw [NMap.find?_mapKey x.threads (afterPass dev n k) l] at hu
    obtain ⟨t, ht, rfl⟩ := Option.map_eq_some_iff.mp hu
    exact ⟨t, ht, ha⟩
  · exact .refl ..

theorem keeps_deliverToken (dev : Device) (n : Nat) : Keeps w l dev (deliverToken dev n) := by
  refine ⟨fun {P h} hs => ?_⟩
  have hw := waves_deliverToken dev n
  have hfind (z : Wave) (hz : NMap.find? (deliverToken dev n).waves w = some z) :
      ∃ x, NMap.find? dev.waves w = some x ∧ Still l x z := by
    rw [hw, NMap.find?_mapKey dev.waves (tokenArrived dev n) w] at hz
    obtain ⟨x, hx, rfl⟩ := Option.map_eq_some_iff.mp hz
    exact ⟨x, hx, still_tokenArrived dev n w x⟩
  refine ⟨fun p hp hpw => ?_, fun z hz => ?_, fun hP z t hz ht => ?_⟩
  · rw [hw] at hp
    obtain ⟨q, hq, rfl⟩ := List.mem_map.mp hp
    exact (still_tokenArrived (l := l) dev n q.1 q.2).wg.trans (hs.homed q hq hpw)
  · obtain ⟨x, hx, hstill⟩ := hfind z hz
    exact hstill.absent (hs.absent x hx)
  · obtain ⟨x, hx, hstill⟩ := hfind z hz
    refine Bool.eq_false_iff.mpr fun ha => ?_
    obtain ⟨u, hu, hau⟩ := hstill.alive t ht ha
    exact Bool.false_ne_true ((hs.ended hP x u hx hu).symm.trans hau)

/-! ### The end of waves and workgroups (R327, R373, R375) -/

theorem still_endedWave (x : Wave) : Still l x { x with live := false, resident := false, groups := [], gathers := [] } :=
  ⟨rfl, fun _ hq => absurd hq List.not_mem_nil, fun t ht ha => ⟨t, ht, ha⟩⟩

theorem keeps_endWave (dev : Device) (k : Nat) : Keeps w l dev (endWave dev k) := by
  have hd : Keeps w l dev (modWave (unpinWave dev k) k fun x =>
      { x with live := false, resident := false, groups := [], gathers := [] }) := by
    refine Keeps.trans (.of_waves (d := unpinWave dev k) rfl) (keeps_modWave _ _ ?_)
    exact fun x _ => still_endedWave x
  unfold endWave
  dsimp only
  split
  · exact hd
  · exact (hd.rest (modLaunch_waves ..)).trans (keeps_deliverToken ..)

theorem keeps_removeWg (dev : Device) (g : Nat) : Keeps w l dev (removeWg dev g) := by
  have hd : Keeps w l dev { dev with wgs := NMap.erase dev.wgs g, waves := dev.waves.filter fun p => p.2.wg != g } :=
    (keeps_filter dev g).rest rfl
  unfold removeWg
  dsimp only
  split
  · exact hd.rest rfl
  · exact hd.rest (modLaunch_waves ..)

theorem keeps_discardEntry (dev : Device) (c : Nat) (t : Thread) : Keeps w l dev (discardEntry dev c t) :=
  .of_waves (discardEntry_waves ..)

theorem keeps_killWave (dev : Device) (k : Nat) (cause : Cause) : Keeps w l dev (killWave dev k cause).2 := by
  unfold killWave
  dsimp only
  split
  · exact .refl ..
  · have hlog : Keeps w l dev (match writeLog dev (wave dev k).ctx (waveRecord (wave dev k) cause) with
        | some d => (true, d)
        | none => (false, dev)).2 := by
      cases hl : writeLog dev (wave dev k).ctx (waveRecord (wave dev k) cause) with
      | none => exact .refl ..
      | some d => exact .of_waves (stored_writeLog hl).waves
    refine Keeps.trans ?_ (keeps_endWave ..)
    refine (hlog.trans (keeps_foldl (fun d m => ?_) (aliveLanes (wave dev k)) _)).rest rfl
    refine ((keeps_discardEntry ..).trans (touches_breakObjects ..).keeps).trans (keeps_modThreadAt _ _ _ ?_)
    exact fun _ ha => absurd ha Bool.false_ne_true

theorem keeps_engUnname (dev : Device) (o : Loc) (n : Nat) : Keeps w l dev (engUnname dev o n) := .of_waves rfl

theorem keeps_jobLeaveRing (dev : Device) (id : Nat) : Keeps w l dev (jobLeaveRing dev id) := by
  unfold jobLeaveRing
  dsimp only
  split
  next =>
    split
    · exact (Keeps.refl w l dev).jobs _
    · refine Keeps.jobs (Keeps.trans ?_ (touches_leaveRole ..).keeps) _
      split
      · exact (touches_publish ..).keeps
      · exact .refl ..
  next => exact .of_waves rfl

theorem keeps_jobFinish (dev : Device) (id state status : Nat) : Keeps w l dev (jobFinish dev id state status) := by
  unfold jobFinish
  dsimp only
  exact ((keeps_jobLeaveRing dev id).trans (keeps_foldl (f := fun d l => engUnname d l id)
    (fun d o => keeps_engUnname d o id) _ _)).jobs _

theorem keeps_cancelJobs (dev : Device) (g : Nat) : Keeps w l dev (cancelJobs dev g) := by
  refine keeps_foldl (fun d p => ?_) _ _
  split
  · dsimp only
    split
    · exact keeps_jobFinish ..
    · exact ((Keeps.refl w l d).jobs _).trans (keeps_jobFinish ..)
  · exact .refl ..

theorem keeps_cancelChunks (dev : Device) (g : Nat) : Keeps w l dev (cancelChunks dev g) := .of_waves rfl

theorem keeps_kilnLeaveRings (dev : Device) (g : Nat) : Keeps w l dev (kilnLeaveRings dev g) := by
  refine keeps_foldl (fun d o => ?_) _ _
  split
  · dsimp only
    refine Keeps.trans ?_ (keeps_engUnname ..)
    split
    · exact .refl ..
    · exact (keeps_foldl (f := fun e i => release e (.kiln (wg d g).core) o.loc i)
        (fun e i => (touches_release e (.kiln (wg d g).core) o.loc i).keeps) _ d).trans (touches_leaveRole ..).keeps
  · exact .refl ..

theorem keeps_endKiln (dev : Device) (g : Nat) : Keeps w l dev (endKiln dev g) :=
  (keeps_kilnLeaveRings dev g).rest (modWg_waves ..)

theorem keeps_killedWork (dev : Device) (g : Nat) (cause : Nat → Cause) : Keeps w l dev (killedWork dev g cause).2 := by
  have hw := keeps_foldl_pair (w := w) (l := l)
    (f := fun (r : Bool × Device) k => (r.1 && (killWave r.2 k (cause k)).1, (killWave r.2 k (cause k)).2))
    (fun r k => keeps_killWave r.2 k (cause k)) (wg dev g).waves (true, dev)
  unfold killedWork
  dsimp only
  exact ((hw.trans (keeps_cancelJobs ..)).trans (keeps_cancelChunks ..)).rest (modWg_waves ..)

theorem keeps_killWg (dev : Device) (g : Nat) (cause : Nat → Cause) : Keeps w l dev (killWg dev g cause).2 := by
  rw [killWg_eq]
  refine (keeps_killedWork dev g cause).trans ?_
  dsimp only
  split
  · exact .of_waves (modWg_waves ..)
  · exact (keeps_endKiln ..).trans (keeps_removeWg ..)

/-- A workgroup whose last wave has ended. -/
def endedWg (dev : Device) (g : Nat) : Device := modWg dev g fun y => { y with ended := true, paths := [], dests := [] }

/-- The same with its reservation ended and its slots unbound. -/
def closedWg (dev : Device) (g : Nat) : Device :=
  sweepObjs (modWg (if (wg dev g).kiln.isSome then endKiln (endedWg dev g) g else endedWg dev g) g fun y =>
    { y with bslots := [], rslots := [] })

/-- How far the end of a workgroup gets. -/
theorem settleWg_cases (dev : Device) (g : Nat) : settleWg dev g = dev ∨ settleWg dev g = endedWg dev g ∨
    settleWg dev g = closedWg dev g ∨ settleWg dev g = removeWg (closedWg dev g) g := by
  have hbusy (b c : Bool) (d1 d2 d3 : Device) : (if b then d1 else if c then d2 else d3) = d1 ∨
      (if b then d1 else if c then d2 else d3) = d2 ∨ (if b then d1 else if c then d2 else d3) = d3 := by
    cases b <;> cases c <;> simp
  unfold settleWg
  dsimp only
  split
  · exact .inl rfl
  · exact .inr (hbusy _ _ (endedWg dev g) (closedWg dev g) (removeWg (closedWg dev g) g))

theorem keeps_endedWg (dev : Device) (g : Nat) : Keeps w l dev (endedWg dev g) := .of_waves (modWg_waves ..)

theorem keeps_closedWg (dev : Device) (g : Nat) : Keeps w l dev (closedWg dev g) := by
  refine Keeps.rest (d := if (wg dev g).kiln.isSome then endKiln (endedWg dev g) g else endedWg dev g) ?_ (modWg_waves ..)
  split
  · exact (keeps_endedWg dev g).trans (keeps_endKiln ..)
  · exact keeps_endedWg dev g

theorem keeps_settleWg (dev : Device) (g : Nat) : Keeps w l dev (settleWg dev g) := by
  rcases settleWg_cases dev g with h | h | h | h <;> rw [h]
  · exact .refl ..
  · exact keeps_endedWg dev g
  · exact keeps_closedWg dev g
  · exact (keeps_closedWg dev g).trans (keeps_removeWg ..)

/-! ### The loss of a context (R69, R370) -/

theorem keeps_killStep (r : Bool × Device) (k : Cause) (g : Nat) : Keeps w l r.2 (killStep k r g).2 := by
  unfold killStep
  generalize (fun _ : Nat => if r.1 then k else saveCause) = cause
  refine (keeps_killWg r.2 g cause).trans ?_
  dsimp only
  split
  · exact (keeps_endKiln ..).trans (keeps_removeWg ..)
  · exact .refl ..

theorem keeps_endContext (dev : Device) (c : Nat) (keep : Option Nat) (k : Cause) : Keeps w l dev (endContext dev c keep k) := by
  refine Keeps.trans (d := killAll dev c keep k) ?_ (.of_waves ?_)
  · exact (keeps_foldl_pair (f := killStep k) (fun r g => keeps_killStep r k g) (wgsOf dev c) (true, dev)).rest (waves_killAll ..)
  · exact (waves_zeroGranules ..).trans (waves_closeSessions ..)

theorem keeps_haltQueues (dev : Device) (c code : Nat) (keep : Option Nat) : Keeps w l dev (haltQueues dev c code keep) :=
  .of_waves rfl

theorem keeps_saveAreaLoss (dev : Device) (c : Nat) : Keeps w l dev (saveAreaLoss dev c) := by
  unfold saveAreaLoss
  split
  · exact (keeps_endContext ..).rest (waves_zeroGranules ..)
  · unfold discardContext
    exact ((keeps_haltQueues ..).trans (keeps_endContext ..)).rest (modCtx_waves ..)

theorem keeps_killByFault (dev : Device) (k : Nat) (cause : Cause) : Keeps w l dev (killByFault dev k cause) := by
  have hk (cs : Nat → Cause) := keeps_foldl_pair (w := w) (l := l)
    (f := fun (r : Bool × Device) g => (r.1 && (killWg r.2 g cs).1, (killWg r.2 g cs).2))
    (fun r g => keeps_killWg r.2 g cs) (killScope dev (wave dev k).wg) (true, dev)
  unfold killByFault
  dsimp only
  split
  · exact hk _
  · exact (hk _).trans (keeps_saveAreaLoss ..)

theorem keeps_settleFatal (dev : Device) (k : Nat) : Keeps w l dev (settleFatal dev k) := by
  unfold settleFatal
  split
  · exact keeps_killByFault ..
  · exact .refl ..

end

/-! ### The exit of a thread (R157, R236, R276, R373) -/

/-- The device once thread `l` has left its objects and its entry is discarded. -/
def leftObjects (dev : Device) (w l : Nat) : Device :=
  discardEntry (exitObjects dev w l) (wave (exitObjects dev w l) w).ctx (threadAt (exitObjects dev w l) w l)

/-- The wave with thread `l` recorded as exited. -/
def exitRecorded (l : Nat) (x : Wave) : Wave :=
  modThread (match groupOf x l with | some g => leaveLane x g l | none => x) l fun t =>
    { t with run := .exited, pc := pcOf x l, wait := .none, lead := false, mark := .none }

/-- The device once thread `l` has exited. -/
def threadExited (dev : Device) (w l : Nat) : Device :=
  modWave (leftObjects dev w l) w fun x => failGathers (exitRecorded l x) l

theorem exitThread_eq (dev : Device) (w l : Nat) : exitThread dev w l =
    if (aliveLanes (wave (threadExited dev w l) w)).isEmpty then
      settleWg (endWave (threadExited dev w l) w) (wave (threadExited dev w l) w).wg
    else threadExited dev w l := rfl

theorem touches_leftObjects (dev : Device) (w l : Nat) : Touches (.lane w l) dev (leftObjects dev w l) :=
  .rest (touches_exitObjects dev w l) (discardEntry_waves ..)

section
variable {w l m h : Nat} {dev : Device} {x : Wave} {P : Prop}

theorem still_exitRecorded (m : Nat) (x : Wave) : Still l x (exitRecorded m x) :=
  (still_leaveOwn x m).trans (still_modThread _ m fun _ ha => absurd ha Bool.false_ne_true)

theorem still_exited (ha : Absent l x) (m : Nat) : Still l x (failGathers (exitRecorded m x) m) :=
  (still_exitRecorded m x).trans (still_failGathers ((still_exitRecorded m x).absent ha) m)

theorem keeps_endExited (dev : Device) (k : Nat) : Keeps w l dev
    (if (aliveLanes (wave dev k)).isEmpty then settleWg (endWave dev k) (wave dev k).wg else dev) := by
  split
  · exact (keeps_endWave ..).trans (keeps_settleWg ..)
  · exact .refl ..

theorem keeps_exitThread (dev : Device) (m : Nat) : Keeps w l dev (exitThread dev w m) := by
  rw [exitThread_eq]
  refine ((touches_leftObjects dev w m).keeps.trans (keeps_modWave _ w ?_)).trans (keeps_endExited ..)
  exact fun x ha => still_exited ha m

/-- A thread that has exited does not run. -/
theorem stands_exitThread (hs : Stands P w l h dev) : Stands True w l h (exitThread dev w l) := by
  rw [exitThread_eq]
  refine (keeps_endExited ..).stands ?_
  have h2 := (touches_leftObjects dev w l).keeps.stands hs
  have h3 := (keeps_modWave (leftObjects dev w l) w fun x ha => still_exited ha l).stands h2
  refine ⟨h3.homed, h3.absent, fun _ z t hz ht => ?_⟩
  cases hx : NMap.find? (leftObjects dev w l).waves w with
  | none =>
    rw [threadExited, modWave, hx] at hz
    exact absurd (hx.symm.trans hz) nofun
  | some x =>
    obtain rfl := Option.some.inj ((find_modWave_self _ hx).symm.trans hz)
    refine Bool.eq_false_iff.mpr fun ha => ?_
    obtain ⟨u, hu, hau⟩ := (still_failGathers ((still_exitRecorded l x).absent (h2.absent x hx)) l).alive t ht ha
    rw [exitRecorded, find_modThread, if_pos rfl] at hu
    obtain ⟨v, -, rfl⟩ := Option.map_eq_some_iff.mp hu
    exact Bool.false_ne_true hau

end

/-! ### EXIT of a group (R157, R195) -/

/-- The device as the next member of an EXIT exits: its events follow those of the last that had some, and a replay knows. -/
def exitEve (x : Wave) (w : Nat) (q : Device × Option Nat) (l : Nat) : Device :=
  replayExit (match q.2 with | some k => membersFollow q.1 w k l | none => q.1) (thread x l).launch (thread x l).workid.toNat

/-- One member of an EXIT. -/
def exitStep (x : Wave) (w : Nat) (q : Device × Option Nat) (l : Nat) : Device × Option Nat :=
  let d := match q.2 with | some k => membersFollow q.1 w k l | none => q.1
  let d1 := exitThread (exitEve x w q l) w l
  (d1, if (threadAt d1 w l).evSeq = (threadAt d w l).evSeq then q.2 else some l)

/-- The device after an EXIT of group `g` of wave `w`. -/
def groupExited (dev : Device) (w g : Nat) (p : Pred) : Device :=
  let x := wave dev w
  let y := group x g
  settleFatal (modWave ((performers x y p).foldl (exitStep x w) (dev, none)).1 w fun z =>
    leaveGroup z g fun _ => nextClause y) w

theorem exec_exit (p : Pred) (s : State) :
    exec (.exit p) s = .next { s with dev := groupExited s.dev s.dev.cur.1 s.dev.cur.2 p } := rfl

theorem touches_exitEve (x : Wave) (w : Nat) (q : Device × Option Nat) (l : Nat) :
    Touches (.lane w l) q.1 (exitEve x w q l) := by
  refine .rest ?_ (replayExit_waves ..)
  split
  · exact touches_membersFollow ..
  · exact .refl

section
variable {w l m h : Nat} {x : Wave} {q : Device × Option Nat} {P : Prop}

theorem exitStep_fst (x : Wave) (w : Nat) (q : Device × Option Nat) (l : Nat) :
    (exitStep x w q l).1 = exitThread (exitEve x w q l) w l := by
  unfold exitStep
  dsimp only

theorem keeps_exitStep (x : Wave) (q : Device × Option Nat) (m : Nat) : Keeps w l q.1 (exitStep x w q m).1 := by
  rw [exitStep_fst]
  exact (touches_exitEve x w q m).keeps.trans (keeps_exitThread ..)

theorem stands_exitStep (x : Wave) (hs : Stands P w l h q.1) : Stands True w l h (exitStep x w q l).1 := by
  rw [exitStep_fst]
  exact stands_exitThread ((touches_exitEve x w q l).keeps.stands hs)

/-- Each member that performs an EXIT runs no more. -/
theorem stands_exits (x : Wave) {ls : List Nat} (hl : l ∈ ls) (hs : Stands P w l h q.1) :
    Stands True w l h (ls.foldl (exitStep x w) q).1 := by
  induction ls generalizing q with
  | nil => exact absurd hl List.not_mem_nil
  | cons m ls ih =>
    rw [List.foldl_cons]
    by_cases hm : l = m
    · subst hm
      exact List.foldlRecOn (motive := fun r : Device × Option Nat => Stands True w l h r.1) ls _ (stands_exitStep x hs)
        fun r hr k _ => (keeps_exitStep x r k).stands hr
    · exact ih ((List.mem_cons.mp hl).resolve_left hm) ((keeps_exitStep x q m).stands hs)

end

section
variable {s : State} {x : Wave} {y : Group} {p : Pred} {l : Nat}

theorem exit_ends (h : Issues s x y) (hg : ∀ q ∈ x.gathers, ∀ a ∈ q.2.arr, a.lane ∉ y.lanes)
    (nd : (s.dev.waves.map Prod.fst).Nodup) (hl : l ∈ performers x y p) {u : Thread}
    (hu : NMap.find? (wave (groupExited s.dev s.dev.cur.1 s.dev.cur.2 p) s.dev.cur.1).threads l = some u) :
    alive u = false := by
  have hly : l ∈ y.lanes := List.mem_of_mem_filter hl
  have hs : Stands False s.dev.cur.1 l x.wg s.dev := by
    refine ⟨fun q hq hw => ?_, fun z hz => ?_, False.elim⟩
    · have hx := NMap.find?_of_mem_nodup nd hq
      rw [hw, h.wave] at hx
      rw [← Option.some.inj hx]
    · obtain rfl := Option.some.inj (h.wave.symm.trans hz)
      exact fun q hq a ha e => hg q hq a ha (e ▸ hly)
  have he : Stands True s.dev.cur.1 l x.wg (groupExited s.dev s.dev.cur.1 s.dev.cur.2 p) := by
    rw [groupExited, wave_of_find h.wave, group_of_find h.group]
    refine (keeps_settleFatal ..).stands ((keeps_modWave _ _ ?_).stands (stands_exits x hl hs))
    exact fun z _ => still_leaveGroup ..
  cases hz : NMap.find? (groupExited s.dev s.dev.cur.1 s.dev.cur.2 p).waves s.dev.cur.1 with
  | none =>
    rw [wave, NMap.get, hz] at hu
    exact absurd hu nofun
  | some z =>
    rw [wave_of_find hz] at hu
    exact he.ended trivial z u hz hu

end

/-! ### While another thread of the wave runs (R373) -/

theorem mem_modThread {x : Wave} {m k : Nat} {u : Thread} (h : (m, u) ∈ x.threads) (hk : m ≠ k) (f : Thread → Thread) :
    (m, u) ∈ (modThread x k f).threads := by
  unfold modThread
  split
  · exact NMap.mem_put_of_ne h hk _
  · exact h

theorem aliveLanes_nonempty {x : Wave} {m : Nat} {u : Thread} (h : (m, u) ∈ x.threads) (ha : alive u = true) :
    (aliveLanes x).isEmpty = false := by
  have hm : m ∈ aliveLanes x := by
    unfold aliveLanes
    generalize x.threads = ts at h
    induction ts with
    | nil => exact absurd h List.not_mem_nil
    | cons p r ih =>
      rw [List.foldr_cons]
      rcases List.mem_cons.mp h with rfl | h
      · rw [if_pos ha]
        exact List.mem_cons_self
      · split
        · exact List.mem_cons_of_mem _ (ih h)
        · exact ih h
  exact Bool.eq_false_iff.mpr fun he => List.ne_nil_of_mem hm (List.isEmpty_iff.mp he)

/-- Leaving a group leaves a thread's run. -/
theorem run_leaveGroup {x : Wave} {l : Nat} {t : Thread} (g : Nat) (tgt : Nat → DWord) (ht : NMap.find? x.threads l = some t) :
    ∃ u, NMap.find? (leaveGroup x g tgt).threads l = some u ∧ u.run = t.run := by
  refine List.foldlRecOn (motive := fun z : Wave => ∃ u, NMap.find? z.threads l = some u ∧ u.run = t.run) (group x g).lanes
    (fun z k => modThread z k fun t => goTo t (tgt k)) ⟨t, ht, rfl⟩ fun z hz k _ => ?_
  obtain ⟨u, hu, hr⟩ := hz
  rw [find_modThread]
  split
  next e => exact ⟨goTo u (tgt k), by rw [← e, hu]; rfl, hr⟩
  next => exact ⟨u, hu, hr⟩

/-- A wave with nothing to fail or to kill, and thread `u` at lane `m`; its thread `l` is there, exited where `Q` holds. -/
structure Outlived (Q : Prop) (l m : Nat) (u : Thread) (x : Wave) : Prop where
  quiet : x.gathers = [] ∧ x.fatal = none
  other : (m, u) ∈ x.threads
  exited : ∃ t, NMap.find? x.threads l = some t ∧ (Q → t.run = .exited)

section
variable {Q : Prop} {w l m k : Nat} {u : Thread} {x z : Wave} {dev d : Device}

/-- Groups are no part of it. -/
theorem Outlived.of_same (h : Outlived Q l m u x) (hq : z.gathers = x.gathers ∧ z.fatal = x.fatal) (ht : z.threads = x.threads) :
    Outlived Q l m u z := by
  obtain ⟨⟨hg, hf⟩, hm, he⟩ := h
  exact ⟨⟨hq.1.trans hg, hq.2.trans hf⟩, ht ▸ hm, ht ▸ he⟩

/-- A change of another thread than `m`, which leaves its run or lets it exit. -/
theorem Outlived.modThread (h : Outlived Q l m u x) (hk : m ≠ k) {f : Thread → Thread}
    (hf : ∀ t, t.run = .exited → (f t).run = .exited) : Outlived Q l m u (modThread x k f) := by
  obtain ⟨⟨hg, hq⟩, hm, t, ht, he⟩ := h
  refine ⟨by rw [modThread_eq]; exact ⟨hg, hq⟩, mem_modThread hm hk f, ?_⟩
  rw [find_modThread]
  split
  next e =>
    rw [← e, ht]
    exact ⟨f t, rfl, fun hQ => hf t (he hQ)⟩
  next => exact ⟨t, ht, he⟩

theorem Outlived.leaveOwn (h : Outlived Q l m u x) (k : Nat) :
    Outlived Q l m u (match groupOf x k with | some g => leaveLane x g k | none => x) := by
  split
  · unfold leaveLane
    dsimp only
    split
    · exact h.of_same ⟨rfl, rfl⟩ rfl
    · exact h.of_same ⟨rfl, rfl⟩ rfl
  · exact h

theorem Outlived.failGathers (h : Outlived Q l m u x) (k : Nat) : failGathers x k = x := by
  unfold Machine.failGathers
  rw [h.quiet.1, List.foldl_nil]

theorem Outlived.exitRecorded (h : Outlived Q l m u x) (hk : m ≠ k) : Outlived Q l m u (exitRecorded k x) :=
  (h.leaveOwn k).modThread hk fun _ _ => rfl

theorem Outlived.exitRecorded_self (h : Outlived Q l m u x) (hl : m ≠ l) : Outlived True l m u (Machine.exitRecorded l x) := by
  obtain ⟨hq, hm, t, ht, -⟩ := h.exitRecorded hl
  refine ⟨hq, hm, t, ht, fun _ => ?_⟩
  rw [Machine.exitRecorded, find_modThread, if_pos rfl] at ht
  obtain ⟨v, -, rfl⟩ := Option.map_eq_some_iff.mp ht
  rfl

/-- Wave `w` of a device is such a wave. -/
def OutlivedAt (Q : Prop) (w l m : Nat) (u : Thread) (dev : Device) : Prop :=
  ∃ x, NMap.find? dev.waves w = some x ∧ Outlived Q l m u x

theorem OutlivedAt.modWave (h : OutlivedAt Q w l m u dev) {Q' : Prop} {f : Wave → Wave}
    (hf : ∀ x, Outlived Q l m u x → Outlived Q' l m u (f x)) : OutlivedAt Q' w l m u (modWave dev w f) := by
  obtain ⟨x, hx, hq⟩ := h
  exact ⟨f x, find_modWave_self f hx, hf x hq⟩

theorem OutlivedAt.touches (h : OutlivedAt Q w l m u dev) (hk : m ≠ k) (ht : Touches (.lane w k) dev d) :
    OutlivedAt Q w l m u d := by
  induction ht with
  | refl => exact h
  | rest _ he ih =>
    rw [OutlivedAt, he]
    exact ih
  | thread _ hw f hf ih =>
    obtain ⟨rfl, rfl⟩ := Who.lane.inj hw
    exact ih.modWave fun x hx => hx.modThread hk fun t ht => (hf t).trans ht

/-- The exit of a thread does not end the wave. -/
theorem exitThread_outlived (h : OutlivedAt Q w l m u dev) (ha : alive u = true) (hk : m ≠ k) :
    exitThread dev w k = modWave (leftObjects dev w k) w (exitRecorded k) ∧ OutlivedAt Q w l m u (exitThread dev w k) := by
  obtain ⟨x, hx, hq⟩ := h.touches hk (touches_leftObjects dev w k)
  have he : threadExited dev w k = modWave (leftObjects dev w k) w (exitRecorded k) := by
    rw [threadExited, modWave_of_find _ hx, modWave_of_find _ hx, (hq.exitRecorded hk).failGathers k]
  have hf := find_modWave_self (exitRecorded k) hx
  have hs : exitThread dev w k = modWave (leftObjects dev w k) w (exitRecorded k) := by
    rw [exitThread_eq, he, wave_of_find hf, aliveLanes_nonempty (hq.exitRecorded hk).other ha, if_neg Bool.false_ne_true]
  exact ⟨hs, hs ▸ ⟨_, hf, hq.exitRecorded hk⟩⟩

theorem exitThread_exited (h : OutlivedAt Q w l m u dev) (ha : alive u = true) (hl : m ≠ l) :
    OutlivedAt True w l m u (exitThread dev w l) := by
  rw [(exitThread_outlived h ha hl).1]
  exact (h.touches hl (touches_leftObjects dev w l)).modWave fun x hx => hx.exitRecorded_self hl

theorem outlived_exitStep (x : Wave) {q : Device × Option Nat} (h : OutlivedAt Q w l m u q.1) (ha : alive u = true)
    (hk : m ≠ k) : OutlivedAt Q w l m u (exitStep x w q k).1 := by
  rw [exitStep_fst]
  exact (exitThread_outlived (h.touches hk (touches_exitEve x w q k)) ha hk).2

/-- Each member that performs an EXIT is recorded as exited. -/
theorem outlived_exits (x : Wave) {ls : List Nat} (hl : l ∈ ls) (hm : ∀ k ∈ ls, m ≠ k) (ha : alive u = true)
    {q : Device × Option Nat} (h : OutlivedAt Q w l m u q.1) : OutlivedAt True w l m u (ls.foldl (exitStep x w) q).1 := by
  induction ls generalizing q with
  | nil => exact absurd hl List.not_mem_nil
  | cons k ls ih =>
    rw [List.foldl_cons]
    have hk := hm k List.mem_cons_self
    have hms := fun j hj => hm j (List.mem_cons_of_mem _ hj)
    by_cases e : l = k
    · subst e
      have h1 : OutlivedAt True w l m u (exitStep x w q l).1 := by
        rw [exitStep_fst]
        exact exitThread_exited (h.touches hk (touches_exitEve x w q l)) ha hk
      exact List.foldlRecOn (motive := fun r : Device × Option Nat => OutlivedAt True w l m u r.1) ls _ h1
        fun r hr j hj => outlived_exitStep x hr ha (hms j hj)
    · exact ih ((List.mem_cons.mp hl).resolve_left e) hms (outlived_exitStep x h ha hk)

end

section
variable {s : State} {x : Wave} {y : Group} {p : Pred} {l m : Nat} {u : Thread}

theorem exit_records (h : Issues s x y) (hg : x.gathers = []) (hf : x.fatal = none) (hm : m ∉ y.lanes) (hu : (m, u) ∈ x.threads)
    (ha : alive u = true) (hl : l ∈ performers x y p) :
    (thread (wave (groupExited s.dev s.dev.cur.1 s.dev.cur.2 p) s.dev.cur.1) l).run = .exited := by
  have hmem : ∀ k ∈ performers x y p, k ∈ y.lanes := fun k hk => List.mem_of_mem_filter hk
  obtain ⟨t, ht⟩ := Option.isSome_iff_exists.mp (h.here l (hmem l hl))
  have h0 : OutlivedAt False s.dev.cur.1 l m u s.dev := ⟨x, h.wave, ⟨hg, hf⟩, hu, t, ht, False.elim⟩
  obtain ⟨z, hz, ⟨-, hfz⟩, -, v, hv, hexit⟩ := outlived_exits (q := (s.dev, none)) x hl (fun k hk (e : m = k) => hm (e ▸ hmem k hk)) ha h0
  have hw := find_modWave_self (fun z => leaveGroup z s.dev.cur.2 fun _ => nextClause y) hz
  have hq : (wave (modWave ((performers x y p).foldl (exitStep x s.dev.cur.1) (s.dev, none)).1 s.dev.cur.1 fun z =>
      leaveGroup z s.dev.cur.2 fun _ => nextClause y) s.dev.cur.1).fatal = none := by
    rw [wave_of_find hw, leaveGroup_frame]
    exact hfz
  rw [groupExited, wave_of_find h.wave, group_of_find h.group, settleFatal_none hq, wave_of_find hw]
  obtain ⟨v', hv', hr⟩ := run_leaveGroup s.dev.cur.2 (fun _ => nextClause y) hv
  rw [thread_of_find hv', hr]
  exact hexit trivial

end

/-! ### A thread alone and without registrations -/

section
variable {s : State} {x : Wave} {y : Group} {l m : Nat} {t u : Thread} {p : Pred}

/-- A thread without registrations and without a paint entry leaves nothing behind. -/
theorem leftObjects_none {dev : Device} {w : Nat} (ht : threadAt dev w l = t) (hb : t.breg = 0) (hr : t.rings = [])
    (hp : t.paint = none) : leftObjects dev w l = dev := by
  have hs : slotsOf 0 = [] := by decide
  have he : exitObjects dev w l = dev := by
    unfold exitObjects
    dsimp only
    rw [ht, hb, hr, hs]
    rfl
  rw [leftObjects, he, ht]
  unfold discardEntry
  rw [hp]

/-- The thread as EXIT leaves it. -/
def exitedThread (y : Group) (t : Thread) : Thread :=
  { t with run := .exited, pc := groupPc y, wait := .none, lead := false, mark := .none }

theorem Alone.exitRecorded (h : Alone s x y l t) :
    exitRecorded l x = modThread (dropGroup x s.dev.cur.2) l (exitedThread y) := by
  have hg : groupOf x l = some s.dev.cur.2 := by simp [groupOf, h.groups, h.lanes]
  have hpc : pcOf x l = groupPc y := by
    rw [pcOf, hg]
    exact congrArg groupPc h.group_eq
  rw [Machine.exitRecorded, hg, hpc]
  exact congrArg (modThread · l (exitedThread y)) (leaveLane_only h.group_eq h.lanes)

/-- The wave as EXIT of a thread alone leaves it. -/
def exitedWave (x : Wave) (g l : Nat) (y : Group) : Wave := dropGroup (modThread (dropGroup x g) l (exitedThread y)) g

/-- Everything an EXIT of a thread alone, without registrations, does while another thread of its wave runs. -/
theorem groupExited_alone (h : Alone s x y l t) (hp : performs p t = true) (hb : t.breg = 0) (hr : t.rings = [])
    (hpt : t.paint = none) (hrep : (launch s.dev t.launch).hdr.rep = false) (hm : m ≠ l) (hu : (m, u) ∈ x.threads)
    (ha : alive u = true) : groupExited s.dev s.dev.cur.1 s.dev.cur.2 p =
      setWave s.dev s.dev.cur.1 (exitedWave x s.dev.cur.2 l y) := by
  have hout : OutlivedAt False s.dev.cur.1 l m u s.dev :=
    ⟨x, h.wave, ⟨h.quiet.1, h.quiet.2.2⟩, hu, t, h.thread, False.elim⟩
  have heve : exitEve x s.dev.cur.1 (s.dev, none) l = s.dev := by
    rw [exitEve, h.thread_eq]
    unfold replayExit
    rw [hrep]
    rfl
  have hexit : exitThread s.dev s.dev.cur.1 l =
      setWave s.dev s.dev.cur.1 (modThread (dropGroup x s.dev.cur.2) l (exitedThread y)) := by
    rw [(exitThread_outlived hout ha hm).1, leftObjects_none (threadAt_of_find h.wave h.thread) hb hr hpt,
      modWave_of_find _ h.wave, h.exitRecorded]
  have hgone : NMap.find? (modThread (dropGroup x s.dev.cur.2) l (exitedThread y)).groups s.dev.cur.2 = none := by
    rw [modThread_groups]; exact NMap.find?_erase_self ..
  have hq : (wave (setWave s.dev s.dev.cur.1 (exitedWave x s.dev.cur.2 l y)) s.dev.cur.1).fatal = none := by
    rw [wave_setWave_self, exitedWave]
    show (modThread _ l _).fatal = none
    rw [modThread_fatal]
    exact h.quiet.2.2
  rw [groupExited, h.wave_eq, h.group_eq, h.performers hp, List.foldl_cons, List.foldl_nil, exitStep_fst, heve, hexit, modWave_setWave, leaveGroup_missing hgone]
  exact settleFatal_none hq

theorem exit_alone (h : Alone s x y l t) (hp : performs p t = true) (hb : t.breg = 0) (hr : t.rings = [])
    (hpt : t.paint = none) (hrep : (launch s.dev t.launch).hdr.rep = false) (hm : m ≠ l) (hu : (m, u) ∈ x.threads)
    (ha : alive u = true) :
    ∃ s' x', exec (.exit p) s = .next s' ∧
      s' = { s with dev := { s.dev with waves := s'.dev.waves } } ∧
      (∀ w, w ≠ s.dev.cur.1 → NMap.find? s'.dev.waves w = NMap.find? s.dev.waves w) ∧
      NMap.find? s'.dev.waves s.dev.cur.1 = some x' ∧ x' = { x with threads := x'.threads, groups := [] } ∧
      (∀ m, m ≠ l → NMap.find? x'.threads m = NMap.find? x.threads m) ∧
      NMap.find? x'.threads l =
        some { t with run := .exited, pc := groupPc y, wait := .none, lead := false, mark := .none } := by
  have he := groupExited_alone h hp hb hr hpt hrep hm hu ha
  refine ⟨_, exitedWave x s.dev.cur.2 l y, exec_exit p s, ?_⟩
  rw [he]
  refine ⟨rfl, fun w hw => NMap.find?_put_ne _ _ hw, NMap.find?_put_self .., ?_, fun k hk => ?_, ?_⟩
  · rw [exitedWave, modThread_eq]
    simp [dropGroup, h.groups, NMap.erase]
  · exact (find_modThread (dropGroup x s.dev.cur.2) l k (exitedThread y)).trans (if_neg hk)
  · refine (find_modThread (dropGroup x s.dev.cur.2) l l (exitedThread y)).trans ((if_pos rfl).trans ?_)
    rw [show (dropGroup x s.dev.cur.2).threads = x.threads from rfl, h.thread]
    rfl

end

/-! ### The obligation -/

/-- Settles O19: an exited thread stays so through all that an exit sets off; with another thread running the wave goes on,
and a thread without registrations changes its wave alone. -/
theorem exitEndsThread : Obligations.ExitEndsThread := by
  unfold Obligations.ExitEndsThread
  refine ⟨fun s x y p h _ hg nd => ⟨_, exec_exit p s, fun l hl u hu => exit_ends h hg nd hl hu,
    fun hg0 hf0 hother l hl => ?records⟩, fun s x y l t p h hp hb hr hpt hrep hother => ?alone⟩
  case records =>
    obtain ⟨m, u, hm, hu, ha⟩ := hother
    exact exit_records h hg0 hf0 hm hu ha hl
  case alone =>
    obtain ⟨m, u, hm, hu, ha⟩ := hother
    exact exit_alone h hp hb hr hpt hrep hm hu ha

end Sys2Proof.Machine
end
